-- ==== Sys2Proof/Word.lean ====
section
/-!
DEFINITION. The words of the machine: bytes, 32-bit instruction words, 64-bit registers, and the names of the
register fields of an instruction (spec/00_scope.md R4, spec/03_instruction_words.md R51, R53, R55).
-/
namespace Sys2Proof

/-- One byte; values of more than one byte are stored little-endian (R4). -/
abbrev Byte := BitVec 8
/-- A 32-bit instruction word (R47) and a 32-bit vector lane (R55). -/
abbrev Half := BitVec 32
/-- A 64-bit scalar register, memory word or CSR. -/
abbrev Word := BitVec 64
/-- The name of one of s0–s31 or v0–v31 (R55). -/
abbrev Reg := BitVec 5
/-- The name of one of p0–p7 (R55). -/
abbrev PredIx := BitVec 3
/-- The name of one of c0–c7 (R55). -/
abbrev CapIx := BitVec 3

end Sys2Proof
end

