-- ==== Sys2Proof/Syntax.lean ====
section
/-!
DEFINITION. The instruction set as syntax: one constructor for every row of spec/opcode_table.json, in the order of
that table. Four groups: C-slot instructions and their lone forms (R51, R60), A-slot instructions (R53, R63, R66), the
events of the machine (spec/95_what_each_step_holds.md), and the commands of its management interface (R259).
-/
namespace Sys2Proof

/-- The operands of a vector instruction (R53, R54): register fields, the queue flags of `e`, guard and type.
`qa`, `qb`, `qd` are e[4], e[3], e[2]. A field that the map of R66 marks as unused is zero in a well-formed
instruction. -/
structure VOp where
  d  : Reg
  a  : Reg
  b  : Reg
  qa : BitVec 1
  qb : BitVec 1
  qd : BitVec 1
  g  : PredIx
  t  : BitVec 3
  deriving DecidableEq, Repr

/-- What the supervisor gives a tenant (R245): each area by the physical address of its first byte; sizes in
records, in log2 records for the group table. -/
structure TenantAreas where
  faultQueue  : Nat
  faultSize   : Nat
  parkedArea  : Nat
  vectorArea  : Nat
  groupTable  : Nat
  groupLog    : Nat
  raceRing    : Nat
  raceSize    : Nat
  deriving DecidableEq, Repr

/-- One constructor per row of spec/opcode_table.json. Field names are those of the encodings of R51 and R53:
`d a b` register fields, `c` a capability register, `g` the guard, `imm` a displacement, `ext` the ext32 of a lone
form (R52). Numbers of cores are flat: die × 128 + cluster × 8 + core (R240). -/
inductive Instr where
  -- C-slot instructions and lone forms (R60)
  | nopC
  | ld (d a : Reg) (c : CapIx) (imm : BitVec 12)
  | ldLone (d a : Reg) (c : CapIx) (ext : Half)
  | st (d a : Reg) (c : CapIx) (imm : BitVec 12)
  | stLone (d a : Reg) (c : CapIx) (ext : Half)
  | ldl (d a : Reg) (imm : BitVec 12)
  | ldlLone (d a : Reg) (ext : Half)
  | stl (d a : Reg) (imm : BitVec 12)
  | stlLone (d a : Reg) (ext : Half)
  | ldh (d a : Reg) (c : CapIx) (m : BitVec 1) (imm : BitVec 9)
  | ldf (d a : Reg) (c : CapIx) (m : BitVec 1) (imm : BitVec 9)
  | ldx (d a : Reg) (c : CapIx) (m : BitVec 1) (imm : BitVec 9)
  | stf (d a : Reg) (c : CapIx) (m : BitVec 1) (imm : BitVec 9)
  | stfa (d a : Reg) (c : CapIx) (m : BitVec 1) (imm : BitVec 9)
  | feclr (a : Reg) (c : CapIx) (m : BitVec 1) (imm : BitVec 9)
  /-- Event: the waiting access of this slot, answered BUSY, is reissued. -/
  | waitListBusyReissue (core slot : Nat)
  | lq (d a b : Reg) (c : CapIx) (g : PredIx) (k : BitVec 4)
  /-- Event: the oldest reserved row of load queue `q` of this slot fills. -/
  | loadQueueRowFill (core slot q : Nat)
  | sq (d a b : Reg) (c : CapIx) (g : PredIx) (k : BitVec 4)
  | atom (d a b : Reg) (c : CapIx) (ord : BitVec 2) (size : BitVec 1) (op : BitVec 4)
  | cas (d a b : Reg) (c : CapIx) (ord : BitVec 2) (size : BitVec 1)
  | stg (d a : Reg) (c : CapIx) (imm : BitVec 12)
  | stgLone (d a : Reg) (c : CapIx) (ext : Half)
  /-- Event: the `n`-th STG in flight is performed and acknowledged. -/
  | stgAcknowledgement (n : Nat)
  | fence (g : PredIx) (f : BitVec 2)
  | rflush (d a b : Reg) (c : CapIx) (g : PredIx)
  | rinv (d a b : Reg) (c : CapIx) (g : PredIx)
  /-- Event: the cache walker of this cluster (0–127) completes its oldest range. -/
  | cacheWalk (cluster : Nat)
  | cld (a : Reg) (c : CapIx) (g : PredIx)
  | cst (a : Reg) (c : CapIx) (g : PredIx)
  | cnar (d a b : Reg) (c : CapIx) (g : PredIx)
  | cgive (a : Reg) (c : CapIx) (g : PredIx)
  | br (disp : BitVec 21)
  | brLone (ext : Half)
  | bc (p : PredIx) (sense : BitVec 1) (disp : BitVec 21)
  | bcLone (p : PredIx) (sense : BitVec 1) (ext : Half)
  | jal (disp : BitVec 21)
  | jalLone (ext : Half)
  | jr (d a : Reg) (g : PredIx)
  | loop (d : Reg) (ext : Half)
  | li (d : Reg) (ext : Half)
  | lih (d : Reg) (ext : Half)
  | spawn (a b : Reg) (c : CapIx) (g : PredIx)
  | spawnLone (a : Reg) (c : CapIx) (ext : Half)
  | await (a : Reg) (c : CapIx) (g : PredIx)
  | done (g : PredIx)
  | migrate (a : Reg) (g : PredIx)
  | send (a b : Reg) (g : PredIx) (ch : BitVec 2) (h : BitVec 1)
  | sende (a b : Reg) (g : PredIx) (ch : BitVec 2) (h : BitVec 1)
  | waitm (g : PredIx)
  | popm (d : Reg) (g : PredIx)
  | epushMat (a : Reg) (g : PredIx)
  | epushCopy (a : Reg) (g : PredIx)
  | epop (d : Reg) (g : PredIx) (engine : BitVec 1)
  | mma (d a b : Reg) (c : CapIx) (g : PredIx) (z : BitVec 1)
  | mmae (d a b : Reg) (tmask toSq sqIx : BitVec 1) (g : PredIx) (out rnd : BitVec 2)
  | ringset (d a b : Reg) (g : PredIx) (fmt : BitVec 4)
  | claim (d a : Reg) (g : PredIx)
  | shrink (a : Reg) (g : PredIx)
  | vallot (d a : Reg) (g : PredIx)
  | gang (g : PredIx)
  | ungang (g : PredIx)
  | tdesc (d a : Reg) (g : PredIx) (f : BitVec 4)
  | tback (a b : Reg) (c : CapIx) (g : PredIx) (alt : BitVec 1)
  /-- Event: the `n`-th back-up in progress performs its next level. -/
  | tbackLevel (n : Nat)
  | texp (d a : Reg) (g : PredIx)
  | tfill (d a b : Reg) (g : PredIx)
  | tseal (d a : Reg) (g : PredIx)
  | trec (d a : Reg) (g : PredIx)
  | tabort (d a : Reg) (c : CapIx) (g : PredIx)
  /-- Event: the `n`-th abort in progress performs its next step. -/
  | tabortUnwind (n : Nat)
  | tform (a : Reg) (c : CapIx) (g : PredIx) (f : BitVec 4)
  | lzres (d a : Reg) (g : PredIx) (w : BitVec 1) (z : BitVec 2)
  | lzexp (d a b : Reg) (g : PredIx)
  | lzwait (d a : Reg) (g : PredIx)
  | lzfree (d a : Reg) (g : PredIx)
  | lzcfg (d a : Reg) (g : PredIx)
  | lzstat (d a : Reg) (g : PredIx)
  | csrr (d : Reg) (n : BitVec 10)
  | csrw (a : Reg) (n : BitVec 10)
  /-- CSRW of TICKET, seen as the three operations its operand chooses among (R206); the decoder answers `openWalk`. -/
  | openWalk (a : Reg)
  | adoptWalk (a : Reg)
  | ticketClear (a : Reg)
  | trap (a : Reg) (g : PredIx)
  | eret (g : PredIx)
  | yield (g : PredIx)
  | asfl (a : Reg) (g : PredIx)
  | asbar (g : PredIx)
  | couple (g : PredIx)
  | uncouple (g : PredIx)
  | wake (a : Reg) (g : PredIx)
  | almr (d a : Reg) (g : PredIx)
  | almw (a b : Reg) (g : PredIx)
  | dtrd (d a : Reg) (g : PredIx)
  | dtwr (a b : Reg) (g : PredIx)
  -- A-slot scalar instructions (R63)
  | nopA
  | add (d a b : Reg) (g : PredIx)
  | sub (d a b : Reg) (g : PredIx)
  | addi (d a : Reg) (imm : BitVec 16)
  | mul (d a b : Reg) (g : PredIx)
  | mulh (d a b : Reg) (g : PredIx) (x : BitVec 3)
  | div (d a b : Reg) (g : PredIx)
  | divu (d a b : Reg) (g : PredIx)
  | rem (d a b : Reg) (g : PredIx)
  | remu (d a b : Reg) (g : PredIx)
  | and (d a b : Reg) (g : PredIx)
  | andn (d a b : Reg) (g : PredIx)
  | or (d a b : Reg) (g : PredIx)
  | xor (d a b : Reg) (g : PredIx)
  | shl (d a b : Reg) (g : PredIx)
  | shlImm (d a : Reg) (n : BitVec 6) (g : PredIx)
  | shr (d a b : Reg) (g : PredIx)
  | shrImm (d a : Reg) (n : BitVec 6) (g : PredIx)
  | sar (d a b : Reg) (g : PredIx)
  | sarImm (d a : Reg) (n : BitVec 6) (g : PredIx)
  | min (d a b : Reg) (g : PredIx)
  | max (d a b : Reg) (g : PredIx)
  | minu (d a b : Reg) (g : PredIx)
  | maxu (d a b : Reg) (g : PredIx)
  | cmp (p : PredIx) (a b : Reg) (g : PredIx) (x : BitVec 3)
  | sel (d a b : Reg) (p : PredIx) (g : PredIx)
  | bits (d a : Reg) (g : PredIx) (x : BitVec 2)
  | ext (d a b e : Reg) (g : PredIx)
  | extS (d a b e : Reg) (g : PredIx)
  | ins (d a b e : Reg) (g : PredIx)
  | fadd (d a b : Reg) (g : PredIx)
  | fsub (d a b : Reg) (g : PredIx)
  | fmul (d a b : Reg) (g : PredIx)
  | fma (d a b e : Reg) (g : PredIx)
  | fms (d a b e : Reg) (g : PredIx)
  | fmin (d a b : Reg) (g : PredIx)
  | fmax (d a b : Reg) (g : PredIx)
  | fcmp (p : PredIx) (a b : Reg) (g : PredIx) (x : BitVec 2)
  | fcvt (d a : Reg) (rnd : BitVec 2) (g : PredIx) (x : BitVec 3)
  -- A-slot vector instructions (R66)
  | vadd (o : VOp)
  | vsub (o : VOp)
  | vmul (o : VOp)
  | vfma (o : VOp)
  | vmin (o : VOp)
  | vmax (o : VOp)
  | vcmp (x : BitVec 2) (o : VOp)
  | vsel (o : VOp)
  | vred (x : BitVec 2) (o : VOp)
  | vcvt (r : BitVec 2) (o : VOp)
  | vdec (s : BitVec 1) (o : VOp)
  | venc (o : VOp)
  | vscl (o : VOp)
  | vperm (o : VOp)
  | vbcast (o : VOp)
  | vextr (o : VOp)
  | vidx (o : VOp)
  | vloop (a : Reg) (n : BitVec 4) (g : PredIx)
  | vsfu (o : VOp)
  | vsort (x : BitVec 1) (o : VOp)
  | vksel (x : BitVec 1) (o : VOp)
  | vrand (o : VOp)
  | vimask (o : VOp)
  | vsync (g : PredIx)
  -- events (spec/95_what_each_step_holds.md)
  | issueTurn (core : Nat)
  | rank1Step (core : Nat)
  | rotationBoundary
  | preemptTimerExpiry (core slot : Nat)
  | preEmption (core slot : Nat)
  | pktHoldTimeout (core slot : Nat)
  | resumption (core slot : Nat)
  | translationWalk (core slot : Nat)
  | wokenContextRestore (core slot : Nat)
  | steal (core slot : Nat)
  | takeArrival (core slot : Nat)
  /-- `answer`: the words a peer package sent back, empty for a reply of this package. -/
  | replyWritten (core slot : Nat) (answer : List Word)
  | storePerformed (core : Nat)
  | packetDelivery (n : Nat)
  | handlerStart (core : Nat)
  | arrivalRecordAccept (n : Nat)
  | equinoxSweep
  | queueTailTake (q : Nat)
  | launchPlacement (q : Nat)
  | classifierWindow (launch : Nat)
  | sequencerEntryRun (core slot : Nat)
  | sfuRequestServe (cluster : Nat)
  | copyCommandStart (core : Nat)
  | commandCompletion (core : Nat)
  | multicastPieceDrain (core : Nat)
  | arrivalUnit (n : Nat)
  | intervalEnd (core slot : Nat)
  | flitReplay (link : Nat)
  | laneMarginStepDown (link : Nat)
  | laneTrainingFailure (link lane : Nat)
  | linkDown (link : Nat)
  | powerSample (watts : Nat)
  | ageingSensorUpdate (die eolh worst : Nat)
  | dramBatchMark (ctl : Nat)
  | dramCapWindow
  /-- The line (PA / 128) that the home slice evicts. -/
  | llcEviction (line : Nat)
  | coldReset (image signature : List Byte) (version : Nat)
  -- commands from outside: host and management interface (R259, R250)
  | functionLevelReset (vf : Nat)
  /-- `vf` 0 is the physical function. -/
  | fillApertureWrite (vf : Nat) (offset : Nat) (data : Word)
  | spdmAttestation (nonce : Nat)
  | setWayMasks (cls : Nat) (llc : BitVec 32) (l2 : BitVec 16)
  | setDramCap (cls cap : Nat)
  | setVcWeights (cls w0 w2 w4 w3 : Nat)
  | writeKeySlot (k key : Nat)
  | writeRouteEntry (dev : Nat) (primary alternate : Option Nat)
  /-- `desc`: the 64-byte descriptor of R237. -/
  | writeQueueDescriptor (q : Nat) (desc : BitVec 512)
  | setTenantAreas (asid : Nat) (areas : TenantAreas)
  | setAsidRoot (asid : Nat) (root : Option Nat)
  | setPowerCap (watts : Nat)
  | takeLinkDown (link : Nat)
  | retrainLink (link : Nat)
  | supervisorPreempt (core slot : Nat)
  | releaseKilledSlot (core slot : Nat)
  | abortLaunch (launch : Nat)
  | injectPreempt (core slot : Nat)
  | injectEcc (core slot : Nat)
  /-- `at`: the fetch DVA, or none to clear breakpoint `n`; `core`: the one core it applies to, or none for all. -/
  | setBreakpoint (n : Nat) (at' : Option (BitVec 56)) (core : Option Nat)
  | setAgeingThreshold (hours : Nat)
  | ageingWarnClear (die : Nat) (data : Word)
  /-- The host invalidates its translations of `len` bytes of host memory from `base`. -/
  | atsInvalidation (base len : Nat)
  | bindQueueToVf (q vf : Nat)
  deriving DecidableEq, Repr

end Sys2Proof
end

