-- ==== Sys2Proof/WellFormed.lean ====
section
/-!
DEFINITION. Which terms of `Instr` are instructions of the manual: the ranges and the fields that must be zero of
R60–R67 beyond what the field widths already say, and the ranges of the parts an event or a command names
(R10, R11, R114, R175, R220, R233, R235, R237, R245). A word that breaks one of them traps ILL (R68).
-/
namespace Sys2Proof

/-- A queue flag leaves only the low two bits of a load-queue field free (R54). -/
def VOp.loadOk (q : BitVec 1) (r : Reg) : Bool := q == 0#1 || r.ult 4#5

/-- A queue flag leaves only the low bit of a store-queue field free (R54). -/
def VOp.storeOk (q : BitVec 1) (r : Reg) : Bool := q == 0#1 || r.ult 2#5

/-- The three queue flags of an operation whose d, a and b are all vector operands. -/
def VOp.heads (o : VOp) : Bool := VOp.loadOk o.qa o.a && VOp.loadOk o.qb o.b && VOp.storeOk o.qd o.d

/-- No queue flag is set. -/
def VOp.noHeads (o : VOp) : Bool := o.qa == 0#1 && o.qb == 0#1 && o.qd == 0#1

/-- The field b is unused. -/
def VOp.noB (o : VOp) : Bool := o.b == 0#5 && o.qb == 0#1

/-- Element types i32 to e8m10 (R53). -/
def VOp.anyType (o : VOp) : Bool := o.t.ult 6#3

/-- Floating element types: fp32, bf16, fp16, e8m10. -/
def VOp.fpType (o : VOp) : Bool := o.anyType && (2#3).ule o.t

/-- A CSR number that R58 lists. -/
def csrListed (n : BitVec 10) : Bool := n.ult 16#10

/-- A CSR that accepts a write, TICKET apart: STATUS, TRAPVEC, STEALDOM and 0x00C–0x00F (R58). -/
def csrWritable (n : BitVec 10) : Bool :=
  n == 0#10 || n == 1#10 || n == 0x00B#10 || n == 0x00C#10 || n == 0x00D#10 || n == 0x00E#10 || n == 0x00F#10

/-- A full/empty access to local memory names no capability (R52). -/
def cfOk (c : CapIx) (m : BitVec 1) : Bool := m == 0#1 || c == 0#3

/-- A slot of the package (R11). -/
def slotInRange (core slot : Nat) : Bool := core < 1024 && slot < 16

/-- Well-formed instructions, events and commands. -/
def WellFormed : Instr → Bool
  | .nopC => true
  | .ld _ _ _ _ | .ldLone _ _ _ _ | .st _ _ _ _ | .stLone _ _ _ _ => true
  | .ldl _ _ _ | .ldlLone _ _ _ | .stl _ _ _ | .stlLone _ _ _ => true
  | .ldh _ _ c m _ | .ldf _ _ c m _ | .ldx _ _ c m _ | .stf _ _ c m _ | .stfa _ _ c m _ | .feclr _ c m _ => cfOk c m
  | .waitListBusyReissue core slot => slotInRange core slot
  | .lq d _ _ _ _ k => d.ult 4#5 && k.ult 8#4
  | .loadQueueRowFill core slot q => slotInRange core slot && q < 4
  | .sq d _ _ _ _ k => d.ult 2#5 && k.ult 8#4
  | .atom _ _ _ _ _ size op => op.ult 9#4 || (op == 9#4 && size == 1#1)
  | .cas d _ b _ _ size => size == 0#1 || (d.getLsbD 0 == false && b.getLsbD 0 == false)
  | .stg _ _ _ _ | .stgLone _ _ _ _ => true
  | .stgAcknowledgement _ => true
  | .fence _ _ => true
  | .rflush _ _ _ _ _ | .rinv _ _ _ _ _ => true
  | .cacheWalk cluster => cluster < 128
  | .cld _ _ _ | .cst _ _ _ | .cnar _ _ _ _ _ | .cgive _ _ _ => true
  | .br _ | .brLone _ | .bc _ _ _ | .bcLone _ _ _ | .jal _ | .jalLone _ | .jr _ _ _ => true
  | .loop d _ => d != 0#5
  | .li _ _ | .lih _ _ => true
  | .spawn _ _ _ _ | .spawnLone _ _ _ | .await _ _ _ | .done _ | .migrate _ _ => true
  | .send _ _ _ _ _ | .sende _ _ _ _ _ | .waitm _ => true
  | .popm d _ => (1#5).ule d && d.ule 24#5
  | .epushMat _ _ | .epushCopy _ _ | .epop _ _ _ => true
  | .mma d _ b _ _ _ => d.ult 4#5 && b.ult 8#5
  | .mmae d a _ tmask toSq sqIx _ out rnd =>
      (tmask == 1#1 || d.ult 4#5) && (toSq == 0#1 || a == 0#5) && (toSq == 1#1 || sqIx == 0#1)
        && (out != 3#2 || rnd == 0#2)
  | .ringset d _ _ _ fmt => d.ult 8#5 && fmt.ult 4#4
  | .claim _ _ _ | .shrink _ _ | .vallot _ _ _ | .gang _ | .ungang _ => true
  | .tdesc d _ _ _ => d.getLsbD 0 == false && (2#5).ule d
  | .tback _ _ _ _ _ => true
  | .tbackLevel _ => true
  | .texp _ _ _ | .tfill _ _ _ _ | .tseal _ _ _ | .trec _ _ _ | .tabort _ _ _ _ => true
  | .tabortUnwind _ => true
  | .tform _ _ _ _ => true
  | .lzres _ _ _ _ _ | .lzexp _ _ _ _ | .lzwait _ _ _ | .lzfree _ _ _ | .lzcfg _ _ _ | .lzstat _ _ _ => true
  | .csrr _ n => csrListed n
  | .csrw _ n => csrWritable n
  | .openWalk _ | .adoptWalk _ | .ticketClear _ => true
  | .trap _ _ | .eret _ | .yield _ | .asfl _ _ | .asbar _ | .couple _ | .uncouple _ | .wake _ _ => true
  | .almr _ _ _ | .almw _ _ _ | .dtrd _ _ _ | .dtwr _ _ _ => true
  | .nopA => true
  | .add _ _ _ _ | .sub _ _ _ _ | .addi _ _ _ | .mul _ _ _ _ => true
  | .mulh _ _ _ _ x => x.ult 3#3
  | .div _ _ _ _ | .divu _ _ _ _ | .rem _ _ _ _ | .remu _ _ _ _ => true
  | .and _ _ _ _ | .andn _ _ _ _ | .or _ _ _ _ | .xor _ _ _ _ => true
  | .shl _ _ _ _ | .shlImm _ _ _ _ | .shr _ _ _ _ | .shrImm _ _ _ _ | .sar _ _ _ _ | .sarImm _ _ _ _ => true
  | .min _ _ _ _ | .max _ _ _ _ | .minu _ _ _ _ | .maxu _ _ _ _ => true
  | .cmp _ _ _ _ x => x.ult 6#3
  | .sel _ _ _ _ _ | .bits _ _ _ _ | .ext _ _ _ _ _ | .extS _ _ _ _ _ | .ins _ _ _ _ _ => true
  | .fadd _ _ _ _ | .fsub _ _ _ _ | .fmul _ _ _ _ | .fma _ _ _ _ _ | .fms _ _ _ _ _ => true
  | .fmin _ _ _ _ | .fmax _ _ _ _ | .fcmp _ _ _ _ _ => true
  | .fcvt _ _ rnd _ x => !(x == 3#3 || x == 5#3 || x == 7#3) || rnd == 0#2
  | .vadd o | .vsub o | .vmul o | .vmin o | .vmax o | .vcmp _ o | .vperm o => o.heads && o.anyType
  | .vfma o => o.heads && o.qd == 0#1 && o.fpType
  | .vsel o => o.heads && o.qd == 0#1 && o.anyType
  | .vred x o => o.heads && o.qd == 0#1 && o.noB && x != 3#2 && (o.anyType || (o.t == 6#3 && x == 0#2))
  | .vcvt r o =>
      o.heads && o.anyType &&
        (if r == 3#2 then (3#3).ule o.t
         else o.qb == 0#1 && o.b.getLsbD 4 == false && (r == 2#2 || o.b.getLsbD 3 == false)
              && (o.b.extractLsb' 0 3).ult 6#3)
  | .vdec s o => o.heads && o.fpType && (s == 1#1 || o.noB)
  | .venc o => o.heads && o.noB && o.fpType
  | .vscl o => o.heads && o.fpType
  | .vbcast o => o.heads && o.qa == 0#1 && o.noB && o.anyType
  | .vextr o => o.heads && o.qb == 0#1 && o.qd == 0#1 && o.anyType
  | .vidx o => o.heads && o.qa == 0#1 && o.noB && o.t.ult 2#3
  | .vloop _ _ _ => true
  | .vsfu o => o.heads && o.qb == 0#1 && o.b.ult 6#5 && o.t == 2#3
  | .vsort _ o | .vksel _ o =>
      o.noHeads && o.anyType && o.d.getLsbD 0 == false && o.a.getLsbD 0 == false
  | .vrand o => o.heads && o.qa == 0#1 && o.qb == 0#1 && o.t == 1#3
  | .vimask o => o.heads && o.qb == 0#1 && o.t == 1#3
  | .vsync _ => true
  | .issueTurn core | .rank1Step core => core < 1024
  | .rotationBoundary => true
  | .preemptTimerExpiry core slot | .preEmption core slot | .pktHoldTimeout core slot | .resumption core slot
  | .translationWalk core slot | .wokenContextRestore core slot | .steal core slot | .takeArrival core slot
  | .replyWritten core slot _ | .sequencerEntryRun core slot | .intervalEnd core slot => slotInRange core slot
  | .storePerformed core | .handlerStart core | .copyCommandStart core | .commandCompletion core
  | .multicastPieceDrain core => core < 1024
  | .packetDelivery _ | .arrivalRecordAccept _ | .arrivalUnit _ => true
  | .equinoxSweep => true
  | .queueTailTake q | .launchPlacement q => q < 16384
  | .classifierWindow _ => true
  | .sfuRequestServe cluster => cluster < 128
  | .flitReplay link | .laneMarginStepDown link | .linkDown link | .takeLinkDown link | .retrainLink link => link < 16
  | .laneTrainingFailure link lane => link < 16 && lane < 8
  | .powerSample _ => true
  | .ageingSensorUpdate die eolh worst => die < 12 && eolh < 2 ^ 24 && worst < 64
  | .dramBatchMark ctl => ctl < 16
  | .dramCapWindow => true
  | .llcEviction line => line < 2 ^ 45
  | .coldReset _ _ _ => true
  | .functionLevelReset vf => 0 < vf && vf < 511
  | .fillApertureWrite vf offset _ => vf < 511 && offset < 131072 && offset % 8 == 0
  | .spdmAttestation _ => true
  | .setWayMasks cls _ _ => cls < 64
  | .setDramCap cls cap => cls < 64 && 1 ≤ cap && cap ≤ 64
  | .setVcWeights cls w0 w2 w4 w3 =>
      cls < 64 && [w0, w2, w4, w3].all (fun w => 1 ≤ w && w ≤ 15)
  | .writeKeySlot k key => k < 256 && key < 2 ^ 256
  | .writeRouteEntry dev primary alternate =>
      dev < 256 && primary.all (fun l => decide (l < 16)) && alternate.all (fun l => decide (l < 16))
  | .writeQueueDescriptor q _ => q < 16384
  | .setTenantAreas asid _ => asid < 4096
  | .setAsidRoot asid root => asid < 4096 && root.all (fun r => decide (r < 2 ^ 52 ∧ r % 2 ^ 20 = 0))
  | .setPowerCap watts => 600 ≤ watts && watts ≤ 3200
  | .supervisorPreempt core slot | .releaseKilledSlot core slot | .injectPreempt core slot
  | .injectEcc core slot => slotInRange core slot
  | .abortLaunch _ => true
  | .setBreakpoint _ _ core => core.all (fun c => decide (c < 1024))
  | .setAgeingThreshold hours => hours < 2 ^ 24
  | .ageingWarnClear die _ => die < 12
  | .atsInvalidation base _ => base < 2 ^ 52
  | .bindQueueToVf q vf => q < 16384 && 0 < vf && vf < 511

end Sys2Proof
end

