-- ==== Sys2Proof/Decode.lean ====
section
/-!
DEFINITION. Decoding and encoding (spec/03_instruction_words.md). A format is a structure of its fields with `pack`
(the word) and `unpack` (the fields), written from the field rows of R51 and R53. `decodeC`, `decodeLone` and
`decodeA` read one slot's word and refuse every pattern that R68 gives to ILL; `decodeGroup` reads an 8-byte group
(R47, R48). `encode` is the other direction.
-/
namespace Sys2Proof

/-! ## Formats (R51, R53) -/

/-- CR, register format; a CA word has the same rows with [6:4] = ord, size (R51). -/
structure CR where
  l : BitVec 1
  cop : BitVec 6
  d : BitVec 5
  a : BitVec 5
  b : BitVec 5
  c : BitVec 3
  g : BitVec 3
  minor : BitVec 4
  deriving DecidableEq, Repr

def CR.pack (f : CR) : Half := f.l ++ f.cop ++ f.d ++ f.a ++ f.b ++ f.c ++ f.g ++ f.minor

def CR.unpack (w : Half) : CR where
  l := w.extractLsb' 31 1
  cop := w.extractLsb' 25 6
  d := w.extractLsb' 20 5
  a := w.extractLsb' 15 5
  b := w.extractLsb' 10 5
  c := w.extractLsb' 7 3
  g := w.extractLsb' 4 3
  minor := w.extractLsb' 0 4

/-- CI, immediate format. -/
structure CI where
  l : BitVec 1
  cop : BitVec 6
  d : BitVec 5
  a : BitVec 5
  c : BitVec 3
  imm : BitVec 12
  deriving DecidableEq, Repr

def CI.pack (f : CI) : Half := f.l ++ f.cop ++ f.d ++ f.a ++ f.c ++ f.imm

def CI.unpack (w : Half) : CI where
  l := w.extractLsb' 31 1
  cop := w.extractLsb' 25 6
  d := w.extractLsb' 20 5
  a := w.extractLsb' 15 5
  c := w.extractLsb' 12 3
  imm := w.extractLsb' 0 12

/-- CF, full/empty format. -/
structure CF where
  l : BitVec 1
  cop : BitVec 6
  d : BitVec 5
  a : BitVec 5
  c : BitVec 3
  m : BitVec 1
  minor : BitVec 2
  imm : BitVec 9
  deriving DecidableEq, Repr

def CF.pack (f : CF) : Half := f.l ++ f.cop ++ f.d ++ f.a ++ f.c ++ f.m ++ f.minor ++ f.imm

def CF.unpack (w : Half) : CF where
  l := w.extractLsb' 31 1
  cop := w.extractLsb' 25 6
  d := w.extractLsb' 20 5
  a := w.extractLsb' 15 5
  c := w.extractLsb' 12 3
  m := w.extractLsb' 11 1
  minor := w.extractLsb' 9 2
  imm := w.extractLsb' 0 9

/-- CA, atomic format. -/
structure CA where
  l : BitVec 1
  cop : BitVec 6
  d : BitVec 5
  a : BitVec 5
  b : BitVec 5
  c : BitVec 3
  ord : BitVec 2
  size : BitVec 1
  op : BitVec 4
  deriving DecidableEq, Repr

def CA.pack (f : CA) : Half := f.l ++ f.cop ++ f.d ++ f.a ++ f.b ++ f.c ++ f.ord ++ f.size ++ f.op

def CA.unpack (w : Half) : CA where
  l := w.extractLsb' 31 1
  cop := w.extractLsb' 25 6
  d := w.extractLsb' 20 5
  a := w.extractLsb' 15 5
  b := w.extractLsb' 10 5
  c := w.extractLsb' 7 3
  ord := w.extractLsb' 5 2
  size := w.extractLsb' 4 1
  op := w.extractLsb' 0 4

/-- CB, branch format. -/
structure CB where
  l : BitVec 1
  cop : BitVec 6
  p : BitVec 3
  sense : BitVec 1
  disp : BitVec 21
  deriving DecidableEq, Repr

def CB.pack (f : CB) : Half := f.l ++ f.cop ++ f.p ++ f.sense ++ f.disp

def CB.unpack (w : Half) : CB where
  l := w.extractLsb' 31 1
  cop := w.extractLsb' 25 6
  p := w.extractLsb' 22 3
  sense := w.extractLsb' 21 1
  disp := w.extractLsb' 0 21

/-- A format of the A-slot. -/
structure AF where
  aop : BitVec 6
  d : BitVec 5
  a : BitVec 5
  b : BitVec 5
  e : BitVec 5
  g : BitVec 3
  minor : BitVec 3
  deriving DecidableEq, Repr

def AF.pack (f : AF) : Half := f.aop ++ f.d ++ f.a ++ f.b ++ f.e ++ f.g ++ f.minor

def AF.unpack (w : Half) : AF where
  aop := w.extractLsb' 26 6
  d := w.extractLsb' 21 5
  a := w.extractLsb' 16 5
  b := w.extractLsb' 11 5
  e := w.extractLsb' 6 5
  g := w.extractLsb' 3 3
  minor := w.extractLsb' 0 3

/-- AI format of the A-slot. -/
structure AI where
  aop : BitVec 6
  d : BitVec 5
  a : BitVec 5
  imm : BitVec 16
  deriving DecidableEq, Repr

def AI.pack (f : AI) : Half := f.aop ++ f.d ++ f.a ++ f.imm

def AI.unpack (w : Half) : AI where
  aop := w.extractLsb' 26 6
  d := w.extractLsb' 21 5
  a := w.extractLsb' 16 5
  imm := w.extractLsb' 0 16

/-- The opcode of a C-slot word. -/
def copOf (w : Half) : BitVec 6 := w.extractLsb' 25 6

/-- The opcode of an A-slot word. -/
def aopOf (w : Half) : BitVec 6 := w.extractLsb' 26 6

/-! ## The C-slot map (R60) -/

/-- An instruction, if the fields it does not use are zero. -/
def when0 (p : Bool) (i : Instr) : Option Instr := if p then some i else none

/-- Whether d, a, b and c of a CR word are zero; each flag says that the field is unused. -/
def CR.unused (f : CR) (d a b c : Bool) : Bool :=
  (!d || f.d == 0#5) && (!a || f.a == 0#5) && (!b || f.b == 0#5) && (!c || f.c == 0#3)

/-- The C-slot word with L = 0 of an opcode, before the range checks of `WellFormed`. -/
def rawCAt (w : Half) : BitVec 6 → Option Instr
  | 0x00#6 => when0 (w == 0#32) .nopC
  | 0x01#6 => let f := CI.unpack w; some (.ld f.d f.a f.c f.imm)
  | 0x02#6 => let f := CI.unpack w; some (.st f.d f.a f.c f.imm)
  | 0x03#6 => let f := CI.unpack w; when0 (f.c == 0#3) (.ldl f.d f.a f.imm)
  | 0x04#6 => let f := CI.unpack w; when0 (f.c == 0#3) (.stl f.d f.a f.imm)
  | 0x05#6 =>
    let f := CF.unpack w
    match f.minor with
    | 0#2 => some (.ldh f.d f.a f.c f.m f.imm)
    | _ => none
  | 0x06#6 =>
    let f := CF.unpack w
    match f.minor with
    | 0#2 => some (.ldf f.d f.a f.c f.m f.imm)
    | 1#2 => some (.ldx f.d f.a f.c f.m f.imm)
    | _ => none
  | 0x07#6 =>
    let f := CF.unpack w
    match f.minor with
    | 0#2 => some (.stf f.d f.a f.c f.m f.imm)
    | 1#2 => some (.stfa f.d f.a f.c f.m f.imm)
    | 2#2 => when0 (f.d == 0#5) (.feclr f.a f.c f.m f.imm)
    | _ => none
  | 0x08#6 => let f := CR.unpack w; some (.lq f.d f.a f.b f.c f.g f.minor)
  | 0x09#6 => let f := CR.unpack w; some (.sq f.d f.a f.b f.c f.g f.minor)
  | 0x0A#6 => let f := CA.unpack w; some (.atom f.d f.a f.b f.c f.ord f.size f.op)
  | 0x0B#6 => let f := CA.unpack w; when0 (f.op == 0#4) (.cas f.d f.a f.b f.c f.ord f.size)
  | 0x0C#6 => let f := CI.unpack w; some (.stg f.d f.a f.c f.imm)
  | 0x0D#6 =>
    let f := CR.unpack w
    when0 (f.unused true true true true && f.minor.ult 4#4) (.fence f.g (f.minor.extractLsb' 0 2))
  | 0x0E#6 =>
    let f := CR.unpack w
    match f.minor with
    | 0#4 => some (.rflush f.d f.a f.b f.c f.g)
    | 1#4 => some (.rinv f.d f.a f.b f.c f.g)
    | _ => none
  | 0x0F#6 =>
    let f := CR.unpack w
    match f.minor with
    | 0#4 => when0 (f.unused true false true false) (.cld f.a f.c f.g)
    | 1#4 => when0 (f.unused true false true false) (.cst f.a f.c f.g)
    | 2#4 => some (.cnar f.d f.a f.b f.c f.g)
    | 3#4 => when0 (f.unused true false true false) (.cgive f.a f.c f.g)
    | _ => none
  | 0x10#6 => let f := CB.unpack w; when0 (f.p == 0#3 && f.sense == 0#1) (.br f.disp)
  | 0x11#6 => let f := CB.unpack w; some (.bc f.p f.sense f.disp)
  | 0x12#6 => let f := CB.unpack w; when0 (f.p == 0#3 && f.sense == 0#1) (.jal f.disp)
  | 0x13#6 => let f := CR.unpack w; when0 (f.unused false false true true && f.minor == 0#4) (.jr f.d f.a f.g)
  | 0x16#6 => let f := CR.unpack w; when0 (f.unused true false false false && f.minor == 0#4) (.spawn f.a f.b f.c f.g)
  | 0x17#6 => let f := CR.unpack w; when0 (f.unused true false true false && f.minor == 0#4) (.await f.a f.c f.g)
  | 0x18#6 => let f := CR.unpack w; when0 (f.unused true true true true && f.minor == 0#4) (.done f.g)
  | 0x19#6 => let f := CR.unpack w; when0 (f.unused true false true true && f.minor == 0#4) (.migrate f.a f.g)
  | 0x1A#6 =>
    let f := CR.unpack w
    let ch := f.minor.extractLsb' 2 2
    let h := f.minor.extractLsb' 1 1
    when0 (f.unused true false false true)
      (if f.minor.extractLsb' 0 1 = 0#1 then .send f.a f.b f.g ch h else .sende f.a f.b f.g ch h)
  | 0x1B#6 =>
    let f := CR.unpack w
    match f.minor with
    | 0#4 => when0 (f.unused true true true true) (.waitm f.g)
    | 1#4 => when0 (f.unused false true true true) (.popm f.d f.g)
    | _ => none
  | 0x1C#6 =>
    let f := CR.unpack w
    match f.minor with
    | 0#4 => when0 (f.unused true false true true) (.epushMat f.a f.g)
    | 1#4 => when0 (f.unused true false true true) (.epushCopy f.a f.g)
    | _ => none
  | 0x1D#6 =>
    let f := CR.unpack w
    when0 (f.unused false true true true && f.minor.ult 2#4) (.epop f.d f.g (f.minor.extractLsb' 0 1))
  | 0x1E#6 =>
    let f := CR.unpack w
    when0 (f.minor.ult 2#4) (.mma f.d f.a f.b f.c f.g (f.minor.extractLsb' 0 1))
  | 0x1F#6 =>
    let f := CR.unpack w
    some (.mmae f.d f.a f.b (f.c.extractLsb' 2 1) (f.c.extractLsb' 1 1) (f.c.extractLsb' 0 1) f.g
      (f.minor.extractLsb' 2 2) (f.minor.extractLsb' 0 2))
  | 0x20#6 => let f := CR.unpack w; when0 (f.c == 0#3) (.ringset f.d f.a f.b f.g f.minor)
  | 0x21#6 =>
    let f := CR.unpack w
    match f.minor with
    | 0#4 => when0 (f.unused false false true true) (.claim f.d f.a f.g)
    | 1#4 => when0 (f.unused true false true true) (.shrink f.a f.g)
    | 2#4 => when0 (f.unused false false true true) (.vallot f.d f.a f.g)
    | _ => none
  | 0x22#6 =>
    let f := CR.unpack w
    match f.minor with
    | 0#4 => when0 (f.unused true true true true) (.gang f.g)
    | 1#4 => when0 (f.unused true true true true) (.ungang f.g)
    | _ => none
  | 0x23#6 => let f := CR.unpack w; when0 (f.unused false false true true) (.tdesc f.d f.a f.g f.minor)
  | 0x24#6 =>
    let f := CR.unpack w
    when0 (f.unused true false false false && f.minor.ult 2#4) (.tback f.a f.b f.c f.g (f.minor.extractLsb' 0 1))
  | 0x25#6 =>
    let f := CR.unpack w
    match f.minor with
    | 0#4 => when0 (f.unused false false true true) (.texp f.d f.a f.g)
    | 1#4 => when0 (f.unused false false false true) (.tfill f.d f.a f.b f.g)
    | 2#4 => when0 (f.unused false false true true) (.tseal f.d f.a f.g)
    | _ => none
  | 0x26#6 =>
    let f := CR.unpack w
    match f.minor with
    | 0#4 => when0 (f.unused false false true true) (.trec f.d f.a f.g)
    | 1#4 => when0 (f.unused false false true false) (.tabort f.d f.a f.c f.g)
    | _ => none
  | 0x27#6 => let f := CR.unpack w; when0 (f.unused true false true false) (.tform f.a f.c f.g f.minor)
  | 0x28#6 =>
    let f := CR.unpack w
    when0 (f.unused false false true true && f.minor.ult 8#4)
      (.lzres f.d f.a f.g (f.minor.extractLsb' 2 1) (f.minor.extractLsb' 0 2))
  | 0x29#6 =>
    let f := CR.unpack w
    match f.minor with
    | 0#4 => when0 (f.unused false false false true) (.lzexp f.d f.a f.b f.g)
    | 1#4 => when0 (f.unused false false true true) (.lzwait f.d f.a f.g)
    | 2#4 => when0 (f.unused false false true true) (.lzfree f.d f.a f.g)
    | _ => none
  | 0x2A#6 =>
    let f := CR.unpack w
    match f.minor with
    | 0#4 => when0 (f.unused false false true true) (.lzcfg f.d f.a f.g)
    | 1#4 => when0 (f.unused false false true true) (.lzstat f.d f.a f.g)
    | _ => none
  | 0x2B#6 =>
    let f := CI.unpack w
    let n := f.imm.extractLsb' 0 10
    match f.imm.extractLsb' 10 2 with
    | 0#2 => when0 (f.a == 0#5 && f.c == 0#3) (.csrr f.d n)
    | 2#2 => when0 (f.d == 0#5 && f.c == 0#3) (if n = 0x00A#10 then .openWalk f.a else .csrw f.a n)
    | _ => none
  | 0x2C#6 =>
    let f := CR.unpack w
    match f.minor with
    | 0#4 => when0 (f.unused true false true true) (.trap f.a f.g)
    | 1#4 => when0 (f.unused true true true true) (.eret f.g)
    | 2#4 => when0 (f.unused true true true true) (.yield f.g)
    | _ => none
  | 0x2D#6 =>
    let f := CR.unpack w
    match f.minor with
    | 0#4 => when0 (f.unused true false true true) (.asfl f.a f.g)
    | 1#4 => when0 (f.unused true true true true) (.asbar f.g)
    | _ => none
  | 0x2E#6 =>
    let f := CR.unpack w
    match f.minor with
    | 0#4 => when0 (f.unused true true true true) (.couple f.g)
    | 1#4 => when0 (f.unused true true true true) (.uncouple f.g)
    | _ => none
  | 0x2F#6 => let f := CR.unpack w; when0 (f.unused true false true true && f.minor == 0#4) (.wake f.a f.g)
  | 0x30#6 =>
    let f := CR.unpack w
    match f.minor with
    | 0#4 => when0 (f.unused false false true true) (.almr f.d f.a f.g)
    | 1#4 => when0 (f.unused true false false true) (.almw f.a f.b f.g)
    | _ => none
  | 0x31#6 =>
    let f := CR.unpack w
    match f.minor with
    | 0#4 => when0 (f.unused false false true true) (.dtrd f.d f.a f.g)
    | 1#4 => when0 (f.unused true false false true) (.dtwr f.a f.b f.g)
    | _ => none
  | _ => none

def rawC (w : Half) : Option Instr := rawCAt w (copOf w)

/-- The lone form of word0 (L = 1) of an opcode with its ext32 (R52). -/
def rawLoneAt (w ext : Half) : BitVec 6 → Option Instr
  | 0x01#6 => let f := CI.unpack w; when0 (f.imm == 0#12) (.ldLone f.d f.a f.c ext)
  | 0x02#6 => let f := CI.unpack w; when0 (f.imm == 0#12) (.stLone f.d f.a f.c ext)
  | 0x03#6 => let f := CI.unpack w; when0 (f.imm == 0#12 && f.c == 0#3) (.ldlLone f.d f.a ext)
  | 0x04#6 => let f := CI.unpack w; when0 (f.imm == 0#12 && f.c == 0#3) (.stlLone f.d f.a ext)
  | 0x0C#6 => let f := CI.unpack w; when0 (f.imm == 0#12) (.stgLone f.d f.a f.c ext)
  | 0x10#6 => let f := CB.unpack w; when0 (f.p == 0#3 && f.sense == 0#1 && f.disp == 0#21) (.brLone ext)
  | 0x11#6 => let f := CB.unpack w; when0 (f.disp == 0#21) (.bcLone f.p f.sense ext)
  | 0x12#6 => let f := CB.unpack w; when0 (f.p == 0#3 && f.sense == 0#1 && f.disp == 0#21) (.jalLone ext)
  | 0x14#6 => let f := CI.unpack w; when0 (f.a == 0#5 && f.c == 0#3 && f.imm == 0#12) (.loop f.d ext)
  | 0x15#6 =>
    let f := CI.unpack w
    match f.imm with
    | 0#12 => when0 (f.a == 0#5 && f.c == 0#3) (.li f.d ext)
    | 1#12 => when0 (f.a == 0#5 && f.c == 0#3) (.lih f.d ext)
    | _ => none
  | 0x16#6 =>
    let f := CR.unpack w
    when0 (f.unused true false true false && f.g == 0#3 && f.minor == 0#4) (.spawnLone f.a f.c ext)
  | _ => none

def rawLone (w ext : Half) : Option Instr := rawLoneAt w ext (copOf w)

/-! ## The A-slot map (R63, R66) -/

/-- The operands of a vector word. -/
def AF.vop (f : AF) : VOp where
  d := f.d
  a := f.a
  b := f.b
  qa := f.e.extractLsb' 4 1
  qb := f.e.extractLsb' 3 1
  qd := f.e.extractLsb' 2 1
  g := f.g
  t := f.minor

/-- The A-slot word of an opcode, its fields unpacked, before the range checks of `WellFormed`. -/
def rawAAt (w : Half) (f : AF) (sub : BitVec 2) (e0 : Bool) : BitVec 6 → Option Instr
  | 0x00#6 => when0 (w == 0#32) .nopA
  | 0x01#6 => when0 (e0 && f.minor == 0#3) (.add f.d f.a f.b f.g)
  | 0x02#6 => when0 (e0 && f.minor == 0#3) (.sub f.d f.a f.b f.g)
  | 0x03#6 => let f := AI.unpack w; some (.addi f.d f.a f.imm)
  | 0x04#6 => when0 (e0 && f.minor == 0#3) (.mul f.d f.a f.b f.g)
  | 0x05#6 => when0 e0 (.mulh f.d f.a f.b f.g f.minor)
  | 0x06#6 =>
    match f.minor with
    | 0#3 => when0 e0 (.div f.d f.a f.b f.g)
    | 1#3 => when0 e0 (.divu f.d f.a f.b f.g)
    | _ => none
  | 0x07#6 =>
    match f.minor with
    | 0#3 => when0 e0 (.rem f.d f.a f.b f.g)
    | 1#3 => when0 e0 (.remu f.d f.a f.b f.g)
    | _ => none
  | 0x08#6 =>
    match f.minor with
    | 0#3 => when0 e0 (.and f.d f.a f.b f.g)
    | 1#3 => when0 e0 (.andn f.d f.a f.b f.g)
    | _ => none
  | 0x09#6 => when0 (e0 && f.minor == 0#3) (.or f.d f.a f.b f.g)
  | 0x0A#6 => when0 (e0 && f.minor == 0#3) (.xor f.d f.a f.b f.g)
  | 0x0B#6 =>
    match f.minor with
    | 0#3 => when0 e0 (.shl f.d f.a f.b f.g)
    | 2#3 => when0 (f.b == 0#5) (.shlImm f.d f.a (0#1 ++ f.e) f.g)
    | 3#3 => when0 (f.b == 0#5) (.shlImm f.d f.a (1#1 ++ f.e) f.g)
    | _ => none
  | 0x0C#6 =>
    match f.minor with
    | 0#3 => when0 e0 (.shr f.d f.a f.b f.g)
    | 2#3 => when0 (f.b == 0#5) (.shrImm f.d f.a (0#1 ++ f.e) f.g)
    | 3#3 => when0 (f.b == 0#5) (.shrImm f.d f.a (1#1 ++ f.e) f.g)
    | _ => none
  | 0x0D#6 =>
    match f.minor with
    | 0#3 => when0 e0 (.sar f.d f.a f.b f.g)
    | 2#3 => when0 (f.b == 0#5) (.sarImm f.d f.a (0#1 ++ f.e) f.g)
    | 3#3 => when0 (f.b == 0#5) (.sarImm f.d f.a (1#1 ++ f.e) f.g)
    | _ => none
  | 0x0E#6 =>
    match f.minor with
    | 0#3 => when0 e0 (.min f.d f.a f.b f.g)
    | 1#3 => when0 e0 (.max f.d f.a f.b f.g)
    | 2#3 => when0 e0 (.minu f.d f.a f.b f.g)
    | 3#3 => when0 e0 (.maxu f.d f.a f.b f.g)
    | _ => none
  | 0x0F#6 => when0 (e0 && f.d.ult 8#5) (.cmp (f.d.extractLsb' 0 3) f.a f.b f.g f.minor)
  | 0x10#6 => when0 (f.e.ult 8#5 && f.minor == 0#3) (.sel f.d f.a f.b (f.e.extractLsb' 0 3) f.g)
  | 0x11#6 => when0 (f.b == 0#5 && e0 && f.minor.ult 4#3) (.bits f.d f.a f.g (f.minor.extractLsb' 0 2))
  | 0x12#6 =>
    match f.minor with
    | 0#3 => some (.ext f.d f.a f.b f.e f.g)
    | 1#3 => some (.extS f.d f.a f.b f.e f.g)
    | 2#3 => some (.ins f.d f.a f.b f.e f.g)
    | _ => none
  | 0x13#6 =>
    match f.minor with
    | 0#3 => when0 e0 (.fadd f.d f.a f.b f.g)
    | 1#3 => when0 e0 (.fsub f.d f.a f.b f.g)
    | _ => none
  | 0x14#6 => when0 (e0 && f.minor == 0#3) (.fmul f.d f.a f.b f.g)
  | 0x15#6 =>
    match f.minor with
    | 0#3 => some (.fma f.d f.a f.b f.e f.g)
    | 1#3 => some (.fms f.d f.a f.b f.e f.g)
    | _ => none
  | 0x16#6 =>
    match f.minor with
    | 0#3 => when0 e0 (.fmin f.d f.a f.b f.g)
    | 1#3 => when0 e0 (.fmax f.d f.a f.b f.g)
    | _ => none
  | 0x17#6 => when0 (e0 && f.d.ult 8#5 && f.minor.ult 4#3)
      (.fcmp (f.d.extractLsb' 0 3) f.a f.b f.g (f.minor.extractLsb' 0 2))
  | 0x18#6 => when0 (f.b == 0#5 && f.e.ult 4#5) (.fcvt f.d f.a (f.e.extractLsb' 0 2) f.g f.minor)
  | 0x20#6 =>
    match sub with
    | 0#2 => some (.vadd f.vop)
    | 1#2 => some (.vsub f.vop)
    | _ => none
  | 0x21#6 => when0 (sub == 0#2) (.vmul f.vop)
  | 0x22#6 => when0 (sub == 0#2) (.vfma f.vop)
  | 0x23#6 =>
    match sub with
    | 0#2 => some (.vmin f.vop)
    | 1#2 => some (.vmax f.vop)
    | _ => none
  | 0x24#6 => some (.vcmp sub f.vop)
  | 0x25#6 => when0 (sub == 0#2) (.vsel f.vop)
  | 0x26#6 => some (.vred sub f.vop)
  | 0x27#6 => some (.vcvt sub f.vop)
  | 0x28#6 => when0 (f.e.getLsbD 1 == false) (.vdec (f.e.extractLsb' 0 1) f.vop)
  | 0x29#6 => when0 (sub == 0#2) (.venc f.vop)
  | 0x2A#6 => when0 (sub == 0#2) (.vscl f.vop)
  | 0x2B#6 => when0 (sub == 0#2) (.vperm f.vop)
  | 0x2C#6 => when0 (sub == 0#2) (.vbcast f.vop)
  | 0x2D#6 => when0 (sub == 0#2) (.vextr f.vop)
  | 0x2E#6 => when0 (sub == 0#2) (.vidx f.vop)
  | 0x2F#6 =>
    when0 (f.d == 0#5 && f.b == 0#5 && f.e.ult 16#5 && f.minor == 0#3) (.vloop f.a (f.e.extractLsb' 0 4) f.g)
  | 0x30#6 => when0 (sub == 0#2) (.vsfu f.vop)
  | 0x31#6 => when0 (f.e.getLsbD 1 == false) (.vsort (f.e.extractLsb' 0 1) f.vop)
  | 0x32#6 => when0 (f.e.getLsbD 1 == false) (.vksel (f.e.extractLsb' 0 1) f.vop)
  | 0x33#6 => when0 (sub == 0#2) (.vrand f.vop)
  | 0x34#6 => when0 (sub == 0#2) (.vimask f.vop)
  | 0x35#6 => when0 (f.d == 0#5 && f.a == 0#5 && f.b == 0#5 && e0 && f.minor == 0#3) (.vsync f.g)
  | _ => none

def rawA (w : Half) : Option Instr :=
  let f := AF.unpack w
  rawAAt w f (f.e.extractLsb' 0 2) (f.e == 0#5) (aopOf w)

/-! ## Decoding (R68) -/

/-- A C-slot word with L = 0. -/
def decodeC (w : Half) : Option Instr := if w.getLsbD 31 then none else (rawC w).filter WellFormed

/-- A word0 with L = 1 and its ext32. -/
def decodeLone (w ext : Half) : Option Instr := if w.getLsbD 31 then (rawLone w ext).filter WellFormed else none

/-- An A-slot word. -/
def decodeA (w : Half) : Option Instr := (rawA w).filter WellFormed

/-- The scalar and predicate registers an instruction writes, as register codes: s0–s31 are 0–31, p0–p7 are 32–39
(R48; the codes are those of R189), implicit ones included: s2 of ERET (R179), of an inlined SPAWN (R83) and of DONE, and s24–s31 of
DONE (R82, R84). Whether a SPAWN is inlined and what a DONE resumes is not known at decode: every SPAWN and DONE counts (DEDUCED; log
entry 18). Writes of s0 and p0 are discarded and do not count. -/
def destinations : Instr → List Nat
  | .ld d _ _ _ | .ldLone d _ _ _ | .ldl d _ _ | .ldlLone d _ _ => [d.toNat]
  | .ldh d _ _ _ _ | .ldf d _ _ _ _ | .ldx d _ _ _ _ => [d.toNat]
  | .atom d _ _ _ _ _ _ => [d.toNat]
  | .cas d _ _ _ _ size => if size = 0#1 then [d.toNat] else [d.toNat, d.toNat + 1]
  | .jal _ | .jalLone _ => [1]
  | .eret _ => [2]
  | .spawn .. | .spawnLone .. => [2]
  | .done _ => 2 :: (List.range 8).map (24 + ·)
  | .jr d _ _ | .loop d _ | .li d _ | .lih d _ => [d.toNat]
  | .popm d _ => (List.range 8).map (d.toNat + ·)
  | .epop d _ _ | .claim d _ _ | .vallot d _ _ => [d.toNat]
  | .tdesc d _ _ _ => [d.toNat, d.toNat + 1]
  | .texp d _ _ | .tfill d _ _ _ | .tseal d _ _ | .trec d _ _ | .tabort d _ _ _ => [d.toNat]
  | .lzres d _ _ _ _ | .lzexp d _ _ _ | .lzwait d _ _ | .lzfree d _ _ | .lzcfg d _ _ | .lzstat d _ _ => [d.toNat]
  | .csrr d _ | .almr d _ _ | .dtrd d _ _ => [d.toNat]
  | .add d _ _ _ | .sub d _ _ _ | .addi d _ _ | .mul d _ _ _ | .mulh d _ _ _ _ => [d.toNat]
  | .div d _ _ _ | .divu d _ _ _ | .rem d _ _ _ | .remu d _ _ _ => [d.toNat]
  | .and d _ _ _ | .andn d _ _ _ | .or d _ _ _ | .xor d _ _ _ => [d.toNat]
  | .shl d _ _ _ | .shlImm d _ _ _ | .shr d _ _ _ | .shrImm d _ _ _ | .sar d _ _ _ | .sarImm d _ _ _ => [d.toNat]
  | .min d _ _ _ | .max d _ _ _ | .minu d _ _ _ | .maxu d _ _ _ => [d.toNat]
  | .cmp p _ _ _ _ | .fcmp p _ _ _ _ => [32 + p.toNat]
  | .sel d _ _ _ _ | .bits d _ _ _ | .ext d _ _ _ _ | .extS d _ _ _ _ | .ins d _ _ _ _ => [d.toNat]
  | .fadd d _ _ _ | .fsub d _ _ _ | .fmul d _ _ _ | .fma d _ _ _ _ | .fms d _ _ _ _ => [d.toNat]
  | .fmin d _ _ _ | .fmax d _ _ _ | .fcvt d _ _ _ _ => [d.toNat]
  | .vred _ o | .vextr o => [o.d.toNat]
  | .vsort _ o | .vksel _ o => [o.b.toNat]
  | .nopC | .st .. | .stLone .. | .stl .. | .stlLone .. | .stf .. | .stfa .. | .feclr .. | .waitListBusyReissue ..
  | .lq .. | .loadQueueRowFill .. | .sq .. | .stg .. | .stgLone .. | .stgAcknowledgement .. | .fence .. | .rflush ..
  | .rinv .. | .cacheWalk .. | .cld .. | .cst .. | .cnar .. | .cgive .. | .br .. | .brLone .. | .bc .. | .bcLone ..
  | .await .. | .migrate .. | .send .. | .sende .. | .waitm .. | .epushMat ..
  | .epushCopy .. | .mma .. | .mmae .. | .ringset .. | .shrink .. | .gang .. | .ungang .. | .tback .. | .tbackLevel ..
  | .tabortUnwind .. | .tform .. | .csrw .. | .openWalk .. | .adoptWalk .. | .ticketClear .. | .trap ..
  | .yield .. | .asfl .. | .asbar .. | .couple .. | .uncouple .. | .wake .. | .almw .. | .dtwr .. | .nopA
  | .vadd .. | .vsub .. | .vmul .. | .vfma .. | .vmin .. | .vmax .. | .vcmp .. | .vsel .. | .vcvt .. | .vdec ..
  | .venc .. | .vscl .. | .vperm .. | .vbcast .. | .vidx .. | .vloop .. | .vsfu .. | .vrand .. | .vimask .. | .vsync ..
  | .issueTurn .. | .rank1Step .. | .rotationBoundary | .preemptTimerExpiry .. | .preEmption .. | .pktHoldTimeout ..
  | .resumption .. | .translationWalk .. | .wokenContextRestore .. | .steal .. | .takeArrival .. | .replyWritten ..
  | .storePerformed .. | .packetDelivery .. | .handlerStart .. | .arrivalRecordAccept .. | .equinoxSweep
  | .queueTailTake .. | .launchPlacement .. | .classifierWindow .. | .sequencerEntryRun .. | .sfuRequestServe ..
  | .copyCommandStart .. | .commandCompletion .. | .multicastPieceDrain .. | .arrivalUnit .. | .intervalEnd ..
  | .flitReplay .. | .laneMarginStepDown .. | .laneTrainingFailure .. | .linkDown .. | .powerSample ..
  | .ageingSensorUpdate .. | .dramBatchMark .. | .dramCapWindow | .llcEviction .. | .coldReset ..
  | .functionLevelReset .. | .fillApertureWrite .. | .spdmAttestation .. | .setWayMasks .. | .setDramCap ..
  | .setVcWeights .. | .writeKeySlot .. | .writeRouteEntry .. | .writeQueueDescriptor .. | .setTenantAreas ..
  | .setAsidRoot .. | .setPowerCap .. | .takeLinkDown .. | .retrainLink .. | .supervisorPreempt ..
  | .releaseKilledSlot .. | .abortLaunch .. | .injectPreempt .. | .injectEcc .. | .setBreakpoint ..
  | .setAgeingThreshold .. | .ageingWarnClear .. | .atsInvalidation .. | .bindQueueToVf .. => []

/-- The scalar registers that an instruction reads, implied ones included (R48, R51, R53, R82–R84, R90): s2 and s24–s31 of SPAWN and
MIGRATE, s2 of DONE. -/
def scalarReads : Instr → List Nat
  | .ld _ a _ _ | .ldLone _ a _ _ | .ldl _ a _ | .ldlLone _ a _ | .ldh _ a _ _ _ | .ldf _ a _ _ _ | .ldx _ a _ _ _ => [a.toNat]
  | .st d a _ _ | .stLone d a _ _ | .stl d a _ | .stlLone d a _ | .stf d a _ _ _ | .stfa d a _ _ _ => [d.toNat, a.toNat]
  | .feclr a _ _ _ => [a.toNat]
  | .lq _ a b _ _ _ | .sq _ a b _ _ _ => [a.toNat, b.toNat]
  | .atom _ a b _ _ _ _ => [a.toNat, b.toNat]
  | .cas d a b _ _ size =>
    if size = 0#1 then [d.toNat, a.toNat, b.toNat] else [d.toNat, d.toNat + 1, a.toNat, b.toNat, b.toNat + 1]
  | .stg d a _ _ | .stgLone d a _ _ => [d.toNat, a.toNat]
  | .rflush d a b _ _ | .rinv d a b _ _ => [d.toNat, a.toNat, b.toNat]
  | .cld a _ _ | .cst a _ _ | .cgive a _ _ => [a.toNat]
  | .cnar d a b _ _ => [d.toNat, a.toNat, b.toNat]
  | .jr _ a _ => [a.toNat]
  | .loop d _ | .lih d _ => [d.toNat]
  | .spawn a b _ _ => a.toNat :: b.toNat :: 2 :: (List.range 8).map (24 + ·)
  | .spawnLone a _ _ => a.toNat :: 2 :: (List.range 8).map (24 + ·)
  | .await a _ _ => [a.toNat]
  | .done _ => [2]
  | .migrate a _ => a.toNat :: (List.range 8).map (24 + ·)
  | .send a b _ _ _ | .sende a b _ _ _ => [a.toNat, b.toNat]
  | .epushMat a _ | .epushCopy a _ | .shrink a _ => [a.toNat]
  | .mma _ a _ _ _ _ => [a.toNat]
  | .ringset _ a b _ _ => [a.toNat, b.toNat]
  | .mmae _ a b _ _ _ _ _ _ => [a.toNat, b.toNat]
  | .claim _ a _ | .vallot _ a _ => [a.toNat]
  | .tdesc _ a _ _ | .texp _ a _ | .tseal _ a _ | .trec _ a _ | .tabort _ a _ _ | .tform a _ _ _ => [a.toNat]
  | .tback a b _ _ _ | .tfill _ a b _ => [a.toNat, b.toNat]
  | .lzres _ a _ _ _ | .lzwait _ a _ | .lzfree _ a _ | .lzcfg _ a _ | .lzstat _ a _ => [a.toNat]
  | .lzexp _ a b _ => [a.toNat, b.toNat]
  | .csrw a _ | .openWalk a | .adoptWalk a | .ticketClear a => [a.toNat]
  | .trap a _ | .asfl a _ | .wake a _ | .almr _ a _ | .dtrd _ a _ => [a.toNat]
  | .almw a b _ | .dtwr a b _ => [a.toNat, b.toNat]
  | .add _ a b _ | .sub _ a b _ | .mul _ a b _ | .mulh _ a b _ _ => [a.toNat, b.toNat]
  | .addi _ a _ => [a.toNat]
  | .div _ a b _ | .divu _ a b _ | .rem _ a b _ | .remu _ a b _ => [a.toNat, b.toNat]
  | .and _ a b _ | .andn _ a b _ | .or _ a b _ | .xor _ a b _ => [a.toNat, b.toNat]
  | .shl _ a b _ | .shr _ a b _ | .sar _ a b _ => [a.toNat, b.toNat]
  | .shlImm _ a _ _ | .shrImm _ a _ _ | .sarImm _ a _ _ | .bits _ a _ _ | .fcvt _ a _ _ _ => [a.toNat]
  | .min _ a b _ | .max _ a b _ | .minu _ a b _ | .maxu _ a b _ | .cmp _ a b _ _ | .sel _ a b _ _ => [a.toNat, b.toNat]
  | .ext _ a b _ _ | .extS _ a b _ _ => [a.toNat, b.toNat]
  | .ins d a b _ _ => [d.toNat, a.toNat, b.toNat]
  | .fadd _ a b _ | .fsub _ a b _ | .fmul _ a b _ | .fmin _ a b _ | .fmax _ a b _ | .fcmp _ a b _ _ => [a.toNat, b.toNat]
  | .fma _ a b e _ | .fms _ a b e _ => [a.toNat, b.toNat, e.toNat]
  | .vbcast o | .vidx o => [o.a.toNat]
  | .vextr o | .vksel _ o | .vimask o => [o.b.toNat]
  | .vrand o => [o.a.toNat, o.b.toNat]
  | .vloop a _ _ => [a.toNat]
  | .nopC | .waitListBusyReissue .. | .loadQueueRowFill .. | .stgAcknowledgement .. | .fence .. | .cacheWalk .. | .br ..
  | .brLone .. | .bc .. | .bcLone .. | .jal .. | .jalLone .. | .li .. | .waitm .. | .popm .. | .epop .. | .gang .. | .ungang ..
  | .tbackLevel .. | .tabortUnwind .. | .csrr .. | .eret .. | .yield .. | .asbar .. | .couple .. | .uncouple .. | .nopA
  | .vadd .. | .vsub .. | .vmul .. | .vfma .. | .vmin .. | .vmax .. | .vcmp .. | .vsel .. | .vred .. | .vcvt .. | .vdec ..
  | .venc .. | .vscl .. | .vperm .. | .vsfu .. | .vsort .. | .vsync ..
  | .issueTurn .. | .rank1Step .. | .rotationBoundary | .preemptTimerExpiry .. | .preEmption .. | .pktHoldTimeout ..
  | .resumption .. | .translationWalk .. | .wokenContextRestore .. | .steal .. | .takeArrival .. | .replyWritten ..
  | .storePerformed .. | .packetDelivery .. | .handlerStart .. | .arrivalRecordAccept .. | .equinoxSweep
  | .queueTailTake .. | .launchPlacement .. | .classifierWindow .. | .sequencerEntryRun .. | .sfuRequestServe ..
  | .copyCommandStart .. | .commandCompletion .. | .multicastPieceDrain .. | .arrivalUnit .. | .intervalEnd ..
  | .flitReplay .. | .laneMarginStepDown .. | .laneTrainingFailure .. | .linkDown .. | .powerSample ..
  | .ageingSensorUpdate .. | .dramBatchMark .. | .dramCapWindow | .llcEviction .. | .coldReset ..
  | .functionLevelReset .. | .fillApertureWrite .. | .spdmAttestation .. | .setWayMasks .. | .setDramCap ..
  | .setVcWeights .. | .writeKeySlot .. | .writeRouteEntry .. | .writeQueueDescriptor .. | .setTenantAreas ..
  | .setAsidRoot .. | .setPowerCap .. | .takeLinkDown .. | .retrainLink .. | .supervisorPreempt ..
  | .releaseKilledSlot .. | .abortLaunch .. | .injectPreempt .. | .injectEcc .. | .setBreakpoint ..
  | .setAgeingThreshold .. | .ageingWarnClear .. | .atsInvalidation .. | .bindQueueToVf .. => []

/-- Whether the two slots of a pair write one register (R48). -/
def writesClash (c a : Instr) : Bool :=
  (destinations c).any fun r => r != 0 && r != 32 && (destinations a).contains r

/-- One decoded 8-byte group: a C-slot instruction or lone form, and the A-slot instruction of a pair (R47). -/
abbrev Group := Instr × Option Instr

/-- The slot that a decode trap names: 0 the C-slot, 1 the A-slot (R178 SLOTK). -/
abbrev SlotK := Nat

/-- The group of word0 and word1, or the slot whose pattern traps ILL (R68). When both slots are illegal the C-slot
is named; a clash of destinations names the A-slot. -/
def decodeGroup (w0 w1 : Half) : Except SlotK Group :=
  if w0.getLsbD 31 then
    match decodeLone w0 w1 with
    | some i => .ok (i, none)
    | none => .error 0
  else
    match decodeC w0, decodeA w1 with
    | none, _ => .error 0
    | some _, none => .error 1
    | some c, some a => if writesClash c a then .error 1 else .ok (c, some a)

/-- The vector registers a vector instruction names, implied ones included (R54, R68, R174). -/
def vectorRegs : Instr → List Nat
  | .vadd o | .vsub o | .vmul o | .vmin o | .vmax o | .vcmp _ o | .vscl o | .vperm o => vd o ++ va o ++ vb o
  | .vfma o | .vsel o => vd o ++ va o ++ vb o
  | .vred _ o | .vextr o => va o
  | .vcvt r o => if r = 3#2 then vd o ++ va o ++ vb o else vd o ++ va o
  | .vdec s o => if s = 1#1 then vd o ++ va o ++ vb o else vd o ++ va o
  | .venc o | .vsfu o | .vimask o => vd o ++ va o
  | .vbcast o | .vidx o | .vrand o => vd o
  | .vsort _ o | .vksel _ o => [o.d.toNat, o.d.toNat + 1, o.a.toNat, o.a.toNat + 1]
  | _ => []
where
  vd (o : VOp) : List Nat := if o.qd = 0#1 then [o.d.toNat] else []
  va (o : VOp) : List Nat := if o.qa = 0#1 then [o.a.toNat] else []
  vb (o : VOp) : List Nat := if o.qb = 0#1 then [o.b.toNat] else []

/-- The vector registers whose lanes an entry reads. -/
def vectorReads : Instr → List Nat
  | .vfma o | .vsel o => vectorRegs (.vfma o)
  | .vksel _ o => vectorRegs (.vksel 0 o)
  | .vsort _ o => [o.a.toNat, o.a.toNat + 1]
  | .vbcast _ | .vidx _ | .vrand _ => []
  | i => match i with
    | .vadd o | .vsub o | .vmul o | .vmin o | .vmax o | .vcmp _ o | .vscl o | .vperm o => vectorRegs.va o ++ vectorRegs.vb o
    | .vcvt r o => if r = 3#2 then vectorRegs.va o ++ vectorRegs.vb o else vectorRegs.va o
    | .vdec s o => if s = 1#1 then vectorRegs.va o ++ vectorRegs.vb o else vectorRegs.va o
    | .venc o | .vsfu o | .vimask o | .vred _ o | .vextr o => vectorRegs.va o
    | _ => []

/-- The guard of an instruction whose format has one. -/
def guardOf : Instr → Option PredIx
  | .lq _ _ _ _ g _ | .sq _ _ _ _ g _ | .fence g _ | .rflush _ _ _ _ g | .rinv _ _ _ _ g | .cld _ _ g | .cst _ _ g
  | .cnar _ _ _ _ g | .cgive _ _ g | .jr _ _ g | .spawn _ _ _ g | .await _ _ g | .done g | .migrate _ g
  | .send _ _ g _ _ | .sende _ _ g _ _ | .waitm g | .popm _ g | .epushMat _ g | .epushCopy _ g | .epop _ g _
  | .mma _ _ _ _ g _ | .mmae _ _ _ _ _ _ g _ _ | .ringset _ _ _ g _ | .claim _ _ g | .shrink _ g | .vallot _ _ g
  | .gang g | .ungang g | .tdesc _ _ g _ | .tback _ _ _ g _ | .texp _ _ g | .tfill _ _ _ g | .tseal _ _ g | .trec _ _ g
  | .tabort _ _ _ g | .tform _ _ g _ | .lzres _ _ g _ _ | .lzexp _ _ _ g | .lzwait _ _ g | .lzfree _ _ g | .lzcfg _ _ g
  | .lzstat _ _ g | .trap _ g | .eret g | .yield g | .asfl _ g | .asbar g | .couple g | .uncouple g | .wake _ g
  | .almr _ _ g | .almw _ _ g | .dtrd _ _ g | .dtwr _ _ g => some g
  | .add _ _ _ g | .sub _ _ _ g | .mul _ _ _ g | .mulh _ _ _ g _ | .div _ _ _ g | .divu _ _ _ g | .rem _ _ _ g
  | .remu _ _ _ g | .and _ _ _ g | .andn _ _ _ g | .or _ _ _ g | .xor _ _ _ g | .shl _ _ _ g | .shlImm _ _ _ g
  | .shr _ _ _ g | .shrImm _ _ _ g | .sar _ _ _ g | .sarImm _ _ _ g | .min _ _ _ g | .max _ _ _ g | .minu _ _ _ g
  | .maxu _ _ _ g | .cmp _ _ _ g _ | .sel _ _ _ _ g | .bits _ _ g _ | .ext _ _ _ _ g | .extS _ _ _ _ g | .ins _ _ _ _ g
  | .fadd _ _ _ g | .fsub _ _ _ g | .fmul _ _ _ g | .fma _ _ _ _ g | .fms _ _ _ _ g | .fmin _ _ _ g | .fmax _ _ _ g
  | .fcmp _ _ _ g _ | .fcvt _ _ _ g _ | .vloop _ _ g | .vsync g => some g
  | .vadd o | .vsub o | .vmul o | .vfma o | .vmin o | .vmax o | .vcmp _ o | .vsel o | .vred _ o | .vcvt _ o | .vdec _ o
  | .venc o | .vscl o | .vperm o | .vbcast o | .vextr o | .vidx o | .vsfu o | .vsort _ o | .vksel _ o | .vrand o
  | .vimask o => some o.g
  | _ => none

/-- The capability registers that an instruction reads. -/
def capReads : Instr → List CapIx
  | .ld _ _ c _ | .ldLone _ _ c _ | .st _ _ c _ | .stLone _ _ c _ | .lq _ _ _ c _ _ | .sq _ _ _ c _ _ | .atom _ _ _ c _ _ _
  | .cas _ _ _ c _ _ | .stg _ _ c _ | .stgLone _ _ c _ | .rflush _ _ _ c _ | .rinv _ _ _ c _ | .cst _ c _ | .cnar _ _ _ c _
  | .cgive _ c _ | .await _ c _ | .tback _ _ c _ _ | .tabort _ _ c _ | .tform _ c _ _ => [c]
  | .ldh _ _ c m _ | .ldf _ _ c m _ | .ldx _ _ c m _ | .stf _ _ c m _ | .stfa _ _ c m _ | .feclr _ c m _ =>
    if m = 0#1 then [c] else []
  | .spawn .. | .spawnLone .. | .migrate .. => (List.range 8).map (BitVec.ofNat 3)
  | _ => []

/-- The predicates that an instruction reads beside its guard. -/
def predReads : Instr → List PredIx
  | .bc p _ _ | .bcLone p _ _ | .sel _ _ _ p _ => [p]
  | _ => []

/-- The registers that an instruction reads once its guard holds, by code: s0–s31 are 0–31, p0–p7 32–39, c0–c7 40–47. -/
def registerReads (i : Instr) : List Nat :=
  scalarReads i ++ (predReads i).map (fun p => 32 + p.toNat) ++ (capReads i).map fun c => 40 + c.toNat

/-- Whether an A-slot instruction is a vector instruction (aop 0x20–0x35, R159). -/
def isVector : Instr → Bool
  | .vadd _ | .vsub _ | .vmul _ | .vfma _ | .vmin _ | .vmax _ | .vcmp _ _ | .vsel _ | .vred _ _ | .vcvt _ _
  | .vdec _ _ | .venc _ | .vscl _ | .vperm _ | .vbcast _ | .vextr _ | .vidx _ | .vloop _ _ _ | .vsfu _ | .vsort _ _
  | .vksel _ _ | .vrand _ | .vimask _ | .vsync _ => true
  | _ => false

/-! ## Encoding -/

/-- The words of an instruction: where each stands in its group. -/
inductive Code where
  /-- word0 of a pair. -/
  | c (w : Half)
  /-- word0 and word1 of a lone form. -/
  | lone (w ext : Half)
  /-- word1 of a pair. -/
  | a (w : Half)
  /-- An event or a command has no words. -/
  | none
  deriving DecidableEq, Repr

/-- The instruction of a `Code`. -/
def decode : Code → Option Instr
  | .c w => decodeC w
  | .lone w ext => decodeLone w ext
  | .a w => decodeA w
  | .none => Option.none

def cr (cop : BitVec 6) (d a b : Reg) (c : CapIx) (g : PredIx) (minor : BitVec 4) : Code :=
  .c (CR.pack ⟨0, cop, d, a, b, c, g, minor⟩)
def ci (cop : BitVec 6) (d a : Reg) (c : CapIx) (imm : BitVec 12) : Code := .c (CI.pack ⟨0, cop, d, a, c, imm⟩)
def cf (cop : BitVec 6) (d a : Reg) (c : CapIx) (m : BitVec 1) (minor : BitVec 2) (imm : BitVec 9) : Code :=
  .c (CF.pack ⟨0, cop, d, a, c, m, minor, imm⟩)
def ca (cop : BitVec 6) (d a b : Reg) (c : CapIx) (ord : BitVec 2) (size : BitVec 1) (op : BitVec 4) : Code :=
  .c (CA.pack ⟨0, cop, d, a, b, c, ord, size, op⟩)
def cb (cop : BitVec 6) (p : PredIx) (s : BitVec 1) (disp : BitVec 21) : Code := .c (CB.pack ⟨0, cop, p, s, disp⟩)
def loneCI (cop : BitVec 6) (d a : Reg) (c : CapIx) (imm : BitVec 12) (ext : Half) : Code :=
  .lone (CI.pack ⟨1, cop, d, a, c, imm⟩) ext
def loneCB (cop : BitVec 6) (p : PredIx) (s : BitVec 1) (ext : Half) : Code := .lone (CB.pack ⟨1, cop, p, s, 0⟩) ext
def af (aop : BitVec 6) (d a b e : BitVec 5) (g minor : BitVec 3) : Code := .a (AF.pack ⟨aop, d, a, b, e, g, minor⟩)
def av (aop : BitVec 6) (sub : BitVec 2) (o : VOp) : Code :=
  .a (AF.pack ⟨aop, o.d, o.a, o.b, o.qa ++ o.qb ++ o.qd ++ sub, o.g, o.t⟩)

/-- The minor of a shift by an immediate count: [1] set, [0] bit 5 of the count (R64). -/
def shiftMinor (n : BitVec 6) : BitVec 3 := 1#2 ++ n.extractLsb' 5 1

/-- The words of an instruction (R51, R53, R60–R67). -/
def encode : Instr → Code
  | .nopC => .c 0#32
  | .ld d a c imm => ci 0x01 d a c imm
  | .ldLone d a c ext => loneCI 0x01 d a c 0 ext
  | .st d a c imm => ci 0x02 d a c imm
  | .stLone d a c ext => loneCI 0x02 d a c 0 ext
  | .ldl d a imm => ci 0x03 d a 0 imm
  | .ldlLone d a ext => loneCI 0x03 d a 0 0 ext
  | .stl d a imm => ci 0x04 d a 0 imm
  | .stlLone d a ext => loneCI 0x04 d a 0 0 ext
  | .ldh d a c m imm => cf 0x05 d a c m 0 imm
  | .ldf d a c m imm => cf 0x06 d a c m 0 imm
  | .ldx d a c m imm => cf 0x06 d a c m 1 imm
  | .stf d a c m imm => cf 0x07 d a c m 0 imm
  | .stfa d a c m imm => cf 0x07 d a c m 1 imm
  | .feclr a c m imm => cf 0x07 0 a c m 2 imm
  | .lq d a b c g k => cr 0x08 d a b c g k
  | .sq d a b c g k => cr 0x09 d a b c g k
  | .atom d a b c ord size op => ca 0x0A d a b c ord size op
  | .cas d a b c ord size => ca 0x0B d a b c ord size 0
  | .stg d a c imm => ci 0x0C d a c imm
  | .stgLone d a c ext => loneCI 0x0C d a c 0 ext
  | .fence g f => cr 0x0D 0 0 0 0 g (0#2 ++ f)
  | .rflush d a b c g => cr 0x0E d a b c g 0
  | .rinv d a b c g => cr 0x0E d a b c g 1
  | .cld a c g => cr 0x0F 0 a 0 c g 0
  | .cst a c g => cr 0x0F 0 a 0 c g 1
  | .cnar d a b c g => cr 0x0F d a b c g 2
  | .cgive a c g => cr 0x0F 0 a 0 c g 3
  | .br disp => cb 0x10 0 0 disp
  | .brLone ext => loneCB 0x10 0 0 ext
  | .bc p s disp => cb 0x11 p s disp
  | .bcLone p s ext => loneCB 0x11 p s ext
  | .jal disp => cb 0x12 0 0 disp
  | .jalLone ext => loneCB 0x12 0 0 ext
  | .jr d a g => cr 0x13 d a 0 0 g 0
  | .loop d ext => loneCI 0x14 d 0 0 0 ext
  | .li d ext => loneCI 0x15 d 0 0 0 ext
  | .lih d ext => loneCI 0x15 d 0 0 1 ext
  | .spawn a b c g => cr 0x16 0 a b c g 0
  | .spawnLone a c ext => .lone (CR.pack ⟨1, 0x16, 0, a, 0, c, 0, 0⟩) ext
  | .await a c g => cr 0x17 0 a 0 c g 0
  | .done g => cr 0x18 0 0 0 0 g 0
  | .migrate a g => cr 0x19 0 a 0 0 g 0
  | .send a b g ch h => cr 0x1A 0 a b 0 g (ch ++ h ++ 0#1)
  | .sende a b g ch h => cr 0x1A 0 a b 0 g (ch ++ h ++ 1#1)
  | .waitm g => cr 0x1B 0 0 0 0 g 0
  | .popm d g => cr 0x1B d 0 0 0 g 1
  | .epushMat a g => cr 0x1C 0 a 0 0 g 0
  | .epushCopy a g => cr 0x1C 0 a 0 0 g 1
  | .epop d g e => cr 0x1D d 0 0 0 g (0#3 ++ e)
  | .mma d a b c g z => cr 0x1E d a b c g (0#3 ++ z)
  | .mmae d a b t q x g o r => cr 0x1F d a b (t ++ q ++ x) g (o ++ r)
  | .ringset d a b g fmt => cr 0x20 d a b 0 g fmt
  | .claim d a g => cr 0x21 d a 0 0 g 0
  | .shrink a g => cr 0x21 0 a 0 0 g 1
  | .vallot d a g => cr 0x21 d a 0 0 g 2
  | .gang g => cr 0x22 0 0 0 0 g 0
  | .ungang g => cr 0x22 0 0 0 0 g 1
  | .tdesc d a g f => cr 0x23 d a 0 0 g f
  | .tback a b c g t => cr 0x24 0 a b c g (0#3 ++ t)
  | .texp d a g => cr 0x25 d a 0 0 g 0
  | .tfill d a b g => cr 0x25 d a b 0 g 1
  | .tseal d a g => cr 0x25 d a 0 0 g 2
  | .trec d a g => cr 0x26 d a 0 0 g 0
  | .tabort d a c g => cr 0x26 d a 0 c g 1
  | .tform a c g f => cr 0x27 0 a 0 c g f
  | .lzres d a g w z => cr 0x28 d a 0 0 g (0#1 ++ w ++ z)
  | .lzexp d a b g => cr 0x29 d a b 0 g 0
  | .lzwait d a g => cr 0x29 d a 0 0 g 1
  | .lzfree d a g => cr 0x29 d a 0 0 g 2
  | .lzcfg d a g => cr 0x2A d a 0 0 g 0
  | .lzstat d a g => cr 0x2A d a 0 0 g 1
  | .csrr d n => ci 0x2B d 0 0 (0#2 ++ n)
  | .csrw a n => ci 0x2B 0 a 0 (2#2 ++ n)
  | .openWalk a | .adoptWalk a | .ticketClear a => ci 0x2B 0 a 0 (2#2 ++ 0x00A#10)
  | .trap a g => cr 0x2C 0 a 0 0 g 0
  | .eret g => cr 0x2C 0 0 0 0 g 1
  | .yield g => cr 0x2C 0 0 0 0 g 2
  | .asfl a g => cr 0x2D 0 a 0 0 g 0
  | .asbar g => cr 0x2D 0 0 0 0 g 1
  | .couple g => cr 0x2E 0 0 0 0 g 0
  | .uncouple g => cr 0x2E 0 0 0 0 g 1
  | .wake a g => cr 0x2F 0 a 0 0 g 0
  | .almr d a g => cr 0x30 d a 0 0 g 0
  | .almw a b g => cr 0x30 0 a b 0 g 1
  | .dtrd d a g => cr 0x31 d a 0 0 g 0
  | .dtwr a b g => cr 0x31 0 a b 0 g 1
  | .nopA => .a 0#32
  | .add d a b g => af 0x01 d a b 0 g 0
  | .sub d a b g => af 0x02 d a b 0 g 0
  | .addi d a imm => .a (AI.pack ⟨0x03, d, a, imm⟩)
  | .mul d a b g => af 0x04 d a b 0 g 0
  | .mulh d a b g x => af 0x05 d a b 0 g x
  | .div d a b g => af 0x06 d a b 0 g 0
  | .divu d a b g => af 0x06 d a b 0 g 1
  | .rem d a b g => af 0x07 d a b 0 g 0
  | .remu d a b g => af 0x07 d a b 0 g 1
  | .and d a b g => af 0x08 d a b 0 g 0
  | .andn d a b g => af 0x08 d a b 0 g 1
  | .or d a b g => af 0x09 d a b 0 g 0
  | .xor d a b g => af 0x0A d a b 0 g 0
  | .shl d a b g => af 0x0B d a b 0 g 0
  | .shlImm d a n g => af 0x0B d a 0 (n.extractLsb' 0 5) g (shiftMinor n)
  | .shr d a b g => af 0x0C d a b 0 g 0
  | .shrImm d a n g => af 0x0C d a 0 (n.extractLsb' 0 5) g (shiftMinor n)
  | .sar d a b g => af 0x0D d a b 0 g 0
  | .sarImm d a n g => af 0x0D d a 0 (n.extractLsb' 0 5) g (shiftMinor n)
  | .min d a b g => af 0x0E d a b 0 g 0
  | .max d a b g => af 0x0E d a b 0 g 1
  | .minu d a b g => af 0x0E d a b 0 g 2
  | .maxu d a b g => af 0x0E d a b 0 g 3
  | .cmp p a b g x => af 0x0F (0#2 ++ p) a b 0 g x
  | .sel d a b p g => af 0x10 d a b (0#2 ++ p) g 0
  | .bits d a g x => af 0x11 d a 0 0 g (0#1 ++ x)
  | .ext d a b e g => af 0x12 d a b e g 0
  | .extS d a b e g => af 0x12 d a b e g 1
  | .ins d a b e g => af 0x12 d a b e g 2
  | .fadd d a b g => af 0x13 d a b 0 g 0
  | .fsub d a b g => af 0x13 d a b 0 g 1
  | .fmul d a b g => af 0x14 d a b 0 g 0
  | .fma d a b e g => af 0x15 d a b e g 0
  | .fms d a b e g => af 0x15 d a b e g 1
  | .fmin d a b g => af 0x16 d a b 0 g 0
  | .fmax d a b g => af 0x16 d a b 0 g 1
  | .fcmp p a b g x => af 0x17 (0#2 ++ p) a b 0 g (0#1 ++ x)
  | .fcvt d a r g x => af 0x18 d a 0 (0#3 ++ r) g x
  | .vadd o => av 0x20 0 o
  | .vsub o => av 0x20 1 o
  | .vmul o => av 0x21 0 o
  | .vfma o => av 0x22 0 o
  | .vmin o => av 0x23 0 o
  | .vmax o => av 0x23 1 o
  | .vcmp x o => av 0x24 x o
  | .vsel o => av 0x25 0 o
  | .vred x o => av 0x26 x o
  | .vcvt r o => av 0x27 r o
  | .vdec s o => av 0x28 (0#1 ++ s) o
  | .venc o => av 0x29 0 o
  | .vscl o => av 0x2A 0 o
  | .vperm o => av 0x2B 0 o
  | .vbcast o => av 0x2C 0 o
  | .vextr o => av 0x2D 0 o
  | .vidx o => av 0x2E 0 o
  | .vloop a n g => af 0x2F 0 a 0 (0#1 ++ n) g 0
  | .vsfu o => av 0x30 0 o
  | .vsort x o => av 0x31 (0#1 ++ x) o
  | .vksel x o => av 0x32 (0#1 ++ x) o
  | .vrand o => av 0x33 0 o
  | .vimask o => av 0x34 0 o
  | .vsync g => af 0x35 0 0 0 0 g 0
  | .waitListBusyReissue .. | .loadQueueRowFill .. | .stgAcknowledgement .. | .cacheWalk .. | .tbackLevel ..
  | .tabortUnwind .. | .issueTurn .. | .rank1Step .. | .rotationBoundary | .preemptTimerExpiry .. | .preEmption ..
  | .pktHoldTimeout .. | .resumption .. | .translationWalk .. | .wokenContextRestore .. | .steal .. | .takeArrival ..
  | .replyWritten .. | .storePerformed .. | .packetDelivery .. | .handlerStart .. | .arrivalRecordAccept ..
  | .equinoxSweep | .queueTailTake .. | .launchPlacement .. | .classifierWindow .. | .sequencerEntryRun ..
  | .sfuRequestServe .. | .copyCommandStart .. | .commandCompletion .. | .multicastPieceDrain .. | .arrivalUnit ..
  | .intervalEnd .. | .flitReplay .. | .laneMarginStepDown .. | .laneTrainingFailure .. | .linkDown .. | .powerSample ..
  | .ageingSensorUpdate .. | .dramBatchMark .. | .dramCapWindow | .llcEviction .. | .coldReset ..
  | .functionLevelReset .. | .fillApertureWrite .. | .spdmAttestation .. | .setWayMasks .. | .setDramCap ..
  | .setVcWeights .. | .writeKeySlot .. | .writeRouteEntry .. | .writeQueueDescriptor .. | .setTenantAreas ..
  | .setAsidRoot .. | .setPowerCap .. | .takeLinkDown .. | .retrainLink .. | .supervisorPreempt ..
  | .releaseKilledSlot .. | .abortLaunch .. | .injectPreempt .. | .injectEcc .. | .setBreakpoint ..
  | .setAgeingThreshold .. | .ageingWarnClear .. | .atsInvalidation .. | .bindQueueToVf .. => .none

/-- The instruction that the decoder answers for an instruction's words: a CSRW of TICKET has one word, whose operand chooses
among its three operations when it runs (R206). -/
def asDecoded : Instr → Instr
  | .adoptWalk a => .openWalk a
  | .ticketClear a => .openWalk a
  | i => i

/-! ## The table's words -/

/-- A table word stands in one slot of a group, the other slot all zero; the table does not say which, and one word may be an
instruction of both. It is word0 if it reads as a C-slot word, else word1. A word of 33 to 64 bits is a whole group. -/
def tableGroup (nbits w : Nat) : Half × Half :=
  if 32 < nbits then (BitVec.ofNat 32 w, BitVec.ofNat 32 (w / 2 ^ 32))
  else if (decodeC (BitVec.ofNat 32 w)).isSome then (BitVec.ofNat 32 w, 0#32)
  else (0#32, BitVec.ofNat 32 w)

/-- The instruction that the decoder reads from a word of spec/opcode_table.json; of a pair, the slot that is not NOP is
answered. -/
def decodeTableWord (nbits w : Nat) : Option Instr :=
  let g := tableGroup nbits w
  match decodeGroup g.1 g.2 with
  | .ok (c, none) => some c
  | .ok (c, some a) => if g.1 = 0#32 ∧ g.2 ≠ 0#32 then some a else some c
  | .error _ => none

end Sys2Proof
end

