-- ==== Sys2Proof/Config.lean ====
section
/-!
DEFINITION. What the manual leaves to the part: free values, constants without a body, so that no proof can see one.
A claim about a run is a claim for every value they may have. Each is named in notes/assumptions.
-/
namespace Sys2Proof.Config

/-- Which of the events that may happen next does happen (R5: no rate or latency is a bound). Log entry 2. -/
opaque choose : Nat → Nat

/-- A register that a resumption leaves undefined (R57, R82). Log entry 3. -/
opaque freeWord : Nat → BitVec 64

/-- Whether an L1 or instruction cache still holds a line it was given (R110: capacity is not architectural). Log entry 4. -/
opaque cacheKeeps : Nat → Bool

/-- Whether a slot's fetch buffer still serves a group it holds (R71, R109: "may execute"). Log entry 4. -/
opaque bufferServes : Nat → Bool

/-- How many lane groups the cluster takes at a renegotiation point, before the bounds of R157. Log entry 5. -/
opaque lanesTaken : Nat → Nat

/-- A result of the special-function unit within the bound of R152: true takes the upper neighbour. Log entry 6. -/
opaque sfuUp : BitVec 32 → BitVec 3 → Bool

/-- A special-function result the manual gives no value for, by operand and function. Log entry 6. -/
opaque sfuFree : BitVec 32 → BitVec 3 → BitVec 32

/-- The key stream of AES-256 in counter mode: by key, line, major and minor counter, and byte (R253: the manual names the
cipher, not how its input block is formed). Log entry 8. -/
opaque keyStream : Nat → Nat → Nat → Nat → Nat → BitVec 8

/-- Whether the notification ring is full (R259: the supervisor reads it at its own pace, its size is not given). Log
entry 10. -/
opaque noticesFull : Nat → Bool

/-- Which FREE general slots of a core receive the initial strands (R242): a priority of slots. Log entry 7. -/
opaque placeRank : Nat → Nat → Nat

/-- The SHA-512 digest; the public key that comes with a firmware image; the ECDSA P-521 check of a digest's signature against a
public key; the fused SHA-512 hash of the public key and the fused rollback counter (R257). Log entry 8. -/
opaque sha512 : List (BitVec 8) → List (BitVec 8)
opaque imageKey : List (BitVec 8) → List (BitVec 8)
opaque ecdsaVerify : List (BitVec 8) → List (BitVec 8) → List (BitVec 8) → Bool
opaque fusedHash : List (BitVec 8)
opaque rollback : Nat

/-- The device identity key made from the fused secret and a firmware measurement (R257); the measurement of the boot ROM, and the
signature with a key (R258). Log entry 8. -/
opaque identityKey : List (BitVec 8) → List (BitVec 8)
opaque bootRom : List (BitVec 8)
opaque sign : List (BitVec 8) → List (BitVec 8) → List (BitVec 8)

/-- What link discovery finds for a device at a bring-up: its primary and its alternate link (R235, R262). Log entry 76. -/
opaque route : Nat → Nat → Option (Fin 16) × Option (Fin 16)

/-- Whether a core of another package, named by its number in the window, has slots of a launch of this one (R87, R90: the launch's
cores there are not this package's state). Log entry 81. -/
opaque peerHolds : Nat → Nat → Bool

/-- Whether a core of another package, named by its number in the window, has one launch of a class at a cc, for an element of a row
(R98). Log entry 81. -/
opaque peerSeat : Nat → Nat → Nat → Bool

/-- Whether an i32 or u32 lane converts to infinity in fp16, and not to the largest finite value, where R141 rounds it to infinity and
R143 says that it never overflows, by the operand, its type and the rounding. Log entry 65. -/
opaque cvtInf : BitVec 32 → BitVec 3 → Nat → Bool

/-- What a command writes to its completion word (R259: the manual gives no contents). Log entry 10. -/
opaque completionWord : Nat → BitVec 64

end Sys2Proof.Config
end

