-- ==== Sys2Proof/Machine/State.lean ====
section
/-!
DEFINITION. The state of one NXS-9616 package (spec/01_device.md R8–R13): every register, memory, queue, table and
piece of work in progress that the manual names, as plain data. `State.reset` is the package right after cold
bring-up (R262). Fields that are the model's own (the order of work, the counter of free values) are marked so.

Numbers: a core is die × 128 + cluster × 8 + core (R240), a cluster is core / 8, a compute die core / 128. Physical
addresses, DVAs and local offsets are natural numbers; the words they come from are bit vectors.
-/
namespace Sys2Proof.Machine

open Sys2Proof

/-- Bytes of a memory by address, in canonical form: addresses strictly rising, no zero byte. An unlisted byte reads
as 0: bring-up scrubs device memory and local memory to zero (R262). -/
abbrev Memory := List Host.Cell

/-- A finite table by key, keys strictly rising; an unlisted key holds the default that the reader of the table names. -/
abbrev Sparse (α : Type) := List (Nat × α)

/-! ## Reasons to stop -/

/-- Why the machine stops. -/
inductive Fault where
  /-- Raised by every step of a part whose boot verification failed: R257 holds it in reset. Safe: the manual says so. -/
  | heldInReset
  deriving DecidableEq, Repr

/-- Why the model declines. -/
inductive Refusal where
  /-- Raised by the dispatch of an instruction that has no meaning yet, by its mnemonic. Safe: nothing is claimed of it. -/
  | notModelled (mnemonic : String)
  deriving DecidableEq, Repr

/-! ## Places and accesses -/

/-- Where an access goes once its address has been checked and translated (R94, R95, R98). -/
inductive Loc where
  /-- Device or host memory at a physical address; the page's T, CLASS and KEY (R104). -/
  | mem (pa : Nat) (tree : Bool) (cls key : Nat)
  /-- Storage of a core's local memory, the partition of R98 already applied. -/
  | lm (core off : Nat)
  /-- A window address of another device (R95). -/
  | peer (dev : Nat) (dva : Nat)
  /-- A window address that finds no partition at its target (R98). -/
  | noPart (dva : Nat)
  /-- A window address of another device whose request crossed a link and whose reply was lost: poison (R232). -/
  | lost (dva : Nat)
  deriving DecidableEq, Repr

/-- The kinds of access that a fault record names (R105). `image` is TFORM's read, recorded as an atomic access (R344). -/
inductive Access where
  | read | write | fetch | atomic | engine | image
  deriving DecidableEq, Repr

/-- The states of a slot (R72). -/
inductive SlotState where
  | free | ready | reply | parked | faulted | saved | ganged | killed
  deriving DecidableEq, Repr

/-- The ret kind of a strand (R83). -/
inductive RetKind where
  | none | deque | inline
  deriving DecidableEq, Repr

/-- What a parked slot waits for (R72). `engine` and `walker` waits reissue the C-slot; the others are served where
the condition is met. -/
inductive Park where
  | fullEmpty
  | join
  | message (d : Option Reg)
  | engine (copy : Bool)
  | mma
  | zone
  | migrate
  | walker
  | asbar
  deriving DecidableEq, Repr

/-- What a slot in REPLY waits for before its C-slot is reissued, or its reply written. -/
inductive ReplyCond where
  /-- The reply is there. -/
  | now
  /-- The sequencer is empty (R156). -/
  | seqEmpty
  /-- Load queue `q` has a free row (R160). -/
  | lqRoom (q : Nat)
  /-- Store queue `q` has room for a drain (R160). -/
  | sqRoom (q : Nat)
  /-- Every queued drain has met its row (R161). -/
  | drainsIn
  /-- A result stands in the queue of an engine (R164). -/
  | result (copy : Bool)
  /-- No matrix operation queued before a cc names the accumulator (R169). -/
  | accIdle (acc since : Nat)
  /-- The interval ring holds 512 bytes (R170). -/
  | ringHolds (ring : Nat)
  /-- Every row of an MMAE has entered the store queue (R169); its output is code8 (R147), and it then pops an interval ring (R324). -/
  | sqRows (q : Nat) (code8 : Bool) (ring : Option Nat)
  /-- No queued matrix operation or copy names the ring (R166, R332). -/
  | ringIdle (ring : Nat)
  /-- Every store to another package that entered the core's path by a cc has been performed (R118). -/
  | pathIn (since : Nat)
  /-- Every STG of the strand is acknowledged (R126). -/
  | stgAcked
  /-- No STG of the strand to the word of another package is still out (R96, R127). -/
  | stgsTo (l : Loc) (n : Nat)
  /-- No queued drain of the strand has an element in the words of `n` bytes from a place (R122, R161). -/
  | drainsOn (l : Loc) (n : Nat)
  /-- The strand's waiting load-queue rows can be read (R121–R123); a trap has nothing to wait for. -/
  | rowsIn
  | rowsFree
  /-- Fewer STGs are in flight than the core can hold. -/
  | stgRoom
  /-- No code8 operation handed or queued before a cc is still to be done (R147). -/
  | tableIdle (since : Nat)
  /-- No DTWR of the core waits to write the decode table (R147, R288). -/
  | tableWritten
  /-- The page walk of the slot is done (R103). -/
  | walked
  /-- The partner has executed COUPLE (R188). -/
  | partner
  /-- A checked-pairing interval has been compared (R189). -/
  | interval
  /-- The leader's reply of a checked pair (R189). -/
  | leader
  /-- A peer package has answered. -/
  | peer
  /-- The rotation boundary at which a YIELD ends. -/
  | boundary
  /-- A BUSY answer of a full wait list (R91). -/
  | busy
  deriving DecidableEq, Repr

/-- A wait in the core before the pair has had any effect: the whole pair issues again (R48, R156, R159, R169). -/
def ReplyCond.whole : ReplyCond → Bool
  | .seqEmpty | .accIdle .. | .ringHolds _ => true
  | _ => false

/-- The reply a slot waits for: registers to write by code (s0–s31 are 0–31, R189), and whether the C-slot is
reissued in place of a write. -/
structure Reply where
  cond    : ReplyCond
  writes  : List (Nat × Word)
  reissue : Bool
  deriving DecidableEq, Repr

/-! ## Messages -/

/-- A message packet (R87, R88). `handler` is H; `launch` tags it (R98). -/
structure Packet where
  src     : Nat
  dev     : Nat
  dest    : Nat
  launch  : Nat
  ch      : BitVec 2
  handler : Bool
  words   : List Word
  /-- Its place in the message-queue row of local memory, once it waits in the queue (R97). -/
  place   : Nat
  deriving DecidableEq, Repr

/-- A packet still open in a slot: what its opening instruction fixed, and the words so far (R87). -/
structure OpenPacket where
  target  : Word
  ch      : BitVec 2
  handler : Bool
  words   : List Word
  deriving DecidableEq, Repr

/-! ## Vector work -/

/-- A sequencer entry: the instruction and the scalar operands read at issue (R159); for VKSEL with k > VLEN, the
rows of values and indices popped so far and those still to push (R365). -/
structure SeqEntry where
  op : Instr
  x  : Word
  y  : Word
  /-- The entry is a VSFU request already in the cluster's queue (R173). -/
  sent : Bool
  pops : List (List Half × List Half)
  push : Option (List (List Half × List Half))
  /-- The cc at which it was handed (R147). -/
  at'  : Nat
  deriving DecidableEq, Repr

/-- An item of the sequencer: one entry, or a VLOOP run of `n` entries executed `count` times, with the entries
handed so far, the passes done and the position in the pass (R162). -/
inductive SeqItem where
  | one (e : SeqEntry)
  | run (n count pass pos : Nat) (es : List SeqEntry)
  deriving DecidableEq, Repr

/-- A row of a load queue (R160): reserved, with its elements' places, DVAs and read-only class (R110), whether Sage checks
them (R131) and the cc of its translation; or arrived. -/
inductive LqRow where
  | waiting (kind : BitVec 4) (elems : List (Loc × Nat × Bool)) (sage : Bool) (at' : Nat)
  | arrived (lanes : List Half)
  deriving DecidableEq, Repr

/-- A queued drain of a store-queue row (R160): its elements' places and DVAs, whether Sage checks them (R131), the
cc of its translation, and that at which its SQ first issued (R147). -/
structure Drain where
  kind  : BitVec 4
  elems : List (Loc × Nat)
  sage  : Bool
  at'   : Nat
  since : Nat
  deriving DecidableEq, Repr

/-! ## Engine work -/

/-- The completion part of a command block (R165), with what delivery needs: the fill word's place for KIND 2, and the cc of its
translation (R108). `ctx` is the tag of the parked context whose command it is, while its slot is lent; 0 for a command of the strand
that the slot holds (R106). -/
structure Completion where
  kind    : Nat
  tag     : BitVec 32
  handler : Word
  target  : Word
  ch      : BitVec 2
  h       : Bool
  fill    : Option Loc
  at'     : Nat
  ctx     : Nat
  deriving DecidableEq, Repr

/-- A matrix operation (R168): its launch, the cc at which it was queued, its operands, whether its slot is parked in it, the
next k, and the scales of the current tiles once read. -/
structure MatOp where
  launch : Nat
  at'    : Nat
  k      : Nat
  z      : Bool
  acc    : Nat
  ringA  : Nat
  ringB  : Nat
  sync   : Bool
  next   : Nat
  scaleA : List Byte
  scaleB : List Byte
  scaled : Bool
  comp   : Completion
  deriving DecidableEq, Repr

/-- A copy command (R171) and its launch: a global base is the DVA of its first byte; the capability's Q and S do not matter to
engines. -/
structure CopyCmd where
  launch   : Nat
  skind    : Nat
  src      : Nat
  dkind    : Nat
  dst      : Nat
  rows     : Nat
  rowBytes : Nat
  sstride  : Int
  dstride  : Int
  dies     : BitVec 8
  clusters : BitVec 16
  cores    : BitVec 8
  /-- A checker's copy of a command, which writes nothing outside its core (R189). -/
  mute     : Bool
  comp     : Completion
  deriving DecidableEq, Repr

/-- The copy command an engine runs: whose it is, how far it has come (the row and the byte of it, or the multicast pieces sent), and what
it still waits for:
landing-zone units and writes to other packages not acknowledged, each by the model's own number of it, which its acknowledgement
carries, and the link that it crossed, and multicast pieces not drained; and the worst answer so far (R228). -/
structure CopyRun where
  slot    : Nat
  asid    : Nat
  cls     : Nat
  cmd     : CopyCmd
  row     : Nat
  pos     : Nat
  units   : List (Nat × Option Nat)
  pieces  : Nat
  status  : Nat
  ended   : Bool
  killed  : Bool
  deriving DecidableEq, Repr

/-- An ended command whose result word has still to be delivered (R165). -/
structure EndedCmd where
  slot   : Nat
  launch : Nat
  copy   : Bool
  status : Nat
  comp   : Completion
  deriving DecidableEq, Repr

/-- A 64-byte landing-zone unit on its way (R227). `link` is the link it crossed, `sender` its engine's core, `num` the model's own number
of it. -/
structure LzUnit where
  sender : Option Nat
  num    : Nat
  link   : Option Nat
  token  : Word
  offset : Nat
  data   : List Byte
  poison : Bool
  deriving DecidableEq, Repr

/-- A piece of a multicast in a cluster's holding buffer, with the receivers that have not drained it (R172). -/
structure Piece where
  cluster   : Nat
  receivers : List Nat
  launch    : Nat
  sender    : Nat
  off       : Nat
  data      : List Byte
  poison    : Bool
  deriving DecidableEq, Repr

/-! ## Landing zones -/

/-- The states of a landing-zone slot (R222). -/
inductive LzState where
  | free | reserved | arriving | complete | failed
  deriving DecidableEq, Repr

/-- Who waits at a landing zone: a slot of this package, or a request of a peer over a link. -/
inductive Who where
  | slot (core slot : Nat)
  | peer (link id : Nat)
  deriving DecidableEq, Repr

/-- A landing-zone slot (R222). Its generation is kept per index in `Core.lzGen`. -/
structure LzSlot where
  st     : LzState
  pend   : Int
  posted : Bool
  link   : Option Nat
  deriving DecidableEq, Repr

/-- A zone (R220). -/
structure Zone where
  launch : Nat
  base   : Nat
  log    : Nat
  aclass : Nat
  slots  : List LzSlot
  deriving DecidableEq, Repr

/-- A waiting LZWAIT (with its token's slot) or LZRES.w (without). -/
structure LzWaiter where
  who  : Who
  zone : Nat
  slot : Option Nat
  d    : Reg
  deriving DecidableEq, Repr

/-! ## Full/empty waits -/

/-- What a waiter of a home's wait list waits to do (R91). -/
inductive WaitKind where
  | ldf (d : Reg)
  | ldx (d : Reg)
  | stf (data : Word)
  | await
  /-- The gathered take of the movement slot (R92). -/
  | gather (d : Reg)
  deriving DecidableEq, Repr

/-- One entry of a wait list, oldest first; `loc` is its word and `dva` the word's DVA; `at'` is the cc of its translation (R108). -/
structure Waiter where
  who  : Who
  loc  : Loc
  dva  : Nat
  kind : WaitKind
  at'  : Nat
  deriving DecidableEq, Repr

/-! ## Slots -/

/-- A page walk that a slot waits for (R103); its entry is not installed once its ASID has been flushed (R108); the cause
with which it has failed (R105). -/
structure Walk where
  asid    : Nat
  dva     : Nat
  kind    : Access
  install : Bool
  failed  : Option Nat
  deriving DecidableEq, Repr

/-- What a faulted context whose slot is lent keeps beside the parked-context entry (R106): of its vector state the groups its rows are
keyed by, its recorded request, register count, rows, sequencer and queues; whether it is ganged, with the odd slot left as it is;
a pre-emption request held for it (R181); whether it is coupled, with the register writes that its fingerprint has still to take
(R189); and the vector registers that carry poison (R186). -/
structure VecSave where
  groups : List Nat
  want   : Nat
  allot  : Nat
  vrf    : Sparse (List Half)
  seq    : List SeqItem
  lq     : Vector (List LqRow) 4
  sqRows : Vector (List (List Half)) 2
  drains : Vector (List Drain) 2
  gang   : Bool
  preReq : Option Nat
  coupled : Bool
  wlog   : List (Nat × Word)
  poison : List Nat
  deriving DecidableEq, Repr

/-- An access or landing-zone request carried to another package: its pair's pc and words, the link it crossed, whether it
is a landing-zone request and one that reports a slot (LZSTAT), the DVA of a window access (R48, R232), whether its answer is
an acquire (R120), what a wait at the other package parks the slot for (R72), and the model's own number of the request. -/
structure PeerAccess where
  pc   : Word
  pair : Nat
  link : Nat
  zone : Bool
  stat : Bool
  dva  : Nat
  acq  : Bool
  park : Park
  num  : Nat
  deriving DecidableEq, Repr

/-- The sources of a pair as they stood before it (R48): s, p and STATUS. -/
structure Sources where
  s      : Vector Word 32
  p      : BitVec 8
  status : Word
  deriving DecidableEq, Repr

/-- One slot and the strand it holds (R55, R58, R59, R72, R183). -/
structure Slot where
  st       : SlotState
  s        : Vector Word 32
  /-- p0–p7; p0 reads 1. -/
  p        : BitVec 8
  /-- c0–c7 in the layout of R56. -/
  c        : Vector (BitVec 256) 8
  pc       : Word
  /-- STATUS but for PKTOPEN, GANGED and COUPLED, which other fields decide (R59). -/
  status   : Word
  trapvec  : Word
  traprec  : Word
  ticket   : Word
  stealdom : BitVec 2
  dtnan    : Byte
  timer    : BitVec 32
  /-- Register count n (ALLOT) and the lane groups held, ascending; VLEN is 16 for each (R155). -/
  allot    : Nat
  groups   : List Nat
  /-- A recorded lane request (R156), 0 for none. -/
  want     : Nat
  /-- Vector register rows: key 32 × group + register, 16 lanes each. -/
  vrf      : Sparse (List Half)
  seq      : List SeqItem
  /-- A scalar that a sequencer entry still owes the slot, or VSYNC (R159, R163). -/
  seqReply : Bool
  lq       : Vector (List LqRow) 4
  sqRows   : Vector (List (List Half)) 2
  drains   : Vector (List Drain) 2
  matQ     : List MatOp
  copyQ    : List CopyCmd
  matRes   : List Word
  copyRes  : List Word
  /-- Rows that an MMAE to a store queue has still to push (R169). -/
  mmaeOut  : List (List Half)
  /-- The cc at which the pair that the slot has begun to issue, and is to issue again, first issued, and its words (R147, R169,
  R181). -/
  since    : Option Nat
  begun    : Half × Half
  launch   : Option Nat
  join     : Nat
  ret      : RetKind
  retpos   : BitVec 16
  strand   : BitVec 24
  group    : BitVec 24
  ival     : BitVec 16
  packet   : Option OpenPacket
  /-- This even slot is ganged with the next (R80). -/
  gang     : Bool
  /-- Whether the SPAWN that the slot has begun to issue is inlined (R83). -/
  inl      : Option Bool
  /-- The next pair runs its C-slot alone (R105, R179, R183). -/
  adone    : Bool
  /-- The sources of the pair whose C-slot the slot waits in and issues again, after a fault or a save too (R48, R49). -/
  held     : Option Sources
  park     : Option Park
  reply    : Option Reply
  /-- cc of the last issue, none before the first (R76). -/
  lastIssue : Option Nat
  /-- READY from this rotation boundary on (R76): the slot does not issue before it. -/
  fromCc   : Nat
  /-- A pre-emption request and the cc it was raised at (R181). -/
  preReq   : Option Nat
  /-- Faults of this slot so far; the last context tag given (R105). -/
  faults   : Nat
  /-- Tag of the faulted context in the save area, 0 for none; it faulted in a synchronous MMA. -/
  faultTag : Nat
  mmaFault : Bool
  /-- The slot is lent: the tag of the context in the parked-context area, 0 for none (R106); its launch; its vector
  state, moved out of the slot. -/
  lentTag  : Nat
  lentLaunch : Option Nat
  lentVec  : Option VecSave
  /-- The sources of the pair in which the parked context faulted (R48). -/
  lentHeld : Option Sources
  /-- Tags of woken contexts in the order of their WAKEs, and the cc of the last one (R106, R107). -/
  wakes    : List Nat
  wakeCc   : Nat
  /-- Lane groups of a saved vector state, in the order of its lanes: the keys of its rows while no group is held
  (R182, R184). -/
  svGroups : List Nat
  /-- The supervisor resumes the SAVED slot, which waits for lanes (R185). -/
  resuming : Bool
  /-- cc at which the slot's last ASFL completed (R108). -/
  flushAt  : Option Nat
  /-- The walk this slot waits for, and entries that a flushed walk left for this access only (R103, R108). -/
  walk     : Option Walk
  grants   : List (Nat × Word × Nat)
  /-- Fetch buffer: up to 4 groups by fetch address (R71, R109). -/
  fbuf     : List (Nat × BitVec 64)
  /-- STGs of the strand not acknowledged (R127). -/
  stgs     : Nat
  /-- The group the slot issues next carries poison (R186, INJECT_ECC). -/
  poisoned : Bool
  /-- Registers that carry poison (R186), by code: s0–s31 are 0–31, p0–p7 32–39, c0–c7 40–47, v0–v31 64–95. -/
  regPoison : List Nat
  /-- What the slot in REPLY has carried to another package. -/
  out      : Option PeerAccess
  /-- The slot is in checked pairing, and the register writes of its pair so far, newest first (R189). -/
  coupled  : Bool
  wlog     : List (Nat × Word)
  deriving DecidableEq, Repr

/-! ## Cores -/

/-- Where the strand that issued an STG or a store stands, which moves with a frame, a record and a parked context (R116, R127): in a
slot; in a frame or record in local storage; in a spilled record; in a record on its way, by its number; in the parked-context
entry of a slot; or ended. -/
inductive StgOwner where
  | slot (core slot : Nat)
  | frame (core off : Nat)
  | spilled (pa : Nat)
  | record (n : Nat)
  | parked (core slot : Nat)
  | ended
  deriving DecidableEq, Repr

/-- A line of an L1 or instruction cache: its bytes as 16 words, the read-only class, poison (R110). -/
structure CacheLine where
  words  : List Word
  ro     : Bool
  poison : List Nat
  deriving DecidableEq, Repr

/-- The Sage check that a store in the path is still to have (R131): the DVA, and the launch, strand, group and interval of the
strand that issued it; SCOPE (R132). -/
structure PathCheck where
  dva    : Nat
  launch : Nat
  strand : BitVec 24
  group  : BitVec 24
  ival   : BitVec 16
  scope  : Nat
  deriving DecidableEq, Repr

/-- A store in a core's write-through path (R118). `slot` issued it; `await` is set when its slot waits for it; `at'` is
the cc of its translation (R108); `sent` says that it has left for another package, whose answer takes it off the path: the model's own
number of the request, and the link it left by. -/
structure PathStore where
  slot   : Nat
  loc    : Loc
  bytes  : List Byte
  await  : Bool
  poison : Bool
  at'    : Nat
  /-- What Sage checks when the store is performed (R131). -/
  sage   : Option PathCheck
  sent   : Option (Nat × Nat)
  /-- Where its strand stands, once that is no longer its slot (R116). -/
  moved  : Option StgOwner
  deriving DecidableEq, Repr

/-- A record waiting in a core's arrival queue (its place) or spill region (its position), in acceptance order (R90). -/
structure ArrivalRef where
  launch  : Nat
  spilled : Bool
  place   : Nat
  deriving DecidableEq, Repr

/-- One core (R10). Slots are `slots`; the rest is shared by them. -/
structure Core where
  slots    : Vector Slot 16
  /-- The Almanac in force, and writes pending for the next boundary (R74, R79). -/
  alm      : Vector (BitVec 9) 16
  almNext  : List (Nat × BitVec 9)
  lm       : Memory
  /-- Local words (offset / 8) whose full/empty bit is empty; words that carry poison. -/
  lmEmpty  : List Nat
  lmPoison : List Nat
  path     : List PathStore
  l1       : Sparse CacheLine
  icache   : Sparse CacheLine
  waiters  : List Waiter
  /-- The message queue: 64 packets (R88). -/
  msgs     : List Packet
  /-- Slots parked in POPM or WAITM, in the order they reached the queue (R329). -/
  msgWait  : List Nat
  arrivals : List ArrivalRef
  zones    : Vector (Option Zone) 4
  /-- Generations by 16 × zone + slot index (R220, R221). -/
  lzGen    : Sparse (BitVec 16)
  lzWait   : List LzWaiter
  lzdrop   : BitVec 32
  rings    : Vector (BitVec 128) 8
  /-- Tiles popped from each ring since RINGSET (R167). -/
  tiles    : Vector Nat 8
  /-- Accumulator tiles a0–a3: key 2048 × tile + 64 i + j (R55). -/
  acc      : Sparse Half
  /-- The decode table, 256 entries, and the DVA of its image (R146, R242). -/
  dtab     : Sparse Half
  dtag     : Word
  /-- Slots in the order of their copy EPUSHes; the running command; ended commands to deliver (R172). -/
  copyOrd  : List Nat
  copyRun  : Option CopyRun
  ended    : List EndedCmd
  deriving DecidableEq, Repr

/-! ## Clusters -/

/-- A TLB entry: ASID, first 4 KiB page and count of pages, the leaf PTE (R103, R104). -/
structure TlbEntry where
  asid  : Nat
  page  : Nat
  pages : Nat
  pte   : Word
  deriving DecidableEq, Repr

/-- A range in a cluster's cache walker (R115): physical lines, and the barrier word. -/
structure WalkRange where
  inv     : Bool
  lines   : List Nat
  barrier : Loc
  launch  : Nat
  at'     : Nat
  deriving DecidableEq, Repr

/-- A request in a cluster's special-function queue (R173): the slot, destination, function and operands, and
whether its result is to be discarded. -/
structure SfuReq where
  core : Nat
  slot : Nat
  d    : VOp
  xs   : List Half
  dead : Bool
  deriving DecidableEq, Repr

/-- One cluster (R10): TLB, cache walker, special-function queue. The multicast buffer's pieces are in `State.pieces`. -/
structure Cluster where
  tlb    : List TlbEntry
  walker : List WalkRange
  sfu    : List SfuReq
  deriving DecidableEq, Repr

/-! ## Launches -/

/-- A launch's place on one core (R98, R242): partition, deque and arrival places, indices, spill ring, counts. -/
structure Seat where
  core    : Nat
  index   : Nat
  pbase   : Nat
  lmsize  : Nat
  dqBase  : Nat
  top     : BitVec 16
  bottom  : BitVec 16
  /-- The places from `dqBase` of the frames present, topmost first. -/
  frames  : List Nat
  arrBase : Nat
  spillHead : Nat
  spillTail : Nat
  sent    : Nat
  recv    : Nat
  deriving DecidableEq, Repr

/-- The intensity classes of R243. -/
inductive Intensity where
  | compute | balanced | memory
  deriving DecidableEq, Repr

/-- A launch in progress (R240, R242, R133). -/
structure Launch where
  id       : Nat
  queue    : Nat
  asid     : Nat
  entry    : Word
  args     : Nat
  captab   : Nat
  /-- Current generations of the table entries, as every core keeps them (R99). -/
  gens     : Sparse (BitVec 16)
  fmt      : Nat
  scl      : Nat
  spill    : Nat
  donew    : Nat
  cls      : Nat
  sage     : BitVec 2
  arrDepth : Nat
  dqcap    : Nat
  almanac  : Nat
  steal    : BitVec 2
  movement : Bool
  seats    : List Seat
  /-- Sage counters of strands and groups (R133). -/
  strands  : BitVec 24
  groups   : BitVec 24
  /-- A frame's group record was overwritten, or an id has wrapped: Sage reports no race of the launch any more (R136). -/
  sageLost : Bool
  /-- The last sweep's sum if it found every core idle with S = R (R93). -/
  sweep    : Option Nat
  /-- A packet or record of the launch was lost (R232). -/
  lost     : Bool
  /-- The launch is aborted and its strands are gone; copies that were accepted run to completion (R263). -/
  closing  : Bool
  /-- Work of the current 50 µs window: matrix steps, lane operations, bytes missed from L2 (R243). -/
  steps    : Nat
  laneOps  : Nat
  missed   : Nat
  /-- Its class of its last full window, balanced before any (R243). -/
  intensity : Intensity
  vf       : Nat
  deriving DecidableEq, Repr

/-- Where the snapshot of a batch table for a packet stands (R244): the entry, and what has been read of it, its version and then
its data with their poison. -/
structure BatchRun where
  entry   : Nat
  version : Option Word
  data    : Option (List Byte × Bool)
  deriving DecidableEq, Repr

/-- A work queue (R237): its descriptor as the supervisor wrote it, and the launch unit's view: HEAD, the count taken from the
tail word, packets read and not placed, with the count of each, the snapshot for the head packet, the VF it is bound to (0 for
none), its class and its latest launch, packets served in the current round (R238, R239, R243, R244, R251). -/
structure Queue where
  desc    : BitVec 512
  head    : BitVec 32
  upTo    : BitVec 32
  packets : List (Nat × BitVec 512)
  snapRun : Option BatchRun
  vf      : Nat
  cls     : Intensity
  latest  : Nat
  served  : Nat
  deriving DecidableEq, Repr

/-! ## Walks of trees -/

/-- The places of a walk record (R205): its first byte, and the byte at DVA + 4096 down to a page boundary, where the
record goes on if it crosses a page. -/
structure WalkRec where
  lo : Loc
  hi : Loc
  deriving DecidableEq, Repr

/-- A back-up or abort in progress (R212, R213): the record, the ASID, the issuing slot, the value, the
levels left to do and what is known so far. -/
structure TreeJob where
  abort  : Bool
  record : WalkRec
  ticket : Word
  asid   : Nat
  core   : Nat
  slot   : Nat
  alt    : Bool
  value  : Int
  /-- Levels still to do, first at the head: node reference, and edge index unless the level is the leaf. -/
  levels : List (Word × Option Nat)
  /-- Levels behind, and those of them that were updated. -/
  index  : Nat
  done   : Nat
  st     : Nat
  sat    : Bool
  skip   : Bool
  at'    : Nat
  /-- An abort that has still to reach its ticket: the core's earlier stores come first (R119, R345). -/
  waits  : Bool
  /-- The abort is a kill's, which is reported when it reaches its ticket (R206). -/
  kill   : Bool
  deriving DecidableEq, Repr

/-! ## Traffic between cores and packages -/

/-- An STG on its way to its target (R127): the core that issued it, its strand, and the link it left by. -/
structure Stg where
  core  : Nat
  owner : StgOwner
  loc   : Loc
  dva   : Nat
  data  : Word
  link  : Option Nat
  deriving DecidableEq, Repr

/-- An arrival record on its way (R90). `slot` is the migrating slot that waits for its acceptance, if it is of this
package; `num` is the model's own number of the record. -/
structure ArrivalRecord where
  num    : Nat
  src    : Nat
  slot   : Option Nat
  dev    : Nat
  dest   : Nat
  launch : Nat
  bytes  : List Byte
  poison : Bool
  deriving DecidableEq, Repr

/-- Why a home in another package turns an access away: a wait that may not be, no partition, poison, a full wait list
(R48, R91, R98, R186). -/
inductive Nack where
  | wait | noPartition | poison | busy
  deriving DecidableEq, Repr

/-- What crosses a link (R233): packets, records, units, posted stores and their acknowledgements, window accesses with the
instruction that made them and whether it may wait, landing-zone requests with the links they have crossed (R224), answers,
word that a request waits at its home, that a killed slot withdraws one and that the record of a number has been accepted (R90). `core` is the CORELOC
of the requester, and `slot` its slot + 32 × the request's number; slot 16 is its engine, slot 17 its store path and slot 18 its
engine's fill, which no answer is waited for; `cls` is its launch's service class. -/
inductive LinkMsg where
  | packet (p : Packet) (cls : Nat)
  | record (r : ArrivalRecord) (cls : Nat)
  | unit (u : LzUnit) (cls : Nat)
  | stg (x : Stg) (dev : Nat) (cls : Nat)
  | stgAck (x : Stg) (dev : Nat)
  | access (core slot : Nat) (cls : Nat) (dva : Nat) (op : Instr) (args : List Word) (waits : Bool)
  | zone (core slot : Nat) (cls : Nat) (op : Instr) (x y : Word) (waits : Bool) (hops : Nat)
  | answer (core slot : Nat) (words : List Word)
  | nack (core slot : Nat) (why : Nack)
  | waiting (dev : Nat) (core slot : Nat)
  | withdraw (dev : Nat) (core slot : Nat)
  | accept (core num : Nat)
  deriving DecidableEq, Repr

/-- A request that this package has passed on from one link to another (R235): the link it left by, and what its requester is to be told
should that link go down before the answer has come back (R231, R232). -/
structure Forward where
  link : Nat
  lost : LinkMsg
  deriving DecidableEq, Repr

/-- A flit of 256 bytes in a retry buffer (R233): its sequence number, its virtual channel and what it carries. -/
structure Flit where
  seq : Nat
  vc  : Nat
  msg : LinkMsg
  deriving DecidableEq, Repr

/-- A Shaezil Link (R233, R234, R246): rate step (0 is 224 Gb/s), lanes, replays in a row, up or down, flits lost to it, the
separate buffers of the six virtual channels, the turns of VC0, VC2, VC4 and VC3 left in the round, the retry buffer (sent and
not acknowledged, oldest first) and the next sequence number. -/
structure Link where
  rate    : Nat
  lanes   : Nat
  failed  : List Nat
  replays : Nat
  up      : Bool
  lost    : Nat
  vcs     : Vector (List LinkMsg) 6
  credits : List Nat
  retry   : List Flit
  seq     : Nat
  deriving DecidableEq, Repr

/-- A route-table entry (R235). -/
structure Route where
  primary   : Option Nat
  alternate : Option Nat
  deriving DecidableEq, Repr

/-! ## Checked pairing -/

/-- A store held by a verification buffer (R189): its place, the address that the fingerprint takes, the bytes, at most 8 and of one word;
what Sage checks when it is performed (R131), and the cc of its translation (R108). -/
structure VStore where
  loc   : Loc
  addr  : Nat
  bytes : List Byte
  sage  : Option PathCheck
  at'   : Nat
  deriving DecidableEq, Repr

/-- What a coupled core keeps for its half: fingerprint, buffer, checkpoint, pairs of the interval (R189). -/
structure Half2 where
  crc    : BitVec 64
  buf    : List VStore
  check  : Slot
  pairs  : Nat
  /-- The half stands at the end of its interval. -/
  atEnd  : Bool
  deriving DecidableEq, Repr

/-- What the leader's access brought, for its checker: register writes by code, oldest first, the open packet and the
ticket after it, and the trap it ended in: class, INFO, ADONE. -/
structure LeadReply where
  writes : List (Nat × Word)
  packet : Option OpenPacket
  ticket : Word
  trap   : Option (Nat × Nat × Bool)
  deriving DecidableEq, Repr

/-- A coupled pair (R188): slot `slot` of cores `leader` and `leader + 1`. -/
structure Couple where
  leader   : Nat
  slot     : Nat
  lead     : Half2
  chk      : Half2
  /-- Replies of the leader that the checker has not consumed; an access of the leader is still out. -/
  replies  : List LeadReply
  out      : Bool
  /-- A poison was consumed; the interval is to end; it is being run again (R190). -/
  missed   : Bool
  ending   : Bool
  again    : Bool
  deriving DecidableEq, Repr

/-! ## Home dies, DRAM and housekeeping -/

/-- What the leaf of a page says of its lines: T, CLASS and KEY (R104). -/
structure Attr where
  tree : Bool
  cls  : Nat
  key  : Nat
  deriving DecidableEq, Repr

/-- A line in a compute die's L2 (R10, R111): the 32-byte sectors present and dirty, the way, and the order of its last use. -/
structure L2Line where
  sectors : BitVec 4
  dirty   : BitVec 4
  way     : Nat
  used    : Nat
  attr    : Attr
  deriving DecidableEq, Repr

/-- A line in its home slice's LLC (R112, R114). -/
structure LlcLine where
  dirty : Bool
  way   : Nat
  used  : Nat
  attr  : Attr
  deriving DecidableEq, Repr

/-- A split counter block of 64 lines, or a node of the integrity tree, of the same form over 64 blocks or nodes (R253, R254). -/
structure Counter where
  major  : BitVec 64
  minors : Sparse (BitVec 14)
  deriving DecidableEq, Repr

/-- The MAC of a line in the stacks' side-band metadata (R254), as what it is computed over: the key (slot and how often it has
been written; none for bring-up's scrub, R262), the ciphertext, the line and the counter. -/
structure LineMac where
  key    : Option (Nat × Nat)
  cipher : List Byte
  line   : Nat
  major  : BitVec 64
  minor  : BitVec 14
  deriving DecidableEq, Repr

/-- A line as DRAM holds it: the ciphertext and its MAC (R253, R254). -/
structure DramLine where
  cipher : List Byte
  mac    : LineMac
  deriving DecidableEq, Repr

/-- A counter block or tree node as the carve-out holds it, and its MAC: what it is computed over, the contents and the counter
of its parent (R254, R255). -/
structure MetaLine where
  block : Counter
  mac   : Counter
  major : BitVec 64
  minor : BitVec 14
  deriving DecidableEq, Repr

/-- A request waiting at a DRAM controller: its source (cluster and class), bank, and whether it is marked (R247). -/
structure DramReq where
  cluster : Nat
  cls     : Nat
  bank    : Nat
  row     : Nat
  marked  : Bool
  deriving DecidableEq, Repr

/-- A DRAM controller (R247): waiting requests, transfers of each class in the current window, and the row last served in
each bank. -/
structure Dram where
  reqs  : List DramReq
  used  : Sparse Nat
  rows  : Sparse Nat
  deriving DecidableEq, Repr

/-- What the supervisor gave a tenant, with the model's cursors: records written to the fault queue, and those of them whose
places the supervisor has given back; records waiting in a port, with the port's cluster; records written to the race ring and
lost (R105, R135, R245). -/
structure Tenant where
  areas    : TenantAreas
  faults   : Nat
  freed    : Nat
  pending  : List (Nat × List Byte)
  races    : Nat
  lost     : Nat
  deriving DecidableEq, Repr

/-- A record of the notification ring (R259); and, of a kill, that its open walk was not aborted (R206). -/
structure Notice where
  kind : Nat
  who  : Nat
  cc   : Nat
  noAbort : Bool
  deriving DecidableEq, Repr

/-- What stands between the cores and the DRAM (R8–R10, R111–R114, R247, R253–R255): the L2 of each compute die, by 8 × line +
die; the homes' directory, the dies that share a line; the LLC; the DRAM lines written since bring-up; the counter blocks and
tree nodes of the carve-out, by level × 2^40 + number; the top level of the trees, on chip in the home dies; the copies in the
home slices' counter caches; the DRAM controllers; the model's own count of uses, for the order of use; and sectors that a write-back
has just found bad, which are marked in the same step (R254). -/
structure Hier where
  l2     : Sparse L2Line
  dirs   : Sparse (BitVec 8)
  llc    : Sparse LlcLine
  lines  : Sparse DramLine
  carve  : Sparse MetaLine
  tops   : Sparse Counter
  cached : Sparse Counter
  drams  : Vector Dram 16
  uses   : Nat
  failed : List (Nat × BitVec 4)
  deriving DecidableEq, Repr

/-- A class's settings (R114, R246, R247). -/
structure ClassCfg where
  llcMask : BitVec 32
  l2Mask  : BitVec 16
  cap     : Nat
  weights : List Nat
  deriving DecidableEq, Repr

/-- A memory-encryption key slot and how often it has been written (R256). -/
structure KeySlot where
  key     : Nat
  version : Nat
  deriving DecidableEq, Repr

/-- A breakpoint (R175). -/
structure Breakpoint where
  n    : Nat
  dva  : Nat
  core : Option Nat
  deriving DecidableEq, Repr

/-- The boot result in BAR0 (R257, R262): ready, held in reset, or the step of bring-up that comes next. -/
inductive Boot where
  | ready
  | failed (cause : Nat)
  | starting (step : Nat)
  deriving DecidableEq, Repr

/-! ## The host ports (R250) -/

/-- A virtual function: the PASID bound for each tenant's ASID, and whether it is assigned as a TEE device. -/
structure Vf where
  pasids : Sparse (BitVec 20)
  tee    : Bool
  deriving DecidableEq, Repr

/-- A translation of host memory that a port keeps: the PASID it was asked for with, base and length. -/
structure AtsEntry where
  pasid : Option (BitVec 20)
  base  : Nat
  len   : Nat
  deriving DecidableEq, Repr

/-- An IDE stream: a link stream or a selective one, and its AES-GCM key. -/
structure IdeStream where
  wholeLink : Bool
  key       : BitVec 256
  deriving DecidableEq, Repr

/-- A host port: the translations of host memory that it keeps; its IDE streams; its VFs. -/
structure Port where
  ats : List AtsEntry
  ide : Sparse IdeStream
  vfs : Sparse Vf
  deriving DecidableEq, Repr

/-- An attestation report (R258): the nonce it answers, the measurements of the boot ROM, the firmware, the management configuration and
each TDISP interface, and the signature over them. -/
structure Report where
  nonce     : Nat
  measured  : List (List Byte)
  signature : List Byte
  deriving DecidableEq, Repr

/-- An atomic of the host on host memory (R250, R252). -/
inductive HostAtomic where
  | add (v : Nat)
  | swap (v : Nat)
  | cas (old new : Nat)
  deriving DecidableEq, Repr

/-! ## The pair being issued -/

/-- How the C-slot of the pair being issued ended: it went on, it trapped before any effect of the pair, or it trapped on
the answer of its access, the A-slot having completed (R48); class and INFO. -/
inductive Flow where
  | go
  /-- The whole pair waits in its core: neither slot has had any effect. -/
  | waits
  | trapped (cls info : Nat)
  | answered (cls info : Nat)
  deriving DecidableEq, Repr

/-- The pair being issued: the registers as they stood before it (R48), its pc and words, and the flow so far. -/
structure Latch where
  s      : Vector Word 32
  p      : BitVec 8
  pc     : Word
  status : Word
  w0     : Half
  w1     : Half
  /-- The A-slot is being run (traps then name it). -/
  inA    : Bool
  /-- The A-slot has completed. -/
  adone  : Bool
  flow   : Flow
  deriving DecidableEq, Repr

/-! ## The package -/

/-- An input from outside. -/
inductive Input where
  /-- An instruction of the table: an event of the outside world, or what the supervisor does by another way than the command rings. -/
  | op (i : Instr)
  /-- A command posted to the command ring of a port's PF, and the address of its completion word (R259). -/
  | post (port : Nat) (op : Instr) (done : Nat)
  /-- A plain store of the host to host memory, and an atomic of the host there, on `n` bytes (R252). -/
  | hostStore (pa : Nat) (bytes : List Byte)
  | hostAtomic (pa n : Nat) (op : HostAtomic)
  /-- A read of a function's fill aperture (R251), and an AtomicOp on it, of `n` bytes, that the port completes (R250). -/
  | apertureRead (vf offset : Nat)
  | apertureAtomic (vf offset n : Nat) (op : HostAtomic)
  /-- The loader writes bytes as STFA does, into a page with its T, CLASS and KEY, and gives the local image of a queue's packet by its
  count (R24, R45). -/
  | load (pa : Nat) (attr : Attr) (bytes : List Byte)
  | image (queue count : Nat) (bytes : List Byte)
  /-- Traffic from a peer over a link; the arrival at the peer of the oldest flit of a retry buffer (R233). -/
  | peer (link : Nat) (m : LinkMsg)
  | carried (link : Nat)
  /-- The supervisor has read records of a tenant's fault queue (R105). -/
  | freeFaults (asid n : Nat)
  /-- An uncorrectable error in a register, by its code in `Slot.regPoison` (R186). -/
  | poisonReg (core slot reg : Nat)
  /-- DRAM altered or replayed behind the package's back: a line, a counter block or tree node (R254). -/
  | alterLine (line : Nat) (d : DramLine)
  | alterMeta (key : Nat) (m : MetaLine)
  /-- A degradation sensor's delay shift and temperature; the management interface reads them (R260). -/
  | sensor (die n shift temp : Nat)
  | readSensor (die n : Nat)
  /-- Set-up of a port: a PASID bound, a VF assigned as a TEE device or taken back, an IDE stream keyed or ended (R250). -/
  | bindPasid (vf asid : Nat) (pasid : BitVec 20)
  | assignTee (vf : Nat) (on : Bool)
  | ideStream (port stream : Nat) (setting : Option IdeStream)
  deriving DecidableEq, Repr

/-- The package. -/
structure State where
  /-- cc since reset: CYCLE (R58). -/
  cc       : Nat
  /-- This package's device number: CORELOC[17:10] (R58). -/
  device   : Nat
  /-- Model's own: the counter of free values. -/
  tick     : Nat
  /-- Model's own: the core and slot whose pair is being issued, and whether one is. -/
  curCore  : Nat
  curSlot  : Nat
  issuing  : Bool
  lat      : Latch
  /-- Model's own: the turns of this cc still to be taken. -/
  turns    : List Instr
  /-- Model's own: what the outside will do, in order. -/
  inputs   : List Input
  cores    : Sparse Core
  clusters : Sparse Cluster
  mem      : Memory
  /-- Words of device and host memory (PA / 8) whose full/empty bit is empty; words that carry poison. -/
  memEmpty  : List Nat
  memPoison : List Nat
  /-- The wait lists of the home slices, each waiter at its word's home. -/
  waiters  : List Waiter
  packets  : List Packet
  records  : List ArrivalRecord
  stgs     : List Stg
  /-- Requests of other packages that this one has passed on and whose answers have not come back. -/
  forwards : List Forward
  units    : List LzUnit
  pieces   : List Piece
  jobs     : List TreeJob
  couples  : List Couple
  rollbacks : Nat
  launches : List Launch
  nextLaunch : Nat
  /-- The local image that the loader gave for the launch of a queue's packet, from offset 0x0_9000, by 2^32 × queue + the packet's
  count (R24, R98). -/
  images   : Sparse (List Byte)
  queues   : Sparse Queue
  tenants  : Sparse Tenant
  roots    : Sparse Nat
  /-- Formula images by 16 × ASID + slot (R201). -/
  formulas : Sparse (List Byte)
  /-- Sage shadow by PA / 32 (R132); the model's own: the launch whose accesses a sector's shadow holds. -/
  shadow   : Sparse (BitVec 128)
  shadowOf : Sparse Nat
  /-- Model's own: the launch whose group a record of a group table is, by PA / 32 (R133, R136). -/
  groupOf  : Sparse Nat
  routes   : Sparse Route
  links    : Vector Link 16
  classes  : Sparse ClassCfg
  keys     : Sparse KeySlot
  hier     : Hier
  breakpoints : List Breakpoint
  notices  : List Notice
  noticesLost : Nat
  /-- Writes discarded at fill apertures (R251). -/
  discarded : Nat
  /-- Ageing summary words of the twelve logic dies, and the threshold (R260). -/
  ageing   : Vector Word 12
  eolhMin  : Nat
  /-- Power: cap in watts, clock in 5% steps of nominal, samples of the current 1 ms (R261). -/
  powerCap : Nat
  clock    : Nat
  samples  : List Nat
  boot     : Boot
  /-- The measured firmware image, the device identity key derived from it (R257), and the attestation reports given (R258). -/
  measured : List Byte
  identity : List Byte
  reports  : List Report
  /-- Raw delay shift and temperature of the 64 sensors of each logic die, by 64 × die + sensor (R260). -/
  sensors  : Sparse (Nat × Nat)
  /-- Commands in the command rings of the two ports' PFs: the port, the command, and the address of its completion word, oldest first
  (R259). -/
  commands : List (Nat × Instr × Nat)
  ports    : Vector Port 2
  /-- What reads of the BARs have returned to the host, oldest first (R251, R260). -/
  hostGot  : List Word
  deriving DecidableEq, Repr

/-! ## Reset (R262, and the Reset columns of R56, R58, R59, R74, R166, R226, R260) -/

/-- A FREE slot as bring-up leaves it. s1–s31, p1–p7 and the pc have no reset value in the manual; they are 0. -/
def Slot.reset : Slot where
  st := .free
  s := Vector.replicate 32 0
  p := 1
  c := Vector.replicate 8 0
  pc := 0
  status := 0
  trapvec := 0
  traprec := 0
  ticket := 0
  stealdom := 0
  dtnan := 0xFF
  timer := 0
  allot := 0
  groups := []
  want := 0
  vrf := []
  seq := []
  seqReply := false
  lq := Vector.replicate 4 []
  sqRows := Vector.replicate 2 []
  drains := Vector.replicate 2 []
  matQ := []
  copyQ := []
  matRes := []
  copyRes := []
  mmaeOut := []
  since := none
  begun := (0, 0)
  launch := none
  join := 0
  ret := .none
  retpos := 0
  strand := 0
  group := 0
  ival := 0
  packet := none
  gang := false
  inl := none
  adone := false
  held := none
  park := none
  reply := none
  lastIssue := none
  fromCc := 0
  preReq := none
  faults := 0
  faultTag := 0
  mmaFault := false
  lentTag := 0
  lentLaunch := none
  lentVec := none
  lentHeld := none
  wakes := []
  wakeCc := 0
  svGroups := []
  resuming := false
  flushAt := none
  walk := none
  grants := []
  fbuf := []
  stgs := 0
  poisoned := false
  regPoison := []
  out := none
  coupled := false
  wlog := []

/-- Almanac entry k after reset: IV 1, STEP k, ISSUE k (R74). -/
def almReset (k : Nat) : BitVec 9 := 1#1 ++ BitVec.ofNat 4 k ++ BitVec.ofNat 4 k

/-- A core after bring-up: local memory zero, every word full but mb0–mb3 (R262). -/
def Core.reset : Core where
  slots := Vector.replicate 16 Slot.reset
  alm := #v[almReset 0, almReset 1, almReset 2, almReset 3, almReset 4, almReset 5, almReset 6, almReset 7,
            almReset 8, almReset 9, almReset 10, almReset 11, almReset 12, almReset 13, almReset 14, almReset 15]
  almNext := []
  lm := []
  lmEmpty := [0x1000, 0x1001, 0x1002, 0x1003]
  lmPoison := []
  path := []
  l1 := []
  icache := []
  waiters := []
  msgs := []
  msgWait := []
  arrivals := []
  zones := Vector.replicate 4 none
  lzGen := []
  lzWait := []
  lzdrop := 0
  rings := Vector.replicate 8 0
  tiles := Vector.replicate 8 0
  acc := []
  dtab := []
  dtag := 0
  copyOrd := []
  copyRun := none
  ended := []

/-- A cluster after bring-up. -/
def Cluster.reset : Cluster where
  tlb := []
  walker := []
  sfu := []

/-- A trained link of full rate and width (R233, R262). -/
def Link.reset : Link where
  rate := 0
  lanes := 8
  failed := []
  replays := 0
  up := true
  lost := 0
  vcs := Vector.replicate 6 []
  credits := []
  retry := []
  seq := 0

/-- What stands for a link that the package does not have (R8). -/
def Link.absent : Link := { Link.reset with up := false }

/-- An empty latch. -/
def Latch.reset : Latch where
  s := Vector.replicate 32 0
  p := 1
  pc := 0
  status := 0
  w0 := 0
  w1 := 0
  inA := false
  adone := false
  flow := .go

/-- Nothing cached, and every line as the scrub of bring-up left it (R262). -/
def Hier.reset : Hier where
  l2 := []
  dirs := []
  llc := []
  lines := []
  carve := []
  tops := []
  cached := []
  drams := Vector.replicate 16 ⟨[], [], []⟩
  uses := 0
  failed := []

/-- The class settings after bring-up: cap 64, weights 4:2:2:1 for VC0, VC2, VC4, VC3 (R246, R247). The manual gives the way
masks no reset value: all ways (DESIGN CHOICE, unsafe; log entry 11). -/
def ClassCfg.reset : ClassCfg where
  llcMask := 0xFFFFFFFF
  l2Mask := 0xFFFF
  cap := 64
  weights := [4, 2, 2, 1]

/-- A queue that is disabled (R262). -/
def Queue.reset : Queue where
  desc := 0
  head := 0
  upTo := 0
  packets := []
  snapRun := none
  vf := 0
  cls := .balanced
  latest := 0
  served := 0

/-- The package after cold bring-up (R262): ready, every slot FREE, every queue disabled, every zone absent. -/
def State.reset : State where
  cc := 0
  device := 0
  tick := 0
  curCore := 0
  curSlot := 0
  issuing := false
  lat := Latch.reset
  turns := []
  inputs := []
  cores := []
  clusters := []
  mem := []
  memEmpty := []
  memPoison := []
  waiters := []
  packets := []
  records := []
  stgs := []
  forwards := []
  units := []
  pieces := []
  jobs := []
  couples := []
  rollbacks := 0
  launches := []
  nextLaunch := 1
  images := []
  queues := []
  tenants := []
  roots := []
  formulas := []
  shadow := []
  shadowOf := []
  groupOf := []
  routes := []
  links := Vector.replicate 16 Link.reset
  classes := []
  keys := []
  hier := Hier.reset
  breakpoints := []
  notices := []
  noticesLost := 0
  discarded := 0
  ageing := Vector.replicate 12 0xFFFFFF0000000000
  eolhMin := 0
  powerCap := 2800
  clock := 20
  samples := []
  boot := .ready
  measured := []
  identity := []
  reports := []
  sensors := []
  commands := []
  ports := Vector.replicate 2 ⟨[], [], []⟩
  hostGot := []

end Sys2Proof.Machine
end

