-- ==== Sys2Proof/Machine/Mem.lean ====
section
/-!
DEFINITION. Tables, bytes and words; reading and writing the memories, full/empty bits and poison of the package;
access to its cores, slots, clusters, launches (spec/05_memory_and_addressing.md R94–R98, R110–R113).
-/
namespace Sys2Proof.Machine

open Sys2Proof

/-! ## Tables -/

/-- The value at a key; an unlisted key holds `d`. -/
def Sparse.get {α : Type} (d : α) (m : Sparse α) (k : Nat) : α :=
  match m with
  | [] => d
  | (k', v) :: rest => if k' = k then v else Sparse.get d rest k

/-- The value at a key, if one is listed. -/
def Sparse.look {α : Type} (m : Sparse α) (k : Nat) : Option α := (m.find? fun kv => kv.1 == k).map (·.2)

/-- The table with the key taken out. -/
def Sparse.erase {α : Type} (m : Sparse α) (k : Nat) : Sparse α := m.filter fun (kv : Nat × α) => kv.1 != k

/-- The table with a value at a key, keys kept rising. -/
def Sparse.put {α : Type} (m : Sparse α) (k : Nat) (v : α) : Sparse α :=
  match m with
  | [] => [(k, v)]
  | (k', v') :: rest =>
    if k' < k then (k', v') :: Sparse.put rest k v
    else if k' = k then (k, v) :: rest
    else (k, v) :: (k', v') :: rest

/-- The keys of a table. -/
def Sparse.keys {α : Type} (m : Sparse α) : List Nat := m.map (·.1)

/-- A set of numbers as a rising list: insertion. -/
def setInsert (l : List Nat) (k : Nat) : List Nat :=
  match l with
  | [] => [k]
  | x :: rest => if x < k then x :: setInsert rest k else if x = k then l else k :: l

/-- A set of numbers as a rising list: removal. -/
def setErase (l : List Nat) (k : Nat) : List Nat := l.filter (· != k)

/-! ## Bytes and words (little-endian, R4) -/

/-- The number whose little-endian bytes are `bs`. -/
def natOfBytes (bs : List Byte) : Nat := bs.foldr (fun b acc => b.toNat + 256 * acc) 0

/-- The low `n` bytes of a number, little-endian. -/
def bytesOfNat (n v : Nat) : List Byte :=
  match n with
  | 0 => []
  | n + 1 => BitVec.ofNat 8 v :: bytesOfNat n (v / 256)

/-- Sign extension of the low `n` bits to 64 (R264). -/
def sext64 {n : Nat} (x : BitVec n) : Word := x.signExtend 64

/-- Bits [lo+len-1 : lo] of a word as a number. -/
def fld (w : Word) (lo len : Nat) : Nat := (w.extractLsb' lo len).toNat

/-! ## Memories -/

/-- A byte of a memory. -/
def Memory.rd (m : Memory) (a : Nat) : Byte := Sparse.get 0 m a

/-- A memory with one byte written, in canonical form: a zero byte is not listed. -/
def Memory.wr (m : Memory) (a : Nat) (b : Byte) : Memory := if b = 0 then Sparse.erase m a else Sparse.put m a b

/-- The `n` bytes from an address. -/
def Memory.rdBytes (m : Memory) (a : Nat) : Nat → List Byte
  | 0 => []
  | n + 1 => m.rd a :: m.rdBytes (a + 1) n

/-- A memory with bytes written from an address. -/
def Memory.wrBytes (m : Memory) (a : Nat) : List Byte → Memory
  | [] => m
  | b :: bs => (m.wr a b).wrBytes (a + 1) bs

/-- The canonical form: addresses strictly rising, no zero byte. -/
def Memory.wf (m : Memory) : Bool :=
  match m with
  | [] => true
  | (_, b) :: [] => b != 0
  | (a, b) :: (a', b') :: rest => b != 0 && decide (a < a') && Memory.wf ((a', b') :: rest)

/-! ## Cores, slots, clusters, launches -/

/-- Core `n`; a core nothing has touched is as bring-up left it. -/
def State.core (s : State) (n : Nat) : Core := Sparse.get Core.reset s.cores n

def State.setCore (s : State) (n : Nat) (c : Core) : State := { s with cores := s.cores.put n c }

def State.modCore (s : State) (n : Nat) (f : Core → Core) : State := s.setCore n (f (s.core n))

/-- Slot `k` of a core. -/
def Core.slot (c : Core) (k : Nat) : Slot := c.slots[k]?.getD Slot.reset

def Core.setSlot (c : Core) (k : Nat) (x : Slot) : Core := { c with slots := c.slots.setIfInBounds k x }

def State.slot (s : State) (c k : Nat) : Slot := (s.core c).slot k

def State.setSlot (s : State) (c k : Nat) (x : Slot) : State := s.setCore c ((s.core c).setSlot k x)

def State.modSlot (s : State) (c k : Nat) (f : Slot → Slot) : State := s.setSlot c k (f (s.slot c k))

/-- The slot whose pair is being issued. -/
def State.cur (s : State) : Slot := s.slot s.curCore s.curSlot

def State.setCur (s : State) (x : Slot) : State := s.setSlot s.curCore s.curSlot x

def State.modCur (s : State) (f : Slot → Slot) : State := s.modSlot s.curCore s.curSlot f

/-- The core whose slot is issuing. -/
def State.here (s : State) : Core := s.core s.curCore

def State.modHere (s : State) (f : Core → Core) : State := s.modCore s.curCore f

def State.cluster (s : State) (n : Nat) : Cluster := Sparse.get Cluster.reset s.clusters n

def State.modCluster (s : State) (n : Nat) (f : Cluster → Cluster) : State :=
  { s with clusters := s.clusters.put n (f (s.cluster n)) }

/-- The cluster of a core. -/
def clusterOf (core : Nat) : Nat := core / 8

/-- The launch with an identity. -/
def State.launchById (s : State) (id : Nat) : Option Launch := s.launches.find? (·.id == id)

def State.modLaunch (s : State) (id : Nat) (f : Launch → Launch) : State :=
  { s with launches := s.launches.map fun l => if l.id = id then f l else l }

/-- The launch of the strand a slot holds. -/
def State.launchOf (s : State) (x : Slot) : Option Launch := x.launch.bind s.launchById

/-- A launch's place on a core. -/
def Launch.seat (l : Launch) (core : Nat) : Option Seat := l.seats.find? (·.core == core)

def Launch.modSeat (l : Launch) (core : Nat) (f : Seat → Seat) : Launch :=
  { l with seats := l.seats.map fun x => if x.core = core then f x else x }

def State.modSeat (s : State) (id core : Nat) (f : Seat → Seat) : State := s.modLaunch id (·.modSeat core f)

/-- The launches with a place on a core, in the order they were placed. -/
def State.launchesOn (s : State) (core : Nat) : List Launch := s.launches.filter fun l => (l.seat core).isSome

/-- A free value's number, and the counter moved on. -/
def State.fresh (s : State) : Nat × State := (s.tick, { s with tick := s.tick + 1 })

/-- CORELOC of a core (R58). -/
def State.coreloc (s : State) (core : Nat) : Nat := s.device * 1024 + core

/-- SLOTID of a slot (R58): [21:4] CORELOC, [3:0] slot. -/
def State.slotid (s : State) (core slot : Nat) : Nat := s.coreloc core * 16 + slot

/-! ## Capabilities (R56) -/

abbrev Cap := BitVec 256

def Cap.base (c : Cap) : Nat := (c.extractLsb' 0 56).toNat
def Cap.limit (c : Cap) : Nat := (c.extractLsb' 56 56).toNat
def Cap.r (c : Cap) : Bool := c.getLsbD 112
def Cap.w (c : Cap) : Bool := c.getLsbD 113
def Cap.x (c : Cap) : Bool := c.getLsbD 114
def Cap.o (c : Cap) : Bool := c.getLsbD 115
def Cap.s (c : Cap) : Bool := c.getLsbD 116
def Cap.q (c : Cap) : Bool := c.getLsbD 117
def Cap.gen (c : Cap) : BitVec 16 := c.extractLsb' 128 16
def Cap.index (c : Cap) : Nat := (c.extractLsb' 144 8).toNat

/-- Whether the register holds any right. -/
def Cap.any (c : Cap) : Bool := c.r || c.w || c.x || c.o || c.s || c.q

/-- A capability of these fields. -/
def Cap.make (base limit : Nat) (rights : BitVec 6) (gen : BitVec 16) (index : BitVec 8) : Cap :=
  (0#104 ++ index ++ gen ++ 0#10 ++ rights ++ BitVec.ofNat 56 limit ++ BitVec.ofNat 56 base : BitVec 256)

/-- The rights Q, S, O, X, W, R of a capability as six bits. -/
def Cap.rights (c : Cap) : BitVec 6 := c.extractLsb' 112 6

/-! ## Homes (R113) -/

/-- Exclusive or of the `k`-bit chunks of a number. -/
def foldXor (k : Nat) : Nat → Nat → Nat
  | 0, _ => 0
  | n + 1, x => (x % 2 ^ k) ^^^ foldXor k n (x / 2 ^ k)

/-- The home slice of a physical address; `tree` says that its page has T = 1. -/
def home (pa : Nat) (tree : Bool) : Nat := if tree then foldXor 7 6 (pa / 4096) else foldXor 7 7 (pa / 128)

/-- The L2 slice of a physical address. -/
def l2slice (pa : Nat) : Nat := foldXor 6 8 (pa / 128)

/-- The DRAM stack and controller of a home slice (R9). -/
def stackOf (slice : Nat) : Nat := 4 * (slice / 32) + slice % 4

/-! ## Reading and writing at a place -/

/-- The place `n` bytes further on. -/
def Loc.plus (l : Loc) (n : Nat) : Loc :=
  match l with
  | .mem pa t c k => .mem (pa + n) t c k
  | .lm core off => .lm core (off + n)
  | .peer dev dva => .peer dev (dva + n)
  | .noPart dva => .noPart (dva + n)
  | .lost dva => .lost (dva + n)

/-- A place in another package. -/
def Loc.isPeer : Loc → Bool
  | .peer .. => true
  | _ => false

/-- What the page of a place says of its lines. -/
def Loc.attr : Loc → Attr
  | .mem _ t c k => ⟨t, c, k⟩
  | _ => ⟨false, 0, 0⟩

/-- Whether two places lie in one 64-bit word. -/
def Loc.sameWord (a b : Loc) : Bool :=
  match a, b with
  | .mem p _ _ _, .mem q _ _ _ => p / 8 == q / 8
  | .lm c o, .lm c' o' => c == c' && o / 8 == o' / 8
  | _, _ => false

/-- The bytes at a place of this package. -/
def State.rdLoc (s : State) (l : Loc) (n : Nat) : List Byte :=
  match l with
  | .mem pa _ _ _ => s.mem.rdBytes pa n
  | .lm core off => (s.core core).lm.rdBytes off n
  | .peer _ _ | .noPart _ | .lost _ => List.replicate n 0

/-- The 64-bit word at a place. -/
def State.rdWord (s : State) (l : Loc) : Word := BitVec.ofNat 64 (natOfBytes (s.rdLoc l 8))

/-- The words (address / 8) that `n` bytes from an address touch, and those they cover whole. -/
def touched (a n : Nat) : List Nat := (List.range ((a + n + 7) / 8 - a / 8)).map (a / 8 + ·)
def covered (a n : Nat) : List Nat := (touched a n).filter fun w => a ≤ 8 * w && 8 * w + 8 ≤ a + n

/-- Whether a place lies in one of the 64-bit words that `n` bytes from another touch. -/
def Loc.meets (l : Loc) (n : Nat) (e : Loc) : Bool :=
  match l, e with
  | .mem p _ _ _, .mem q _ _ _ => (touched p n).contains (q / 8)
  | .lm c o, .lm c' o' => c == c' && (touched o n).contains (o' / 8)
  | .peer d v, .peer d' v' => d == d' && (touched v n).contains (v' / 8)
  | _, _ => false

/-- Whether any byte of `n` from a place carries poison. -/
def State.poisonedAt (s : State) (l : Loc) (n : Nat) : Bool :=
  match l with
  | .mem pa _ _ _ => (touched pa n).any s.memPoison.contains
  | .lm core off => (touched off n).any (s.core core).lmPoison.contains
  | .peer _ _ | .noPart _ => false
  | .lost _ => true

/-- The bytes before the first poisoned word of `n` bytes from an aligned place. -/
def State.poisonOff (s : State) (l : Loc) (n : Nat) : Nat :=
  8 * (((List.range (n / 8)).find? fun i => s.poisonedAt (l.plus (8 * i)) 8).getD 0)

/-- Bytes written at a place of this package; poison is spread when the data carries it, and a write of a whole word
clears it (R186). -/
def State.wrLoc (s : State) (l : Loc) (bs : List Byte) (poison : Bool) : State :=
  match l with
  | .mem pa _ _ _ =>
    { s with
      mem := s.mem.wrBytes pa bs
      memPoison := if poison then (touched pa bs.length).foldl setInsert s.memPoison
                   else (covered pa bs.length).foldl setErase s.memPoison }
  | .lm core off =>
    s.modCore core fun c =>
      { c with
        lm := c.lm.wrBytes off bs
        lmPoison := if poison then (touched off bs.length).foldl setInsert c.lmPoison
                    else (covered off bs.length).foldl setErase c.lmPoison }
  | .peer _ _ | .noPart _ | .lost _ => s

/-- Whether the word at a place is full (R91). -/
def State.full (s : State) (l : Loc) : Bool :=
  match l with
  | .mem pa _ _ _ => !s.memEmpty.contains (pa / 8)
  | .lm core off => !(s.core core).lmEmpty.contains (off / 8)
  | .peer _ _ | .noPart _ | .lost _ => true

/-- The word's full/empty bit set. -/
def State.setFull (s : State) (l : Loc) (full : Bool) : State :=
  match l with
  | .mem pa _ _ _ =>
    { s with memEmpty := if full then setErase s.memEmpty (pa / 8) else setInsert s.memEmpty (pa / 8) }
  | .lm core off =>
    s.modCore core fun c =>
      { c with lmEmpty := if full then setErase c.lmEmpty (off / 8) else setInsert c.lmEmpty (off / 8) }
  | .peer _ _ | .noPart _ | .lost _ => s

/-! ## Classes and keys (R114, R256) -/

/-- The settings of a service class. -/
def State.classCfg (s : State) (cls : Nat) : ClassCfg := Sparse.get ClassCfg.reset s.classes cls

/-- The key slot a page names. -/
def State.keySlot (s : State) (k : Nat) : KeySlot := Sparse.get ⟨0, 0⟩ s.keys k

/-! ## L1 (R110) -/

/-- Every L1 line that is not of the read-only class is invalidated, and the fetch buffers of the core's slots are
emptied: an acquire (R71, R110, R120). -/
def State.selfInvalidate (s : State) (core : Nat) : State :=
  s.modCore core fun c =>
    { c with l1 := c.l1.filter (·.2.ro), slots := c.slots.map fun x => { x with fbuf := [] } }

/-- The L1 line of a core updated with bytes that were stored or read at the home, if it is present. -/
def updateLine (l : CacheLine) (off : Nat) (bs : List Byte) (poison : Bool) : CacheLine :=
  let old := l.words.flatMap fun w => bytesOfNat 8 w.toNat
  let new := old.take off ++ bs ++ old.drop (off + bs.length)
  { l with
    words := (List.range 16).map fun i => BitVec.ofNat 64 (natOfBytes ((new.drop (8 * i)).take 8))
    poison := if poison then (touched off bs.length).foldl setInsert l.poison
              else (covered off bs.length).foldl setErase l.poison }

/-- Line `n` with the stores of a core's path laid over it: a store in the path is newer than what its home holds (R110, R122). -/
def CacheLine.laid (x : CacheLine) (n : Nat) (path : List PathStore) : CacheLine :=
  path.foldl (fun x (p : PathStore) =>
    match p.loc with
    | .mem pa _ _ _ => if pa / 128 = n then updateLine x (pa % 128) p.bytes p.poison else x
    | _ => x) x

/-- The bytes put into the core's L1 line of their address, if the core holds it, under the stores of its path (R110, R122). -/
def Core.refreshL1 (c : Core) (l : Loc) (bs : List Byte) (poison : Bool) : Core :=
  match l with
  | .mem pa _ _ _ =>
    { c with l1 := c.l1.map fun x =>
        if x.1 = pa / 128 then (x.1, (updateLine x.2 (pa % 128) bs poison).laid x.1 c.path) else x }
  | _ => c

/-- Lines of an L1 and of an instruction cache: 64 KiB and 32 KiB (R10). -/
def l1Lines : Nat := 512
def icacheLines : Nat := 256

/-- A line filled into a cache of `size` lines; a full cache loses the line that `pick` names: the manual gives no replacement
(DESIGN CHOICE, safe: a free value; log entry 4). -/
def fillCache (size pick n : Nat) (line : CacheLine) (m : Sparse CacheLine) : Sparse CacheLine :=
  let m := m.erase n
  let m := if m.length < size then m else match m[pick % size]? with
    | some (k, _) => m.erase k
    | none => m
  m.put n line

def State.refreshL1 (s : State) (core : Nat) (l : Loc) (bs : List Byte) (poison : Bool) : State :=
  match l with
  | .mem .. => s.modCore core fun c => c.refreshL1 l bs poison
  | _ => s

/-! ## Posted stores and their strands (R116, R127) -/

/-- The count of a slot's STGs not acknowledged. -/
def State.countStgs (s : State) (o : StgOwner) : State :=
  match o with
  | .slot core slot => s.modSlot core slot fun x => { x with stgs := s.stgs.countP fun (g : Stg) => g.owner == o }
  | _ => s

/-- Where the strand of a store in core `k`'s path stands. -/
def PathStore.owner (p : PathStore) (k : Nat) : StgOwner := p.moved.getD (.slot k p.slot)

/-- The strand of a store in core `k`'s path goes from one place to another. -/
def PathStore.move (k : Nat) (a b : StgOwner) (p : PathStore) : PathStore :=
  if p.owner k = a then { p with moved := some b } else p

/-- The strand whose STGs and stores stand at one place goes to another. -/
def State.moveStgs (s : State) (a b : StgOwner) : State :=
  let s :=
    { s with
      stgs := s.stgs.map fun (g : Stg) => if g.owner = a then { g with owner := b } else g,
      cores := s.cores.map fun (kc : Nat × Core) => (kc.1, { kc.2 with path := kc.2.path.map (PathStore.move kc.1 a b) }) }
  (s.countStgs a).countStgs b

/-- The owner that a place in storage stands for. -/
def Loc.owner : Loc → StgOwner
  | .mem pa _ _ _ => .spilled pa
  | .lm core off => .frame core off
  | .peer .. | .noPart _ | .lost _ => .ended

end Sys2Proof.Machine
end

