-- ==== Sys2Proof/Machine/Cache.lean ====
section
/-!
DEFINITION. What stands between the cores and the DRAM (spec/01_device.md R8–R10; spec/05_memory_and_addressing.md R111–R115;
spec/16 R247; spec/18 R253–R256): the L2s and their directory, the LLC, encryption, MACs, the integrity tree and the
DRAM controllers' queues. They never change what a location holds (R111: once a write is in an L2, no core can read an
older value from any L2): the bytes are in `State.mem`; a line that fails its MAC is delivered poisoned (R254). Lines of host
memory may stand in the L2s and the LLC, and have no DRAM line, counter or controller here (R252).
-/
namespace Sys2Proof.Machine

open Sys2Proof

/-! ## Ways (R10, R14, R114) -/

/-- A way, its order of use and its key, of the lines in a set. -/
structure InSet where
  way  : Nat
  used : Nat
  key  : Nat
  deriving DecidableEq, Repr

/-- The least recently used of some lines. -/
def oldest : List InSet → Option InSet
  | [] => none
  | x :: rest => match oldest rest with
    | some y => if y.used < x.used then some y else some x
    | none => some x

/-- The way that a fill takes among the ways `ways`, and the line that leaves it: a way that no line of the set holds, else
that of the least recently used line in those ways; none without a way. -/
def takeWay (ways : List Nat) (set : List InSet) : Option (Nat × Option Nat) :=
  match ways.find? fun w => !set.any fun x => x.way == w with
  | some w => some (w, none)
  | none => (oldest (set.filter fun x => ways.contains x.way)).map fun x => (x.way, some x.key)

/-- The set of a line in its slice of an L2, and in its home slice: 8,192 sets of 16 ways and 32,768 sets of 32 ways (R10, R14:
16 MiB and 128 MiB). The manual gives no index: the bits above those of the slices (DESIGN CHOICE, unsafe; log entry 60). -/
def l2Set (line : Nat) : Nat := line / 64 % 8192
def llcSet (line : Nat) : Nat := line / 128 % 32768

/-- The home slice of a line. -/
def Attr.home (a : Attr) (line : Nat) : Nat := Machine.home (128 * line) a.tree

/-- The controller, and stack, of a line (R9). -/
def Attr.stack (a : Attr) (line : Nat) : Nat := stackOf (a.home line)

/-! ## DRAM, its requests (R247) and the carve-out (R255) -/

/-- DRAM is 16 stacks of 96 GiB, and the carve-out 1,561 MiB of each (R14, R255). The manual gives no address: DRAM from PA 0,
the carve-out its end, which spreads evenly over the stacks (DESIGN CHOICE, unsafe; log entry 61). -/
def dramBytes : Nat := 16 * 96 * 2 ^ 30
def carveBytes : Nat := 16 * 1561 * 2 ^ 20
def carveBase : Nat := dramBytes - carveBytes

/-- A physical address of host memory: the manual gives no range; it is what lies above DRAM (DESIGN CHOICE, unsafe; log entry 9). -/
def hostPa (pa : Nat) : Bool := decide (dramBytes ≤ pa)

/-- A request put into the queue of a device line's controller. The manual gives no bank or row: 16 banks of 4-line runs, rows of
64 lines (DESIGN CHOICE; log entry 52). -/
def Hier.request (h : Hier) (cluster : Nat) (a : Attr) (line : Nat) : Hier :=
  if hostPa (128 * line) then h
  else
    let ctl := a.stack line
    let d := h.drams[ctl]?.getD ⟨[], [], []⟩
    { h with drams := h.drams.setIfInBounds ctl { d with reqs := d.reqs ++ [⟨cluster, a.cls, line / 4 % 16, line / 64, false⟩] } }

/-- A physical address lies in the carve-out. -/
def inCarve (pa : Nat) : Bool := decide (carveBase ≤ pa ∧ pa < dramBytes)

/-! ## Counters and the integrity tree (R253–R255) -/

/-- The number of a counter block (level 0) or tree node (levels 1–3) among the lines of the carve-out: block `i` covers lines
64 i to 64 i + 63, node `i` of a level blocks or nodes 64 i to 64 i + 63 of the level below; level 4 is the top, on chip. -/
def metaKey (level i : Nat) : Nat := level * 2 ^ 40 + i

/-- The physical address of a counter block or tree node: the four levels one after the other from the carve-out's base. -/
def metaAddr (level i : Nat) : Nat :=
  carveBase + 128 * i +
    (if level = 0 then 0 else if level = 1 then 24 * 2 ^ 30 else if level = 2 then 24 * 2 ^ 30 + 384 * 2 ^ 20
     else 24 * 2 ^ 30 + 390 * 2 ^ 20)

/-- The number of the block or node at a line of the carve-out, of the levels one after the other. -/
def metaAt (line : Nat) : Nat :=
  let k := line - carveBase / 128
  let n1 := 24 * 2 ^ 30 / 128
  let n2 := n1 + 384 * 2 ^ 20 / 128
  let n3 := n2 + 6 * 2 ^ 20 / 128
  if k < n1 then metaKey 0 k else if k < n2 then metaKey 1 (k - n1) else if k < n3 then metaKey 2 (k - n2) else metaKey 3 (k - n3)

def Counter.zero : Counter := ⟨0, []⟩

/-- The counter of a child of a block or node. -/
def Counter.minor (c : Counter) (i : Nat) : BitVec 14 := Sparse.get 0 c.minors (i % 64)

/-- One more write of a child: a minor counter that would wrap increments the major counter and zeroes all 64 minors (R253). -/
def Counter.bump (c : Counter) (i : Nat) : Counter :=
  if c.minor i = 0x3FFF#14 then ⟨c.major + 1, []⟩ else { c with minors := c.minors.put (i % 64) (c.minor i + 1) }

/-- The counter wrapped. -/
def Counter.wraps (c : Counter) (i : Nat) : Bool := c.minor i == 0x3FFF#14

/-- A block or node as the carve-out holds it; one that nothing has written is bring-up's zero, with a valid MAC. -/
def Hier.stored (h : Hier) (level i : Nat) : MetaLine :=
  Sparse.get ⟨Counter.zero, Counter.zero, 0, 0⟩ h.carve (metaKey level i)

/-- A block or node as the home dies take it: the counter cache's copy, or the carve-out's; the top level is on chip. -/
def Hier.counter (h : Hier) (level i : Nat) : Counter :=
  if 4 ≤ level then Sparse.get Counter.zero h.tops i
  else (h.cached.look (metaKey level i)).getD (h.stored level i).block

/-- A block or node passes: it is in a counter cache, or its MAC is over its contents and its parent's counter, and the
parent passes (R254). R8 and R254 give each home slice a counter cache and do not say which holds a block or node: the one of the
home slice of its own line, so that one table holds what the 128 caches hold (DESIGN CHOICE; log entry 78). -/
def Hier.verified (h : Hier) (level i : Nat) : Nat → Bool
  | 0 => true
  | fuel + 1 =>
    let m := h.stored level i
    let up := h.counter (level + 1) (i / 64)
    (h.cached.look (metaKey level i)).isSome
      || (m.block == m.mac && m.major == up.major && m.minor == up.minor i && h.verified (level + 1) (i / 64) fuel)

/-- A counter block passes with every node above it. -/
def Hier.pathOk (h : Hier) (i : Nat) : Bool := (List.range 4).all fun l => h.verified l (i / 64 ^ l) 4

/-- A counter block that passes, read for one of its lines: it and the nodes above it are then in the counter caches (R254). -/
def Hier.cachePath (h : Hier) (i : Nat) : Hier :=
  if h.pathOk i then
    { h with cached := (List.range 4).foldl (fun m l => m.put (metaKey l (i / 64 ^ l)) (h.counter l (i / 64 ^ l))) h.cached }
  else h

/-- A block or node written: the carve-out's copy with its MAC, and the cached one. -/
def Hier.writeMeta (h : Hier) (level i : Nat) (c : Counter) (up : Counter) : Hier :=
  { h with carve := h.carve.put (metaKey level i) ⟨c, c, up.major, up.minor i⟩, cached := h.cached.put (metaKey level i) c }

/-- The 64 children of a node whose counter has wrapped: the MAC of each that passed is made anew. -/
def Hier.remac (h : Hier) (level i : Nat) (old up : Counter) : Hier :=
  (List.range 64).foldl (fun (h : Hier) k =>
    let n := 64 * i + k
    let m := h.stored level n
    if m.block = m.mac ∧ m.major = old.major ∧ m.minor = old.minor n then
      { h with carve := h.carve.put (metaKey level n) ⟨m.block, m.block, up.major, up.minor n⟩ }
    else h) h

/-- A new value of a block or node, with its parents up to the top level, whose counters of it move on. -/
def Hier.putMeta (h : Hier) (level i : Nat) (c : Counter) : Nat → Hier
  | 0 => { h with tops := h.tops.put i c }
  | fuel + 1 =>
    let up := h.counter (level + 1) (i / 64)
    let up' := up.bump i
    let h := h.putMeta (level + 1) (i / 64) up' fuel
    let h := if up.wraps i then h.remac level (i / 64) up up' else h
    h.writeMeta level i c up'

/-! ## Lines in DRAM (R253, R254, R256) -/

/-- The ciphertext of a line's bytes: AES-256 in counter mode, whose key stream is a constant of the model (log entry 8). -/
def cipherOf (key line : Nat) (major : BitVec 64) (minor : BitVec 14) (bs : List Byte) : List Byte :=
  (List.range 128).map fun i => bs.getD i 0 ^^^ Config.keyStream key line major.toNat minor.toNat i

/-- A line of DRAM; one that nothing has written since bring-up is zero, with a MAC that is valid under every key (R262), over the
counter that bring-up left. -/
def Hier.dramLine (h : Hier) (line : Nat) : DramLine :=
  Sparse.get ⟨[], ⟨none, [], line, 0, 0⟩⟩ h.lines line

/-- A line passes its MAC under a key slot: the key, the ciphertext, the line and its counter are those the MAC is over, and
the counter block passes. A block or node of the carve-out, read as the line of a page, has no such MAC (R254, R255), and host
memory needs none. -/
def Hier.macOk (h : Hier) (slot : Nat) (k : KeySlot) (line : Nat) : Bool :=
  let d := h.dramLine line
  let c := h.counter 0 (line / 64)
  hostPa (128 * line)
    || (!inCarve (128 * line) && (d.mac.key.all (· == (slot, k.version))) && d.mac.cipher == d.cipher && d.mac.line == line
      && d.mac.major == c.major && d.mac.minor == c.minor line && h.verified 0 (line / 64) 4)

/-- A line encrypted and its MAC made, under a counter. -/
def Hier.sealLine (h : Hier) (slot : Nat) (k : KeySlot) (line : Nat) (c : Counter) (bs : List Byte) : Hier :=
  let e := cipherOf k.key line c.major (c.minor line) bs
  { h with lines := h.lines.put line ⟨e, ⟨some (slot, k.version), e, line, c.major, c.minor line⟩⟩ }

/-- A line of a block re-encrypted, its counter having gone from `old` to `c` (R253); one that fails its MAC goes on failing it. -/
def Hier.recrypt (h : Hier) (keyOf : Nat → KeySlot) (old c : Counter) (line : Nat) : Hier :=
  let d := h.dramLine line
  if d.mac.cipher = d.cipher ∧ d.mac.line = line ∧ d.mac.major = old.major ∧ d.mac.minor = old.minor line then
    let e := match d.mac.key with
      | some (slot, _) =>
        let key := (keyOf slot).key
        cipherOf key line c.major (c.minor line) (cipherOf key line old.major (old.minor line) d.cipher)
      | none => d.cipher
    { h with lines := h.lines.put line ⟨e, { d.mac with cipher := e, major := c.major, minor := c.minor line }⟩ }
  else h

/-- A block or node overwritten as the line of a page: it is no longer what its MAC is over. -/
def Hier.overwriteMeta (h : Hier) (key : Nat) (bs : List Byte) : Hier :=
  let m : MetaLine := Sparse.get ⟨Counter.zero, Counter.zero, 0, 0⟩ h.carve key
  { h with carve := h.carve.put key { m with block := ⟨BitVec.ofNat 64 (natOfBytes (bs.take 8)), []⟩ } }

/-- A dirty line written to DRAM, encrypted under its page's KEY; its counter moves on, and a wrap re-encrypts the 64 lines of
the block first (R112, R253). Where the counter block or a node above it is bad, the line fails its MAC from then on: what DRAM holds is
not what was written (R254; DEDUCED; log entry 108). A line of host memory goes there through its port. -/
def Hier.writeBack (h : Hier) (keyOf : Nat → KeySlot) (a : Attr) (line : Nat) (bs : List Byte) : Hier :=
  let h := h.request 128 a line
  if hostPa (128 * line) then h
  else if inCarve (128 * line) then h.overwriteMeta (metaAt line) bs
  else if !h.pathOk (line / 64) then
    let d := h.dramLine line
    { h with lines := h.lines.put line { d with mac := { d.mac with line := line + 1 } } }
  else
    let c := h.counter 0 (line / 64)
    let c' := c.bump line
    let h := h.putMeta 0 (line / 64) c' 4
    let h := if c.wraps line then
        (List.range 64).foldl (fun (h : Hier) i => h.recrypt keyOf c c' (line / 64 * 64 + i)) h
      else h
    h.sealLine a.key (keyOf a.key) line c' bs

/-! ## The LLC (R112, R114) -/

/-- What the hierarchy needs to know of the package: the classes' settings, the key slots, and the bytes of a line. -/
structure Env where
  cfg   : Nat → ClassCfg
  keyOf : Nat → KeySlot
  bytes : Nat → List Byte

/-- A line leaves the LLC: written to DRAM if it is dirty. -/
def Hier.llcEvict (h : Hier) (e : Env) (line : Nat) : Hier :=
  match h.llc.look line with
  | none => h
  | some t =>
    let h := if t.dirty then h.writeBack e.keyOf t.attr line (e.bytes line) else h
    { h with llc := h.llc.erase line }

/-- The other lines of a line's set in its home slice. -/
def Hier.llcPeers (h : Hier) (a : Attr) (line : Nat) : List InSet :=
  (h.llc.filter fun kv => kv.1 != line && kv.2.attr.home kv.1 == a.home line && llcSet kv.1 == llcSet line).map fun kv =>
    ⟨kv.2.way, kv.2.used, kv.1⟩

/-- The ways of a class in a home slice, and in an L2 slice. -/
def ClassCfg.llcWays (c : ClassCfg) : List Nat := (List.range 32).filter fun w => c.llcMask.getLsbD w
def ClassCfg.l2Ways (c : ClassCfg) : List Nat := (List.range 16).filter fun w => c.l2Mask.getLsbD w

/-- A line read at its home, or written there: a hit in any way; else a fill, which takes its victim from the ways of the line's
class, least recently used first; a class without a way bypasses the LLC, and what is written goes to DRAM (R112, R114). -/
def Hier.llcUse (h : Hier) (e : Env) (a : Attr) (line : Nat) (write : Bool) : Hier :=
  match h.llc.look line with
  | some t => { h with llc := h.llc.put line { t with dirty := t.dirty || write, used := h.uses, attr := a }, uses := h.uses + 1 }
  | none =>
    match takeWay (e.cfg a.cls).llcWays (h.llcPeers a line) with
    | none => if write then h.writeBack e.keyOf a line (e.bytes line) else h
    | some (w, victim) =>
      let h := match victim with
        | some v => h.llcEvict e v
        | none => h
      { h with llc := h.llc.put line ⟨write, w, h.uses, a⟩, uses := h.uses + 1 }

/-- A line brought to its home for a read or a write: from the LLC, or from DRAM; whether it fails its MAC. -/
def Hier.atHome (h : Hier) (e : Env) (cluster : Nat) (a : Attr) (line : Nat) (write : Bool) : Hier × Bool :=
  let hit := (h.llc.look line).isSome
  let bad := !h.macOk a.key (e.keyOf a.key) line && !hit
  let read (h : Hier) : Hier := if hostPa (128 * line) then h else (h.request cluster a line).cachePath (line / 64)
  ((if hit then h else read h).llcUse e a line write, bad)

/-- Sectors of a line written back to its home. Where the LLC does not hold the line and other sectors of it have to come from DRAM, those
of a line that fails its MAC are poisoned (R254), wherever a copy of them still stands (DEDUCED; log entry 108). -/
def Hier.writeHome (h : Hier) (e : Env) (a : Attr) (line : Nat) (sectors : BitVec 4) : Hier :=
  let fills := (h.llc.look line).isNone && sectors != 15#4 && !hostPa (128 * line)
  let h := if fills && !h.macOk a.key (e.keyOf a.key) line then { h with failed := h.failed ++ [(line, ~~~sectors)] } else h
  (if fills then (h.request 128 a line).cachePath (line / 64) else h).llcUse e a line true

/-! ## The L2s (R111) -/

/-- The key of a line in a die's L2. -/
def l2Key (line die : Nat) : Nat := 8 * line + die

def Hier.l2Line (h : Hier) (line die : Nat) : Option L2Line := h.l2.look (l2Key line die)

/-- The directory's sharer bit of a die. -/
def Hier.share (h : Hier) (line die : Nat) (on : Bool) : Hier :=
  let d := Sparse.get 0 h.dirs line
  let bit : BitVec 8 := 1#8 <<< die
  let d' := if on then d ||| bit else d &&& ~~~bit
  { h with dirs := if d' = 0 then h.dirs.erase line else h.dirs.put line d' }

/-- A die's copy of a line leaves: dirty sectors are written back to the home first. -/
def Hier.l2Drop (h : Hier) (e : Env) (line die : Nat) : Hier :=
  match h.l2Line line die with
  | none => h
  | some t =>
    let h := if t.dirty = 0 then h else h.writeHome e t.attr line t.dirty
    { h with l2 := h.l2.erase (l2Key line die) }.share line die false

/-- A die's dirty sectors of a line written back to the home, the copy kept clean. -/
def Hier.l2Clean (h : Hier) (e : Env) (line die : Nat) : Hier :=
  match h.l2Line line die with
  | none => h
  | some t =>
    if t.dirty = 0 then h
    else
      let h := h.writeHome e t.attr line t.dirty
      { h with l2 := h.l2.put (l2Key line die) { t with dirty := 0 } }

/-- The copies of a line in every L2 but those of one die: dirty sectors come home, and a write or an atomic invalidates the
copies (R111). -/
def Hier.recall (h : Hier) (e : Env) (line : Nat) (but : Option Nat) (inval : Bool) : Hier :=
  (List.range 8).foldl (fun (h : Hier) d =>
    if but = some d then h else if inval then h.l2Drop e line d else h.l2Clean e line d) h

/-- The other lines of a line's set in a die's L2. -/
def Hier.l2Peers (h : Hier) (line die : Nat) : List InSet :=
  (h.l2.filter fun kv => kv.1 % 8 == die && kv.1 / 8 != line && l2slice (16 * kv.1) == l2slice (128 * line)
      && l2Set (kv.1 / 8) == l2Set line).map fun kv => ⟨kv.2.way, kv.2.used, kv.1⟩

/-- Sectors `PA[6:5]` that `n` bytes from an offset of a line touch, and those they cover whole. -/
def sectorsOf (off n : Nat) : BitVec 4 :=
  (List.range 4).foldl (fun m i => if off < 32 * i + 32 ∧ 32 * i < off + n then m ||| (1#4 <<< i) else m) 0
def sectorsWhole (off n : Nat) : BitVec 4 :=
  (List.range 4).foldl (fun m i => if off ≤ 32 * i ∧ 32 * i + 32 ≤ off + n then m ||| (1#4 <<< i) else m) 0

/-- Bytes of a set of sectors. -/
def sectorBytes (m : BitVec 4) : Nat := 32 * ((List.range 4).countP fun i => m.getLsbD i)

/-- A die's copy of a line after an access: sectors present and dirty; a fill takes its way as in the LLC. A class without a
way bypasses the L2: what is written goes on to the home. -/
def Hier.l2Keep (h : Hier) (e : Env) (a : Attr) (line die : Nat) (need : BitVec 4) (write : Bool) : Hier :=
  let dirty := if write then need else 0
  match h.l2Line line die with
  | some t =>
    { h with
      l2 := h.l2.put (l2Key line die) { t with sectors := t.sectors ||| need, dirty := t.dirty ||| dirty, used := h.uses, attr := a }
      uses := h.uses + 1 }
  | none =>
    match takeWay (e.cfg a.cls).l2Ways (h.l2Peers line die) with
    | none => if write then h.writeHome e a line need else h
    | some (w, victim) =>
      let h := match victim with
        | some v => h.l2Drop e (v / 8) die
        | none => h
      { h with l2 := h.l2.put (l2Key line die) ⟨need, dirty, w, h.uses, a⟩, uses := h.uses + 1 }.share line die true

/-- A core's access to `n` bytes of a line through its die's L2: missing sectors come from the home; a write takes exclusive
ownership first. Whether the line fails its MAC, and the bytes missed (R111, R243). -/
def Hier.l2Use (h : Hier) (e : Env) (core : Nat) (a : Attr) (line off n : Nat) (write : Bool) : Hier × Bool × Nat :=
  let die := core / 128
  let need := sectorsOf off n
  let have' := match h.l2Line line die with
    | some t => t.sectors
    | none => 0
  let missing := need &&& ~~~have' &&& ~~~(if write then sectorsWhole off n else 0)
  let h := h.recall e line (some die) write
  let r := if missing = 0 then (h, false) else h.atHome e (core / 8) a line false
  (r.1.l2Keep e a line die need write, r.2, sectorBytes missing)

/-! ## Accesses of the package -/

/-- What the hierarchy sees of the package, with the bytes `bs` that a write puts at `pa`. -/
def State.env (s : State) (pa : Nat) (bs : List Byte) : Env :=
  { cfg := s.classCfg, keyOf := s.keySlot, bytes := fun line => (s.mem.wrBytes pa bs).rdBytes (128 * line) 128 }

/-- The words of some sectors of a line. -/
def sectorWords (line : Nat) (sectors : BitVec 4) : List Nat :=
  ((List.range 16).filter fun i => sectors.getLsbD (i / 4)).map (line * 16 + ·)

/-- The words that carry poison after an access: those of its line if it was delivered poisoned, and of sectors that write-backs found
bad. -/
def State.poisonLine (s : State) (line : Nat) (bad : Bool) (failed : List (Nat × BitVec 4)) : List Nat :=
  ((if bad then sectorWords line 15 else []) ++ failed.flatMap fun f => sectorWords f.1 f.2).foldl setInsert s.memPoison

/-- The port that serves a host address: the manual has the host proxy in the home die of the address (R252), and ports on HD0 and
HD1 (R8); which port a home die uses it does not say: the one of its parity (DESIGN CHOICE; log entry 75). -/
def hostPort (pa : Nat) : Nat := home pa false / 32 % 2

/-- The PASID that a launch's VF binds for its tenant (R250). -/
def State.pasidOf (s : State) (launch : Option Nat) : Option (BitVec 20) :=
  (launch.bind s.launchById).bind fun l => s.ports.toList.findSome? fun p => (p.vfs.look l.vf).bind fun v => v.pasids.look l.asid

/-- The PASID under which the hardware makes an access for a tenant that is no launch's own: that of a VF that binds one for it (DESIGN
CHOICE; log entry 75). -/
def State.pasidFor (s : State) (asid : Nat) : Option (BitVec 20) :=
  s.ports.toList.findSome? fun p => p.vfs.findSome? fun kv => kv.2.pasids.look asid

/-- The ports after an access: a translation of the host page that the port does not keep is asked for with the PASID of the access, and
kept (R250). An access without one of its own, a later part of another, takes a translation that the port keeps (DESIGN CHOICE; log
entry 75). -/
def State.portsAfter (s : State) (pa : Nat) (pasid : Option (BitVec 20)) : Vector Port 2 :=
  let p := s.ports[hostPort pa]?.getD ⟨[], [], []⟩
  let page : AtsEntry := ⟨pasid, pa / 4096 * 4096, 4096⟩
  if hostPa pa ∧ !(p.ats.any fun x => x == { page with pasid := pasid.orElse fun _ => x.pasid }) then
    s.ports.setIfInBounds (hostPort pa) { p with ats := page :: p.ats }
  else s.ports

/-- The hierarchy after an access, made under a PASID if it has one. -/
def State.withHier (s : State) (pa : Nat) (h : Hier) (bad : Bool) (pasid : Option (BitVec 20) := none) : State :=
  { s with
    hier := { h with failed := [] }
    memPoison := s.poisonLine (pa / 128) bad h.failed
    ports := s.portsAfter pa pasid }

/-- A home serves a line to an access that is made there: every L2 copy is brought up to date, and a write, or an operation that is
performed at the home, invalidates them all (R111, R112, R125, R200). -/
def State.touchLine (s : State) (e : Env) (a : Attr) (pa : Nat) (write inval : Bool) (cluster : Nat)
    (pasid : Option (BitVec 20)) : State :=
  let r := (s.hier.recall e (pa / 128) none inval).atHome e cluster a (pa / 128) write
  s.withHier pa r.1 r.2 pasid

/-- The line of a place served at its home; `bs` is what a write stores. -/
def State.touch (s : State) (l : Loc) (write : Bool) (cluster : Nat) (bs : List Byte := []) (pasid : Option (BitVec 20) := none)
    (inval : Bool := write) : State :=
  match l with
  | .mem pa tree cls key => s.touchLine (s.env pa bs) ⟨tree, cls, key⟩ pa write inval cluster pasid
  | _ => s

/-- The parts of `n` bytes from an address that lie in one line each: first byte and end. -/
def lineParts (pa n : Nat) : List (Nat × Nat) :=
  (List.range ((pa % 128 + n + 127) / 128)).map fun i =>
    (if i = 0 then pa else (pa / 128 + i) * 128, min (pa + n) ((pa / 128 + i + 1) * 128))

/-- The lines of `n` bytes from a place served at their homes. -/
def State.touchLines (s : State) (l : Loc) (n : Nat) (write : Bool) (cluster : Nat) (bs : List Byte := [])
    (pasid : Option (BitVec 20) := none) (inval : Bool := write) : State :=
  match l with
  | .mem pa tree cls key =>
    (lineParts pa n).foldl (fun (s : State) p => s.touchLine (s.env pa bs) ⟨tree, cls, key⟩ p.1 write inval cluster pasid) s
  | _ => s

/-- Bytes that the hardware itself writes to device memory (records, group tables, parked contexts), at their homes; a DRAM
request that this makes is the home's own. -/
def State.unitWrite (s : State) (pa : Nat) (bs : List Byte) : State :=
  (s.touchLines (.mem pa false 0 0) bs.length true 128 bs).wrLoc (.mem pa false 0 0) bs false

/-- Bytes missed from L2 count toward a launch's intensity (R243). -/
def State.countMiss (s : State) (launch : Option Nat) (bytes : Nat) : State :=
  match launch with
  | some id => s.modLaunch id fun l => { l with missed := l.missed + bytes }
  | none => s

/-- One line of a core's access through its L2. -/
def State.l2Line (s : State) (core : Nat) (launch : Option Nat) (e : Env) (pa n : Nat) (a : Attr) (write : Bool)
    (pasid : Option (BitVec 20)) : State :=
  let r := s.hier.l2Use e core a (pa / 128) (pa % 128) n write
  (s.withHier pa r.1 r.2.1 pasid).countMiss launch r.2.2

/-- A core's access to `n` bytes of a place through its L2, line by line, for a launch, or under a PASID. -/
def State.l2Access (s : State) (core : Nat) (launch : Option Nat) (l : Loc) (n : Nat) (write : Bool) (bs : List Byte := [])
    (pasid : Option (BitVec 20) := s.pasidOf launch) : State :=
  match l with
  | .mem pa tree cls key =>
    (lineParts pa n).foldl (fun (s : State) p =>
      s.l2Line core launch (s.env pa bs) p.1 (p.2 - p.1) ⟨tree, cls, key⟩ write pasid) s
  | _ => s

/-- A line of the LLC evicted; what DRAM then holds. -/
def State.evict (s : State) (line : Nat) : State :=
  if (s.hier.llc.look line).isNone then s else s.withHier (128 * line) (s.hier.llcEvict (s.env 0 []) line) false

/-- A line is the next victim of its class in its set: every way of the class there is taken, and it is the least recently
used of them (R114). -/
def State.nextVictim (s : State) (line : Nat) : Bool :=
  match s.hier.llc.look line with
  | none => false
  | some t =>
    match takeWay (s.classCfg t.attr.cls).llcWays (⟨t.way, t.used, line⟩ :: s.hier.llcPeers t.attr line) with
    | some (_, some v) => v == line
    | _ => false

end Sys2Proof.Machine
end

