-- ==== Sys2Proof/Machine/Float.lean ====
section
/-!
DEFINITION. Number formats and exact arithmetic (spec/07_numbers.md R137–R153). A float is decoded to an exact value
(sign, integer magnitude, power of two), every operation is exact on such values, and one rounding closes it.
-/
namespace Sys2Proof.Machine

open Sys2Proof

/-! ## Formats (R137) -/

/-- A binary format: exponent bits and fraction bits. -/
structure Fmt where
  e : Nat
  f : Nat
  deriving DecidableEq, Repr

def fp32 : Fmt := ⟨8, 23⟩
def bf16 : Fmt := ⟨8, 7⟩
def fp16 : Fmt := ⟨5, 10⟩
def e8m10 : Fmt := ⟨8, 10⟩

def Fmt.width (k : Fmt) : Nat := 1 + k.e + k.f
def Fmt.bias (k : Fmt) : Nat := 2 ^ (k.e - 1) - 1
/-- The weight of the last place of a subnormal, as a power of two. -/
def Fmt.emin (k : Fmt) : Int := 1 - (k.bias : Int) - k.f
def Fmt.expMax (k : Fmt) : Nat := 2 ^ k.e - 1
def Fmt.inf (k : Fmt) (neg : Bool) : Nat := (if neg then 2 ^ (k.e + k.f) else 0) + k.expMax * 2 ^ k.f
def Fmt.maxFinite (k : Fmt) (neg : Bool) : Nat := k.inf neg - 1
/-- The canonical NaN: sign 0, the top fraction bit (R137, R138). -/
def Fmt.nan (k : Fmt) : Nat := k.expMax * 2 ^ k.f + 2 ^ (k.f - 1)

/-- An exact value: NaN, an infinity, or (−1)^neg × m × 2^e. -/
inductive FVal where
  | nan
  | inf (neg : Bool)
  | fin (neg : Bool) (m : Nat) (e : Int)
  deriving DecidableEq, Repr

/-- The value of a bit pattern (R137, R138). -/
def Fmt.value (k : Fmt) (bits : Nat) : FVal :=
  let neg := bits / 2 ^ (k.e + k.f) % 2 == 1
  let ex := bits / 2 ^ k.f % 2 ^ k.e
  let fr := bits % 2 ^ k.f
  if ex = k.expMax then (if fr = 0 then .inf neg else .nan)
  else if ex = 0 then .fin neg fr k.emin
  else .fin neg (2 ^ k.f + fr) (k.emin + ex - 1)

/-! ## Rounding (R141) -/

/-- The rounding modes; the code is that of R65. -/
inductive Rnd where
  | rne | rtz | rup | rdn
  deriving DecidableEq, Repr

def Rnd.ofCode (c : BitVec 2) : Rnd := if c = 0#2 then .rne else if c = 1#2 then .rtz else if c = 2#2 then .rup else .rdn

/-- Whether the magnitude `m` with remainder `rem` of `2^sh` is rounded up. -/
def Rnd.up (r : Rnd) (neg : Bool) (m rem : Nat) (sh : Nat) : Bool :=
  match r with
  | .rne => decide (2 ^ sh < 2 * rem) || (2 * rem == 2 ^ sh && m % 2 == 1)
  | .rtz => false
  | .rup => !neg && rem != 0
  | .rdn => neg && rem != 0

/-- What a rounding reports (R144). -/
structure RFlags where
  inv : Bool
  ovf : Bool
  unf : Bool
  inx : Bool
  deriving DecidableEq, Repr

def RFlags.none : RFlags := ⟨false, false, false, false⟩
def RFlags.invalid : RFlags := ⟨true, false, false, false⟩

/-- The format's bits of (−1)^neg × m × 2^e, rounded once, and what the rounding reports. -/
def Fmt.roundFin (k : Fmt) (r : Rnd) (neg : Bool) (m : Nat) (e : Int) : Nat × RFlags :=
  let sgn := if neg then 2 ^ (k.e + k.f) else 0
  if m = 0 then (sgn, .none) else
  let len : Int := Nat.log2 m + 1
  let q : Int := max (e + len - (k.f + 1)) k.emin
  let sh := (q - e).toNat
  let m0 := if q ≤ e then m * 2 ^ (e - q).toNat else m / 2 ^ sh
  let rem := if q ≤ e then 0 else m % 2 ^ sh
  let m1 := if r.up neg m0 rem sh then m0 + 1 else m0
  let bits := if m1 < 2 ^ k.f then m1 else (q - k.emin).toNat * 2 ^ k.f + m1
  if k.expMax * 2 ^ k.f ≤ bits then
    let toInf := match r with
      | .rne => true
      | .rtz => false
      | .rup => !neg
      | .rdn => neg
    (if toInf then k.inf neg else k.maxFinite neg, ⟨false, true, false, true⟩)
  else (sgn + bits, ⟨false, false, decide (bits ≠ 0 ∧ bits < 2 ^ k.f ∧ rem ≠ 0), rem != 0⟩)

/-- A value rounded to a format. -/
def Fmt.round (k : Fmt) (r : Rnd) (v : FVal) : Nat × RFlags :=
  match v with
  | .nan => (k.nan, .none)
  | .inf neg => (k.inf neg, .none)
  | .fin neg m e => k.roundFin r neg m e

/-- The bits alone. -/
def Fmt.bits (k : Fmt) (r : Rnd) (v : FVal) : Nat := (k.round r v).1

/-! ## Exact operations (R145) -/

def FVal.neg : FVal → FVal
  | .nan => .nan
  | .inf n => .inf (!n)
  | .fin n m e => .fin (!n) m e

/-- The value of an integer times a power of two; zero takes the sign given. -/
def FVal.ofInt (z : Int) (e : Int) (zneg : Bool) : FVal :=
  if z = 0 then .fin zneg 0 e else .fin (decide (z < 0)) z.natAbs e

def signed (neg : Bool) (m : Nat) : Int := if neg then -(m : Int) else m

/-- Exact sum; a zero sum of unlike signs is +0. -/
def FVal.add (a b : FVal) : FVal :=
  match a, b with
  | .nan, _ => .nan
  | _, .nan => .nan
  | .inf n, .inf n' => if n = n' then .inf n else .nan
  | .inf n, .fin _ _ _ => .inf n
  | .fin _ _ _, .inf n => .inf n
  | .fin n m e, .fin n' m' e' =>
    let lo := min e e'
    .ofInt (signed n m * 2 ^ (e - lo).toNat + signed n' m' * 2 ^ (e' - lo).toNat) lo
      (if m = 0 ∧ m' = 0 then n && n' else false)

def FVal.isZero : FVal → Bool
  | .fin _ m _ => m == 0
  | _ => false

/-- Exact product. -/
def FVal.mul (a b : FVal) : FVal :=
  match a, b with
  | .nan, _ => .nan
  | _, .nan => .nan
  | .inf n, .inf n' => .inf (n != n')
  | .inf n, .fin n' m _ => if m = 0 then .nan else .inf (n != n')
  | .fin n m _, .inf n' => if m = 0 then .nan else .inf (n != n')
  | .fin n m e, .fin n' m' e' => .fin (n != n') (m * m') (e + e')

/-- a × 2^z. -/
def FVal.scale (a : FVal) (z : Int) : FVal :=
  match a with
  | .fin n m e => .fin n m (e + z)
  | v => v

/-- A number that rounds as the quotient m ÷ m' does, to any format of at most 24 significand bits: the quotient
with guard bits, and a last bit that tells an inexact one. -/
def quotient (m m' : Nat) : Nat × Int :=
  let sh := 64 + Nat.log2 m'
  let q := m * 2 ^ sh / m'
  (2 * q + (if m * 2 ^ sh % m' = 0 then 0 else 1), -(sh : Int) - 1)

/-- A value that rounds as a ÷ b does (IEEE 754; R202). -/
def FVal.div (a b : FVal) : FVal :=
  match a, b with
  | .nan, _ => .nan
  | _, .nan => .nan
  | .inf _, .inf _ => .nan
  | .inf n, .fin n' _ _ => .inf (n != n')
  | .fin n _ _, .inf n' => .fin (n != n') 0 0
  | .fin n m e, .fin n' m' e' =>
    if m' = 0 then (if m = 0 then .nan else .inf (n != n'))
    else if m = 0 then .fin (n != n') 0 0
    else let q := quotient m m'; .fin (n != n') q.1 (q.2 + e - e')

/-- The integer square root by bits, from `2^fuel` down. -/
def isqrt (fuel m : Nat) : Nat :=
  match fuel with
  | 0 => 0
  | n + 1 =>
    let r := 2 * isqrt n (m / 4)
    if (r + 1) * (r + 1) ≤ m then r + 1 else r

/-- A number that rounds as √(m × 2^e) does. -/
def rootOf (m : Nat) (e : Int) : Nat × Int :=
  let odd : Nat := (e % 2).toNat
  let m1 := m * 2 ^ (odd + 64)
  let r := isqrt (m1.log2 / 2 + 1) m1
  (2 * r + (if r * r = m1 then 0 else 1), (e - odd - 64) / 2 - 1)

/-- A number that rounds as 1 ÷ √(m × 2^e) does, for m > 0 below 2^63 (R152). -/
def rrootOf (m : Nat) (e : Int) : Nat × Int :=
  let odd : Nat := (e % 2).toNat
  let m1 := m * 2 ^ odd
  let r := isqrt 101 (2 ^ 200 / m1)
  (2 * r + (if r * r * m1 = 2 ^ 200 then 0 else 1), -101 - (e - odd) / 2)

/-- A value that rounds as √a does; NaN when a < 0 (R202). -/
def FVal.sqrt (a : FVal) : FVal :=
  match a with
  | .nan => .nan
  | .inf n => if n then .nan else .inf false
  | .fin n m e => if m = 0 then .fin n 0 e else if n then .nan else let r := rootOf m e; .fin false r.1 r.2

/-! ## Comparison (R145) -/

/-- The order of two values, none when one is NaN; −0 = +0. -/
def FVal.cmp (a b : FVal) : Option Ordering :=
  match a, b with
  | .nan, _ => none
  | _, .nan => none
  | .inf n, .inf n' => some (if n = n' then .eq else if n then .lt else .gt)
  | .inf n, .fin _ _ _ => some (if n then .lt else .gt)
  | .fin _ _ _, .inf n => some (if n then .gt else .lt)
  | .fin n m e, .fin n' m' e' =>
    let lo := min e e'
    some (compare (signed n m * 2 ^ (e - lo).toNat) (signed n' m' * 2 ^ (e' - lo).toNat))

def FVal.lt (a b : FVal) : Bool := a.cmp b == some .lt
def FVal.eq (a b : FVal) : Bool := a.cmp b == some .eq
def FVal.le (a b : FVal) : Bool := a.lt b || a.eq b
def FVal.isNeg : FVal → Bool
  | .fin n _ _ => n
  | .inf n => n
  | .nan => false

/-- Minimum and maximum: the other operand when one is NaN, −0 below +0 (R145). -/
def FVal.pick (max : Bool) (a b : FVal) : FVal :=
  match a, b with
  | .nan, b => b
  | a, .nan => a
  | a, b =>
    let aLow := a.lt b || (a.eq b && a.isNeg)
    if max then (if aLow then b else a) else (if aLow then a else b)

/-! ## Integers (R139, R143) -/

/-- A finite value rounded to an integer, and whether it is exact. -/
def roundInt (r : Rnd) (neg : Bool) (m : Nat) (e : Int) : Int × Bool :=
  if 0 ≤ e then (signed neg (m * 2 ^ e.toNat), true)
  else
    let sh := (-e).toNat
    let q := m / 2 ^ sh
    let rem := m % 2 ^ sh
    (signed neg (if r.up neg q rem sh then q + 1 else q), rem == 0)

/-- The integer between `lo` and `hi` that a value converts to; saturating, NaN to 0 (R143). -/
def FVal.toInt (v : FVal) (r : Rnd) (lo hi : Int) : Int × RFlags :=
  match v with
  | .nan => (0, .invalid)
  | .inf n => (if n then lo else hi, .invalid)
  | .fin n m e =>
    let (z, exact) := roundInt r n m e
    if z < lo then (lo, .invalid) else if hi < z then (hi, .invalid)
    else (z, { RFlags.none with inx := !exact })

def q32Min : Int := -(2 ^ 63)
def q32Max : Int := 2 ^ 63 - 1

/-- Saturation to 64 bits. -/
def sat64 (z : Int) : Int := max q32Min (min q32Max z)

/-- A value as Q32.32 (R139). -/
def FVal.toQ32 (v : FVal) : Int := ((v.scale 32).toInt .rne q32Min q32Max).1

/-! ## Decode table and encoder (R146–R149) -/

/-- The value of an E8M10 entry times a scale byte (R148); `none` is the NaN of scale 255. -/
def scaled (entry : Nat) (scale : Option Nat) : FVal :=
  match scale with
  | none => e8m10.value entry
  | some s => if s = 255 then .nan else (e8m10.value entry).scale (s - 127)

/-- The codes whose entries are not NaN, with their values, ascending (R149). -/
def enc8Codes (tab : Nat → Nat) : List (Nat × FVal) :=
  ((List.range 256).map fun c => (c, e8m10.value (tab c))).filter fun x => x.2 != .nan

/-- The first j in [lo, hi] with v(c_j) ≥ x, by halving (R149). -/
def enc8Find (cs : List (Nat × FVal)) (x : FVal) : Nat → Nat → Nat → Nat
  | 0, lo, _ => lo
  | n + 1, lo, hi =>
    if lo < hi then
      let mid := (lo + hi) / 2
      if x.le (cs.getD mid (0, .nan)).2 then enc8Find cs x n lo mid else enc8Find cs x n (mid + 1) hi
    else lo

/-- Enc8 (R149). -/
def enc8 (tab : Nat → Nat) (dtnan : Nat) (x : FVal) : Nat :=
  let cs := enc8Codes tab
  match x, cs with
  | .nan, _ => dtnan
  | _, [] => dtnan
  | x, c0 :: _ =>
    let last := cs.getLastD c0
    if x.le c0.2 then c0.1
    else if last.2.lt x then last.1
    else
      let j := enc8Find cs x 9 0 (cs.length - 1)
      let hi := cs.getD j c0
      let lo := cs.getD (j - 1) c0
      if hi.2.eq x then hi.1
      else if (dist hi.2 x).lt (dist x lo.2) then hi.1
      else lo.1
where
  /-- a − b, with ∞ − finite = ∞. -/
  dist (a b : FVal) : FVal := a.add b.neg

/-! ## Stochastic rounding (R142) -/

/-- A finite or infinite fp32 value into a format with a random word. -/
def Fmt.stochastic (k : Fmt) (v : FVal) (u : Nat) : Nat :=
  match v with
  | .nan => k.nan
  | .inf n => k.inf n
  | .fin n m e =>
    match k.value (k.maxFinite false) with
    | .fin _ mm em =>
      if (FVal.fin false mm em).lt (.fin false m e) then k.inf n
      else
        let t := (k.roundFin .rtz false m e).1
        let up := min (t + 1) (k.maxFinite false)
        let sgn := if n then 2 ^ (k.e + k.f) else 0
        match k.value t, k.value up with
        | .fin _ tm te, .fin _ um ue =>
          let lo := min e (min te ue)
          let a := m * 2 ^ (e - lo).toNat - tm * 2 ^ (te - lo).toNat
          let d := um * 2 ^ (ue - lo).toNat - tm * 2 ^ (te - lo).toNat
          let frac := if d = 0 then 0 else a * 2 ^ 32 / d
          sgn + (if u < frac then up else t)
        | _, _ => sgn + t
    | _ => k.inf n

/-! ## Transcendental functions, to 2^−320 (R152, R202) -/

/-- The scale of the fixed-point numbers below. -/
def fixBits : Nat := 320
def fixOne : Int := 2 ^ fixBits

/-- A fixed-point product. -/
def fixMul (a b : Int) : Int := a * b / fixOne

/-- Σ over the terms of arctan(1/n): fuel, the power 1/n^(2i+1), i. -/
def atanSum (n2 : Int) : Nat → Int → Nat → Int
  | 0, _, _ => 0
  | fuel + 1, p, i =>
    (if i % 2 = 0 then p / (2 * i + 1) else -(p / (2 * i + 1))) + atanSum n2 fuel (p / n2) (i + 1)

/-- π by Machin's formula. -/
def fixPi : Int := 16 * atanSum 25 80 (fixOne / 5) 0 - 4 * atanSum 57121 30 (fixOne / 239) 0

/-- 2 × artanh(z) = 2 Σ z^(2i+1) ÷ (2i+1). -/
def artanhSum (z2 : Int) : Nat → Int → Nat → Int
  | 0, _, _ => 0
  | fuel + 1, p, i => 2 * p / (2 * i + 1) + artanhSum z2 fuel (fixMul p z2) (i + 1)

/-- ln of x, for 1/2 ≤ x ≤ 2. -/
def fixLn (x : Int) : Int :=
  let z := (x - fixOne) * fixOne / (x + fixOne)
  artanhSum (fixMul z z) 110 z 0

def fixLn2 : Int := fixLn (2 * fixOne)

/-- Σ x^i ÷ i!: fuel, the term, i. -/
def expSum (x : Int) : Nat → Int → Nat → Int
  | 0, _, _ => 0
  | fuel + 1, t, i => t + expSum x fuel (fixMul t x / (i + 1)) (i + 1)

/-- e^x for |x| ≤ 1. -/
def fixExp (x : Int) : Int := expSum x 90 fixOne 0

/-- Σ of sine: fuel, the term x^(2i+1)/(2i+1)!, i. -/
def sinSum (x2 : Int) : Nat → Int → Nat → Int
  | 0, _, _ => 0
  | fuel + 1, t, i => t + sinSum x2 fuel (-(fixMul t x2) / ((2 * i + 2) * (2 * i + 3))) (i + 1)

/-- m × 2^e as a fixed-point number. -/
def fixOf (neg : Bool) (m : Nat) (e : Int) : Int :=
  let e' := e + fixBits
  signed neg (if 0 ≤ e' then m * 2 ^ e'.toNat else m / 2 ^ (-e').toNat)

/-- log2 of m × 2^e, m > 0, as a fixed-point number. -/
def fixLog2 (m : Nat) (e : Int) : Int :=
  let k : Int := m.log2
  let x := fixOf false m (-k)
  (k + e) * fixOne + fixLn x * fixOne / fixLn2

/-- 2^(m × 2^e) as mantissa and exponent of two. -/
def exp2Of (neg : Bool) (m : Nat) (e : Int) : Nat × Int :=
  let x := fixOf neg m e
  let n := x / fixOne
  let y := fixExp (fixMul (x - n * fixOne) fixLn2)
  (y.toNat, n - fixBits)

/-- A correctly rounded log2, as an exact value near enough to round like it (R202). -/
def FVal.log2 (v : FVal) : FVal :=
  match v with
  | .nan => .nan
  | .inf n => if n then .nan else .inf false
  | .fin n m e =>
    if m = 0 then .inf true
    else if n then .nan
    else .ofInt (fixLog2 m e) (-(fixBits : Int)) false

/-- A value near the function's exact value for finite nonzero operands, or the exact results of R152. -/
def sfuValue (f : BitVec 3) (v : FVal) : FVal :=
  if f = 0#3 then
    match v with
    | .nan => .nan
    | .inf n => if n then .fin false 0 0 else .inf false
    | .fin n m e =>
      if m = 0 then .fin false 1 0
      else if (FVal.fin false 256 0).lt (.fin false m e) then (if n then .fin false 1 (-300) else .fin false 1 300)
      else let y := exp2Of n m e; .fin false y.1 y.2
  else if f = 1#3 then v.log2
  else if f = 2#3 then
    match v with
    | .fin n 0 _ => .inf n
    | v => (FVal.fin false 1 0).div v
  else if f = 3#3 then
    match v with
    | .nan => .nan
    | .inf n => if n then .nan else .fin false 0 0
    | .fin n m e => if m = 0 then .inf n else if n then .nan else let r := rrootOf m e; .fin false r.1 r.2
  else if f = 4#3 then
    match v with
    | .nan => .nan
    | .inf n => .fin n 1 0
    | .fin n m e =>
      if m = 0 then .fin n 0 0
      else if (FVal.fin false 20 0).lt (.fin false m e) then .fin n (2 ^ 40 - 1) (-40)
      else if (FVal.fin false m e).lt (.fin false 1 (-40)) then .fin n (m * 2 ^ 60 - 1) (e - 60)
      else
        -- tanh x = (E − 1) ÷ (E + 1) with E = e^(2x) = 2^(2x ÷ ln 2)
        let x := fixOf false m e
        let w := 2 * x * fixOne / fixLn2
        let k := w / fixOne
        let y := fixExp (fixMul (w - k * fixOne) fixLn2) * 2 ^ k.toNat
        .ofInt (signed n ((y - fixOne) * fixOne / (y + fixOne)).natAbs) (-(fixBits : Int)) n
  else
    match v with
    | .nan => .nan
    | .inf _ => .nan
    | .fin n m e =>
      if m = 0 then .fin n 0 0
      else if (FVal.fin false m e).lt (.fin false 1 (-60)) then .fin n (m * 2 ^ 80 - 1) (e - 80)
      else
        let x := fixOf false m e
        let r := x - (x / (2 * fixPi)) * (2 * fixPi)
        -- sin on [0, 2π) through the first quadrant
        let (neg, r) := if fixPi ≤ r then (true, r - fixPi) else (false, r)
        let r := if fixPi < 2 * r then fixPi - r else r
        let y := sinSum (fixMul r r) 60 r 0
        .ofInt (signed (n != neg) y.natAbs) (-(fixBits : Int)) n

/-- The bits of a finite fp32 pattern moved by places away from (+) or toward (−) zero. -/
def ulps (bits : Nat) (d : Int) : Nat :=
  let sgn := bits / 2 ^ 31 * 2 ^ 31
  sgn + (max 0 (min 0x7F800000 ((bits % 2 ^ 31 : Nat) + d))).toNat

/-- The result of VSFU before tanh's bound: rcp correctly rounded; the exact results of the table; otherwise a fixed function of
the input within the stated error, the choice among the neighbours being the part's (a free value). -/
def sfuRaw (x : Half) (f : BitVec 3) : Nat :=
  let v := fp32.value x.toNat
  let y := sfuValue f v
  let lo := fp32.bits .rtz y
  let exact := (fp32.value lo) == .nan || (fp32.value lo).eq y || y.cmp (.inf false) == some .eq
  let exactIn := match v with
    | .fin _ m e => m == 0 || (f == 0#3 && (roundInt .rtz false m e).2) || (f != 0#3 && exact)
    | _ => true
  let pick := Config.sfuUp x f
  let far := Config.sfuFree x f
  if f = 2#3 then fp32.bits .rne y
  else if exactIn || fp32.bits .rne y % 2 ^ 31 == 0x7F800000 then fp32.bits .rne y
  else
    let two := f == 4#3 || f == 5#3
    -- two places up only where no binade ends between: beyond it a place is worth two
    let wide := two && far.getLsbD 0 && (!pick || ulps lo 2 / 2 ^ 23 == fp32.bits .rne y / 2 ^ 23)
    let d : Int := (if pick then 1 else 0) + (if wide then (if pick then 1 else -1) else 0)
    ulps lo d

/-- The result of VSFU (R152): tanh never exceeds 1 in magnitude. -/
def sfu (x : Half) (f : BitVec 3) : Half :=
  let r := sfuRaw x f
  BitVec.ofNat 32 (if f = 4#3 ∧ fp32.value x.toNat ≠ .nan ∧ 0x3F800000 < r % 2 ^ 31 then r / 2 ^ 31 * 2 ^ 31 + 0x3F800000 else r)

end Sys2Proof.Machine
end

