-- ==== Sys2Proof/Machine/Operands.lean ====
section
/-!
DEFINITION. Operand forms: reading a source as it stood before the pair, guards, writing a destination, displacements
(spec/03_instruction_words.md R48, R50, R52, R55; spec/19_ref_a_to_d.md R264).
-/
namespace Sys2Proof.Machine

open Sys2Proof

/-! ## Destinations: a slot's own registers -/

/-- s[r]; s0 reads 0 (R55). -/
def Slot.reg (x : Slot) (r : Reg) : Word := if r = 0#5 then 0 else x.s[r.toNat]

/-- p[r]; p0 reads 1 (R55). -/
def Slot.pred (x : Slot) (r : PredIx) : Bool := r == 0#3 || x.p.getLsbD r.toNat

/-- A register write noted for the fingerprint of checked pairing (R189). -/
def Slot.note (x : Slot) (code : Nat) (v : Word) : Slot :=
  if x.coupled then { x with wlog := (code, v) :: x.wlog } else x

/-- s[r] written, which clears poison it carried (R186); a write to s0 is discarded (R55). -/
def Slot.setReg (x : Slot) (r : Reg) (v : Word) : Slot :=
  if r = 0#5 then x else ({ x with s := x.s.set r.toNat v, regPoison := setErase x.regPoison r.toNat }).note r.toNat v

/-- p[r] written, which clears poison it carried (R186); a write to p0 is discarded (R55). -/
def Slot.setPred (x : Slot) (r : PredIx) (v : Bool) : Slot :=
  if r = 0#3 then x
  else
    let bit := 1#8 <<< r.toNat
    ({ x with p := if v then x.p ||| bit else x.p &&& ~~~bit, regPoison := setErase x.regPoison (32 + r.toNat) }).note (32 + r.toNat) (if v then 1 else 0)

/-- c[r] written, by the instructions of R56, which clears poison it carried (R186). -/
def Slot.setCap (x : Slot) (r : CapIx) (v : Cap) : Slot :=
  (((({ x with c := x.c.set r.toNat v, regPoison := setErase x.regPoison (40 + r.toNat) }).note (40 + r.toNat) (v.extractLsb' 0 64)).note (40 + r.toNat)
    (v.extractLsb' 64 64)).note (40 + r.toNat) (v.extractLsb' 128 64)).note (40 + r.toNat) (v.extractLsb' 192 64)

/-- Scalar registers written by code (R189): 0–31 are s0–s31. -/
def Slot.setCodes (x : Slot) (ws : List (Nat × Word)) : Slot :=
  ws.foldl (fun x w => x.setReg (BitVec.ofNat 5 w.1) w.2) x

/-- VLEN of a slot's own grant (R155). -/
def Slot.lanes (x : Slot) : Nat := 16 * x.groups.length

/-! ## Sources: as they stood before the pair (R48) -/

/-- s[r] before the pair. -/
def State.src (s : State) (r : Reg) : Word := if r = 0#5 then 0 else s.lat.s[r.toNat]

/-- p[r] before the pair. -/
def State.psrc (s : State) (r : PredIx) : Bool := r == 0#3 || s.lat.p.getLsbD r.toNat

/-- A guard holds; p0 always does (R50). -/
def State.guard (s : State) (g : PredIx) : Bool := s.psrc g

/-- The current slot's s[r] written. -/
def State.setReg (s : State) (r : Reg) (v : Word) : State := s.modCur (·.setReg r v)

/-- The current slot's p[r] written. -/
def State.setPred (s : State) (r : PredIx) (v : Bool) : State := s.modCur (·.setPred r v)

/-- A displacement: sext(imm12) or sext(ext32), added modulo 2^64 (R52, R264). -/
def State.offset {n : Nat} (s : State) (a : Reg) (imm : BitVec n) : Word := s.src a + sext64 imm

/-- A displacement in words of a CF access: imm9 × 8 (R51, R52). -/
def State.offsetW (s : State) (a : Reg) (imm : BitVec 9) : Word := s.src a + sext64 imm * 8

end Sys2Proof.Machine
end

