-- ==== Sys2Proof/Machine/Flags.lean ====
section
/-!
DEFINITION. The STATUS word and the flags instructions set in it (spec/03_instruction_words.md R59, spec/07_numbers.md
R144): the sticky floating-point flags, and the value CSRR reads.
-/
namespace Sys2Proof.Machine

open Sys2Proof

/-! ## Bits of STATUS (R59) -/

def stFinx : Nat := 8
def stFunf : Nat := 9
def stFovf : Nat := 10
def stFinv : Nat := 11
def stSatf : Nat := 12
def stSageLog : Nat := 13
def stCoupled : Nat := 14
def stPktOpen : Nat := 15
def stGsplit : Nat := 16
def stGanged : Nat := 17

/-- A bit of a word set. -/
def bitOn (w : Word) (n : Nat) : Word := w ||| (1#64 <<< n)

/-- A bit of a word set when a condition holds. -/
def bitIf (b : Bool) (w : Word) (n : Nat) : Word := if b then bitOn w n else w

/-- A field [lo+len-1 : lo] of a word replaced. -/
def setFld (w : Word) (lo len : Nat) (v : Nat) : Word :=
  let mask : Word := BitVec.ofNat 64 ((2 ^ len - 1) * 2 ^ lo)
  (w &&& ~~~mask) ||| BitVec.ofNat 64 ((v % 2 ^ len) * 2 ^ lo)

/-- The fields that a CSRW of STATUS clears by writing 1 (R59): GSPLIT, SAGELOG, SATF and the FP flags. -/
def statusW1C : Word := 0x0000000000013F00

/-- PRIV of a slot is supervisor (R59). -/
def Slot.supervisor (x : Slot) : Bool := fld x.status 18 2 == 1

def Slot.dqcap (x : Slot) : Nat := fld x.status 33 7

/-- STATUS as CSRR reads it: the stored fields with PKTOPEN, GANGED and COUPLED as they stand (R59). -/
def Slot.statusWord (x : Slot) : Word :=
  bitIf x.coupled (bitIf x.packet.isSome (bitIf (x.gang || x.st == .ganged) x.status stGanged) stPktOpen) stCoupled

/-! ## Floating-point flags (R144) -/

/-- The sticky flags of STATUS joined by what an operation reports. -/
def flagStatus (w : Word) (f : RFlags) : Word :=
  bitIf f.inx (bitIf f.unf (bitIf f.ovf (bitIf f.inv w stFinv) stFovf) stFunf) stFinx

/-- An operation that is invalid when its result is NaN (R144): ∞ − ∞, 0 × ∞, a NaN operand. -/
def arith (v : FVal) : Nat × RFlags :=
  match v with
  | .nan => (fp32.nan, .invalid)
  | v => fp32.round .rne v

/-- The current slot's STATUS joined by flags. -/
def State.raise (s : State) (f : RFlags) : State := s.modCur fun x => { x with status := flagStatus x.status f }

end Sys2Proof.Machine
end

