-- ==== Sys2Proof/Machine/Vector.lean ====
section
/-!
DEFINITION. The vector pool (spec/08_engines.md R155–R163, R173, R174; spec/22_ref_t_to_z.md R353–R375): lanes and
rows, what a sequencer entry computes, load and store queues, lane grants and renegotiation.
-/
namespace Sys2Proof.Machine

open Sys2Proof

/-! ## Lanes (R155, R158) -/

def zeros16 : List Half := List.replicate 16 0

/-- The lane groups of a thread in lane order, each with the slot that holds it: the even slot's, then the odd's;
of a saved slot, the groups its rows were saved from (R184). -/
def Core.laneGroups (c : Core) (k : Nat) : List (Nat × Nat) :=
  let x := c.slot k
  let y := c.slot (k + 1)
  let own := (x.groups ++ x.svGroups).map (k, ·)
  if x.gang then own ++ (y.groups ++ y.svGroups).map (k + 1, ·) else own

/-- VLEN of the thread. -/
def Core.vlen (c : Core) (k : Nat) : Nat := 16 * (c.laneGroups k).length

/-- The lanes of v[r]. -/
def Core.vreg (c : Core) (k r : Nat) : List Half :=
  (c.laneGroups k).flatMap fun jg => Sparse.get zeros16 (c.slot jg.1).vrf (32 * jg.2 + r)

/-- The lanes of v[r] written. -/
def Core.setVreg (c : Core) (k r : Nat) (lanes : List Half) : Core :=
  go c (c.laneGroups k) lanes
where
  go (c : Core) : List (Nat × Nat) → List Half → Core
    | [], _ => c
    | (j, g) :: rest, lanes =>
      let x := c.slot j
      go (c.setSlot j { x with
          vrf := x.vrf.put (32 * g + r) (lanes.take 16 ++ List.replicate (16 - lanes.length) 0)
          regPoison := setErase x.regPoison (64 + r) }) rest (lanes.drop 16)

/-! ## Element types (R53, R140) -/

/-- The float format of a type code. -/
def typeFmt (t : BitVec 3) : Fmt := if t = 3#3 then bf16 else if t = 4#3 then fp16 else if t = 5#3 then e8m10 else fp32

def typeFloat (t : BitVec 3) : Bool := (2#3).ule t

/-- The bits of a value of the type, in a lane. -/
def typeBits (t : BitVec 3) (x : Half) : Half :=
  if typeFloat t then BitVec.ofNat 32 (x.toNat % 2 ^ (typeFmt t).width) else x

/-- The float value of a lane read in the type. -/
def laneVal (t : BitVec 3) (x : Half) : FVal := (typeFmt t).value (x.toNat % 2 ^ (typeFmt t).width)

/-- A value rounded to the type, RNE, as a lane (R145). -/
def laneOf (t : BitVec 3) (v : FVal) : Half := BitVec.ofNat 32 ((typeFmt t).bits .rne v)

/-- The order of two lanes of the type; none when one is NaN (R145). -/
def laneCmp (t : BitVec 3) (a b : Half) : Option Ordering :=
  if t = 0#3 then some (compare a.toInt b.toInt)
  else if t = 1#3 then some (compare a.toNat b.toNat)
  else (laneVal t a).cmp (laneVal t b)

/-- A lane placed in a scalar register (R140). -/
def laneScalar (t : BitVec 3) (x : Half) : Word := if t = 0#3 then x.signExtend 64 else (typeBits t x).setWidth 64

/-! ## Lane operations -/

def laneAdd (t : BitVec 3) (a b : Half) : Half :=
  if typeFloat t then laneOf t ((laneVal t a).add (laneVal t b)) else a + b
def laneSub (t : BitVec 3) (a b : Half) : Half :=
  if typeFloat t then laneOf t ((laneVal t a).add (laneVal t b).neg) else a - b
def laneMul (t : BitVec 3) (a b : Half) : Half :=
  if typeFloat t then laneOf t ((laneVal t a).mul (laneVal t b)) else a * b
def laneFma (t : BitVec 3) (d a b : Half) : Half := laneOf t (((laneVal t a).mul (laneVal t b)).add (laneVal t d))

/-- VMIN and VMAX (R367). -/
def laneMinMax (max : Bool) (t : BitVec 3) (a b : Half) : Half :=
  if typeFloat t then laneOf t (FVal.pick max (laneVal t a) (laneVal t b))
  else
    let less := laneCmp t a b == some .lt
    if max then (if less then b else a) else (if less then a else b)

/-- VCMP by its condition: eq, lt, le, ne (R356). -/
def laneCompare (x : BitVec 2) (t : BitVec 3) (a b : Half) : Half :=
  let r := laneCmp t a b
  let hold :=
    if x = 0#2 then r == some .eq
    else if x = 1#2 then r == some .lt
    else if x = 2#2 then r == some .lt || r == some .eq
    else r != some .eq
  if hold then BitVec.allOnes 32 else 0

/-- The number of a rounding, for a free value. -/
def Rnd.num (r : Rnd) : Nat := if r = .rne then 0 else if r = .rtz then 1 else if r = .rup then 2 else 3

/-- VCVT of one lane from type `f` to `t` (R357). R143 says that conversions from an integer never overflow, which every
destination but fp16 bears out. For an integer that R141 rounds to an fp16 infinity they give no common value: it is free which of the
infinity and the largest finite value of that sign results (DESIGN CHOICE, safe; log entry 65). -/
def laneConvert (f t : BitVec 3) (r : Rnd) (x : Half) : Half :=
  let v : FVal := if f = 0#3 then .ofInt x.toInt 0 false else if f = 1#3 then .ofInt x.toNat 0 false else laneVal f x
  if t = 0#3 then BitVec.ofInt 32 (v.toInt r (-(2 ^ 31)) (2 ^ 31 - 1)).1
  else if t = 1#3 then BitVec.ofInt 32 (v.toInt r 0 (2 ^ 32 - 1)).1
  else
    let b := (typeFmt t).bits r v
    if t = 4#3 ∧ f.toNat < 2 ∧ b % 0x8000 = 0x7C00 ∧ !Config.cvtInf x f r.num then BitVec.ofNat 32 (b - 1)
    else BitVec.ofNat 32 b

/-- The rounding of a VCVT: RNE, RTZ, or RUP and RDN by b[3] (R67). -/
def vcvtRnd (r : BitVec 2) (b : Reg) : Rnd :=
  if r = 0#2 then .rne else if r = 1#2 then .rtz else if b.getLsbD 3 then .rdn else .rup

/-- VSCL (R372). -/
def laneScale (t : BitVec 3) (a b : Half) : Half := laneOf t ((laneVal t a).scale b.toInt)

/-- VRAND's fixed function (R370). -/
def vrand (key ctr : Word) (lane : Nat) : Half :=
  let x := key ^^^ (ctr * 0x9E3779B97F4A7C15#64) ^^^ (BitVec.ofNat 64 lane * 0xD1B54A32D192ED03#64)
  let z := x + 0x9E3779B97F4A7C15#64
  let z := (z ^^^ (z >>> 30)) * 0xBF58476D1CE4E5B9#64
  let z := (z ^^^ (z >>> 27)) * 0x94D049BB133111EB#64
  let z := z ^^^ (z >>> 31)
  z.extractLsb' 32 32

/-- A key interval visible to a query interval (R170). -/
def visible (key query : Half) : Bool :=
  (key.extractLsb' 0 16).ule (query.extractLsb' 0 16) && (query.extractLsb' 16 16).ule (key.extractLsb' 16 16)

/-! ## Reductions (R151, R371) -/

def redSum (t : BitVec 3) (xs : List Half) : Word :=
  if t = 0#3 then xs.foldl (fun acc x => acc + x.signExtend 64) 0
  else if t = 1#3 then xs.foldl (fun acc x => acc + x.setWidth 64) 0
  else if t = 6#3 then BitVec.ofInt 64 (xs.foldl (fun acc x => sat64 (acc + (laneVal 2#3 x).toQ32)) 0)
  else
    match xs with
    | [] => 0
    | x :: rest => BitVec.ofNat 64 (rest.foldl (fun acc y => fp32.bits .rne ((fp32.value acc).add (laneVal t y)))
        (fp32.bits .rne (laneVal t x)))

def redMinMax (max : Bool) (t : BitVec 3) (xs : List Half) : Word :=
  match xs with
  | [] => if typeFloat t then BitVec.ofNat 64 (typeFmt t).nan else 0
  | x :: rest =>
    let r := rest.foldl (laneMinMax max t) x
    laneScalar t (if typeFloat t then laneOf t (laneVal t r) else r)

/-! ## Selection (R153, R174, R364, R365) -/

/-- An entry: value lane and index. -/
abbrev Entry := Half × Half

/-- A valid entry: not NaN, index not all ones. -/
def entryValid (t : BitVec 3) (e : Entry) : Bool := (laneCmp t e.1 e.1).isSome && e.2 != BitVec.allOnes 32

/-- Entry a comes before entry b. -/
def entryBefore (small : Bool) (t : BitVec 3) (a b : Entry) : Bool :=
  match laneCmp t a.1 b.1 with
  | some .gt => !small
  | some .lt => small
  | some .eq => a.2.ult b.2
  | none => false

/-- Insertion after every entry that does not come after it. R153 orders valid entries by value and index, −0 = +0, and gives two entries
of one value and one index no order: the model keeps them in the order they stand in the input, and VKSEL's candidates before the
running set (DESIGN CHOICE, unsafe; log entry 82). -/
def entryInsert (small : Bool) (t : BitVec 3) (e : Entry) : List Entry → List Entry
  | [] => [e]
  | x :: rest => if entryBefore small t e x then e :: x :: rest else x :: entryInsert small t e rest

/-- The valid entries in order, zeros above their values (R140). -/
def entrySort (small : Bool) (t : BitVec 3) (es : List Entry) : List Entry :=
  ((es.filter (entryValid t)).map fun e => (typeBits t e.1, e.2)).foldl (fun acc e => entryInsert small t e acc) []

/-- The filler of a place beyond the count (R153). -/
def filler (small : Bool) (t : BitVec 3) : Entry :=
  let v : Half :=
    if t = 0#3 then (if small then 0x7FFFFFFF else 0x80000000)
    else if t = 1#3 then (if small then 0xFFFFFFFF else 0)
    else BitVec.ofNat 32 ((typeFmt t).inf (!small))
  (v, BitVec.allOnes 32)

/-- The entries followed by fillers, `n` places in all. -/
def padEntries (small : Bool) (t : BitVec 3) (n : Nat) (es : List Entry) : List Entry :=
  (es ++ List.replicate n (filler small t)).take n

/-! ## Queues -/

/-- The head row of a load queue, if it has arrived. -/
def Slot.lqHead (x : Slot) (q : Nat) : Option (List Half) :=
  match x.lq[q]?.getD [] with
  | .arrived lanes :: _ => some lanes
  | _ => none

def Slot.lqPop (x : Slot) (q : Nat) : Slot := { x with lq := x.lq.setIfInBounds q ((x.lq[q]?.getD []).tail) }

/-- A store-queue head can take a row: 8 rows (R160). -/
def Slot.sqRoom (x : Slot) (q : Nat) : Bool := (x.sqRows[q]?.getD []).length < 8

def Slot.sqPush (x : Slot) (q : Nat) (row : List Half) : Slot :=
  { x with sqRows := x.sqRows.setIfInBounds q ((x.sqRows[q]?.getD []) ++ [row]) }

/-- The size in bytes of an element of an LQ or SQ kind (R61). -/
def lqSize (k : BitVec 4) : Nat := if k = 0#4 ∨ k = 1#4 ∨ k = 7#4 then 1 else if k = 6#4 then 4 else 2
def sqSize (k : BitVec 4) : Nat := if k = 0#4 then 4 else if k = 3#4 ∨ k = 4#4 ∨ k = 7#4 then 1 else 2

/-- An element widened into a lane (R61). -/
def lqWiden (k : BitVec 4) (v : Nat) : Half :=
  if k = 0#4 then (BitVec.ofNat 8 v).signExtend 32
  else if k = 2#4 then (BitVec.ofNat 16 v).signExtend 32
  else if k = 4#4 then BitVec.ofNat 32 (fp32.bits .rne (bf16.value v))
  else if k = 5#4 then BitVec.ofNat 32 (fp32.bits .rne (fp16.value v))
  else BitVec.ofNat 32 v

/-- Saturation between two bounds. -/
def clampTo (lo hi z : Int) : Int := max lo (min hi z)

/-- A lane converted to an element (R61). -/
def sqNarrow (tab : Nat → Nat) (dtnan : Nat) (k : BitVec 4) (x : Half) : Nat :=
  if k = 0#4 then x.toNat
  else if k = 1#4 then bf16.bits .rne (fp32.value x.toNat)
  else if k = 2#4 then fp16.bits .rne (fp32.value x.toNat)
  else if k = 3#4 then (BitVec.ofInt 8 (clampTo (-128) 127 x.toInt)).toNat
  else if k = 4#4 then min x.toNat 255
  else if k = 5#4 then (BitVec.ofInt 16 (clampTo (-32768) 32767 x.toInt)).toNat
  else if k = 6#4 then min x.toNat 65535
  else enc8 tab dtnan (fp32.value x.toNat)

/-- Dec8 of the core's table (R146). -/
def Core.dec8 (c : Core) (code : Nat) : Nat := (Sparse.get 0 c.dtab code).toNat

/-- The check that a store of the strand in a slot is still to have when it is performed (R131). -/
def Slot.pathCheck (x : Slot) (checked : Bool) (dva scope : Nat) : Option PathCheck :=
  if checked then some ⟨dva, x.launch.getD 0, x.strand, x.group, x.ival, scope⟩ else none

/-- A store enters a core's path as a plain store: a hit updates the L1 line (R110, R118). -/
def Core.enter (c : Core) (p : PathStore) : Core :=
  { c with path := c.path ++ [p] }.refreshL1 p.loc p.bytes p.poison

/-- The C-slot of the pair that a slot has begun, if it is to issue again. -/
def Slot.begunC (x : Slot) : Option Instr :=
  if x.since.isNone then none
  else match decodeGroup x.begun.1 x.begun.2 with
    | .ok (c, _) => some c
    | .error _ => none

/-- The cc at which a DTWR that waits in a slot first issued (R147). -/
def Slot.dtwrSince (x : Slot) : Option Nat :=
  match x.begunC with
  | some (.dtwr ..) => x.since
  | _ => none

/-- A slot of the core waits in DTWR: the cc at which the oldest such DTWR issued. -/
def Core.tableWaiter (c : Core) : Option Nat := (c.slots.toList.filterMap Slot.dtwrSince).min?

/-- Code8 work of a cc waits until a DTWR that issued before it has written its entry (R147). The manual does not order a DTWR with the
code8 entry of its own pair's A-slot: neither waits for the other (DESIGN CHOICE, safe; log entry 101). -/
def Core.tableHolds (c : Core) (at' : Nat) : Bool := c.tableWaiter.any (· < at')

/-- A sequencer entry that uses the decode table. -/
def SeqEntry.code8 (e : SeqEntry) : Bool :=
  match e.op with
  | .vdec .. | .venc .. => true
  | _ => false

/-- An item of a sequencer with such an entry handed before a cc. -/
def SeqItem.code8 (since : Nat) : SeqItem → Bool
  | .one e => e.code8 && e.at' < since
  | .run _ _ _ _ es => es.any fun e => e.code8 && e.at' < since

/-- Entries that pre-emption saved are not waited for (R147). Their order with a DTWR that waits as their slot goes on the manual leaves
open: they count as handed then (DESIGN CHOICE; log entry 101). -/
def SeqItem.handedAt (t : Nat) : SeqItem → SeqItem
  | .one e => .one { e with at' := t }
  | .run n count pass pos es => .run n count pass pos (es.map fun e => { e with at' := t })

/-- A drain that has to wait for a DTWR. -/
def Core.drainHeld (c : Core) (d : Drain) : Bool := d.kind == 7#4 && c.tableHolds d.since

/-- A written row meets its queued drain: its elements are converted and enter the core's store path (R160). -/
def Core.drainOne (c : Core) (k q : Nat) : Option Core :=
  let x := c.slot k
  match x.drains[q]?.getD [], x.sqRows[q]?.getD [] with
  | d :: ds, row :: rows =>
    if c.drainHeld d then none
    else
    let stores := (d.elems.zip row).map fun ev =>
      PathStore.mk k ev.1.1 (bytesOfNat (sqSize d.kind) (sqNarrow c.dec8 x.dtnan.toNat d.kind ev.2)) false false d.at'
        (x.pathCheck d.sage ev.1.2 1) none none
    some ((stores.foldl Core.enter c).setSlot k
      { x with drains := x.drains.setIfInBounds q ds, sqRows := x.sqRows.setIfInBounds q rows })
  | _, _ => none

/-- The store queue whose oldest drain is older: rows enter the path in program order (R161). -/
def Slot.oldestDrain (x : Slot) : Nat :=
  match x.drains[0]?.getD [], x.drains[1]?.getD [] with
  | [], _ => 1
  | _, [] => 0
  | d :: _, e :: _ => if e.at' < d.at' then 1 else 0

/-- Every drain whose turn has come and whose row is written enters the path; 16 drains are queued at most. -/
def Core.drainRows (c : Core) (k : Nat) : Core := go c 17
where
  go (c : Core) : Nat → Core
    | 0 => c
    | n + 1 =>
      match c.drainOne k (c.slot k).oldestDrain with
      | some c => go c n
      | none => c

/-- The drains of every slot of a core that is not SAVED. -/
def Core.drainAll (c : Core) : Core :=
  (List.range 16).foldl (fun c k => if (c.slot k).st = .saved then c else c.drainRows k) c

/-! ## What one entry does (R353) -/

/-- How an entry's turn ended: it waits, it has moved on, or it is done. -/
inductive SeqResult where
  | wait
  | more (c : Core) (e : SeqEntry)
  | done (c : Core)

/-- Operand a or b of an entry: a register, or a load-queue head; none while the head is empty. -/
def Core.operand (c : Core) (k : Nat) (q : BitVec 1) (r : Reg) : Option (List Half) :=
  if q = 0#1 then some (c.vreg k r.toNat)
  else if c.vlen k = 0 then some [] else (c.slot k).lqHead r.toNat

/-- The load-queue heads that an operation names, each popped once (R54, R353). -/
def Core.popHeads (c : Core) (k : Nat) (o : VOp) (useB : Bool) : Core :=
  if c.vlen k = 0 then c
  else
    let x := c.slot k
    let x := if o.qa = 1#1 then x.lqPop o.a.toNat else x
    let x := if useB && o.qb = 1#1 && !(o.qa = 1#1 && o.a = o.b) then x.lqPop o.b.toNat else x
    c.setSlot k x

/-- The destination can be written. -/
def Core.destRoom (c : Core) (k : Nat) (o : VOp) : Bool :=
  o.qd == 0#1 || c.vlen k == 0 || (c.slot k).sqRoom o.d.toNat

/-- A result row into v[d] or the store queue it names, where it stays. -/
def Core.keepRow (c : Core) (k : Nat) (o : VOp) (row : List Half) : Core :=
  if c.vlen k = 0 then c
  else if o.qd = 0#1 then c.setVreg k o.d.toNat row
  else c.setSlot k ((c.slot k).sqPush o.d.toNat row)

/-- A result row into v[d], or into the store queue it names and from there into the store path if a drain waits for it. -/
def Core.putRow (c : Core) (k : Nat) (o : VOp) (row : List Half) : Core :=
  if o.qd = 0#1 then c.keepRow k o row else (c.keepRow k o row).drainRows k

/-- Lanes 0 to VLEN − 1 of an operand. A load-queue row has the length that VLEN had at its LQ: where VLEN has grown since, the lanes
beyond the row read as 0, here and in a reduction; the manual says nothing of them (DESIGN CHOICE, unsafe; log entry 83). -/
def Core.lanesIn (c : Core) (k : Nat) (row : List Half) : List Half := (List.range (c.vlen k)).map fun l => row.getD l 0

/-- An entry that maps lanes of a and b (and d) to a row; lanes beyond a load-queue row are those of `Core.lanesIn`. -/
def Core.lanewise (c : Core) (k : Nat) (o : VOp) (useB : Bool) (f : Half → Half → Half → Nat → Half) : SeqResult :=
  match c.operand k o.qa o.a, (if useB then c.operand k o.qb o.b else some (List.replicate (c.vlen k) 0)) with
  | some as, some bs =>
    if c.destRoom k o then
      let ds := if o.qd = 0#1 then c.vreg k o.d.toNat else []
      let row := (List.range (c.vlen k)).map fun l => f (ds.getD l 0) (as.getD l 0) (bs.getD l 0) l
      .done ((c.popHeads k o useB).putRow k o row)
    else .wait
  | _, _ => .wait

/-- A row that depends on scalars and the lane number only. -/
def Core.generate (c : Core) (k : Nat) (o : VOp) (f : Nat → Half) : SeqResult :=
  if c.destRoom k o then .done (c.putRow k o ((List.range (c.vlen k)).map f)) else .wait

/-- A scalar result: the register is written and the slot's wait ends (R159). The context of a faulted slot is in its
save area, so the register is written there too (R183). -/
def Core.scalarDone (c : Core) (k : Nat) (d : Reg) (v : Word) : Core :=
  let x := (c.slot k).setReg d v
  let c := c.setSlot k { x with seqReply := false, st := if x.st = .reply && x.reply.isNone then .ready else x.st }
  if x.st = .faulted && d != 0#5 then { c with lm := c.lm.wrBytes (0x400 * k + 8 * d.toNat) (bytesOfNat 8 v.toNat) } else c

/-- The pair v[r], v[r+1] as entries. -/
def Core.entries (c : Core) (k r : Nat) : List Entry :=
  (List.range (c.vlen k)).map fun l => ((c.vreg k r).getD l 0, (c.vreg k (r + 1)).getD l 0)

def Core.putEntries (c : Core) (k r : Nat) (es : List Entry) : Core :=
  (c.setVreg k r (es.map (·.1))).setVreg k (r + 1) (es.map (·.2))

/-- Rows of entries, `n` lanes each. -/
def rowsOf (n : Nat) : Nat → List Entry → List (List Half × List Half)
  | 0, _ => []
  | m + 1, es => ((es.take n).map (·.1), (es.take n).map (·.2)) :: rowsOf n m (es.drop n)

/-- VKSEL (R364, R365). -/
def Core.vksel (c : Core) (k : Nat) (small : Bool) (o : VOp) (e : SeqEntry) : SeqResult :=
  let n := c.vlen k
  let kk := min e.x.toNat 4096
  if n = 0 then .done (c.scalarDone k o.b 0)
  else
    let m := (kk + n - 1) / n
    match e.push with
    | some ((vs, is) :: rest) =>
      let x := c.slot k
      if x.sqRoom 0 && x.sqRoom 1 then
        let c := (c.setSlot k ((x.sqPush 0 vs).sqPush 1 is)).drainRows k
        if rest.isEmpty then .done (c.scalarDone k o.b e.y) else .more c { e with push := some rest }
      else .wait
    | some [] => .done (c.scalarDone k o.b e.y)
    | none =>
      if e.pops.length < m - 1 then
        match (c.slot k).lqHead 0, (c.slot k).lqHead 1 with
        | some vs, some is =>
          .more (c.setSlot k (((c.slot k).lqPop 0).lqPop 1)) { e with pops := e.pops ++ [(vs, is)] }
        | _, _ => .wait
      else
        let run := c.entries k o.d.toNat ++ e.pops.flatMap fun r => (r.1.zip r.2).take n
        let sorted := (entrySort small o.t (c.entries k o.a.toNat ++ run)).take kk
        let all := padEntries small o.t (max m 1 * n) sorted
        let c := c.putEntries k o.d.toNat (all.take n)
        let count := BitVec.ofNat 64 sorted.length
        if m ≤ 1 then .done (c.scalarDone k o.b count)
        else .more c { e with push := some (rowsOf n (m - 1) (all.drop n)), y := count }

/-- One turn of an entry other than VSFU (R353). -/
def Core.runEntry (c : Core) (k : Nat) (e : SeqEntry) : SeqResult :=
  match e.op with
  | .vadd o => c.lanewise k o true fun _ a b _ => laneAdd o.t a b
  | .vsub o => c.lanewise k o true fun _ a b _ => laneSub o.t a b
  | .vmul o => c.lanewise k o true fun _ a b _ => laneMul o.t a b
  | .vfma o => c.lanewise k o true fun d a b _ => laneFma o.t d a b
  | .vmin o => c.lanewise k o true fun _ a b _ => laneMinMax false o.t a b
  | .vmax o => c.lanewise k o true fun _ a b _ => laneMinMax true o.t a b
  | .vcmp x o => c.lanewise k o true fun _ a b _ => laneCompare x o.t a b
  | .vsel o => c.lanewise k o true fun d a b _ => typeBits o.t (if d = 0 then b else a)
  | .vcvt r o =>
    if r = 3#2 then c.lanewise k o true fun _ a b _ => BitVec.ofNat 32 ((typeFmt o.t).stochastic (fp32.value a.toNat) b.toNat)
    else c.lanewise k o false fun _ a _ _ => laneConvert (o.b.extractLsb' 0 3) o.t (vcvtRnd r o.b) a
  | .vdec sc o =>
    c.lanewise k o (sc == 1#1) fun _ a b _ =>
      laneOf o.t (scaled (c.dec8 (a.toNat % 256)) (if sc = 1#1 then some (b.toNat % 256) else none))
  | .venc o => c.lanewise k o false fun _ a _ _ => BitVec.ofNat 32 (enc8 c.dec8 (e.y.toNat % 256) (laneVal o.t a))
  | .vscl o => c.lanewise k o true fun _ a b _ => laneScale o.t a b
  | .vperm o =>
    let as := (c.operand k o.qa o.a).getD []
    c.lanewise k o true fun _ _ b _ => if b.toNat < c.vlen k then typeBits o.t (as.getD b.toNat 0) else 0
  | .vimask o => c.lanewise k o false fun _ a _ _ => if visible a (e.y.extractLsb' 0 32) then BitVec.allOnes 32 else 0
  | .vbcast o => c.generate k o fun _ => typeBits o.t (e.x.extractLsb' 0 32)
  | .vidx o => c.generate k o fun l => BitVec.ofNat 32 (e.x.toNat + l)
  | .vrand o => c.generate k o fun l => vrand e.x e.y l
  | .vred x o =>
    match c.operand k o.qa o.a with
    | some as =>
      let as := c.lanesIn k as
      let v := if x = 0#2 then redSum o.t as else redMinMax (x == 1#2) o.t as
      .done ((c.popHeads k o false).scalarDone k o.d v)
    | none => .wait
  | .vextr o =>
    match c.operand k o.qa o.a with
    | some as =>
      .done ((c.popHeads k o false).scalarDone k o.d
        (if e.y.toNat < c.vlen k then laneScalar o.t (as.getD e.y.toNat 0) else 0))
    | none => .wait
  | .vsort x o =>
    let sorted := entrySort (x == 1#1) o.t (c.entries k o.a.toNat)
    let c' := if c.vlen k = 0 then c
      else c.putEntries k o.d.toNat (padEntries (x == 1#1) o.t (c.vlen k) sorted)
    .done (c'.scalarDone k o.b (BitVec.ofNat 64 sorted.length))
  | .vksel x o => c.vksel k (x == 1#1) o e
  | .vsync _ => .done (c.scalarDone k 0 0)
  | _ => .done c

/-! ## The sequencer (R159, R162) -/

/-- Entries the sequencer holds: a run holds all of its own until its last pass, and in that pass those that have still to run (R159, R162,
R177, R385). -/
def seqLeft (q : List SeqItem) : Nat :=
  q.foldl (fun n i => n + match i with
    | .one _ => 1
    | .run n count pass pos es => if es.length < n ∨ pass + 1 < count then es.length else es.length - pos) 0

/-- A run is still being handed (R162). -/
def runOpen (q : List SeqItem) : Bool :=
  match q.getLast? with
  | some (.run n _ _ _ es) => es.length < n
  | _ => false

/-- An entry handed to the sequencer: into the run being handed, or after everything else. -/
def hand (q : List SeqItem) (e : SeqEntry) : List SeqItem :=
  match q.getLast? with
  | some (.run n count pass pos es) =>
    if es.length < n then q.dropLast ++ [.run n count pass pos (es ++ [e])] else q ++ [.one e]
  | _ => q ++ [.one e]

/-- A run of no passes goes as soon as all of it is handed. -/
def dropEmptyRun (q : List SeqItem) : List SeqItem :=
  q.filter fun i => match i with
    | .run n 0 _ _ es => es.length < n
    | _ => true

/-- The entry the sequencer would run next; a run starts when all of it has been handed (R162). -/
def seqHead (q : List SeqItem) : Option SeqEntry :=
  match q with
  | .one e :: _ => some e
  | .run n count _ pos es :: _ => if count = 0 ∨ es.length < n then none else es[pos]?
  | [] => none

/-- The sequencer after its head entry is done. -/
def seqAdvance (q : List SeqItem) : List SeqItem :=
  match q with
  | .one _ :: rest => rest
  | .run n count pass pos es :: rest =>
    let es := es.map fun e => { e with sent := false, pops := [], push := none }
    if pos + 1 < n then .run n count pass (pos + 1) es :: rest
    else if pass + 1 < count then .run n count (pass + 1) 0 es :: rest
    else rest
  | [] => []

/-- The sequencer with its head entry replaced. -/
def seqReplace (q : List SeqItem) (e : SeqEntry) : List SeqItem :=
  match q with
  | .one _ :: rest => .one e :: rest
  | .run n count pass pos es :: rest => .run n count pass pos (es.set pos e) :: rest
  | [] => []

/-- The head entry of a sequencer takes a turn, if it can: what it needs is there, and no DTWR comes before it (R147). -/
def Core.stepEntry (c : Core) (k : Nat) : Option Core :=
  match seqHead (c.slot k).seq with
  | none => none
  | some e =>
    if e.code8 && c.tableHolds e.at' then none
    else
    match c.runEntry k e with
    | .wait => none
    | .more c e => some (c.setSlot k { c.slot k with seq := seqReplace (c.slot k).seq e })
    | .done c => some (c.setSlot k { c.slot k with seq := seqAdvance (c.slot k).seq })

/-- v[r] of a thread carries poison in one of its halves (R186). -/
def Core.vPoisoned (c : Core) (k r : Nat) : Bool := (c.laneGroups k).any fun jg => (c.slot jg.1).regPoison.contains (64 + r)

/-- The function and operand lanes of a VSFU entry that can be sent: its operand is there, and its store queue has
room (R374). -/
def Core.sfuLanes (c : Core) (k : Nat) (e : SeqEntry) : Option (VOp × List Half) :=
  match e.op with
  | .vsfu o =>
    match c.operand k o.qa o.a with
    | some xs => if c.destRoom k o then some (o, c.lanesIn k xs) else none
    | none => none
  | _ => none

/-- A VSFU entry run to its end at once: the head request completes whatever befalls its slot (R173, R177). -/
def Core.sfuNow (c : Core) (k : Nat) (e : SeqEntry) : Option Core :=
  (c.sfuLanes k e).map fun ox =>
    let c := (c.popHeads k ox.1 false).putRow k ox.1 (ox.2.map fun x => sfu x (ox.1.b.extractLsb' 0 3))
    c.setSlot k { c.slot k with seq := seqAdvance (c.slot k).seq }

/-- The head entry of a thread's sequencer can run, and reads a vector register that carries poison (R186). -/
def Core.eatsPoison (c : Core) (k : Nat) : Bool :=
  match seqHead (c.slot k).seq with
  | none => false
  | some e => (vectorReads e.op).any (c.vPoisoned k) && match e.op with
    | .vsfu _ => !e.sent && (c.sfuLanes k e).isSome
    | _ => (c.stepEntry k).isSome

/-- The entries of a thread run in order while the head can complete, up to one that consumes poison (R177, R186); fuel bounds the
turns taken. -/
def Core.runSeq (c : Core) (k : Nat) : Nat → Core
  | 0 => c
  | n + 1 =>
    match seqHead (c.slot k).seq with
    | none => c
    | some e =>
      if c.eatsPoison k then c
      else
      let next := match e.op with
        | .vsfu _ => c.sfuNow k e
        | _ => c.stepEntry k
      match next with
      | none => c
      | some c => c.runSeq k n

/-! ## Lane grants (R155–R157) -/

/-- Slots of a cluster, as pairs of core and slot. -/
def clusterSlots (cl : Nat) : List (Nat × Nat) :=
  (List.range 8).flatMap fun i => (List.range 16).map fun k => (8 * cl + i, k)

/-- Holders of a lane group other than one slot, and the rows they use. -/
def State.groupUse (s : State) (core slot g : Nat) : Nat × Nat :=
  ((clusterSlots (clusterOf core)).filter (· != (core, slot))).foldl (fun hr ck =>
    let x := s.slot ck.1 ck.2
    if x.groups.contains g then (hr.1 + 1, hr.2 + x.allot) else hr) (0, 0)

/-- A group qualifies for a slot with `n` registers: held, or a free holder place and free rows (R156). -/
def State.groupFree (s : State) (core slot n g : Nat) : Bool :=
  (s.slot core slot).groups.contains g ||
    (let u := s.groupUse core slot g; decide (u.1 < 8 ∧ u.2 + n ≤ 128))

/-- A slot's vector registers cut to the groups and registers it keeps; released lanes and registers read as zero
when they are granted again, and their poison is gone (R155). -/
def Slot.keep (x : Slot) (groups : List Nat) (n : Nat) : Slot :=
  { x with
    groups := groups
    allot := n
    regPoison := x.regPoison.filter fun r => r < 64 || (!groups.isEmpty && decide (r < 64 + n))
    vrf := x.vrf.filter fun kv => groups.contains (kv.1 / 32) && kv.1 % 32 < n }

/-- The groups of a grant of at most `q` groups: held ones first, lowest-numbered first, then the lowest-numbered
that qualify (R156). -/
def State.pickGroups (s : State) (core slot q : Nat) : List Nat :=
  let x := s.slot core slot
  let others := (List.range 16).filter fun g => !x.groups.contains g && s.groupFree core slot x.allot g
  let got := (x.groups ++ others).take q
  (List.range 16).filter got.contains

/-- A slot has a recorded request: of its last CLAIM (R156), or of a saved grant (R182). -/
def Slot.asks (x : Slot) : Bool := x.want != 0 || !x.svGroups.isEmpty

/-- The fair share in lanes (R157). -/
def State.fairShare (s : State) (core : Nat) : Nat :=
  let n := ((clusterSlots (clusterOf core)).filter fun ck =>
    let x := s.slot ck.1 ck.2
    x.groups.length != 0 || x.asks).length
  max 16 (256 / max n 1 / 16 * 16)

/-- A renegotiation point: while another slot of the cluster has a recorded request the cluster may reduce the
grant, to no less than the fair share or the grant itself (R157). The amount is the cluster's, a free value; a gang's grant it never
reduces (DESIGN CHOICE; log entry 5). -/
def State.renegotiate (s : State) (core slot : Nat) : State :=
  let x := s.slot core slot
  let others := (clusterSlots (clusterOf core)).any fun ck => ck != (core, slot) && (s.slot ck.1 ck.2).asks
  if x.gang || x.groups.isEmpty || !others then s
  else
    let g := x.groups.length
    let low := min g (s.fairShare core / 16)
    let (t, s) := s.fresh
    let take := g - Config.lanesTaken t % (g - low + 1)
    s.setSlot core slot (x.keep (x.groups.take take) (if take = 0 then 0 else x.allot))

end Sys2Proof.Machine
end

