-- ==== Sys2Proof/Machine/Access.lean ====
section
/-!
DEFINITION. Addresses: capability checks, the local map, the window, translation and page walks, fault records
(spec/05_memory_and_addressing.md R94–R105), and the ways a C-slot instruction stops before its effect.
-/
namespace Sys2Proof.Machine

open Sys2Proof

/-! ## Ways to stop -/

/-- Why an instruction stops before its effect. -/
inductive Stop where
  /-- A trap of the pair: class and INFO (R175). -/
  | trap (cls info : Nat)
  /-- A trap on the answer of an access: the A-slot has completed (R48). -/
  | answer (cls info : Nat)
  /-- A TLB miss: the slot waits for a walk (R103). -/
  | walk (asid dva : Nat) (kind : Access)
  /-- A failed translation (R105). -/
  | fault (dva cause : Nat) (kind : Access)
  /-- A wait in REPLY, after which the C-slot is reissued. -/
  | reissue (c : ReplyCond)
  /-- A wait in PARKED, after which the C-slot is reissued. -/
  | park (p : Park)
  /-- A race that Sage finds in an access, which is not performed: the accesses checked up to it, by physical address and DVA, its own
  DVA, and whether they write (R135). -/
  | race (checked : List (Nat × Nat)) (dva : Nat) (write : Bool)
  /-- Poison was consumed; the DVA of the data (R186). -/
  | kill (dva : Nat)
  deriving DecidableEq, Repr

/-- The trap classes of R175. -/
def clsIll : Nat := 0x01
def clsSeg : Nat := 0x02
def clsAln : Nat := 0x03
def clsAllot : Nat := 0x04
def clsSys : Nat := 0x05
def clsHblk : Nat := 0x06
def clsPkt : Nat := 0x07
def clsRace : Nat := 0x08
def clsBrk : Nat := 0x09
def clsTrapi : Nat := 0x0A
def clsXperm : Nat := 0x0B
def clsEng : Nat := 0x0C
def clsMchk : Nat := 0x0D
def clsLz : Nat := 0x0F

/-- A check: nothing, or the reason to stop. -/
abbrev Check := Except Stop Unit

/-- Stop unless a condition holds. -/
def need (b : Bool) (e : Stop) : Check := if b then .ok () else .error e

/-! ## Partitions (R98) and the local map (R97) -/

/-- The first offset of the program area. -/
def programArea : Nat := 0x9000

/-- Uses of a local word that the mb row tells apart. -/
inductive LocalUse where
  | ldl | ldh | stf | stfa | ldx | other
  deriving DecidableEq, Repr

/-- An offset names a movement request word. -/
def inMb (off : Nat) : Bool := decide (0x8000 ≤ off ∧ off < 0x8020)

/-- Whether an offset may be used so (R97); `slot` is the issuing slot. An LDX of a movement request word is the movement
slot's alone, whatever the privilege (R92, R97). -/
def localAllowed (sup : Bool) (slot : Nat) (use : LocalUse) (off : Nat) : Bool :=
  if inMb off && use == .ldx then slot == 15
  else sup || decide (programArea ≤ off) ||
    (inMb off &&
      match use with
      | .ldl | .ldh | .stf | .stfa => true
      | .ldx | .other => false)

/-- LMEND of a launch (R98): the end of its partition as its strands name it. -/
def Launch.lmend (l : Launch) (core : Nat) : Nat :=
  match l.seat core with
  | some p => programArea + p.lmsize
  | none => 0x80000

/-- LMEND of the strand in a slot of a core. -/
def State.lmend (s : State) (core : Nat) (x : Slot) : Nat :=
  match s.launchOf x with
  | some l => l.lmend core
  | none => 0x80000

/-- Storage of an offset that a launch names on a core (R98): its partition, or the rows that the core's launches share; none
where the launch holds no partition. -/
def State.place (s : State) (launch : Option Nat) (core off : Nat) : Option Nat :=
  match (launch.bind s.launchById).bind (·.seat core) with
  | some p =>
    if off < programArea then some off
    else if off < programArea + p.lmsize then some (p.pbase + (off - programArea)) else none
  | none => none

/-- A local access of the current slot (R311, R300): SEG, then ALN, then SYS. -/
def State.localLoc (s : State) (off : Word) (size : Nat) (use : LocalUse) : Except Stop Loc := do
  let o := off.toNat
  let x := s.cur
  need (decide (o < s.lmend s.curCore x)) (.trap clsSeg o)
  need (o % size == 0) (.trap clsAln o)
  need (localAllowed x.supervisor s.curSlot use o) (.trap clsSys o)
  match s.place x.launch s.curCore o with
  | some p => .ok (.lm s.curCore p)
  | none => .error (.trap clsSeg o)

/-! ## The window (R94, R95) -/

/-- A DVA lies in the window. -/
def isWindow (dva : Nat) : Bool := dva / 2 ^ 48 % 256 == 0xFE
def winDev (dva : Nat) : Nat := dva / 2 ^ 40 % 256
/-- Die, cluster and core of a window address, as a core number. -/
def winCore (dva : Nat) : Nat := dva / 2 ^ 30 % 1024
def winOff (dva : Nat) : Nat := dva % 2 ^ 19
/-- The window DVA of a local offset of a core. -/
def gwin (dev core off : Nat) : Nat := 0xFE * 2 ^ 48 + dev * 2 ^ 40 + core * 2 ^ 30 + off

/-- The link that traffic for a device leaves on: the primary of its route entry, else the alternate (R235). -/
def State.routeTo (s : State) (dev : Nat) : Option Nat :=
  let r := Sparse.get ⟨none, none⟩ s.routes dev
  let up (k : Nat) : Bool := (s.links[k]?.getD Link.absent).up
  (r.primary.filter up) <|> (r.alternate.filter up)

/-- This device, or a device with a valid route (R95, R235). -/
def State.knowsDevice (s : State) (dev : Nat) : Bool :=
  let r := Sparse.get ⟨none, none⟩ s.routes dev
  dev == s.device || r.primary.isSome || r.alternate.isSome

/-- The virtual channel of a message (R246): an engine's access is copy data. The manual names none for landing-zone requests,
which go as window accesses do, for a record's acceptance, which goes as an answer, nor for a killed slot's withdrawal, which goes as
management (DESIGN CHOICE; log entry 62). -/
def LinkMsg.vc : LinkMsg → Nat
  | .packet .. | .record .. => 2
  | .unit .. => 3
  | .stg .. | .zone .. => 0
  | .stgAck .. | .answer .. | .nack .. | .waiting .. | .accept .. => 1
  | .withdraw .. => 5
  | .access _ slot _ _ op _ _ =>
    if slot % 32 = 16 then 3
    else match op with
      | .atom .. | .cas .. | .ldh .. | .ldf .. | .ldx .. | .stf .. | .stfa .. | .feclr .. => 4
      | _ => 0

/-- A message put into the buffer of its virtual channel. -/
def Link.give (l : Link) (m : LinkMsg) : Link :=
  { l with vcs := l.vcs.setIfInBounds m.vc ((l.vcs[m.vc]?.getD []) ++ [m]) }

/-- A link of the package; none beyond the sixteenth is ever up (R8). -/
def State.link (s : State) (k : Nat) : Link := s.links[k]?.getD Link.absent
def State.modLink (s : State) (k : Nat) (f : Link → Link) : State := { s with links := s.links.setIfInBounds k (f (s.link k)) }

/-- A message given to a link. -/
def State.sendLink (s : State) (link : Nat) (m : LinkMsg) : State := s.modLink link (·.give m)

/-- Traffic given to the link of a device's route. -/
def State.sendTo (s : State) (dev : Nat) (m : LinkMsg) : State :=
  match s.routeTo dev with
  | some k => s.sendLink k m
  | none => s

/-- The number by which a request of another package waits here: its CORELOC and slot (see `LinkMsg`). -/
def peerId (core slot : Nat) : Nat := core + 2 ^ 18 * slot

/-- An answer for a requester in another package, which leaves by the route of the requester's device (R235). -/
def State.tell (s : State) (core : Nat) (m : LinkMsg) : State := s.sendTo (core / 1024) m

/-- An answer to a request of another package. -/
def State.answerId (s : State) (id : Nat) (ws : List Word) : State :=
  s.tell (id % 2 ^ 18) (.answer (id % 2 ^ 18) (id / 2 ^ 18) ws)

/-- The form of a window address: [29:19] zero, and a known device (R95). -/
def State.windowForm (s : State) (dva : Nat) : Bool := dva / 2 ^ 19 % 2 ^ 11 == 0 && s.knowsDevice (winDev dva)

/-- A window access of a launch (R95, R97, R98): SEG of the form or of the partition's end, ALN, then SYS. -/
def State.windowLoc (s : State) (launch : Option Nat) (sup : Bool) (slot dva size : Nat) (use : LocalUse) :
    Except Stop Loc := do
  need (s.windowForm dva) (.trap clsSeg dva)
  let off := winOff dva
  let core := winCore dva
  let mine := winDev dva == s.device
  match (launch.bind s.launchById).bind (·.seat core) with
  | some p => need (!mine || decide (off < programArea + p.lmsize)) (.trap clsSeg dva)
  | none => pure ()
  need (dva % size == 0) (.trap clsAln dva)
  need (localAllowed sup slot use off) (.trap clsSys dva)
  if mine then
    match s.place launch core off with
    | some p => .ok (.lm core p)
    | none => .ok (.noPart dva)
  else .ok (.peer (winDev dva) dva)

/-! ## Translation (R103, R104) -/

/-- Rights of a leaf for an access: a cause of R105 if one is missing. Atomic access reads and writes. -/
def leafCause (pte : Word) (read write : Bool) : Option Nat :=
  if read && !pte.getLsbD 44 then some 2
  else if write && (!pte.getLsbD 45 || pte.getLsbD 47) then some 3
  else none

def Access.reads : Access → Bool
  | .read | .atomic | .image => true
  | _ => false

def Access.writes : Access → Bool
  | .write | .atomic => true
  | _ => false

/-- The place of a DVA under a TLB entry. -/
def TlbEntry.loc (e : TlbEntry) (dva : Nat) : Loc :=
  let size := e.pages * 4096
  let base := fld e.pte 0 40 * 4096 / size * size
  .mem (base + dva % size) (e.pte.getLsbD 48) (fld e.pte 49 6) (fld e.pte 55 8)

def TlbEntry.covers (e : TlbEntry) (asid dva : Nat) : Bool :=
  e.asid == asid && decide (e.page ≤ dva / 4096 ∧ dva / 4096 < e.page + e.pages)

/-- The TLB entry of a DVA in a core's port, or one left by a flushed walk for this slot's access only (R108). -/
def State.tlbFind (s : State) (core : Nat) (x : Slot) (asid dva : Nat) : Option TlbEntry :=
  match (s.cluster (clusterOf core)).tlb.find? (·.covers asid dva) with
  | some e => some e
  | none => (x.grants.map fun g => (⟨asid, g.1, g.2.2, g.2.1⟩ : TlbEntry)).find? (·.covers asid dva)

/-- The ASID of the strand in a slot. -/
def State.asidOf (s : State) (x : Slot) : Nat := ((s.launchOf x).map (·.asid)).getD 0

/-- The cause with which a slot's walk for an access has failed. -/
def Slot.walkFailed (x : Slot) (asid dva : Nat) (kind : Access) : Option Nat :=
  match x.walk with
  | some w => if w.asid = asid ∧ w.dva = dva ∧ w.kind = kind then w.failed else none
  | none => none

/-- Translation of a device DVA for the current slot. -/
def State.xlate (s : State) (dva : Nat) (kind : Access) : Except Stop Loc :=
  let x := s.cur
  match x.walkFailed (s.asidOf x) dva kind with
  | some cause => .error (.fault dva cause kind)
  | none =>
    match s.tlbFind s.curCore x (s.asidOf x) dva with
    | none => .error (.walk (s.asidOf x) dva kind)
    | some e =>
      match leafCause e.pte kind.reads kind.writes with
      | some cause => .error (.fault dva cause kind)
      | none => .ok (e.loc dva)

/-- Whether a page is of the read-only class (R110). -/
def State.pageQ (s : State) (dva : Nat) : Bool :=
  match s.tlbFind s.curCore s.cur (s.asidOf s.cur) dva with
  | some e => e.pte.getLsbD 47
  | none => false

/-! ### Walks -/

/-- How a walk ends: a leaf, a cause of R105, or poison in a page-table entry. -/
inductive WalkResult where
  | leaf (e : TlbEntry)
  | fail (cause : Nat)
  | poison
  deriving DecidableEq, Repr

/-- The place of a page-table entry. R103 and R104 do not say under which KEY, CLASS and T the port reads page tables: 0, 0 and 0
(DESIGN CHOICE, unsafe; log entry 79). -/
def pteLoc (table index : Nat) : Loc := .mem (table + 8 * index) false 0 0

/-- The index of a DVA at a level (R103). -/
def walkIndex (level dva : Nat) : Nat :=
  if level = 0 then dva / 2 ^ 39 % 2 ^ 17 else dva / 2 ^ (39 - 9 * level) % 512

/-- A walk from a level on, at most `fuel` levels; page tables are read at their home (R103, R104). A pointer entry at level 3,
which the manual's list of malformed entries does not name, is reported as malformed: cause 4 (DESIGN CHOICE; log entry 63). -/
def State.walkFrom (s : State) (cl asid dva : Nat) (table level : Nat) : Nat → State × WalkResult
  | 0 => (s, .fail 4)
  | fuel + 1 =>
    let l := pteLoc table (walkIndex level dva)
    let s := s.touch l false cl
    let pte := s.rdWord l
    let size := fld pte 41 2
    if s.poisonedAt l 8 then (s, .poison)
    else if !pte.getLsbD 63 then (s, .fail 1)
    else if pte.getLsbD 40 then (s, .fail 4)
    else if pte.getLsbD 43 then
      let fits := (level = 1 ∧ size = 3) ∨ (level = 2 ∧ size = 2) ∨ (level = 3 ∧ size ≤ 1)
      if !decide fits || (pte.getLsbD 48 && size != 0) then (s, .fail 4)
      else
        let pages := if size = 0 then 1 else if size = 1 then 16 else if size = 2 then 512 else 262144
        (s, .leaf ⟨asid, dva / 4096 / pages * pages, pages, pte⟩)
    else if level = 3 then (s, .fail 4)
    else s.walkFrom cl asid dva (fld pte 0 40 * 4096) (level + 1) fuel

/-- The walk of a DVA; an ASID without a root has no valid entry. -/
def State.walk (s : State) (core asid dva : Nat) : State × WalkResult :=
  match s.roots.find? (·.1 == asid) with
  | none => (s, .fail 1)
  | some (_, root) => s.walkFrom (clusterOf core) asid dva root 0 4

/-- An entry installed in a port of 4,096 entries, the oldest leaving (R103). -/
def State.install (s : State) (core : Nat) (e : TlbEntry) : State :=
  s.modCluster (clusterOf core) fun c =>
    { c with tlb := (e :: c.tlb.filter fun o => o.asid != e.asid || o.page != e.page || o.pages != e.pages).take 4096 }

/-- Translation of an access that hardware makes for a launch: the port's entry, or a walk at once. The error is a
cause of R105, or 0 for poison in a page-table entry. -/
def State.xlateNow (s : State) (core asid dva : Nat) (read write : Bool) : State × Except Nat Loc :=
  let use (s : State) (e : TlbEntry) : State × Except Nat Loc :=
    match leafCause e.pte read write with
    | some cause => (s, .error cause)
    | none => (s, .ok (e.loc dva))
  match (s.cluster (clusterOf core)).tlb.find? (·.covers asid dva) with
  | some e => use s e
  | none =>
    match s.walk core asid dva with
    | (s, .leaf e) => use (s.install core e) e
    | (s, .fail cause) => (s, .error cause)
    | (s, .poison) => (s, .error 0)

/-! ## Global accesses (R100) -/

/-- c[c] of the current slot. -/
def State.cap (s : State) (c : CapIx) : Cap := s.cur.c[c.toNat]

/-- The current generation of a capability-table entry (R99). -/
def Launch.gen (l : Launch) (index : Nat) : BitVec 16 := Sparse.get 0 l.gens index

/-- A capability's GEN is current. -/
def State.genCurrent (s : State) (x : Slot) (c : Cap) : Bool :=
  match s.launchOf x with
  | some l => c.gen == l.gen c.index
  | none => true

/-- The checks of R100 but for alignment, on one access of the current slot; the DVA it names. -/
def State.capDva (s : State) (c : CapIx) (off : Word) (size : Nat) (read write : Bool) : Except Stop Nat := do
  let k := s.cap c
  let o := off.toNat
  need (k.any && (!read || k.r) && (!write || k.w)) (.trap clsSeg o)
  need (decide (o + size ≤ k.limit ∧ k.base + o < 2 ^ 56)) (.trap clsSeg o)
  need (!write || (!k.q && s.genCurrent s.cur k)) (.trap clsSeg o)
  .ok (k.base + o)

/-- CheckGlobal: the DVA of a global access (R100, R95). -/
def State.globalDva (s : State) (c : CapIx) (off : Word) (size : Nat) (read write : Bool) (use : LocalUse) :
    Except Stop Nat := do
  let dva ← s.capDva c off size read write
  if isWindow dva then
    let _ ← s.windowLoc s.cur.launch s.cur.supervisor s.curSlot dva size use
  else need (dva % size == 0) (.trap clsAln dva)
  .ok dva

/-- Where a checked DVA goes: through the window, or to device memory by translation. -/
def State.dvaLoc (s : State) (dva size : Nat) (kind : Access) (use : LocalUse) : Except Stop Loc :=
  if isWindow dva then s.windowLoc s.cur.launch s.cur.supervisor s.curSlot dva size use else s.xlate dva kind

/-- A global access: CheckGlobal, and where it goes (R100, R95). -/
def State.globalLoc (s : State) (c : CapIx) (off : Word) (size : Nat) (read write : Bool) (kind : Access)
    (use : LocalUse) : Except Stop (Loc × Nat) := do
  let dva ← s.globalDva c off size read write use
  let l ← s.dvaLoc dva size kind use
  .ok (l, dva)

/-- The checks of a global access to device memory only, such as a join word: a window address traps SEG (R273, R337). -/
def State.deviceDva (s : State) (c : CapIx) (off : Word) (read write : Bool) : Except Stop Nat := do
  let dva ← s.capDva c off 8 read write
  need (!isWindow dva) (.trap clsSeg off.toNat)
  need (dva % 8 == 0) (.trap clsAln dva)
  .ok dva

/-! ## Notices and fault records (R105, R245, R259) -/

/-- A record of the notification ring; a full ring drops and counts it. -/
def State.notifyWith (s : State) (kind who : Nat) (noAbort : Bool) : State :=
  let full := Config.noticesFull s.tick
  { s with
    tick := s.tick + 1
    noticesLost := if full then s.noticesLost + 1 else s.noticesLost
    notices := if full then s.notices else s.notices ++ [⟨kind, who, s.cc, noAbort⟩] }
def State.notify (s : State) (kind who : Nat) : State := s.notifyWith kind who false

/-- Words as bytes. -/
def bytesOfWords (ws : List Nat) : List Byte := ws.flatMap (bytesOfNat 8)

/-- A tenant without areas. -/
def Tenant.reset : Tenant := ⟨⟨0, 0, 0, 0, 0, 0, 0, 0⟩, 0, 0, [], 0, 0⟩

def State.tenant (s : State) (asid : Nat) : Tenant := Sparse.get Tenant.reset s.tenants asid

/-- The fault queue has no free place. -/
def Tenant.faultFull (t : Tenant) : Bool := decide (t.areas.faultSize ≤ t.faults - t.freed)

/-- Records waiting in a cluster's port (R105). -/
def State.portRecords (s : State) (cl : Nat) : Nat :=
  (s.tenants.flatMap fun (kt : Nat × Tenant) => kt.2.pending).countP fun r => r.1 == cl

/-- A failed translation has to wait in its core: the tenant's fault queue is full and 64 records wait in the port (R105). -/
def State.faultWaits (s : State) (core asid : Nat) : Bool :=
  (s.tenant asid).faultFull && decide (64 ≤ s.portRecords (clusterOf core))

/-- Translation of an access that hardware makes, none while it has to wait in its core: a miss, or a failure, of an address space for
which the port can hold no more fault records (R105). -/
def State.xlateOr (s : State) (core asid dva : Nat) (read write : Bool) : Option (State × Except Nat Loc) :=
  if !s.faultWaits core asid then some (s.xlateNow core asid dva read write)
  else
    match (s.cluster (clusterOf core)).tlb.find? (·.covers asid dva) with
    | some e => if (leafCause e.pte read write).isSome then none else some (s, .ok (e.loc dva))
    | none => none

/-- Records waiting in a port enter the fault queue, a ring, while it has room. -/
def State.flushFaults (s : State) (asid : Nat) : List (Nat × List Byte) → State
  | [] => { s with tenants := s.tenants.put asid { s.tenant asid with pending := [] } }
  | r :: rest =>
    let t := s.tenant asid
    if t.faultFull then { s with tenants := s.tenants.put asid { t with pending := r :: rest } }
    else
      let s := { s with tenants := s.tenants.put asid { t with faults := t.faults + 1 } }
      (s.unitWrite (t.areas.faultQueue + 32 * (t.faults % t.areas.faultSize)) r.2).flushFaults asid rest

/-- The parked-context entry of a slot for a tenant (R106): 1 KiB for each slot of the package, at a physical address. The manual gives the
entries no order: by core and slot (DESIGN CHOICE; log entry 106). -/
def State.parkedEntry (s : State) (core slot asid : Nat) : Nat := (s.tenant asid).areas.parkedArea + 1024 * (16 * core + slot)

/-- The supervisor has read `n` records of a tenant's fault queue: their places are free again. -/
def State.freeFaults (s : State) (asid n : Nat) : State :=
  let t := s.tenant asid
  let s := { s with tenants := s.tenants.put asid { t with freed := min t.faults (t.freed + n) } }
  s.flushFaults asid t.pending

/-- The code of an access kind in a fault record. -/
def Access.code : Access → Nat
  | .read => 0 | .write => 1 | .fetch => 2 | .atomic | .image => 3 | .engine => 4

/-- A fault record (R105): written, or waiting in the port while the fault queue is full. -/
def State.faultRecord (s : State) (core slot asid dva cause : Nat) (kind : Access) (tag : Nat) : State :=
  let r := bytesOfWords [dva, tag * 2 ^ 48 + asid * 2 ^ 36 + cause * 2 ^ 32 + kind.code * 2 ^ 28 + s.slotid core slot, s.cc, 0]
  let t := s.tenant asid
  let s := if t.faultFull && t.pending.isEmpty then s.notify 5 (s.slotid core slot) else s
  s.flushFaults asid ((s.tenant asid).pending ++ [(clusterOf core, r)])

end Sys2Proof.Machine
end

