-- ==== Sys2Proof/Machine/Sage.lean ====
section
/-!
DEFINITION. Sage, the race detector (spec/06_ordering_and_visibility.md R131–R135): strand and group numbers, group
records in the launch's group table, the shadow of a sector, the comparison of two accesses, the race ring.
-/
namespace Sys2Proof.Machine

open Sys2Proof

/-! ## Group records (R133) -/

/-- A group record. -/
structure GroupRec where
  gid      : Nat
  parent   : Nat
  kind     : Nat
  isOpen   : Bool
  spawner  : Nat
  child    : Nat
  openInt  : Nat
  closeInt : Nat
  join     : Nat
  deriving DecidableEq, Repr

/-- The physical address of the record of a launch's group id, if its tenant has a group table. -/
def State.groupAddr (s : State) (l : Launch) (gid : Nat) : Option Nat :=
  if s.tenants.keys.contains l.asid then
    let a := (s.tenant l.asid).areas
    some (a.groupTable + 32 * (gid % 2 ^ a.groupLog))
  else none

/-- The record in a group's place. R245 gives a tenant one table and each launch counts its groups from 1 (R133): a record of
another launch of the tenant there is an overwritten one, and never the launch's (R136). -/
def State.groupRec (s : State) (l : Launch) (gid : Nat) : Option GroupRec :=
  ((s.groupAddr l gid).filter fun a => s.groupOf.look (a / 32) == some l.id).map fun a =>
    let w (i : Nat) : Word := BitVec.ofNat 64 (natOfBytes (s.mem.rdBytes (a + 8 * i) 8))
    ⟨fld (w 0) 40 24, fld (w 0) 16 24, fld (w 0) 1 1, (w 0).getLsbD 0, fld (w 1) 40 24, fld (w 1) 16 24, fld (w 1) 0 16,
     fld (w 2) 48 16, (w 3).toNat⟩

/-- A group record written. -/
def State.writeGroup (s : State) (l : Launch) (r : GroupRec) : State :=
  match s.groupAddr l r.gid with
  | some a =>
    { s with groupOf := s.groupOf.put (a / 32) l.id }.unitWrite a (bytesOfWords
      [r.gid * 2 ^ 40 + r.parent * 2 ^ 16 + r.kind * 2 + (if r.isOpen then 1 else 0),
       r.spawner * 2 ^ 40 + r.child * 2 ^ 16 + r.openInt, r.closeInt * 2 ^ 48, r.join])
  | none => s

/-- The next interval number, saturating (R133). -/
def nextIval (i : BitVec 16) : BitVec 16 := if i = 0xFFFF#16 then i else i + 1

/-- The launch's counter of strands, and of groups, moved on (R133). Once an id has been given twice, what Sage recovers by it may be
another strand's or group's, and no race is reported any more (R136). -/
def Launch.nextStrand (l : Launch) : Launch := { l with strands := l.strands + 1, sageLost := l.sageLost || l.strands + 1 == 0 }
def Launch.nextGroup (l : Launch) : Launch := { l with groups := l.groups + 1, sageLost := l.sageLost || l.groups + 1 == 0 }

/-- SPAWN: a group opened by the strand of a slot, with the child as its only member; the group's id and the child's. -/
def State.openGroup (s : State) (x : Slot) (join : Nat) : BitVec 24 × BitVec 24 × State :=
  match s.launchOf x with
  | none => (0, 0, s)
  | some l =>
    let s := s.modLaunch l.id fun l => l.nextStrand.nextGroup
    (l.groups, l.strands, s.writeGroup l ⟨l.groups.toNat, x.group.toNat, 0, true, x.strand.toNat, l.strands.toNat,
      x.ival.toNat, 0, join⟩)

/-- MIGRATE: a closed group of kind migration without a member; its id. -/
def State.migrateGroup (s : State) (x : Slot) : BitVec 24 × State :=
  match s.launchOf x with
  | none => (0, s)
  | some l =>
    let s := s.modLaunch l.id (·.nextGroup)
    (l.groups, s.writeGroup l ⟨l.groups.toNat, x.group.toNat, 1, false, x.strand.toNat, 0, x.ival.toNat, 0, 0⟩)

/-- An AWAIT completion closes every open group that the strand opened on the join word, at its interval (R133). -/
def State.closeGroups (s : State) (x : Slot) (join : Nat) : State :=
  match s.launchOf x with
  | none => s
  | some l =>
    if s.tenants.keys.contains l.asid then
      (List.range (2 ^ (s.tenant l.asid).areas.groupLog)).foldl (fun s i =>
        match s.groupRec l i with
        | some r =>
          if r.isOpen && r.kind == 0 && r.spawner == x.strand.toNat && r.join == join
              && r.gid % 2 ^ (s.tenant l.asid).areas.groupLog == i then
            s.writeGroup l { r with isOpen := false, closeInt := x.ival.toNat }
          else s
        | none => s) s
    else s

/-- The strand, group and interval that a frame's GROUP field recovers (R133). Where the record has been overwritten nothing
can be recovered: the strand stands in the group that has no record, the groups that it opened are closed by no AWAIT of its own any
more, and from then on Sage reports DEPTH where it would report a race of the launch (R136; DEDUCED; log entry 46). -/
def State.frameStrand (s : State) (l : Launch) (gid : Nat) : State × BitVec 24 × BitVec 24 × BitVec 16 :=
  match (s.groupRec l gid).filter (·.gid == gid) with
  | some r =>
    (s, BitVec.ofNat 24 r.spawner, BitVec.ofNat 24 r.parent,
      if r.kind = 0 then nextIval (BitVec.ofNat 16 r.openInt) else BitVec.ofNat 16 r.openInt)
  | none => (s.modLaunch l.id fun l => { l with sageLost := true }, 0, BitVec.ofNat 24 gid, 0)

/-! ## The comparison (R134) -/

/-- What Sage finds. -/
inductive SageFind where
  | ordered | race | depth
  deriving DecidableEq, Repr

/-- A strand's access as Sage sees it: strand, group, interval. -/
abbrev SageWho := Nat × Nat × Nat

/-- The climb through closed groups: the representative and its interval; none is DEPTH. R134 tests GID after each step to a
parent; the model tests it at the first group too, of the climb and of the descent, so that an overwritten record gives
DEPTH there as well (DESIGN CHOICE; log entry 64). -/
def State.sageClimb (s : State) (l : Launch) : Nat → Nat → Nat → Nat → Option (Nat × Nat)
  | 0, _, _, _ => none
  | fuel + 1, rep, repint, g =>
    if g = 0 then some (rep, repint)
    else
      match s.groupRec l g with
      | none => none
      | some r =>
        if r.gid != g then none
        else if r.isOpen then some (rep, repint)
        else s.sageClimb l fuel r.spawner r.closeInt r.parent

/-- The descent check: was x spawned by rep after repint? none is DEPTH. -/
def State.sageDescends (s : State) (l : Launch) (rep repint : Nat) : Nat → Nat → Option Bool
  | 0, _ => none
  | fuel + 1, h =>
    if h = 0 then some false
    else
      match s.groupRec l h with
      | none => none
      | some r =>
        if r.gid != h then none
        else if r.spawner == rep && decide (repint ≤ r.openInt) then some true
        else s.sageDescends l rep repint fuel r.parent

/-- An access of x against an earlier one; what has been lost or given twice never makes a race (R136). -/
def State.sageCompare (s : State) (l : Launch) (x earlier : SageWho) : SageFind :=
  if earlier.1 = x.1 then .ordered
  else
    match s.sageClimb l 9 earlier.1 earlier.2.2 earlier.2.1 with
    | none => .depth
    | some (rep, repint) =>
      if rep = x.1 then .ordered
      else
        match s.sageDescends l rep repint 9 x.2.1 with
        | none => .depth
        | some true => .ordered
        | some false => if l.sageLost then .depth else .race

/-! ## The shadow and the race ring (R132, R135) -/

/-- A shadow field. -/
def shFld (v : BitVec 128) (lo len : Nat) : Nat := (v.extractLsb' lo len).toNat
def shSet (v : BitVec 128) (lo len val : Nat) : BitVec 128 :=
  (v &&& ~~~(BitVec.ofNat 128 ((2 ^ len - 1) * 2 ^ lo))) ||| BitVec.ofNat 128 (val % 2 ^ len * 2 ^ lo)

/-- A record of the launch's race ring; a full ring drops and counts it. -/
def State.raceRecord (s : State) (asid : Nat) (r : List Byte) : State :=
  let t := s.tenant asid
  if t.races < t.areas.raceSize then
    { s with tenants := s.tenants.put asid { t with races := t.races + 1 } }.unitWrite (t.areas.raceRing + 32 * t.races) r
  else { s with tenants := s.tenants.put asid { t with lost := t.lost + 1 } }

/-- What a checked access leads to: performed, performed with SAGELOG set, or a RACE trap. -/
inductive SageEnd where
  | fine | logged | trapped
  deriving DecidableEq, Repr

/-- The shadow of a sector for a launch's strands, whose ids are the launch's own (R133): another launch's accesses are none of
its earlier accesses (R136). -/
def State.shadowAt (s : State) (launch sector : Nat) : BitVec 128 :=
  if s.shadowOf.look sector = some launch then Sparse.get 0 s.shadow sector else 0

def State.setShadow (s : State) (launch sector : Nat) (v : BitVec 128) : State :=
  { s with shadow := s.shadow.put sector v, shadowOf := s.shadowOf.put sector launch }

/-- One comparison with its report. -/
def State.sageReport (s : State) (l : Launch) (slotid pa dva : Nat) (trapMode : Bool) (x other : SageWho) (kind : Nat) :
    State × SageEnd :=
  let v := s.shadowAt l.id (pa / 32)
  let rec32 (k : Nat) : List Byte := bytesOfWords
    [dva / 32 * 32, x.1 * 2 ^ 40 + other.1 * 2 ^ 16 + k * 2 ^ 14, x.2.1 * 2 ^ 40 + other.2.1 * 2 ^ 16 + shFld v 16 16, slotid]
  match s.sageCompare l x other with
  | .ordered => (s, .fine)
  | .race =>
    if v.getLsbD 2 then (s, .fine)
    else if trapMode then (s, .trapped)
    else ((s.raceRecord l.asid (rec32 kind)).setShadow l.id (pa / 32) (shSet v 2 1 1), .logged)
  | .depth =>
    if v.getLsbD 3 then (s, .fine)
    else ((s.raceRecord l.asid (rec32 3)).setShadow l.id (pa / 32) (shSet v 3 1 1), .fine)

/-- The shadow after an access is performed (R132). -/
def shadowAfter (v : BitVec 128) (x : SageWho) (write : Bool) (scope : Nat) : BitVec 128 :=
  if write then
    shSet (shSet (shSet (shSet (shSet (shSet (shSet v 104 24 x.1) 80 24 x.2.1) 16 16 x.2.2) 14 2 scope) 0 1 1) 1 1 0) 2 2 0
  else shSet (shSet (shSet v 56 24 x.1) 32 24 x.2.1) 1 1 1

/-- The comparisons of a checked access to one sector with their reports (R134, R135): with its last writer, and a write also with its
last reader, which is taken at interval 0. One that traps has written the DEPTH record of the comparison before it. -/
def State.sageReports (s : State) (l : Launch) (slotid pa dva : Nat) (trapMode : Bool) (x : SageWho) (write : Bool) :
    State × SageEnd :=
  let v := s.shadowAt l.id (pa / 32)
  let (s, e1) := if v.getLsbD 0 then
      s.sageReport l slotid pa dva trapMode x (shFld v 104 24, shFld v 80 24, shFld v 16 16) (if write then 0 else 1)
    else (s, .fine)
  if e1 = .trapped then (s, e1)
  else
    let (s, e2) := if write && v.getLsbD 1 then
        s.sageReport l slotid pa dva trapMode x (shFld v 56 24, shFld v 32 24, 0) 2
      else (s, .fine)
    (s, if e2 = .fine then e1 else e2)

/-- A checked access to one sector (R131): compared, and performed unless it traps. -/
def State.sageAccess (s : State) (l : Launch) (slotid pa dva : Nat) (trapMode : Bool) (x : SageWho) (write : Bool)
    (scope : Nat) : State × SageEnd :=
  match s.sageReports l slotid pa dva trapMode x write with
  | (s, .trapped) => (s, .trapped)
  | (s, e) => (s.setShadow l.id (pa / 32) (shadowAfter (s.shadowAt l.id (pa / 32)) x write scope), e)

/-- The strand in a slot as Sage numbers it. -/
def Slot.sageWho (x : Slot) : SageWho := (x.strand.toNat, x.group.toNat, x.ival.toNat)

/-- SAGELOG set in a saved STATUS word. -/
def loggedStatus (bs : List Byte) : List Byte := bytesOfNat 8 (bitOn (BitVec.ofNat 64 (natOfBytes bs)) stSageLog).toNat

/-- STATUS.SAGELOG set in the slot of a strand (R135), in a saved or faulted context's save area too, and in the parked-context
entry where the slot is lent. -/
def State.noteRace (s : State) (core slot : Nat) (l : Launch) (strand : Nat) : State :=
  let x := s.slot core slot
  if x.launch = some l.id ∧ x.strand.toNat = strand then
    let s := s.modSlot core slot fun x => { x with status := bitOn x.status stSageLog }
    if x.st = .saved ∨ x.st = .faulted then
      let at' : Loc := .lm core (0x400 * slot + 0x208)
      s.wrLoc at' (loggedStatus (s.rdLoc at' 8)) false
    else s
  else
    let a := s.parkedEntry core slot l.asid
    if x.lentTag ≠ 0 ∧ x.lentLaunch = some l.id ∧ natOfBytes (s.mem.rdBytes (a + 0x225) 3) = strand then
      s.unitWrite (a + 0x208) (loggedStatus (s.mem.rdBytes (a + 0x208) 8))
    else s

/-- A plain access of a launch's strand checked by Sage if its capability has S, it is to device memory, and the launch's mode
is log or trap (R131). The error is the race that is to trap; `canTrap` is false for an access whose pair has retired. -/
def State.sageBy (s : State) (core slot : Nat) (launch : Option Nat) (who : SageWho) (checked : Bool) (l : Loc) (dva : Nat)
    (write : Bool) (scope : Nat) (canTrap : Bool) : Except Stop State :=
  match l, checked, launch.bind s.launchById with
  | .mem pa _ _ _, true, some la =>
    if la.sage = 1#2 ∨ la.sage = 2#2 then
      match s.sageAccess la (s.slotid core slot) pa dva (la.sage == 2#2 && canTrap) who write scope with
      | (s, .fine) => .ok s
      | (s, .logged) => .ok (s.noteRace core slot la who.1)
      | (_, .trapped) => .error (.race [(pa, dva)] dva write)
    else .ok s
  | _, _, _ => .ok s

/-- A plain access of the strand in a slot. -/
def State.sage (s : State) (core slot : Nat) (checked : Bool) (l : Loc) (dva : Nat) (write : Bool) (scope : Nat)
    (canTrap : Bool) : Except Stop State :=
  let x := s.slot core slot
  s.sageBy core slot x.launch x.sageWho checked l dva write scope canTrap

/-- What an instruction of the current slot that traps RACE leaves: the DEPTH records of the accesses that Sage has checked, none of
which is performed (R135). -/
def State.raceNoted (s : State) (cs : List (Nat × Nat)) (write : Bool) : State :=
  match s.launchOf s.cur with
  | some l => cs.foldl (fun s c => (s.sageReports l (s.slotid s.curCore s.curSlot) c.1 c.2 true s.cur.sageWho write).1) s
  | none => s

/-- The reason of a row to stop at one element, with an element that Sage has checked before it. -/
def Stop.after (e : Stop) (checked : Bool) (l : Loc) (dva : Nat) : Stop :=
  match e, l with
  | .race cs d w, .mem pa _ _ _ => if checked then .race ((pa, dva) :: cs) d w else .race cs d w
  | e, _ => e

/-- A store of the path checked as it is performed (R131). -/
def State.sagePath (s : State) (core slot : Nat) (l : Loc) (k : Option PathCheck) : State :=
  match k with
  | some k =>
    match s.sageBy core slot (some k.launch) (k.strand.toNat, k.group.toNat, k.ival.toNat) true l k.dva true k.scope false with
    | .ok s => s
    | .error _ => s
  | none => s

/-- Whether the launch of a slot runs Sage in trap mode (R135). -/
def State.sageTraps (s : State) (x : Slot) : Bool := (s.launchOf x).any fun l => l.sage == 2#2

end Sys2Proof.Machine
end

