-- ==== Sys2Proof/Machine/Home.lean ====
section
/-!
DEFINITION. Homes of words: waiters and how they are served (R91, R92), kills (R186, R385), stores performed at their
home, a core's store path (R118), reading through the path and the L1 (R110, R121–R123).
-/
namespace Sys2Proof.Machine

open Sys2Proof

/-! ## Trap and kill records (R178, R385) -/

/-- The 64 bytes of a trap record. -/
structure TrapRec where
  epc   : Nat
  info  : Nat
  pair  : Nat
  cls   : Nat
  seqd  : Nat
  adone : Bool
  esc   : Bool
  pktd  : Bool
  gspl  : Bool
  slotk : Bool
  prev  : Nat
  cyc   : Nat
  w48   : Nat
  w56   : Nat
  deriving DecidableEq, Repr

def bit (b : Bool) (n : Nat) : Nat := if b then 2 ^ n else 0

def TrapRec.bytes (r : TrapRec) : List Byte :=
  bytesOfWords [r.epc, r.info, r.pair,
    r.cls * 2 ^ 24 + r.seqd * 2 ^ 16 + bit r.adone 4 + bit r.esc 3 + bit r.pktd 2 + bit r.gspl 1 + bit r.slotk 0,
    r.prev, r.cyc, r.w48, r.w56]

/-- The save area of a slot (R183). -/
def saveArea (slot : Nat) : Nat := slot * 0x400

/-- Bytes written into local memory at a storage offset. -/
def State.wrLm (s : State) (core off : Nat) (bs : List Byte) : State := s.wrLoc (.lm core off) bs false

/-! ## Leaving a slot -/

/-- What is left in a slot that holds no strand (R73, R287, R384): registers stay; lanes, vector registers, queues of
rows, sequencer and everything of the strand go. Engine commands stay (R286). -/
def Slot.vacate (x : Slot) (st : SlotState) : Slot :=
  { x with
    st := st, groups := [], want := 0, allot := 0, vrf := [], svGroups := [], resuming := false, seq := [], seqReply := false
    lq := Vector.replicate 4 [], sqRows := Vector.replicate 2 [], drains := Vector.replicate 2 []
    launch := none, join := 0, ret := .none, retpos := 0, packet := none, gang := false, adone := false
    inl := none, held := none, out := none, regPoison := []
    park := none, reply := none, preReq := none, timer := 0, walk := none, grants := [], poisoned := false
    coupled := false, wlog := [], mmaFault := false, fbuf := [], mmaeOut := [], since := none }

/-- The odd half of a gang becomes FREE; its lanes are released and lost (R81). -/
def State.freeOdd (s : State) (core slot : Nat) : State := s.modSlot core (slot + 1) (·.vacate .free)

/-- The next slot is GANGED with this one, in force or from the next boundary (R80, R306), and not with a context that the slot has
lent itself over (R106). -/
def State.pairedOdd (s : State) (core slot : Nat) : Bool :=
  slot % 2 == 0 && (s.slot core (slot + 1)).st == .ganged && !(s.slot core slot).lentVec.any (·.gang)

/-- A request that waits in another package is withdrawn there. -/
def State.withdraw (s : State) (core slot : Nat) : State :=
  let x := s.slot core slot
  match x.out with
  | some o =>
    if x.st = .parked then s.sendTo (winDev o.dva) (.withdraw (winDev o.dva) (s.coreloc core) (slot + 32 * o.num)) else s
  | none => s

/-- A record that its slot has sent and no core has accepted is withdrawn, on the link to another package too, and counts as sent
no more (R320; DEDUCED; log entry 77). -/
def State.unsend (s : State) (core slot : Nat) (r : ArrivalRecord) : State :=
  let others (m : LinkMsg) : Bool := match m with
    | .record q _ => q != r
    | _ => true
  let s := s.modSeat r.launch core fun p => { p with sent := p.sent - 1 }
  match (if r.dev = s.device then none else s.routeTo r.dev) with
  | some k =>
    (s.modLink k fun l => { l with vcs := l.vcs.map fun ms => ms.filter others }).sendLink k
      (.withdraw r.dev r.src (slot + 32 * r.num))
  | none => s

/-- A slot's waiters taken out of every wait list, and its record not yet accepted withdrawn (R186, R320). -/
def State.dropWaiters (s : State) (core slot : Nat) : State :=
  let mine (w : Waiter) : Bool := w.who == .slot core slot
  let sent (r : ArrivalRecord) : Bool := r.slot == some slot && r.src == s.coreloc core
  let s := (s.records.filter sent).foldl (fun s r => s.unsend core slot r) (s.withdraw core slot)
  { s with
    waiters := s.waiters.filter (!mine ·)
    cores := s.cores.map fun kc => (kc.1, { kc.2 with
      waiters := kc.2.waiters.filter (!mine ·)
      msgWait := if kc.1 = core then kc.2.msgWait.filter (· != slot) else kc.2.msgWait
      lzWait := kc.2.lzWait.filter (·.who != .slot core slot) })
    records := s.records.filter (!sent ·) }

/-- Special-function requests of a slot whose results are to be discarded (R173). -/
def State.killSfu (s : State) (core slot : Nat) : State :=
  s.modCluster (clusterOf core) fun c =>
    { c with sfu := c.sfu.map fun r => if r.core = core ∧ r.slot = slot then { r with dead := true } else r }

/-! ## Walk records: acceptance of an abort (R205, R213) -/

/-- The place of entry `j` of a walk record. -/
def WalkRec.entry (r : WalkRec) (j : Nat) : Loc :=
  match r.lo with
  | .mem pa _ _ _ =>
    let o := pa % 4096 + 128 + 16 * j
    if o < 4096 then r.lo.plus (128 + 16 * j) else r.hi.plus (o - 4096)
  | l => l.plus (128 + 16 * j)

/-- The DVA at which a record goes on in a second page, if it does. -/
def recordTail (dva : Nat) : Option Nat := if dva % 4096 + 1152 ≤ 4096 then none else some (dva / 4096 * 4096 + 4096)

/-- The first `n` entries of a walk record from the last to the first: node reference and edge index. -/
def State.walkEntries (s : State) (r : WalkRec) : Nat → List (Word × Option Nat)
  | 0 => []
  | n + 1 => (s.rdWord (r.entry n), some (fld (s.rdWord ((r.entry n).plus 8)) 0 8)) :: s.walkEntries r n

/-- STATE of a walk record: DEPTH and OPEN. -/
def State.walkOpen (s : State) (r : WalkRec) : Bool := (s.rdWord (r.lo.plus 8)).getLsbD 8
def State.walkDepth (s : State) (r : WalkRec) : Nat := min 64 (fld (s.rdWord (r.lo.plus 8)) 0 7)

/-- A line that a tree operation only reads, for a tenant: the home recalls every L2 copy of it, as an atomic does (R200). -/
def State.recallFor (s : State) (core asid : Nat) (l : Loc) : State :=
  s.touch l false (clusterOf core) [] (s.pasidFor asid) true

/-- The lines of a walk record's header and of its first `n` entries read at their home. -/
def State.touchRecord (s : State) (core asid : Nat) (r : WalkRec) (n : Nat) : State :=
  (r.lo :: (List.range ((n + 7) / 8)).map fun i => r.entry (8 * i)).foldl (fun s l => s.recallFor core asid l) s

/-- STATE of a walk record written. -/
def State.setWalkState (s : State) (core : Nat) (r : WalkRec) (depth : Nat) (isOpen : Bool) : State :=
  let bs := bytesOfNat 8 (depth + bit isOpen 8)
  (s.touch (r.lo.plus 8) true (clusterOf core) bs).wrLoc (r.lo.plus 8) bs false

/-- An abort accepted at the ticket's home: the record is closed at once, and the unwinding is left to do (R345). -/
def State.acceptAbort (s : State) (core slot asid : Nat) (ticket : Word) (r : WalkRec) : State :=
  let s := s.touchRecord core asid r 0
  if s.walkOpen r then
    let d := s.walkDepth r
    let s := s.touchRecord core asid r d
    let job : TreeJob :=
      { abort := true, record := r, ticket := ticket, asid := asid, core := core, slot := slot, alt := false, value := 0
        levels := s.walkEntries r d, index := 0, done := 0, st := 9, sat := false, skip := false, at' := s.cc, waits := false
        kill := false }
    { s.setWalkState core r d false with jobs := s.jobs ++ [job] }
  else s

/-- An abort that has still to reach its ticket. -/
def State.ticketJob (s : State) (core slot asid ticket : Nat) (kill : Bool) : TreeJob :=
  { abort := true, record := ⟨.noPart 0, .noPart 0⟩, ticket := BitVec.ofNat 64 ticket, asid := asid, core := core, slot := slot
    alt := false, value := 0, levels := [], index := 0, done := 0, st := 9, sat := false, skip := false, at' := s.cc, waits := true
    kill := kill }

/-- The record of an open walk whose slot is gone, translated: none while that has to wait in its core (R105); none inside where it does
not translate, for which a fault record with tag 0 is written (R206). Poison in a page-table entry has no cause to record. -/
def State.ticketRecord (s : State) (core slot asid ticket : Nat) : Option (State × Option WalkRec) :=
  let fails (s : State) (dva cause : Nat) : State := if cause = 0 then s else s.faultRecord core slot asid dva cause .atomic 0
  match s.xlateOr core asid ticket true true with
  | none => none
  | some (s, .error cause) => some (fails s ticket cause, none)
  | some (s, .ok lo) =>
    match recordTail ticket with
    | none => some (s, some ⟨lo, lo⟩)
    | some tail =>
      match s.xlateOr core asid tail true true with
      | none => none
      | some (s, .error cause) => some (fails s tail cause, none)
      | some (s, .ok hi) => some (s, some ⟨lo, hi⟩)

/-- A kill reported: with the news that its walk was not aborted (R206). -/
def State.reportKill (s : State) (core slot : Nat) (kill noAbort : Bool) : State :=
  if kill then s.notifyWith 1 (s.slotid core slot) noAbort else s

/-- The abort of a slot's open walk reaches the ticket; a record that does not translate is left open (R206). A kill is then reported. -/
def State.reachTicket (s : State) (core slot asid ticket : Nat) (kill : Bool) : State :=
  if ticket = 0 ∨ isWindow ticket then s.reportKill core slot kill false
  else
    match s.ticketRecord core slot asid ticket with
    | none => { s with jobs := s.jobs ++ [s.ticketJob core slot asid ticket kill] }
    | some (s, none) => s.reportKill core slot kill true
    | some (s, some r) => (s.acceptAbort core slot asid (BitVec.ofNat 64 ticket) r).reportKill core slot kill false

/-- The abort that a kill, an escalation or a slot becoming FREE makes of its open walk: a release, so that it reaches the ticket
once every store then in the core's path is performed (R119, R213, R345). -/
def State.abortTicket (s : State) (core slot asid ticket : Nat) (kill : Bool) : State :=
  if ticket = 0 ∨ (s.core core).path = [] then s.reachTicket core slot asid ticket kill
  else { s with jobs := s.jobs ++ [s.ticketJob core slot asid ticket kill] }

/-! ## Kills (R186, R385) -/

/-- The command of a context that its slot is lent over, whose strand does not share the fate of the one in the slot (R106). -/
def Completion.lent (c : Completion) : Bool := c.ctx != 0

/-- The first `n` mentions of a slot in an order are kept. -/
def keepFirst (k : Nat) : Nat → List Nat → List Nat
  | _, [] => []
  | n, x :: rest =>
    if x ≠ k then x :: keepFirst k n rest
    else match n with
      | 0 => keepFirst k 0 rest
      | m + 1 => x :: keepFirst k m rest

/-- Kill: the slot leaves the rotation with everything of it discarded and zeroed; a kill record is written, its open walk aborted and
the supervisor notified. A coupled slot is not killed: its interval counts as a mismatch (R190). -/
def State.killSlot (s : State) (core slot dva : Nat) : State :=
  let x := s.slot core slot
  if x.coupled then
    let leader := core / 2 * 2
    let s := { s with couples := s.couples.map fun (c : Couple) =>
      if c.leader = leader ∧ c.slot = slot then { c with missed := true, ending := true } else c }
    if x.st = .ready ∨ x.st = .reply ∨ x.st = .parked then
      (s.dropWaiters core slot).modSlot core slot fun x => { x with st := .reply, park := none, reply := some ⟨.interval, [], true⟩ }
    else s
  else
    let asid := s.asidOf x
    let rec_ : TrapRec :=
      { epc := x.pc.toNat, info := dva, pair := 0, cls := clsMchk, seqd := seqLeft x.seq, adone := false, esc := false,
        pktd := x.packet.isSome, gspl := x.gang, slotk := false, prev := x.traprec.toNat, cyc := s.cc, w48 := x.join,
        w56 := s.slotid core slot }
    let s := (s.dropWaiters core slot).killSfu core slot
    let s := if s.pairedOdd core slot then s.freeOdd core slot else s
    let s := s.modSlot core slot fun x =>
      { x.vacate .killed with
        s := Vector.replicate 32 0, p := 0, c := Vector.replicate 8 0, ticket := 0
        matQ := x.matQ.filter (·.comp.lent), copyQ := x.copyQ.filter (·.comp.lent), matRes := [], copyRes := []
        mmaeOut := [], since := none }
    let s := s.moveStgs (.slot core slot) .ended
    let s := s.modCore core fun c => (if x.dtwrSince.isSome then Core.drainAll else id)
      { c with
        path := c.path.map fun (p : PathStore) => if p.slot = slot then { p with await := false } else p
        copyOrd := keepFirst slot ((x.copyQ.filter (·.comp.lent)).length) c.copyOrd
        copyRun := c.copyRun.map fun r => if r.slot = slot ∧ !r.cmd.comp.lent then { r with killed := true } else r
        ended := c.ended.filter fun e => e.slot != slot || e.comp.kind != 0 || e.comp.lent }
    (s.wrLm core (saveArea slot + 0x3C0) rec_.bytes).abortTicket core slot asid x.ticket.toNat true


/-! ## Waking (R73, R91) -/

/-- A parked or replying slot goes on with registers written: READY, or still in REPLY while its sequencer owes it a
scalar (R159). -/
def Slot.goOn (x : Slot) : Slot := { x with st := if x.seqReply then .reply else .ready, park := none, reply := none }

def State.wake (s : State) (core slot : Nat) (ws : List (Nat × Word)) : State :=
  s.modSlot core slot fun x => (x.setCodes ws).goOn

/-- A word taken at its home by LDF or LDX: the register, the issuer's L1 copy, the acquire (R120, R122); or the answer to the
package that waits. -/
def State.takeWord (s : State) (w : Waiter) (d : Reg) (v : Word) : State :=
  match w.who with
  | .slot core slot =>
    ((s.wake core slot [(d.toNat, v)]).refreshL1 core w.loc (bytesOfNat 8 v.toNat) false).selfInvalidate core
  | .peer _ id => s.answerId id [v]

/-- A waiting STF that has stored: the issuer's L1 copy follows (R122). -/
def State.stored (s : State) (w : Waiter) (v : Word) : State :=
  match w.who with
  | .slot core slot => (s.wake core slot []).refreshL1 core w.loc (bytesOfNat 8 v.toNat) false
  | .peer _ id => s.answerId id []

/-- AWAIT completes: an acquire, the end of a Sage interval, and a renegotiation point (R85, R133, R157). -/
def State.awaitDone (s : State) (core slot join : Nat) : State :=
  let s := s.modSlot core slot fun x => { x with ival := nextIval x.ival }
  let s := s.closeGroups (s.slot core slot) join
  (s.renegotiate core slot).selfInvalidate core

/-- Poison consumed by a waiting access. -/
def State.waiterKilled (s : State) (w : Waiter) : State :=
  match w.who with
  | .slot core slot => s.killSlot core slot w.dva
  | .peer _ id => s.tell (id % 2 ^ 18) (.nack (id % 2 ^ 18) (id / 2 ^ 18) .poison)

/-- The movement request words (R92). -/
def mbWords : List Nat := [0x8000, 0x8008, 0x8010, 0x8018]

/-- A take of a movement request word by LDX: the word is left empty and the served count rises by 1 (R92). -/
def State.countTake (s : State) (core off : Nat) : State :=
  if 0x8000 ≤ off ∧ off < 0x8020 then
    s.wrLm core 0x8020 (bytesOfNat 8 (natOfBytes (s.rdLoc (.lm core 0x8020) 8) + 1))
  else s

/-- A word taken by LDX, counted if it is a movement request word. -/
def State.countTaken (s : State) (l : Loc) : State :=
  match l with
  | .lm core off => s.countTake core off
  | _ => s

/-- The offset of a word in local memory. -/
def Loc.lmOff : Loc → Nat
  | .lm _ off => off
  | _ => 0

/-- The lowest-numbered full movement request word of a core. -/
def State.fullMb (s : State) (core : Nat) : Option Nat := mbWords.find? fun o => s.full (.lm core o)

/-- One waiter tried: none while its condition does not hold (R91). -/
def State.serveOne (s : State) (w : Waiter) : Option State :=
  let v := s.rdWord w.loc
  match w.kind with
  | .ldf d =>
    if !s.full w.loc then none
    else if s.poisonedAt w.loc 8 then some (s.waiterKilled w) else some (s.takeWord w d v)
  | .await =>
    if v != 0 then none
    else match w.who with
      | .slot core slot => some ((s.wake core slot []).awaitDone core slot w.dva)
      | .peer _ _ => some (s.stored w 0)
  | .ldx d =>
    if !s.full w.loc then none
    else if s.poisonedAt w.loc 8 then some (s.waiterKilled w)
    else some (((s.setFull w.loc false).takeWord w d v).countTaken w.loc)
  | .stf data =>
    if s.full w.loc then none
    else some (((s.wrLoc w.loc (bytesOfNat 8 data.toNat) false).setFull w.loc true).stored w data)
  | .gather d =>
    match w.loc with
    | .lm core _ =>
      match s.fullMb core with
      | none => none
      | some off =>
        let l : Loc := .lm core off
        if s.poisonedAt l 8 then some (s.waiterKilled { w with dva := w.dva + (off - 0x8000) })
        else some (((s.setFull l false).takeWord w d (s.rdWord l)).countTake core off)
    | _ => none

/-- The wait list of a word's home, and one with a waiter taken out. -/
def State.waitList (s : State) (l : Loc) : List Waiter :=
  match l with
  | .lm core _ => (s.core core).waiters
  | _ => s.waiters

def State.dropWaiter (s : State) (w : Waiter) : State :=
  match w.loc with
  | .lm core _ => s.modCore core fun c => { c with waiters := c.waiters.erase w }
  | _ => { s with waiters := s.waiters.erase w }

/-- A waiter concerned by a change at a place. -/
def Waiter.hears (w : Waiter) (l : Loc) : Bool :=
  w.loc.sameWord l ||
    match w.kind, w.loc, l with
    | .gather _, .lm c _, .lm c' off => c == c' && decide (0x8000 ≤ off ∧ off < 0x8020)
    | _, _, _ => false

/-- One pass over a word's waiters, oldest first; whether one was served. -/
def State.servePass (s : State) (l : Loc) : List Waiter → State × Bool
  | [] => (s, false)
  | w :: rest =>
    if w.hears l && (s.waitList l).contains w then
      match (s.dropWaiter w).serveOne w with
      | some s' => let r := s'.servePass l rest; (r.1, true)
      | none => s.servePass l rest
    else s.servePass l rest

/-- Passes until none is served: each service is itself a change of the word or its bit. -/
def State.serveLoop (s : State) (l : Loc) : Nat → State
  | 0 => s
  | n + 1 =>
    match s.servePass l (s.waitList l) with
    | (s', true) => s'.serveLoop l n
    | (s', false) => s'

/-- The home's service of a word's waiters after a change of the word or its bit (R91). -/
def State.serve (s : State) (l : Loc) : State := s.serveLoop l ((s.waitList l).length + 1)

/-! ## Writes at a home -/

/-- The address of a place in its own memory. -/
def Loc.addr : Loc → Nat
  | .mem pa _ _ _ => pa
  | .lm _ off => off
  | _ => 0

/-- Service of the words that `n` bytes from a place touch. -/
def State.serveAll (s : State) (l : Loc) (n : Nat) : State :=
  (List.range ((l.addr % 8 + n + 7) / 8)).foldl (fun s i => s.serve (l.plus (8 * i))) s

/-- Bytes written at their home, with service of the words they touch; `cl` is the cluster they come from. -/
def State.homeWrite (s : State) (cl : Nat) (l : Loc) (bs : List Byte) (poison : Bool) (pasid : Option (BitVec 20) := none) : State :=
  ((s.touchLines l bs.length true cl bs pasid).wrLoc l bs poison).serveAll l bs.length

/-- Bytes that a core writes through its die's L2 (R111), for a launch, or under a PASID. -/
def State.coreWrite (s : State) (core : Nat) (launch : Option Nat) (l : Loc) (bs : List Byte) (poison : Bool)
    (pasid : Option (BitVec 20) := s.pasidOf launch) : State :=
  ((s.l2Access core launch l bs.length true bs pasid).wrLoc l bs poison).serveAll l bs.length

/-- A word written and filled, as STFA does at its home (R91). -/
def State.fill (s : State) (cl : Nat) (l : Loc) (v : Word) (pasid : Option (BitVec 20) := none) : State :=
  let bs := bytesOfNat 8 v.toNat
  (((s.touch l true cl bs pasid).wrLoc l bs false).setFull l true).serve l

/-! ## Plain reads (R110, R121–R123) -/

/-- The line of a physical address read at its home, 16 words, and which of them carry poison. -/
def State.lineAt (s : State) (pa : Nat) (ro : Bool) : CacheLine :=
  let base := pa / 128 * 128
  { words := (List.range 16).map fun i => BitVec.ofNat 64 (natOfBytes (s.mem.rdBytes (base + 8 * i) 8))
    ro := ro
    poison := (List.range 16).filter fun i => s.memPoison.contains (base / 8 + i) }

/-- `n` bytes of a line from an offset, and whether they carry poison. -/
def CacheLine.bytes (c : CacheLine) (off n : Nat) : List Byte :=
  ((c.words.flatMap fun w => bytesOfNat 8 w.toNat).drop off).take n

def CacheLine.poisoned (c : CacheLine) (off n : Nat) : Bool := (touched off n).any c.poison.contains

/-- The L1 line of a place, where the L1 still holds it, which is the part's (R110); a read that Sage checks never hits (R131). -/
def State.l1Hit (s : State) (core : Nat) (l : Loc) (checked : Bool) : State × Option CacheLine :=
  match l with
  | .mem pa _ _ _ =>
    let (t, s) := s.fresh
    match (s.core core).l1.find? (·.1 == pa / 128), !checked && Config.cacheKeeps t with
    | some (_, line), true => (s, some line)
    | _, _ => (s, none)
  | _ => (s, none)

/-- A plain read that the L1 does not serve: the latest value performed at the location, through the die's L2 (R123), with the
line filled into the L1 if `alloc` says so, under the stores of the path; a read that Sage checks goes to the home and leaves no
line (R131). A read of another package brings what the outside holds there. -/
def State.readHome (s : State) (core slot : Nat) (l : Loc) (n : Nat) (checked alloc ro : Bool) : State × List Byte × Bool :=
  match l with
  | .mem pa _ _ _ =>
    let (t, s) := s.fresh
    let s := if checked then s.touch l false (clusterOf core) [] (s.pasidOf (s.slot core slot).launch)
      else s.l2Access core (s.slot core slot).launch (.mem (pa / 128 * 128) l.attr.tree l.attr.cls l.attr.key) 128 false
    let line := s.lineAt pa ro
    let s := s.modCore core fun c =>
      { c with l1 :=
          if alloc && !checked then fillCache l1Lines (Config.choose t) (pa / 128) (line.laid (pa / 128) c.path) c.l1
          else c.l1.erase (pa / 128) }
    (s, line.bytes (pa % 128) n, line.poisoned (pa % 128) n)
  | .peer _ _ =>
    let (t, s) := s.fresh
    (s, bytesOfNat n (Config.freeWord t).toNat, false)
  | _ => (s, s.rdLoc l n, s.poisonedAt l n)

/-- A plain read of `n` bytes: an L1 hit, which may be stale, or `readHome`; `fromHome` rules a hit out. -/
def State.readPlain (s : State) (core slot : Nat) (l : Loc) (n : Nat) (checked alloc ro fromHome : Bool) :
    State × List Byte × Bool :=
  match if fromHome then (s, none) else s.l1Hit core l checked with
  | (s, some line) => (s, line.bytes (l.addr % 128) n, line.poisoned (l.addr % 128) n)
  | (s, none) => s.readHome core slot l n checked alloc ro

/-! ## Remote posted stores (R127) -/

/-- An STG acknowledged: the count of its strand falls, in a saved context too (R184). -/
def State.ackStg (s : State) (g : Stg) : State :=
  let s := { s with stgs := s.stgs.erase g }.countStgs g.owner
  match g.owner with
  | .slot core slot =>
    if (s.slot core slot).st = .saved then s.wrLm core (saveArea slot + 0x270) (bytesOfNat 2 (s.slot core slot).stgs) else s
  | _ => s

/-- An STG performed at its target and acknowledged. -/
def State.performStg (s : State) (g : Stg) : State :=
  match g.loc with
  | .lm .. => (s.ackStg g).homeWrite (clusterOf g.core) g.loc (bytesOfNat 8 g.data.toNat) false
  | _ => s.ackStg g

/-- The STGs of a strand to a word of this package are performed before its later window accesses to it (R96, R127). -/
def State.flushOwner (s : State) (o : StgOwner) (p : Loc → Bool) : State :=
  (s.stgs.filter fun (g : Stg) => g.owner == o && !g.loc.isPeer && p g.loc).foldl (fun s g => s.performStg g) s

def State.flushStgs (s : State) (core slot : Nat) (p : Loc → Bool) : State := s.flushOwner (.slot core slot) p

/-! ## Load-queue rows (R160) -/

/-- A store of the strand to the words of `n` bytes from a place, later than a row of it of a given cc, stands in the path: an L1 line
may hold it already, so that the row's elements are read at their home (R121). -/
def ownLater (path : List PathStore) (slot before : Nat) (l : Loc) (n : Nat) : Bool :=
  path.any fun p => p.slot == slot && decide (before < p.at') && l.meets n p.loc

/-- The elements of a row read (R160): the strand's STGs to an element come first (R127). The error is poison in an element, or,
where `canTrap` says that the row's pair has not retired, a race (R135). -/
def State.readRow (s : State) (core slot : Nat) (kind : BitVec 4) (sage alloc canTrap : Bool) (at' : Nat) :
    List (Loc × Nat × Bool) → State × Except Stop (List Half)
  | [] => (s, .ok [])
  | (l, dva, ro) :: rest =>
    match s.sage core slot sage l dva false 0 canTrap with
    | .error e => (s, .error e)
    | .ok s =>
      match (s.flushStgs core slot (·.sameWord l)).readPlain core slot l (lqSize kind) sage alloc ro
          (ownLater (s.core core).path slot at' l (lqSize kind)) with
      | (s, bs, poison) =>
        if poison then (s, .error (.kill dva))
        else
          match s.readRow core slot kind sage alloc canTrap at' rest with
          | (s, .ok vs) => (s, .ok (lqWiden kind (natOfBytes bs) :: vs))
          | (s, .error e) => (s, .error (e.after sage l dva))

/-- A row that waits for its elements: its queue, its index there, and what it waits with (see `LqRow`). -/
structure RowWait where
  q     : Nat
  i     : Nat
  kind  : BitVec 4
  elems : List (Loc × Nat × Bool)
  sage  : Bool
  at'   : Nat
  deriving DecidableEq, Repr

/-- The first waiting row of a queue. -/
def Slot.waitingRow (x : Slot) (q : Nat) : Option RowWait :=
  let rows := x.lq[q]?.getD []
  match rows.findIdx? fun r => match r with
    | .waiting .. => true
    | .arrived _ => false with
  | none => none
  | some i => match rows[i]? with
    | some (.waiting kind elems sage at') => some ⟨q, i, kind, elems, sage, at'⟩
    | _ => none

/-- The oldest waiting row of a slot: rows are read in program order (R122, R123). -/
def Slot.oldestRow (x : Slot) : Option RowWait :=
  (List.range 4).foldl (fun best q => match best, x.waitingRow q with
    | some b, some r => if r.at' < b.at' then some r else some b
    | none, r => r
    | b, none => b) none

/-- A waiting row of a slot is read; the DVA of poison in it. -/
def State.fillRow (s : State) (core slot : Nat) (r : RowWait) (alloc : Bool) : State × Option Nat :=
  match s.readRow core slot r.kind r.sage alloc false r.at' r.elems with
  | (s, .ok lanes) => (s.modSlot core slot fun x =>
      { x with lq := x.lq.setIfInBounds r.q ((x.lq[r.q]?.getD []).set r.i (.arrived lanes)) }, none)
  | (s, .error (.kill dva)) => (s, some dva)
  | (s, .error _) => (s, none)

/-- The rows of a slot translated before a cc are read, oldest first, up to one with poison, whose DVA is given: a later store of the
strand is never performed before its elements are read (R160). -/
def State.fillBefore (s : State) (core slot before : Nat) : State × Option Nat :=
  (List.range 64).foldl (fun r _ => match r with
    | (s, none) => match (s.slot core slot).oldestRow with
      | some w => if w.at' < before then s.fillRow core slot w false else (s, none)
      | none => (s, none)
    | r => r) (s, none)

/-- The consumption of poison by a slot, if there is any (R186). -/
def State.orKilled (r : State × Option Nat) (core slot : Nat) : State :=
  match r.2 with
  | some dva => r.1.killSlot core slot dva
  | none => r.1

/-! ## The store path (R118) -/

/-- The head of a core's store path taken off; the slot that waits for it has its reply. -/
def State.popPath (s : State) (core : Nat) : State :=
  match (s.core core).path with
  | [] => s
  | p :: rest =>
    let s := s.modCore core fun c => { c with path := rest }
    if p.await then s.modSlot core p.slot fun x => { x with reply := x.reply.map fun r => { r with cond := .now } } else s

/-- The head of a core's store path lost on its way to another package: a slot that waits for it consumes poison (R232). -/
def State.loseHead (s : State) (core : Nat) : State :=
  match (s.core core).path with
  | [] => s
  | p :: rest =>
    let s := s.modCore core fun c => { c with path := rest }
    match p.loc with
    | .peer _ dva => if p.await then s.killSlot core p.slot dva else s
    | _ => s

/-- The class of the launch of the strand in a slot. -/
def State.slotClass (s : State) (core slot : Nat) : Nat := ((s.launchOf (s.slot core slot)).map (·.cls)).getD 0

/-- The head of a core's store path performed, its slot's load-queue rows and STGs that come first having been served. A store to
another package leaves over the link, data and width with it, and stays at the head until the package answers (R95, R118). -/
def State.performHead (s : State) (core : Nat) : State :=
  match (s.core core).path with
  | [] => s
  | p :: _ =>
    let s := (State.orKilled (s.fillBefore core p.slot p.at') core p.slot).flushOwner (p.owner core) (·.sameWord p.loc)
    match p.loc with
    | .peer dev dva =>
      match p.sent, s.routeTo dev with
      | some _, _ => s
      | none, none => s.loseHead core
      | none, some link =>
        let (t, s) := s.fresh
        let s := s.modCore core fun c =>
          { c with path := match c.path with
              | [] => []
              | q :: rest => { q with sent := some (t, link) } :: rest }
        s.sendTo dev (.access (s.coreloc core) (17 + 32 * t) (s.slotClass core p.slot) dva (.st 0 0 0 0)
          [BitVec.ofNat 64 (natOfBytes p.bytes), BitVec.ofNat 64 p.bytes.length] false)
    | _ =>
      ((s.popPath core).sagePath core p.slot p.loc p.sage).coreWrite core (s.slot core p.slot).launch p.loc p.bytes p.poison

/-- The first `n` stores of a path performed, up to one that has left for another package. -/
def State.performPath (s : State) (core : Nat) : Nat → State
  | 0 => s
  | n + 1 => (s.performHead core).performPath core n

/-- DrainStores: every store in the core's path is performed (R118). -/
def State.drainStores (s : State) (core : Nat) : State := s.performPath core (s.core core).path.length

/-- DrainStores of a strand waits for another package's answer: a store to one is still in the core's path, at or before the last
store that is the strand's own or entered by a cc (R118, R161). -/
def State.pathOut (s : State) (core slot since : Nat) : Bool :=
  let path := (s.core core).path
  let n := (path.reverse.dropWhile fun p => !(p.slot == slot || decide (p.at' ≤ since))).length
  (path.take n).any fun p => p.loc.isPeer

/-- The stores of a path up to the last one to the words of `n` bytes from a place: the path is in order (R118). -/
def pathPrefix (path : List PathStore) (l : Loc) (n : Nat) : Nat :=
  path.length - (path.reverse.takeWhile fun p => !l.meets n p.loc).length

/-- The stores of a path up to the last one to those words can all be performed here. -/
def prefixFree (path : List PathStore) (l : Loc) (n : Nat) : Bool := (path.take (pathPrefix path l n)).all fun p => !p.loc.isPeer

def State.pathFree (s : State) (core : Nat) (l : Loc) (n : Nat) : Bool := prefixFree (s.core core).path l n

/-- An access of a core served at a home follows the core's earlier stores to its words, which an L1 hit may have shown the strand
(R122), and the strand's own STGs to them (R96). -/
def State.flushTo (s : State) (core slot : Nat) (l : Loc) (n : Nat) : State :=
  (s.performPath core (pathPrefix (s.core core).path l n)).flushStgs core slot (l.meets n)

/-! ### Rows and the path -/

/-- The stores of a path before the first one of the strand that is later than a row of it. -/
def beforeRow (path : List PathStore) (slot at' : Nat) : List PathStore :=
  path.takeWhile fun p => !(p.slot == slot && decide (at' < p.at'))

/-- No store that a row's elements follow is out at another package. -/
def State.rowFree (s : State) (core slot : Nat) (r : RowWait) : Bool :=
  r.elems.all fun e => prefixFree (beforeRow (s.core core).path slot r.at') e.1 (lqSize r.kind)

/-- A drain queued before a cc has an element in the words of `n` bytes from a place. -/
def Slot.drainsOn (x : Slot) (before : Nat) (l : Loc) (n : Nat) : Bool :=
  x.drains.toList.any fun ds => ds.any fun d => decide (d.at' < before) && d.elems.any fun e => l.meets n e.1

/-- The stores that a row's elements follow can all be performed here: none is out at another package, or still to come from a drain of
the strand (R121, R122). -/
def State.rowReady (s : State) (core slot : Nat) (r : RowWait) : Bool :=
  s.rowFree core slot r && r.elems.all fun e => !(s.slot core slot).drainsOn r.at' e.1 (lqSize r.kind)

/-- The stores that a row's elements follow are performed (R122, R123). -/
def State.flushRow (s : State) (core slot : Nat) (r : RowWait) : State :=
  r.elems.foldl (fun s e => s.performPath core (pathPrefix (beforeRow (s.core core).path slot r.at') e.1 (lqSize r.kind))) s

/-- The oldest waiting row of a slot is read once the stores before it can be performed. -/
def State.fillOldest (s : State) (core slot : Nat) (alloc : Bool) : State × Option Nat :=
  match (s.slot core slot).oldestRow with
  | some r => if s.rowReady core slot r then (s.flushRow core slot r).fillRow core slot r alloc else (s, none)
  | none => (s, none)

/-- The waiting rows of a slot are read, oldest first, up to one with poison, whose DVA is given. -/
def State.fillRows (s : State) (core slot : Nat) : State × Option Nat :=
  (List.range 64).foldl (fun r _ => match r with
    | (s, none) => s.fillOldest core slot false
    | r => r) (s, none)

/-- Every waiting row of a slot meets a condition. -/
def Slot.rowsAll (x : Slot) (p : RowWait → Bool) : Bool :=
  (List.range 4).all fun q => (x.lq[q]?.getD []).all fun r => match r with
    | .waiting kind elems sage at' => p ⟨q, 0, kind, elems, sage, at'⟩
    | .arrived _ => true

/-- No waiting row of a slot is held back; none by a store that is out at another package. -/
def State.rowsReady (s : State) (core slot : Nat) : Bool := (s.slot core slot).rowsAll (s.rowReady core slot)
def State.rowsFree (s : State) (core slot : Nat) : Bool := (s.slot core slot).rowsAll (s.rowFree core slot)

/-- An element of a waiting row of the slot lies in the words of `n` bytes from a place. -/
def Slot.rowsOn (x : Slot) (l : Loc) (n : Nat) : Bool := !x.rowsAll fun r => !r.elems.any fun e => l.meets n e.1

end Sys2Proof.Machine
end

