-- ==== Sys2Proof/Machine/ScalarInt.lean ====
section
/-!
DEFINITION. Integer A-slot instructions (spec/19–22: R266, R268, R275, R281, R285, R295, R318, R325–R327, R330, R333,
R334, R343, R377; R63, R64). Each reads its sources as they stood before the pair and writes one register if its guard
holds (R50).
-/
namespace Sys2Proof.Machine

open Sys2Proof

abbrev Out := Host.Outcome State Fault Refusal

/-- The common form: if the guard holds, s[d] receives a value. -/
def writeIf (g : PredIx) (d : Reg) (v : Word) (s : State) : Out :=
  .next (if s.guard g then s.setReg d v else s)

/-- The common form of a compare: if the guard holds, p[p] receives a truth value. -/
def predIf (g p : PredIx) (v : Bool) (s : State) : Out :=
  .next (if s.guard g then s.setPred p v else s)

/-! ## Values -/

/-- The DIV quotient: all ones for a zero divisor, otherwise truncated toward zero, modulo 2^64 (R285). -/
def divS (a b : Word) : Word := if b = 0 then BitVec.allOnes 64 else a.sdiv b

/-- The DIVU quotient (R285). -/
def divU (a b : Word) : Word := if b = 0 then BitVec.allOnes 64 else a / b

/-- REM: the dividend for a zero divisor; the sign is the dividend's (R330). -/
def remS (a b : Word) : Word := if b = 0 then a else a.srem b

/-- REMU (R330). -/
def remU (a b : Word) : Word := if b = 0 then a else a % b

/-- MULH by its minor: 0 signed, 1 unsigned, 2 signed × unsigned (R325). -/
def mulHigh (x : BitVec 3) (a b : Word) : Word :=
  let p : BitVec 128 :=
    if x = 0#3 then a.signExtend 128 * b.signExtend 128
    else if x = 1#3 then a.setWidth 128 * b.setWidth 128
    else a.signExtend 128 * b.setWidth 128
  p.extractLsb' 64 64

/-- BITS by its minor: population count, leading zeros, trailing zeros, reversal (R275). -/
def bitsOp (x : BitVec 2) (a : Word) : Word :=
  if x = 0#2 then BitVec.ofNat 64 ((List.range 64).countP fun i => a.getLsbD i)
  else if x = 1#2 then BitVec.ofNat 64 ((List.range 64).takeWhile fun i => !a.getMsbD i).length
  else if x = 2#2 then BitVec.ofNat 64 ((List.range 64).takeWhile fun i => !a.getLsbD i).length
  else a.reverse

/-- CMP by its minor (R281). -/
def cmpOp (x : BitVec 3) (a b : Word) : Bool :=
  if x = 0#3 then a == b
  else if x = 1#3 then a != b
  else if x = 2#3 then a.slt b
  else if x = 3#3 then a.sle b
  else if x = 4#3 then a.ult b
  else a.ule b

/-- The low `e + 1` ones of a field whose width less one is `e` (R295). -/
def widthMask (e : Reg) : Word := BitVec.ofNat 64 (2 ^ (e.toNat + 1) - 1)

/-- The field of EXT: `e + 1` bits of `a` from bit b[5:0] (R295). -/
def extField (a b : Word) (e : Reg) : Word := (a >>> (fld b 0 6)) &&& widthMask e

/-- EXT.s: the field sign-extended (R295). -/
def extFieldS (a b : Word) (e : Reg) : Word :=
  ((extField a b e) <<< (63 - e.toNat)).sshiftRight (63 - e.toNat)

/-- INS: the field of `d` at bit b[5:0] replaced by the low bits of `a` (R295). -/
def insField (d a b : Word) (e : Reg) : Word :=
  let mask := widthMask e <<< (fld b 0 6)
  (d &&& ~~~mask) ||| ((a <<< (fld b 0 6)) &&& mask)

/-! ## Meanings -/

def execNopA (s : State) : Out := .next s
def execAdd (d a b : Reg) (g : PredIx) (s : State) : Out := writeIf g d (s.src a + s.src b) s
def execSub (d a b : Reg) (g : PredIx) (s : State) : Out := writeIf g d (s.src a - s.src b) s
def execAddi (d a : Reg) (imm : BitVec 16) (s : State) : Out := writeIf 0 d (s.src a + sext64 imm) s
def execMul (d a b : Reg) (g : PredIx) (s : State) : Out := writeIf g d (s.src a * s.src b) s
def execMulh (d a b : Reg) (g : PredIx) (x : BitVec 3) (s : State) : Out := writeIf g d (mulHigh x (s.src a) (s.src b)) s
def execDiv (d a b : Reg) (g : PredIx) (s : State) : Out := writeIf g d (divS (s.src a) (s.src b)) s
def execDivu (d a b : Reg) (g : PredIx) (s : State) : Out := writeIf g d (divU (s.src a) (s.src b)) s
def execRem (d a b : Reg) (g : PredIx) (s : State) : Out := writeIf g d (remS (s.src a) (s.src b)) s
def execRemu (d a b : Reg) (g : PredIx) (s : State) : Out := writeIf g d (remU (s.src a) (s.src b)) s
def execAnd (d a b : Reg) (g : PredIx) (s : State) : Out := writeIf g d (s.src a &&& s.src b) s
def execAndn (d a b : Reg) (g : PredIx) (s : State) : Out := writeIf g d (s.src a &&& ~~~s.src b) s
def execOr (d a b : Reg) (g : PredIx) (s : State) : Out := writeIf g d (s.src a ||| s.src b) s
def execXor (d a b : Reg) (g : PredIx) (s : State) : Out := writeIf g d (s.src a ^^^ s.src b) s
def execShl (d a b : Reg) (g : PredIx) (s : State) : Out := writeIf g d (s.src a <<< fld (s.src b) 0 6) s
def execShlImm (d a : Reg) (n : BitVec 6) (g : PredIx) (s : State) : Out := writeIf g d (s.src a <<< n.toNat) s
def execShr (d a b : Reg) (g : PredIx) (s : State) : Out := writeIf g d (s.src a >>> fld (s.src b) 0 6) s
def execShrImm (d a : Reg) (n : BitVec 6) (g : PredIx) (s : State) : Out := writeIf g d (s.src a >>> n.toNat) s
def execSar (d a b : Reg) (g : PredIx) (s : State) : Out := writeIf g d ((s.src a).sshiftRight (fld (s.src b) 0 6)) s
def execSarImm (d a : Reg) (n : BitVec 6) (g : PredIx) (s : State) : Out := writeIf g d ((s.src a).sshiftRight n.toNat) s
def execMin (d a b : Reg) (g : PredIx) (s : State) : Out :=
  writeIf g d (if (s.src a).sle (s.src b) then s.src a else s.src b) s
def execMax (d a b : Reg) (g : PredIx) (s : State) : Out :=
  writeIf g d (if (s.src a).sle (s.src b) then s.src b else s.src a) s
def execMinu (d a b : Reg) (g : PredIx) (s : State) : Out :=
  writeIf g d (if (s.src a).ule (s.src b) then s.src a else s.src b) s
def execMaxu (d a b : Reg) (g : PredIx) (s : State) : Out :=
  writeIf g d (if (s.src a).ule (s.src b) then s.src b else s.src a) s
def execCmp (p : PredIx) (a b : Reg) (g : PredIx) (x : BitVec 3) (s : State) : Out :=
  predIf g p (cmpOp x (s.src a) (s.src b)) s
def execSel (d a b : Reg) (p g : PredIx) (s : State) : Out :=
  writeIf g d (if s.psrc p then s.src a else s.src b) s
def execBits (d a : Reg) (g : PredIx) (x : BitVec 2) (s : State) : Out := writeIf g d (bitsOp x (s.src a)) s
def execExt (d a b e : Reg) (g : PredIx) (s : State) : Out := writeIf g d (extField (s.src a) (s.src b) e) s
def execExtS (d a b e : Reg) (g : PredIx) (s : State) : Out := writeIf g d (extFieldS (s.src a) (s.src b) e) s
def execIns (d a b e : Reg) (g : PredIx) (s : State) : Out := writeIf g d (insField (s.src d) (s.src a) (s.src b) e) s

end Sys2Proof.Machine
end

