-- ==== Sys2Proof/Machine/Ops.lean ====
section
/-!
DEFINITION. Operations that instructions share: saving and restoring a context (R182, R183), taking a trap (R177) and
its escalation (R180), page faults (R105), pre-emption (R182), the ways of stopping, replies and waits.
-/
namespace Sys2Proof.Machine

open Sys2Proof

/-! ## The save area (R183) -/

def RetKind.code : RetKind → Nat
  | .none => 0 | .deque => 1 | .inline => 2

def RetKind.ofCode (n : Nat) : RetKind := if n = 1 then .deque else if n = 2 then .inline else .none

/-- Load-queue rows of a strand that still wait for elements, and drains still queued. -/
def Slot.lqWaiting (x : Slot) : Nat :=
  (x.lq.toList.flatMap id).countP fun r => match r with
    | .waiting .. => true
    | .arrived _ => false
def Slot.drainsQueued (x : Slot) : Nat := (x.drains.toList.map List.length).sum

/-- Bytes 0x000–0x277 of a save area. -/
def saveLow (x : Slot) (vlen vecDva : Nat) : List Byte :=
  bytesOfWords (x.s.toList.map BitVec.toNat)
    ++ (x.c.toList.flatMap fun (c : Cap) => bytesOfNat 32 c.toNat)
    ++ bytesOfWords
      [x.pc.toNat, x.statusWord.toNat,
       (x.p ||| 1).toNat + x.ret.code * 2 ^ 8 + bit x.gang 10 + bit x.adone 11 + x.retpos.toNat * 2 ^ 12, x.join,
       x.strand.toNat * 2 ^ 40 + x.group.toNat * 2 ^ 16 + x.ival.toNat, x.trapvec.toNat, x.traprec.toNat, x.ticket.toNat,
       x.stealdom.toNat, x.dtnan.toNat, x.timer.toNat, vlen, x.allot, vecDva,
       x.stgs % 65536 + x.lqWaiting % 65536 * 2 ^ 16 + x.drainsQueued % 65536 * 2 ^ 32]

/-- Bytes 0x300–0x347: the result queues and the counts in use. R183 puts both counts into the word at 0x340: the matrix count low, the
copy count high (DESIGN CHOICE, unsafe; log entry 84). -/
def saveHigh (x : Slot) : List Byte :=
  let four (l : List Word) : List Nat := ((l.map BitVec.toNat) ++ List.replicate 4 0).take 4
  bytesOfWords (four x.matRes ++ four x.copyRes ++ [x.matRes.length + x.copyRes.length * 2 ^ 32])

/-- The DVA of a slot's vector state in its tenant's vector save area (R182): 4 GiB for each launch, in which 256 KiB for each slot of
each core of the launch. The manual has the supervisor give each launch a DVA in its tenant's area, and gives neither that DVA, nor the
place of a slot in it, nor the form of what is saved (DESIGN CHOICE; log entry 28). -/
def State.vecArea (s : State) (core slot : Nat) : Nat :=
  let x := s.slot core slot
  let index := (((s.launchOf x).bind (·.seat core)).map (·.index)).getD 0
  (s.tenant (s.asidOf x)).areas.vectorArea + x.launch.getD 0 * 2 ^ 32 + (16 * index + slot) * 2 ^ 18

/-- The places in a saved context of a register by its code: s, p or c. -/
def savedPlaces (code : Nat) : List Nat :=
  if code < 32 then [8 * code] else if code < 40 then [0x210]
  else if code < 48 then (List.range 4).map fun i => 0x100 + 32 * (code - 40) + 8 * i else []

/-- A word poisoned. -/
def State.taint (s : State) (l : Loc) : State := s.wrLoc l (s.rdLoc l 8) true

/-- The context of a slot written to its save area, with the DVA at which its vector state is saved, 0 where none is; the trap record's
place is left as it is. Poison of a register goes with it (R186). -/
def State.saveContext (s : State) (core slot vec : Nat) : State :=
  let x := s.slot core slot
  let s := s.wrLm core (saveArea slot) (saveLow x ((s.core core).vlen slot) vec)
  let s := s.wrLm core (saveArea slot + 0x300) (saveHigh x)
  (x.regPoison.flatMap savedPlaces).foldl (fun s o => s.taint (.lm core (saveArea slot + o))) s

/-- The registers of a saved context that carry poison, by code; and whether a word of it that is no register does. -/
def State.savedPoison (s : State) (area : Loc) : List Nat :=
  (List.range 48).filter fun code =>
    code != 0 && code != 32 && (savedPlaces code).any fun o => s.poisonedAt (area.plus o) 8
def State.savedBad (s : State) (area : Loc) : Bool :=
  s.poisonedAt (area.plus 0x200) 16 || s.poisonedAt (area.plus 0x218) 0x60 || s.poisonedAt (area.plus 0x300) 0x48

/-- A word of a saved context. -/
def savedWord (bs : List Byte) (off : Nat) : Word := BitVec.ofNat 64 (natOfBytes ((bs.drop off).take 8))

/-- STATUS without its reserved bits, which read 0 (R4), and the bits that other fields of a slot decide. -/
def statusStored (w : Word) : Word := w &&& 0x00FFFFFEFF0D3F00

/-- A capability without the reserved bits of its layout (R4, R56). -/
def capStored (c : Cap) : Cap := .make c.base c.limit c.rights c.gen (c.extractLsb' 144 8)

/-- A slot's registers and words from the bytes of a saved context; poison is restored beside them. -/
def Slot.restore (x : Slot) (bs : List Byte) : Slot :=
  let w := savedWord bs
  let misc := w 0x210
  let words (off n : Nat) : List Word := (List.range n).map fun i => w (off + 8 * i)
  { x with
    s := Vector.ofFn fun (i : Fin 32) => w (8 * i.val)
    c := Vector.ofFn fun (i : Fin 8) => capStored (BitVec.ofNat 256 (natOfBytes ((bs.drop (0x100 + 32 * i.val)).take 32)))
    pc := w 0x200
    status := statusStored (w 0x208)
    p := misc.extractLsb' 0 8 ||| 1
    ret := RetKind.ofCode (fld misc 8 2)
    adone := misc.getLsbD 11
    retpos := misc.extractLsb' 12 16
    join := (w 0x218).toNat
    strand := (w 0x220).extractLsb' 40 24
    group := (w 0x220).extractLsb' 16 24
    ival := (w 0x220).extractLsb' 0 16
    trapvec := w 0x228
    traprec := w 0x230
    ticket := w 0x238
    stealdom := (w 0x240).extractLsb' 0 2
    dtnan := (w 0x248).extractLsb' 0 8
    timer := (w 0x250).extractLsb' 0 32
    matRes := words 0x300 (min 4 (fld (w 0x340) 0 32))
    copyRes := words 0x320 (min 4 (fld (w 0x340) 32 32)) }

/-! ## Pre-emption (R182) -/

/-- Bytes of a launch's hardware written at a DVA, page by page, with their poison; `fuel` bounds the pages. A page that does not
translate is left out. -/
def State.putDva (s : State) (core asid dva : Nat) (bs : List Byte) (poison : Bool) : Nat → State
  | 0 => s
  | fuel + 1 =>
    if bs.isEmpty then s
    else
      let n := 4096 - dva % 4096
      let s := match s.xlateNow core asid dva false true with
        | (s, .ok l) => s.coreWrite core none l (bs.take n) poison (s.pasidFor asid)
        | (s, .error _) => s
      s.putDva core asid (dva + n) (bs.drop n) poison fuel

/-- Bytes that a launch's hardware reads at a DVA, and the DVA of the first word with poison; none once a page does not translate. -/
def State.getDva (s : State) (core asid dva : Nat) (len : Nat) : Nat → State × Option (List Byte × Option Nat)
  | 0 => (s, some ([], none))
  | fuel + 1 =>
    if len = 0 then (s, some ([], none))
    else
      let n := min len (4096 - dva % 4096)
      match s.xlateNow core asid dva true false with
      | (s, .error _) => (s, none)
      | (s, .ok l) =>
        let s := s.l2Access core none l n false [] (s.pasidFor asid)
        match s.getDva core asid (dva + n) (len - n) fuel with
        | (s', some (bs, bad)) =>
          (s', some (s.rdLoc l n ++ bs, if s.poisonedAt l n then some (dva + s.poisonOff l n) else bad))
        | (s', none) => (s', none)

/-- The DVA at which v[r] of a slot is saved, and the bytes of its lanes. -/
def State.vregArea (s : State) (core slot r : Nat) : Nat := s.vecArea core slot + 2048 * r
def laneBytes (lanes : List Half) : List Byte := lanes.flatMap fun v => bytesOfNat 4 v.toNat

/-- v[r] of a slot written to its place in the vector save area. -/
def State.saveVreg (s : State) (core slot r : Nat) : State :=
  s.putDva core (s.asidOf (s.slot core slot)) (s.vregArea core slot r) (laneBytes ((s.core core).vreg slot r))
    ((s.core core).vPoisoned slot r) 2

/-- Where an arrived row of a load queue, and a row of a store queue, stands in a slot's part of the vector save area. -/
def lqPlace (q i : Nat) : Nat := 0x10000 + 0x800 * (16 * q + i)
def sqPlace (q i : Nat) : Nat := 0x30000 + 0x800 * (8 * q + i)

/-- The queue rows of a slot that the vector save area holds: their places and lanes. -/
def Slot.savedRows (x : Slot) : List (Nat × List Half) :=
  (List.range 4).flatMap (fun q => ((x.lq[q]?.getD []).zip (List.range 16)).filterMap fun ri => match ri.1 with
    | .arrived lanes => some (lqPlace q ri.2, lanes)
    | .waiting .. => none)
  ++ (List.range 2).flatMap fun q => ((x.sqRows[q]?.getD []).zip (List.range 8)).map fun ri => (sqPlace q ri.2, ri.1)

/-- A sequencer entry as saved: its word, scalar operands, and whether it stands in the cluster's queue. -/
def SeqEntry.saved (e : SeqEntry) : List Nat :=
  let w := match encode e.op with
    | .a w => w.toNat
    | _ => 0
  [w, e.x.toNat, e.y.toNat, bit e.sent 0]

/-- The items of a sequencer as saved: length, passes, passes done and position of a run, all 0 for one entry, and the entries. -/
def seqSaved (q : List SeqItem) : List Nat :=
  q.flatMap fun i => match i with
    | .one e => [1, 0, 0, 0] ++ e.saved
    | .run n count pass pos es => [n + 2 ^ 32 * es.length, count, pass, pos] ++ es.flatMap (·.saved)

/-- The queue rows of a slot written to their places in the vector save area. -/
def State.saveRows (s : State) (core slot : Nat) : State :=
  let x := s.slot core slot
  x.savedRows.foldl (fun s r => s.putDva core (s.asidOf x) (s.vecArea core slot + r.1) (laneBytes r.2) false 2) s

/-- The vector state of a slot with lanes written to the vector save area (R182): registers over the granted lanes, queue rows, sequencer
entries and the run state. -/
def State.saveVregs (s : State) (core slot : Nat) : State :=
  if (s.core core).vlen slot = 0 then s
  else
    let x := s.slot core slot
    let s := ((List.range x.allot).foldl (fun s r => s.saveVreg core slot r) s).saveRows core slot
    s.putDva core (s.asidOf x) (s.vecArea core slot + 0x38000) (bytesOfWords (seqSaved x.seq)) false 3

/-- The vector state saved: the lanes are released, and the saved groups stand as a recorded request of their number. The rows keep
the numbers of their groups until they are restored. -/
def Slot.saveVector (x : Slot) : Slot :=
  if x.groups.isEmpty then x else { x with svGroups := x.groups, groups := [] }

/-- The context saved and the slot SAVED, its strand to go on at its pc (R182). A gang is saved whole in the even
slot's area, and the odd half stays GANGED (R181). -/
def State.preempt (s : State) (core slot : Nat) : State :=
  let s := (s.saveVregs core slot).saveContext core slot
    (if (s.core core).vlen slot = 0 then 0 else s.vecArea core slot)
  let s := if (s.slot core slot).gang then s.modSlot core (slot + 1) (·.saveVector) else s
  s.modSlot core slot fun x => { x.saveVector with st := .saved, preReq := none, reply := none, park := none, walk := none }

/-! ## Traps (R177, R180) -/

/-- Turns that the entries of a sequencer may take. -/
def seqFuel (q : List SeqItem) : Nat :=
  q.foldl (fun n i => n + match i with
    | .one _ => 20000
    | .run k count _ _ _ => k * count + 1) 0

/-- A slot's request in the special-function queue completes (R173): its result is written and its entry is done. The result of a
SAVED slot goes into the saved vector state, a row for a store queue too: its drain is met on resumption (R184, R339). -/
def State.finishSfu (s : State) (core slot : Nat) : State :=
  let cl := clusterOf core
  match (s.cluster cl).sfu.find? fun r => r.core == core && r.slot == slot && !r.dead with
  | none => s
  | some r =>
    let s := s.modCluster cl fun c => { c with sfu := c.sfu.erase r }
    let row := r.xs.map fun x => sfu x (r.d.b.extractLsb' 0 3)
    let saved := (s.slot core slot).st == .saved
    let s := s.modCore core fun c =>
      let c := if saved then c.keepRow slot r.d row else c.putRow slot r.d row
      c.setSlot slot { c.slot slot with seq := seqAdvance (c.slot slot).seq }
    if !saved then s else if r.d.qd == 0#1 then s.saveVreg core slot r.d.d.toNat else s.saveRows core slot

/-- Waiting rows that can be read are read, and entries run while the head can complete, as often as that brings another row. -/
def State.settleSeq (s : State) (core slot : Nat) : Nat → State
  | 0 => s
  | n + 1 =>
    if (s.slot core slot).seq.isEmpty then s
    else
      let t := (State.orKilled (s.fillRows core slot) core slot).modCore core fun c => c.runSeq slot (seqFuel (c.slot slot).seq)
      if (t.slot core slot).lqWaiting = (s.slot core slot).lqWaiting then t else t.settleSeq core slot n

/-- An entry at the head of a sequencer, or a drain that one waits for, is still to go on after a DTWR (R147). -/
def Core.tableHeld (c : Core) (k : Nat) : Bool :=
  ((seqHead (c.slot k).seq).any fun e => e.code8 && c.tableHolds e.at') || ((c.slot k).drains.toList.flatMap id).any c.drainHeld

/-- A trap waits: an entry may still want a reserved row whose elements follow a store that is out at another package (R123, R177), or
waits for a DTWR (R147; DEDUCED; log entry 22). -/
def State.trapWaits (s : State) (core slot : Nat) : Bool :=
  let t := (s.finishSfu core slot).settleSeq core slot 65
  !(t.slot core slot).seq.isEmpty && (!t.rowsFree core slot || (t.core core).tableHeld slot)

/-- The sequencer is emptied (R177): the rows that load queues hold reserved arrive, entries run while the head can complete, and
the others are discarded; their number. -/
def State.emptySequencer (s : State) (core slot : Nat) : Nat × State :=
  let s := (s.finishSfu core slot).settleSeq core slot 65
  let s := if (s.core core).eatsPoison slot then s.killSlot core slot 0 else s
  let n := seqLeft (s.slot core slot).seq
  (n, s.modSlot core slot fun x => { x with seq := [], seqReply := false })

/-- A gang ends (R81): the odd slot is FREE, its lanes are lost. -/
def State.splitGang (s : State) (core slot : Nat) : State :=
  (s.freeOdd core slot).modSlot core slot fun x => { x with gang := false }

/-- Escalation of a trap whose record cannot be pushed (R180). -/
def State.escalate (s : State) (core slot : Nat) (r : TrapRec) : State :=
  let s := s.modSlot core slot fun x => { x with pc := BitVec.ofNat 64 r.epc, adone := r.adone }
  let write (s : State) : State := s.wrLm core (saveArea slot + 0x3C0) { r with esc := true }.bytes
  if slot = 14 then
    let x := s.slot core slot
    let s := write (s.saveContext core slot 0)
    let s := s.abortTicket core slot (s.asidOf x) x.ticket.toNat false
    ((s.modSlot core slot fun x => { x.vacate .free with ticket := 0 }).moveStgs (.slot core slot) .ended).notify 2
      (s.slotid core slot)
  else (write (s.preempt core slot)).notify 2 (s.slotid core slot)

/-- TAKING A TRAP (R177), for which s2 is read, so that its poison kills (R186): class, INFO, the pc and group of the pair, whether its
A-slot had completed, and the slot of the pair that trapped. A GANG that waits for its boundary stays pending (DESIGN CHOICE; log entry
23). -/
def State.takeTrap (s : State) (core slot cls info : Nat) (pc : Word) (pair : Nat) (adone slotk : Bool) : State :=
  let (n, s) := s.emptySequencer core slot
  if (s.slot core slot).st = .killed then s
  else if (s.slot core slot).regPoison.contains 2 then s.killSlot core slot 0
  else
  let g := (s.slot core slot).gang
  let s := if g then
      (s.splitGang core slot).modSlot core slot fun x => { x with status := bitOn x.status stGsplit }
    else s
  let pk := (s.slot core slot).packet.isSome
  let s := s.modSlot core slot fun x =>
    { x with
      packet := none, st := .ready, park := none, reply := none, adone := false, held := if adone then x.held else none
      since := none, walk := none, out := none, inl := none }
  let x := s.slot core slot
  let s2 := (x.reg 2).toNat
  let epc := if cls = clsTrapi then (pc + 8).toNat else pc.toNat
  let r : TrapRec :=
    { epc := epc, info := info, pair := pair, cls := cls, seqd := n, adone := adone, esc := false, pktd := pk, gspl := g,
      slotk := slotk, prev := x.traprec.toNat, cyc := s.cc, w48 := 0, w56 := 0 }
  let a := s2 - 64
  if x.trapvec = 0 ∨ s2 < programArea + 64 ∨ s2 > s.lmend core x ∨ s2 % 8 ≠ 0 then s.escalate core slot r
  else
    let s := match s.place x.launch core a with
      | some p => s.homeWrite (clusterOf core) (.lm core p) r.bytes false
      | none => s
    let s := s.wrLm core (saveArea slot + 0x3C0) r.bytes
    let s := s.modSlot core slot fun x =>
      { x.setReg 2 (BitVec.ofNat 64 a) with
        traprec := BitVec.ofNat 64 a, status := setFld x.status 24 8 cls, pc := x.trapvec, held := none }
    s.renegotiate core slot

/-- A trap of the pair being issued. -/
def State.trapHere (s : State) (cls info : Nat) (adone : Bool) : State :=
  s.takeTrap s.curCore s.curSlot cls info s.lat.pc (s.lat.w0.toNat + s.lat.w1.toNat * 2 ^ 32) adone s.lat.inA

/-! ## Page faults (R105) -/

/-- The next context tag of a slot: 1 to 0xFFFF, then 1 again. -/
def nextTag (n : Nat) : Nat := if n ≥ 0xFFFF then 1 else n + 1

/-- A failed translation: the slot is FAULTED, its context saved, and a record written. -/
def State.faultSlot (s : State) (core slot dva cause : Nat) (kind : Access) (pc : Word) (adone mma : Bool) : State :=
  let x := s.slot core slot
  let tag := nextTag x.faults
  let asid := s.asidOf x
  let s := s.modSlot core slot fun x =>
    { x with
      pc := pc, adone := adone, held := if adone then x.held else none, st := .faulted, faults := tag, faultTag := tag
      mmaFault := mma, walk := none, since := none, inl := none, grants := [], reply := none
      park := if mma then x.park else none }
  (s.saveContext core slot 0).faultRecord core slot asid dva cause kind tag

/-! ## How an instruction ends -/

/-- The sources of the pair being issued, as they stood before it. -/
def State.sources (s : State) : Sources := ⟨s.lat.s, s.lat.p, s.lat.status⟩

/-- The C-slot is to run again: the pc goes back to its pair, whose A-slot completes (R48, R49, R105). -/
def State.again (s : State) : State :=
  s.modCur fun x => { x with pc := s.lat.pc, adone := true, held := some s.sources }

/-- The whole pair is to run again, but for an A-slot that had completed before. -/
def State.againWhole (s : State) : State :=
  let s := if s.lat.adone then s.again else s.modCur fun x => { x with pc := s.lat.pc, adone := false, held := none }
  { s with lat := { s.lat with flow := .waits } }

/-- The current slot waits in REPLY. -/
def State.await (s : State) (c : ReplyCond) (ws : List (Nat × Word)) (reissue : Bool) : State :=
  s.modCur fun x => { x with st := .reply, reply := some ⟨c, ws, reissue⟩, out := none }

/-- The current slot is PARKED. -/
def State.parkCur (s : State) (p : Park) : State := s.modCur fun x => { x with st := .parked, park := some p }

/-- The current slot waits for a page walk (R103). -/
def State.awaitWalk (s : State) (asid dva : Nat) (kind : Access) : State :=
  (s.await .walked [] true).modCur fun x => { x with walk := some ⟨asid, dva, kind, true, none⟩ }

/-- The pair that the current slot has begun, and issues again: when it first issued, and its words. -/
def Slot.begin' (x : Slot) (t : Nat) (w0 w1 : Half) : Slot := { x with since := some t, begun := (w0, w1) }

/-- The current pair is to issue again, from `t` on if nothing before it said so. -/
def State.begins (s : State) (t : Nat) : State := s.modCur fun x => x.begin' (x.since.getD t) s.lat.w0 s.lat.w1

/-- The translation of the C-slot's access has failed (R105): the slot is FAULTED; while no more records can wait in the port, the
access waits as a miss does. -/
def State.parkFault (s : State) (dva cause : Nat) (kind : Access) : State :=
  let asid := s.asidOf s.cur
  if s.faultWaits s.curCore asid then s.again.awaitWalk asid dva kind
  else s.again.faultSlot s.curCore s.curSlot dva cause kind s.lat.pc true false

/-- A trap on the answer of an access (R48). -/
def State.trapAnswer (s : State) (cls info : Nat) : State :=
  let s := (s.modCur fun x => { x with held := some s.sources }).trapHere cls info true
  { s with lat := { s.lat with flow := .answered cls info } }

/-- An instruction stops; one that is to trap issues again while the trap waits for its load-queue rows. -/
def State.stop (s : State) (e : Stop) : State :=
  let waits := s.trapWaits s.curCore s.curSlot
  match e with
  | .trap cls info =>
    if waits then (s.againWhole.await .rowsFree [] true).begins s.cc
    else
      let s := s.trapHere cls info s.lat.adone
      { s with lat := { s.lat with flow := .trapped cls info } }
  | .answer cls info => if waits then (s.again.await .rowsFree [] true).begins s.cc else s.trapAnswer cls info
  | .race checked dva write =>
    if waits then (s.again.await .rowsFree [] true).begins s.cc
    else (s.raceNoted checked write).trapAnswer clsRace (dva / 32 * 32)
  | .walk asid dva kind => (s.again.awaitWalk asid dva kind).begins s.cc
  | .fault dva cause kind => s.parkFault dva cause kind
  | .reissue c => ((if c.whole then s.againWhole else s.again).await c [] true).begins s.cc
  | .park p => (s.again.parkCur p).begins s.cc
  | .kill dva => s.killSlot s.curCore s.curSlot dva

/-- The end of an instruction that may stop; entries of a flushed walk serve one access only (R108). -/
def finish (s : State) (r : Except Stop State) : Out :=
  .next (match r with
    | .ok t => t.modCur fun x => { x with grants := [], since := none, walk := none, inl := none }
    | .error e => s.stop e)

/-- The end of a guarded instruction that may stop (R50). -/
def guarded (g : PredIx) (s : State) (r : Except Stop State) : Out := if s.guard g then finish s r else .next s

/-- The reply of an access is there, and is still to be written (R49). -/
def State.replyWith (s : State) (ws : List (Nat × Word)) : State := s.await .now ws false

/-- An instruction whose answer is in: the slot is in REPLY until REPLY_WRITTEN writes s[d]. -/
def State.replyReg (s : State) (d : Reg) (v : Word) : State := s.replyWith [(d.toNat, v)]

/-! ## Accesses carried to other packages (R95) -/

/-- The current slot waits for another package; `o` gives what is special of its request. -/
def State.awaitPeer (s : State) (dev dva : Nat) (ws : List (Nat × Word)) (o : PeerAccess → PeerAccess) : State :=
  let p : PeerAccess :=
    ⟨s.lat.pc, s.lat.w0.toNat + s.lat.w1.toNat * 2 ^ 32, (s.routeTo dev).getD 0, false, false, dva, false, .fullEmpty, s.tick⟩
  ({ s with tick := s.tick + 1 }.await .peer ws false).modCur fun x => { x with out := some (o p), held := some s.sources }

/-- The current slot as a requester, with the number of the request that it makes next. -/
def State.requester (s : State) : Nat := s.curSlot + 32 * s.tick

/-- A wait of the current slot may be: not in the handler slot, and no packet is open (R87, R89). -/
def State.mayWait (s : State) : Bool := s.curSlot != 14 && s.cur.packet.isNone

/-- A peer's access turned away. -/
def State.nackTo (s : State) (core slot : Nat) (why : Nack) : State := s.tell core (.nack core slot why)

/-! ## Waits that would park (R87, R89) -/

/-- A wait in PARKED traps HBLK in the handler slot and PKT with a packet open. `answer` says that the home finds the
wait necessary (R48). -/
def State.mayPark (s : State) (cop : Nat) (answer : Bool) : Check := do
  let e (cls info : Nat) : Stop := if answer then .answer cls info else .trap cls info
  need (s.curSlot != 14) (e clsHblk cop)
  need s.cur.packet.isNone (e clsPkt 5)

/-- Supervisor instructions (R265). -/
def State.supervisor (s : State) : Check := need s.cur.supervisor (.trap clsSys 0x11)

/-- Instructions a coupled strand may not issue (R191). -/
def State.notCoupled (s : State) : Check := need (!s.cur.coupled) (.trap clsSys 0x10)

/-- An instruction that first waits until the slot's sequencer is empty. -/
def State.seqEmpty (s : State) : Check := need s.cur.seq.isEmpty (.reissue .seqEmpty)

/-- Every queued drain has met its row, as stores and releases need (R161). -/
def State.drainsIn (s : State) : Check := need (s.cur.drainsQueued == 0) (.reissue .drainsIn)

/-- The walk record at a DVA, translated for the current slot (R344); a record lies in device memory (R206). -/
def State.recordAt (s : State) (dva : Nat) : Except Stop WalkRec := do
  need (!isWindow dva) (.trap clsSeg dva)
  let lo ← s.xlate dva .atomic
  match recordTail dva with
  | none => .ok ⟨lo, lo⟩
  | some tail => do
    let hi ← s.xlate tail .atomic
    .ok ⟨lo, hi⟩

/-- The cluster of the current core. -/
def State.cl (s : State) : Nat := clusterOf s.curCore

/-- The cc that the current instruction's wait for earlier stores counts from. -/
def State.waitsSince (s : State) : Nat := s.cur.since.getD s.cc

/-- The elements of the current slot's load-queue rows are read: a release, or an access that leaves the core, never comes before
them (R121, R123, R160). -/
def State.rowsIn (s : State) : Except Stop State := do
  need (s.rowsReady s.curCore s.curSlot) (.reissue .rowsIn)
  match s.fillRows s.curCore s.curSlot with
  | (s, none) => .ok s
  | (_, some dva) => .error (.kill dva)

/-- A release (R119): the slot's queued drains are in the path, its load-queue rows are read, and every store that has entered the
core's path is performed, in other packages too (R118, R161). -/
def State.release (s : State) : Except Stop State := do
  s.drainsIn
  need (!s.pathOut s.curCore s.curSlot s.waitsSince) (.reissue (.pathIn s.waitsSince))
  let s ← s.rowsIn
  .ok (s.drainStores s.curCore)

/-- An STG of a slot's strand to a word of another package is out. -/
def State.stgOut (s : State) (core slot : Nat) (l : Loc) (n : Nat) : Bool :=
  s.stgs.any fun g => g.owner == .slot core slot && g.loc.isPeer && l.meets n g.loc

/-- No drain that the strand has queued has still to store to the words of `n` bytes from a place: an access to them comes after it in
program order (R96, R121, R122, R127). The manual names the wait for stores and releases alone (R161; DEDUCED; log entry 80). -/
def State.drainsOff (s : State) (l : Loc) (n : Nat) : Check :=
  need (!s.cur.drainsOn s.cc l n) (.reissue (.drainsOn l n))

/-- An access of `n` bytes that leaves the core: its load-queue rows and the strand's own earlier stores to its words come first (R96,
R122, R123, R127, R160). A store that is out at another package, or an STG to a word there, is waited for. -/
def State.ownFirst (s : State) (l : Loc) (n : Nat) : Except Stop State := do
  s.drainsOff l n
  need (s.pathFree s.curCore l n) (.reissue (.pathIn s.waitsSince))
  need (!s.stgOut s.curCore s.curSlot l n) (.reissue (.stgsTo l n))
  let s ← s.rowsIn
  .ok (s.flushTo s.curCore s.curSlot l n)

end Sys2Proof.Machine
end

