-- ==== Sys2Proof/Machine/MemFam.lean ====
section
/-!
DEFINITION. Loads, stores, full/empty accesses, atomics, remote stores, fences, queue rows and range flushes
(spec/05, 06, 19–21: R91, R92, R115, R125–R127, R160, R161, R270–R278, R299–R302, R309–R311, R314, R331, R339–R342).
-/
namespace Sys2Proof.Machine

open Sys2Proof

/-- The class of the current strand's launch. -/
def State.classOf (s : State) : Nat := ((s.launchOf s.cur).map (·.cls)).getD 0

/-- An access carried to another package: the slot is in REPLY until it answers; the words of the answer go to the
registers named (R95). `acq` says that the answer is an acquire (R120). -/
def State.toPeer (s : State) (dev dva : Nat) (op : Instr) (args : List Word) (regs : List Reg) (acq : Bool) : State :=
  (s.sendTo dev (.access (s.coreloc s.curCore) s.requester s.classOf dva op args s.mayWait)).awaitPeer dev dva
    (regs.map fun r => (r.toNat, 0)) fun o => { o with acq := acq }

/-- A window access that finds no partition traps SEG on the answer (R98). -/
def partition (l : Loc) : Check :=
  match l with
  | .noPart dva => .error (.answer clsSeg dva)
  | _ => .ok ()

/-- The word's copy in the issuing core's L1 follows a read or a write at the home (R122). -/
def State.refresh (s : State) (l : Loc) (n : Nat) : State := s.refreshL1 s.curCore l (s.rdLoc l n) false

/-- A line served at its home to the current slot, under the PASID of its launch (R250). -/
def State.serveMe (s : State) (l : Loc) (write inval : Bool) : State :=
  s.touch l write s.cl [] (s.pasidOf s.cur.launch) inval

/-- An access of the current slot served at its home, after its own earlier ones (R122, R123, R160). -/
def State.atHome (s : State) (l : Loc) (write : Bool) : Except Stop State := do
  let s ← s.ownFirst l 8
  .ok (s.serveMe l write write)

/-! ## LD, ST, LDL, STL -/

/-- The bytes of a plain load of the current slot, and whether they carry poison (R110, R121–R123): from the L1 if it serves the
load, but for words that a waiting load-queue row of the slot has still to read; else by an access that leaves the core. -/
def State.plainLoad (s : State) (l : Loc) (n : Nat) (checked ro : Bool) : Except Stop (State × List Byte × Bool) := do
  s.drainsOff l n
  match if s.cur.rowsOn l n then (s, none) else s.l1Hit s.curCore l checked with
  | (s, some line) => .ok (s, line.bytes (l.addr % 128) n, line.poisoned (l.addr % 128) n)
  | (s, none) => do
    let s ← s.ownFirst l n
    .ok (s.readHome s.curCore s.curSlot l n checked true ro)

/-- LD (R309). A load that Sage checks is checked where it is performed, at the home after the stores that it follows (R131, R134). -/
def State.load (s : State) (c : CapIx) (off : Word) (d : Reg) : Except Stop State := do
  let (l, dva) ← s.globalLoc c off 8 true false .read .other
  partition l
  match l with
  | .peer dev dva =>
    let s ← s.ownFirst l 8
    .ok (s.toPeer dev dva (.ld d 0 c 0) [] [d] false)
  | _ =>
    let k := s.cap c
    let t ← if k.s then s.ownFirst l 8 else .ok s
    let t ← t.sage s.curCore s.curSlot k.s l dva false 0 true
    let (t, bs, poison) ← t.plainLoad l 8 k.s (k.q || s.pageQ dva)
    if poison then .error (.kill dva) else .ok (t.replyReg d (BitVec.ofNat 64 (natOfBytes bs)))

/-- A store of the current slot enters the core's path (R110, R118), with the check that Sage has still to make (R131). -/
def State.enterPath (s : State) (l : Loc) (bs : List Byte) (await : Bool) (check : Option PathCheck) : State :=
  s.modHere fun c => c.enter ⟨s.curSlot, l, bs, await, false, s.cc, check, none, none⟩

/-- A checked store of the current slot: in Sage's trap mode it is checked as it issues, so that its pair can trap (R135); else as it
is performed at its home, in order with the loads there (R338). What is left to check. -/
def State.sageStore (s : State) (c : CapIx) (l : Loc) (dva scope : Nat) : Except Stop (State × Option PathCheck) :=
  let checked := (s.cap c).s
  if s.sageTraps s.cur then do
    let s ← s.sage s.curCore s.curSlot checked l dva true scope true
    .ok (s, none)
  else .ok (s, s.cur.pathCheck checked dva scope)

/-- ST (R340): to device memory the slot issues on; through the window its reply comes when the target has written. -/
def State.store (s : State) (c : CapIx) (off data : Word) : Except Stop State := do
  let (l, dva) ← s.globalLoc c off 8 false true .write .other
  s.drainsIn
  partition l
  let (s, check) ← s.sageStore c l dva 0
  let bs := bytesOfNat 8 data.toNat
  match l with
  | .mem .. => .ok (s.enterPath l bs false check)
  | .peer dev _ => .ok ((s.enterPath l bs true none).awaitPeer dev dva [] id)
  | _ => .ok ((s.enterPath l bs true none).await .peer [] false)

/-- The window DVA of a local offset of the current core, for a record that names a DVA. -/
def State.ownDva (s : State) (off : Word) : Nat := gwin s.device s.curCore off.toNat

/-- LDL (R311). -/
def State.loadLocal (s : State) (off : Word) (d : Reg) : Except Stop State := do
  let l ← s.localLoc off 8 .ldl
  if s.poisonedAt l 8 then .error (.kill (s.ownDva off)) else .ok (s.setReg d (s.rdWord l))

/-- STL (R342): performed at once. -/
def State.storeLocal (s : State) (off data : Word) : Except Stop State := do
  let l ← s.localLoc off 8 .other
  s.drainsIn
  let s ← s.rowsIn
  .ok (s.homeWrite s.cl l (bytesOfNat 8 data.toNat) false)

def execLd (d a : Reg) (c : CapIx) (imm : BitVec 12) (s : State) : Out := finish s (s.load c (s.offset a imm) d)
def execLdLone (d a : Reg) (c : CapIx) (ext : Half) (s : State) : Out := finish s (s.load c (s.offset a ext) d)
def execSt (d a : Reg) (c : CapIx) (imm : BitVec 12) (s : State) : Out := finish s (s.store c (s.offset a imm) (s.src d))
def execStLone (d a : Reg) (c : CapIx) (ext : Half) (s : State) : Out := finish s (s.store c (s.offset a ext) (s.src d))
def execLdl (d a : Reg) (imm : BitVec 12) (s : State) : Out := finish s (s.loadLocal (s.offset a imm) d)
def execLdlLone (d a : Reg) (ext : Half) (s : State) : Out := finish s (s.loadLocal (s.offset a ext) d)
def execStl (d a : Reg) (imm : BitVec 12) (s : State) : Out := finish s (s.storeLocal (s.offset a imm) (s.src d))
def execStlLone (d a : Reg) (ext : Half) (s : State) : Out := finish s (s.storeLocal (s.offset a ext) (s.src d))

/-! ## Full/empty accesses (R91, R299–R301) -/

/-- The word of a CF access: global for m = 0, local for m = 1 (R300). -/
def State.cfLoc (s : State) (c : CapIx) (m : BitVec 1) (off : Word) (read write : Bool) (kind : Access) (use : LocalUse) :
    Except Stop (Loc × Nat) :=
  if m = 0#1 then do
    let r ← s.globalLoc c off 8 read write kind use
    partition r.1
    .ok r
  else do
    let l ← s.localLoc off 8 use
    .ok (l, s.ownDva off)

/-- What comes before a CF access: an alias access and a window access to one word are unordered (R96). -/
def State.cfFirst (s : State) (m : BitVec 1) (l : Loc) : Except Stop State := if m = 0#1 then s.ownFirst l 8 else .ok s

/-- A CF access served at its home. -/
def State.cfHome (s : State) (m : BitVec 1) (l : Loc) (write : Bool) : Except Stop State := do
  let s ← s.cfFirst m l
  .ok (s.serveMe l write write)

/-- The wait list of a word's home has room (R91): 4,096 entries per home slice, 16 per core. -/
def State.waitRoom (s : State) (l : Loc) : Bool :=
  match l with
  | .mem pa t _ _ => (s.waiters.countP fun w => match w.loc with
      | .mem pa' t' _ _ => home pa' t' == home pa t
      | _ => false) < 4096
  | .lm core _ => (s.core core).waiters.length < 16
  | _ => true

/-- The slot PARKED on the wait list of a word's home, or a BUSY answer (R91, R300). -/
def State.waitOn (s : State) (l : Loc) (dva : Nat) (kind : WaitKind) (cop : Nat) (global : Bool) : Except Stop State := do
  s.mayPark cop global
  need (s.waitRoom l) (.reissue .busy)
  let w : Waiter := ⟨.slot s.curCore s.curSlot, l, dva, kind, s.cc⟩
  let s := s.parkCur .fullEmpty
  .ok (match l with
    | .lm core _ => s.modCore core fun c => { c with waiters := c.waiters ++ [w] }
    | _ => { s with waiters := s.waiters ++ [w] })

/-- A word read at the home by a CF access that need not wait: the register, the L1 copy, the acquire. -/
def State.taken (s : State) (l : Loc) (d : Reg) (v : Word) (acquire : Bool) : State :=
  let s := s.refreshL1 s.curCore l (bytesOfNat 8 v.toNat) false
  (if acquire then s.selfInvalidate s.curCore else s).replyReg d v

/-- LDH. -/
def State.ldh (s : State) (c : CapIx) (m : BitVec 1) (off : Word) (d : Reg) : Except Stop State := do
  let (l, dva) ← s.cfLoc c m off true false .read .ldh
  match l with
  | .peer dev dva =>
    let s ← s.cfFirst m l
    .ok (s.toPeer dev dva (.ldh d 0 c m 0) [] [d] false)
  | _ =>
    let s ← s.cfHome m l false
    if s.poisonedAt l 8 then .error (.kill dva) else .ok (s.taken l d (s.rdWord l) false)

/-- LDF. -/
def State.ldf (s : State) (c : CapIx) (m : BitVec 1) (off : Word) (d : Reg) : Except Stop State := do
  let (l, dva) ← s.cfLoc c m off true false .read .other
  match l with
  | .peer dev dva =>
    let s ← s.cfFirst m l
    .ok (s.toPeer dev dva (.ldf d 0 c m 0) [] [d] true)
  | _ =>
    let s ← s.cfHome m l false
    if s.full l then
      if s.poisonedAt l 8 then .error (.kill dva) else .ok (s.taken l d (s.rdWord l) true)
    else s.waitOn l dva (.ldf d) 6 (m == 0#1)

/-- LDX of a word that is full: taken and left empty; the home then serves the word's waiters. -/
def State.takeFull (s : State) (l : Loc) (d : Reg) : State :=
  let v := s.rdWord l
  (((s.setFull l false).taken l d v true).countTaken l).serve l

/-- LDX; of local 0x0_8000 in slot 15 it is a gathered take (R92). -/
def State.ldx (s : State) (c : CapIx) (m : BitVec 1) (off : Word) (d : Reg) : Except Stop State := do
  let (l, dva) ← s.cfLoc c m off true true .atomic .ldx
  match l with
  | .peer dev dva =>
    let s ← s.cfFirst m l
    .ok (s.toPeer dev dva (.ldx d 0 c m 0) [] [d] true)
  | .lm core 0x8000 =>
    if s.curSlot = 15 then
      match s.fullMb core with
      | some o =>
        if s.poisonedAt (.lm core o) 8 then .error (.kill (dva + (o - 0x8000))) else .ok (s.takeFull (.lm core o) d)
      | none => s.waitOn l dva (.gather d) 6 (m == 0#1)
    else .error (.trap clsSys dva)
  | _ =>
    let s ← s.cfHome m l true
    if s.full l then
      if s.poisonedAt l 8 then .error (.kill dva) else .ok (s.takeFull l d)
    else s.waitOn l dva (.ldx d) 6 (m == 0#1)

/-- A word written at its home by a CF store; the L1 copy follows. -/
def State.filled (s : State) (l : Loc) (data : Word) : State :=
  ((s.fill s.cl l data).refreshL1 s.curCore l (bytesOfNat 8 data.toNat) false).replyWith []

/-- STF: a release, then a wait for an empty word. -/
def State.stf (s : State) (c : CapIx) (m : BitVec 1) (off data : Word) : Except Stop State := do
  let (l, dva) ← s.cfLoc c m off false true .write .stf
  let s ← s.release
  let s ← s.cfFirst m l
  match l with
  | .peer dev dva => .ok (s.toPeer dev dva (.stf 0 0 c m 0) [data] [] false)
  | _ =>
    if s.full l then s.waitOn l dva (.stf data) 7 (m == 0#1) else .ok (s.filled l data)

/-- STFA: a release, then the word written and filled. -/
def State.stfa (s : State) (c : CapIx) (m : BitVec 1) (off data : Word) : Except Stop State := do
  let (l, _) ← s.cfLoc c m off false true .write .stfa
  let s ← s.release
  let s ← s.cfFirst m l
  match l with
  | .peer dev dva => .ok (s.toPeer dev dva (.stfa 0 0 c m 0) [data] [] false)
  | _ => .ok (s.filled l data)

/-- FECLR: the word's bit empty, its data kept. -/
def State.feclr (s : State) (c : CapIx) (m : BitVec 1) (off : Word) : Except Stop State := do
  let (l, _) ← s.cfLoc c m off false true .write .other
  let s ← s.cfFirst m l
  match l with
  | .peer dev dva => .ok (s.toPeer dev dva (.feclr 0 c m 0) [] [] false)
  | _ => .ok ((((s.serveMe l true true).setFull l false).serve l).replyWith [])

def execLdh (d a : Reg) (c : CapIx) (m : BitVec 1) (imm : BitVec 9) (s : State) : Out :=
  finish s (s.ldh c m (s.offsetW a imm) d)
def execLdf (d a : Reg) (c : CapIx) (m : BitVec 1) (imm : BitVec 9) (s : State) : Out :=
  finish s (s.ldf c m (s.offsetW a imm) d)
def execLdx (d a : Reg) (c : CapIx) (m : BitVec 1) (imm : BitVec 9) (s : State) : Out :=
  finish s (s.ldx c m (s.offsetW a imm) d)
def execStf (d a : Reg) (c : CapIx) (m : BitVec 1) (imm : BitVec 9) (s : State) : Out :=
  finish s (s.stf c m (s.offsetW a imm) (s.src d))
def execStfa (d a : Reg) (c : CapIx) (m : BitVec 1) (imm : BitVec 9) (s : State) : Out :=
  finish s (s.stfa c m (s.offsetW a imm) (s.src d))
def execFeclr (a : Reg) (c : CapIx) (m : BitVec 1) (imm : BitVec 9) (s : State) : Out :=
  finish s (s.feclr c m (s.offsetW a imm))

/-- WAIT_LIST_BUSY_REISSUE (R91): an access answered BUSY is reissued. -/
def execWaitListBusyReissue (core slot : Nat) (s : State) : Out :=
  .next (match (s.slot core slot).reply with
    | some ⟨.busy, _, _⟩ => s.modSlot core slot fun x => { x with st := .ready, reply := none }
    | _ => s)

/-! ## Atomics (R270–R278) -/

/-- The new value of an ATOM on `n` bytes (R271). -/
def atomOp (op : BitVec 4) (n old v : Nat) : Nat :=
  let m := 2 ^ (8 * n)
  let sgn (x : Nat) : Int := if x < m / 2 then x else (x : Int) - m
  if op = 0#4 then (old + v) % m
  else if op = 1#4 then old &&& v
  else if op = 2#4 then old ||| v
  else if op = 3#4 then old ^^^ v
  else if op = 4#4 then (if sgn old ≤ sgn v then old else v)
  else if op = 5#4 then (if sgn old ≤ sgn v then v else old)
  else if op = 6#4 then min old v
  else if op = 7#4 then max old v
  else if op = 8#4 then v
  else fp32.bits .rne ((fp32.value old).add (fp32.value v))

/-- Operations that the host proxy performs by a read and a CAS loop (R252). -/
def proxyLoops : Instr → Bool
  | .atom _ _ _ _ _ _ op => op != 0#4 && op != 8#4
  | _ => false

/-- HOST_ATOMIC_PROXY: a plain store of the host that is next in line may fall between the proxy's read and its successful
CAS, and is then overwritten (R252). -/
def State.proxyRace (s : State) (l : Loc) (op : Instr) : State :=
  match l, s.inputs with
  | .mem pa _ _ _, .hostStore a bs :: rest =>
    if proxyLoops op && hostPa pa then
      let (t, s) := s.fresh
      if Config.choose t % 2 = 1 then
        let s := { s with inputs := rest }
        if hostPa a then s.homeWrite 0 (.mem a false 0 0) bs false else s
      else s
    else s
  | _, _ => s

/-- What ATOM and CAS share: checks, release, the operation alone at the home, the answer, acquire. `f` gives the
new value if one is written. -/
def State.rmw (s : State) (c : CapIx) (off : Word) (n : Nat) (ord : BitVec 2) (op : Instr) (args : List Word)
    (regs : List Reg) (f : Nat → Option Nat) : Except Stop State := do
  let (l, dva) ← s.globalLoc c off n true true .atomic .other
  partition l
  let s ← if ord.getLsbD 1 then s.release else .ok s
  let s ← s.ownFirst l n
  match l with
  | .peer dev dva => .ok (s.toPeer dev dva op args regs (ord.getLsbD 0))
  | _ =>
    let s := s.serveMe l false true
    if s.poisonedAt l n then .error (.kill (dva + s.poisonOff l n))
    else
      let old := natOfBytes (s.rdLoc l n)
      let s := s.proxyRace l op
      let s := match f old with
        | some v => ((s.touch l true s.cl (bytesOfNat n v)).wrLoc l (bytesOfNat n v) false).refreshL1 s.curCore l (bytesOfNat n v) false
        | none => s.refresh l n
      let s := if (f old).isSome then s.serveAll l n else s
      let s := if ord.getLsbD 0 then s.selfInvalidate s.curCore else s
      .ok (s.replyWith ((List.range regs.length).map fun i =>
        ((regs.getD i 0).toNat, BitVec.ofNat 64 (old / 2 ^ (64 * i)))))

def execAtom (d a b : Reg) (c : CapIx) (ord : BitVec 2) (size : BitVec 1) (op : BitVec 4) (s : State) : Out :=
  let n := if size = 1#1 then 4 else 8
  let v := (s.src b).toNat % 2 ^ (8 * n)
  finish s (s.rmw c (s.src a) n ord (.atom d 0 0 c ord size op) [s.src b] [d] fun old => some (atomOp op n old v))

/-- The register after another: the high half of a pair. -/
def next1 (r : Reg) : Reg := r + 1

def execCas (d a b : Reg) (c : CapIx) (ord : BitVec 2) (size : BitVec 1) (s : State) : Out :=
  let pair (r : Reg) : Nat := (s.src r).toNat + (s.src (next1 r)).toNat * 2 ^ 64
  let wide := size = 1#1
  let want := if wide then pair d else (s.src d).toNat
  let new := if wide then pair b else (s.src b).toNat
  finish s (s.rmw c (s.src a) (if wide then 16 else 8) ord (.cas d 0 b c ord size)
    (if wide then [s.src d, s.src (next1 d), s.src b, s.src (next1 b)] else [s.src d, s.src b])
    (if wide then [d, next1 d] else [d]) fun old => if old = want then some new else none)

/-! ## STG and FENCE (R126, R127, R302, R341) -/

/-- STG: to device memory it is ST; to the window it is accepted, and performed later. -/
def State.postedStore (s : State) (c : CapIx) (off data : Word) : Except Stop State := do
  let (l, dva) ← s.globalLoc c off 8 false true .write .other
  match l with
  | .mem .. =>
    s.drainsIn
    let (s, check) ← s.sageStore c l dva 2
    .ok (s.enterPath l (bytesOfNat 8 data.toNat) false check)
  | _ =>
    s.drainsIn
    need (s.cur.stgs < 64) (.reissue .stgRoom)
    need (s.pathFree s.curCore l 8) (.reissue (.pathIn s.waitsSince))
    let s ← s.rowsIn
    let s := s.performPath s.curCore (pathPrefix s.here.path l 8)
    let g : Stg := ⟨s.curCore, .slot s.curCore s.curSlot, l, dva, data, if l.isPeer then s.routeTo (winDev dva) else none⟩
    let s := match l with
      | .peer dev _ => s.sendTo dev (.stg { g with core := s.coreloc s.curCore } dev s.classOf)
      | _ => s
    .ok ({ s with stgs := s.stgs ++ [g] }.countStgs g.owner)

def execStg (d a : Reg) (c : CapIx) (imm : BitVec 12) (s : State) : Out :=
  finish s (s.postedStore c (s.offset a imm) (s.src d))
def execStgLone (d a : Reg) (c : CapIx) (ext : Half) (s : State) : Out :=
  finish s (s.postedStore c (s.offset a ext) (s.src d))

/-- STG_ACKNOWLEDGEMENT (R127): the n-th STG in flight to a word of this package, unless an earlier one of its strand to the same
word is. One to another package is acknowledged over its link. -/
def execStgAcknowledgement (n : Nat) (s : State) : Out :=
  .next (match s.stgs[n]? with
    | some g =>
      if g.loc.isPeer || (s.stgs.take n).any fun h => h.core == g.core && h.owner == g.owner && h.loc.sameWord g.loc then s
      else s.performStg g
    | none => s)

/-- FENCE (R126). -/
def State.fence (s : State) (f : BitVec 2) : Except Stop State := do
  let s ← s.release
  need (f.getLsbD 0 == false || s.cur.stgs == 0) (.reissue .stgAcked)
  .ok (if f.getLsbD 1 then
      s.flushStgs s.curCore s.curSlot fun l => match l with
        | .lm core _ => core == s.curCore
        | _ => false
    else s)

def execFence (g : PredIx) (f : BitVec 2) (s : State) : Out := guarded g s (s.fence f)

/-- STORE_PERFORMED (R118): the oldest store of a core's path. -/
def execStorePerformed (core : Nat) (s : State) : Out := .next (s.performHead core)

/-! ## Queue rows (R160, R314, R339) -/

/-- Offsets of the elements of a row: lane l at s[a] + l × t (R160). -/
def rowOffsets (start stride : Word) (n : Nat) : List Word := (List.range n).map fun l => start + BitVec.ofNat 64 l * stride

/-- Every element checked, in lane order; the DVAs. -/
def State.checkRow (s : State) (c : CapIx) (size : Nat) (write : Bool) : List Word → Except Stop (List Nat)
  | [] => .ok []
  | off :: rest => do
    let dva ← s.capDva c off size (!write) write
    if isWindow dva then
      let _ ← s.windowLoc s.cur.launch s.cur.supervisor s.curSlot dva size .other
    else need (dva % size == 0) (.trap clsAln dva)
    let ds ← s.checkRow c size write rest
    .ok (dva :: ds)

/-- An element of a row finds a partition at its target, or traps on the answer (R98). What the cores of another package hold is not
this package's state: a free value (log entry 81). -/
def State.rowPartition (s : State) (l : Loc) : Check :=
  match l with
  | .peer _ dva => need (Config.peerSeat s.classOf (dva / 2 ^ 30) s.cc) (.answer clsSeg dva)
  | l => partition l

/-- Every element translated, in lane order; a window element without a partition traps on the answer. -/
def State.placeRow (s : State) (size : Nat) (write : Bool) : List Nat → Except Stop (List (Loc × Nat))
  | [] => .ok []
  | dva :: rest => do
    let l ← if isWindow dva then s.windowLoc s.cur.launch s.cur.supervisor s.curSlot dva size .other
      else s.xlate dva (if write then .write else .read)
    s.rowPartition l
    let ls ← s.placeRow size write rest
    .ok ((l, dva) :: ls)

/-- The elements of a row of the current thread. -/
def State.row (s : State) (c : CapIx) (a b : Reg) (size : Nat) (write : Bool) : Except Stop (List (Loc × Nat)) := do
  let stride := if b = 0#5 then BitVec.ofNat 64 size else s.src b
  let dvas ← s.checkRow c size write (rowOffsets (s.src a) stride (s.here.vlen s.curSlot))
  s.placeRow size write dvas

/-- What comes before an access of `n` bytes to each of some places. -/
def State.ownFirstAll (s : State) (n : Nat) : List Loc → Except Stop State
  | [] => .ok s
  | l :: rest => do
    let s ← s.ownFirst l n
    s.ownFirstAll n rest

/-- LQ. In Sage's trap mode a checked row is read as it issues, so that a race traps RACE on the answer and no element is read
(R135). -/
def State.lqRow (s : State) (d a b : Reg) (c : CapIx) (k : BitVec 4) : Except Stop State := do
  if s.here.vlen s.curSlot = 0 then .ok s
  else
    let elems ← s.row c a b (lqSize k) false
    let q := d.toNat
    need (decide ((s.cur.lq[q]?.getD []).length < 16)) (.reissue (.lqRoom q))
    let ro := (s.cap c).q
    let elems := elems.map fun e => (e.1, e.2, ro || s.pageQ e.2)
    let checked := (s.cap c).s
    let push (s : State) (r : LqRow) : State := s.modCur fun x => { x with lq := x.lq.setIfInBounds q ((x.lq[q]?.getD []) ++ [r]) }
    if checked && s.sageTraps s.cur then
      let s ← s.ownFirstAll (lqSize k) (elems.map (·.1))
      match s.readRow s.curCore s.curSlot k true false true s.cc elems with
      | (s, .ok lanes) => .ok (push s (.arrived lanes))
      | (_, .error e) => .error e
    else .ok (push s (.waiting k elems checked s.cc))

/-- The elements of an SQ row checked by Sage as it issues, in trap mode (R135). -/
def State.sqChecks (s : State) : List (Loc × Nat) → Except Stop State
  | [] => .ok s
  | (l, dva) :: rest => do
    let s ← s.sage s.curCore s.curSlot true l dva true 1 true
    match s.sqChecks rest with
    | .ok s => .ok s
    | .error e => .error (e.after true l dva)

/-- SQ. In Sage's trap mode the elements are checked as it issues, so that a race traps RACE and nothing is stored (R135). -/
def State.sqRow (s : State) (d a b : Reg) (c : CapIx) (k : BitVec 4) : Except Stop State := do
  if s.here.vlen s.curSlot = 0 then .ok s
  else
    let elems ← s.row c a b (sqSize k) true
    let q := d.toNat
    need (decide ((s.cur.drains[q]?.getD []).length < 8)) (.reissue (.sqRoom q))
    let checked := (s.cap c).s
    let now := checked && s.sageTraps s.cur
    let s ← if now then s.sqChecks elems else .ok s
    let s := s.modCur fun x =>
      { x with drains := x.drains.setIfInBounds q ((x.drains[q]?.getD []) ++ [⟨k, elems, checked && !now, s.cc, s.waitsSince⟩]) }
    .ok (s.modHere fun c => c.drainRows s.curSlot)

def execLq (d a b : Reg) (c : CapIx) (g : PredIx) (k : BitVec 4) (s : State) : Out := guarded g s (s.lqRow d a b c k)
def execSq (d a b : Reg) (c : CapIx) (g : PredIx) (k : BitVec 4) (s : State) : Out := guarded g s (s.sqRow d a b c k)

/-- The oldest waiting row of a slot is read; that of a SAVED slot goes to the vector save area with the others (R184). -/
def State.rowArrives (s : State) (core slot : Nat) : State :=
  let s := State.orKilled (s.fillOldest core slot true) core slot
  if (s.slot core slot).st = .saved then s.saveRows core slot else s

/-- LOAD_QUEUE_ROW_FILL (R160): the oldest waiting row of a slot is read, if it is the queue's. -/
def execLoadQueueRowFill (core slot q : Nat) (s : State) : Out :=
  .next (if (s.slot core slot).oldestRow.any (·.q == q) then s.rowArrives core slot else s)

/-! ## RFLUSH and RINV (R115, R331) -/

/-- Lines of a DVA range, widened to whole 128-byte lines. -/
def rangeLines (dva len : Nat) : List Nat :=
  if len = 0 then [] else (List.range ((dva + len + 127) / 128 - dva / 128)).map (dva / 128 + ·)

/-- The physical lines of DVA lines. -/
def State.physLines (s : State) : List Nat → Except Stop (List Nat)
  | [] => .ok []
  | l :: rest => do
    let p ← s.xlate (l * 128) .read
    let ps ← s.physLines rest
    .ok (match p with
      | .mem pa _ _ _ => pa / 128 :: ps
      | _ => ps)

/-- RFLUSH and RINV. The manual gives the range to the walker and does not say who translates it: every line is translated as the
instruction issues, with read access, so that its slot can fault on the range (DESIGN CHOICE; log entry 66). -/
def State.rangeOp (s : State) (d a b : Reg) (c : CapIx) (inv : Bool) : Except Stop State := do
  let k := s.cap c
  let off := (s.src a).toNat
  let len := (s.src b).toNat
  need (k.any && k.r && decide (off + len ≤ k.limit ∧ k.base + off + len ≤ 2 ^ 56)
    && !isWindow (k.base + off) && !(rangeLines (k.base + off) len).any fun l => isWindow (128 * l)) (.trap clsSeg off)
  let o := (s.src d).toNat
  need (k.w && decide (o + 8 ≤ k.limit ∧ k.base + o < 2 ^ 56) && !k.q && s.genCurrent s.cur k
    && !isWindow (k.base + o)) (.trap clsSeg o)
  need ((k.base + o) % 8 == 0) (.trap clsAln o)
  if len != 0 ∧ (s.cluster s.cl).walker.length ≥ 8 then
    s.mayPark 0x0E false
    .error (.park .walker)
  let barrier ← s.xlate (k.base + o) .write
  let lines ← s.physLines (rangeLines (k.base + off) len)
  let s ← s.release
  if len = 0 then .ok (s.fill s.cl barrier 0 (s.pasidOf s.cur.launch))
  else
    .ok (s.modCluster s.cl fun w => { w with walker := w.walker ++ [⟨inv, lines, barrier, s.cur.launch.getD 0, s.cc⟩] })

def execRflush (d a b : Reg) (c : CapIx) (g : PredIx) (s : State) : Out := guarded g s (s.rangeOp d a b c false)
def execRinv (d a b : Reg) (c : CapIx) (g : PredIx) (s : State) : Out := guarded g s (s.rangeOp d a b c true)

/-- The L2 copies of a line come home and leave the L2s (R115). -/
def State.recallLine (s : State) (line : Nat) : State :=
  s.withHier (128 * line) (s.hier.recall (s.env 0 []) line none true) false

/-- A dirty line of the LLC written to DRAM and kept clean (R115). -/
def State.cleanLine (s : State) (line : Nat) : State :=
  match s.hier.llc.look line with
  | some t =>
    if t.dirty then
      let h := s.hier.writeBack s.keySlot t.attr line ((s.env 0 []).bytes line)
      s.withHier (128 * line) { h with llc := h.llc.put line { t with dirty := false } } false
    else s
  | none => s

/-- Slots of a cluster parked for room in its walker become READY and issue again (R72). -/
def State.wakeWalker (s : State) (cl : Nat) : State :=
  (clusterSlots cl).foldl (fun s ck =>
    if (s.slot ck.1 ck.2).park = some .walker then s.wake ck.1 ck.2 [] else s) s

/-- CACHE_WALK (R115): the oldest range of a cluster's walker. -/
def execCacheWalk (cluster : Nat) (s : State) : Out :=
  .next (match (s.cluster cluster).walker with
    | [] => s
    | r :: rest =>
      let s := s.modCluster cluster fun c => { c with walker := rest }
      let s := (List.range 8).foldl (fun s i => s.modCore (8 * cluster + i) fun c =>
        { c with l1 := c.l1.filter fun l => !r.lines.contains l.1 }) s
      let s := if r.inv then
          { s with cores := s.cores.map fun kc =>
              (kc.1, { kc.2 with icache := kc.2.icache.filter fun l => !r.lines.contains l.1 }) }
        else s
      let s := r.lines.foldl State.recallLine s
      let s := if r.inv then s else r.lines.foldl State.cleanLine s
      (s.fill cluster r.barrier 0 (s.pasidOf (some r.launch))).wakeWalker cluster)

end Sys2Proof.Machine
end

