-- ==== Sys2Proof/Machine/CapFam.lean ====
section
/-!
DEFINITION. Capabilities: CLD, CST, CNAR, CGIVE (spec/05_memory_and_addressing.md R99–R102; spec/19_ref_a_to_d.md R280),
and the loading of c0–c7 from the capability table (R56, R82).
-/
namespace Sys2Proof.Machine

open Sys2Proof

/-! ## The table (R99) -/

/-- The DVA of a table entry of a launch. -/
def Launch.entryDva (l : Launch) (index : Nat) : Nat := l.captab + 32 * index

/-- The capability in a table entry as a register holds it: INDEX and the current GEN filled in. -/
def State.tableCap (s : State) (l : Launch) (index : Nat) (place : Loc) : Cap :=
  let c : Cap := BitVec.ofNat 256 (natOfBytes (s.rdLoc place 32))
  Cap.make c.base c.limit c.rights (l.gen index) (BitVec.ofNat 8 index)

/-- An entry written with INDEX 0; its GEN rises at every core of the launch (R99). -/
def State.writeEntry (s : State) (l : Launch) (index : Nat) (place : Loc) (base limit : Nat) (rights : BitVec 6) : State :=
  let gen := (Sparse.get 0 (((s.launchById l.id).map (·.gens)).getD []) index : BitVec 16) + 1
  let s := s.modLaunch l.id fun l => { l with gens := l.gens.put index gen }
  s.homeWrite s.cl place (bytesOfNat 32 (Cap.make base limit rights gen 0).toNat) false

/-- c0–c7 loaded from the entries named (R82): through the port, by hardware; and the DVA of the first poisoned word, 0 for a
poisoned page-table entry (R385). An entry whose page does not translate loads no rights. -/
def State.loadCaps (s : State) (core : Nat) (l : Launch) : List Nat → State × List Cap × Option Nat
  | [] => (s, [], none)
  | i :: rest =>
    match s.xlateNow core l.asid (l.entryDva i) true false with
    | (s, .ok place) =>
      let s := s.touchLines place 32 false (clusterOf core) [] (s.pasidOf (some l.id))
      let c := s.tableCap l i place
      let bad := if s.poisonedAt place 32 then some (l.entryDva i + s.poisonOff place 32) else none
      match s.loadCaps core l rest with
      | (s, cs, b) => (s, c :: cs, bad <|> b)
    | (s, .error cause) =>
      match s.loadCaps core l rest with
      | (s, cs, b) => (s, 0 :: cs, (if cause = 0 then some 0 else none) <|> b)

/-! ## The instructions -/

/-- The current strand's launch. -/
def State.myLaunch (s : State) : Option Launch := s.launchOf s.cur

/-- An entry's place for the current strand; table pages are protected memory, reached by hardware. -/
def State.entryLoc (s : State) (index : Nat) : Except Stop Loc :=
  match s.myLaunch with
  | some l => s.xlate (l.entryDva index) .read
  | none => .error (.trap clsSeg index)

/-- CLD. -/
def State.cld (s : State) (a : Reg) (c : CapIx) : Except Stop State := do
  let i := (s.src a).toNat
  need (c != 0#3 && decide (i < 256)) (.trap clsSeg i)
  let place ← s.entryLoc i
  let s ← s.atHome place false
  match s.myLaunch with
  | some l =>
    if s.poisonedAt place 32 then .error (.kill (l.entryDva i + s.poisonOff place 32))
    else .ok (s.modCur fun x => x.setCap c (s.tableCap l i place))
  | none => .ok s

/-- The checks of a table write: O, a current generation, a target that is not entry 0 or 1 (R101). -/
def State.ownCheck (s : State) (c : CapIx) (target : Nat) : Check := do
  let k := s.cap c
  need (decide (target < 256) && k.o && s.genCurrent s.cur k && target != 0 && target != 1) (.trap clsSeg target)

/-- CST. -/
def State.cst (s : State) (a : Reg) (c : CapIx) : Except Stop State := do
  let i := (s.src a).toNat
  s.ownCheck c i
  let place ← s.entryLoc i
  match s.myLaunch with
  | some l => .ok ((s.writeEntry l i place (s.cap c).base (s.cap c).limit (s.cap c).rights).replyWith [])
  | none => .ok s

/-- CNAR. -/
def State.cnar (s : State) (d a b : Reg) (c : CapIx) : Except Stop State := do
  let k := s.cap c
  let off := (s.src a).toNat
  let size := (s.src b).toNat
  need (c != 0#3 && k.any && decide (off ≤ k.limit ∧ off + size ≤ k.limit)) (.trap clsSeg off)
  let keep := (s.src d).extractLsb' 0 6 ||| 0x10#6
  .ok (s.modCur fun x => x.setCap c (Cap.make (k.base + off) size (k.rights &&& keep) k.gen (BitVec.ofNat 8 k.index)))

/-- Whether a line of a core's L1 may overlap a DVA range: kept only if the port maps it, and only outside the range. -/
def State.lineOutside (s : State) (core asid line base limit : Nat) : Bool :=
  let dvas := ((s.cluster (clusterOf core)).tlb.filter (·.asid == asid)).filterMap fun e =>
    match e.loc (e.page * 4096) with
    | .mem pa _ _ _ =>
      if pa ≤ line * 128 ∧ line * 128 < pa + e.pages * 4096 then some (e.page * 4096 + (line * 128 - pa)) else none
    | _ => none
  !dvas.isEmpty && dvas.all fun d => decide (d + 128 ≤ base ∨ base + limit ≤ d)

/-- CGIVE (R102): release, sweep of the L1, the two table writes. -/
def State.cgive (s : State) (a : Reg) (c : CapIx) : Except Stop State := do
  let i := (s.src a).toNat
  let k := s.cap c
  s.ownCheck c i
  need (i != k.index) (.trap clsSeg i)
  let target ← s.entryLoc i
  let source ← s.entryLoc k.index
  let s ← s.release
  match s.myLaunch with
  | none => .ok s
  | some l =>
    let s := s.modHere fun h =>
      { h with l1 := h.l1.filter fun x => s.lineOutside s.curCore l.asid x.1 k.base k.limit }
    let old : Cap := BitVec.ofNat 256 (natOfBytes (s.rdLoc source 32))
    let s := s.writeEntry l i target k.base k.limit k.rights
    .ok ((s.writeEntry l k.index source old.base old.limit (old.rights &&& 0b110101#6)).replyWith [])

def execCld (a : Reg) (c : CapIx) (g : PredIx) (s : State) : Out := guarded g s (s.cld a c)
def execCst (a : Reg) (c : CapIx) (g : PredIx) (s : State) : Out := guarded g s (s.cst a c)
def execCnar (d a b : Reg) (c : CapIx) (g : PredIx) (s : State) : Out := guarded g s (s.cnar d a b c)
def execCgive (a : Reg) (c : CapIx) (g : PredIx) (s : State) : Out := guarded g s (s.cgive a c)

end Sys2Proof.Machine
end

