-- ==== Sys2Proof/Machine/Strand.lean ====
section
/-!
DEFINITION. Strands: frames, SPAWN, AWAIT, DONE, MIGRATE, stealing, arrivals, ganging
(spec/04_strands_and_slots.md R80–R90; spec/19–21 R273, R286, R287, R306, R319, R320, R337, R338, R384).
-/
namespace Sys2Proof.Machine

open Sys2Proof

/-- The next rotation boundary after a cc (R76). -/
def nextBoundary (cc : Nat) : Nat := (cc / 16 + 1) * 16

/-! ## Frames (R82) -/

/-- A frame. -/
structure Frame where
  pc      : Word
  carry   : List Word
  capidx  : List Nat
  join    : Nat
  group   : BitVec 24
  retpos  : BitVec 16
  ret     : RetKind
  origin  : Nat
  arrival : Bool
  domain  : BitVec 2
  deriving DecidableEq, Repr

def Frame.bytes (f : Frame) : List Byte :=
  bytesOfWords (f.pc.toNat :: f.carry.map BitVec.toNat) ++ f.capidx.map (BitVec.ofNat 8) ++
    bytesOfWords [f.join, f.group.toNat * 2 ^ 40 + f.retpos.toNat * 2 ^ 16 + f.ret.code * 2 ^ 8 + f.origin * 2 ^ 4
      + bit f.arrival 2 + f.domain.toNat]

def Frame.ofBytes (bs : List Byte) : Frame :=
  let w := savedWord bs
  let flags := w 88
  { pc := w 0, carry := (List.range 8).map fun i => w (8 + 8 * i)
    capidx := (List.range 8).map fun j => fld (w 72) (8 * j) 8
    join := (w 80).toNat, group := flags.extractLsb' 40 24, retpos := flags.extractLsb' 16 16
    ret := RetKind.ofCode (fld flags 8 2), origin := fld flags 4 4, arrival := flags.getLsbD 2
    domain := flags.extractLsb' 0 2 }

/-- The capability index vector of a slot. -/
def Slot.capidx (x : Slot) : List Nat := x.c.toList.map fun (c : Cap) => c.index

/-- s24–s31 as they stood before the pair. -/
def State.carry (s : State) : List Word := (List.range 8).map fun i => s.src (BitVec.ofNat 5 (24 + i))

/-- The storage of frame place `p` of a launch's deque, and of record place `p` of its arrival queue (R97, R98). -/
def Seat.framePlace (x : Seat) (p : Nat) : Nat := 0x4000 + 96 * (x.dqBase + p)
def Seat.recordPlace (x : Seat) (p : Nat) : Nat := 0x5800 + 96 * (x.arrBase + p)

/-- The lowest free place of `n`. -/
def freePlace (n : Nat) (used : List Nat) : Option Nat := (List.range n).find? fun p => !used.contains p

/-- Registers that a resumption leaves undefined: s1, s3–s23, and s2 and the predicates too where the strand moves to
another slot (R57, R82). They are free values. -/
def State.scramble (s : State) (core slot : Nat) (moved : Bool) : State :=
  let t := s.tick
  let s := { s with tick := t + 33 }
  s.modSlot core slot fun x =>
    { x with
      s := Vector.ofFn fun (i : Fin 32) =>
        if i.val = 0 ∨ 24 ≤ i.val ∨ (i.val = 2 ∧ !moved) then x.s[i] else Config.freeWord (t + i.val)
      p := if moved then (Config.freeWord (t + 32)).extractLsb' 0 8 ||| 1 else x.p }

/-- A frame resumed in a slot for a launch (R82): pc, s24–s31, c0–c7, join link, Sage's strand; and the DVA of poison in a
capability-table entry. -/
def State.resume (s : State) (core slot : Nat) (l : Launch) (f : Frame) (moved : Bool) : State × Option Nat :=
  match s.loadCaps core l f.capidx with
  | (s, caps, bad) =>
    let s := s.scramble core slot moved
    let (s, strand, group, ival) := s.frameStrand l f.group.toNat
    (s.modSlot core slot fun x =>
      { x with
        pc := f.pc, join := f.join, strand := strand, group := group, ival := ival, st := .ready, adone := false
        s := Vector.ofFn fun (i : Fin 32) => if i.val < 24 then x.s[i] else f.carry.getD (i.val - 24) 0
        c := Vector.ofFn fun (i : Fin 8) => caps.getD i.val 0 }, bad)

/-- The CSRs, status and lanes of a strand that starts in a slot by a steal, an arrival, a handler start or a launch
(R384, R59, R90): TRAPVEC, TRAPREC, TICKET and PREEMPT_TIMER 0, DTNAN 0xFF. -/
def Slot.startCsrs (x : Slot) (l : Launch) (dom : BitVec 2) : Slot :=
  { x with
    held := none, since := none, inl := none, regPoison := [], trapvec := 0, traprec := 0, ticket := 0, timer := 0
    dtnan := 0xFF, stealdom := dom
    status := setFld 0 33 7 l.dqcap, launch := some l.id, ret := .none, retpos := 0, join := 0, allot := 0, groups := []
    want := 0, vrf := [], svGroups := [], packet := none, preReq := none, adone := false, park := none, reply := none }

/-! ## Join words -/

/-- The join word decremented or incremented at its home, with service of its waiters; the issuer's L1 copy follows (R122). -/
def State.addAt (s : State) (l : Loc) (n : Word) : State :=
  let bs := bytesOfNat 8 (s.rdWord l + n).toNat
  (s.homeWrite s.cl l bs false).refreshL1 s.curCore l bs false

/-! ## SPAWN (R83, R337, R338) -/

/-- The launch's deque on a core is at its spawn capacity. -/
def State.dequeFull (s : State) (x : Slot) (core : Nat) : Bool :=
  match (s.launchOf x).bind (·.seat core) with
  | some p => decide (x.dqcap ≤ p.frames.length)
  | none => true

/-- The checks of s2 that an inlined frame needs (R83, R84): `lo` and `hi` are the frame's first byte and its end. -/
def State.stackCheck (s : State) (lo hi : Int) : Check := do
  let s2 := (s.src 2).toNat
  need (decide ((programArea : Int) ≤ lo ∧ hi ≤ (s.lmend s.curCore s.cur : Int))) (.trap clsSeg s2)
  need (s2 % 8 == 0) (.trap clsAln s2)

/-- A SPAWN begins to issue: whether it is inlined is decided once (R83). -/
def State.decideInl (s : State) : State :=
  s.modCur fun x => { x with inl := x.inl <|> some (s.dequeFull x s.curCore) }

/-- SPAWN with its target; `reg` says that the target is a register. The frame's place in the deque is the launch's lowest free
one; the manual gives no mapping of a bottom index to a place (DESIGN CHOICE; log entry 68), and an inlined child no ret position: it is
0 (DESIGN CHOICE; log entry 105). -/
def State.spawn (s : State) (a : Reg) (c : CapIx) (target : Word) (reg : Bool) : Except Stop State := do
  let x := s.cur
  need x.packet.isNone (.trap clsPkt 4)
  need (s.curSlot != 14) (.trap clsHblk 0x16)
  s.notCoupled
  let off := s.src a
  let join ← s.capDva c off 8 true true
  need (!isWindow join) (.trap clsSeg off.toNat)
  need (join % 8 == 0) (.trap clsAln off.toNat)
  need (!reg || target.extractLsb' 0 3 == 0#3) (.trap clsAln target.toNat)
  let inl := x.inl.getD (s.dequeFull x s.curCore)
  let s2 := (s.src 2).toNat
  if inl then s.stackCheck ((s2 : Int) - 96) s2
  let place ← s.xlate join .atomic
  let s ← s.release
  let s ← s.atHome place true
  if s.poisonedAt place 8 then .error (.kill join)
  else
    let s := s.addAt place 1
    let (gid, child, s) := s.openGroup x join
    let f : Frame :=
      { pc := s.lat.pc + 8, carry := s.carry, capidx := x.capidx, join := x.join, group := gid, retpos := x.retpos
        ret := x.ret, origin := s.curSlot, arrival := false, domain := x.stealdom }
    let start (ret : RetKind) (pos : BitVec 16) (s : State) : State :=
      (s.replyWith []).modCur fun x =>
        { x with ret := ret, retpos := pos, join := join, pc := target, strand := child, group := gid, ival := 0 }
    match (s.launchOf x).bind (·.seat s.curCore) with
    | some p =>
      if inl then
        let s := match s.place x.launch s.curCore (s2 - 96) with
          | some o => (s.homeWrite s.cl (.lm s.curCore o) f.bytes false).moveStgs (.slot s.curCore s.curSlot) (.frame s.curCore o)
          | none => s
        let s := s.setReg 2 (BitVec.ofNat 64 (s2 - 96))
        let s := s.modCur fun x => { x with status := setFld x.status 40 16 (min (fld x.status 40 16 + 1) 0xFFFF) }
        .ok (start .inline 0 s)
      else
        let at' := (freePlace x.dqcap p.frames).getD 0
        let s := (s.wrLm s.curCore (p.framePlace at') f.bytes).moveStgs (.slot s.curCore s.curSlot)
          (.frame s.curCore (p.framePlace at'))
        let s := s.modSeat (x.launch.getD 0) s.curCore fun p =>
          { p with frames := p.frames ++ [at'], bottom := p.bottom + 1 }
        .ok (start .deque p.bottom s)
    | none => .ok (start .none 0 s)

def execSpawn (a b : Reg) (c : CapIx) (g : PredIx) (s : State) : Out :=
  if s.guard g then finish s.decideInl (s.decideInl.spawn a c (s.src b) true) else .next s
def execSpawnLone (a : Reg) (c : CapIx) (ext : Half) (s : State) : Out :=
  finish s.decideInl (s.decideInl.spawn a c (s.lat.pc + sext64 ext * 8) false)

/-! ## AWAIT (R85, R273) -/

/-- AWAIT: the sequencer is drained first; a count of 0 completes at once, otherwise the slot is PARKED. -/
def State.awaitJoin (s : State) (a : Reg) (c : CapIx) : Except Stop State := do
  let dva ← s.deviceDva c (s.src a) true false
  need (s.cur.packet.isNone || s.curSlot == 14) (.trap clsPkt 4)
  let l ← s.xlate dva .read
  if s.cur.packet.isSome then
    need (s.rdWord l == 0) (.answer clsHblk 0x17)
    .error (.trap clsPkt 4)
  s.seqEmpty
  let s ← s.atHome l false
  if s.poisonedAt l 8 then .error (.kill dva)
  else if s.rdWord l = 0 then .ok ((s.awaitDone s.curCore s.curSlot dva).replyWith [])
  else s.waitOn l dva .await 0x17 true

def execAwait (a : Reg) (c : CapIx) (g : PredIx) (s : State) : Out := guarded g s (s.awaitJoin a c)

/-! ## DONE (R84, R286, R287) -/

/-- A command whose word the strand in its slot pops (R165); one of a context that the slot is lent over is not the strand's (R106). -/
def Completion.own (c : Completion) : Bool := !c.lent
def Completion.popped (c : Completion) : Bool := c.kind == 0 && c.own

/-- A KIND 0 command of a slot for an engine is queued, running, or has its word still to be delivered (R286, R289). -/
def Core.owes (c : Core) (k : Nat) (copy : Bool) : Bool :=
  let x := c.slot k
  (if copy then
      x.copyQ.any (·.comp.popped) || c.copyRun.any fun r => r.slot == k && r.cmd.comp.popped && !r.killed
    else x.matQ.any fun m => !m.sync && m.comp.popped)
  || c.ended.any fun e => e.slot == k && e.copy == copy && e.comp.popped

/-- A slot whose strand has ended or left: FREE, an open walk aborted. -/
def State.freeSlot (s : State) (core slot : Nat) : State :=
  let x := s.slot core slot
  let s := s.abortTicket core slot (s.asidOf x) x.ticket.toNat false
  let s := if s.pairedOdd core slot then s.freeOdd core slot else s
  (s.modSlot core slot fun x => { x.vacate .free with ticket := 0 }).moveStgs (.slot core slot) .ended

/-- A frame at a place of local memory, whose first byte has a window DVA, resumed in place by DONE: ret kind and position from the
frame, and its STGs are the slot's again; poison kills, with the DVA of the poisoned word (R385). -/
def State.resumeHere (s : State) (l : Launch) (place : Loc) (dva : Nat) : Except Stop State :=
  let bs := s.rdLoc place 96
  let s := (s.moveStgs (.slot s.curCore s.curSlot) .ended).moveStgs place.owner (.slot s.curCore s.curSlot)
  if s.poisonedAt place 96 then .ok (s.killSlot s.curCore s.curSlot (dva + s.poisonOff place 96))
  else
    let f := Frame.ofBytes bs
    match s.resume s.curCore s.curSlot l f false with
    | (s, bad) =>
      if bad.isSome then .ok (s.killSlot s.curCore s.curSlot (bad.getD 0))
      else .ok ((s.replyWith []).modCur fun x => { x with ret := f.ret, retpos := f.retpos })

/-- The end of a strand after its checks: the join word, then the frame it resumes, or a FREE slot. -/
def State.endStrand (s : State) (join : Option Loc) : Except Stop State :=
  let x := s.cur
  let poison := match join with
    | some l => s.poisonedAt l 8
    | none => false
  if poison then .error (.kill x.join)
  else
    let s := match join with
      | some l => s.addAt l (-1)
      | none => s
    match x.ret, s.launchOf x, (s.launchOf x).bind (·.seat s.curCore) with
    | .inline, some l, _ =>
      let s2 := (s.src 2).toNat
      match s.place x.launch s.curCore s2 with
      | some o =>
        let s' := s.setReg 2 (BitVec.ofNat 64 (s2 + 96))
        s'.resumeHere l (.lm s.curCore o) (s.ownDva (s.src 2))
      | none => .ok (s.freeSlot s.curCore s.curSlot)
    | .deque, some l, some p =>
      match p.frames.getLast? with
      | some at' =>
        if p.bottom - 1 = x.retpos then
          let s := s.modSeat l.id s.curCore fun p => { p with frames := p.frames.dropLast, bottom := p.bottom - 1 }
          let o := p.framePlace at'
          s.resumeHere l (.lm s.curCore o) (gwin s.device s.curCore o)
        else .ok (s.freeSlot s.curCore s.curSlot)
      | none => .ok (s.freeSlot s.curCore s.curSlot)
    | _, _, _ => .ok (s.freeSlot s.curCore s.curSlot)

/-- DONE. -/
def State.done (s : State) : Except Stop State := do
  let x := s.cur
  need x.packet.isNone (.trap clsPkt 4)
  s.notCoupled
  need (!s.here.owes s.curSlot false && !s.here.owes s.curSlot true && x.matRes.isEmpty && x.copyRes.isEmpty)
    (.trap clsEng 0xFFFF)
  if x.ret = .inline then s.stackCheck (s.src 2).toNat ((s.src 2).toNat + 96)
  if x.ticket != 0 ∧ x.ret ≠ .inline then
    let _ ← s.recordAt x.ticket.toNat
  let join ← if x.join = 0 ∨ s.curSlot = 14 then .ok none else some <$> s.xlate x.join .atomic
  s.seqEmpty
  let s ← s.release
  let s ← match join with
    | some l => s.atHome l true
    | none => .ok s
  if s.curSlot = 14 then .ok (s.freeSlot s.curCore s.curSlot) else s.endStrand join

def execDone (g : PredIx) (s : State) : Out := guarded g s s.done

/-! ## MIGRATE (R90, R319, R320) -/

/-- The address of a core through the window: marker, [29:0] zero, a good form (R87, R90). -/
def State.coreAddress (s : State) (v : Word) : Check :=
  need (fld v 48 8 == 0xFE && fld v 0 30 == 0 && s.windowForm (v.toNat % 2 ^ 56)) (.trap clsSeg v.toNat)

/-- The core has slots of the launch (R87, R90). What the cores of another package hold is not this package's state: a free value
(log entry 81). -/
def State.holdsLaunch (s : State) (x : Slot) (dva : Nat) : Bool :=
  if winDev dva = s.device then ((s.launchOf x).bind (·.seat (winCore dva))).isSome
  else Config.peerHolds (x.launch.getD 0) (dva / 2 ^ 30)

/-- Commands of a slot queued or running on either engine, or results not popped. -/
def State.engineBusy (s : State) (core slot : Nat) : Bool :=
  let x := s.slot core slot
  let c := s.core core
  x.matQ.any (·.comp.own) || x.copyQ.any (·.comp.own) || !x.matRes.isEmpty || !x.copyRes.isEmpty
    || c.copyRun.any (fun r => r.slot == slot && r.cmd.comp.own) || c.ended.any fun e => e.slot == slot && e.comp.own

/-- Packets and records sent, and received, by a core of a launch (R93). -/
def State.countSent (s : State) (launch core : Nat) : State := s.modSeat launch core fun p => { p with sent := p.sent + 1 }
def State.countRecv (s : State) (launch core : Nat) : State := s.modSeat launch core fun p => { p with recv := p.recv + 1 }

/-- MIGRATE. -/
def State.migrate (s : State) (a : Reg) : Except Stop State := do
  let x := s.cur
  s.notCoupled
  need (s.curSlot != 14) (.trap clsHblk 0x19)
  need x.packet.isNone (.trap clsPkt 4)
  s.coreAddress (s.src a)
  let dva := (s.src a).toNat % 2 ^ 56
  need (s.holdsLaunch x dva) (.trap clsPkt 3)
  need (!s.engineBusy s.curCore s.curSlot) (.trap clsEng 0xFFFF)
  s.seqEmpty
  let s ← s.release
  let s := if s.pairedOdd s.curCore s.curSlot then s.splitGang s.curCore s.curSlot else s
  let s := s.modCur fun x =>
    { x.keep [] 0 with lq := Vector.replicate 4 [], sqRows := Vector.replicate 2 [], want := 0, ticket := 0 }
  let (gid, s) := s.migrateGroup x
  let (num, s) := s.fresh
  let f : Frame :=
    { pc := s.lat.pc + 8, carry := s.carry, capidx := x.capidx, join := x.join, group := gid, retpos := 0, ret := .none
      origin := s.curSlot, arrival := true, domain := x.stealdom }
  let r : ArrivalRecord :=
    ⟨num, s.coreloc s.curCore, some s.curSlot, winDev dva, winCore dva, x.launch.getD 0, f.bytes, false⟩
  let s := s.countSent (x.launch.getD 0) s.curCore
  let s := if winDev dva = s.device then s else s.sendTo (winDev dva) (.record r s.classOf)
  .ok (({ s with records := s.records ++ [r] }.moveStgs (.slot s.curCore s.curSlot) (.record num)).parkCur .migrate)

def execMigrate (a : Reg) (g : PredIx) (s : State) : Out := guarded g s (s.migrate a)

/-! ## GANG and UNGANG (R80, R81, R306) -/

/-- Almanac entries of a core as data. -/
def almIv (e : BitVec 9) : Bool := e.getLsbD 8
def almStep (e : BitVec 9) : Nat := (e.extractLsb' 4 4).toNat
def almIssue (e : BitVec 9) : Nat := (e.extractLsb' 0 4).toNat

/-- The entries that a slot owns as issue owner. -/
def issueEntries (t : List (BitVec 9)) (slot : Nat) : List Nat :=
  (List.range t.length).filter fun k => match t[k]? with
    | some e => almIv e && almIssue e == slot
    | none => false

/-- A slot of a core belongs to a launch (R383). -/
def State.belongs (s : State) (core slot id : Nat) : Bool :=
  let x := s.slot core slot
  let alone := (s.launchesOn core).map (·.id) == [id]
  if 14 ≤ slot then alone && x.st != .killed
  else
    match x.st with
    | .killed => false
    | .free => alone || (x.lentTag != 0 && x.lentLaunch == some id)
    | .ganged => (s.slot core (slot - 1)).launch == some id
        || ((s.slot core (slot - 1)).lentTag != 0 && (s.slot core (slot - 1)).lentLaunch == some id)
    | _ => x.launch == some id || (x.lentTag != 0 && x.lentLaunch == some id)

/-- GANG. For a coupled strand ALLOT comes before SYS (R69, R306). Its test of the entries reads the Almanac in force, whatever ALMWs are
pending (DESIGN CHOICE; log entry 104). -/
def State.gangUp (s : State) : Except Stop State := do
  let x := s.cur
  let k := s.curSlot
  let t := s.here.alm.toList
  let mine := issueEntries t k
  let next := issueEntries t (k + 1)
  let odd := s.slot s.curCore (k + 1)
  let got := (List.range 16).filter fun g => s.groupFree s.curCore (k + 1) x.allot g
  let fits := odd.st == .free && s.belongs s.curCore (k + 1) (x.launch.getD 0) && mine.length == 1
    && next.length == 1 && decide (next.getD 0 0 = (mine.getD 0 0 + 1) % 16) && decide (x.groups.length ≤ got.length)
  let ok := decide (k < 14) && k % 2 == 0 && (s.pairedOdd s.curCore k || fits)
  need (!x.coupled || ok) (.trap clsAllot 0)
  s.notCoupled
  s.seqEmpty
  need ok (.trap clsAllot 0)
  if s.pairedOdd s.curCore k then .ok s
  else
    .ok (s.modSlot s.curCore (k + 1) fun y =>
      { y.vacate .ganged with groups := got.take x.groups.length, allot := x.allot })

/-- UNGANG. -/
def State.ungangUp (s : State) : Except Stop State := do
  s.seqEmpty
  .ok (if s.cur.gang then s.splitGang s.curCore s.curSlot else s)

def execGang (g : PredIx) (s : State) : Out := guarded g s s.gangUp
def execUngang (g : PredIx) (s : State) : Out := guarded g s s.ungangUp

end Sys2Proof.Machine
end

