-- ==== Sys2Proof/Machine/Comm.lean ====
section
/-!
DEFINITION. Messages, handlers, arrivals, steals and the restoring of woken contexts (spec/04_strands_and_slots.md
R86–R90; spec/05 R106, R107; spec/21 R328, R329, R335, R336).
-/
namespace Sys2Proof.Machine

open Sys2Proof

/-! ## SEND and SENDE (R87, R335, R336) -/

/-- The checks of SEND and SENDE, and the packet with the word appended. -/
def State.appendWord (s : State) (a b : Reg) (ch : BitVec 2) (h : BitVec 1) : Except Stop OpenPacket := do
  let x := s.cur
  let target := s.src a
  s.coreAddress target
  match x.packet with
  | some p =>
    need (decide (p.words.length < 8)) (.trap clsPkt 1)
    need (p.target.extractLsb' 0 56 == target.extractLsb' 0 56 && p.ch == ch && p.handler == (h == 1#1)) (.trap clsPkt 2)
    .ok { p with words := p.words ++ [s.src b] }
  | none =>
    need (s.holdsLaunch x (target.toNat % 2 ^ 56)) (.trap clsPkt 3)
    .ok ⟨target, ch, h == 1#1, [s.src b]⟩

/-- SEND. -/
def State.sendWord (s : State) (a b : Reg) (ch : BitVec 2) (h : BitVec 1) : Except Stop State := do
  let p ← s.appendWord a b ch h
  .ok (s.modCur fun x => { x with packet := some p })

/-- A packet handed to the network, counted as sent by the core (R93). -/
def State.post (s : State) (core launch dva : Nat) (ch : BitVec 2) (handler : Bool) (words : List Word) : State :=
  let p : Packet := ⟨s.coreloc core, winDev dva, winCore dva, launch, ch, handler, words, 0⟩
  let s := s.countSent launch core
  if p.dev = s.device then { s with packets := s.packets ++ [p] }
  else s.sendTo p.dev (.packet p (((s.launchById launch).map (·.cls)).getD 0))

/-- SENDE: a release; the packet is closed and sent. -/
def State.sendLast (s : State) (a b : Reg) (ch : BitVec 2) (h : BitVec 1) : Except Stop State := do
  let p ← s.appendWord a b ch h
  let s ← s.release
  let s := s.modCur fun x => { x with packet := none }
  .ok ((s.post s.curCore (s.cur.launch.getD 0) (p.target.toNat % 2 ^ 56) p.ch p.handler p.words).replyWith [])

def execSend (a b : Reg) (g : PredIx) (ch : BitVec 2) (h : BitVec 1) (s : State) : Out := guarded g s (s.sendWord a b ch h)
def execSende (a b : Reg) (g : PredIx) (ch : BitVec 2) (h : BitVec 1) (s : State) : Out := guarded g s (s.sendLast a b ch h)

/-! ## POPM and WAITM (R88, R328, R329) -/

/-- A packet that the strands of a launch may pop. -/
def Packet.plainOf (p : Packet) (launch : Option Nat) : Bool := !p.handler && some p.launch == launch

/-- The register writes of a POPM. -/
def popWrites (d : Reg) (words : List Word) : List (Nat × Word) :=
  (List.range 8).map fun i => (d.toNat + i, words.getD i 0)

/-- The oldest packet that a slot may pop is taken into its registers: an acquire. -/
def State.takePacket (s : State) (core slot : Nat) (d : Reg) : Option State :=
  match (s.core core).msgs.find? (·.plainOf (s.slot core slot).launch) with
  | some p =>
    let s := s.modCore core fun c => { c with msgs := c.msgs.erase p }
    let s := s.modSlot core slot fun x => x.setCodes (popWrites d p.words)
    some (s.selfInvalidate core)
  | none => none

/-- The current slot parked at the message queue. -/
def State.parkMessage (s : State) (d : Option Reg) : Except Stop State := do
  s.mayPark 0x1B false
  .ok ((s.parkCur (.message d)).modHere fun c => { c with msgWait := c.msgWait ++ [s.curSlot] })

def State.popMessage (s : State) (d : Reg) : Except Stop State :=
  match s.takePacket s.curCore s.curSlot d with
  | some s => .ok s
  | none => s.parkMessage (some d)

def State.waitMessage (s : State) : Except Stop State :=
  if s.here.msgs.any (·.plainOf s.cur.launch) then .ok s else s.parkMessage none

def execPopm (d : Reg) (g : PredIx) (s : State) : Out := guarded g s (s.popMessage d)
def execWaitm (g : PredIx) (s : State) : Out := guarded g s s.waitMessage

/-- A parked slot's wait at the message queue tried: WAITM is woken by a packet of its launch, POPM takes one. -/
def State.serveMessage (s : State) (core slot : Nat) : State :=
  let out (s : State) : State := s.modCore core fun c => { c with msgWait := c.msgWait.filter (· != slot) }
  match (s.slot core slot).park with
  | some (.message none) =>
    if (s.core core).msgs.any (·.plainOf (s.slot core slot).launch) then out (s.wake core slot []) else s
  | some (.message (some d)) =>
    match s.takePacket core slot d with
    | some s => out (s.wake core slot [])
    | none => s
  | _ => s

/-- The parked slots served after a packet has entered the queue: every WAITM first, then POPM in order (R329). -/
def State.serveMessages (s : State) (core : Nat) : State :=
  let ws := (s.core core).msgWait
  let waits := ws.filter fun k => (s.slot core k).park == some (.message none)
  let pops := ws.filter fun k => (s.slot core k).park != some (.message none)
  (waits ++ pops).foldl (fun s k => s.serveMessage core k) s

/-! ## Delivery (R88) -/

/-- Two packets of one source, destination and channel. -/
def Packet.samePath (p q : Packet) : Bool := p.src == q.src && p.dev == q.dev && p.dest == q.dest && p.ch == q.ch

/-- A launch takes no more packets and records: it is gone, or is being aborted (R263). -/
def State.isGone (s : State) (id : Nat) : Bool := (s.launchById id).all (·.closing)

/-- The 64 bytes of a packet in its place of the message-queue row, words it has not being zero. -/
def Packet.bytes (p : Packet) : List Byte := bytesOfWords ((List.range 8).map fun i => (p.words.getD i 0).toNat)

/-- A packet enters its destination's queue, if a place is free, and the lowest free place of the message-queue row holds its words; its
arrival is counted. R97 gives the row 64 places of 64 bytes, and neither which packet stands where nor its form (DESIGN CHOICE; log entry
86). One of a launch that is gone is discarded (R263). -/
def State.deliver (s : State) (p : Packet) : Option State :=
  if s.isGone p.launch then some s
  else if (s.core p.dest).msgs.length < 64 then
    let at' := (freePlace 64 ((s.core p.dest).msgs.map (·.place))).getD 0
    let s := (s.wrLm p.dest (0x7000 + 64 * at') p.bytes).modCore p.dest fun c => { c with msgs := c.msgs ++ [{ p with place := at' }] }
    some ((s.countRecv p.launch p.dest).serveMessages p.dest)
  else none

/-- PACKET_DELIVERY: the n-th packet in the network, if it is the first of its path and its queue has room. -/
def execPacketDelivery (n : Nat) (s : State) : Out :=
  .next (match s.packets[n]? with
    | some p =>
      if (s.packets.take n).any p.samePath then s
      else
        match { s with packets := s.packets.eraseIdx n }.deliver p with
        | some s' => s'
        | none => s
    | none => s)

/-! ## Handler start (R89) -/

/-- A strand starts in a slot with table entries 0–7 in c0–c7 (R56): CSRs, launch, a Sage strand with a new id of group 0; and the
DVA of poison in the table. R133 makes the launch's initial strands members of group 0 and names no group for a handler: it is
group 0 too (DESIGN CHOICE; log entry 67). -/
def State.startStrand (s : State) (core slot : Nat) (l : Launch) (pc : Word) : State × Option Nat :=
  match s.loadCaps core l (List.range 8) with
  | (s, caps, bad) =>
    let l := (s.launchById l.id).getD l
    let s := s.modLaunch l.id (·.nextStrand)
    let s := s.modSlot core slot fun x =>
      { x.startCsrs l l.steal with
        pc := pc, st := .ready, fromCc := nextBoundary s.cc, strand := l.strands, group := 0, ival := 0
        c := Vector.ofFn fun (i : Fin 8) => caps.getD i.val 0 }
    (s.selfInvalidate core, bad)

/-- HANDLER_START: the first H = 1 packet of the queue starts in a FREE slot 14. -/
def execHandlerStart (core : Nat) (s : State) : Out :=
  .next (if (s.slot core 14).st ≠ .free then s
    else
      match (s.core core).msgs.find? (·.handler) with
      | none => s
      | some p =>
        match s.launchById p.launch with
        | none => s
        | some l =>
          let s := s.modCore core fun c => { c with msgs := c.msgs.erase p }
          match s.startStrand core 14 l (p.words.getD 0 0) with
          | (s, bad) =>
            let s := s.modSlot core 14 fun x => x.setCodes
              (((List.range 7).map fun i => (3 + i, p.words.getD (i + 1) 0)) ++ [(10, BitVec.ofNat 64 p.words.length)])
            if bad.isSome then s.killSlot core 14 (bad.getD 0) else s)

/-! ## Arrivals (R90) -/

/-- Records that a launch has in a core's arrival queue. -/
def Core.arrivalPlaces (c : Core) (launch : Nat) : List Nat :=
  (c.arrivals.filter fun r => r.launch == launch && !r.spilled).map (·.place)

/-- The DVA of a position of a launch's spill region for a core. -/
def Launch.spillDva (l : Launch) (p : Seat) (pos : Nat) : Nat := l.spill + p.index * 64 * 96 + pos % 64 * 96

/-- A record accepted at its target: into the arrival queue below the launch's depth, else into the spill region while
it has room. Its place in the queue is the launch's lowest free one; the manual gives no mapping (DESIGN CHOICE; log entry 69). -/
def State.acceptRecord (s : State) (r : ArrivalRecord) : Option State :=
  match s.launchById r.launch, (s.launchById r.launch).bind (·.seat r.dest) with
  | some l, some p =>
    let used := (s.core r.dest).arrivalPlaces l.id
    if used.length < l.arrDepth then
      let at' := (freePlace l.arrDepth used).getD 0
      let place : Loc := .lm r.dest (p.recordPlace at')
      let s := (s.wrLoc place r.bytes r.poison).moveStgs (.record r.num) place.owner
      let s := s.modCore r.dest fun c => { c with arrivals := c.arrivals ++ [⟨l.id, false, at'⟩] }
      some (s.countRecv l.id r.dest)
    else if l.spill ≠ 0 ∧ p.spillTail - p.spillHead < 64 then
      match s.xlateNow r.dest l.asid (l.spillDva p p.spillTail) true true with
      | (s, .ok place) =>
        let s := (s.homeWrite (clusterOf r.dest) place r.bytes r.poison).moveStgs (.record r.num) place.owner
        let s := s.modCore r.dest fun c => { c with arrivals := c.arrivals ++ [⟨l.id, true, p.spillTail⟩] }
        let s := s.modSeat l.id r.dest fun p => { p with spillTail := p.spillTail + 1 }
        some (s.countRecv l.id r.dest)
      | _ => none
    else none
  | _, _ => none

/-- A record of this package has been accepted: the migrating slot becomes FREE. -/
def State.recordTaken (s : State) (r : ArrivalRecord) : State :=
  match r.slot with
  | some k => s.freeSlot (r.src % 1024) k
  | none => s

/-- ARRIVAL_RECORD_ACCEPT: the n-th record in the network is accepted by its target core; the migrating slot becomes FREE, and another
package, whose slot waits there, is told. A record for another package is accepted there, and its slot waits for the word of it. -/
def execArrivalRecordAccept (n : Nat) (s : State) : Out :=
  .next (match s.records[n]? with
    | none => s
    | some r =>
      if r.dev ≠ s.device then s
      else
        let gone : State := { s with records := s.records.eraseIdx n }
        match if s.isGone r.launch then some gone else gone.acceptRecord r with
        | some s => if r.slot.isNone then s.tell r.src (.accept r.src r.num) else s.recordTaken r
        | none => s)

/-- Another package has accepted a record of this one; the strand has left, with the STGs and stores that it had out. -/
def State.recordAccepted (s : State) (core num : Nat) : State :=
  match s.records.find? fun r => r.src == core && r.num == num && r.dev != s.device with
  | some r => ({ s with records := s.records.erase r }.moveStgs (.record num) .ended).recordTaken r
  | none => s

/-! ## Lanes regained (R185, R106) -/

/-- The groups of a saved grant that can be given: the whole grant, or else the fair share; none while neither can. -/
def State.regrant (s : State) (core slot : Nat) (saved : List Nat) (n : Nat) : Option (List Nat) :=
  let got := (List.range 16).filter fun g => s.groupFree core slot n g
  let fair := min saved.length (s.fairShare core / 16)
  if saved.length ≤ got.length then some (got.take saved.length)
  else if fair ≤ got.length then some (got.take fair)
  else none

/-- Rows re-keyed from the groups they were saved from to the groups granted. -/
def rekey (vrf : Sparse (List Half)) (old new : List Nat) : Sparse (List Half) :=
  (old.zip new).foldl (fun m gh =>
    (vrf.filter fun kv => kv.1 / 32 == gh.1).foldl (fun m kv => m.put (32 * gh.2 + kv.1 % 32) kv.2) m) []

/-- A slot's saved vector state in the lanes granted. -/
def Slot.restoreVector (x : Slot) (groups : List Nat) : Slot :=
  { x with groups := groups, svGroups := [], vrf := rekey x.vrf x.svGroups groups
           allot := if groups.isEmpty ∧ !x.svGroups.isEmpty then 0 else x.allot }

/-! ## Lending and restoring (R106, R107) -/

/-- A FAULTED general slot may be lent (R106). -/
def State.lendable (s : State) (core slot : Nat) : Bool :=
  let x := s.slot core slot
  slot < 14 && x.st == .faulted && !x.mmaFault && x.lentTag == 0 && s.tenants.keys.contains (s.asidOf x)

/-- An entry that writes a scalar register, or VSYNC. -/
def SeqItem.owesScalar : SeqItem → Bool
  | .one e => match e.op with
    | .vred .. | .vextr _ | .vsort .. | .vksel .. | .vsync _ => true
    | _ => false
  | .run .. => false

/-- The engine commands of a slot's contexts: those of the context with tag `a` are from now on those of the one with tag `b`, 0 being
the strand in the slot. -/
def State.moveCommands (s : State) (core slot a b : Nat) : State :=
  let f (c : Completion) : Completion := if c.ctx = a then { c with ctx := b } else c
  s.modCore core fun c =>
    let x := c.slot slot
    { c.setSlot slot { x with
        matQ := x.matQ.map fun m => { m with comp := f m.comp }, copyQ := x.copyQ.map fun m => { m with comp := f m.comp } } with
      copyRun := c.copyRun.map fun r => if r.slot = slot then { r with cmd := { r.cmd with comp := f r.cmd.comp } } else r
      ended := c.ended.map fun e => if e.slot = slot then { e with comp := f e.comp } else e }

/-- The place of a slot's parked-context entry for a launch. -/
def State.parkedPlace (s : State) (core slot asid : Nat) : Loc := .mem (s.parkedEntry core slot asid) false 0 0

/-- The faulted context moved with its poison to the parked-context area; the slot holds nothing of it. Load-queue rows that can be are
read first (R184). The odd slot of a gang stays GANGED with the context, and a coupled partner waits for it. -/
def State.lend (s : State) (core slot : Nat) : State :=
  let s := (s.fillRows core slot).1.finishSfu core slot
  let x := s.slot core slot
  let area : Loc := .lm core (saveArea slot)
  let entry := s.parkedPlace core slot (s.asidOf x)
  let t := s.unitWrite entry.addr (s.rdLoc area 0x400)
  let t := ((List.range 128).filter fun i => s.poisonedAt (area.plus (8 * i)) 8).foldl (fun t i => t.taint (entry.plus (8 * i))) t
  ((t.moveStgs (.slot core slot) (.parked core slot)).moveCommands core slot 0 x.faultTag).modSlot core slot fun x =>
    { x.vacate .faulted with
      lentHeld := x.held, lentTag := x.faultTag, faultTag := 0, lentLaunch := x.launch
      lentVec := some ⟨x.groups, x.want, x.allot, x.vrf, x.seq, x.lq, x.sqRows, x.drains, x.gang, x.preReq, x.coupled, x.wlog,
        x.regPoison.filter (64 ≤ ·)⟩
      matRes := [], copyRes := [] }

/-- The faulted context of a slot restored from its save area: READY, or PARKED in its MMA; poison as in `State.resumeSaved`. -/
def State.restoreFault (s : State) (core slot : Nat) : State :=
  let area : Loc := .lm core (saveArea slot)
  if s.savedBad area then s.killSlot core slot 0
  else
    s.modSlot core slot fun x =>
      let y := { x.restore (s.rdLoc area 0x400) with
        matRes := x.matRes, copyRes := x.copyRes, wakes := x.wakes.erase x.faultTag, faultTag := 0, mmaFault := false
        regPoison := s.savedPoison area ++ x.regPoison.filter (64 ≤ ·) }
      if x.mmaFault then { y with st := .parked, park := some .mma }
      else { y with st := if x.seqReply then .reply else .ready }

/-- The context of a tag that a slot was lent over back in the slot, from what was kept of it and the saved bytes at a place; `from'`
is where its STGs and stores stand, `was` the state that the place is read in. -/
def State.putContext (s was : State) (core slot tag : Nat) (v : VecSave) (launch : Option Nat) (held : Option Sources) (place : Loc)
    (from' : StgOwner) (groups : List Nat) : State :=
  let s := s.moveCommands core slot tag 0
  let s := if v.gang then s.modSlot core (slot + 1) fun y => y.keep (y.groups.take groups.length) y.allot else s
  let s := (s.modSlot core slot fun x =>
    { x.restore (was.rdLoc place 0x400) with
      held := held
      st := if v.seq.any (·.owesScalar) then .reply else .ready, seqReply := v.seq.any (·.owesScalar)
      launch := launch, fromCc := nextBoundary s.cc, wakes := x.wakes.erase tag
      groups := groups, want := v.want, svGroups := [], vrf := rekey v.vrf v.groups groups, allot := v.allot, seq := v.seq
      lq := v.lq, sqRows := v.sqRows, drains := v.drains, gang := v.gang, park := none, reply := none, packet := none
      preReq := v.preReq, coupled := v.coupled, wlog := v.wlog, regPoison := was.savedPoison place ++ v.poison }).moveStgs
    from' (.slot core slot)
  if was.savedBad place then s.killSlot core slot 0 else s

/-- The lent context of a FREE slot restored, once lanes for its vector state can be granted. -/
def State.restoreLent (s : State) (core slot : Nat) : Option State :=
  let x := s.slot core slot
  match x.lentVec, x.lentLaunch.bind s.launchById with
  | some v, some l =>
    match s.regrant core slot v.groups v.allot with
    | none => none
    | some groups =>
      let place := s.parkedPlace core slot l.asid
      let t := (s.touchLines place 0x400 false 128).modSlot core slot fun x =>
        { x with lentHeld := none, lentTag := 0, lentLaunch := none, lentVec := none }
      some (t.putContext s core slot x.lentTag v x.lentLaunch x.lentHeld place (.parked core slot) groups)
  | _, _ => none

/-- The faulted context in a slot and the one that the slot was lent over change places, once lanes for the latter's vector state can be
granted. While they do, its STGs and stores stand with the save area. -/
def State.exchange (s : State) (core slot : Nat) : Option State :=
  let x := s.slot core slot
  match x.lentVec, x.lentLaunch.bind s.launchById with
  | some v, some l =>
    let place := s.parkedPlace core slot l.asid
    let between : StgOwner := .frame core (saveArea slot)
    let t := ((s.touchLines place 0x400 false 128).moveStgs (.parked core slot) between).lend core slot
    match t.regrant core slot v.groups v.allot with
    | none => none
    | some groups => some (t.putContext s core slot x.lentTag v x.lentLaunch x.lentHeld place between groups)
  | _, _ => none

/-- A WAKE's boundary has come. -/
def Slot.wakeDue (x : Slot) (cc : Nat) : Bool := decide (nextBoundary x.wakeCc ≤ cc)

/-- A FREE slot has a woken context of its own to restore first (R86). -/
def Slot.ownWork (x : Slot) : Bool := x.lentTag != 0 && x.wakes.contains x.lentTag

/-- WOKEN_CONTEXT_RESTORE (R106, R107): contexts come back in the order of their WAKEs. Where the borrowed strand of a lent slot has faulted
in turn and both are woken, the slot would be FREE but for them: the one woken first runs, and the other waits in the parked-context
entry (DESIGN CHOICE; log entry 85). -/
def State.restoreWoken (s : State) (core slot : Nat) : State :=
  let x := s.slot core slot
  if x.st = .faulted ∧ x.faultTag ≠ 0 ∧ x.wakes.contains x.faultTag ∧ x.wakeDue s.cc then
    if x.lentTag ≠ 0 ∧ x.wakes.head? = some x.lentTag then (s.exchange core slot).getD s else s.restoreFault core slot
  else if x.st = .free ∧ x.ownWork then (s.restoreLent core slot).getD s
  else s

def execWokenContextRestore (core slot : Nat) (s : State) : Out := .next (s.restoreWoken core slot)

/-! ## Looking for work (R86) -/

/-- A slot that may take work: FREE with no woken context, or FAULTED and lendable. The launch it looks for, if one. -/
def State.seeks (s : State) (core slot : Nat) : Option (Option Nat) :=
  let x := s.slot core slot
  if 14 ≤ slot then none
  else if x.st = .free then (if x.ownWork then none else some none)
  else if s.lendable core slot then some x.launch
  else none

/-- A frame or record at a place, whose first byte has a DVA, taken into a slot, its STGs with it: lent first if FAULTED; an acquire;
poison kills, with the DVA of the poisoned word (R385). -/
def State.takeFrame (s : State) (core slot : Nat) (l : Launch) (place : Loc) (dva : Nat) : State :=
  let bs := s.rdLoc place 96
  let poison := s.poisonedAt place 96
  let s := if (s.slot core slot).st = .faulted then s.lend core slot else s
  let f := Frame.ofBytes bs
  let s := (s.modSlot core slot fun x => { x.startCsrs l f.domain with fromCc := nextBoundary s.cc, st := .ready }).moveStgs
    place.owner (.slot core slot)
  if poison then s.killSlot core slot (dva + s.poisonOff place 96)
  else
    match s.resume core slot l f true with
    | (s, bad) => if bad.isSome then s.killSlot core slot (bad.getD 0) else s.selfInvalidate core

/-- The earliest record of a core that a slot may take. -/
def Core.nextArrival (c : Core) (only : Option Nat) : Option ArrivalRef :=
  c.arrivals.find? fun r => only.all (· == r.launch)

/-- TAKE_ARRIVAL (R90). -/
def State.takeArrival (s : State) (core slot : Nat) : State :=
  match s.seeks core slot with
  | none => s
  | some only =>
    match (s.core core).nextArrival only with
    | none => s
    | some r =>
      match s.launchById r.launch, (s.launchById r.launch).bind (·.seat core) with
      | some l, some p =>
        let out (s : State) : State := s.modCore core fun c => { c with arrivals := c.arrivals.erase r }
        if r.spilled then
          match s.xlateNow core l.asid (l.spillDva p r.place) true true with
          | (s, .ok place) =>
            let s := (out s).modSeat l.id core fun p => { p with spillHead := p.spillHead + 1 }
            (s.touchLines place 96 false (clusterOf core) [] (s.pasidOf (some l.id))).takeFrame core slot l place (l.spillDva p r.place)
          | (s, .error _) => s
        else
          let o := p.recordPlace r.place
          (out s).takeFrame core slot l (.lm core o) (gwin s.device core o)
      | _, _ => s

def execTakeArrival (core slot : Nat) (s : State) : Out := .next (s.takeArrival core slot)

/-- The place of a core in a thief's victim order (R86). -/
def victimKey (thief v : Nat) : Nat :=
  let up (n a b : Nat) : Nat := (b + n - a - 1) % n
  if v = thief then 0
  else if v / 8 = thief / 8 then 1 + up 8 (thief % 8) (v % 8)
  else if v / 128 = thief / 128 then 100 + 8 * up 16 (thief / 8 % 16) (v / 8 % 16) + v % 8
  else 1000 + 128 * up 8 (thief / 128) (v / 128) + v % 128

/-- A core lies within a domain around another (R58). -/
def within (dom : Nat) (a b : Nat) : Bool :=
  if dom = 0 then a == b else if dom = 1 then a / 8 == b / 8 else if dom = 2 then a / 128 == b / 128 else true

/-- The topmost frame of a seat as bytes. -/
def State.topFrame (s : State) (p : Seat) : Option (List Byte) :=
  p.frames.head?.map fun at' => (s.core p.core).lm.rdBytes (p.framePlace at') 96

/-- The victim of a steal for a launch: the first in order whose topmost frame is eligible. -/
def State.victim (s : State) (core : Nat) (l : Launch) : Option Seat :=
  l.seats.foldl (fun best p =>
    match s.topFrame p with
    | none => best
    | some bs =>
      if within (Frame.ofBytes bs).domain.toNat core p.core && within l.steal.toNat core p.core
          && best.all (fun q => decide (victimKey core p.core < victimKey core q.core)) then some p
      else best) none

/-- STEAL (R86): only when no arrival is there to take. -/
def State.stealWork (s : State) (core slot : Nat) : State :=
  match s.seeks core slot with
  | none => s
  | some only =>
    if ((s.core core).nextArrival only).isSome then s
    else
      let ls := (s.launchesOn core).filter fun l => !l.closing && only.all (· == l.id)
      match ls.findSome? fun l => (s.victim core l).map fun p => (l, p) with
      | none => s
      | some (l, p) =>
        match p.frames with
        | [] => s
        | at' :: _ =>
          let o := p.framePlace at'
          let s := s.modSeat l.id p.core fun p => { p with frames := p.frames.tail, top := p.top + 1 }
          s.takeFrame core slot l (.lm p.core o) (gwin s.device p.core o)

def execSteal (core slot : Nat) (s : State) : Out := .next (s.stealWork core slot)

end Sys2Proof.Machine
end

