-- ==== Sys2Proof/Machine/FlowFam.lean ====
section
/-!
DEFINITION. Branches, constants, CSRs, tickets, TRAP, ERET, YIELD, translation flushes, WAKE, the Almanac and the decode
table (spec/19–22: R267, R269, R274, R276, R283, R284, R288, R293, R294, R307, R308, R312, R313, R376; R58, R59, R79,
R107, R108, R147, R179, R206).
-/
namespace Sys2Proof.Machine

open Sys2Proof

def execNopC (s : State) : Out := .next s

/-! ## Branches (R274, R276, R307, R308, R313) -/

/-- The current slot's pc. -/
def State.setPc (s : State) (v : Word) : State := s.modCur fun x => { x with pc := v }

/-- A target some pairs from this one. -/
def State.target {n : Nat} (s : State) (disp : BitVec n) : Word := s.lat.pc + sext64 disp * 8

/-- The pair after this one. -/
def State.after (s : State) : Word := s.lat.pc + 8

/-- BC goes when its predicate differs from its sense (R274). -/
def State.branchIf (s : State) (p : PredIx) (sense : BitVec 1) (target : Word) : State :=
  s.setPc (if s.psrc p != (sense == 1#1) then target else s.after)

def execBr (disp : BitVec 21) (s : State) : Out := .next (s.setPc (s.target disp))
def execBrLone (ext : Half) (s : State) : Out := .next (s.setPc (s.target ext))
def execBc (p : PredIx) (sense : BitVec 1) (disp : BitVec 21) (s : State) : Out :=
  .next (s.branchIf p sense (s.target disp))
def execBcLone (p : PredIx) (sense : BitVec 1) (ext : Half) (s : State) : Out :=
  .next (s.branchIf p sense (s.target ext))
def execJal (disp : BitVec 21) (s : State) : Out := .next ((s.setReg 1 s.after).setPc (s.target disp))
def execJalLone (ext : Half) (s : State) : Out := .next ((s.setReg 1 s.after).setPc (s.target ext))

/-- JR (R308): both values as they stood before the pair. -/
def State.jumpReg (s : State) (d a : Reg) : Except Stop State := do
  need ((s.src a).extractLsb' 0 3 == 0#3) (.trap clsAln (s.src a).toNat)
  .ok ((s.setReg d s.after).setPc (s.src a))

def execJr (d a : Reg) (g : PredIx) (s : State) : Out := guarded g s (s.jumpReg d a)

/-- LOOP (R313). -/
def execLoop (d : Reg) (ext : Half) (s : State) : Out :=
  let n := s.src d - 1
  .next ((s.setReg d n).setPc (if n != 0 then s.target ext else s.after))

def execLi (d : Reg) (ext : Half) (s : State) : Out := .next (s.setReg d (sext64 ext))
def execLih (d : Reg) (ext : Half) (s : State) : Out := .next (s.setReg d (ext ++ (s.src d).extractLsb' 0 32))

/-! ## CSRs (R58, R59, R283, R284) -/

/-- The value of a CSR; none for a number that R58 does not list. -/
def State.csrValue (s : State) (n : BitVec 10) : Option Word :=
  let x := s.cur
  let launch (f : Launch → Word) : Word := ((s.launchOf x).map f).getD 0
  match n.toNat with
  | 0x000 => some s.lat.status
  | 0x001 => some x.trapvec
  | 0x002 => some x.traprec
  | 0x003 => some (BitVec.ofNat 64 s.cc)
  | 0x004 => some (BitVec.ofNat 64 (s.slotid s.curCore s.curSlot))
  | 0x005 => some (BitVec.ofNat 64 (s.coreloc s.curCore))
  | 0x006 => some (BitVec.ofNat 64 (s.here.vlen s.curSlot))
  | 0x007 => some (BitVec.ofNat 64 x.allot)
  | 0x008 => some (launch fun l => BitVec.ofNat 64 l.fmt)
  | 0x009 => some (launch fun l => BitVec.ofNat 64 l.scl)
  | 0x00A => some x.ticket
  | 0x00B => some (x.stealdom.setWidth 64)
  | 0x00C => some (launch fun l => l.sage.setWidth 64)
  | 0x00D => some (s.here.lzdrop.setWidth 64)
  | 0x00E => some (x.dtnan.setWidth 64)
  | 0x00F => some (x.timer.setWidth 64)
  | _ => none

/-- CSRR. -/
def State.csrRead (s : State) (d : Reg) (n : BitVec 10) : Except Stop State :=
  match s.csrValue n with
  | some v => .ok (s.setReg d v)
  | none => .error (.trap clsIll 0)

/-- STATUS written: a W1C field is cleared by a 1 if it stood set before the pair (R59). Against a flag that the A-slot of the same
pair sets the manual gives no order: the new flag stays (DESIGN CHOICE; log entry 70). -/
def statusWritten (status seen v : Word) : Word := status &&& ~~~(v &&& seen &&& statusW1C)

/-- The narrower of two steal domains (R58). -/
def narrowest (a b : BitVec 2) : BitVec 2 := if a.ule b then a else b

/-- TICKET written (R206, R284). The manual names SEG for a window DVA alone; a DVA whose bits [63:56] are not all zero traps SEG too
(DESIGN CHOICE; log entry 87). -/
def State.writeTicket (s : State) (v : Word) : Except Stop State := do
  let low := v.extractLsb' 0 7
  if v = 0 then .ok (s.modCur fun x => { x with ticket := 0 })
  else if low = 0#7 then
    let dva := v.toNat
    need (!isWindow dva && decide (dva < 2 ^ 56)) (.trap clsSeg dva)
    let rec_ ← s.xlate dva .atomic
    let s ← s.atHome rec_ true
    let s := s.wrLoc (rec_.plus 8) (bytesOfNat 24 0x100) false
    let s := (s.wrLoc rec_ (bytesOfNat 8 0) false).setFull rec_ false
    .ok (((s.serve rec_).modCur fun x => { x with ticket := v }).replyWith [])
  else if low = 1#7 then do
    need (!isWindow (v - 1).toNat && decide (v.toNat < 2 ^ 56)) (.trap clsSeg (v - 1).toNat)
    .ok (s.modCur fun x => { x with ticket := v - 1 })
  else .error (.trap clsAln v.toNat)

/-- CSRW. -/
def State.csrWrite (s : State) (a : Reg) (n : BitVec 10) : Except Stop State :=
  let v := s.src a
  match n.toNat with
  | 0x000 => .ok (s.modCur fun x => { x with status := statusWritten x.status s.lat.status v })
  | 0x001 => .ok (s.modCur fun x => { x with trapvec := v &&& ~~~7#64 })
  | 0x00A => s.writeTicket v
  | 0x00B =>
    let dom := ((s.launchOf s.cur).map (·.steal)).getD 3
    .ok (s.modCur fun x => { x with stealdom := narrowest (v.extractLsb' 0 2) dom })
  | 0x00C => do
    s.supervisor
    let m := if v.extractLsb' 0 2 = 3#2 then 0#2 else v.extractLsb' 0 2
    .ok (s.modLaunch (s.cur.launch.getD 0) fun l => { l with sage := m })
  | 0x00D => do
    s.supervisor
    .ok (s.modHere fun c => { c with lzdrop := v.extractLsb' 0 32 })
  | 0x00E => .ok (s.modCur fun x => { x with dtnan := v.extractLsb' 0 8 })
  | 0x00F => do
    s.supervisor
    .ok (s.modCur fun x => { x with timer := v.extractLsb' 0 32 })
  | _ => .error (.trap clsIll 0)

def execCsrr (d : Reg) (n : BitVec 10) (s : State) : Out := finish s (s.csrRead d n)
def execCsrw (a : Reg) (n : BitVec 10) (s : State) : Out := finish s (s.csrWrite a n)
def execOpenWalk (a : Reg) (s : State) : Out := finish s (s.writeTicket (s.src a))
def execAdoptWalk (a : Reg) (s : State) : Out := finish s (s.writeTicket (s.src a))
def execTicketClear (a : Reg) (s : State) : Out := finish s (s.writeTicket (s.src a))

/-! ## TRAP, ERET, YIELD (R179, R293, R294) -/

def execTrap (a : Reg) (g : PredIx) (s : State) : Out := guarded g s (.error (.trap clsTrapi (s.src a).toNat))

/-- ERET: pc, TRAPREC and s2 from the record at TRAPREC. -/
def State.trapReturn (s : State) : Except Stop State := do
  let x := s.cur
  let a := x.traprec.toNat
  need (a != 0) (.trap clsIll 0)
  need (decide (programArea ≤ a ∧ a + 64 ≤ s.lmend s.curCore x)) (.trap clsSys a)
  match s.place x.launch s.curCore a with
  | some o =>
    match [0, 24, 32].find? fun i => s.poisonedAt (.lm s.curCore (o + i)) 8 with
    | some i => .error (.kill (s.ownDva x.traprec + i))
    | none =>
      let bs := s.rdLoc (.lm s.curCore o) 64
      .ok ((s.setReg 2 (BitVec.ofNat 64 (a + 64))).modCur fun x =>
        { x with pc := savedWord bs 0, traprec := savedWord bs 32, adone := (savedWord bs 24).getLsbD 4 })
  | none => .error (.trap clsSys a)

def execEret (g : PredIx) (s : State) : Out := guarded g s s.trapReturn

/-- YIELD: no turn is the slot's until the next rotation boundary. It would have the slot wait outside its turns with
a packet open, so it traps PKT then (R87). -/
def State.yieldTurn (s : State) : Except Stop State := do
  need s.cur.packet.isNone (.trap clsPkt 4)
  .ok (s.modCur fun x => { x with fromCc := nextBoundary s.cc })

def execYield (g : PredIx) (s : State) : Out := guarded g s s.yieldTurn

/-! ## Translation flushes (R108, R269) -/

/-- Every TLB entry of an ASID removed; walks in progress leave no entry, and an access for which a flushed walk left one and which has not
been made translates afresh. -/
def State.flushAsid (s : State) (asid : Nat) : State :=
  { s with
    clusters := s.clusters.map fun kc => (kc.1, { kc.2 with tlb := kc.2.tlb.filter (·.asid != asid) })
    cores := s.cores.map fun kc => (kc.1, { kc.2 with slots := kc.2.slots.map fun x =>
      { x with
        walk := x.walk.map fun w => if w.asid = asid then { w with install := false } else w
        grants := if s.asidOf x = asid then [] else x.grants } }) }

def State.asFlush (s : State) (a : Reg) : Except Stop State := do
  s.supervisor
  .ok (((s.flushAsid (fld (s.src a) 0 12)).modCur fun x => { x with flushAt := some s.cc }).replyWith [])

/-- A place in device memory that was translated at or before a cc. -/
def Loc.translated (l : Loc) (at' t : Nat) : Bool :=
  match l with
  | .mem .. => decide (at' ≤ t)
  | _ => false

/-- A completion's fill is still to be made at a word translated at or before a cc. -/
def Completion.fillDue (c : Completion) (t : Nat) : Bool := c.fill.any fun l => l.translated c.at' t

/-- Load-queue rows that wait for elements, or queued drains, translated at or before a cc. -/
def rowsBefore (t : Nat) (lq : Vector (List LqRow) 4) (drains : Vector (List Drain) 2) : Bool :=
  ((lq.toList.flatMap id).any fun r => match r with
    | .waiting _ _ _ u => decide (u ≤ t)
    | .arrived _ => false) || (drains.toList.flatMap id).any (fun d => d.at' ≤ t)

/-- Some access translated at or before a cc is not yet performed at its home: a store in a path or verification buffer, a row or drain of
a slot or of a parked context, a waiter, a completion's fill, a walk of a range or tree. -/
def State.translatedBefore (s : State) (t : Nat) : Bool :=
  (s.cores.any fun kc =>
    kc.2.path.any (fun p => p.at' ≤ t) ||
    kc.2.slots.toList.any fun x =>
      rowsBefore t x.lq x.drains || x.lentVec.any (fun v => rowsBefore t v.lq v.drains)
          || x.matQ.any (·.comp.fillDue t) || x.copyQ.any (·.comp.fillDue t) ||
    kc.2.ended.any (·.comp.fillDue t) || kc.2.copyRun.any fun r => r.cmd.comp.fillDue t)
  || s.waiters.any (fun w => w.loc.translated w.at' t)
  || s.couples.any (fun c => c.lead.buf.any fun v => v.loc.translated v.at' t)
  || (s.clusters.any fun kc => kc.2.walker.any fun r => r.at' ≤ t) || s.jobs.any fun j => j.at' ≤ t

/-- ASBAR: parked until every access translated before the slot's last ASFL has completed. -/
def State.asBarrier (s : State) : Except Stop State := do
  s.supervisor
  match s.cur.flushAt with
  | none => .ok s
  | some t =>
    if s.translatedBefore t then
      s.mayPark 0x2D false
      .ok (s.parkCur .asbar)
    else .ok s

/-- A slot parked in ASBAR whose condition is met goes on. -/
def State.barrierMet (s : State) (core slot : Nat) : State :=
  let x := s.slot core slot
  if x.park = some .asbar ∧ x.st = .parked ∧ !s.translatedBefore (x.flushAt.getD 0) then s.wake core slot [] else s

def execAsfl (a : Reg) (g : PredIx) (s : State) : Out := guarded g s (s.asFlush a)
def execAsbar (g : PredIx) (s : State) : Out := guarded g s s.asBarrier

/-! ## WAKE (R107, R376) -/

/-- A faulted context of a launch held by a slot, lent or not, by tag. -/
def State.holdsFault (s : State) (core slot : Nat) (launch : Option Nat) (tag : Nat) : Bool :=
  let x := s.slot core slot
  (x.lentTag != 0 && x.lentLaunch == launch && (tag == 0 || x.lentTag == tag))
    || (x.st == .faulted && x.faultTag != 0 && x.launch == launch && (tag == 0 || x.faultTag == tag))

/-- A faulted context of a slot of this package is marked woken, unless it is so already (R107). -/
def State.markWoken (s : State) (core slot tag : Nat) : State :=
  let x := s.slot core slot
  if tag != 0 && (x.faultTag == tag || x.lentTag == tag) && !x.wakes.contains tag then
    s.modSlot core slot fun x => { x with wakes := x.wakes ++ [tag], wakeCc := s.cc }
  else s

/-- WAKE: a context not yet woken is marked. A WAKE for another package is carried there, and its reply says that the context has been
marked. -/
def State.wakeContext (s : State) (a : Reg) : Except Stop State := do
  let v := s.src a
  need (fld v 38 26 == 0) (.trap clsSeg v.toNat)
  let slot := fld v 0 4
  let core := fld v 4 10
  let tag := fld v 22 16
  let mine := fld v 14 8 == s.device
  let id := s.cur.launch
  need (s.cur.supervisor || (mine && (s.belongs core slot (id.getD 0) || s.holdsFault core slot id 0)))
    (.trap clsSys 0x13)
  let dev := fld v 14 8
  if mine then
    let s := if s.cur.supervisor || s.holdsFault core slot id tag then s.markWoken core slot tag else s
    .ok (if core = s.curCore then s else s.replyWith [])
  else if (s.routeTo dev).isNone then .ok (s.replyWith [])
  else
    let dva := gwin dev core 0
    .ok ((s.sendTo dev (.access (s.coreloc s.curCore) s.requester s.classOf dva (.wake 0 0) [v] false)).awaitPeer dev dva [] fun o => o)

def execWake (a : Reg) (g : PredIx) (s : State) : Out := guarded g s (s.wakeContext a)

/-! ## The Almanac (R74, R79, R267) -/

/-- The table as it will stand with every pending write applied. -/
def Core.almPending (c : Core) : List (BitVec 9) :=
  c.almNext.foldl (fun t w => t.set w.1 w.2) c.alm.toList

/-- Issue entries of one slot stand at least 8 apart around the table (R76). -/
def almSpaced (t : List (BitVec 9)) : Bool :=
  (List.range 16).all fun i => (List.range 16).all fun j =>
    match t[i]?, t[j]? with
    | some e, some f => decide (i = j ∨ (8 ≤ (j + 16 - i) % 16 ∧ 8 ≤ (i + 16 - j) % 16))
        || !(almIv e && almIv f && almIssue e == almIssue f)
    | _, _ => true

/-- The two entries of every gang of a core stand next to each other (R80). -/
def State.gangsAdjacent (s : State) (core : Nat) (t : List (BitVec 9)) : Bool :=
  (List.range 7).all fun i =>
    !s.pairedOdd core (2 * i) ||
      match issueEntries t (2 * i), issueEntries t (2 * i + 1) with
      | [e], [o] => o == (e + 1) % 16
      | _, _ => false

/-- A slot of the core is of the current strand's launch; the supervisor may name any. -/
def State.ownsSlot (s : State) (k : Nat) : Bool := s.belongs s.curCore k (s.cur.launch.getD 0)

def State.almRead (s : State) (d a : Reg) : Except Stop State := do
  let k := (s.src a).toNat
  need (decide (k < 16)) (.trap clsSeg k)
  .ok (s.setReg d ((s.here.alm[k]?.getD 0).setWidth 64))

def State.almWrite (s : State) (a b : Reg) : Except Stop State := do
  let k := (s.src a).toNat
  let v := s.src b
  need (decide (k < 16)) (.trap clsSys 1)
  need (fld v 9 55 == 0) (.trap clsSys 2)
  let t := s.here.almPending
  let old := t.getD k 0
  let new := v.extractLsb' 0 9
  need ((!almIv old || s.ownsSlot (almIssue old)) && s.ownsSlot (almStep old) && s.ownsSlot (almStep new)
    && (!almIv new || s.ownsSlot (almIssue new))) (.trap clsSys 3)
  need (almSpaced (t.set k new)) (.trap clsSys 4)
  need (s.gangsAdjacent s.curCore (t.set k new)) (.trap clsSys 5)
  .ok (s.modHere fun c => { c with almNext := c.almNext.filter (·.1 != k) ++ [(k, new)] })

def execAlmr (d a : Reg) (g : PredIx) (s : State) : Out := guarded g s (s.almRead d a)
def execAlmw (a b : Reg) (g : PredIx) (s : State) : Out := guarded g s (s.almWrite a b)

/-! ## The decode table (R147, R288) -/

/-- A ring descriptor's element format (R166): 0 bf16, 1 fp16, 2 code8, 3 fp32. -/
def ringFmt (r : BitVec 128) : BitVec 2 := r.extractLsb' 26 2

/-- A matrix operation with a code8 ring. -/
def Core.code8Op (c : Core) (m : MatOp) : Bool :=
  ringFmt (c.rings[m.ringA]?.getD 0) == 2#2 || ringFmt (c.rings[m.ringB]?.getD 0) == 2#2

/-- A code8 operation (R147). -/
def code8Instr : Instr → Bool
  | .vdec .. | .venc .. => true
  | .sq _ _ _ _ _ k => k == 7#4
  | .mmae _ _ _ _ _ _ _ o _ => o == 3#2
  | _ => false

/-- A code8 operation of a slot issued before a cc and not complete: handed, queued, or its pair waiting in REPLY; work saved
by pre-emption is not waited for. -/
def Core.usesTable (c : Core) (since k : Nat) : Bool :=
  let x := c.slot k
  (x.st != .saved && (x.seq.any (·.code8 since) || (x.drains.toList.flatMap id).any fun d => d.kind == 7#4 && d.since < since))
    || (x.matQ.any fun m => m.at' < since && c.code8Op m)
    || (x.since.any (· < since) && x.begunC.any code8Instr)
    || x.reply.any fun r => match r.cond with
      | .sqRows _ code8 _ => code8
      | _ => false

def Core.tableBusy (c : Core) (since : Nat) : Bool := (List.range 16).any (c.usesTable since)

/-- DTRD. -/
def State.tableRead (s : State) (d a : Reg) : Except Stop State := do
  let i := (s.src a).toNat
  need (decide (i < 256)) (.trap clsSeg i)
  need s.here.tableWaiter.isNone (.reissue .tableWritten)
  .ok (s.setReg d (((Sparse.get 0 s.here.dtab i).extractLsb' 0 19).setWidth 64))

/-- DTWR: of code8 work that waits behind it, the drains whose rows are written go on at once, and the rest at its next turn. -/
def State.tableWrite (s : State) (a b : Reg) : Except Stop State := do
  let i := (s.src a).toNat
  need (decide (i < 256)) (.trap clsSeg i)
  let others := (List.range 16).any fun k =>
    let x := s.slot s.curCore k
    x.st != .free && x.st != .ganged && x.launch.any fun l => some l != s.cur.launch
  need (!others) (.trap clsSys 0x12)
  need (!s.here.tableBusy s.waitsSince) (.reissue (.tableIdle s.waitsSince))
  let s := s.modCur fun x => { x with since := none }
  .ok (s.modHere fun c => Core.drainAll { c with dtab := c.dtab.put i ((s.src b).extractLsb' 0 19 |>.setWidth 32), dtag := 0 })

def execDtrd (d a : Reg) (g : PredIx) (s : State) : Out := guarded g s (s.tableRead d a)
def execDtwr (a b : Reg) (g : PredIx) (s : State) : Out := guarded g s (s.tableWrite a b)

end Sys2Proof.Machine
end

