-- ==== Sys2Proof/Machine/VectorFam.lean ====
section
/-!
DEFINITION. Vector instructions at issue, CLAIM, SHRINK and VALLOT, and the events of the vector pool
(spec/08_engines.md R155–R163, R173; spec/19 R279; spec/22 R353–R375). What an entry computes is in Vector.lean.
-/
namespace Sys2Proof.Machine

open Sys2Proof

/-! ## Handing an instruction to the sequencer (R159, R353) -/

/-- An instruction handed to the current slot's sequencer with the scalars read at issue, if its guard holds. -/
def handEntry (g : PredIx) (op : Instr) (x y : Word) (s : State) : Out :=
  .next (if s.guard g then
      s.modCur fun t => { t with seq := dropEmptyRun (hand t.seq ⟨op, x, y, false, [], none, s.cc⟩) }
    else s)

/-- An instruction that writes a scalar, or VSYNC: its slot is in REPLY until the entry is done. -/
def handScalar (g : PredIx) (op : Instr) (x y : Word) (s : State) : Out :=
  .next (if s.guard g then
      s.modCur fun t => { t with seq := hand t.seq ⟨op, x, y, false, [], none, s.cc⟩, seqReply := true, st := .reply }
    else s)

/-- Instructions that may not be handed inside a VLOOP run (R162). -/
def barredInRun : Instr → Bool
  | .vloop .. | .vsync .. | .vred .. | .vextr .. | .vsort .. | .vksel .. => true
  | _ => false

/-- The sequencer with a run that is still being handed cancelled (R162). -/
def cancelRun (q : List SeqItem) : List SeqItem := if runOpen q then q.dropLast else q

def execVadd (o : VOp) (s : State) : Out := handEntry o.g (.vadd o) 0 0 s
def execVsub (o : VOp) (s : State) : Out := handEntry o.g (.vsub o) 0 0 s
def execVmul (o : VOp) (s : State) : Out := handEntry o.g (.vmul o) 0 0 s
def execVfma (o : VOp) (s : State) : Out := handEntry o.g (.vfma o) 0 0 s
def execVmin (o : VOp) (s : State) : Out := handEntry o.g (.vmin o) 0 0 s
def execVmax (o : VOp) (s : State) : Out := handEntry o.g (.vmax o) 0 0 s
def execVcmp (x : BitVec 2) (o : VOp) (s : State) : Out := handEntry o.g (.vcmp x o) 0 0 s
def execVsel (o : VOp) (s : State) : Out := handEntry o.g (.vsel o) 0 0 s
def execVred (x : BitVec 2) (o : VOp) (s : State) : Out := handScalar o.g (.vred x o) 0 0 s
def execVcvt (r : BitVec 2) (o : VOp) (s : State) : Out := handEntry o.g (.vcvt r o) 0 0 s
def execVdec (sc : BitVec 1) (o : VOp) (s : State) : Out := handEntry o.g (.vdec sc o) 0 0 s
/-- VENC: DTNAN as it stands at issue (R359). -/
def execVenc (o : VOp) (s : State) : Out := handEntry o.g (.venc o) 0 (s.cur.dtnan.setWidth 64) s
def execVscl (o : VOp) (s : State) : Out := handEntry o.g (.vscl o) 0 0 s
def execVperm (o : VOp) (s : State) : Out := handEntry o.g (.vperm o) 0 0 s
def execVbcast (o : VOp) (s : State) : Out := handEntry o.g (.vbcast o) (s.src o.a) 0 s
def execVextr (o : VOp) (s : State) : Out := handScalar o.g (.vextr o) 0 (s.src o.b) s
def execVidx (o : VOp) (s : State) : Out := handEntry o.g (.vidx o) (s.src o.a) 0 s
def execVsfu (o : VOp) (s : State) : Out := handEntry o.g (.vsfu o) 0 0 s
def execVsort (x : BitVec 1) (o : VOp) (s : State) : Out := handScalar o.g (.vsort x o) 0 0 s
/-- VKSEL: k as it stands at issue (R364). -/
def execVksel (x : BitVec 1) (o : VOp) (s : State) : Out := handScalar o.g (.vksel x o) (s.src o.b) 0 s
def execVrand (o : VOp) (s : State) : Out := handEntry o.g (.vrand o) (s.src o.a) (s.src o.b) s
def execVimask (o : VOp) (s : State) : Out := handEntry o.g (.vimask o) 0 (s.src o.b) s
def execVsync (g : PredIx) (s : State) : Out := handScalar g (.vsync g) 0 0 s

/-- VLOOP (R162, R366): the next n entries are a run of s[a] passes. -/
def State.markRun (s : State) (a : Reg) (n : BitVec 4) : Except Stop State := do
  need (!runOpen s.cur.seq && fld (s.src a) 32 32 == 0) (.trap clsIll 0)
  .ok (s.modCur fun x => { x with seq := x.seq ++ [.run (n.toNat + 1) (s.src a).toNat 0 0 []] })

def execVloop (a : Reg) (n : BitVec 4) (g : PredIx) (s : State) : Out := guarded g s (s.markRun a n)

/-! ## CLAIM, SHRINK, VALLOT (R156, R279) -/

/-- What the three share: the wait for an empty sequencer comes first (R156); then ALLOT in a gang, or where `fits` is false, and SYS in
checked pairing where `alone` says so, in this order (R69, R279). -/
def State.poolCheck (s : State) (a : Reg) (fits alone : Bool) : Check := do
  s.seqEmpty
  need (!s.cur.gang && fits) (.trap clsAllot (s.src a).toNat)
  need (!(alone && s.cur.coupled)) (.trap clsSys 0x10)

/-- CLAIM. -/
def State.claim (s : State) (d a : Reg) : Except Stop State := do
  s.poolCheck a true true
  let q := min (s.src a).toNat 256 / 16
  let got := s.pickGroups s.curCore s.curSlot q
  let s := s.modCur fun x =>
    { x.keep got (if got.isEmpty then 0 else x.allot) with want := if got.length < q then 16 * q else 0 }
  .ok (s.setReg d (BitVec.ofNat 64 (16 * got.length)))

/-- SHRINK. -/
def State.shrink (s : State) (a : Reg) : Except Stop State := do
  s.poolCheck a true false
  .ok (s.modCur fun x => x.keep x.groups (x.allot - min (s.src a).toNat x.allot))

/-- Every group the slot holds has rows for `n` registers. -/
def State.rowsFor (s : State) (n : Nat) : Bool :=
  s.cur.groups.all fun g => decide ((s.groupUse s.curCore s.curSlot g).2 + n ≤ 128)

/-- VALLOT. -/
def State.vallot (s : State) (d a : Reg) : Except Stop State := do
  s.poolCheck a (decide ((s.src a).toNat ≤ 32)) true
  let n := s.cur.allot
  let want := (s.src a).toNat
  let got := if want ≤ n then n
    else (List.range (want + 1)).foldl (fun m v => if n < v ∧ s.rowsFor v then v else m) n
  .ok ((s.modCur fun x => { x with allot := got, regPoison := x.regPoison.filter (· < 64 + n) }).setReg d (BitVec.ofNat 64 got))

def execClaim (d a : Reg) (g : PredIx) (s : State) : Out := guarded g s (s.claim d a)
def execShrink (a : Reg) (g : PredIx) (s : State) : Out := guarded g s (s.shrink a)
def execVallot (d a : Reg) (g : PredIx) (s : State) : Out := guarded g s (s.vallot d a)

/-! ## The sequencer and the special-function unit (R159, R173, R374) -/

/-- Lane operations of an entry count toward the launch's intensity (R243). -/
def State.countLanes (s : State) (core slot : Nat) : State :=
  match (s.slot core slot).launch with
  | some id => s.modLaunch id fun l => { l with laneOps := l.laneOps + (s.core core).vlen slot }
  | none => s

/-- A VSFU entry at the head enters the cluster's queue of 32 requests. -/
def State.sendSfu (s : State) (core slot : Nat) (e : SeqEntry) : Option State :=
  let cl := clusterOf core
  match (s.core core).sfuLanes slot e with
  | some (o, xs) =>
    if (s.cluster cl).sfu.length < 32 then
      let s := s.modCluster cl fun c => { c with sfu := c.sfu ++ [⟨core, slot, o, xs, false⟩] }
      some (s.modCore core fun c =>
        let c := c.popHeads slot o false
        c.setSlot slot { c.slot slot with seq := seqReplace (c.slot slot).seq { e with sent := true } })
    else none
  | none => none

/-- The next turn of a slot's sequencer, if its head can take one; a VSYNC that is done is a renegotiation point (R163). An entry that
reads a vector register with poison kills its slot: the poison has no DVA, and INFO is 0 (R186, R385). -/
def State.sequencerTurn (s : State) (core slot : Nat) : Option State :=
  let x := s.slot core slot
  if x.st = .saved then none
  else if (s.core core).eatsPoison slot then some (s.killSlot core slot 0)
  else
    match seqHead x.seq with
    | none => none
    | some e =>
      match e.op with
      | .vsfu _ => if e.sent then none else (s.sendSfu core slot e).map fun t => t.countLanes core slot
      | .vsync _ => ((s.core core).stepEntry slot).map fun c => (s.setCore core c).renegotiate core slot
      | _ => ((s.core core).stepEntry slot).map fun c => (s.setCore core c).countLanes core slot

def execSequencerEntryRun (core slot : Nat) (s : State) : Out := .next ((s.sequencerTurn core slot).getD s)

/-- SFU_REQUEST_SERVE: the head request of a cluster's queue. -/
def execSfuRequestServe (cluster : Nat) (s : State) : Out :=
  .next (match (s.cluster cluster).sfu with
    | [] => s
    | r :: rest =>
      if r.dead then s.modCluster cluster fun c => { c with sfu := rest } else s.finishSfu r.core r.slot)

end Sys2Proof.Machine
end

