-- ==== Sys2Proof/Machine/Engine.lean ====
section
/-!
DEFINITION. The engines of a core: EPUSH, EPOP, MMA, MMAE, RINGSET, rank-1 steps, copies, multicast, completions
(spec/08_engines.md R164–R172; spec/07 R148, R150; spec/14 R227, R228; spec/20 R289–R292; spec/21 R321–R324, R332).
-/
namespace Sys2Proof.Machine

open Sys2Proof

/-! ## Command blocks (R165, R171, R227, R292) -/

/-- Word `i` of a command block. -/
def blockWord (bs : List Byte) (i : Nat) : Word := savedWord bs (8 * i)

/-- The least of the byte offsets whose condition holds: the offset a malformed block names (R175). -/
def firstBad (l : List (Bool × Nat)) : Option Nat :=
  l.foldl (fun best c => if c.1 then (match best with
    | some b => some (min b c.2)
    | none => some c.2) else best) none

/-- Bad fields of a completion part. -/
def completionBad (bs : List Byte) : List (Bool × Nat) :=
  let w := blockWord bs 7
  let t := blockWord bs 6
  [(fld w 6 2 != 0 || w.getLsbD 2, 56), (fld w 11 21 != 0, 57),
   (fld w 0 2 == 1 && (fld t 48 16 != 0xFE || fld t 0 30 != 0), 48)]

/-- The completion part of a block; the place of the fill word is found by the push. -/
def completionOf (bs : List Byte) : Completion :=
  let w := blockWord bs 7
  { kind := fld w 0 2, tag := w.extractLsb' 32 32, handler := blockWord bs 5, target := blockWord bs 6
    ch := w.extractLsb' 4 2, h := w.getLsbD 3, fill := none, at' := 0, ctx := 0 }

/-- A matrix block's bad fields. -/
def matBad (bs : List Byte) : List (Bool × Nat) :=
  let w := blockWord bs 0
  let k := fld w 32 32
  [(fld w 9 23 != 0, 1), (k % 32 != 0 || decide (k < 32 ∨ 2 ^ 24 < k), 4), (fld w 0 3 == fld w 3 3, 0),
   ((List.range 4).any fun i => blockWord bs (i + 1) != 0, 8)]

/-- First byte and end of an extent: `rows` rows of `len` bytes, `stride` apart. -/
def extent (start : Nat) (stride : Int) (rows len : Nat) : Int × Int :=
  let span := ((rows - 1 : Nat) : Int) * stride
  (start + min 0 span, start + max 0 span + len)

/-- Size in bytes, bytes held and base of a ring (R166). -/
def ringSize (r : BitVec 128) : Nat := 2 ^ (r.extractLsb' 19 7).toNat
def ringHead (r : BitVec 128) : Nat := (r.extractLsb' 64 32).toNat
def ringTail (r : BitVec 128) : Nat := (r.extractLsb' 96 32).toNat
def ringHeld (r : BitVec 128) : Nat := (r.extractLsb' 96 32 - r.extractLsb' 64 32).toNat
def ringBase (r : BitVec 128) : Nat := (r.extractLsb' 0 19).toNat
def ringSoff (r : BitVec 128) : Nat := (r.extractLsb' 32 32).toNat

/-- A descriptor with HEAD or TAIL moved on. -/
def ringPop (r : BitVec 128) (n : Nat) : BitVec 128 :=
  r.extractLsb' 96 32 ++ (r.extractLsb' 64 32 + BitVec.ofNat 32 n) ++ r.extractLsb' 0 64
def ringAppend (r : BitVec 128) (n : Nat) : BitVec 128 := (r.extractLsb' 96 32 + BitVec.ofNat 32 n) ++ r.extractLsb' 0 96

/-- Ring `n` of a core. -/
def Core.ring (c : Core) (n : Nat) : BitVec 128 := c.rings[n]?.getD 0
def Core.setRing (c : Core) (n : Nat) (r : BitVec 128) : Core := { c with rings := c.rings.setIfInBounds n r }

/-- The fields of a copy block. -/
structure CopyBlock where
  dkind    : Nat
  skind    : Nat
  dcap     : CapIx
  scap     : CapIx
  rows     : Nat
  rowBytes : Nat
  dstride  : Int
  sstride  : Int
  src      : Word
  dst      : Word
  dies     : BitVec 8
  clusters : BitVec 16
  cores    : BitVec 8
  deriving DecidableEq, Repr

def CopyBlock.of (bs : List Byte) : CopyBlock :=
  let w := blockWord bs 2
  let st := blockWord bs 3
  let mc := blockWord bs 4
  { dkind := fld w 60 4, skind := fld w 56 4, dcap := w.extractLsb' 53 3, scap := w.extractLsb' 50 3, rows := fld w 32 16
    rowBytes := fld w 0 32, dstride := (st.extractLsb' 32 32).toInt, sstride := (st.extractLsb' 0 32).toInt
    src := blockWord bs 0, dst := blockWord bs 1, dies := mc.extractLsb' 24 8, clusters := mc.extractLsb' 8 16
    cores := mc.extractLsb' 0 8 }

def CopyBlock.srcExtent (b : CopyBlock) : Int × Int := extent b.src.toNat b.sstride b.rows b.rowBytes
def CopyBlock.dstExtent (b : CopyBlock) : Int × Int := extent b.dst.toNat b.dstride b.rows b.rowBytes

/-- A local extent lies outside the program area (R171). -/
def outsideLocal (e : Int × Int) : Bool := decide (e.1 < (programArea : Int) ∨ 0x80000 < e.2)

/-- A copy block's bad fields. `c` is the core, for a ring's size. -/
def copyBad (c : Core) (bs : List Byte) : List (Bool × Nat) :=
  let b := CopyBlock.of bs
  let w := blockWord bs 2
  let named := b.dies != 0 && b.clusters != 0 && b.cores != 0
  let off : Nat := b.dst.toNat % 2 ^ 24
  [(4 < b.dkind, 23), (1 < b.skind, 23), (fld w 48 2 != 0, 22), (b.rows == 0, 20),
   (b.rowBytes == 0 || 0x1000000 < b.rowBytes, 16), (fld (blockWord bs 4) 32 32 != 0, 36),
   (b.dkind != 3 && (b.dies != 0 || b.clusters != 0 || b.cores != 0), 23), (b.dkind == 3 && !named, 23),
   (b.skind == 1 && outsideLocal b.srcExtent, 0),
   ((b.dkind == 1 || b.dkind == 3) && outsideLocal b.dstExtent, 8),
   (b.dkind == 4 && fld b.dst 3 61 != 0, 8),
   (b.dkind == 4 && decide (ringSize (c.ring (fld b.dst 0 3)) < b.rows * b.rowBytes), 16),
   (b.dkind == 4 && b.dstride != 0, 23),
   (b.dkind == 2 && (off % 64 != 0 || decide (0x10000 < (off : Int) + ((b.rows - 1 : Nat) : Int) * b.dstride + b.rowBytes)), 8),
   (b.dkind == 2 && b.rowBytes % 64 != 0, 16), (b.dkind == 2 && b.dstride % 64 != 0, 28)]

/-! ## EPUSH (R164, R291) -/

/-- The 64 bytes of the block at s[a] (R291). -/
def State.commandBlock (s : State) (a : Reg) : Except Stop (List Byte) := do
  let off := s.src a
  let o := off.toNat
  let x := s.cur
  need (decide (o ≤ 0x7FFFF ∧ o < s.lmend s.curCore x)) (.trap clsSeg o)
  need (o % 64 == 0) (.trap clsAln o)
  need (decide (programArea ≤ o)) (.trap clsSys o)
  match s.place x.launch s.curCore o with
  | some p =>
    if s.poisonedAt (.lm s.curCore p) 64 then .error (.kill (s.ownDva off + s.poisonOff (.lm s.curCore p) 64))
    else .ok (s.rdLoc (.lm s.curCore p) 64)
  | none => .error (.trap clsSeg o)

/-- A block with a bad field traps ENG. -/
def blockOk (bad : List (Bool × Nat)) : Check :=
  match firstBad bad with
  | some n => .error (.trap clsEng n)
  | none => .ok ()

/-- The check of a window byte of an extent: the form and the local map (R95, R97); whether its device can be reached is found
at the access (R165). -/
def State.checkWindow (s : State) (dva : Nat) : Check :=
  if s.knowsDevice (winDev dva) then (s.windowLoc s.cur.launch s.cur.supervisor s.curSlot dva 1 .other).map fun _ => ()
  else do
    need (dva / 2 ^ 19 % 2 ^ 11 == 0) (.trap clsSeg dva)
    need (localAllowed s.cur.supervisor s.curSlot .other (winOff dva)) (.trap clsSys dva)

/-- The window addresses among the first and last bytes of the first `n` rows of an extent from a DVA checked: a row is shorter than
a core's share of the window, so that they speak for the whole row. -/
def State.checkRows (s : State) (dva : Int) (stride : Int) (len : Nat) : Nat → Check
  | 0 => .ok ()
  | n + 1 => do
    s.checkRows dva stride len n
    let a := (dva + n * stride).toNat
    if isWindow a then s.checkWindow a
    if isWindow (a + len - 1) then s.checkWindow (a + len - 1)

/-- A global extent checked under R100 at its first and last byte (R171), and its window rows (R95, R97). The DVA of row 0's first
byte. -/
def State.checkExtent (s : State) (c : CapIx) (start : Word) (stride : Int) (rows len : Nat) (write : Bool) : Except Stop Nat := do
  let e := extent start.toNat stride rows len
  need (decide (0 ≤ e.1 ∧ e.2 ≤ 2 ^ 56)) (.trap clsSeg start.toNat)
  let _ ← s.capDva c (BitVec.ofInt 64 e.1) 1 (!write) write
  let _ ← s.capDva c (BitVec.ofInt 64 (e.2 - 1)) 1 (!write) write
  s.checkRows ((s.cap c).base + start.toNat) stride len rows
  .ok ((s.cap c).base + start.toNat)

/-- A local extent ends within the launch's partition (R98). -/
def State.checkLocal (s : State) (e : Int × Int) : Check :=
  need (decide (e.2 ≤ (s.lmend s.curCore s.cur : Int))) (.trap clsSeg (e.2 - 1).toNat)

/-- The checks of a completion's target: a core as SENDE would name it, or a fill word as for STFA (R165); the DVA of the
fill word. -/
def State.completionCheck (s : State) (bs : List Byte) : Except Stop Nat := do
  let c := completionOf bs
  if c.kind = 1 then
    s.coreAddress c.target
    need (s.holdsLaunch s.cur (c.target.toNat % 2 ^ 56)) (.trap clsPkt 3)
    .ok 0
  else if c.kind = 2 then s.globalDva ((blockWord bs 7).extractLsb' 8 3) c.target 8 false true .stfa
  else .ok 0

/-- The completion of a block, with the place of its fill word at a checked DVA. -/
def State.completionTarget (s : State) (bs : List Byte) (dva : Nat) : Except Stop Completion := do
  let c := completionOf bs
  if c.kind = 2 then
    let l ← s.dvaLoc dva 8 .write .stfa
    match l with
    | .noPart _ => .error (.answer clsSeg dva)
    | _ => .ok { c with fill := some l, at' := s.cc }
  else .ok c

/-- The current slot is a checker: KIND 1 and 2 completions come from its leader's engine only (R189). -/
def State.checks (s : State) : Bool := s.cur.coupled && s.curCore % 2 == 1
def Completion.muted (c : Completion) : Completion := if c.kind = 1 ∨ c.kind = 2 then { c with kind := 3 } else c

/-- A slot's input queue for an engine holds two commands. -/
def Slot.inputFull (x : Slot) (copy : Bool) : Bool := decide (2 ≤ (if copy then x.copyQ.length else x.matQ.length))

/-- The wait for a place in the input queue (R164). -/
def State.inputRoom (s : State) (copy : Bool) (cop : Nat) : Check := do
  if s.cur.inputFull copy then
    s.mayPark cop false
    .error (.park (.engine copy))

def State.pushMat (s : State) (a : Reg) : Except Stop State := do
  let bs ← s.commandBlock a
  blockOk (matBad bs ++ completionBad bs)
  let fill ← s.completionCheck bs
  s.inputRoom false 0x1C
  let comp ← s.completionTarget bs fill
  let s ← s.release
  let w := blockWord bs 0
  let m : MatOp :=
    { launch := s.cur.launch.getD 0, at' := s.cc, k := fld w 32 32, z := w.getLsbD 8, acc := fld w 6 2, ringA := fld w 0 3
      ringB := fld w 3 3, sync := false, next := 0, scaleA := [], scaleB := [], scaled := false
      comp := if s.checks then comp.muted else comp }
  .ok (s.modCur fun x => { x with matQ := x.matQ ++ [m] })

def State.pushCopy (s : State) (a : Reg) : Except Stop State := do
  let bs ← s.commandBlock a
  blockOk (copyBad s.here bs ++ completionBad bs)
  let b := CopyBlock.of bs
  let src ← if b.skind = 0 then s.checkExtent b.scap b.src b.sstride b.rows b.rowBytes false
    else do
      s.checkLocal b.srcExtent
      .ok b.src.toNat
  let dst ← if b.dkind = 0 then s.checkExtent b.dcap b.dst b.dstride b.rows b.rowBytes true
    else do
      if b.dkind = 1 ∨ b.dkind = 3 then s.checkLocal b.dstExtent
      .ok b.dst.toNat
  let fill ← s.completionCheck bs
  s.inputRoom true 0x1C
  let comp ← s.completionTarget bs fill
  let s ← s.release
  let m : CopyCmd :=
    { launch := s.cur.launch.getD 0, skind := b.skind, src := src, dkind := b.dkind, dst := dst, rows := b.rows
      rowBytes := b.rowBytes, sstride := b.sstride, dstride := b.dstride, dies := b.dies, clusters := b.clusters
      cores := b.cores, mute := s.checks && (b.dkind == 0 || b.dkind == 2 || b.dkind == 3)
      comp := if s.checks then comp.muted else comp }
  let s := s.modCur fun x => { x with copyQ := x.copyQ ++ [m] }
  .ok (s.modHere fun c => { c with copyOrd := c.copyOrd ++ [s.curSlot] })

def execEpushMat (a : Reg) (g : PredIx) (s : State) : Out := guarded g s (s.pushMat a)
def execEpushCopy (a : Reg) (g : PredIx) (s : State) : Out := guarded g s (s.pushCopy a)

/-! ## EPOP (R289) -/

def State.popResult (s : State) (d : Reg) (copy : Bool) : Except Stop State :=
  match (if copy then s.cur.copyRes else s.cur.matRes) with
  | v :: rest =>
    let s := s.modCur fun x => if copy then { x with copyRes := rest } else { x with matRes := rest }
    .ok ((s.setReg d v).selfInvalidate s.curCore)
  | [] => do
    need (s.here.owes s.curSlot copy) (.trap clsEng 0xFFFE)
    .error (.reissue (.result copy))

def execEpop (d : Reg) (g : PredIx) (engine : BitVec 1) (s : State) : Out := guarded g s (s.popResult d (engine == 1#1))

/-! ## RINGSET (R166, R332) -/

/-- No matrix operation and no copy of the core names a ring. -/
def Core.ringIdle (c : Core) (n : Nat) : Bool :=
  let names (m : CopyCmd) : Bool := m.dkind == 4 && m.dst % 8 == n
  !(c.slots.toList.any fun x => x.matQ.any (fun m => m.ringA == n || m.ringB == n) || x.copyQ.any names)
    && !(c.copyRun.any fun r => names r.cmd)

/-- The log2 of a ring size that R37 allows: 4 KiB to 256 KiB. -/
def ringLog (size : Nat) : Option Nat := [12, 13, 14, 15, 16, 17, 18].find? fun k => 2 ^ k == size

def State.ringset (s : State) (d a b : Reg) (fmt : BitVec 4) : Except Stop State := do
  let v := s.src a
  let base := fld v 0 19
  let size := (s.src b).toNat
  need (fld v 20 12 == 0) (.trap clsSeg v.toNat)
  need (base % 128 == 0 && decide (programArea ≤ base)) (.trap clsSeg v.toNat)
  match ringLog size with
  | none => .error (.trap clsSeg size)
  | some log =>
    need (decide (base + size ≤ s.lmend s.curCore s.cur)) (.trap clsSeg size)
    need (s.here.ringIdle d.toNat) (.reissue (.ringIdle d.toNat))
    let tail := if v.getLsbD 19 then 0 else size
    let r : BitVec 128 := BitVec.ofNat 32 tail ++ 0#32 ++ v.extractLsb' 32 32 ++ 0#4 ++ fmt.extractLsb' 0 2
      ++ BitVec.ofNat 7 log ++ BitVec.ofNat 19 base
    .ok (s.modHere fun c => { c.setRing d.toNat r with tiles := c.tiles.setIfInBounds d.toNat 0 })

def execRingset (d a b : Reg) (g : PredIx) (fmt : BitVec 4) (s : State) : Out := guarded g s (s.ringset d a b fmt)

/-! ## MMA (R168, R321) -/

/-- Bytes of an element of a ring's format, and of a tile of `w` rows or columns (R167). -/
def elemBytes (f : BitVec 2) : Nat := if f = 2#2 then 1 else if f = 3#2 then 4 else 2
def tileBytes (r : BitVec 128) (w : Nat) : Nat := 32 * w * elemBytes (ringFmt r)

/-- A ring that RINGSET has set holds a tile of its role. -/
def holdsTile (r : BitVec 128) (w : Nat) : Bool := decide (tileBytes r w ≤ ringHeld r)

def State.mma (s : State) (d a b : Reg) (c : CapIx) (z : BitVec 1) : Except Stop State := do
  let k := (s.src a).toNat
  let ra := b.toNat
  let rb := c.toNat
  need (k % 32 == 0 && decide (32 ≤ k ∧ k ≤ 2 ^ 24)) (.trap clsEng 0xFFFF)
  need (s.cur.since.isSome || (ra != rb && holdsTile (s.here.ring ra) 32 && holdsTile (s.here.ring rb) 64))
    (.trap clsEng 0xFFFF)
  s.mayPark 0x1E false
  s.notCoupled
  if s.cur.inputFull false then .error (.park (.engine false))
  else
    let m : MatOp :=
      { launch := s.cur.launch.getD 0, at' := s.cc, k := k, z := z == 1#1, acc := d.toNat, ringA := ra, ringB := rb
        sync := true, next := 0, scaleA := [], scaleB := [], scaled := false, comp := ⟨3, 0, 0, 0, 0, false, none, 0, 0⟩ }
    .ok ((s.modCur fun x => { x with matQ := x.matQ ++ [m] }).parkCur .mma)

def execMma (d a b : Reg) (c : CapIx) (g : PredIx) (z : BitVec 1) (s : State) : Out := guarded g s (s.mma d a b c z)

/-! ## Accumulator tiles (R55, R150) -/

/-- Entries `from` to `from + n − 1` of a rising table, 0 where unlisted. -/
def denseOf (m : Sparse Half) (start : Nat) : Nat → List Half
  | 0 => []
  | n + 1 =>
    match m.dropWhile fun kv => kv.1 < start with
    | (k, v) :: rest => if k = start then v :: denseOf rest (start + 1) n else 0 :: denseOf ((k, v) :: rest) (start + 1) n
    | [] => 0 :: denseOf [] (start + 1) n

/-- The 2,048 FP32 elements of a tile, row-major. -/
def Core.accTile (c : Core) (t : Nat) : List Half := denseOf c.acc (2048 * t) 2048

/-- A tile written. -/
def Core.setAcc (c : Core) (t : Nat) (vs : List Half) : Core :=
  { c with acc := c.acc.filter (fun kv => kv.1 < 2048 * t)
      ++ (List.range 2048).zipWith (fun i v => (2048 * t + i, v)) vs
      ++ c.acc.filter (fun kv => 2048 * (t + 1) ≤ kv.1) }

/-! ## Rank-1 steps (R148, R150, R167, R168, R322) -/

/-- Bytes of a ring from its HEAD on, by position in the stream. -/
def State.ringBytes (s : State) (core launch : Nat) (r : BitVec 128) (pos n : Nat) : Option (List Byte) :=
  (List.range n).mapM fun i =>
    (s.place (some launch) core (ringBase r + (ringHead r + pos + i) % ringSize r)).map fun p => (s.core core).lm.rd p

/-- Whether those bytes carry poison: the window DVA of the first word that does. -/
def State.ringPoison (s : State) (core launch : Nat) (r : BitVec 128) (pos n : Nat) : Option Nat :=
  (List.range n).findSome? fun i =>
    let off := ringBase r + (ringHead r + pos + i) % ringSize r
    match s.place (some launch) core off with
    | some p => if s.poisonedAt (.lm core p) 1 then some (gwin s.device core off) else none
    | none => none

/-- An operand as the step takes it: E8M10 (R150). -/
def operandOf (c : Core) (fmt : BitVec 2) (bits : Nat) (scale : Option Nat) : FVal :=
  if fmt = 2#2 then
    match scale with
    | none => e8m10.value (c.dec8 bits)
    | some sc => e8m10.value (e8m10.bits .rne (scaled (c.dec8 bits) (some sc)))
  else if fmt = 0#2 then bf16.value bits
  else if fmt = 1#2 then fp16.value bits
  else e8m10.value (e8m10.bits .rne (fp32.value bits))

/-- Row `k` of a tile `w` wide as operands. -/
def operandRow (c : Core) (fmt : BitVec 2) (bs : List Byte) (scales : List Byte) (w : Nat) : List FVal :=
  let e := elemBytes fmt
  (List.range w).map fun i =>
    operandOf c fmt (natOfBytes ((bs.drop (e * i)).take e)) ((scales[i]?).map (·.toNat))

/-- One rank-1 update of a tile. -/
def rank1 (acc : List Half) (as bs : List FVal) : List Half :=
  (as.flatMap fun a => bs.map fun b => a.mul b).zipWith
    (fun p v => BitVec.ofNat 32 (fp32.bits .rne (p.add (fp32.value v.toNat)))) acc

/-- Bytes read for a launch through the port, each translated (R167): the bytes, or the DVA and the cause, 0 for poison, which has
no DVA in a page-table entry (R385); or neither, for a read that waits (R105). -/
def State.readBytes (s : State) (core asid launch : Nat) : List Nat → State × Except (Option (Nat × Nat)) (List Byte)
  | [] => (s, .ok [])
  | dva :: rest =>
    match s.xlateOr core asid dva true false with
    | none => (s, .error none)
    | some (s, .error cause) => (s, .error (some (if cause = 0 then 0 else dva, cause)))
    | some (s, .ok l) =>
      let s := s.l2Access core (some launch) l 1 false
      if s.poisonedAt l 1 then (s, .error (some (dva, 0)))
      else
        match s.readBytes core asid launch rest with
        | (s, .ok bs) => (s, .ok (s.rdLoc l 1 ++ bs))
        | (s, .error e) => (s, .error e)

/-- The oldest operation of a slot replaced, or taken out. -/
def State.setOp (s : State) (core slot : Nat) (m : Option MatOp) : State :=
  s.modSlot core slot fun x => { x with matQ := m.toList ++ x.matQ.tail }

/-- A slot parked for room in an engine's input queue issues again (R72). -/
def State.wakeEngine (s : State) (core slot : Nat) (copy : Bool) : State :=
  let x := s.slot core slot
  if x.st = .parked ∧ x.park = some (.engine copy) ∧ !x.inputFull copy then s.wake core slot [] else s

/-- The oldest matrix operation of a slot ends (R168): a synchronous MMA makes its slot READY, any other forms its result
word. -/
def State.endMat (s : State) (core slot : Nat) (m : MatOp) (status : Nat) : State :=
  let s := s.setOp core slot none
  let s := if m.sync then
      (if (s.slot core slot).park = some .mma then s.wake core slot [] else s)
    else s.modCore core fun c => { c with ended := c.ended ++ [⟨slot, m.launch, false, status, m.comp⟩] }
  s.wakeEngine core slot false

/-- DVAs of the block scales of the `t`-th tile of a ring (R167), if it takes any. -/
def scaleDvas (scl : Nat) (r : BitVec 128) (w t : Nat) : List Nat :=
  if ringFmt r = 2#2 ∧ scl ≠ 0 then (List.range w).map fun i => scl + ringSoff r + w * t + i else []

/-- The slot of a command consumes poison (R186): it is killed if it holds a strand of the command's launch. -/
def State.commandPoison (s : State) (core slot launch dva : Nat) : State :=
  let x := s.slot core slot
  if x.st = .free ∨ x.st = .killed ∨ x.launch ≠ some launch then s else s.killSlot core slot dva

/-- Poison in a step of a slot's oldest operation, which is discarded whatever the slot holds. -/
def State.opPoison (s : State) (core slot : Nat) (m : MatOp) (dva : Nat) : State :=
  (s.setOp core slot none).commandPoison core slot m.launch dva

/-- The scales of the current tiles read; none when the operation stops, or waits for its turn to fault (R105, R168). -/
def State.readScales (s : State) (core slot : Nat) (m : MatOp) : State × Option MatOp :=
  if m.scaled then (s, some m)
  else
    let l := s.launchById m.launch
    let asid := (l.map (·.asid)).getD 0
    let scl := (l.map (·.scl)).getD 0
    let c := s.core core
    let das := scaleDvas scl (c.ring m.ringA) 32 (c.tiles[m.ringA]?.getD 0)
    let dbs := scaleDvas scl (c.ring m.ringB) 64 (c.tiles[m.ringB]?.getD 0)
    match s.readBytes core asid m.launch (das ++ dbs) with
    | (s, .ok bs) => (s, some { m with scaled := true, scaleA := bs.take das.length, scaleB := bs.drop das.length })
    | (s, .error none) => (s, none)
    | (s, .error (some (dva, 0))) => (s.opPoison core slot m dva, none)
    | (s, .error (some (dva, cause))) =>
      if m.sync then (s.faultSlot core slot dva cause .engine (s.slot core slot).pc false true, none)
      else ((s.faultRecord core slot asid dva cause .engine 0).endMat core slot m 8, none)

/-- Where the entry of a context that its slot is lent over begins (R106). -/
def State.lentEntry (s : State) (core slot : Nat) : Nat :=
  s.parkedEntry core slot ((((s.slot core slot).lentLaunch.bind s.launchById).map (·.asid)).getD 0)

/-- A result queue of a parked context: the place in its entry of the queue, of the count in use, and the count. -/
def State.lentResults (s : State) (core slot : Nat) (copy : Bool) : Nat × Nat × Nat :=
  let e := s.lentEntry core slot
  let count := e + 0x340 + (if copy then 4 else 0)
  (e + (if copy then 0x320 else 0x300), count, natOfBytes (s.mem.rdBytes count 4))

/-- The result queue that takes a KIND 0 word, the saved one of a parked context for its own commands (R106, R165), has room beside the
words that wait to be delivered to it. -/
def State.wordRoom (s : State) (core slot : Nat) (copy : Bool) (comp : Completion) : Bool :=
  let x := s.slot core slot
  let held := if comp.lent then (s.lentResults core slot copy).2.2 else (if copy then x.copyRes else x.matRes).length
  let due := (s.core core).ended.countP fun e => e.slot == slot && e.copy == copy && e.comp.kind == 0 && e.comp.ctx == comp.ctx
  comp.kind != 0 || decide (held + due < 4)

/-- The oldest operation of a slot may take a step: queued earlier, not stopped by a fault or by a DTWR, room for its word, and its
tiles there, which another slot's operation on the same ring may have popped (R168, R322). -/
def State.mayStep (s : State) (core slot : Nat) (m : MatOp) : Bool :=
  let c := s.core core
  let x := c.slot slot
  m.at' < s.cc && !(m.sync && x.st == .faulted)
    && (m.next != 0 || m.sync || s.wordRoom core slot false m.comp)
    && !(c.code8Op m && c.tableHolds m.at')
    && holdsTile (c.ring m.ringA) 32 && holdsTile (c.ring m.ringB) 64

/-- One rank-1 step of a slot's oldest matrix operation. -/
def State.matStep (s : State) (core slot : Nat) : State :=
  match (s.slot core slot).matQ with
  | [] => s
  | m :: _ =>
    if !s.mayStep core slot m then s
    else
      match s.readScales core slot m with
      | (s, none) => s
      | (s, some m) =>
        let c := s.core core
        let ra := c.ring m.ringA
        let rb := c.ring m.ringB
        let i := m.next % 32
        let wa := 32 * elemBytes (ringFmt ra)
        let wb := 64 * elemBytes (ringFmt rb)
        match s.ringPoison core m.launch ra (wa * i) wa <|> s.ringPoison core m.launch rb (wb * i) wb with
        | some dva => s.opPoison core slot m dva
        | none =>
          let as := operandRow c (ringFmt ra) ((s.ringBytes core m.launch ra (wa * i) wa).getD []) m.scaleA 32
          let bs := operandRow c (ringFmt rb) ((s.ringBytes core m.launch rb (wb * i) wb).getD []) m.scaleB 64
          let old := if m.z && m.next == 0 then List.replicate 2048 0 else c.accTile m.acc
          let c := c.setAcc m.acc (rank1 old as bs)
          let last := i = 31
          let c := if last then
              { (c.setRing m.ringA (ringPop ra (tileBytes ra 32))).setRing m.ringB (ringPop rb (tileBytes rb 64)) with
                tiles := (c.tiles.setIfInBounds m.ringA (c.tiles[m.ringA]?.getD 0 + 1)).setIfInBounds m.ringB
                  (c.tiles[m.ringB]?.getD 0 + 1) }
            else c
          let s := (s.setCore core c).modLaunch m.launch fun l => { l with steps := l.steps + 1 }
          if m.next + 1 = m.k then s.endMat core slot m 0
          else s.setOp core slot (some { m with next := m.next + 1, scaled := m.scaled && !last })

/-- RANK_1_STEP: the step owner of the entry consumed in this cc (R75). -/
def execRank1Step (core : Nat) (s : State) : Out :=
  .next (s.matStep core (almStep ((s.core core).alm[s.cc % 16]?.getD 0)))

/-! ## MMAE (R169, R170, R323, R324) -/

/-- Bytes of an output element: fp32, bf16, fp16, code8. -/
def outBytes (o : BitVec 2) : Nat := if o = 0#2 then 4 else if o = 3#2 then 1 else 2

/-- One output of MMAE. -/
def mmaeOut (c : Core) (dtnan : Nat) (scale : FVal) (o r : BitVec 2) (seen : Bool) (v : Half) : Nat :=
  let x := fp32.bits .rne ((fp32.value v.toNat).mul scale)
  let x := if seen then x else 0xFF800000
  if o = 0#2 then x
  else if o = 1#2 then bf16.bits (Rnd.ofCode r) (fp32.value x)
  else if o = 2#2 then fp16.bits (Rnd.ofCode r) (fp32.value x)
  else enc8 c.dec8 dtnan (fp32.value x)

/-- The intervals of an interval ring: 32 of rows, 64 of columns. -/
def State.intervals (s : State) (r : BitVec 128) : List Half :=
  let bs := (s.ringBytes s.curCore (s.cur.launch.getD 0) r 0 384).getD []
  (List.range 96).map fun i => BitVec.ofNat 32 (natOfBytes ((bs.drop (4 * i)).take 4))

/-- The 2,048 outputs of MMAE, row-major. -/
def State.mmaeTile (s : State) (acc : Nat) (b : Reg) (mask : Option (BitVec 128)) (o r : BitVec 2) : List Nat :=
  let scale := if b = 0#5 then fp32.value 0x3F800000 else fp32.value (fld (s.src b) 0 32)
  let iv := mask.map s.intervals
  ((s.here.accTile acc).zip (List.range 2048)).map fun vi =>
    let seen := match iv with
      | some iv => visible (iv.getD (32 + vi.2 % 64) 0) (iv.getD (vi.2 / 64) 0)
      | none => true
    mmaeOut s.here s.cur.dtnan.toNat scale o r seen vi.1

/-- A matrix operation queued before a cc names an accumulator. -/
def Core.accBusy (c : Core) (acc since : Nat) : Bool :=
  c.slots.toList.any fun x => x.matQ.any fun m => m.acc == acc && decide (m.at' < since)

/-- VLEN values that MMAE to a store queue accepts. -/
def mmaeVlen (v : Nat) (gang : Bool) : Bool := [16, 32, 64, 128, 256].contains v || (gang && v == 512)

/-- Rows of an MMAE pushed while the store queue has room. -/
def Core.pushRows (c : Core) (k q : Nat) : List (List Half) → Core
  | [] => c.setSlot k { c.slot k with mmaeOut := [] }
  | row :: rest =>
    if (c.slot k).sqRoom q then ((c.setSlot k ((c.slot k).sqPush q row)).drainRows k).pushRows k q rest
    else c.setSlot k { c.slot k with mmaeOut := row :: rest }

/-- Rows of `n` lanes. -/
def lanesOf (n : Nat) : Nat → List Nat → List (List Half)
  | 0, _ => []
  | m + 1, vs => (vs.take n).map (BitVec.ofNat 32) :: lanesOf n m (vs.drop n)

/-- The range of a local MMAE (R324). -/
def State.mmaeRange (s : State) (a : Reg) (size : Nat) : Except Stop Nat := do
  let o := (s.src a).toNat
  need (decide (o + 2048 * size ≤ s.lmend s.curCore s.cur)) (.trap clsSeg o)
  need (o % size == 0) (.trap clsAln o)
  need (decide (programArea ≤ o)) (.trap clsSys o)
  match s.place s.cur.launch s.curCore o with
  | some p => .ok p
  | none => .error (.trap clsSeg o)

/-- MMAE; `put` writes its local output. -/
def State.mmaeBy (put : State → Loc → List Byte → State) (s : State) (d a b : Reg) (tmask toSq sqIx : BitVec 1) (o r : BitVec 2) :
    Except Stop State := do
  let acc := fld (d.setWidth 64) 0 2
  let ring := fld (d.setWidth 64) 2 3
  need (!(o == 3#2 && s.here.tableHolds s.waitsSince)) (.reissue .tableWritten)
  need (!s.here.accBusy acc s.waitsSince) (.reissue (.accIdle acc s.waitsSince))
  let iv := s.here.ring ring
  need (tmask == 0#1 || decide (512 ≤ ringHeld iv)) (.reissue (.ringHolds ring))
  let mask := if tmask = 1#1 then some iv else none
  let popped (s : State) : State := if tmask = 1#1 then s.modHere fun c => c.setRing ring (ringPop iv 512) else s
  if toSq = 1#1 then
    let n := s.here.vlen s.curSlot
    need (mmaeVlen n s.cur.gang) (.trap clsAllot n)
    let rows := lanesOf n (2048 / n) (s.mmaeTile acc b mask o r)
    let s := s.modHere fun c => c.pushRows s.curSlot sqIx.toNat rows
    .ok (if s.cur.mmaeOut.isEmpty then popped s
      else s.await (.sqRows sqIx.toNat (o == 3#2) (if tmask = 1#1 then some ring else none)) [] false)
  else
    let p ← s.mmaeRange a (outBytes o)
    s.drainsIn
    let s ← s.rowsIn
    let bs := (s.mmaeTile acc b mask o r).flatMap (bytesOfNat (outBytes o))
    .ok (popped (put s (.lm s.curCore p) bs))

def State.mmae (s : State) (d a b : Reg) (tmask toSq sqIx : BitVec 1) (o r : BitVec 2) : Except Stop State :=
  s.mmaeBy (fun s l bs => s.homeWrite s.cl l bs false) d a b tmask toSq sqIx o r

def execMmae (d a b : Reg) (tmask toSq sqIx : BitVec 1) (g : PredIx) (o r : BitVec 2) (s : State) : Out :=
  guarded g s (s.mmae d a b tmask toSq sqIx o r)

/-! ## The copy engine (R172) -/

/-- The worse of two statuses of a copy: FAULT, BADWIN, LINKFAIL, STALE, BADZONE, OK (R165, R228). -/
def worse (a b : Nat) : Nat :=
  match [8, 6, 3, 4, 5].find? fun k => a == k || b == k with
  | some k => k
  | none => 0

/-- The place of an engine's access at a global address: the error is the status that ends the command, or 0, no such status, for an
access that waits in its core (R105). What another package
answers to a read is not known here: it may find no partition, or be cut off. A write is answered over the link. -/
def State.engineLoc (s : State) (core : Nat) (r : CopyRun) (dva : Nat) (write : Bool) : State × Except Nat Loc :=
  if isWindow dva then
    if winDev dva = s.device then
      match s.place (some r.cmd.launch) (winCore dva) (winOff dva) with
      | some p => (s, .ok (.lm (winCore dva) p))
      | none => (s, .error 6)
    else if (s.routeTo (winDev dva)).isNone then (s, .error 3)
    else if write then (s, .ok (.peer (winDev dva) dva))
    else
      let (t, s) := s.fresh
      let f := (Config.freeWord t).toNat % 3
      (s, if f = 0 then .ok (.peer (winDev dva) dva) else .error (3 * f))
  else
    match s.xlateOr core r.asid dva (!write) write with
    | none => (s, .error 0)
    | some (s, .ok l) => (s, .ok l)
    | some (s, .error 0) => (s.commandPoison core r.slot r.cmd.launch 0, .error 8)
    | some (s, .error cause) => (s.faultRecord core r.slot r.asid dva cause .engine 0, .error 8)

/-- A place of the command's own local memory. -/
def State.ownLoc (s : State) (core : Nat) (r : CopyRun) (off : Nat) : Except Nat Loc :=
  match s.place (some r.cmd.launch) core off with
  | some p => .ok (.lm core p)
  | none => .error 6

/-- Bytes read by the engine from an address of its source kind: at most 128, inside one line. -/
def State.engineRead (s : State) (core : Nat) (r : CopyRun) (addr n : Nat) : State × Except Nat (List Byte × Bool) :=
  let place := if r.cmd.skind = 0 then s.engineLoc core r addr false else (s, s.ownLoc core r addr)
  match place with
  | (s, .error e) => (s, .error e)
  | (s, .ok (.peer _ _)) =>
    let (t, s) := s.fresh
    (s, .ok (bytesOfNat n (Config.freeWord t).toNat, false))
  | (s, .ok l) =>
    let s := s.l2Access core (some r.cmd.launch) l n false
    let bad := s.poisonedAt l n
    let dva := if r.cmd.skind = 0 then addr else gwin s.device core addr
    let s := if bad then s.commandPoison core r.slot r.cmd.launch dva else s
    (s, .ok (s.rdLoc l n, bad))

/-- Bytes read from a longer stretch, words at a time. -/
def State.engineBytes (s : State) (core : Nat) (r : CopyRun) (addr : Nat) : Nat → Nat → State × Except Nat (List Byte × Bool)
  | 0, _ => (s, .ok ([], false))
  | fuel + 1, n =>
    if n = 0 then (s, .ok ([], false))
    else
      let k := min n (8 - addr % 8)
      match s.engineRead core r addr k with
      | (s, .error e) => (s, .error e)
      | (s, .ok (bs, p)) =>
        match s.engineBytes core r (addr + k) fuel (n - k) with
        | (s, .ok (rest, q)) => (s, .ok (bs ++ rest, p || q))
        | (s, .error e) => (s, .error e)

/-- The running command changed. -/
def State.modRun (s : State) (core : Nat) (f : CopyRun → CopyRun) : State :=
  s.modCore core fun c => { c with copyRun := c.copyRun.map f }

/-- Bytes written by the engine: full/empty bits are kept, and waiters served. A write to another package is waited for. -/
def State.engineWrite (s : State) (core : Nat) (r : CopyRun) (l : Loc) (bs : List Byte) (poison : Bool) : State :=
  match l with
  | .peer dev dva =>
    let (t, s) := s.fresh
    (s.modRun core fun r => { r with units := r.units ++ [(t, s.routeTo dev)] }).sendTo dev
      (.access (s.coreloc core) (16 + 32 * t) r.cls dva (.st 0 0 0 0) [BitVec.ofNat 64 (natOfBytes bs), BitVec.ofNat 64 bs.length] false)
  | _ => s.coreWrite core (some r.cmd.launch) l bs poison

/-- The place a row's byte goes to: a ring's byte count lies at BASE + (count mod size) (R166). -/
def State.engineDest (s : State) (core : Nat) (r : CopyRun) (addr : Nat) : State × Except Nat Loc :=
  if r.cmd.dkind = 0 then s.engineLoc core r addr true
  else if r.cmd.dkind = 4 then
    let g := (s.core core).ring (r.cmd.dst % 8)
    (s, s.ownLoc core r (ringBase g + addr % ringSize g))
  else (s, s.ownLoc core r addr)

/-- Address of a row. -/
def rowAddr (start : Nat) (stride : Int) (row : Nat) : Nat := (start + row * stride : Int).toNat

/-- The core that a token names, as a window address's core number. -/
def tokenCore (w : Word) : Nat := fld w 46 10
def tokenDev (w : Word) : Nat := fld w 56 8

/-- One landing-zone unit sent: counted until it is acknowledged; with no route it meets a link failure. -/
def State.sendUnit (s : State) (core : Nat) (token : Word) (off : Nat) (bs : List Byte) (poison : Bool) : State :=
  let (t, s) := s.fresh
  let u : LzUnit := ⟨some (s.coreloc core), t, none, token, off, bs, poison⟩
  let counted (s : State) (link : Option Nat) : State := s.modRun core fun r => { r with units := r.units ++ [(t, link)] }
  if tokenDev token = s.device then counted { s with units := s.units ++ [u] } none
  else
    match s.routeTo (tokenDev token) with
    | some k =>
      (counted s (some k)).sendTo (tokenDev token)
        (.unit { u with link := some k } (((s.core core).copyRun.map (·.cls)).getD 0))
    | none => s.modRun core fun r => { r with status := worse r.status 3 }

/-- The next bytes of a row read and written, in ascending order: a landing-zone unit (R227), or the bytes of one word of the
destination, which is written whole. How many they are, and whether the write is out at another package; the error is that of the
access. -/
def State.copyPiece (s : State) (core : Nat) (r : CopyRun) (row pos : Nat) : State × Except Nat (Nat × Bool) :=
  let m := r.cmd
  let src := rowAddr m.src m.sstride row + pos
  if m.dkind = 2 then
    match s.engineBytes core r src 64 64 with
    | (s, .error e) => (s, .error e)
    | (s, .ok (bs, poison)) =>
      let off : Int := (m.dst % 2 ^ 24 : Nat) + row * m.dstride + pos
      (s.sendUnit core (BitVec.ofNat 64 (m.dst / 2 ^ 24 * 2 ^ 24)) (off % (2 ^ 24 : Int)).toNat bs poison, .ok (64, false))
  else
    let dst := (if m.dkind = 4 then ringTail ((s.core core).ring (m.dst % 8)) + row * m.rowBytes
      else rowAddr m.dst m.dstride row) + pos
    let k := min (m.rowBytes - pos) (8 - dst % 8)
    match s.engineBytes core r src k k with
    | (s, .error e) => (s, .error e)
    | (s, .ok (bs, poison)) =>
      match s.engineDest core r dst with
      | (s, .error e) => (s, .error e)
      | (s, .ok l) => (s.engineWrite core r l bs poison, .ok (k, l.isPeer))

/-- How far a command has come: to its end, to a byte of a row, where it has to wait, or to an access that ended it with a status. -/
inductive CopyEnd where
  | all
  | at (row pos : Nat)
  | failed (status : Nat)
  deriving DecidableEq, Repr

/-- The rows of a command from a byte of a row on. The command waits where an access waits for its translation, and for every write to
another package, so that nothing is written after one that ends it (R165). `fuel` bounds the pieces. -/
def State.copyFrom (s : State) (core : Nat) (r : CopyRun) (row pos : Nat) : Nat → State × CopyEnd
  | 0 => (s, .at row pos)
  | fuel + 1 =>
    if r.cmd.rows ≤ row then (s, .all)
    else if r.cmd.rowBytes ≤ pos then s.copyFrom core r (row + 1) 0 fuel
    else
      match s.copyPiece core r row pos with
      | (s, .error 0) => (s, .at row pos)
      | (s, .error e) => (s, .failed e)
      | (s, .ok (n, true)) => (s, .at row (pos + n))
      | (s, .ok (n, false)) => s.copyFrom core r row (pos + n) fuel

/-- The receivers of a multicast: cores of the clusters of the dies it names (R171). -/
def CopyCmd.receivers (m : CopyCmd) : List Nat :=
  (List.range 1024).filter fun n =>
    m.dies.getLsbD (n / 128) && m.clusters.getLsbD (n / 8 % 16) && m.cores.getLsbD (n % 8)

/-- The buffers of the receiving clusters have a free place (R10: 64). -/
def State.buffersFree (s : State) (clusters : List Nat) : Bool :=
  clusters.all fun cl => (s.pieces.countP (·.cluster == cl)) < 64

/-- Pieces of a multicast read and put into the buffers of its clusters while they have room (R172). The manual does not say whether the
4 KiB pieces are cut across the data of all rows or within each row: each row is cut by itself (DESIGN CHOICE; log entry 89). -/
def State.pump (s : State) (core : Nat) : Nat → State
  | 0 => s
  | fuel + 1 =>
    match (s.core core).copyRun with
    | none => s
    | some r =>
      let m := r.cmd
      let per := (m.rowBytes + 4095) / 4096
      let recv := m.receivers
      let cls := (List.range 128).filter fun cl => recv.any fun n => clusterOf n == cl
      if m.dkind ≠ 3 ∨ r.ended ∨ !s.buffersFree cls then s
      else if m.rows * per ≤ r.row then s.modRun core fun r => { r with ended := true }
      else
        let row := r.row / per
        let at' := r.row % per * 4096
        let n := min 4096 (m.rowBytes - at')
        match s.engineBytes core r (rowAddr m.src m.sstride row + at') n n with
        | (s, .error 0) => s
        | (s, .error e) => s.modRun core fun r => { r with status := worse r.status e, ended := true }
        | (s, .ok (bs, poison)) =>
          let piece (cl : Nat) : Piece :=
            ⟨cl, recv.filter fun n => clusterOf n == cl, m.launch, core, rowAddr m.dst m.dstride row + at', bs, poison⟩
          let s := { s with pieces := s.pieces ++ cls.map piece }
          (s.modRun core fun r => { r with row := r.row + 1, pieces := r.pieces + cls.length }).pump core fuel

/-- A command may start: room for its word, and in its ring (R165, R172). -/
def State.mayStart (s : State) (core slot : Nat) (m : CopyCmd) : Bool :=
  let c := s.core core
  s.wordRoom core slot true m.comp && (m.dkind != 4 || decide (ringHeld (c.ring (m.dst % 8)) + m.rows * m.rowBytes ≤ ringSize (c.ring (m.dst % 8))))

/-- The slot whose oldest queued command starts next: the first in order that can run, each slot's own order kept. -/
def State.nextCopy (s : State) (core : Nat) : Option (Nat × CopyCmd) :=
  (s.core core).copyOrd.findSome? fun k => match (s.slot core k).copyQ with
    | m :: _ => if s.mayStart core k m then some (k, m) else none
    | [] => none

/-- The running command goes on: its rows are copied, its units sent, or its pieces put into the buffers, as far as it need not wait. -/
def State.goOnCopy (s : State) (core : Nat) : State :=
  match (s.core core).copyRun with
  | none => s
  | some r =>
    let m := r.cmd
    if m.dkind = 3 then s.pump core (m.rows * ((m.rowBytes + 4095) / 4096) + 1)
    else if r.ended || (m.dkind != 2 && !r.units.isEmpty) then s
    else
      match s.copyFrom core r r.row r.pos (m.rows * (m.rowBytes + 1) + 1) with
      | (s, .all) => s.modRun core fun r => { r with ended := true }
      | (s, .at row pos) => s.modRun core fun r => { r with row := row, pos := pos }
      | (s, .failed e) => s.modRun core fun r => { r with status := worse r.status e, ended := true }

/-- COPY_COMMAND_START: the engine is idle and takes the next command, or goes on with the one that it runs (log entry 30). -/
def State.startCopy (s : State) (core : Nat) : State :=
  match (s.core core).copyRun, s.nextCopy core with
  | some _, _ => s.goOnCopy core
  | none, some (k, m) =>
    let l := s.launchById m.launch
    let r : CopyRun :=
      { slot := k, asid := (l.map (·.asid)).getD 0, cls := (l.map (·.cls)).getD 0, cmd := m, row := 0, pos := 0, units := []
        pieces := 0, status := 0, ended := false, killed := false }
    let s := s.modCore core fun c =>
      { (c.setSlot k { c.slot k with copyQ := (c.slot k).copyQ.tail }) with
        copyOrd := c.copyOrd.erase k, copyRun := some r }
    let s := s.wakeEngine core k true
    if m.mute then s.modRun core fun r => { r with ended := true }
    else s.goOnCopy core
  | none, none => s

def execCopyCommandStart (core : Nat) (s : State) : Out := .next (s.startCopy core)

/-! ## Completions (R165, R290) -/

/-- A result word put into a result queue of a parked context, in its entry (R106, R165). -/
def State.lentWord (s : State) (core slot : Nat) (copy : Bool) (w : Word) : State :=
  let (queue, count, n) := s.lentResults core slot copy
  if n < 4 then (s.unitWrite (queue + 8 * n) (bytesOfNat 8 w.toNat)).unitWrite count (bytesOfNat 4 (n + 1)) else s

/-- The result word of an ended command delivered by its KIND. A KIND 0 word of a context that the slot is lent over goes into the
context's saved queue (R106). -/
def State.deliverWord (s : State) (core : Nat) (e : EndedCmd) (killed : Bool) : State :=
  let w : Word := e.comp.tag ++ BitVec.ofNat 32 e.status
  match e.comp.kind with
  | 0 =>
    if killed then s
    else if e.comp.lent then (if (s.slot core e.slot).lentTag = e.comp.ctx then s.lentWord core e.slot e.copy w else s)
    else s.modSlot core e.slot fun x =>
      if e.copy then { x with copyRes := x.copyRes ++ [w] } else { x with matRes := x.matRes ++ [w] }
  | 1 =>
    s.post core e.launch (e.comp.target.toNat % 2 ^ 56) e.comp.ch e.comp.h (if e.comp.h then [e.comp.handler, w] else [w])
  | 2 =>
    match e.comp.fill with
    | some (.peer dev dva) =>
      s.sendTo dev (.access (s.coreloc core) 18 (((s.launchById e.launch).map (·.cls)).getD 0) dva (.stfa 0 0 0 0 0) [w] false)
    | some l => s.fill (clusterOf core) l w (s.pasidOf (some e.launch))
    | none => s
  | _ => s

/-- The running copy has nothing left to wait for. -/
def CopyRun.done (r : CopyRun) : Bool := r.ended && r.units.isEmpty && r.pieces == 0

/-- COMMAND_COMPLETION: the oldest ended matrix operation's word, or the running copy's. A ring destination's TAIL advances; of a copy
that ends with a failure the manual does not say whether it does, nor by how much: it does not (R172; DESIGN CHOICE; log entry 88). The
result queues in the save area of a SAVED or FAULTED slot take the word (R184). -/
def State.complete (s : State) (core : Nat) : State :=
  let c := s.core core
  let saved (s : State) (k : Nat) : State :=
    if (s.slot core k).st = .saved ∨ (s.slot core k).st = .faulted then s.wrLm core (saveArea k + 0x300) (saveHigh (s.slot core k)) else s
  match c.ended with
  | e :: rest => saved ((s.modCore core fun c => { c with ended := rest }).deliverWord core e false) e.slot
  | [] =>
    match c.copyRun with
    | none => s
    | some r =>
      if !r.done then s
      else
        let n := r.cmd.dst % 8
        let s := s.modCore core fun c =>
          let c := { c with copyRun := none }
          if r.cmd.dkind = 4 ∧ r.status = 0 then c.setRing n (ringAppend (c.ring n) (r.cmd.rows * r.cmd.rowBytes)) else c
        saved (s.deliverWord core ⟨r.slot, r.cmd.launch, true, r.status, r.cmd.comp⟩ r.killed) r.slot

def execCommandCompletion (core : Nat) (s : State) : Out := .next (s.complete core)

/-- The commands that multicast go on, one core after another. -/
def State.pumpAll (s : State) : State :=
  s.cores.keys.foldl (fun (s : State) c => match (s.core c).copyRun with
    | some r => if r.cmd.dkind = 3 then s.pump c (r.cmd.rows * ((r.cmd.rowBytes + 4095) / 4096) + 1) else s
    | none => s) s

/-- MULTICAST_PIECE_DRAIN: a receiving core takes its oldest piece into its local memory; the last one frees the holding
slot, and the senders that wait for room go on. A receiver without a partition of the launch ends the command with BADWIN. -/
def State.drainPiece (s : State) (core : Nat) : State :=
  match s.pieces.findIdx? fun p => p.receivers.contains core with
  | none => s
  | some i =>
    match s.pieces[i]? with
    | none => s
    | some p =>
      let s := match s.place (some p.launch) core p.off with
        | some o => s.homeWrite (clusterOf p.sender) (.lm core o) p.data p.poison
        | none => s.modRun p.sender fun r => { r with status := worse r.status 6, ended := true }
      let rest := p.receivers.erase core
      if rest.isEmpty then
        ({ s with pieces := s.pieces.eraseIdx i }.modRun p.sender fun r => { r with pieces := r.pieces - 1 }).pumpAll
      else { s with pieces := s.pieces.set i { p with receivers := rest } }

def execMulticastPieceDrain (core : Nat) (s : State) : Out := .next (s.drainPiece core)

end Sys2Proof.Machine
end

