-- ==== Sys2Proof/Machine/Tree.lean ====
section
/-!
DEFINITION. Search trees (spec/12_search_trees.md R195–R216; spec/22_ref_t_to_z.md R344–R352): node objects, selection
formulas, walks, and the eight tree instructions with the two events that finish them.
-/
namespace Sys2Proof.Machine

open Sys2Proof

/-! ## Status codes (R195) and states of a node (R198) -/

def trOk : Nat := 0
def trBusy : Nat := 1
def trExpanded : Nat := 2
def trTerminal : Nat := 3
def trStale : Nat := 4
def trNoChoice : Nat := 5
def trRefused : Nat := 6
def trDepth : Nat := 7
def trBadObj : Nat := 8
def trAbandoned : Nat := 9

def ndUnexpanded : Nat := 0
def ndExpanding : Nat := 1
def ndExpanded : Nat := 2
def ndTerminal : Nat := 3
def ndFree : Nat := 4

/-! ## Node objects (R196–R199) -/

/-- The DVA of the header line that a node reference names, and its generation (R197). -/
def refDva (r : Word) : Nat := fld r 15 49 * 128
def refGen (r : Word) : Nat := fld r 0 15

/-- Word `i` of a header line, and word `i` of edge `e`. -/
def hdrAt (l : Loc) (i : Nat) : Loc := l.plus (8 * i)
def edgeAt (l : Loc) (e i : Nat) : Loc := l.plus (128 + 32 * e + 8 * i)

/-- Fields of a header (R198). -/
def State.ndFld (s : State) (l : Loc) (word lo len : Nat) : Nat := fld (s.rdWord (hdrAt l word)) lo len
def State.ndType (s : State) (l : Loc) : Nat := s.ndFld l 0 0 8
def State.ndState (s : State) (l : Loc) : Nat := s.ndFld l 0 8 3
def State.ndPin (s : State) (l : Loc) : Bool := s.ndFld l 0 11 1 == 1
def State.ndGen (s : State) (l : Loc) : Nat := s.ndFld l 0 16 15
def State.ndChildren (s : State) (l : Loc) : Nat := s.ndFld l 0 32 7
def State.ndFtot (s : State) (l : Loc) : Nat := s.ndFld l 2 32 16
def State.ndVisits (s : State) (l : Loc) : Nat := s.ndFld l 2 0 32

/-- Fields of an edge (R199). -/
def State.edFld (s : State) (l : Loc) (e word lo len : Nat) : Nat := fld (s.rdWord (edgeAt l e word)) lo len
def State.edVisits (s : State) (l : Loc) (e : Nat) : Nat := s.edFld l e 1 0 32
def State.edFlight (s : State) (l : Loc) (e : Nat) : Nat := s.edFld l e 1 32 16
def State.edPrior (s : State) (l : Loc) (e : Nat) : Nat := s.edFld l e 1 48 16
def State.edValue (s : State) (l : Loc) (e : Nat) : Int := (s.rdWord (edgeAt l e 2)).toInt

/-- A word written by a node engine at its home, for a core. -/
def State.putWord (s : State) (core : Nat) (l : Loc) (v : Word) : State :=
  s.homeWrite (clusterOf core) l (bytesOfNat 8 v.toNat) false

/-- A field of a header word replaced; reserved bits of the word are written as zero (R198). -/
def State.putHdr (s : State) (core : Nat) (l : Loc) (word lo len v : Nat) : State :=
  let mask : Word := if word = 0 then 0x00001F7F7FFF1FFF else if word = 2 then 0x0000FFFFFFFFFFFF
    else if word = 5 then 0x00000000FFFFFFFF else BitVec.allOnes 64
  s.putWord core (hdrAt l word) (setFld (s.rdWord (hdrAt l word)) lo len v &&& mask)

/-- A field of an edge word replaced. -/
def State.putEdge (s : State) (core : Nat) (l : Loc) (e word lo len v : Nat) : State :=
  s.putWord core (edgeAt l e word) (setFld (s.rdWord (edgeAt l e word)) lo len v)

/-- The place lies in a page with T = 1. -/
def Loc.inTree : Loc → Bool
  | .mem _ t _ _ => t
  | _ => false

/-- The bytes of a page from a place on. -/
def Loc.pageLeft : Loc → Nat
  | .mem pa _ _ _ => 4096 - pa % 4096
  | _ => 0

/-- A place that holds no node object: no tree page, wrong type, an invalid state, too many children for the object or
for its page (R196, R207). -/
def State.notNode (s : State) (l : Loc) : Bool :=
  !l.inTree || s.ndType l != 0x5E || decide (5 ≤ s.ndState l ∨ 124 < s.ndChildren l
    ∨ l.pageLeft < 128 + 32 * s.ndChildren l)

/-- A reference whose generation is not the node's, or that names a FREE node (R197). -/
def State.staleRef (s : State) (r : Word) (l : Loc) : Bool := refGen r != s.ndGen l || s.ndState l == ndFree

/-- The place of the node that a reference names; none for a window address (R207). -/
def State.nodeLoc (s : State) (r : Word) : Except Stop (Option Loc) :=
  if isWindow (refDva r) then .ok none else some <$> s.xlate (refDva r) .atomic

/-- The status of a node that fails the checks of R207. -/
def State.nodeCheck (s : State) (r : Word) (l : Option Loc) : Option Nat :=
  match l with
  | none => some trBadObj
  | some l => if s.notNode l then some trBadObj else if s.staleRef r l then some trStale else none

/-- A node read at its home: the header line, and the edges of a node object. -/
def State.touchNode (s : State) (core : Nat) (l : Loc) : State :=
  let s := s.recallFor core (s.asidOf s.cur) l
  s.touchLines l (128 + if s.notNode l then 0 else 32 * s.ndChildren l) false (clusterOf core) [] none true

/-- The DVA of the first of some words, each with its DVA, that carries poison (R385). -/
def State.poisonIn (s : State) (ws : List (Loc × Nat)) : Option Nat := (ws.find? fun w => s.poisonedAt w.1 8).map (·.2)

/-- Poison in words that an operation takes kills (R186). -/
def State.noPoison (s : State) (ws : List (Loc × Nat)) : Check :=
  match s.poisonIn ws with
  | some dva => .error (.kill dva)
  | none => .ok ()

/-- Words of an object whose first byte has a DVA, by their numbers. -/
def wordsAt (l : Loc) (dva : Nat) (words : List Nat) : List (Loc × Nat) := words.map fun i => (l.plus (8 * i), dva + 8 * i)

/-- Edge words of a node: words 16 + 4e on. -/
def edgeWords (l : Loc) (dva n : Nat) (words : List Nat) : List (Loc × Nat) :=
  wordsAt l dva ((List.range n).flatMap fun e => words.map (16 + 4 * e + ·))

/-- The status word of an operation written to s[d] (R207). -/
def State.answerStatus (s : State) (d : Reg) (st : Nat) : State := s.replyReg d (BitVec.ofNat 64 st)

/-! ## Selection formulas (R201, R202) -/

/-- A four-byte word of a formula image. -/
def fmlWord (img : List Byte) (off : Nat) : Nat := natOfBytes ((img.drop off).take 4)
def fmlCount (img : List Byte) : Nat := fmlWord img 0 % 32
def fmlOp (img : List Byte) (i : Nat) : Nat := fmlWord img (24 + 4 * i)

/-- The sources that an opcode uses; none for a reserved opcode. -/
def fmlSources (op : Nat) : Option Nat :=
  if 0x01 ≤ op ∧ op ≤ 0x05 then some 0
  else if op = 0x14 ∨ op = 0x15 then some 1
  else if (0x10 ≤ op ∧ op ≤ 0x13) ∨ op = 0x16 ∨ op = 0x17 then some 2
  else if op = 0x18 then some 3
  else none

/-- The bad fields of operation word `i`, by the offset of the byte that holds the field's lowest bit. -/
def fmlOpBad (img : List Byte) (i : Nat) : List (Bool × Nat) :=
  let w := fmlOp img i
  let at' := 24 + 4 * i
  if fmlCount img ≤ i then [(w != 0, at')]
  else
    let n := fmlSources (w % 256)
    let src (k lo : Nat) : Bool :=
      let f := w / 2 ^ lo % 16
      match n with
      | some n => if k < n then decide (12 ≤ f) else f != 0
      | none => false
    [(n.isNone, at'), (decide (8 ≤ w / 2 ^ 8 % 16), at' + 1), (src 0 12, at' + 1), (src 1 16, at' + 2),
     (src 2 20, at' + 2), (decide (w / 2 ^ 24 ≠ 0), at' + 3)]

/-- The bad fields of an image. -/
def fmlBad (img : List Byte) : List (Bool × Nat) :=
  (fmlCount img == 0 || decide (16 < fmlCount img ∨ fmlWord img 0 / 32 ≠ 0), 0)
    :: ((List.range 16).flatMap (fmlOpBad img) ++ [(natOfBytes ((img.drop 88).take 8) != 0, 88)])

/-- What a formula sees of an edge and its node. -/
structure EdgeView where
  visits : Nat
  value  : Int
  prior  : Nat
  flight : Nat
  parent : Nat
  deriving DecidableEq, Repr

def State.edgeView (s : State) (l : Loc) (e : Nat) : EdgeView :=
  ⟨s.edVisits l e, s.edValue l e, s.edPrior l e, s.edFlight l e, s.ndVisits l⟩

/-- A natural number as an exact value. -/
def natVal (n : Nat) : FVal := .fin false n 0

/-- The result of one operation (R202). -/
def fmlResult (img : List Byte) (v : EdgeView) (op : Nat) (x y z : FVal) : FVal :=
  if op = 0x01 then
    (if v.visits = 0 then fp32.value (fmlWord img 4) else (FVal.ofInt v.value (-32) false).div (natVal v.visits))
  else if op = 0x02 then bf16.value v.prior
  else if op = 0x03 then natVal v.visits
  else if op = 0x04 then natVal v.parent
  else if op = 0x05 then natVal v.flight
  else if op = 0x10 then x.add y
  else if op = 0x11 then x.add y.neg
  else if op = 0x12 then x.mul y
  else if op = 0x13 then x.div y
  else if op = 0x14 then x.sqrt
  else if op = 0x15 then x.log2
  else if op = 0x16 then x.pick true y
  else if op = 0x17 then x.pick false y
  else if x.isZero then y else z

/-- One operation on t0–t7, FP32 patterns. -/
def fmlStep (img : List Byte) (v : EdgeView) (ts : List Nat) (w : Nat) : List Nat :=
  let src (lo : Nat) : FVal :=
    let f := w / 2 ^ lo % 16
    fp32.value (if f < 8 then ts.getD f 0 else fmlWord img (8 + 4 * (f - 8)))
  ts.set (w / 2 ^ 8 % 16) (fp32.bits .rne (fmlResult img v (w % 256) (src 12) (src 16) (src 20)))

/-- The score of an edge. -/
def fmlScore (img : List Byte) (v : EdgeView) : FVal :=
  let ts := (List.range (fmlCount img)).foldl (fun ts i => fmlStep img v ts (fmlOp img i)) (List.replicate 8 0)
  fp32.value (ts.getD 0 0)

/-- The edge with the highest score that is not NaN; ties go to the lowest (R208). -/
def State.bestEdge (s : State) (l : Loc) (img : List Byte) : Option Nat :=
  ((List.range (s.ndChildren l)).foldl (fun best e =>
    let sc := fmlScore img (s.edgeView l e)
    match best with
    | none => if sc.cmp sc = none then none else some (e, sc)
    | some (_, b) => if b.lt sc then some (e, sc) else best) (none : Option (Nat × FVal))).map (·.1)

/-! ## TFORM (R204, R352) -/

/-- The places of the words of an image. -/
def State.wordLocs (s : State) : List Nat → Except Stop (List Loc)
  | [] => .ok []
  | dva :: rest => do
    let l ← s.xlate dva .image
    let ls ← s.wordLocs rest
    .ok (l :: ls)

/-- TFORM. Of an image in the window the manual gives the class only: INFO is the offset (DESIGN CHOICE; log entry 107). -/
def State.loadFormula (s : State) (a : Reg) (c : CapIx) (f : BitVec 4) : Except Stop State := do
  let off := s.src a
  let dva ← s.capDva c off 96 true false
  need (!isWindow dva) (.trap clsSeg off.toNat)
  need (dva % 8 == 0) (.trap clsAln dva)
  let ls ← s.wordLocs ((List.range 12).map fun i => dva + 8 * i)
  let s ← ls.foldlM (fun (s : State) l => s.atHome l false) s
  s.noPoison (ls.zipIdx.map fun li => (li.1, dva + 8 * li.2))
  let img := ls.flatMap fun l => s.rdLoc l 8
  match firstBad (fmlBad img) with
  | some n => .error (.trap clsEng n)
  | none =>
    .ok ({ s with formulas := s.formulas.put (16 * s.asidOf s.cur + f.toNat) img }.replyWith [])

def execTform (a : Reg) (c : CapIx) (g : PredIx) (f : BitVec 4) (s : State) : Out := guarded g s (s.loadFormula a c f)

/-- The image in a formula slot of an ASID. -/
def State.formula (s : State) (asid f : Nat) : Option (List Byte) := (s.formulas.find? (·.1 == 16 * asid + f)).map (·.2)

/-! ## TDESC (R208, R349) -/

/-- TDESC's two registers. -/
def State.descended (s : State) (d : Reg) (child : Word) (status : Nat) : State :=
  s.replyWith [(d.toNat, child), (d.toNat + 1, BitVec.ofNat 64 status)]

/-- TDESC at the node's home, after the ticket's: the edge chosen, or a status. The node is marked when an edge is. -/
def State.chooseEdge (s : State) (r : Word) (node : Option Loc) (minor : BitVec 4) : State × Except Nat (Loc × Nat) :=
  match s.nodeCheck r node, node with
  | some st, _ => (s, .error st)
  | none, none => (s, .error trBadObj)
  | none, some l =>
    let st := s.ndState l
    if st = ndTerminal then (s, .error trTerminal)
    else if st = ndExpanding then (s, .error trBusy)
    else if st = ndUnexpanded ∨ s.ndChildren l = 0 then (s, .error trNoChoice)
    else
      let f := if s.ndFld l 0 44 1 = 1 then s.ndFld l 0 40 4 else minor.toNat
      match s.formula (s.asidOf s.cur) f with
      | none => (s, .error trBadObj)
      | some img =>
        match s.bestEdge l img with
        | none => (s, .error trNoChoice)
        | some e =>
          let core := s.curCore
          let s := s.putEdge core l e 1 32 16 (min (s.edFlight l e + 1) 0xFFFF)
          (s.putHdr core l 2 32 16 (min (s.ndFtot l + 1) 0xFFFF), .ok (l, e))

/-- The words of a node that TDESC takes. The manual does not say which words an operation takes before its checks: TDESC takes header
words 0 and 2 and every edge's, so that poison there kills where the checks would give a status (DESIGN CHOICE; log entry 92). -/
def State.descentWords (s : State) (node : Option Loc) (dva : Nat) : List (Loc × Nat) :=
  match node with
  | some l => wordsAt l dva [0, 2] ++ (if s.notNode l then [] else edgeWords l dva (s.ndChildren l) [0, 1, 2])
  | none => []

/-- TDESC. -/
def State.descend (s : State) (d a : Reg) (minor : BitVec 4) : Except Stop State := do
  let t := s.cur.ticket
  let r := s.src a
  if t = 0 then .ok (s.descended d 0 trBadObj)
  else
    let rec_ ← s.recordAt t.toNat
    let node ← s.nodeLoc r
    let s ← s.rowsIn
    let s := s.recallFor s.curCore (s.asidOf s.cur) rec_.lo
    s.noPoison (wordsAt rec_.lo t.toNat [1])
    if !s.walkOpen rec_ then .ok (s.descended d 0 trStale)
    else if s.walkDepth rec_ = 64 then .ok (s.descended d 0 trDepth)
    else
      let s := match node with
        | some l => s.touchNode s.curCore l
        | none => s
      s.noPoison (s.descentWords node (refDva r))
      let j := s.walkDepth rec_
      match s.chooseEdge r node minor with
      | (s, .error st) => .ok (s.descended d 0 st)
      | (s, .ok (l, e)) =>
        let child := s.rdWord (edgeAt l e 0)
        let core := s.curCore
        let s := s.putWord core (rec_.lo.plus 8) (BitVec.ofNat 64 (j + 1 + 2 ^ 8))
        let s := s.putWord core (rec_.entry j) r
        let s := s.putWord core ((rec_.entry j).plus 8) (BitVec.ofNat 64 e)
        let s := s.putWord core (rec_.lo.plus 24) child
        .ok (s.descended d child (trOk + e * 2 ^ 8 + (j + 1) * 2 ^ 16))

def execTdesc (d a : Reg) (g : PredIx) (f : BitVec 4) (s : State) : Out := guarded g s (s.descend d a f)

/-! ## TEXP, TFILL, TSEAL (R209–R211, R351) -/

/-- The expansion word written, full or empty, with service of its waiters. -/
def State.setXw (s : State) (core : Nat) (l : Loc) (v : Word) (full : Bool) : State :=
  let x := hdrAt l 4
  (((s.touch x true (clusterOf core)).wrLoc x (bytesOfNat 8 v.toNat) false).setFull x full).serve x

/-- The record of the slot's ticket and the node of a reference, read at their homes, with the first status of R351 that applies;
`words` are the header words the operation takes. -/
def State.ownedNode (s : State) (r : Word) (words : List Nat) : Except Stop (State × Except Nat (WalkRec × Loc)) := do
  let t := s.cur.ticket
  if t = 0 then .ok (s, .error trBadObj)
  else
    let rec_ ← s.recordAt t.toNat
    let node ← s.nodeLoc r
    let s ← s.rowsIn
    match node with
    | none => .ok (s, .error trBadObj)
    | some l =>
      let asid := s.asidOf s.cur
      let s := (s.recallFor s.curCore asid rec_.lo).recallFor s.curCore asid l
      s.noPoison (wordsAt l (refDva r) words)
      match s.nodeCheck r node with
      | some st => .ok (s, .error st)
      | none => .ok (s, .ok (rec_, l))

/-- TEXP. -/
def State.expand (s : State) (d a : Reg) : Except Stop State := do
  let r := s.src a
  let t := s.cur.ticket
  let (s, o) ← s.ownedNode r [0]
  match o with
  | .error st => .ok (s.answerStatus d st)
  | .ok (rec_, l) =>
    s.noPoison (wordsAt rec_.lo t.toNat [1, 2])
    let st := s.ndState l
    if !s.walkOpen rec_ then .ok (s.answerStatus d trStale)
    else if s.rdWord (rec_.lo.plus 16) ≠ 0 then .ok (s.answerStatus d trRefused)
    else if st = ndExpanding then .ok (s.answerStatus d trBusy)
    else if st = ndExpanded then .ok (s.answerStatus d trExpanded)
    else if st = ndTerminal then .ok (s.answerStatus d trTerminal)
    else
      let s := s.putHdr s.curCore l 0 8 3 ndExpanding
      let s := s.setXw s.curCore l t false
      .ok ((s.putWord s.curCore (rec_.lo.plus 16) r).answerStatus d trOk)

def execTexp (d a : Reg) (g : PredIx) (s : State) : Out := guarded g s (s.expand d a)

/-- The node is being expanded by a ticket. -/
def State.expandedBy (s : State) (l : Loc) (ticket : Word) : Bool :=
  s.ndState l == ndExpanding && s.rdWord (hdrAt l 4) == ticket

/-- The bytes of a TFILL image from its offset, if that is 32-aligned and they lie within the program area and the launch's partition. -/
def State.imageBytes (s : State) (off n : Nat) : Option (Loc × List Byte) :=
  if off % 32 = 0 ∧ programArea ≤ off ∧ off + n ≤ s.lmend s.curCore s.cur ∧ off + n ≤ 0x80000 then
    (s.place s.cur.launch s.curCore off).map fun p => (.lm s.curCore p, s.rdLoc (.lm s.curCore p) n)
  else none

/-- An edge of a TFILL image as it is written: F and the reserved bytes are zero. -/
def edgeImage (bs : List Byte) : List Byte := bs.take 12 ++ [0, 0] ++ (bs.drop 14).take 14 ++ [0, 0, 0, 0]

/-- TFILL. -/
def State.fillNode (s : State) (d a b : Reg) : Except Stop State := do
  let r := s.src a
  let off := (s.src b).toNat
  let (s, o) ← s.ownedNode r [0, 4]
  match o with
  | .error st => .ok (s.answerStatus d st)
  | .ok (_, l) =>
    if !s.expandedBy l s.cur.ticket then .ok (s.answerStatus d trRefused)
    else
      match s.imageBytes off 32 with
      | none => .ok (s.answerStatus d trBadObj)
      | some (p, head) =>
        s.noPoison (wordsAt p (s.ownDva (s.src b)) [0, 1])
        let n := fld (savedWord head 0) 0 7
        match s.imageBytes off (32 + 32 * n) with
        | none => .ok (s.answerStatus d trBadObj)
        | some (_, bs) =>
          if 124 < n ∨ l.pageLeft < 128 + 32 * n then .ok (s.answerStatus d trBadObj)
          else
            s.noPoison (wordsAt p (s.ownDva (s.src b)) ((List.range (4 * n)).map (4 + ·)))
            let edges := (List.range n).flatMap fun e => edgeImage ((bs.drop (32 + 32 * e)).take 32)
            let s := s.homeWrite s.cl (l.plus 128) edges false
            let s := s.putHdr s.curCore l 0 32 7 n
            let s := s.putHdr s.curCore l 5 0 32 (fld (savedWord head 8) 0 32)
            .ok (s.answerStatus d trOk)

def execTfill (d a b : Reg) (g : PredIx) (s : State) : Out := guarded g s (s.fillNode d a b)

/-- TSEAL: a release, once its translations are made (R344); the checks come after it. -/
def State.seal (s : State) (d a : Reg) : Except Stop State := do
  if s.cur.ticket ≠ 0 then
    let _ ← s.recordAt s.cur.ticket.toNat
    let _ ← s.nodeLoc (s.src a)
  let s ← s.release
  let (s, o) ← s.ownedNode (s.src a) [0, 4]
  match o with
  | .error st => .ok (s.answerStatus d st)
  | .ok (rec_, l) =>
    if !s.expandedBy l s.cur.ticket then .ok (s.answerStatus d trRefused)
    else
      let st := if s.ndChildren l = 0 then ndTerminal else ndExpanded
      let s := s.putHdr s.curCore l 0 8 3 st
      let s := s.setXw s.curCore l (BitVec.ofNat 64 st) true
      .ok ((s.putWord s.curCore (rec_.lo.plus 16) 0).answerStatus d trOk)

def execTseal (d a : Reg) (g : PredIx) (s : State) : Out := guarded g s (s.seal d a)

/-! ## TREC (R214, R346) -/

/-- TREC. -/
def State.recycle (s : State) (d a : Reg) : Except Stop State := do
  let r := s.src a
  let node ← s.nodeLoc r
  match node with
  | none => .ok (s.answerStatus d trBadObj)
  | some l =>
    let s ← s.rowsIn
    let s := s.touchNode s.curCore l
    s.noPoison (wordsAt l (refDva r) [0, 2])
    match s.nodeCheck r node with
    | some st => .ok (s.answerStatus d st)
    | none =>
      let n := s.ndChildren l
      s.noPoison (edgeWords l (refDva r) n [1])
      if s.ndState l = ndExpanding ∨ s.ndPin l ∨ 0 < s.ndFtot l ∨ ((List.range n).any fun e => 0 < s.edFlight l e) then
        .ok (s.answerStatus d trRefused)
      else
        let s := s.putHdr s.curCore l 0 16 15 ((s.ndGen l + 1) % 2 ^ 15)
        let s := s.putHdr s.curCore l 0 8 3 ndFree
        .ok ((s.setXw s.curCore l 0 false).answerStatus d trOk)

def execTrec (d a : Reg) (g : PredIx) (s : State) : Out := guarded g s (s.recycle d a)

/-! ## TBACK and TABORT (R212, R213, R345, R347) -/

/-- The record of TBACK and TABORT and its DVA: SEG of the capability, SEG of a window address, ALN (R345). -/
def State.closingRecord (s : State) (a : Reg) (c : CapIx) : Except Stop (WalkRec × Nat) := do
  let off := s.src a
  let dva ← s.capDva c off 1152 true true
  need (!isWindow dva) (.trap clsSeg dva)
  need (dva % 128 == 0) (.trap clsAln off.toNat)
  let r ← s.recordAt dva
  .ok (r, dva)

/-- The record of a walk read at its home with the entries of an open walk, whose words carry no poison; LEAF is taken too, for TABORT
as for TBACK (DESIGN CHOICE; log entry 92). -/
def State.readRecord (s : State) (r : WalkRec) (dva : Nat) : Except Stop State := do
  let s := s.touchRecord s.curCore (s.asidOf s.cur) r 0
  s.noPoison (wordsAt r.lo dva [1, 3])
  if s.walkOpen r then
    let d := s.walkDepth r
    let s := s.touchRecord s.curCore (s.asidOf s.cur) r d
    s.noPoison ((List.range d).flatMap fun j => wordsAt (r.entry j) (dva + 128 + 16 * j) [0, 1])
    .ok s
  else .ok s

/-- TICKET is cleared if it names the record. -/
def State.dropTicket (s : State) (dva : Nat) : State :=
  s.modCur fun x => if x.ticket.toNat = dva then { x with ticket := 0 } else x

/-- TBACK: accepted at the ticket's home, which closes an open walk; the levels are done later. -/
def State.backUp (s : State) (a b : Reg) (c : CapIx) (alt : BitVec 1) : Except Stop State := do
  let (r, dva) ← s.closingRecord a c
  let s ← s.release
  let s ← s.readRecord r dva
  let s := if s.walkOpen r then
      let d := s.walkDepth r
      let leaf := s.rdWord (r.lo.plus 24)
      let job : TreeJob :=
        { abort := false, record := r, ticket := BitVec.ofNat 64 dva, asid := s.asidOf s.cur, core := s.curCore
          slot := s.curSlot, alt := alt == 1#1, value := (fp32.value (fld (s.src b) 0 32)).toQ32
          levels := (if leaf = 0 then [] else [(leaf, none)]) ++ s.walkEntries r d
          index := 0, done := 0, st := trOk, sat := false, skip := false, at' := s.cc, waits := false, kill := false }
      { s.setWalkState s.curCore r d false with jobs := s.jobs ++ [job] }
    else s
  .ok ((s.dropTicket dva).replyWith [])

def execTback (a b : Reg) (c : CapIx) (g : PredIx) (alt : BitVec 1) (s : State) : Out := guarded g s (s.backUp a b c alt)

/-- TABORT. -/
def State.abortWalk (s : State) (d a : Reg) (c : CapIx) : Except Stop State := do
  let (r, dva) ← s.closingRecord a c
  let s ← s.release
  let s ← s.readRecord r dva
  let st := if s.walkOpen r then trOk else trStale
  let s := s.acceptAbort s.curCore s.curSlot (s.asidOf s.cur) (BitVec.ofNat 64 dva) r
  .ok ((s.dropTicket dva).answerStatus d st)

def execTabort (d a : Reg) (c : CapIx) (g : PredIx) (s : State) : Out := guarded g s (s.abortWalk d a c)

/-! ## Levels (R212, R213) -/

/-- A sticky flag of a slot's STATUS set by a home; a context that is saved takes it in its save area. -/
def State.setStatusBit (s : State) (core slot n : Nat) : State :=
  let s := s.modSlot core slot fun x => { x with status := bitOn x.status n }
  let st := (s.slot core slot).st
  if st = .saved ∨ st = .faulted then
    let l : Loc := .lm core (saveArea slot + 0x208)
    s.wrLoc l (bytesOfNat 8 (bitOn (s.rdWord l) n).toNat) false
  else s

/-- A count lowered by 1; whether it stood at 0. -/
def lowered (n : Nat) : Nat × Bool := (n - 1, n == 0)

/-- F of an edge and FTOT lowered, with SATF in the header and the issuing slot on saturation; whether one saturated. -/
def State.unmark (s : State) (core slot : Nat) (l : Loc) (e : Nat) : State × Bool :=
  let f := lowered (s.edFlight l e)
  let t := lowered (s.ndFtot l)
  let s := (s.putEdge core l e 1 32 16 f.1).putHdr core l 2 32 16 t.1
  if f.2 || t.2 then ((s.putHdr core l 0 12 1 1).setStatusBit core slot stSatf, true) else (s, false)

/-- A Q32.32 value added to a word, saturating. -/
def State.addQ32 (s : State) (core : Nat) (l : Loc) (x : Int) : State :=
  s.putWord core l (BitVec.ofInt 64 (sat64 ((s.rdWord l).toInt + x)))

/-- What a level meets: a node to update, a status with which it is skipped (and whether SKIP is set), poison, or a failed translation
that waits in the port (R105). -/
inductive LevelNode where
  | node (l : Loc)
  | skipped (st : Nat) (skip : Bool)
  | poison (dva : Nat)
  | waits
  deriving DecidableEq, Repr

/-- The node of a level, translated as the level is reached; a failure writes a fault record with tag 0 (R344), and waits while the port
can hold no more (R105). Header words 0, 2 and 3 and the edge's words 1 and 2 are taken before the checks (DESIGN CHOICE; log entry
92). -/
def State.levelNode (s : State) (j : TreeJob) (r : Word) (e : Option Nat) : State × LevelNode :=
  let dva := refDva r
  if isWindow dva then (s, .skipped trBadObj false)
  else
    match s.xlateOr j.core j.asid dva true true with
    | none => (s, .waits)
    | some (s, .error 0) => (s, .poison 0)
    | some (s, .error cause) => (s.faultRecord j.core j.slot j.asid dva cause .atomic 0, .skipped trStale true)
    | some (s, .ok l) =>
      let edge := match e with
        | some e => if e < s.ndChildren l then wordsAt l dva [17 + 4 * e, 18 + 4 * e] else []
        | none => []
      let s := (l :: edge.map (·.1)).foldl (fun s w => s.recallFor j.core j.asid w) s
      match s.poisonIn (wordsAt l dva [0, 2, 3] ++ edge) with
      | some bad => (s, .poison bad)
      | none =>
      if s.notNode l then (s, .skipped trBadObj false)
      else if s.staleRef r l || e.any (fun e => decide (s.ndChildren l ≤ e)) then (s, .skipped trStale true)
      else (s, .node l)

/-- A level of a back-up: visits and values of the edge, if there is one, and of the node; marks come off. -/
def State.backLevel (s : State) (j : TreeJob) (l : Loc) (e : Option Nat) : State × Bool :=
  let x := if j.alt ∧ j.index % 2 = 1 then sat64 (-j.value) else j.value
  let (s, sat) := match e with
    | some e =>
      let s := s.putEdge j.core l e 1 0 32 (min (s.edVisits l e + 1) (2 ^ 32 - 1))
      (s.addQ32 j.core (edgeAt l e 2) x).unmark j.core j.slot l e
    | none => (s, false)
  let s := s.putHdr j.core l 2 0 32 (min (s.ndVisits l + 1) (2 ^ 32 - 1))
  (s.addQ32 j.core (hdrAt l 3) x, sat)

/-- The slot of a job consumes poison (R186), if it still holds a strand. -/
def State.jobPoison (s : State) (j : TreeJob) (dva : Nat) : State :=
  let st := (s.slot j.core j.slot).st
  if st = .free ∨ st = .killed then s else s.killSlot j.core j.slot dva

/-- The next level of a job done; the job as it then stands. After poison the job goes on, its completion word with SKIP set, and with
status STALE unless it is an abort, which R205 does not say (DESIGN CHOICE; log entry 100). -/
def State.runLevel (s : State) (j : TreeJob) (r : Word) (e : Option Nat) (rest : List (Word × Option Nat)) :
    State × TreeJob :=
  let j' : TreeJob := { j with levels := rest, index := j.index + 1 }
  match s.levelNode j r e with
  | (s, .node l) =>
    let (s, sat) := match j.abort, e with
      | true, some e => s.unmark j.core j.slot l e
      | true, none => (s, false)
      | false, _ => s.backLevel j l e
    (s, { j' with done := if j.abort then 0 else j.done + 1, sat := j.sat || sat })
  | (s, .skipped st skip) => (s, { j' with st := if j.abort then j.st else st, skip := j.skip || skip })
  | (s, .poison dva) => (s.jobPoison j dva, { j' with st := if j.abort then j.st else trStale, skip := true })
  | (s, .waits) => (s, j)

/-- The completion word (R205). -/
def TreeJob.word (j : TreeJob) : Word :=
  BitVec.ofNat 64 (j.st + j.done * 2 ^ 8 + bit j.sat 15 + bit j.skip 16)

/-- TICKET_FILL: the ticket word is written and filled. -/
def State.fillTicket (s : State) (j : TreeJob) : State := s.fill (clusterOf j.core) j.record.lo j.word

/-- The node that an aborted ticket was expanding reverts (R213); whether that is done, or waits in its core (R105). Poison in EXPNODE, or
in the words taken of the node, kills the slot of a TABORT (R186), and the node stays as it is. The manual speaks of a level's failed
translation only (R344): a node whose page does not translate stays EXPANDING with its expansion word empty, a fault record with tag 0
is written, and SKIP is not set (DESIGN CHOICE; log entry 98). -/
def State.revertNode (s : State) (j : TreeJob) : State × Bool :=
  let s := s.recallFor j.core j.asid j.record.lo
  let r := s.rdWord (j.record.lo.plus 16)
  match s.poisonIn (wordsAt j.record.lo j.ticket.toNat [2]) with
  | some dva => (s.jobPoison j dva, true)
  | none =>
  if r = 0 ∨ isWindow (refDva r) then (s, true)
  else
    match s.xlateOr j.core j.asid (refDva r) true true with
    | none => (s, false)
    | some (s, .error 0) => (s.jobPoison j 0, true)
    | some (s, .error cause) => (s.faultRecord j.core j.slot j.asid (refDva r) cause .atomic 0, true)
    | some (s, .ok l) =>
      let s := s.recallFor j.core j.asid l
      match s.poisonIn (wordsAt l (refDva r) [0, 4]) with
      | some dva => (s.jobPoison j dva, true)
      | none =>
      if (s.nodeCheck r (some l)).isNone && s.expandedBy l j.ticket then
        let s := s.putHdr j.core l 0 8 3 ndUnexpanded
        let s := s.putHdr j.core l 0 32 7 0
        (s.setXw j.core l (BitVec.ofNat 64 trAbandoned) true, true)
      else (s, true)

/-- An abort that waits for the core's earlier stores reaches its ticket once they are performed (R119, R345). -/
def State.jobReach (s : State) (n : Nat) (j : TreeJob) : State :=
  if (s.core j.core).path.any fun p => decide (p.at' ≤ j.at') then s
  else { s with jobs := s.jobs.eraseIdx n }.reachTicket j.core j.slot j.asid j.ticket.toNat j.kill

/-- The next step of the n-th job in progress, if it is of the kind. -/
def State.jobStep (s : State) (n : Nat) (abort : Bool) : State :=
  match s.jobs[n]? with
  | none => s
  | some j =>
    if j.abort ≠ abort then s
    else if j.waits then s.jobReach n j
    else
      match j.levels with
      | (r, e) :: rest =>
        let (s, j') := s.runLevel j r e rest
        { s with jobs := s.jobs.set n j' }
      | [] =>
        match if j.abort then s.revertNode j else (s, true) with
        | (s, true) => { s with jobs := s.jobs.eraseIdx n }.fillTicket j
        | (s, false) => s

/-- TBACK_LEVEL: one level; after the last, the fill of the ticket word. -/
def execTbackLevel (n : Nat) (s : State) : Out := .next (s.jobStep n false)

/-- TABORT_UNWIND: one entry; after the last, the expansion reverts and the ticket word is filled. -/
def execTabortUnwind (n : Nat) (s : State) : Out := .next (s.jobStep n true)

end Sys2Proof.Machine
end

