-- ==== Sys2Proof/Machine/Lz.lean ====
section
/-!
DEFINITION. Landing zones (spec/14_landing_zones_and_links.md R220–R230, R236; spec/20_ref_e_to_l.md R315–R317): zones,
slots and tokens, the six instructions, the arrival of a unit, and requests that peers make over a link.
-/
namespace Sys2Proof.Machine

open Sys2Proof

/-! ## Status codes (R223) -/

def lzOk : Nat := 0
def lzNone : Nat := 1
def lzOverflow : Nat := 2
def lzLinkFail : Nat := 3
def lzStale : Nat := 4
def lzBadZone : Nat := 5

/-! ## Zones, slots, tokens (R220–R222) -/

def tokenZone (w : Word) : Nat := fld w 44 2
def tokenSlot (w : Word) : Nat := fld w 40 4
def tokenGen (w : Word) : BitVec 16 := w.extractLsb' 24 16

/-- A token (R221). -/
def tokenOf (dev core zone slot : Nat) (gen : BitVec 16) : Word :=
  BitVec.ofNat 64 (dev * 2 ^ 56 + core * 2 ^ 46 + zone * 2 ^ 44 + slot * 2 ^ 40 + gen.toNat * 2 ^ 24)

def Core.zone (c : Core) (z : Nat) : Option Zone := c.zones[z]?.getD none
def Core.setZone (c : Core) (z : Nat) (v : Option Zone) : Core := { c with zones := c.zones.setIfInBounds z v }

/-- The generation of a slot index (R220). -/
def Core.slotGen (c : Core) (z k : Nat) : BitVec 16 := Sparse.get 0 c.lzGen (16 * z + k)

/-- A slot of a zone changed. -/
def Core.setLz (c : Core) (z k : Nat) (x : LzSlot) : Core :=
  match c.zone z with
  | some v => c.setZone z (some { v with slots := v.slots.set k x })
  | none => c

/-- A FREE slot as LZCFG makes it. -/
def LzSlot.free : LzSlot := ⟨.free, 0, false, none⟩

def LzState.code : LzState → Nat
  | .free => 0 | .reserved => 1 | .arriving => 2 | .complete => 3 | .failed => 4

/-! ## Answers -/

/-- An answer to whoever waits for one: a slot of this package becomes READY with s[d] written, a peer has a reply. -/
def State.answerTo (s : State) (w : Who) (d : Reg) (v : Word) : State :=
  match w with
  | .slot core slot => s.wake core slot [(d.toNat, v)]
  | .peer _ id => s.answerId id [v]

/-- The waiters of a core that a condition picks, answered and taken out, in order. -/
def State.answerWaiters (s : State) (core : Nat) (p : LzWaiter → Bool) (v : Word) (acquire : Bool) : State :=
  let ws := (s.core core).lzWait.filter p
  let s := s.modCore core fun c => { c with lzWait := c.lzWait.filter (!p ·) }
  ws.foldl (fun s w =>
    let s := s.answerTo w.who w.d v
    if acquire then s.selfInvalidate core else s) s

/-- A granted reservation is the end of an edge from the LZCFG that configured its zone: the reserving core's stale lines go (R236). -/
def State.granted (s : State) (w : Who) : State :=
  match w with
  | .slot core _ => s.selfInvalidate core
  | .peer _ _ => s

/-- Waiters of LZWAIT on a slot, and of LZRES.w on a zone. -/
def LzWaiter.onSlot (z k : Nat) (w : LzWaiter) : Bool := w.zone == z && w.slot == some k
def LzWaiter.onZone (z : Nat) (w : LzWaiter) : Bool := w.zone == z && w.slot.isNone

/-- The state of a slot after an arrival or a post (R222), with its LZWAIT waiters served: an acquire when COMPLETE. -/
def State.settle (s : State) (core z k : Nat) (x : LzSlot) : State :=
  let whole := x.posted && x.pend == 0
  let s := s.modCore core (·.setLz z k { x with st := if whole then .complete else .arriving })
  if whole then s.answerWaiters core (LzWaiter.onSlot z k) (BitVec.ofNat 64 lzOk) true else s

/-! ## Reservation (R224) -/

/-- The lowest FREE slot of a zone. -/
def Zone.freeSlot (v : Zone) : Option Nat := v.slots.findIdx? (·.st == .free)

/-- A slot reserved; its token. -/
def State.reserve (s : State) (core z k : Nat) (link : Option Nat) : State × Word :=
  let gen := (s.core core).slotGen z k
  (s.modCore core (·.setLz z k ⟨.reserved, 0, false, link⟩), tokenOf s.device core z k gen)

/-- The link that a requester's reservation arrives on. -/
def Who.link : Who → Option Nat
  | .slot _ _ => none
  | .peer l _ => some l

/-- One waiting LZRES.w of a zone served, if a slot is FREE: the earliest. -/
def State.serveZone (s : State) (core z : Nat) : State :=
  match (s.core core).lzWait.find? (LzWaiter.onZone z), ((s.core core).zone z).bind Zone.freeSlot with
  | some w, some k =>
    let s := s.modCore core fun c => { c with lzWait := c.lzWait.erase w }
    match s.reserve core z k w.who.link with
    | (s, token) => (s.answerTo w.who w.d token).granted w.who
  | _, _ => s

/-- Who asks for a zone: a launch of this device, or a class of a device so many links away (R220). -/
inductive LzAsker where
  | launch (id : Nat)
  | peer (cls hops : Nat)
  deriving DecidableEq, Repr

/-- The zone is open to the asker: a device more than one link away is none that it accepts (R220, R224). -/
def Zone.opens (v : Zone) : LzAsker → Bool
  | .launch id => v.launch == id
  | .peer cls hops => v.aclass == cls && hops == 1

/-- What LZRES finds: an answer, or a wait. -/
def State.tryReserve (s : State) (core z : Nat) (a : LzAsker) (w : Who) (wait : Bool) : State × Option Word :=
  match (s.core core).zone z with
  | none => (s, some (BitVec.ofNat 64 lzBadZone))
  | some v =>
    if !v.opens a then (s, some (BitVec.ofNat 64 lzBadZone))
    else
      match v.freeSlot with
      | some k => match s.reserve core z k w.link with
        | (s, token) => (s.granted w, some token)
      | none => (s, if wait then none else some (BitVec.ofNat 64 lzNone))

/-! ## Posts, waits, releases of a slot (R225) -/

/-- The slot of a token at its core, or the status of a token that fails its checks. LZFREE takes a FAILED slot. -/
def State.tokenSlotAt (s : State) (core : Nat) (w : Word) (freeing : Bool) : Except Nat LzSlot :=
  match (s.core core).zone (tokenZone w) with
  | none => .error lzBadZone
  | some v =>
    match v.slots[tokenSlot w]? with
    | none => .error lzBadZone
    | some x =>
      if x.st = .free ∨ tokenGen w ≠ (s.core core).slotGen (tokenZone w) (tokenSlot w) then .error lzStale
      else if x.st = .failed ∧ !freeing then .error lzLinkFail
      else .ok x

/-- LZEXP at the token's core: the status. -/
def State.postAt (s : State) (core : Nat) (w n : Word) : State × Nat :=
  match s.tokenSlotAt core w false with
  | .error e => (s, e)
  | .ok x =>
    let p := x.pend + n.toNat
    if 1048575 < p then (s, lzOverflow)
    else (s.settle core (tokenZone w) (tokenSlot w) { x with pend := p, posted := true }, lzOk)

/-- A slot made FREE with its generation moved on. -/
def State.releaseSlot (s : State) (core z k : Nat) : State :=
  s.modCore core fun c =>
    let x := (((c.zone z).bind fun v => v.slots[k]?)).getD LzSlot.free
    { c.setLz z k { x with st := .free } with lzGen := c.lzGen.put (16 * z + k) (c.slotGen z k + 1) }

/-- LZFREE at the token's core. -/
def State.freeAt (s : State) (core : Nat) (w : Word) : State × Nat :=
  match s.tokenSlotAt core w true with
  | .error e => (s, e)
  | .ok _ =>
    let z := tokenZone w
    let k := tokenSlot w
    let s := s.releaseSlot core z k
    let s := s.answerWaiters core (LzWaiter.onSlot z k) (BitVec.ofNat 64 lzStale) false
    (s.serveZone core z, lzOk)

/-- LZSTAT at the token's core (R226). -/
def State.statAt (s : State) (core : Nat) (a : LzAsker) (w : Word) : Word :=
  let c := s.core core
  let drop := min c.lzdrop.toNat 0x7FFFFF * 2 ^ 41
  match (c.zone (tokenZone w)).bind fun v => if v.opens a then v.slots[tokenSlot w]? else none with
  | none => BitVec.ofNat 64 (drop + 7)
  | some x =>
    BitVec.ofNat 64 (drop + bit x.posted 40 + (BitVec.ofInt 21 x.pend).toNat * 2 ^ 19
      + (c.slotGen (tokenZone w) (tokenSlot w)).toNat * 2 ^ 3 + x.st.code)

/-! ## The instructions -/

/-- A token operand has [23:0] = 0. -/
def tokenForm (w : Word) : Check := need (fld w 0 24 == 0) (.trap clsLz 1)

/-- s[d] written at once when the core named is the slot's own, on the answer otherwise. -/
def State.answerFrom (s : State) (core : Nat) (d : Reg) (v : Word) : State :=
  if core = s.curCore then s.setReg d v else s.replyReg d v

/-- A request carried to another device; without a route it is answered at once. -/
def State.toZone (s : State) (dev : Nat) (d : Reg) (op : Instr) (x y noRoute : Word) (o : PeerAccess → PeerAccess) : State :=
  if (s.routeTo dev).isNone then s.replyReg d noRoute
  else
    (s.sendTo dev (.zone (s.coreloc s.curCore) s.requester s.classOf op x y s.mayWait 1)).awaitPeer dev (gwin dev 0 0)
      [(d.toNat, 0)] fun p => o { p with zone := true, park := .zone }

/-- LZRES. -/
def State.lzres (s : State) (d a : Reg) (wait : Bool) (z : BitVec 2) : Except Stop State := do
  let v := s.src a
  need (fld v 48 8 == 0xFE && fld v 0 30 == 0) (.trap clsLz 6)
  let dva := v.toNat % 2 ^ 56
  let core := winCore dva
  if winDev dva ≠ s.device then
    .ok (s.toZone (winDev dva) d (.lzres d 0 0 (if wait then 1 else 0) z) v 0 (BitVec.ofNat 64 lzLinkFail)
      fun p => { p with acq := true })
  else
    match s.tryReserve core z.toNat (.launch (s.cur.launch.getD 0)) (.slot s.curCore s.curSlot) wait with
    | (s, some v) => .ok (s.answerFrom core d v)
    | (s, none) => do
      s.mayPark 0x28 true
      .ok ((s.parkCur .zone).modCore core fun c =>
        { c with lzWait := c.lzWait ++ [⟨.slot s.curCore s.curSlot, z.toNat, none, d⟩] })

def execLzres (d a : Reg) (g : PredIx) (w : BitVec 1) (z : BitVec 2) (s : State) : Out :=
  guarded g s (s.lzres d a (w == 1#1) z)

/-- LZEXP. -/
def State.lzexp (s : State) (d a b : Reg) : Except Stop State := do
  let t := s.src a
  tokenForm t
  if tokenDev t ≠ s.device then
    .ok (s.toZone (tokenDev t) d (.lzexp d 0 0 0) t (s.src b) (BitVec.ofNat 64 lzLinkFail) id)
  else
    match s.postAt (tokenCore t) t (s.src b) with
    | (s, st) => .ok (s.answerFrom (tokenCore t) d (BitVec.ofNat 64 st))

def execLzexp (d a b : Reg) (g : PredIx) (s : State) : Out := guarded g s (s.lzexp d a b)

/-- LZWAIT. -/
def State.lzwait (s : State) (d a : Reg) : Except Stop State := do
  let t := s.src a
  tokenForm t
  need (tokenDev t == s.device && tokenCore t == s.curCore) (.trap clsLz 4)
  match s.tokenSlotAt s.curCore t false with
  | .error e => .ok (s.setReg d (BitVec.ofNat 64 e))
  | .ok x =>
    if x.st = .complete then .ok ((s.setReg d (BitVec.ofNat 64 lzOk)).selfInvalidate s.curCore)
    else
      s.mayPark 0x29 false
      .ok ((s.parkCur .zone).modHere fun c =>
        { c with lzWait := c.lzWait ++ [⟨.slot s.curCore s.curSlot, tokenZone t, some (tokenSlot t), d⟩] })

def execLzwait (d a : Reg) (g : PredIx) (s : State) : Out := guarded g s (s.lzwait d a)

/-- LZFREE. -/
def State.lzfree (s : State) (d a : Reg) : Except Stop State := do
  let t := s.src a
  tokenForm t
  if tokenDev t ≠ s.device then
    .ok (s.toZone (tokenDev t) d (.lzfree d 0 0) t 0 (BitVec.ofNat 64 lzLinkFail) id)
  else
    match s.freeAt (tokenCore t) t with
    | (s, st) => .ok (s.answerFrom (tokenCore t) d (BitVec.ofNat 64 st))

def execLzfree (d a : Reg) (g : PredIx) (s : State) : Out := guarded g s (s.lzfree d a)

/-- LZSTAT. -/
def State.lzstat (s : State) (d a : Reg) : Except Stop State := do
  let t := s.src a
  tokenForm t
  if tokenDev t ≠ s.device then
    .ok (s.toZone (tokenDev t) d (.lzstat d 0 0) t 0 (BitVec.allOnes 64) fun p => { p with stat := true })
  else .ok (s.answerFrom (tokenCore t) d (s.statAt (tokenCore t) (.launch (s.cur.launch.getD 0)) t))

def execLzstat (d a : Reg) (g : PredIx) (s : State) : Out := guarded g s (s.lzstat d a)

/-! ## LZCFG (R220, R315) -/

/-- Fields of a zone descriptor. -/
def zdIndex (v : Word) : Nat := fld v 32 2
def zdOn (v : Word) : Bool := v.getLsbD 31
def zdLog (v : Word) : Nat := fld v 28 3 + 10
def zdCount (v : Word) : Nat := fld v 24 4 + 1
def zdBase (v : Word) : Nat := fld v 0 19

/-- The conditions of R41 on a zone of a partition that ends at `lmend`. -/
def zoneFits (base log count lmend : Nat) : Bool :=
  decide (log ≤ 16 ∧ count * 2 ^ log ≤ 262144 ∧ base % 2 ^ log = 0 ∧ programArea ≤ base ∧ base + count * 2 ^ log ≤ lmend)

/-- Two runs of bytes overlap. -/
def overlaps (a n b m : Nat) : Bool := decide (a < b + m ∧ b < a + n)

/-- A zone of `count` FREE slots. -/
def zoneOf (launch base log aclass count : Nat) : Zone :=
  ⟨launch, base, log, aclass, List.replicate count LzSlot.free⟩

/-- A zone taken away: LZRES.w waiting on it complete with BADZONE. -/
def State.removeZone (s : State) (core z : Nat) : State :=
  (s.modCore core (·.setZone z none)).answerWaiters core (LzWaiter.onZone z) (BitVec.ofNat 64 lzBadZone) false

/-- The end of a launch at a core (R230): slots that are not FREE are freed, and their LZWAIT waiters wake with STALE (R225); its
zones are removed. -/
def State.endZones (s : State) (core launch : Nat) : State :=
  (List.range 4).foldl (fun s z =>
    match (s.core core).zone z with
    | some v =>
      if v.launch = launch then
        let s := (List.range v.slots.length).foldl (fun s k =>
          if ((v.slots[k]?).map (·.st)) = some .free then s
          else (s.releaseSlot core z k).answerWaiters core (LzWaiter.onSlot z k) (BitVec.ofNat 64 lzStale) false) s
        s.removeZone core z
      else s
    | none => s) s

/-- What comes before an LZCFG that configures a zone (R236): the strand's earlier accesses to its own core's local memory, and, as
the edge to a granted LZRES asks, its earlier stores, as before a release. -/
def State.beforeZone (s : State) : Except Stop State := do
  let s ← s.release
  .ok (s.flushStgs s.curCore s.curSlot fun l => match l with
    | .lm core _ => core == s.curCore
    | _ => false)

/-- LZCFG. -/
def State.lzcfg (s : State) (d a : Reg) : Except Stop State := do
  let v := s.src a
  let id := s.cur.launch.getD 0
  let z := zdIndex v
  let c := s.here
  need (fld v 40 24 == 0 && fld v 19 5 == 0
    && (!zdOn v || zoneFits (zdBase v) (zdLog v) (zdCount v) (s.lmend s.curCore s.cur))) (.trap clsLz 2)
  need ((c.zone z).all (·.launch == id)) (.trap clsLz 5)
  need (!zdOn v || !(List.range 4).any fun i => i != z && ((c.zone i).any fun o =>
    o.launch == id && overlaps (zdBase v) (zdCount v * 2 ^ zdLog v) o.base (o.slots.length * 2 ^ o.log))) (.trap clsLz 3)
  let s ← if zdOn v then s.beforeZone else .ok s
  if (c.zone z).any fun o => o.slots.any (·.st != .free) then .ok (s.setReg d (BitVec.ofNat 64 lzBadZone))
  else
    let s := if zdOn v then
        s.modHere (·.setZone z (some (zoneOf id (zdBase v) (zdLog v) (fld v 34 6) (zdCount v))))
      else s.removeZone s.curCore z
    .ok (s.setReg d (BitVec.ofNat 64 lzOk))

def execLzcfg (d a : Reg) (g : PredIx) (s : State) : Out := guarded g s (s.lzcfg d a)

/-! ## Arrivals (R228) -/

/-- A status joins a command's: one of a write ends it there, while the units of a landing zone all go (R165, R228). -/
def CopyRun.join (r : CopyRun) (status : Nat) : CopyRun :=
  { r with status := worse r.status status, ended := r.ended || (r.cmd.dkind != 2 && status != 0) }

/-- The unit or write of a number is acknowledged: it is waited for no more, and its status joins the command's. One that the command does
not wait for changes nothing. -/
def CopyRun.acked (r : CopyRun) (num status : Nat) : CopyRun :=
  if r.units.any (·.1 == num) then { r with units := r.units.filter (·.1 != num) }.join status else r

/-- The unit's acknowledgement: its status joins the copy that sent it, here or at the package that sent it. -/
def State.ackUnit (s : State) (u : LzUnit) (status : Nat) : State :=
  match u.sender, u.link with
  | some core, none => s.modRun (core % 1024) (·.acked u.num status)
  | some core, some _ => s.tell core (.answer core (16 + 32 * u.num) [BitVec.ofNat 64 status])
  | none, _ => s

/-- A dropped unit is counted at its core (R228). -/
def State.dropUnit (s : State) (core : Nat) : State :=
  s.modCore core fun c => { c with lzdrop := if c.lzdrop = 0xFFFFFFFF#32 then c.lzdrop else c.lzdrop + 1 }

/-- Why a unit is dropped, or the zone and slot that take it. -/
def State.unitTarget (s : State) (core : Nat) (u : LzUnit) : Except Nat (Zone × LzSlot) :=
  let z := tokenZone u.token
  let k := tokenSlot u.token
  match (s.core core).zone z with
  | none => .error lzBadZone
  | some v =>
    match v.slots[k]? with
    | none => .error lzBadZone
    | some x =>
      if 2 ^ v.log < u.offset + 64 then .error lzBadZone
      else if x.st = .free ∨ tokenGen u.token ≠ (s.core core).slotGen z k then .error lzStale
      else if x.st = .failed then .error lzLinkFail
      else if x.pend = -1048576 then .error lzBadZone
      else .ok (v, x)

/-- A unit taken at its core: written, then counted. -/
def State.takeUnit (s : State) (u : LzUnit) : State :=
  let core := tokenCore u.token
  let z := tokenZone u.token
  let k := tokenSlot u.token
  match s.unitTarget core u with
  | .error e => (s.dropUnit core).ackUnit u e
  | .ok (v, x) =>
    match s.place (some v.launch) core (v.base + k * 2 ^ v.log + u.offset) with
    | some o =>
      let s := s.homeWrite (clusterOf core) (.lm core o) u.data u.poison
      (s.settle core z k { x with pend := x.pend - 1 }).ackUnit u lzOk
    | none => (s.dropUnit core).ackUnit u lzBadZone

/-- ARRIVAL_UNIT: the n-th unit in flight. The contents of a slot whose LZWAIT gives LINKFAIL or STALE are undefined (R130): the
model leaves in it the bytes of the units that its core had taken (DESIGN CHOICE, unsafe; log entry 74). -/
def execArrivalUnit (n : Nat) (s : State) : Out :=
  .next (match s.units[n]? with
    | some u => { s with units := s.units.eraseIdx n }.takeUnit u
    | none => s)

/-! ## Requests of peers (R224, R225) -/

/-- A landing-zone request that came over a link; the core it names holds the zone. -/
def State.peerZone (s : State) (link core slot cls hops : Nat) (op : Instr) (x y : Word) (waits : Bool) : State :=
  let w : Who := .peer link (peerId core slot)
  let send (s : State) (v : Word) : State := s.answerTo w 0 v
  match op with
  | .lzres _ _ _ wait z =>
    let at' := winCore (x.toNat % 2 ^ 56)
    match s.tryReserve at' z.toNat (.peer cls hops) w (wait == 1#1) with
    | (s, some v) => send s v
    | (s, none) =>
      if !waits then s.nackTo core slot .wait
      else (s.modCore at' fun c => { c with lzWait := c.lzWait ++ [⟨w, z.toNat, none, 0⟩] }).tell core (.waiting s.device core slot)
  | .lzexp _ _ _ _ => match s.postAt (tokenCore x) x y with
    | (s, st) => send s (BitVec.ofNat 64 st)
  | .lzfree _ _ _ => match s.freeAt (tokenCore x) x with
    | (s, st) => send s (BitVec.ofNat 64 st)
  | .lzstat _ _ _ => send s (s.statAt (tokenCore x) (.peer cls hops) x)
  | _ => s

end Sys2Proof.Machine
end

