-- ==== Sys2Proof/Machine/Couple.lean ====
section
/-!
DEFINITION. Checked pairing (spec/09_traps_faults_preemption.md R188–R191; spec/19_ref_a_to_d.md R282): COUPLE and UNCOUPLE,
the C-slot of a coupled strand, fingerprints, intervals, rollback.
-/
namespace Sys2Proof.Machine

open Sys2Proof

/-! ## Records of coupled pairs -/

/-- The leader's core of a pair of cores. -/
def leaderOf (core : Nat) : Nat := core / 2 * 2
def isLeader (core : Nat) : Bool := core % 2 == 0
def otherOf (core : Nat) : Nat := core + 1 - 2 * (core % 2)

def Couple.of (core slot : Nat) (c : Couple) : Bool := c.leader == leaderOf core && c.slot == slot

/-- The coupled pair of a slot. -/
def State.coupleOf (s : State) (core slot : Nat) : Option Couple :=
  if (s.slot core slot).coupled then s.couples.find? (Couple.of core slot) else none

def State.modCouple (s : State) (core slot : Nat) (f : Couple → Couple) : State :=
  { s with couples := s.couples.map fun c => if c.of core slot then f c else c }

def Couple.half (c : Couple) (core : Nat) : Half2 := if isLeader core then c.lead else c.chk
def Couple.other (c : Couple) (core : Nat) : Half2 := if isLeader core then c.chk else c.lead
def Couple.modHalf (core : Nat) (f : Half2 → Half2) (c : Couple) : Couple :=
  if isLeader core then { c with lead := f c.lead } else { c with chk := f c.chk }

/-! ## Fingerprints (R189) -/

/-- CRC-64 with the ECMA-182 polynomial: one bit, and the low `n` bits of a number, highest first. -/
def crcBit (c : BitVec 64) (b : Bool) : BitVec 64 :=
  if c.getLsbD 63 != b then (c <<< 1) ^^^ 0x42F0E1EBA9EA3693#64 else c <<< 1
def crcBits (c : BitVec 64) (v n : Nat) : BitVec 64 := (List.range n).foldl (fun c i => crcBit c (v.testBit (n - 1 - i))) c

/-- Register writes, oldest first: the code once, then one word, or four for a capability. -/
def crcLog (c : BitVec 64) (ws : List (Nat × Word)) : BitVec 64 :=
  (ws.foldl (fun (cn : BitVec 64 × Nat) w =>
    if cn.2 = 0 then (crcBits (crcBits cn.1 w.1 16) w.2.toNat 64, if 40 ≤ w.1 then 3 else 0)
    else (crcBits cn.1 w.2.toNat 64, cn.2 - 1)) (c, 0)).1

/-- A store: the address of its word, data, byte mask. -/
def crcStore (c : BitVec 64) (addr : Nat) (bs : List Byte) : BitVec 64 :=
  let o := addr % 8
  crcBits (crcBits (crcBits c (addr - o) 64) (natOfBytes bs * 2 ^ (8 * o)) 64) ((2 ^ bs.length - 1) * 2 ^ o) 8

/-- The register writes noted by a slot taken into its half's fingerprint. -/
def State.absorb (s : State) (core slot : Nat) : State :=
  let ws := (s.slot core slot).wlog.reverse
  let s := s.modCouple core slot (Couple.modHalf core fun h => { h with crc := crcLog h.crc ws })
  s.modSlot core slot fun x => { x with wlog := [] }

/-- Register writes by code, oldest first; `acc` holds the words of a capability so far, newest first. -/
def Slot.applyLog (x : Slot) : List (Nat × Word) → List Word → Slot
  | [], _ => x
  | (k, v) :: rest, acc =>
    if k < 32 then (x.setReg (BitVec.ofNat 5 k) v).applyLog rest []
    else if k < 40 then (x.setPred (BitVec.ofNat 3 (k - 32)) (v != 0)).applyLog rest []
    else
      match acc with
      | [w2, w1, w0] => (x.setCap (BitVec.ofNat 3 (k - 40)) (v ++ w2 ++ w1 ++ w0)).applyLog rest []
      | _ => x.applyLog rest (v :: acc)

/-! ## COUPLE and UNCOUPLE (R188) -/

/-- COUPLE: the slot waits for its partner. R175 gives the INFO of an ALLOT trap a register number or a count asked for, and COUPLE asks
for neither: INFO 0 (DESIGN CHOICE, unsafe; log entry 91). -/
def State.coupleUp (s : State) : Except Stop State := do
  let x := s.cur
  if x.coupled then .ok s
  else
    need (s.here.vlen s.curSlot == 0 && !s.pairedOdd s.curCore s.curSlot) (.trap clsAllot 0)
    need (decide (s.curSlot < 14)) (.trap clsSys 0x10)
    .ok (s.await .partner [] false)

/-- A slot waits in COUPLE. -/
def Slot.coupling (x : Slot) : Bool := x.st == .reply && (x.reply.map (·.cond)) == some .partner

/-- A fresh interval of a half: its checkpoint is the slot as it stands. -/
def Half2.start (x : Slot) : Half2 := ⟨0, [], x, 0, false⟩

/-- COUPLING_START: at a rotation boundary, both partners having executed COUPLE. Two slots that are both lent over a coupled pair couple
when that pair has uncoupled: the manual does not name the case (DESIGN CHOICE, safe; log entry 85). -/
def State.startCouple (s : State) (leader slot : Nat) : State :=
  let a := s.slot leader slot
  let b := s.slot (leader + 1) slot
  if a.coupling && b.coupling && a.launch == b.launch && !s.couples.any (Couple.of leader slot) then
    let on (x : Slot) : Slot := { x with st := .ready, reply := none, coupled := true, wlog := [] }
    let s := (s.modSlot leader slot on).modSlot (leader + 1) slot on
    { s with couples := s.couples ++
        [⟨leader, slot, .start (on a), .start (on b), [], false, false, false, false⟩] }
  else s

/-- UNCOUPLE, its interval compared: both strands run on independently. -/
def State.uncoupleUp (s : State) : State :=
  if s.cur.coupled then
    let off (x : Slot) : Slot := { x with coupled := false, wlog := [] }
    let lead := leaderOf s.curCore
    let s := (s.modSlot lead s.curSlot off).modSlot (lead + 1) s.curSlot off
    { s with couples := s.couples.filter (!Couple.of s.curCore s.curSlot ·) }
  else s

def execCouple (g : PredIx) (s : State) : Out := guarded g s s.coupleUp
def execUncouple (g : PredIx) (s : State) : Out := guarded g s (.ok s.uncoupleUp)

/-! ## What a coupled strand's C-slot does (R189) -/

/-- Instructions before which an interval ends. -/
def endsInterval : Instr → Bool
  | .send .. | .sende .. | .atom .. | .cas .. | .stg .. | .stgLone .. | .epushMat .. | .epushCopy .. => true
  | .ldh .. | .ldf .. | .ldx .. | .stf .. | .stfa .. | .feclr .. => true
  | .tdesc .. | .tback .. | .texp .. | .tfill .. | .tseal .. | .trec .. | .tabort .. | .tform .. => true
  | .lzres .. | .lzexp .. | .lzwait .. | .lzfree .. | .lzcfg .. | .lzstat .. => true
  | .fence .. | .rflush .. | .rinv .. | .cst .. | .cgive .. | .uncouple .. => true
  | _ => false

/-- Accesses that leave the core, and the operations that end an interval: issued by the leader. -/
def leaderOnly (s : State) : Instr → Bool
  | .epushMat .. | .epushCopy .. | .uncouple .. => false
  | .ld .. | .ldLone .. | .cld .. | .popm .. | .waitm .. | .await .. | .asfl .. | .asbar .. | .wake .. => true
  | .csrr _ n => n == 3#10 || n == 4#10 || n == 5#10
  | .openWalk a => s.src a != 0 && (s.src a).extractLsb' 0 7 == 0#7
  | op => endsInterval op

/-- The slot stands at the end of its interval. -/
def State.toEnd (s : State) (core slot : Nat) : State :=
  (s.modSlot core slot fun x => { x with st := .reply, reply := some ⟨.interval, [], true⟩ }).modCouple core slot
    (Couple.modHalf core fun h => { h with atEnd := true })

/-- The leader's access has been answered: what it brought is there for the checker. -/
def State.settleLead (s : State) (leader slot : Nat) (trap : Option (Nat × Nat × Bool)) : State :=
  match s.coupleOf leader slot with
  | none => s
  | some c =>
    let x := s.slot leader slot
    if c.out && x.st != .reply && x.st != .parked && x.st != .faulted && !x.adone then
      (s.absorb leader slot).modCouple leader slot fun c =>
        { c with out := false, replies := c.replies ++ [⟨x.wlog.reverse, x.packet, x.ticket, trap⟩] }
    else s

/-- The current slot's buffered stores seen by its own loads: the local memory with them written. -/
def State.withBuffer (s : State) (h : Half2) : State :=
  h.buf.foldl (fun s v => match v.loc with
    | .lm core _ => if core = s.curCore then s.wrLoc v.loc v.bytes false else s
    | _ => s) s

/-- An instruction that reads local memory, run over the buffer's stores. -/
def State.overBuffer (s : State) (h : Half2) (f : State → State) : State :=
  if h.buf.isEmpty then f s
  else (f (s.withBuffer h)).modHere fun c => { c with lm := s.here.lm, lmPoison := s.here.lmPoison }

/-- A store put into the verification buffer. -/
def State.bufferStore (s : State) (v : VStore) : State :=
  (s.absorb s.curCore s.curSlot).modCouple s.curCore s.curSlot
    (Couple.modHalf s.curCore fun h => { h with buf := h.buf ++ [v], crc := crcStore h.crc v.addr v.bytes })

/-- ST while coupled: the checker notes the address alone, the leader its place too. In Sage's trap mode the leader's store is
checked as it issues, so that a race traps RACE (R135). -/
def State.coupledStore (s : State) (c : CapIx) (off data : Word) : Except Stop State := do
  if isLeader s.curCore then
    let (l, dva) ← s.globalLoc c off 8 false true .write .other
    partition l
    let checked := (s.cap c).s
    let now := checked && s.sageTraps s.cur
    let s ← s.sage s.curCore s.curSlot now l dva true 0 true
    .ok (s.bufferStore ⟨l, dva, bytesOfNat 8 data.toNat, s.cur.pathCheck (checked && !now) dva 0, s.cc⟩)
  else
    let dva ← s.capDva c off 8 false true
    if isWindow dva then
      let _ ← s.windowLoc s.cur.launch s.cur.supervisor s.curSlot dva 8 .other
    else need (dva % 8 == 0) (.trap clsAln dva)
    .ok (s.bufferStore ⟨.noPart dva, dva, bytesOfNat 8 data.toNat, none, s.cc⟩)

/-- STL while coupled. -/
def State.coupledStl (s : State) (off data : Word) : Except Stop State := do
  let l ← s.localLoc off 8 .other
  .ok (s.bufferStore ⟨l, off.toNat, bytesOfNat 8 data.toNat, none, s.cc⟩)

/-- Bytes put into the verification buffer, word by word; `fuel` bounds the words. -/
def State.bufferBytes (s : State) (l : Loc) (off : Nat) (bs : List Byte) : Nat → State
  | 0 => s
  | fuel + 1 =>
    if bs.isEmpty then s
    else
      let n := 8 - off % 8
      (s.bufferStore ⟨l, off, bs.take n, none, s.cc⟩).bufferBytes (l.plus n) (off + n) (bs.drop n) fuel

/-- MMAE while coupled: its local output waits in the verification buffer too. The manual does not say how an output of more words than
the buffer has entries goes: the buffer takes it whole and is then full, so that the interval ends after the pair (DESIGN CHOICE; log
entry 94). -/
def State.coupledMmae (s : State) (d a b : Reg) (tmask toSq sqIx : BitVec 1) (o r : BitVec 2) : Except Stop State :=
  s.mmaeBy (fun s l bs => s.bufferBytes l (s.src a).toNat bs bs.length) d a b tmask toSq sqIx o r

/-- A word with the buffered stores to it, if there are any. -/
def State.buffered (s : State) (h : Half2) (l : Loc) : Option Word :=
  let vs := h.buf.filter (·.loc.sameWord l)
  let lay (w : List Byte) (v : VStore) : List Byte := w.take (v.loc.addr % 8) ++ v.bytes ++ w.drop (v.loc.addr % 8 + v.bytes.length)
  if vs.isEmpty then none else some (BitVec.ofNat 64 (natOfBytes (vs.foldl lay (s.rdLoc l 8))))

/-- LD of the leader: its buffer's stores first, with Sage's check. -/
def State.coupledLoad (s : State) (h : Half2) (c : CapIx) (off : Word) (d : Reg) : Except Stop State := do
  let (l, dva) ← s.globalLoc c off 8 true false .read .other
  match s.buffered h l with
  | some v =>
    let s ← s.sage s.curCore s.curSlot (s.cap c).s l dva false 0 true
    .ok (s.replyReg d v)
  | none => s.load c off d

/-- DTWR while coupled: each core writes its own table; the value enters the fingerprint as a store of address 0 (R288). -/
def State.coupledTable (s : State) (t : State) (g : PredIx) (b : Reg) : State :=
  if s.guard g && t.lat.flow == .go && t.cur.st == .ready then
    (t.absorb t.curCore t.curSlot).modCouple t.curCore t.curSlot
      (Couple.modHalf t.curCore fun h => { h with crc := crcStore h.crc 0 (bytesOfNat 8 (fld (s.src b) 0 19)) })
  else t

/-- The end of an instruction of a coupled strand. -/
def State.finished (s : State) (r : Except Stop State) : State :=
  match finish s r with
  | .next t => t
  | _ => s

/-- The checker's part of an access that its leader issues: the leader's reply, or a wait for it. -/
def State.followLead (s : State) (c : Couple) : State :=
  match c.replies with
  | r :: rest =>
    let s := s.modCouple s.curCore s.curSlot fun c => { c with replies := rest }
    match r.trap with
    | some (cls, info, true) => s.stop (.answer cls info)
    | some (cls, info, false) => s.stop (.trap cls info)
    | none => s.modCur fun x => { x.applyLog r.writes [] with packet := r.packet, ticket := r.ticket }
  | [] => if c.lead.atEnd then s.again.toEnd s.curCore s.curSlot else s.stop (.reissue .leader)

/-- A store that its leader alone checks: through S in Sage's trap mode (R135). -/
def State.leadStore (s : State) : Instr → Bool
  | .st _ _ c _ | .stLone _ _ c _ => (s.cap c).s && s.sageTraps s.cur
  | _ => false

/-- ST and STL of a coupled strand. -/
def State.coupledStores (s : State) : Instr → Option State
  | .st d a k imm => some (s.finished (s.coupledStore k (s.offset a imm) (s.src d)))
  | .stLone d a k e => some (s.finished (s.coupledStore k (s.offset a e) (s.src d)))
  | .stl d a imm => some (s.finished (s.coupledStl (s.offset a imm) (s.src d)))
  | .stlLone d a e => some (s.finished (s.coupledStl (s.offset a e) (s.src d)))
  | _ => none

/-- The C-slot's flow is not stopped. -/
def State.goes (s : State) : Bool := s.lat.flow == .go

/-- The leader's access run by `f`, and what it brought kept for the checker. -/
def State.leads (s : State) (f : State → State) : State :=
  let s := f ((s.absorb s.curCore s.curSlot).modCouple s.curCore s.curSlot fun c => { c with out := true })
  match s.lat.flow with
  | .go => s.settleLead s.curCore s.curSlot none
  | .waits => s.modCouple s.curCore s.curSlot fun c => { c with out := false }
  | .trapped cls info => s.settleLead s.curCore s.curSlot (some (cls, info, false))
  | .answered cls info => s.settleLead s.curCore s.curSlot (some (cls, info, true))

/-- The C-slot of a coupled strand; `ex` runs an instruction. -/
def State.runCoupled (s : State) (ex : Instr → State → State) (op : Instr) : State :=
  match s.coupleOf s.curCore s.curSlot with
  | none => ex op s
  | some c =>
    let h := c.half s.curCore
    match op with
    | .ldl .. | .ldlLone .. | .eret .. => s.overBuffer h (ex op)
    | .dtwr _ b g => s.coupledTable (ex op s) g b
    | .mmae d a b tmask toSq sqIx g o r =>
      if s.guard g then s.overBuffer h fun s => s.finished (s.coupledMmae d a b tmask toSq sqIx o r) else s
    | _ =>
      let run (s : State) : State :=
        match op with
        | .ld d a k imm => s.finished (s.coupledLoad h k (s.offset a imm) d)
        | .ldLone d a k e => s.finished (s.coupledLoad h k (s.offset a e) d)
        | _ => (s.coupledStores op).getD (ex op s)
      if !(leaderOnly s op || s.leadStore op) then run s
      else if isLeader s.curCore then s.leads run
      else
        let s := s.settleLead (leaderOf s.curCore) s.curSlot none
        match s.coupleOf s.curCore s.curSlot with
        | some c =>
          let t := s.followLead c
          if s.leadStore op && t.goes && t.cur.st == .ready then run t else t
        | none => s

/-! ## Intervals (R189, R190) -/

/-- The interval of a half is full: 1,024 retired pairs, or a full verification buffer. -/
def Half2.full (h : Half2) : Bool := decide (1024 ≤ h.pairs ∨ 256 ≤ h.buf.length)

/-- A pair of a slot has begun and is still to issue again. -/
def Slot.midPair (x : Slot) : Bool := x.since.isSome || x.adone

/-- The pre-emption request held for the half of a coupled pair in a slot, or in the faulted context that the slot is lent over (R106). -/
def Slot.halfReq (x : Slot) : Option Nat := if x.coupled then x.preReq else (x.lentVec.filter (·.coupled)).bind (·.preReq)

/-- The pairs of a half up to the end of one that it has begun, as a faulted one has that its slot is lent over. -/
def Half2.reach (h : Half2) (x : Slot) : Nat := h.pairs + (if x.midPair || !x.coupled then 1 else 0)

/-- The interval of a half is to end before its next pair: it is full; or there is a pre-emption request, with no packet open, or the other
half's end (R181): both halves end it before the same pair, after any that one of them has begun. -/
def State.endDue (s : State) (core slot : Nat) (op : Instr) : Bool :=
  match s.coupleOf core slot with
  | none => false
  | some c =>
    let held := (s.slot c.leader slot).halfReq.isSome || (s.slot (c.leader + 1) slot).halfReq.isSome
    let x := s.slot core slot
    let asked := (c.ending || (held && x.packet.isNone)) && !x.midPair
    let h := c.half core
    h.full || (asked && decide ((c.other core).reach (s.slot (otherOf core) slot) ≤ h.pairs)) || (endsInterval op && h.pairs != 0)

/-- A pair of a coupled strand has retired: it is counted, and the interval may be full. -/
def State.countPair (s : State) (core slot : Nat) : State :=
  let s := s.modCouple core slot (Couple.modHalf core fun h => { h with pairs := h.pairs + 1 })
  match s.coupleOf core slot with
  | some c =>
    let h := c.half core
    if h.full ∧ (s.slot core slot).st = .ready then s.toEnd core slot else s
  | none => s

/-- A slot stands where its interval may be compared. -/
def Slot.atCompare (x : Slot) : Bool :=
  x.coupled && (x.st == .ready ||
    (x.st == .reply && ((x.reply.map (·.cond)) == some .interval || (x.reply.map (·.cond)) == some .leader)))

/-- INTERVAL_END may happen. -/
def State.intervalReady (s : State) (core slot : Nat) : Bool :=
  match s.coupleOf core slot with
  | some c => (c.lead.atEnd && c.chk.atEnd) ||
      (c.missed && (s.slot c.leader slot).atCompare && (s.slot (c.leader + 1) slot).atCompare)
  | none => false

/-- The leader's buffer enters its store path; local stores are performed. -/
def State.releaseBuffer (s : State) (core slot : Nat) (h : Half2) : State :=
  h.buf.foldl (fun s v =>
    let enter (s : State) : State := s.modCore core fun k => k.enter ⟨slot, v.loc, v.bytes, false, false, v.at', v.sage, none, none⟩
    match v.loc with
    | .lm c _ => if c = core then s.homeWrite (clusterOf core) v.loc v.bytes false else enter s
    | _ => enter s) s

/-- A slot waiting at the end of an interval goes on. -/
def Slot.offEnd (x : Slot) : Slot :=
  if x.st = .reply ∧ (x.reply.map (·.cond)) = some .interval then { x with st := .ready, reply := none } else x

/-- Registers, pc and the rest of a strand's words from a checkpoint. -/
def Slot.rollTo (x check : Slot) : Slot :=
  { x with
    s := check.s, p := check.p, c := check.c, pc := check.pc, status := check.status, trapvec := check.trapvec
    traprec := check.traprec, ticket := check.ticket, stealdom := check.stealdom, dtnan := check.dtnan
    packet := check.packet, adone := check.adone, held := check.held, regPoison := check.regPoison, st := .ready, reply := none
    park := none, since := none, inl := none, walk := none, out := none, wlog := [] }

/-- INTERVAL_END: the fingerprints are compared at the leader. -/
def State.endInterval (s : State) (core slot : Nat) : State :=
  let lead := leaderOf core
  if !s.intervalReady core slot then s
  else
    let s := ((s.settleLead lead slot none).absorb lead slot).absorb (lead + 1) slot
    match s.coupleOf core slot with
    | none => s
    | some c =>
      if !c.missed && c.lead.crc == c.chk.crc then
        let s := s.releaseBuffer lead slot c.lead
        let asked := ((s.slot lead slot).preReq) <|> ((s.slot (lead + 1) slot).preReq)
        let on (x : Slot) : Slot := { x.offEnd with preReq := asked }
        let s := (s.modSlot lead slot on).modSlot (lead + 1) slot on
        s.modCouple core slot fun c =>
          { c with
            lead := .start (s.slot lead slot), chk := .start (s.slot (lead + 1) slot), missed := false, ending := false
            again := false }
      else if c.again then
        let off (x : Slot) : Slot := { x with coupled := false, wlog := [] }
        let s := (s.modSlot lead slot off).modSlot (lead + 1) slot off
        let s := { s with couples := s.couples.filter (!Couple.of core slot ·) }
        (s.killSlot lead slot 0).killSlot (lead + 1) slot 0
      else
        let s := (s.modSlot lead slot (·.rollTo c.lead.check)).modSlot (lead + 1) slot (·.rollTo c.chk.check)
        let s := s.modCouple core slot fun c =>
          { c with
            lead := .start (s.slot lead slot), chk := .start (s.slot (lead + 1) slot), replies := [], out := false
            missed := false, ending := false, again := true }
        { s with rollbacks := s.rollbacks + 1 }

def execIntervalEnd (core slot : Nat) (s : State) : Out := .next (s.endInterval core slot)

end Sys2Proof.Machine
end

