-- ==== Sys2Proof/Machine/Links.lean ====
section
/-!
DEFINITION. Shaezil Links (spec/14_landing_zones_and_links.md R231–R235; spec/16 R246) and what packages do for one another:
window accesses served for a peer (R91, R95, R98), packets, records, units and stores that cross a link, answers; virtual
channels, flits and their replay.
-/
namespace Sys2Proof.Machine

open Sys2Proof

/-! ## Window accesses of peers (R98) -/

/-- The one launch on a core with a service class. -/
def State.classLaunch (s : State) (core cls : Nat) : Option Launch :=
  match (s.launchesOn core).filter (·.cls == cls) with
  | [l] => some l
  | _ => none

/-- The place that a peer's window access reaches: in the partition of the launch of its class (R98). -/
def State.peerPlace (s : State) (core cls off : Nat) : Option Loc :=
  ((s.classLaunch core cls).bind fun l => s.place (some l.id) core off).map (Loc.lm core)

/-- Words sent back to a requester; for an engine's write, status 0; an engine's fill waits for none. -/
def State.answerPeer (s : State) (core slot : Nat) (ws : List Word) : State :=
  if slot = 18 then s else s.tell core (.answer core slot (if slot % 32 = 16 then [0] else ws))

/-- A CF access of a peer that finds its condition unmet. -/
def State.peerWait (s : State) (link core slot : Nat) (l : Loc) (dva : Nat) (kind : WaitKind) (waits : Bool) : State :=
  if !waits then s.nackTo core slot .wait
  else if !s.waitRoom l then s.nackTo core slot .busy
  else
    match l with
    | .lm c _ =>
      (s.modCore c fun k => { k with waiters := k.waiters ++ [⟨.peer link (peerId core slot), l, dva, kind, s.cc⟩] }).tell
        core (.waiting s.device core slot)
    | _ => s

/-- A window access of a peer served at its core, in the partition of the launch of its class. -/
def State.serveAccess (s : State) (link core slot cls dva : Nat) (op : Instr) (args : List Word) (waits : Bool) : State :=
  let tgt := winCore dva
  match s.peerPlace tgt cls (winOff dva) with
  | none => if slot = 18 then s else s.nackTo core slot .noPartition
  | some l =>
    let cl := clusterOf tgt
    let x := args.getD 0 0
    let word := s.rdWord l
    let wide := match op with
      | .cas _ _ _ _ _ size => if size = 1#1 then 16 else 8
      | _ => 8
    let take (f : State → State) : State :=
      if s.poisonedAt l wide then s.nackTo core slot .poison else f s
    match op with
    | .ld .. | .ldh .. => take fun s => s.answerPeer core slot [word]
    | .ldf d .. =>
      if s.full l then take fun s => s.answerPeer core slot [word]
      else s.peerWait link core slot l dva (.ldf d) waits
    | .ldx d .. =>
      if s.full l then take fun s => (((s.setFull l false).countTaken l).answerPeer core slot [word]).serve l
      else s.peerWait link core slot l dva (.ldx d) waits
    | .st .. =>
      (s.homeWrite cl l (bytesOfNat (args.getD 1 8).toNat x.toNat) false).answerPeer core slot []
    | .stf .. =>
      if s.full l then s.peerWait link core slot l dva (.stf x) waits
      else (s.fill cl l x).answerPeer core slot []
    | .stfa .. => (s.fill cl l x).answerPeer core slot []
    | .feclr .. => ((s.setFull l false).serve l).answerPeer core slot []
    | .atom _ _ _ _ _ size o =>
      let n := if size = 1#1 then 4 else 8
      take fun s =>
        let old := natOfBytes (s.rdLoc l n)
        (s.homeWrite cl l (bytesOfNat n (atomOp o n old (x.toNat % 2 ^ (8 * n)))) false).answerPeer core slot
          [BitVec.ofNat 64 old]
    | .cas .. =>
      let h := args.length / 2
      let n := wide
      let num (ws : List Word) : Nat := ws.foldr (fun w acc => w.toNat + 2 ^ 64 * acc) 0
      take fun s =>
        let old := natOfBytes (s.rdLoc l n)
        let s := if old = num (args.take h) then s.homeWrite cl l (bytesOfNat n (num (args.drop h))) false else s
        s.answerPeer core slot ((List.range h).map fun i => BitVec.ofNat 64 (old / 2 ^ (64 * i)))
    | _ => s

/-- An access of a peer served at its core. A WAKE names a slot, and its reply says that the context has been marked (R376). -/
def State.servePeer (s : State) (link core slot cls dva : Nat) (op : Instr) (args : List Word) (waits : Bool) : State :=
  match op with
  | .wake .. =>
    let v := args.getD 0 0
    (s.markWoken (fld v 4 10) (fld v 0 4) (fld v 22 16)).answerPeer core slot []
  | _ => s.serveAccess link core slot cls dva op args waits

/-! ## Answers of peers -/

/-- A slot waits for a peer's answer, in REPLY or, where its access waits there, PARKED. -/
def Slot.asksPeer (x : Slot) : Bool :=
  (x.st == .reply || x.st == .parked) && x.out.isSome && (x.reply.map (·.cond)) == some .peer

/-- A slot waits for the answer to the request of a number. -/
def Slot.asksFor (x : Slot) (num : Nat) : Bool := x.asksPeer && x.out.any fun o => o.num == num

/-- A peer's answer to a slot: the registers are written; an acquire if the access is one, or a reservation is granted (R120,
R236). -/
def State.peerAnswered (s : State) (core slot : Nat) (ws : List Word) : State :=
  let x := s.slot core slot
  if !x.asksPeer then s
  else
    let acquires := x.out.any fun o => o.acq && (!o.zone || fld (ws.getD 0 0) 0 24 == 0)
    let regs := (x.reply.map (·.writes)).getD []
    let s := s.wake core slot ((List.range regs.length).map fun i => ((regs.getD i (0, 0)).1, ws.getD i 0))
    let s := s.modSlot core slot fun x => { x with out := none, held := none }
    if acquires then s.selfInvalidate core else s

/-- A peer turns an access of a slot away: HBLK or PKT, SEG, a reissue, or poison (R48, R91, R98, R186); an access whose trap has to wait
for load-queue rows is made again. -/
def State.peerNacked (s : State) (core slot : Nat) (why : Nack) : State :=
  let x := s.slot core slot
  match x.out, x.asksPeer with
  | some o, true =>
    let again : State := s.modSlot core slot fun x =>
      { x with st := .ready, park := none, reply := none, out := none, pc := o.pc, adone := true }
    let trap (cls info : Nat) : State :=
      if s.trapWaits core slot then again else s.takeTrap core slot cls info o.pc o.pair true false
    match why with
    | .wait => if slot = 14 then trap clsHblk (o.pair / 2 ^ 25 % 64) else trap clsPkt 5
    | .noPartition => trap clsSeg o.dva
    | .poison => s.killSlot core slot o.dva
    | .busy => again
  | _, _ => s

/-- An access waits at its home in another package: its slot is PARKED (R72). A slot that asks no more withdraws it. -/
def State.peerWaits (s : State) (dev core slot : Nat) : State :=
  let k := slot % 32
  if (s.slot (core % 1024) k).asksFor (slot / 32) then
    s.modSlot (core % 1024) k fun x => { x with st := .parked, park := x.out.map (·.park) }
  else s.sendTo dev (.withdraw dev core slot)

/-- A request of a killed slot no longer waits here, nor does the record it had sent (R320). -/
def State.withdrawn (s : State) (core slot : Nat) : State :=
  let theirs (w : Who) : Bool := match w with
    | .peer _ id => id == peerId core slot
    | .slot _ _ => false
  { s with
    records := s.records.filter fun r => !(r.slot.isNone && r.src == core && r.num == slot / 32)
    cores := s.cores.map fun kc => (kc.1, { kc.2 with
      waiters := kc.2.waiters.filter (!theirs ·.who)
      lzWait := kc.2.lzWait.filter (!theirs ·.who) }) }

/-- The oldest store of a core's path was turned away by the package that it left for: a store that a slot waits for traps SEG on
the answer (R98). -/
def State.storeNacked (s : State) (core : Nat) (why : Nack) : State :=
  match (s.core core).path with
  | [] => s
  | p :: rest =>
    let s := s.modCore core fun c => { c with path := rest }
    if p.await then s.peerNacked core p.slot why else s

/-- The oldest store of a core's path has left as the request of a number. -/
def State.storeOut (s : State) (core num : Nat) : Bool :=
  (s.core core).path.head?.any fun p => p.sent.any fun o => o.1 == num

/-- An answer reaches this package. -/
def State.takeAnswer (s : State) (core slot : Nat) (ws : List Word) : State :=
  if slot % 32 = 16 then s.modRun core (·.acked (slot / 32) (ws.getD 0 0).toNat)
  else if slot % 32 = 17 then (if s.storeOut core (slot / 32) then s.popPath core else s)
  else if (s.slot core (slot % 32)).asksFor (slot / 32) then s.peerAnswered core (slot % 32) ws
  else s

/-- An access of this package was turned away. An engine's command ends with status 6, or 3 where a link further away has lost the access
(R165, R232). -/
def State.takeNack (s : State) (core slot : Nat) (why : Nack) : State :=
  if slot % 32 = 16 then s.modRun core (·.acked (slot / 32) (if why = .poison then 3 else 6))
  else if slot % 32 = 17 then (if s.storeOut core (slot / 32) then s.storeNacked core why else s)
  else if (s.slot core (slot % 32)).asksFor (slot / 32) then s.peerNacked core (slot % 32) why
  else s

/-- The acknowledgement of an STG that crossed a link (R127). -/
def State.takeStgAck (s : State) (x : Stg) : State :=
  match s.stgs.find? fun (g : Stg) => g.core == x.core % 1024 && g.loc.isPeer && g.dva == x.dva && g.data == x.data with
  | some g => s.ackStg g
  | none => s

/-! ## What comes over a link -/

/-- The device that a message is for. -/
def LinkMsg.dest : LinkMsg → Nat
  | .packet p _ => p.dev
  | .record r _ => r.dev
  | .unit u _ => tokenDev u.token
  | .stg _ dev _ | .stgAck _ dev | .withdraw dev _ _ => dev
  | .access _ _ _ dva _ _ _ => winDev dva
  | .zone _ _ _ op x _ _ _ => match op with
    | .lzres .. => winDev (x.toNat % 2 ^ 56)
    | _ => tokenDev x
  | .answer core _ _ | .nack core _ _ | .waiting _ core _ | .accept core _ => core / 1024

/-- A message that is passed on: a landing-zone request has crossed one link more (R224). -/
def LinkMsg.passed : LinkMsg → LinkMsg
  | .zone core slot cls op x y waits hops => .zone core slot cls op x y waits (hops + 1)
  | m => m

/-- A packet or record of a peer belongs to the launch of its class on its core; without one it is discarded. -/
def State.adopt (s : State) (link core cls : Nat) (f : State → Nat → State) : State :=
  match s.classLaunch core cls with
  | some l => f s l.id
  | none => s.modLink link fun l => { l with lost := l.lost + 1 }

/-- A packet or record that cannot be resent is counted, and its launch never ends by Equinox (R232). -/
def State.loseMsg (s : State) (link src launch : Nat) : State :=
  let s := s.modLink link fun l => { l with lost := l.lost + 1 }
  if src / 1024 = s.device then s.modLaunch launch fun l => { l with lost := true } else s

/-- What the requester of a message is told when a link on its way has lost it: a window access is answered with poison, a landing-zone
request with LINKFAIL, LZSTAT with all ones, a unit as one that met a link failure, an STG as failed (R223, R228, R231, R232). -/
def LinkMsg.lostReply : LinkMsg → Option LinkMsg
  | .access core slot _ _ _ _ _ => if slot = 18 then none else some (.nack core slot .poison)
  | .zone core slot _ op _ _ _ _ => some (.answer core slot [match op with
      | .lzstat .. => BitVec.allOnes 64
      | _ => BitVec.ofNat 64 lzLinkFail])
  | .unit u _ => u.sender.map fun core => .answer core (16 + 32 * u.num) [BitVec.ofNat 64 lzLinkFail]
  | .stg x _ _ => some (.stgAck x (x.core / 1024))
  | _ => none

/-- An answer, or a withdrawal, ends the request that a reply would answer. -/
def LinkMsg.ends (m reply : LinkMsg) : Bool :=
  match m, reply with
  | .answer c k _, .answer c' k' _ | .answer c k _, .nack c' k' _ | .nack c k _, .answer c' k' _ | .nack c k _, .nack c' k' _
  | .withdraw _ c k, .answer c' k' _ | .withdraw _ c k, .nack c' k' _ => c == c' && k == k'
  | .stgAck x _, .stgAck y _ => x == y
  | _, _ => false

/-- A message for another device is passed on by this device's own table (R235), and a request is remembered until its answer has passed
too. With no route up it is lost here (R223, R232). -/
def State.passOn (s : State) (link : Nat) (m : LinkMsg) : State :=
  let s := { s with forwards := s.forwards.filter fun (f : Forward) => !m.ends f.lost }
  match s.routeTo m.dest with
  | some k =>
    let s := { s with forwards := s.forwards ++ (m.lostReply.map fun r => (⟨k, r⟩ : Forward)).toList }
    s.sendLink k m.passed
  | none =>
    match m with
    | .packet p _ => s.loseMsg link p.src p.launch
    | .record r _ => s.loseMsg link r.src r.launch
    | m => match m.lostReply with
      | some r => s.sendTo r.dest r
      | none => s

/-- A message arrives over a link: forwarded if it is for another device (R235), taken otherwise. -/
def State.fromPeer (s : State) (link : Nat) (m : LinkMsg) : State :=
  if !(s.link link).up then s
  else if m.dest ≠ s.device then s.passOn link m
  else
    match m with
    | .packet p cls => s.adopt link p.dest cls fun s id => { s with packets := s.packets ++ [{ p with launch := id }] }
    | .record r cls =>
      s.adopt link r.dest cls fun s id => { s with records := s.records ++ [{ r with launch := id, slot := none }] }
    | .unit u _ => { s with units := s.units ++ [{ u with link := some link }] }
    | .stg x _ cls =>
      let s := match s.peerPlace (winCore x.dva) cls (winOff x.dva) with
        | some l => s.homeWrite (clusterOf (winCore x.dva)) l (bytesOfNat 8 x.data.toNat) false
        | none => s
      s.tell x.core (.stgAck x (x.core / 1024))
    | .stgAck x _ => s.takeStgAck x
    | .access core slot cls dva op args waits => s.servePeer link core slot cls dva op args waits
    | .zone core slot cls op x y waits hops => s.peerZone link core slot cls hops op x y waits
    | .answer core slot ws => s.takeAnswer (core % 1024) slot ws
    | .nack core slot why => s.takeNack (core % 1024) slot why
    | .waiting dev core slot => s.peerWaits dev core slot
    | .withdraw _ core slot => s.withdrawn core slot
    | .accept core num => s.recordAccepted core num

/-! ## Virtual channels and flits (R233, R246) -/

/-- The service class of a message's flit. -/
def LinkMsg.cls : LinkMsg → Nat
  | .packet _ c | .record _ c | .unit _ c | .stg _ _ c | .access _ _ c _ _ _ _ | .zone _ _ c _ _ _ _ _ => c
  | .stgAck .. | .answer .. | .nack .. | .waiting .. | .withdraw .. | .accept .. => 0

/-- The virtual channels that share what VC1 and VC5 leave, in the order of a class's weights. -/
def sharedVcs : List Nat := [0, 2, 4, 3]

/-- The oldest message of a virtual channel. -/
def Link.head (l : Link) (vc : Nat) : Option LinkMsg := (l.vcs[vc]?.getD []).head?

/-- The first of the shared channels with a flit and a turn left, among so many turns each. -/
def Link.turn (l : Link) (credits : List Nat) : Option Nat :=
  (List.range 4).find? fun i => (l.head (sharedVcs.getD i 0)).isSome && decide (0 < credits.getD i 0)

/-- The virtual channel whose flit a link sends next, and the turns then left: VC1, then VC5, then weighted round-robin with the
weights of the class of the flit at each channel's head (R246). The channels of the routers inside the package order nothing that the manual
keeps but by time: their traffic stands in lists, and any of it may come next (DESIGN CHOICE, safe; log entry 93). -/
def State.arbitrate (s : State) (l : Link) : Option (Nat × List Nat) :=
  let serve (credits : List Nat) : Option (Nat × List Nat) :=
    (l.turn credits).map fun i => (sharedVcs.getD i 0, credits.set i (credits.getD i 0 - 1))
  if (l.head 1).isSome then some (1, l.credits)
  else if (l.head 5).isSome then some (5, l.credits)
  else
    (serve l.credits) <|> serve ((List.range 4).map fun i =>
      ((l.head (sharedVcs.getD i 0)).map fun m => (s.classCfg m.cls).weights.getD i 0).getD 0)

/-- A link that is up sends one flit, while its retry buffer of 512 has room: the flit waits there, with its sequence number, until
the peer has it (R233). -/
def State.sendFlit (s : State) (link : Nat) : State :=
  let l := s.link link
  if !l.up || decide (512 ≤ l.retry.length) then s
  else
    match s.arbitrate l with
    | none => s
    | some (vc, credits) =>
      match l.vcs[vc]?.getD [] with
      | [] => s
      | m :: rest =>
        s.modLink link fun l =>
          { l with vcs := l.vcs.setIfInBounds vc rest, credits := credits, retry := l.retry ++ [⟨l.seq, vc, m⟩], seq := l.seq + 1 }

/-- Every link sends a flit. -/
def State.sendFlits (s : State) : State := (List.range 16).foldl (fun (s : State) k => s.sendFlit k) s

/-- The oldest flit of a link's retry buffer has reached its peer: no replay is counted any more (R234). -/
def State.carried (s : State) (link : Nat) : State := s.modLink link fun l => { l with retry := l.retry.tail, replays := 0 }

/-! ## A link declared down (R231, R232) -/

/-- Units that crossed the link and have not been taken: dropped and counted at their cores. -/
def State.dropUnits (s : State) (link : Nat) : State :=
  let gone := s.units.filter fun u => u.link == some link
  let s := { s with units := s.units.filter fun u => u.link != some link }
  gone.foldl (fun s u => s.dropUnit (tokenCore u.token)) s

/-- Slots of a zone whose reservation arrived on the link go to FAILED; their LZWAIT waiters wake with LINKFAIL. -/
def State.failSlots (s : State) (core link : Nat) : State :=
  (List.range 64).foldl (fun s i =>
    match ((s.core core).zone (i / 16)).bind fun v => v.slots[i % 16]? with
    | some x =>
      if x.link = some link ∧ x.st ≠ .free then
        (s.modCore core (·.setLz (i / 16) (i % 16) { x with st := .failed })).answerWaiters core
          (LzWaiter.onSlot (i / 16) (i % 16)) (BitVec.ofNat 64 lzLinkFail) false
      else s
    | none => s) s

/-- Requests of peers over the link that still wait at a core are gone with it. -/
def Core.forgetPeer (c : Core) (link : Nat) : Core :=
  let far (w : Who) : Bool := match w with
    | .peer l _ => l == link
    | .slot _ _ => false
  { c with lzWait := c.lzWait.filter (!far ·.who), waiters := c.waiters.filter (!far ·.who) }

/-- The elements of waiting load-queue rows in packages that the link led to are lost: poison when their row is read (R232). -/
def LqRow.cut (lost : Loc → Loc) : LqRow → LqRow
  | .waiting kind elems sage t => .waiting kind (elems.map fun e => (lost e.1, e.2)) sage t
  | .arrived lanes => .arrived lanes
def Slot.cutRows (lost : Loc → Loc) (x : Slot) : Slot := { x with lq := x.lq.map fun rows => rows.map (·.cut lost) }

/-- A place whose accesses cross a link. -/
def State.crosses (s : State) (link : Nat) (l : Loc) : Bool :=
  match l with
  | .peer dev _ => s.routeTo dev == some link
  | _ => false

/-- What becomes of a place in another package when the link to it fails. -/
def Loc.cutOff (crosses : Bool) (l : Loc) : Loc :=
  match l, crosses with
  | .peer _ dva, true => .lost dva
  | l, _ => l

/-- The access that a slot has out is a WAKE. -/
def PeerAccess.isWake (o : PeerAccess) : Bool :=
  match decodeC (BitVec.ofNat 32 o.pair) with
  | some (.wake ..) => true
  | _ => false

/-- What an access of a slot over the link comes to: a landing-zone request completes with LINKFAIL, LZSTAT with all ones (R223); a
window access is answered with poison, which its slot consumes (R232). A store that has not left its core's path goes on. The manual
says nothing of a WAKE whose reply is lost: it retires (DESIGN CHOICE; log entry 95). -/
def State.failSlot (s : State) (core k link : Nat) : State :=
  let x := s.slot core k
  match x.out, x.asksPeer with
  | some o, true =>
    if o.link ≠ link ∨ (s.core core).path.any (fun p => p.slot == k && p.await) then s
    else if o.isWake then s.peerAnswered core k []
    else if o.zone then s.peerAnswered core k [if o.stat then BitVec.allOnes 64 else BitVec.ofNat 64 lzLinkFail]
    else s.killSlot core k o.dva
  | _, _ => s

/-- A copy whose units or writes crossed the link completes with LINKFAIL once what has crossed no link that is down is acknowledged. -/
def CopyRun.cut (r : CopyRun) (link : Nat) : CopyRun :=
  if r.units.any (·.2 == some link) then { r with units := r.units.filter (·.2 != some link) }.join 3 else r

/-- What a core's own traffic over the link comes to: copies complete with LINKFAIL; a store of the path that has left is lost;
accesses of slots fail. -/
def State.failCore (s : State) (core link : Nat) : State :=
  let s := s.modRun core (·.cut link)
  let lost (l : Loc) : Loc := l.cutOff (s.crosses link l)
  let sent := (s.core core).path.head?.any fun p => p.sent.any fun o => o.2 == link
  let s := s.modCore core fun c => { c with slots := c.slots.map (Slot.cutRows lost) }
  let s := if sent then s.loseHead core else s
  (List.range 16).foldl (fun s k => s.failSlot core k link) s

/-- Routes through a link are retired: the alternate takes over, if there is one (R231). -/
def Route.retire (link : Nat) (r : Route) : Route :=
  let keep (o : Option Nat) : Option Nat := o.filter (· != link)
  match keep r.primary, keep r.alternate with
  | none, some a => ⟨some a, none⟩
  | p, a => ⟨p, a⟩

/-- ALTERNATE_ROUTE_RESEND: packets and records that the link had not delivered go over the alternate, in order, and so do answers
and acknowledgements. The requests of this package end with the link, and those it passed on are answered as lost. -/
def State.resend (s : State) (link : Nat) (m : LinkMsg) : State :=
  match m with
  | .packet p _ => if (s.routeTo p.dev).isSome then s.sendTo p.dev m else s.loseMsg link p.src p.launch
  | .record r _ => if (s.routeTo r.dev).isSome then s.sendTo r.dev m else s.loseMsg link r.src r.launch
  | .access .. | .zone .. | .unit .. | .stg .. => s
  | m => s.sendTo m.dest m

/-- The requests that this package had passed on over a link are answered as lost. -/
def State.loseForwards (s : State) (link : Nat) : State :=
  let gone := s.forwards.filter (·.link == link)
  gone.foldl (fun (s : State) (f : Forward) => s.sendTo f.lost.dest f.lost) { s with forwards := s.forwards.filter (·.link != link) }

/-- The steps of R231. -/
def State.dropLink (s : State) (link : Nat) : State :=
  if !(s.link link).up then s
  else
    let held := (s.link link).retry.map (·.msg) ++ (s.link link).vcs.toList.flatMap id
    let far := s.stgs.filter fun (g : Stg) => g.link == some link
    let s := s.modLink link fun l => { l with vcs := Vector.replicate 6 [], credits := [], retry := [] }
    let s := s.dropUnits link
    let s := s.cores.keys.foldl (fun s c => ((s.failSlots c link).modCore c (·.forgetPeer link)).failCore c link) s
    let s := (far.foldl (fun s g => s.ackStg g) s).modLink link fun l => { l with up := false, vcs := Vector.replicate 6 [] }
    let s := { s with routes := s.routes.map fun (kr : Nat × Route) => (kr.1, kr.2.retire link) }
    ((held.foldl (fun (s : State) m => s.resend link m) s).loseForwards link).notify 3 link

def execLinkDown (link : Nat) (s : State) : Out := .next (s.dropLink link)
def execTakeLinkDown (link : Nat) (s : State) : Out := .next (s.dropLink link)

/-! ## Replay, rate, width (R233, R234) -/

/-- FLIT_REPLAY: a flit that fails its replay 8 times in a row brings the link down. -/
def execFlitReplay (link : Nat) (s : State) : Out :=
  .next (if !(s.link link).up then s
    else if 8 ≤ (s.link link).replays + 1 then (s.modLink link fun l => { l with replays := 8 }).dropLink link
    else s.modLink link fun l => { l with replays := l.replays + 1 })

/-- LANE_MARGIN_STEP_DOWN: the rate falls one level of 224, 160, 112, 56 Gb/s. -/
def execLaneMarginStepDown (link : Nat) (s : State) : Out :=
  .next (s.modLink link fun l => { l with rate := min 3 (l.rate + 1) })

/-- LANE_TRAINING_FAILURE: the link narrows to the half without a failed lane. When neither half is whole, the lanes are
trained again a rate lower; at 56 Gb/s the link is down. -/
def State.laneFails (s : State) (link lane : Nat) : State :=
  let l := s.link link
  let failed := setInsert l.failed lane
  if !(failed.any (· < 4) && failed.any (4 ≤ ·)) then s.modLink link fun l => { l with failed := failed, lanes := 4 }
  else if l.rate < 3 then s.modLink link fun l => { l with rate := l.rate + 1, failed := [], lanes := 4 }
  else (s.modLink link fun l => { l with failed := failed }).dropLink link

def execLaneTrainingFailure (link lane : Nat) (s : State) : Out := .next (s.laneFails link lane)

/-- RETRAIN_LINK: full rate and width again, and the link up. -/
def execRetrainLink (link : Nat) (s : State) : Out :=
  .next (s.modLink link fun l => { l with rate := 0, lanes := 8, failed := [], replays := 0, up := true })

end Sys2Proof.Machine
end

