-- ==== Sys2Proof/Machine/Launch.lean ====
section
/-!
DEFINITION. Queues, launches and tenants (spec/16_launches_tenancy_service.md R237–R245; spec/04 R78, R92, R93; spec/18 R250,
R251, R263): tail words, work packets, placement, batch snapshots, the vendor's movement routine, Equinox, the end of a
launch.
-/
namespace Sys2Proof.Machine

open Sys2Proof

/-! ## Queue descriptors (R237) -/

def Queue.fld (q : Queue) (word lo len : Nat) : Nat := (q.desc.extractLsb' (64 * word + lo) len).toNat
def Queue.ring (q : Queue) : Nat := q.fld 0 0 56
def Queue.on (q : Queue) : Bool := q.fld 1 35 1 == 1
def Queue.weight (q : Queue) : Nat := q.fld 1 27 8
def Queue.maxPri (q : Queue) : Nat := q.fld 1 24 3
def Queue.logSize (q : Queue) : Nat := q.fld 1 16 8
def Queue.asid (q : Queue) : Nat := q.fld 1 0 12
def Queue.tail (q : Queue) : Nat := q.fld 2 0 56
def Queue.allows (q : Queue) (cls : Nat) : Bool := q.fld 3 cls 1 == 1
def Queue.batch (q : Queue) : Nat := q.fld 4 0 56
def Queue.snap (q : Queue) : Nat := q.fld 5 0 56

def State.queue (s : State) (q : Nat) : Queue := Sparse.get Queue.reset s.queues q
def State.setQueue (s : State) (q : Nat) (v : Queue) : State := { s with queues := s.queues.put q v }

/-- A queue with EN cleared. -/
def Queue.disable (q : Queue) : Queue :=
  { q with desc := q.desc &&& ~~~(1#512 <<< 99), upTo := q.head, packets := [], snapRun := none }

/-- Translation of a DVA by the launch unit, which walks for each access. -/
def State.xlateUnit (s : State) (asid dva : Nat) (read write : Bool) : State × Option Loc :=
  match s.walk 0 asid dva with
  | (s, .leaf e) => (s, if (leafCause e.pte read write).isSome then none else some (e.loc dva))
  | (s, _) => (s, none)

/-- Bytes that the launch unit reads at a DVA, line by line, and whether they carry poison; none where a page does not translate.
`fuel` bounds the lines. -/
def State.unitBytes (s : State) (asid dva : Nat) : Nat → Nat → State × Option (List Byte × Bool)
  | 0, _ => (s, some ([], false))
  | fuel + 1, n =>
    if n = 0 then (s, some ([], false))
    else
      let k := min n (128 - dva % 128)
      match s.xlateUnit asid dva true false with
      | (s, none) => (s, none)
      | (s, some l) =>
        let s := s.touch l false 0 [] (s.pasidFor asid)
        match s.unitBytes asid (dva + k) fuel (n - k) with
        | (t, some (rest, p)) => (t, some (s.rdLoc l k ++ rest, s.poisonedAt l k || p))
        | (t, none) => (t, none)

/-- Bytes that the launch unit writes at a DVA, line by line; a page that does not translate is left out. -/
def State.unitPut (s : State) (asid dva : Nat) (bs : List Byte) (poison : Bool) : Nat → State
  | 0 => s
  | fuel + 1 =>
    if bs.isEmpty then s
    else
      let k := 128 - dva % 128
      let s := match s.xlateUnit asid dva false true with
        | (s, some l) => s.homeWrite 0 l (bs.take k) poison (s.pasidFor asid)
        | (s, none) => s
      s.unitPut asid (dva + k) (bs.drop k) poison fuel

/-- A 64-byte block that the launch unit reads at a DVA. -/
def State.unitBlock (s : State) (asid dva : Nat) : State × Option (BitVec 512) :=
  match s.unitBytes asid dva 2 64 with
  | (s, some (bs, _)) => (s, some (BitVec.ofNat 512 (natOfBytes bs)))
  | (s, none) => (s, none)

/-! ## The tail word (R238) -/

/-- The launch unit takes a filled tail word. A count that passes the ring clears EN, and nothing more is read. -/
def State.takeCount (s : State) (q : Nat) : State :=
  let v := s.queue q
  match s.xlateUnit v.asid v.tail true true with
  | (s, none) => s
  | (s, some l) =>
    let s := s.touch l true 0 [] (s.pasidFor v.asid)
    if !s.full l then s
    else
      let count := fld (s.rdWord l) 0 32
      let s := (s.setFull l false).serve l
      if 2 ^ v.logSize < (BitVec.ofNat 32 count - v.head).toNat then (s.setQueue q v.disable).notify 4 q
      else s.setQueue q { v with upTo := BitVec.ofNat 32 count }

/-- The launch unit reads the next packet of a ring, and the head word follows by a plain store. A packet that does not translate is
passed over: it names no completion word. -/
def State.readPacket (s : State) (q : Nat) : State :=
  let v := s.queue q
  match s.unitBlock v.asid (v.ring + 64 * (v.head.toNat % 2 ^ v.logSize)) with
  | (s, p) =>
    let s := s.setQueue q { v with head := v.head + 1, packets := v.packets ++ p.toList.map ((v.head.toNat, ·)) }
    s.unitPut v.asid (v.tail + 8) (bytesOfNat 8 (v.head + 1).toNat) false 2

/-- QUEUE_TAIL_TAKE: the next packet up to the count taken is read; when there is none, the tail word is taken if it is full. -/
def State.takeTail (s : State) (q : Nat) : State :=
  let v := s.queue q
  if !v.on then s else if v.head = v.upTo then s.takeCount q else s.readPacket q

def execQueueTailTake (q : Nat) (s : State) : Out := .next (s.takeTail q)

/-! ## Work packets (R240, R241) -/

/-- A work packet. -/
structure Pkt where
  entry    : Word
  args     : Nat
  captab   : Nat
  fmt      : Nat
  scl      : Nat
  spill    : Nat
  donew    : Nat
  pin      : Bool
  priority : Nat
  cls      : Nat
  sage     : Nat
  arrDepth : Nat
  dqcap    : Nat
  almanac  : Nat
  steal    : Nat
  strands  : Nat
  cores    : Nat
  ext      : Nat
  deriving DecidableEq, Repr

/-- Word `i` of a 64-byte block. -/
def word64 (b : BitVec 512) (i : Nat) : Word := b.extractLsb' (64 * i) 64

def Pkt.of (b : BitVec 512) : Pkt :=
  let w := word64 b 6
  let dva (i : Nat) : Nat := fld (word64 b i) 0 56
  { entry := word64 b 0, args := fld (word64 b 1) 56 8, captab := dva 1, fmt := dva 2, scl := dva 3, spill := dva 4
    donew := dva 5, pin := w.getLsbD 46, priority := fld w 43 3, cls := fld w 37 6, sage := fld w 35 2
    arrDepth := fld w 28 7, dqcap := fld w 21 7, almanac := fld w 17 4, steal := fld w 15 2, strands := fld w 11 4
    cores := fld w 0 11, ext := dva 7 }

/-- A reserved bit of a packet is set. -/
def pktReserved (b : BitVec 512) : Bool :=
  [2, 3, 4, 5, 7].any (fun i => fld (word64 b i) 56 8 != 0) || fld (word64 b 6) 47 17 != 0

/-- A field of a packet is out of range. -/
def Pkt.outOfRange (p : Pkt) : Bool :=
  decide (p.entry.toNat % 8 ≠ 0 ∨ p.spill % 96 ≠ 0 ∨ p.donew % 8 ≠ 0 ∨ p.sage = 3 ∨ p.arrDepth < 4 ∨ 64 < p.arrDepth
    ∨ p.dqcap < 1 ∨ 64 < p.dqcap ∨ 3 < p.almanac ∨ p.strands < 1 ∨ 14 < p.strands ∨ p.cores < 1 ∨ 1024 < p.cores)

/-- Fields of an extension. -/
def extMovement (x : BitVec 512) : Word := word64 x 4
def extFirst (x : BitVec 512) : Nat := fld (word64 x 5) 0 10
def extLmsize (x : BitVec 512) : Nat := fld (word64 x 6) 0 7

def extReserved (x : BitVec 512) : Bool :=
  fld (word64 x 5) 10 54 != 0 || fld (word64 x 6) 7 57 != 0 || word64 x 7 != 0

/-- Bytes of the program area that a launch receives on a core. -/
def partBytes (x : BitVec 512) : Nat := if extLmsize x = 0 then 0x77000 else extLmsize x * 4096

/-- A zone descriptor of an extension is sound: at its position, and under R41 if it is enabled. -/
def extZoneOk (x : BitVec 512) (i : Nat) : Bool :=
  let v := word64 x i
  fld v 40 24 == 0 && fld v 19 5 == 0 && (!zdOn v ||
    (zdIndex v == i && zoneFits (zdBase v) (zdLog v) (zdCount v) (programArea + partBytes x)))

/-- The zone indices of an extension. -/
def extZones (x : BitVec 512) : List Nat := (List.range 4).filter fun i => zdOn (word64 x i)

/-- Two zones of an extension overlap. -/
def extZonesClash (x : BitVec 512) : Bool :=
  (extZones x).any fun i => (extZones x).any fun j =>
    let v := word64 x i
    let w := word64 x j
    i != j && overlaps (zdBase v) (zdCount v * 2 ^ zdLog v) (zdBase w) (zdCount w * 2 ^ zdLog w)

/-- The extension of a packet: zero when it has none. -/
def State.readExt (s : State) (asid : Nat) (p : Pkt) : State × Option (BitVec 512) :=
  if p.ext = 0 then (s, some 0) else s.unitBlock asid p.ext

/-- The decode-table image at FMT: 256 entries, or none if it does not translate. -/
def State.readFmt (s : State) (asid dva : Nat) : State × Option (Sparse Half) :=
  match s.unitBytes asid dva 10 1024 with
  | (s, some (bs, _)) =>
    (s, some ((List.range 256).foldl (fun m i =>
      m.put i (BitVec.ofNat 32 (natOfBytes ((bs.drop (4 * i)).take 4) % 2 ^ 19))) []))
  | (s, none) => (s, none)

/-- Why a packet is refused (CAUSE of R241), with its extension when it is not. -/
def State.packetCause (s : State) (q : Queue) (b : BitVec 512) : State × Except Nat (BitVec 512) :=
  let p := Pkt.of b
  if pktReserved b then (s, .error 1)
  else if p.outOfRange then (s, .error 2)
  else if !q.allows p.cls || decide (q.maxPri < p.priority) then (s, .error 3)
  else
    match s.readExt q.asid p with
    | (s, none) => (s, .error 5)
    | (s, some x) =>
      if extReserved x then (s, .error 1)
      else if 0x77 < extLmsize x then (s, .error 2)
      else if (p.pin && decide (1024 < extFirst x + p.cores)) || !(List.range 4).all (extZoneOk x) || extZonesClash x then
        (s, .error 4)
      else if p.fmt = 0 then (s, .ok x)
      else
        match s.readFmt q.asid p.fmt with
        | (s, some _) => (s, .ok x)
        | (s, none) => (s, .error 5)

/-- LAUNCH_COMPLETION_RECORD: the completion word written and filled as STFA does. -/
def State.completeLaunch (s : State) (asid donew status cause : Nat) : State :=
  match s.xlateUnit asid donew false true with
  | (s, some l) => s.fill 0 l (BitVec.ofNat 64 (status + cause * 2 ^ 8)) (s.pasidFor asid)
  | (s, none) => s

/-! ## Where a launch fits (R242, R98) -/

/-- The lowest start of `n` free places of 64 that no run of a list covers. -/
def freeRun (n : Nat) (used : List (Nat × Nat)) : Option Nat :=
  (List.range (65 - n)).find? fun b => !used.any fun r => overlaps b n r.1 r.2

/-- The lowest partition of `n` bytes on a core that overlaps no other. -/
def freePart (n : Nat) (used : List (Nat × Nat)) : Option Nat :=
  ((List.range 119).map fun i => programArea + 4096 * i).find? fun b =>
    decide (b + n ≤ 0x80000) && !used.any fun r => overlaps b n r.1 r.2

/-- A core with no slot of a launch, as R383 gives slots to launches: its decode table may be loaded (R242). -/
def State.noSlots (s : State) (core : Nat) : Bool :=
  (s.launchesOn core).all fun l => (List.range 16).all fun k => !s.belongs core k l.id

/-- The places of a launch on a core, if the core qualifies. -/
def State.fits (s : State) (p : Pkt) (x : BitVec 512) (core : Nat) : Option Seat :=
  let ls := s.launchesOn core
  let seats := ls.filterMap fun l => (l.seat core).map fun t => (l, t)
  let c := s.core core
  let free := (List.range 14).filter fun k => (c.slot k).st == .free
  let ok := decide (p.strands ≤ free.length)
    && (extZones x).all (fun i => (c.zone i).isNone)
    && (p.fmt == 0 || s.noSlots core || c.dtag.toNat == p.fmt)
    && ls.all (fun l => l.almanac == p.almanac && !l.movement)
    && (extMovement x == 0 || (ls.isEmpty && (c.slot 15).st == .free))
  match ok, freePart (partBytes x) (seats.map fun lt => (lt.2.pbase, lt.2.lmsize)),
    freeRun p.dqcap (seats.map fun lt => (lt.2.dqBase, lt.1.dqcap)),
    freeRun p.arrDepth (seats.map fun lt => (lt.2.arrBase, lt.1.arrDepth)) with
  | true, some pb, some dq, some ar =>
    some { core := core, index := 0, pbase := pb, lmsize := partBytes x, dqBase := dq, top := 0, bottom := 0, frames := []
           arrBase := ar, spillHead := 0, spillTail := 0, sent := 0, recv := 0 }
  | _, _, _, _ => none

/-- How much the launch unit prefers a cluster for a queue's class: 0 first (R243). -/
def State.clusterRank (s : State) (c : Intensity) (cl : Nat) : Nat :=
  let rs := (s.launches.filter fun l => l.seats.any fun t => clusterOf t.core == cl).map (·.intensity)
  let all (i : Intensity) : Bool := !rs.isEmpty && rs.all (· == i)
  if (c = .compute ∧ all .memory) ∨ (c = .memory ∧ all .compute) then 0 else if all .balanced then 1 else 2

/-- The cores of a packet, in ascending number; none while it cannot be placed. -/
def State.chooseSeats (s : State) (q : Queue) (p : Pkt) (x : BitVec 512) : Option (List Seat) :=
  if p.pin then
    let seats := ((List.range p.cores).map fun i => extFirst x + i).filterMap (s.fits p x)
    if seats.length = p.cores then some seats else none
  else
    let ranked := [0, 1, 2].flatMap fun r => (List.range 128).filter fun cl => s.clusterRank q.cls cl == r
    let got := (ranked.flatMap fun cl => (List.range 8).filterMap fun i => s.fits p x (8 * cl + i)).take p.cores
    if got.length < p.cores then none else some ((List.range 1024).filterMap fun n => got.find? (·.core == n))

/-! ## Placement (R242) -/

/-- An entry of an Almanac profile (R78). -/
def profileEntry (profile k : Nat) : BitVec 9 :=
  let step := if profile = 1 then 0 else if profile = 2 then k % 2 else k
  let issue := if profile = 3 ∧ k % 8 ≤ 5 then k % 8 else k
  1#1 ++ BitVec.ofNat 4 step ++ BitVec.ofNat 4 issue

def profileTable (profile : Nat) : Vector (BitVec 9) 16 := Vector.ofFn fun (i : Fin 16) => profileEntry profile i.val

/-- Numbers of the words of local memory from one offset to another. -/
def lmWords (base n : Nat) : List Nat := (List.range (n / 8)).map (base / 8 + ·)

/-- A partition zeroed, every word full (R98). -/
def Core.clearPart (c : Core) (base n : Nat) : Core :=
  let out (w : Nat) : Bool := !decide (base / 8 ≤ w ∧ w < (base + n) / 8)
  { c with
    lm := c.lm.filter fun b => out (b.1 / 8), lmEmpty := c.lmEmpty.filter out, lmPoison := c.lmPoison.filter out }

/-- A core made ready for a launch: profile, decode table, partition with the local image, zones. -/
def State.prepare (s : State) (l : Launch) (x : BitVec 512) (img : List Byte) (table : Option (Sparse Half)) (t : Seat) :
    State :=
  let alone := (s.launchesOn t.core).isEmpty
  let bare := s.noSlots t.core
  let s := s.modCore t.core fun c =>
    let c := c.clearPart t.pbase t.lmsize
    let c := { c with lm := c.lm.wrBytes t.pbase (img.take t.lmsize) }
    let c := if alone then { c with alm := profileTable l.almanac, almNext := [] } else c
    let c := match table with
      | some m => if bare then { c with dtab := m, dtag := BitVec.ofNat 64 l.fmt } else c
      | none => c
    (extZones x).foldl (fun c i =>
      let v := word64 x i
      c.setZone i (some (zoneOf l.id (zdBase v) (zdLog v) (fld v 34 6) (zdCount v)))) c
  s

/-- A strand's registers at its start by a launch, which the manual does not give: free values. -/
def State.freeRegs (s : State) (core slot : Nat) : State :=
  let t := s.tick
  { s with tick := t + 33 }.modSlot core slot fun x =>
    { x with
      s := Vector.ofFn fun (i : Fin 32) => if i.val = 0 then 0 else Config.freeWord (t + i.val)
      p := (Config.freeWord (t + 32)).extractLsb' 0 8 }

/-- A strand started by a launch; poison in a capability kills it. -/
def State.launchStrand (s : State) (l : Launch) (core slot : Nat) (pc : Word) : State :=
  match (s.freeRegs core slot).startStrand core slot l pc with
  | (s, some dva) => s.killSlot core slot dva
  | (s, none) => s

/-- The general slots of a core that receive the initial strands: the part's own choice among the FREE ones. -/
def State.startSlots (s : State) (core n : Nat) : List Nat :=
  let free := (List.range 14).filter fun k => (s.slot core k).st == .free
  (free.mergeSort fun a b => decide (Config.placeRank core a ≤ Config.placeRank core b)).take n

/-- BATCH_SNAPSHOT (R244): the version of an entry, its data, then its version again, each read at the home in a turn of its own; an
entry whose version is even and has not changed is copied. What does not translate is left as it was. -/
def State.snapStep (s : State) (q : Nat) (r : BatchRun) : State :=
  let v := s.queue q
  let at' := v.batch + 64 * r.entry
  let put (s : State) (r : BatchRun) : State := s.setQueue q { s.queue q with snapRun := some r }
  let next (s : State) : State := put s ⟨r.entry + 1, none, none⟩
  match r.version, r.data with
  | none, _ =>
    match s.unitBytes v.asid at' 2 8 with
    | (s, some (bs, _)) =>
      let w : Word := BitVec.ofNat 64 (natOfBytes bs)
      if w.getLsbD 0 then next s else put s { r with version := some w }
    | (s, none) => next s
  | some _, none =>
    match s.unitBytes v.asid (at' + 8) 2 56 with
    | (s, some d) => put s { r with data := some d }
    | (s, none) => next s
  | some w, some (bs, poison) =>
    match s.unitBytes v.asid at' 2 8 with
    | (s, some (again, _)) =>
      if BitVec.ofNat 64 (natOfBytes again) = w then
        next (s.unitPut v.asid (v.snap + 64 * r.entry) (bytesOfNat 8 w.toNat ++ bs) poison 2)
      else next s
    | (s, none) => next s

/-- The snapshot that a packet needs is taken. -/
def Queue.snapped (v : Queue) : Bool := v.batch == 0 || v.snapRun.any fun r => r.entry == 256

/-- The local image of the packet of a queue with a count. -/
def imageKey (q count : Nat) : Nat := q * 2 ^ 32 + count

/-- A packet placed: the launch stands, its cores are made ready, its strands start. -/
def State.placeLaunch (s : State) (q count : Nat) (p : Pkt) (x : BitVec 512) (seats : List Seat) : State :=
  let v := s.queue q
  let seats := (List.range seats.length).filterMap fun i => (seats[i]?).map fun t => { t with index := i }
  let l : Launch :=
    { id := s.nextLaunch, queue := q, asid := v.asid, entry := p.entry, args := p.args, captab := p.captab, gens := []
      fmt := p.fmt, scl := p.scl, spill := p.spill, donew := p.donew, cls := p.cls, sage := BitVec.ofNat 2 p.sage
      arrDepth := p.arrDepth, dqcap := p.dqcap, almanac := p.almanac, steal := BitVec.ofNat 2 p.steal
      movement := extMovement x != 0, seats := seats, strands := 0, groups := 1, sageLost := false, sweep := none, lost := false, closing := false
      steps := 0, laneOps := 0, missed := 0, intensity := .balanced, vf := v.vf }
  let (s, table) := if p.fmt = 0 then (s, none) else s.readFmt v.asid p.fmt
  let img := Sparse.get [] s.images (imageKey q count)
  let s := seats.foldl (fun s t => s.prepare l x img table t) s
  let s := { s with launches := s.launches ++ [l], nextLaunch := s.nextLaunch + 1 }.setQueue q
    { s.queue q with latest := l.id, cls := .balanced }
  seats.foldl (fun s t =>
    let s := if extMovement x = 0 then s else s.launchStrand l t.core 15 (extMovement x)
    (s.startSlots t.core p.strands).foldl (fun s k => s.launchStrand ((s.launchById l.id).getD l) t.core k p.entry) s) s

/-- What the launch unit can do with a queue's head packet now: refuse it, or place it. -/
def State.headPlan (s : State) (q : Nat) : State × Option (Except Nat (BitVec 512 × List Seat)) :=
  let v := s.queue q
  match v.packets with
  | [] => (s, none)
  | (_, b) :: _ =>
    match s.packetCause v b with
    | (s, .error c) => (s, some (.error c))
    | (s, .ok x) => (s, (s.chooseSeats v (Pkt.of b) x).map fun seats => .ok (x, seats))

/-- A queue whose head packet can be dealt with. -/
def State.eligible (s : State) (q : Nat) : Bool := (s.headPlan q).2.isSome

/-- The level of a queue: its head packet's PRIORITY. -/
def Queue.level (v : Queue) : Nat := ((v.packets.head?).map fun b => (Pkt.of b.2).priority).getD 0

/-- The arbiter lets a queue go (R239): no eligible queue is of a higher level, and it has credit in its level's round, or no
eligible queue of the level has. -/
def State.arbiterLets (s : State) (q : Nat) : Bool :=
  let v := s.queue q
  let es := s.queues.filter fun kv => !kv.2.packets.isEmpty && s.eligible kv.1
  s.eligible q && es.all (fun kv => decide (kv.2.level ≤ v.level))
    && (decide (v.served < v.weight)
      || (es.filter fun kv => kv.2.level == v.level).all fun kv => decide (kv.2.weight ≤ kv.2.served))

/-- A packet served in the current round of a level; a round that is used up starts again. -/
def State.countServed (s : State) (q : Nat) : State :=
  let v := s.queue q
  if v.served < v.weight then s.setQueue q { v with served := v.served + 1 }
  else
    let fresh (w : Queue) : Queue := if w.level = v.level then { w with served := 0 } else w
    let s := { s with queues := s.queues.map fun (kv : Nat × Queue) => (kv.1, fresh kv.2) }
    s.setQueue q { s.queue q with served := 1 }

/-- The head packet of a queue taken off it. -/
def State.takeHead (s : State) (q : Nat) : State :=
  let s := s.countServed q
  s.setQueue q { s.queue q with packets := (s.queue q).packets.tail, snapRun := none }

/-- The local image of a packet that has been dealt with is no longer kept. -/
def State.dropImage (s : State) (q count : Nat) : State := { s with images := s.images.erase (imageKey q count) }

/-- LAUNCH_PLACEMENT: the head packet refused, or its batch snapshot taken a turn further, or placed. -/
def State.launchHead (s : State) (q : Nat) : State :=
  if !s.arbiterLets q then s
  else
    match s.headPlan q with
    | (s, none) => s
    | (s, some plan) =>
      let v := s.queue q
      let (count, b) := (v.packets.head?).getD (0, 0)
      let p := Pkt.of b
      match plan with
      | .error cause => ((s.takeHead q).dropImage q count).completeLaunch v.asid p.donew 1 cause
      | .ok (x, seats) =>
        if !v.snapped then s.snapStep q (v.snapRun.getD ⟨0, none, none⟩)
        else ((s.takeHead q).placeLaunch q count p x seats).dropImage q count

def execLaunchPlacement (q : Nat) (s : State) : Out := .next (s.launchHead q)

/-! ## The classifier (R243) -/

/-- CLASSIFIER_WINDOW: the class of a launch from the work of its window, and that of its queue if it is the queue's latest; a window
without work leaves both (log entry 44). -/
def State.classify (s : State) (id : Nat) : State :=
  match s.launchById id with
  | none => s
  | some l =>
    let work := 2048 * l.steps + l.laneOps
    let cls := if 64 * l.missed ≤ work then Intensity.compute else if 8 * l.missed ≤ work then .balanced else .memory
    let s := s.modLaunch id fun l => { l with steps := 0, laneOps := 0, missed := 0 }
    if work = 0 ∧ l.missed = 0 then s
    else
      let s := s.modLaunch id fun l => { l with intensity := cls }
      if (s.queue l.queue).latest = id then s.setQueue l.queue { s.queue l.queue with cls := cls } else s

def execClassifierWindow (launch : Nat) (s : State) : Out := .next (s.classify launch)

/-! ## The end of a launch (R93, R98, R230, R241, R263) -/

/-- A slot of a core holds a strand of a launch, lent contexts included. -/
def Slot.holds (x : Slot) (id : Nat) : Bool := (x.st != .free && x.launch == some id) || (x.lentTag != 0 && x.lentLaunch == some id)

/-- A core is idle for a launch (R93). -/
def State.idle (s : State) (core id : Nat) : Bool :=
  let c := s.core core
  !((List.range 15).any fun k => (c.slot k).holds id)
    && !c.msgs.any (·.launch == id) && !c.arrivals.any (·.launch == id)
    && !(List.range 16).any (fun k => (c.slot k).matQ.any (·.launch == id) || (c.slot k).copyQ.any (·.launch == id))
    && !(c.copyRun.any fun r => r.cmd.launch == id) && !c.ended.any (·.launch == id)

/-- A launch leaves its cores: the movement strand, zones, partitions, deque and arrival places. -/
def State.leaveCores (s : State) (l : Launch) : State :=
  let s := l.seats.foldl (fun s t =>
    let s := if (s.slot t.core 15).holds l.id then s.freeSlot t.core 15 else s
    (s.endZones t.core l.id).modCore t.core fun c =>
      let c := c.clearPart t.pbase t.lmsize
      { c with msgs := c.msgs.filter (·.launch != l.id), arrivals := c.arrivals.filter (·.launch != l.id) }) s
  { s with
    launches := s.launches.filter (·.id != l.id), packets := s.packets.filter (·.launch != l.id)
    records := s.records.filter (·.launch != l.id) }

/-- A launch that is not being aborted and no packets or records of are lost, idle on every core, with S = R: the sum, else none. -/
def State.sweepOf (s : State) (l : Launch) : Option Nat :=
  let sent := (l.seats.map (·.sent)).sum
  let recv := (l.seats.map (·.recv)).sum
  if !l.lost && !l.closing && sent == recv && l.seats.all fun t => s.idle t.core l.id then some sent else none

/-- Copies of a launch are still queued, run, or have a word to deliver on a core. -/
def State.copiesOn (s : State) (core id : Nat) : Bool :=
  let c := s.core core
  (List.range 16).any (fun k => (c.slot k).copyQ.any (·.launch == id)) || (c.copyRun.any fun r => r.cmd.launch == id)
    || c.ended.any (·.launch == id)

/-- A store that was accepted and is still to be performed in a partition: an STG on its way, or a store in a core's path. -/
def State.storesTo (s : State) (t : Seat) : Bool :=
  let in' (l : Loc) : Bool := match l with
    | .lm c o => c == t.core && decide (t.pbase ≤ o ∧ o < t.pbase + t.lmsize)
    | _ => false
  s.stgs.any (fun g => in' g.loc) || s.cores.any fun kc => kc.2.path.any fun p => in' p.loc

/-- An aborted launch leaves its cores once its accepted copies, and the stores accepted for its partitions, have run to completion:
ABORTED (R241, R263). -/
def State.closeLaunch (s : State) (l : Launch) : State :=
  if l.seats.any fun t => s.copiesOn t.core l.id || s.storesTo t then s
  else (s.leaveCores l).completeLaunch l.asid l.donew 2 0

/-- EQUINOX_SWEEP: a launch ends at the second of two matching sweeps; one that is being aborted, when its copies have ended. -/
def State.sweepAll (s : State) : State :=
  s.launches.foldl (fun s l =>
    let now := s.sweepOf l
    if l.closing then s.closeLaunch l
    else if now.isSome ∧ now = l.sweep then (s.leaveCores l).completeLaunch l.asid l.donew 0 0
    else s.modLaunch l.id fun l => { l with sweep := now }) s

def execEquinoxSweep (s : State) : Out := .next s.sweepAll

/-- A command whose context is gone: its result word is taken by no slot any more. -/
def CopyCmd.unpopped (m : CopyCmd) : CopyCmd :=
  { m with comp := { m.comp with kind := if m.comp.kind = 0 then 3 else m.comp.kind, ctx := 0 } }

/-- A slot's strand killed without a notification, and the slot set FREE, whose queued copies run on (R263). -/
def State.killQuiet (s : State) (core slot : Nat) : State :=
  let n := s.notices
  let lost := s.noticesLost
  let copies := (s.slot core slot).copyQ.map fun m => if m.comp.lent then m else m.unpopped
  let order := (s.core core).copyOrd
  let s := s.modSlot core slot fun x => { x with coupled := false }
  let jobs := s.jobs.length
  let s := s.killSlot core slot 0
  let quiet := (s.jobs.drop jobs).map fun j => { j with kill := false }
  let s := { s with notices := n, noticesLost := lost, jobs := s.jobs.take jobs ++ quiet }
  (s.modSlot core slot fun x => { x with st := .free, copyQ := copies }).modCore core fun c => { c with copyOrd := order }

/-- The parked context that a lent slot owes a launch is gone, its matrix operations and the odd slot of its gang with it; its copies run
on. -/
def State.dropLent (s : State) (core slot id : Nat) : State :=
  let x := s.slot core slot
  if x.lentTag ≠ 0 ∧ x.lentLaunch = some id then
    let s := if x.lentVec.any (·.gang) then s.freeOdd core slot else s
    (s.modSlot core slot fun x =>
      { x with
        lentTag := 0, lentLaunch := none, lentVec := none, lentHeld := none
        matQ := x.matQ.filter fun m => !m.comp.lent
        copyQ := x.copyQ.map fun m => if m.comp.lent then m.unpopped else m }).moveStgs (.parked core slot) .ended
  else s

/-- A launch aborted: strands killed, their slots FREE; what comes to its cores from now on is discarded; zones and partitions are
given back and ABORTED is written once its accepted copies have run. -/
def State.abort (s : State) (id : Nat) : State :=
  match s.launchById id with
  | none => s
  | some l =>
    let s := { s with couples := s.couples.filter fun c => (s.slot c.leader c.slot).launch != some id }
    let s := l.seats.foldl (fun s t => (List.range 16).foldl (fun s k =>
      let x := s.slot t.core k
      let s := if x.st != .free && x.st != .ganged && x.launch == some id then s.killQuiet t.core k else s
      s.dropLent t.core k id) s) s
    let s := l.seats.foldl (fun s t => s.modCore t.core fun c =>
      { c with msgs := c.msgs.filter (·.launch != id), arrivals := c.arrivals.filter (·.launch != id) }) s
    let bare (t : Seat) : Seat := { t with frames := [], top := t.bottom, spillHead := t.spillTail }
    (s.modLaunch id fun l => { l with closing := true, seats := l.seats.map bare }).closeLaunch l

def execAbortLaunch (launch : Nat) (s : State) : Out := .next (s.abort launch)

/-- The physical functions of the two ports, as the model numbers the functions: 0 and 511 (log entry 13). -/
def isPf (f : Nat) : Bool := f == 0 || f == 511

/-- FUNCTION_LEVEL_RESET: the VF's queues are disabled, its launches aborted. -/
def State.resetVf (s : State) (vf : Nat) : State :=
  if isPf vf ∨ 511 < vf then s
  else
  let s := { s with queues := s.queues.map fun (kv : Nat × Queue) => (kv.1, if kv.2.vf = vf then kv.2.disable else kv.2) }
  (s.launches.filter fun (l : Launch) => l.vf == vf).foldl (fun (s : State) (l : Launch) => s.abort l.id) s

def execFunctionLevelReset (vf : Nat) (s : State) : Out := .next (s.resetVf vf)

/-! ## Fills, descriptors, tenants (R237, R245, R250, R251) -/

/-- A write to a fill aperture, which has 128 KiB: the tail word of the queue is written and filled, as STFA does; one that reaches no
queue of the function is discarded and counted. Before the part is ready it is discarded (R262). -/
def State.apertureWrite (s : State) (vf offset : Nat) (data : Word) : State :=
  let q := offset / 8
  let v := s.queue q
  let drop (s : State) : State := { s with discarded := s.discarded + 1 }
  match s.boot with
  | .failed _ | .starting _ => s
  | .ready =>
    if offset % 8 ≠ 0 ∨ 131072 ≤ offset ∨ 511 < vf ∨ (!isPf vf ∧ v.vf ≠ vf) then drop s
    else
      match s.xlateUnit v.asid v.tail false true with
      | (s, some l) => s.fill 0 l data (s.pasidFor v.asid)
      | (s, none) => drop s

def execFillApertureWrite (vf : Nat) (offset : Nat) (data : Word) (s : State) : Out := .next (s.apertureWrite vf offset data)

/-- A descriptor written; a queue that is enabled anew starts from count 0. There are 16,384 queues (R14, R237). -/
def State.writeDescriptor (s : State) (q : Nat) (desc : BitVec 512) : State :=
  let v := s.queue q
  let w : Queue := { v with desc := desc }
  if 16384 ≤ q then s
  else s.setQueue q (if w.on && !v.on then { w with head := 0, upTo := 0, packets := [], snapRun := none, served := 0 }
    else if w.on then w else w.disable)

def execWriteQueueDescriptor (q : Nat) (desc : BitVec 512) (s : State) : Out := .next (s.writeDescriptor q desc)

/-- VFs are numbered 1–255 on port 0 and 256–510 on port 1; a number past them names none (R250). -/
def execBindQueueToVf (q vf : Nat) (s : State) : Out :=
  .next (if vf ≤ 510 ∧ q < 16384 then s.setQueue q { s.queue q with vf := vf } else s)

/-- A tenant's areas; its formula table is empty (R200, R245). There are 4,096 ASIDs (R14, R245). -/
def State.setAreas (s : State) (asid : Nat) (areas : TenantAreas) : State :=
  if 4096 ≤ asid then s
  else
  { s with
    tenants := s.tenants.put asid { Tenant.reset with areas := areas }
    formulas := s.formulas.filter fun kv => kv.1 / 16 != asid }

def execSetTenantAreas (asid : Nat) (areas : TenantAreas) (s : State) : Out := .next (s.setAreas asid areas)

/-- The root of an address space (R103). -/
def execSetAsidRoot (asid : Nat) (root : Option Nat) (s : State) : Out :=
  .next (if 4096 ≤ asid then s
    else { s with roots := match root with
      | some r => s.roots.put asid r
      | none => s.roots.erase asid })

/-! ## The vendor's movement routine (R92) -/

/-- The launch that a request word is served for: that of the slot it names, or else the first on the core. -/
def State.requestLaunch (s : State) (core : Nat) (w : Word) : Option Launch :=
  (s.launchOf (s.slot core (fld w 28 4))) <|> (s.launchesOn core).head?

/-- The vendor's routine has a request to take on a core: no launch with a movement strand of its own, a full request word, room in
the queue, and nothing that EPUSH, a release, would wait for. -/
def State.vendorDue (s : State) (core : Nat) : Bool :=
  !s.pathOut core 15 s.cc && (s.slot core 15).st == .free && !(s.launchesOn core).isEmpty && !(s.launchesOn core).any (·.movement) && (s.fullMb core).isSome
    && !(s.slot core 15).inputFull true

/-- The copy of a request pushed for slot 15, as EPUSH does; a block that is not valid is dropped. `fuel` walks serve TLB
misses. -/
def State.vendorPush (s : State) (core : Nat) (l : Launch) (tag : BitVec 32) : Nat → State
  | 0 => s
  | fuel + 1 =>
    match s.pushCopy 3 with
    | .ok t => t.modSlot core 15 fun x => { x with copyQ := x.copyQ.dropLast ++ (x.copyQ.getLast?.toList.map fun m =>
        { m with comp := { m.comp with tag := tag } }) }
    | .error (.walk asid dva kind) =>
      match s.xlateNow core asid dva kind.reads kind.writes with
      | (s, .ok _) => s.vendorPush core l tag fuel
      | (s, .error _) => s
    | .error _ => s

/-- One turn of the vendor's routine: a gathered take, then the copy its descriptor asks for. -/
def State.vendorTurn (s : State) (core : Nat) : State :=
  match s.fullMb core with
  | none => s
  | some o =>
    let w := s.rdWord (.lm core o)
    let s := ((s.setFull (.lm core o) false).countTake core o).serve (.lm core o)
    match s.requestLaunch core w with
    | none => s
    | some l =>
      if fld w 24 4 ≠ 0 then s
      else
        match s.loadCaps core l (List.range 8) with
        | (s, caps, _) =>
          let s := s.modSlot core 15 fun x =>
            { x with launch := some l.id, c := Vector.ofFn fun (i : Fin 8) => caps.getD i.val 0 }
          let back := s.lat
          let s := { s with
            curCore := core, curSlot := 15
            lat := { s.lat with s := s.lat.s.set 3 (BitVec.ofNat 64 (fld w 0 19)) } }
          let s := s.vendorPush core l (w.extractLsb' 32 32) 16
          ({ s with lat := back }).modSlot core 15 fun x => { x with launch := none }

end Sys2Proof.Machine
end

