-- ==== Sys2Proof/Machine/Mgmt.lean ====
section
/-!
DEFINITION. Management and housekeeping (spec/16–18: R114, R235, R246, R247, R250, R253–R262): settings, key slots, DRAM
batches, evictions, power, ageing, attestation, cold reset, and what the supervisor and ramdb do to slots (R175, R181, R186,
R187).
-/
namespace Sys2Proof.Machine

open Sys2Proof

/-! ## Settings (R114, R235, R246, R247, R256, R259) -/

/-- The settings of one of the 64 service classes (R14). -/
def State.modClass (s : State) (cls : Nat) (f : ClassCfg → ClassCfg) : State :=
  if 64 ≤ cls then s
  else { s with classes := s.classes.put cls (f (s.classCfg cls)) }

def execSetWayMasks (cls : Nat) (llc : BitVec 32) (l2 : BitVec 16) (s : State) : Out :=
  .next (s.modClass cls fun c => { c with llcMask := llc, l2Mask := l2 })

def execSetDramCap (cls cap : Nat) (s : State) : Out := .next (s.modClass cls fun c => { c with cap := cap })

def execSetVcWeights (cls w0 w2 w4 w3 : Nat) (s : State) : Out :=
  .next (s.modClass cls fun c => { c with weights := [w0, w2, w4, w3] })

/-- One of the key slots 1–255 rewritten: lines written under the old key fail their MAC from now on. Slot 0 cannot be rewritten
(R256). -/
def execWriteKeySlot (k key : Nat) (s : State) : Out :=
  .next (if k = 0 ∨ 255 < k then s else { s with keys := s.keys.put k ⟨key, (s.keySlot k).version + 1⟩ })

/-- The table has an entry for each of the 256 devices, and a link is one of 16; a link number past them leaves its half not valid
(R10, R235). -/
def execWriteRouteEntry (dev : Nat) (primary alternate : Option Nat) (s : State) : Out :=
  .next (if 256 ≤ dev then s
    else { s with routes := s.routes.put dev ⟨primary.filter (· < 16), alternate.filter (· < 16)⟩ })

/-! ## DRAM scheduling (R247) -/

def State.dram (s : State) (ctl : Nat) : Dram := s.hier.drams[ctl]?.getD ⟨[], [], []⟩

/-- The transfers of a class in a 1 µs window at its cap: 64ths of 3,276.8 GB/s in lines of 128 bytes (R15). -/
def capLines (cap : Nat) : Nat := 400 * cap

/-- A class has reached its cap in the current window. -/
def State.atCap (s : State) (d : Dram) (cls : Nat) : Bool :=
  decide (capLines (s.classCfg cls).cap ≤ Sparse.get 0 d.used cls)

/-- Requests marked, oldest first: at most 8 of a source in a bank, none of a class at its cap. -/
def State.markFrom (s : State) (d : Dram) (done : List DramReq) : List DramReq → List DramReq
  | [] => done
  | r :: rest =>
    let same := done.countP fun q => q.marked && q.cluster == r.cluster && q.cls == r.cls && q.bank == r.bank
    s.markFrom d (done ++ [{ r with marked := decide (same < 8) && !s.atCap d r.cls }]) rest

/-- DRAM_BATCH_MARK: a new batch, when no batch is open. -/
def execDramBatchMark (ctl : Nat) (s : State) : Out :=
  let d := s.dram ctl
  .next (if d.reqs.any (·.marked) then s
    else { s with hier := { s.hier with drams := s.hier.drams.setIfInBounds ctl { d with reqs := s.markFrom d [] d.reqs } } })

/-- One request of an open batch served: a row hit of its bank first, else the oldest. -/
def Dram.serve (d : Dram) : Dram :=
  let marked := d.reqs.filter (·.marked)
  let hit (r : DramReq) : Bool := (d.rows.find? fun (kv : Nat × Nat) => kv.1 == r.bank).any fun kv => kv.2 == r.row
  match (marked.find? hit) <|> marked.head? with
  | none => d
  | some r =>
    ⟨d.reqs.erase r, d.used.put r.cls (Sparse.get 0 d.used r.cls + 1), d.rows.put r.bank r.row⟩

/-- Every controller serves one request of its batch. -/
def State.serveDrams (s : State) : State := { s with hier := { s.hier with drams := s.hier.drams.map Dram.serve } }

/-- DRAM_CAP_WINDOW: a new window of 1 µs. -/
def execDramCapWindow (s : State) : Out :=
  .next { s with hier := { s.hier with drams := s.hier.drams.map fun (d : Dram) => { d with used := [] } } }

/-- LLC_EVICTION (R112, R253): a dirty line is written back, encrypted under its counter, which moves on. -/
def execLlcEviction (line : Nat) (s : State) : Out := .next (s.evict line)

/-! ## The host (R250) -/

/-- ATS_INVALIDATION: translations of the range are no longer kept by the ports. -/
def execAtsInvalidation (base len : Nat) (s : State) : Out :=
  .next { s with ports := s.ports.map fun (p : Port) =>
    { p with ats := p.ats.filter fun (r : AtsEntry) => !overlaps r.base r.len base len } }

/-- The port of a VF: VFs 1–255 are port 0's, 256–510 port 1's. -/
def vfPort (vf : Nat) : Nat := if vf ≤ 255 then 0 else 1

/-- A port changed. -/
def State.modPort (s : State) (n : Nat) (f : Port → Port) : State :=
  { s with ports := s.ports.setIfInBounds n (f (s.ports[n]?.getD ⟨[], [], []⟩)) }

/-- A VF of 1–510 changed; other numbers name none. -/
def State.modVf (s : State) (vf : Nat) (f : Vf → Vf) : State :=
  if vf = 0 ∨ 510 < vf then s
  else s.modPort (vfPort vf) fun p => { p with vfs := p.vfs.put vf (f (Sparse.get ⟨[], false⟩ p.vfs vf)) }

/-- An atomic of the host on a word of host memory: what it finds, and what it writes if it writes (R252). -/
def HostAtomic.apply (op : HostAtomic) (n old : Nat) : Option Nat :=
  match op with
  | .add v => some ((old + v) % 2 ^ (8 * n))
  | .swap v => some (v % 2 ^ (8 * n))
  | .cas expect new => if old = expect then some (new % 2 ^ (8 * n)) else none

/-- The sizes that an AtomOp has: FetchAdd and Swap 32 and 64 bits, CAS 32, 64 and 128 (R250). -/
def HostAtomic.sized : HostAtomic → Nat → Bool
  | .add _, n | .swap _, n => n == 4 || n == 8
  | .cas .., n => n == 4 || n == 8 || n == 16

/-- A host's atomic performed: one with respect to every other atomic on the location (R252). -/
def State.hostAtomic (s : State) (pa n : Nat) (op : HostAtomic) : State :=
  if !op.sized n || pa % n != 0 then s
  else
    let old := natOfBytes (s.mem.rdBytes pa n)
    match op.apply n old with
    | some v => s.homeWrite 0 (.mem pa false 0 0) (bytesOfNat n v) false
    | none => s

/-- An AtomicOp of the host on a fill aperture, which the port completes: the aperture reads as all ones, and what the operation writes is a
write of its 8 bytes; one of another size, or not a FetchAdd, Swap or CAS of 64 bits, is discarded and counted (R250, R251; DESIGN CHOICE;
log entry 96). -/
def State.apertureAtomic (s : State) (vf offset n : Nat) (op : HostAtomic) : State :=
  let ones : Word := BitVec.allOnes 64
  let s := if n = 8 ∧ op.sized 8 then
      match op.apply 8 ones.toNat with
      | some v => s.apertureWrite vf offset (BitVec.ofNat 64 v)
      | none => s
    else { s with discarded := s.discarded + 1 }
  { s with hostGot := s.hostGot ++ [ones] }

/-- The loader's bytes written and filled, as STFA does, under the T, CLASS and KEY of their page (R45, R219). The manual does not say
through which port the loader writes, which R247 tells a DRAM request by: cluster 0's (DESIGN CHOICE; log entry 52). -/
def State.loaderWrite (s : State) (pa : Nat) (a : Attr) (bs : List Byte) : State :=
  (touched pa bs.length).foldl (fun (s : State) w =>
    let l : Loc := .mem (8 * w) a.tree a.cls a.key
    (s.setFull l true).serve l) (s.homeWrite 0 (.mem pa a.tree a.cls a.key) bs false)

/-! ## DRAM behind the package's back (R254) -/

/-- A line altered or replayed. A MAC of the current counter or a later one that the home dies did not make cannot be had without the key,
so that one counts as altered: only what was sealed under an older counter stands as it is (DESIGN CHOICE; log entry 97). -/
def State.alterLine (s : State) (line : Nat) (d : DramLine) : State :=
  let c := s.hier.counter 0 (line / 64)
  let older := decide (d.mac.major < c.major) || (d.mac.major == c.major && decide (d.mac.minor < c.minor line))
  let d := if older || d == s.hier.dramLine line then d else { d with mac := { d.mac with line := line + 1 } }
  { s with hier := { s.hier with lines := s.hier.lines.put line d } }

/-- A counter block or tree node altered or replayed, in the same way; the top level is on chip and cannot be. -/
def State.alterMeta (s : State) (key : Nat) (m : MetaLine) : State :=
  let level := key / 2 ^ 40
  let i := key % 2 ^ 40
  let up := s.hier.counter (level + 1) (i / 64)
  let older := decide (m.major < up.major) || (m.major == up.major && decide (m.minor < up.minor i))
  let m := if older || m == s.hier.stored level i then m
    else { m with mac := { m.block with major := m.block.major + 1 } }
  if 4 ≤ level then s else { s with hier := { s.hier with carve := s.hier.carve.put key m } }

/-! ## Power (R261) -/

/-- The clock after the mean of 1 ms, in 5% steps of nominal: down to 8 steps above the cap; up to 20 while 3% below it. -/
def powerStep (cap clock total : Nat) : Nat :=
  if 10 * cap < total then max 8 (clock - 1)
  else if 100 * total ≤ 970 * cap then min 20 (clock + 1)
  else clock

/-- POWER_SAMPLE: every 100 µs; the tenth of 1 ms decides. -/
def execPowerSample (watts : Nat) (s : State) : Out :=
  .next (
    let l := s.samples ++ [watts]
    if l.length < 10 then { s with samples := l }
    else
      let clock := powerStep s.powerCap s.clock l.sum
      let s' : State := { s with samples := [], clock := clock }
      if clock < s.clock then s'.notify 7 0 else s')

/-- The cap is 600 W to 3,200 W (R261). -/
def execSetPowerCap (watts : Nat) (s : State) : Out :=
  .next (if 600 ≤ watts ∧ watts ≤ 3200 then { s with powerCap := watts } else s)

/-! ## Ageing monitors (R260) -/

/-- A summary word: EOLH [63:40], all ones above 16,777,214; WORST [39:32]; WARN [0]. -/
def ageingWord (eolh worst : Nat) (warn : Bool) : Word :=
  BitVec.ofNat 24 (min eolh 0xFFFFFF) ++ BitVec.ofNat 8 worst ++ (0#31 ++ (if warn then 1#1 else 0#1))

/-- AGEING_SENSOR_UPDATE of one of the twelve dies and its 64 sensors: EOLH that falls below the threshold sets WARN and notifies. -/
def execAgeingSensorUpdate (die eolh worst : Nat) (s : State) : Out :=
  let old := s.ageing[die]?.getD 0
  let below := decide (eolh < s.eolhMin)
  let fell := below && decide (s.eolhMin ≤ fld old 40 24)
  let s' : State := { s with ageing := s.ageing.setIfInBounds die (ageingWord eolh worst (old.getLsbD 0 || fell)) }
  .next (if 12 ≤ die ∨ 64 ≤ worst then s else if fell then s'.notify 6 die else s')

/-- A sensor's raw delay shift and temperature, and a read of them at the management interface. -/
def State.setSensor (s : State) (die n shift temp : Nat) : State :=
  if die < 12 ∧ n < 64 then { s with sensors := s.sensors.put (64 * die + n) (shift, temp) } else s
def State.readSensor (s : State) (die n : Nat) : State :=
  let v := Sparse.get (0, 0) s.sensors (64 * die + n)
  { s with hostGot := s.hostGot ++ [BitVec.ofNat 64 v.1, BitVec.ofNat 64 v.2] }

def execSetAgeingThreshold (hours : Nat) (s : State) : Out := .next { s with eolhMin := hours }

/-- A write to a summary word: WARN is W1C, the rest read-only or reserved. -/
def execAgeingWarnClear (die : Nat) (data : Word) (s : State) : Out :=
  .next { s with ageing := s.ageing.setIfInBounds die ((s.ageing[die]?.getD 0) &&& ~~~(data &&& 1#64)) }

/-! ## Boot and attestation (R257, R258, R262) -/

/-- The first failure of boot verification: 1 the signature, or a public key whose hash is not the fused one; 2 the security
version. -/
def bootCause (image signature : List Byte) (version : Nat) : Option Nat :=
  let key := Config.imageKey image
  if Config.sha512 key ≠ Config.fusedHash ∨ !Config.ecdsaVerify key (Config.sha512 image) signature then some 1
  else if version < Config.rollback then some 2
  else none

/-- COLD_RESET, step 1 of bring-up: verification. Any failure holds the part in reset; otherwise the identity key is derived, and
the other steps follow. -/
def State.coldReset (s : State) (image signature : List Byte) (version : Nat) : State :=
  let s := { s with issuing := false, turns := [] }
  match bootCause image signature version with
  | some cause => { s with boot := .failed cause }
  | none =>
    { s with measured := Config.sha512 image, identity := Config.identityKey (Config.sha512 image), boot := .starting 2 }

def execColdReset (image signature : List Byte) (version : Nat) (s : State) : Out :=
  .next (s.coldReset image signature version)

/-- Step 2: every line of device memory and local memory scrubbed to zero; every word full but mb0–mb3. -/
def State.scrub (s : State) : State :=
  { s with
    mem := s.mem.filter fun (c : Host.Cell) => hostPa c.1
    memEmpty := s.memEmpty.filter fun w => hostPa (8 * w), memPoison := s.memPoison.filter fun w => hostPa (8 * w)
    hier := Hier.reset, shadow := [], shadowOf := []
    cores := s.cores.map fun kc => (kc.1, { kc.2 with
      lm := Core.reset.lm, lmEmpty := Core.reset.lmEmpty, lmPoison := Core.reset.lmPoison }) }

/-- The routes that link discovery finds (R235). -/
def State.discovered (s : State) : Sparse Route :=
  (List.range 256).filterMap fun d =>
    let r := Config.route s.tick d
    if r.1.isNone && r.2.isNone then none else some (d, ⟨r.1.map (·.val), r.2.map (·.val)⟩)

/-- Step 4: every queue disabled, every slot FREE, every zone absent; host memory, the outside's inputs, links and routes, and what
verification measured, stay. -/
def State.clearAll (s : State) : State :=
  { State.reset with
    device := s.device, tick := s.tick, inputs := s.inputs, mem := s.mem, memEmpty := s.memEmpty, memPoison := s.memPoison
    links := s.links, routes := s.routes, measured := s.measured, identity := s.identity, hostGot := s.hostGot, boot := s.boot }

/-- One step of bring-up after verification: the scrub, link training and discovery, the clearing of queues, slots and zones; then
the part reports ready (R262). -/
def State.bringUp (s : State) (n : Nat) : State :=
  if n = 2 then { s.scrub with boot := .starting 3 }
  else if n = 3 then
    { s with tick := s.tick + 1, links := State.reset.links, routes := s.discovered, boot := .starting 4 }
  else if n = 4 then { s.clearAll with boot := .starting 5 }
  else { s with boot := .ready }

/-- Bytes of a list with its length before it. -/
def counted (bs : List Byte) : List Byte := bytesOfNat 8 bs.length ++ bs

/-- The management configuration (R259) as attestation reports it: classes, routes, queue descriptors and their VFs, tenants'
areas, roots, versions of key slots, breakpoints, power cap and ageing threshold. -/
def State.configuration (s : State) : List Byte :=
  counted (s.classes.flatMap fun (kc : Nat × ClassCfg) =>
      bytesOfWords (kc.1 :: kc.2.llcMask.toNat :: kc.2.l2Mask.toNat :: kc.2.cap :: kc.2.weights))
    ++ counted (s.routes.flatMap fun (kr : Nat × Route) => bytesOfWords [kr.1, kr.2.primary.getD 256, kr.2.alternate.getD 256])
    ++ counted (s.queues.flatMap fun (kq : Nat × Queue) => bytesOfWords [kq.1, kq.2.vf] ++ bytesOfNat 64 kq.2.desc.toNat)
    ++ counted (s.tenants.flatMap fun (kt : Nat × Tenant) =>
      let a := kt.2.areas
      bytesOfWords [kt.1, a.faultQueue, a.faultSize, a.parkedArea, a.vectorArea, a.groupTable, a.groupLog, a.raceRing, a.raceSize])
    ++ counted (s.roots.flatMap fun (kr : Nat × Nat) => bytesOfWords [kr.1, kr.2])
    ++ counted (s.keys.flatMap fun (kk : Nat × KeySlot) => bytesOfWords [kk.1, kk.2.version])
    ++ counted (s.breakpoints.flatMap fun (b : Breakpoint) => bytesOfWords [b.n, b.dva, b.core.getD 1024])
    ++ bytesOfWords [s.powerCap, s.eolhMin]

/-- The TDISP interfaces, one for each VF that has been set up: the VF, whether it is assigned as a TEE device, its PASIDs, and the IDE
streams of its port. -/
def State.interfaces (s : State) : List (List Byte) :=
  s.ports.toList.flatMap fun (p : Port) =>
    p.vfs.map fun (kv : Nat × Vf) =>
      bytesOfWords [kv.1, bit kv.2.tee 0] ++ counted (kv.2.pasids.flatMap fun (ka : Nat × BitVec 20) => bytesOfWords [ka.1, ka.2.toNat])
        ++ counted (p.ide.flatMap fun (ki : Nat × IdeStream) => bytesOfWords [ki.1, bit ki.2.wholeLink 0])

/-- The measurements that attestation reports (R258): of the boot ROM, the firmware, the management configuration and each TDISP
interface. -/
def State.measurements (s : State) : List (List Byte) :=
  [Config.bootRom, s.measured, Config.sha512 s.configuration] ++ s.interfaces.map Config.sha512

/-- What attestation signs (R258): the nonce and the measurements. -/
def State.evidence (s : State) (nonce : Nat) : List Byte := bytesOfNat 32 nonce ++ s.measurements.flatMap counted

def execSpdmAttestation (nonce : Nat) (s : State) : Out :=
  .next { s with reports := s.reports ++ [⟨nonce, s.measurements, Config.sign s.identity (s.evidence nonce)⟩] }

/-! ## The command ring (R259) -/

/-- The instructions that are commands of the PF's command ring. -/
def isCommand : Instr → Bool
  | .setWayMasks .. | .setDramCap .. | .setVcWeights .. | .writeKeySlot .. | .writeRouteEntry .. | .writeQueueDescriptor ..
  | .setTenantAreas .. | .setAsidRoot .. | .setPowerCap .. | .takeLinkDown .. | .retrainLink .. | .supervisorPreempt ..
  | .releaseKilledSlot .. | .abortLaunch .. | .injectPreempt .. | .injectEcc .. | .setBreakpoint .. | .setAgeingThreshold ..
  | .bindQueueToVf .. => true
  | _ => false

/-- The commands that come by the ring alone: those of the settings that R259 lists. -/
def ringOnly : Instr → Bool
  | .setWayMasks .. | .setDramCap .. | .setVcWeights .. | .writeKeySlot .. | .writeRouteEntry .. | .writeQueueDescriptor ..
  | .setTenantAreas .. | .injectPreempt .. | .injectEcc .. | .setBreakpoint .. => true
  | _ => false

/-- The oldest command of a port's ring takes effect, and completes in its own completion word, whose contents the manual does not
give. -/
def State.takeCommand (s : State) (ex : Instr → State → State) (port : Nat) : State :=
  match s.commands.find? (·.1 == port) with
  | none => s
  | some c =>
    let (t, s) := (ex c.2.1 { s with commands := s.commands.erase c }).fresh
    s.homeWrite 0 (.mem c.2.2 false 0 0) (bytesOfNat 8 (Config.completionWord t).toNat) false

/-- A code of `Slot.regPoison`: s1–s31, p1–p7, c0–c7, or a vector register's 16 lanes of the slot. -/
def poisonCode (reg : Nat) : Bool :=
  decide ((1 ≤ reg ∧ reg < 32) ∨ (33 ≤ reg ∧ reg < 48) ∨ (64 ≤ reg ∧ reg < 96))

/-- Poison in a register of a slot that holds a strand; the odd slot of a gang holds vector lanes alone (R81, R186). -/
def State.poisonReg (s : State) (core slot reg : Nat) : State :=
  s.modSlot core slot fun x =>
    if x.st = .free ∨ x.st = .killed ∨ (x.st = .ganged ∧ reg < 64) ∨ !poisonCode reg then x
    else { x with regPoison := setInsert x.regPoison reg }

/-! ## The supervisor and ramdb at slots (R175, R181, R186, R187) -/

/-- The slot whose strand a request against a slot meets: the even one of a gang. -/
def State.strandSlot (s : State) (core slot : Nat) : Nat :=
  if (s.slot core slot).st = .ganged ∧ slot % 2 = 1 then slot - 1 else slot

/-- A slot holds a strand that may be pre-empted. -/
def SlotState.holdsStrand : SlotState → Bool
  | .ready | .reply | .parked | .faulted => true
  | .free | .saved | .ganged | .killed => false

/-- A pre-emption request raised: dropped for slot 14, merged with one that stands. One against a SAVED slot, whose strand is pre-empted
already, is dropped too, which the manual does not say (DESIGN CHOICE; log entry 90). -/
def State.requestPreempt (s : State) (core slot : Nat) : State :=
  let k := s.strandSlot core slot
  if k = 14 ∨ !(s.slot core k).st.holdsStrand then s
  else s.modSlot core k fun x => { x with preReq := x.preReq <|> some s.cc }

def execSupervisorPreempt (core slot : Nat) (s : State) : Out := .next (s.requestPreempt core slot)
def execInjectPreempt (core slot : Nat) (s : State) : Out := .next (s.requestPreempt core slot)

/-- INJECT_ECC: the group that the slot issues next carries poison. -/
def execInjectEcc (core slot : Nat) (s : State) : Out :=
  .next (s.modSlot core (s.strandSlot core slot) fun x => { x with poisoned := x.st.holdsStrand || x.st == .saved })

/-- RELEASE_KILLED_SLOT: KILLED to FREE. -/
def execReleaseKilledSlot (core slot : Nat) (s : State) : Out :=
  .next (if (s.slot core slot).st = .killed then s.modSlot core slot fun x => { x with st := .free } else s)

/-- SET_BREAKPOINT: breakpoint `n` set at a fetch DVA, or cleared. -/
def execSetBreakpoint (n : Nat) (at' : Option (BitVec 56)) (core : Option Nat) (s : State) : Out :=
  let others := s.breakpoints.filter fun (b : Breakpoint) => b.n != n
  .next { s with breakpoints := match at' with
    | some a => others ++ [⟨n, a.toNat, core⟩]
    | none => others }

end Sys2Proof.Machine
end

