-- ==== Sys2Proof/Machine/Events.lean ====
section
/-!
DEFINITION. Events of slots: replies (R49, R72), page walks (R103–R105), the rotation boundary (R76, R79, R80, R106, R181,
R188), pre-emption and resumption (R181–R185).
-/
namespace Sys2Proof.Machine

open Sys2Proof

/-! ## Replies (R49, R72) -/

/-- Whether what a slot in REPLY waits for has come. The other conditions have events of their own. -/
def State.replyDue (s : State) (core slot : Nat) (r : ReplyCond) : Bool :=
  let c := s.core core
  let x := c.slot slot
  match r with
  | .now => true
  | .seqEmpty => x.seq.isEmpty
  | .lqRoom q => decide ((x.lq[q]?.getD []).length < 16)
  | .sqRoom q => decide ((x.drains[q]?.getD []).length < 8)
  | .drainsIn => x.drainsQueued == 0
  | .result copy => !(if copy then x.copyRes else x.matRes).isEmpty || !c.owes slot copy
  | .accIdle acc since => !c.accBusy acc since
  | .ringHolds ring => decide (512 ≤ ringHeld (c.ring ring))
  | .sqRows q _ _ => x.mmaeOut.isEmpty || x.sqRoom q
  | .ringIdle ring => c.ringIdle ring
  | .stgAcked => x.stgs == 0
  | .stgsTo l n => !s.stgOut core slot l n
  | .drainsOn l n => !x.drainsOn s.cc l n
  | .rowsIn => s.rowsReady core slot
  | .rowsFree => !s.trapWaits core slot
  | .stgRoom => decide (x.stgs < 64)
  | .tableIdle since => !c.tableBusy since
  | .tableWritten => c.tableWaiter.isNone
  | .pathIn since => !s.pathOut core slot since
  | .boundary => decide (x.fromCc ≤ s.cc)
  | .leader => match s.coupleOf core slot with
      | some p => !p.replies.isEmpty || p.lead.atEnd
      | none => true
  | .walked | .partner | .interval | .peer | .busy => false

/-- The end of a reply of a coupled strand: what it wrote is in its fingerprint, and there for the checker (R189). -/
def State.coupledReply (s : State) (core slot : Nat) : State :=
  if (s.slot core slot).coupled then (s.settleLead (leaderOf core) slot none).absorb core slot else s

/-- REPLY_WRITTEN: the registers are written and the slot is READY, or the slot's C-slot is to be reissued. `answer` holds
the words of a peer package. -/
def State.writeReply (s : State) (core slot : Nat) (answer : List Word) : State :=
  let x := s.slot core slot
  match x.reply with
  | none => s
  | some r =>
    if x.st ≠ .reply then s
    else if r.cond = .peer then
      if x.out.isSome then (s.peerAnswered core slot answer).coupledReply core slot else s
    else if !s.replyDue core slot r.cond then s
    else
      match r.cond with
      | .sqRows q _ ring =>
        let s := s.modCore core fun c => c.pushRows slot q (c.slot slot).mmaeOut
        if (s.slot core slot).mmaeOut.isEmpty then
          let s := match ring with
            | some n => s.modCore core fun c => c.setRing n (ringPop (c.ring n) 512)
            | none => s
          (s.wake core slot r.writes).coupledReply core slot
        else s
      | _ => (s.wake core slot r.writes).coupledReply core slot

def execReplyWritten (core slot : Nat) (answer : List Word) (s : State) : Out := .next (s.writeReply core slot answer)

/-! ## Page walks (R103–R105, R108) -/

/-- TRANSLATION_WALK: the walk a slot waits for, and the pair issues again. Success installs the entry; a failed translation
is kept for the pair, once its tenant's port has room for a record: the pair then ends in a fault (R105). -/
def State.finishWalk (s : State) (core slot : Nat) : State :=
  let x := s.slot core slot
  match x.walk with
  | none => s
  | some w =>
    if x.st ≠ .reply ∨ s.faultWaits core w.asid then s
    else
      let fail (s : State) (cause : Nat) : State :=
        s.modSlot core slot fun x => { x.goOn with walk := some { w with failed := some cause } }
      match s.walk core w.asid w.dva with
      | (s, .poison) => s.killSlot core slot 0
      | (s, .fail cause) => fail s cause
      | (s, .leaf e) =>
        match leafCause e.pte w.kind.reads w.kind.writes with
        | some cause => fail s cause
        | none =>
          let s := if w.install then s.install core e else s
          s.modSlot core slot fun x =>
            { x.goOn with
              walk := none
              grants := if w.install then x.grants else (e.page, e.pte, e.pages) :: x.grants }

def execTranslationWalk (core slot : Nat) (s : State) : Out := .next (s.finishWalk core slot)

/-! ## Pre-emption (R181, R182) -/

/-- The halves of a coupled pair stand between two intervals, both READY at the same pair boundary. -/
def State.betweenIntervals (s : State) (core slot : Nat) : Bool :=
  match s.coupleOf core slot with
  | some c =>
    let free (x : Slot) : Bool := x.coupled && x.st == .ready && !x.midPair
    c.lead.pairs == 0 && c.chk.pairs == 0 && !c.lead.atEnd && !c.chk.atEnd
      && free (s.slot c.leader slot) && free (s.slot (c.leader + 1) slot)
  | none => true

/-- A held request may be taken: READY at a pair boundary, with no pair begun that is to issue again (R289, R302), no packet open, a
coupled pair between intervals. -/
def State.preemptDue (s : State) (core slot : Nat) : Bool :=
  let x := s.slot core slot
  slot != 14 && x.preReq.isSome && x.st == .ready && x.since.isNone && x.packet.isNone && s.betweenIntervals core slot

/-- A request is taken where it is due; that of a coupled slot in both cores (R181). -/
def State.takePreempt (s : State) (core slot : Nat) : State :=
  if !s.preemptDue core slot then s
  else if (s.slot core slot).coupled then (s.preempt core slot).preempt (otherOf core) slot
  else s.preempt core slot

def execPreEmption (core slot : Nat) (s : State) : Out := .next (s.takePreempt core slot)

/-- A request has been held by an open packet for 65,536 cc, and the trap has nothing to wait for. -/
def State.holdDue (s : State) (core slot : Nat) : Bool :=
  let x := s.slot core slot
  x.st == .ready && x.since.isNone && x.packet.isSome && x.preReq.any (fun t => decide (t + 65536 ≤ s.cc))
    && !s.trapWaits core slot

/-- A slot traps PKT with INFO 6. -/
def State.holdTrap (s : State) (core slot : Nat) : State :=
  let x := s.slot core slot
  s.takeTrap core slot clsPkt 6 x.pc 0 x.adone false

/-- PKT_HOLD_TIMEOUT: the slot traps PKT with INFO 6; a coupled pair in both cores, its interval ended first (R189). -/
def State.holdTimeout (s : State) (core slot : Nat) : State :=
  if !s.holdDue core slot then s
  else if !(s.slot core slot).coupled then s.holdTrap core slot
  else if !s.betweenIntervals core slot then s.modCouple core slot fun c => { c with ending := true }
  else (s.holdTrap (leaderOf core) slot).holdTrap (leaderOf core + 1) slot

def execPktHoldTimeout (core slot : Nat) (s : State) : Out := .next (s.holdTimeout core slot)

/-- PREEMPT_TIMER counts in a slot that holds a strand and is neither SAVED nor FAULTED (R181). -/
def Slot.timed (x : Slot) : Bool := x.st == .ready || x.st == .reply || x.st == .parked

/-- PREEMPT_TIMER_EXPIRY: the timer reaches 0 from 1 and raises a request. -/
def State.timerExpires (s : State) (core slot : Nat) : State :=
  let x := s.slot core slot
  if x.timed && x.timer == 1 then (s.modSlot core slot fun x => { x with timer := 0 }).requestPreempt core slot else s

def execPreemptTimerExpiry (core slot : Nat) (s : State) : Out := .next (s.timerExpires core slot)

/-! ## Resumption (R185) -/

/-- The lanes of a SAVED slot renegotiated, and of a gang's odd half equally many; none while they cannot be granted. -/
def State.regrantSaved (s : State) (core slot : Nat) : Option State :=
  let x := s.slot core slot
  match s.regrant core slot x.svGroups x.allot with
  | none => none
  | some own =>
    if !x.gang then some (s.modSlot core slot (·.restoreVector own))
    else
      let y := s.slot core (slot + 1)
      let t := s.modSlot core slot fun x => { x with groups := own }
      match t.regrant core (slot + 1) y.svGroups y.allot with
      | none => none
      | some odd =>
        let n := min own.length odd.length
        some ((s.modSlot core slot (·.restoreVector (own.take n))).modSlot core (slot + 1) (·.restoreVector (odd.take n)))

/-- The lanes of v[r] put into the rows of a slot's groups. -/
def Slot.putLanes (x : Slot) (r : Nat) (lanes : List Half) : Slot :=
  { x with vrf := (x.groups.zip (List.range 16)).foldl (fun m gi =>
      m.put (32 * gi.1 + r) (((lanes.drop (16 * gi.2)).take 16 ++ zeros16).take 16)) x.vrf }

/-- v[r] read back from the vector save area with its poison, where `own` lanes of the slot stand first and then those of a gang's odd half; one
that does not translate stays as the slot kept it. -/
def State.loadVreg (s : State) (core slot own odd r : Nat) : State :=
  let x := s.slot core slot
  match s.getDva core (s.asidOf x) (s.vregArea core slot r) (4 * (own + odd)) 3 with
  | (s, none) => s
  | (s, some (bs, bad)) =>
    let lanes : List Half := (List.range (own + odd)).map fun i => BitVec.ofNat 32 (natOfBytes ((bs.drop (4 * i)).take 4))
    let s := s.modSlot core slot fun x =>
      { x.putLanes r (lanes.take own) with
        regPoison := if bad.isSome then setInsert x.regPoison (64 + r) else setErase x.regPoison (64 + r) }
    if x.gang then s.modSlot core (slot + 1) (·.putLanes r (lanes.drop own)) else s

/-- Lanes of a queue row read back from their place in the vector save area; those that do not translate stay as the slot kept them.
Poison in them kills the slot (R186). -/
def State.loadRow (s : State) (core slot place : Nat) (lanes : List Half) : State × List Half :=
  match s.getDva core (s.asidOf (s.slot core slot)) (s.vecArea core slot + place) (4 * lanes.length) 3 with
  | (s, some (bs, bad)) =>
    (State.orKilled (s, bad) core slot,
      (List.range lanes.length).map fun i => BitVec.ofNat 32 (natOfBytes ((bs.drop (4 * i)).take 4)))
  | (s, none) => (s, lanes)

/-- A load-queue row, by 16 × queue + position, and a store-queue row, by 8 × queue + position, read back. -/
def State.loadLqRow (s : State) (core slot n : Nat) : State :=
  match ((s.slot core slot).lq[n / 16]?.getD [])[n % 16]? with
  | some (.arrived lanes) =>
    let (s, lanes) := s.loadRow core slot (lqPlace (n / 16) (n % 16)) lanes
    s.modSlot core slot fun x =>
      { x with lq := x.lq.setIfInBounds (n / 16) ((x.lq[n / 16]?.getD []).set (n % 16) (.arrived lanes)) }
  | _ => s
def State.loadSqRow (s : State) (core slot n : Nat) : State :=
  match ((s.slot core slot).sqRows[n / 8]?.getD [])[n % 8]? with
  | some lanes =>
    let (s, lanes) := s.loadRow core slot (sqPlace (n / 8) (n % 8)) lanes
    s.modSlot core slot fun x =>
      { x with sqRows := x.sqRows.setIfInBounds (n / 8) ((x.sqRows[n / 8]?.getD []).set (n % 8) lanes) }
  | none => s

/-- The vector state of a slot that was saved with lanes read back (R185): `own` of them its own, `odd` those of a gang's odd half. -/
def State.loadVector (s : State) (core slot own odd : Nat) : State :=
  let s := (List.range (s.slot core slot).allot).foldl (fun s r => s.loadVreg core slot own odd r) s
  let s := (List.range 64).foldl (fun s n => s.loadLqRow core slot n) s
  (List.range 16).foldl (fun s n => s.loadSqRow core slot n) s

/-- RESUMPTION (R185): the lanes are renegotiated, the vector state and the save area restored; READY at the next boundary. While the
lanes cannot be granted the slot waits. Poison of a register's words is the register's again; in another word, or in a queue row, it kills
the slot (R186; DEDUCED; log entry 99). -/
def State.resumeSaved (s : State) (core slot : Nat) : State :=
  let x := s.slot core slot
  if x.st ≠ .saved then s
  else
    match s.regrantSaved core slot with
    | none => s.modSlot core slot fun x => { x with resuming := true }
    | some t =>
      let own := 16 * x.svGroups.length
      let odd := if x.gang then 16 * (s.slot core (slot + 1)).svGroups.length else 0
      let t := if own = 0 then t else t.loadVector core slot own odd
      let area : Loc := .lm core (saveArea slot)
      let bs := s.rdLoc area 0x400
      if (t.slot core slot).st = .killed then t
      else if s.savedBad area then t.killSlot core slot 0
      else
        let t := t.modSlot core slot fun x =>
          { x.restore bs with
            st := .ready, fromCc := nextBoundary s.cc, reply := none, park := none, resuming := false
            regPoison := s.savedPoison area ++ x.regPoison.filter (64 ≤ ·)
            seq := x.seq.map (·.handedAt s.cc), drains := x.drains.map fun ds => ds.map fun d => { d with since := s.cc } }
        t.modCore core (·.drainRows slot)

def execResumption (core slot : Nat) (s : State) : Out := .next (s.resumeSaved core slot)

/-! ## The rotation boundary (R76) -/

/-- ALMANAC_PENDING_WRITES: all at once (R79). -/
def Core.applyAlmanac (c : Core) : Core :=
  { c with
    alm := c.almNext.foldl (fun (t : Vector (BitVec 9) 16) (w : Nat × BitVec 9) => t.setIfInBounds w.1 w.2) c.alm
    almNext := [] }

/-- GANG_TAKES_EFFECT (R306). -/
def Core.startGangs (c : Core) : Core :=
  (List.range 7).foldl (fun (c : Core) i =>
    if (c.slot (2 * i + 1)).st = .ganged ∧ !(c.slot (2 * i)).lentVec.any (·.gang) then
      c.setSlot (2 * i) { c.slot (2 * i) with gang := true }
    else c) c

/-- The slots of a core whose timers expire. -/
def Core.expiries (c : Core) : List Nat := (List.range 16).filter fun k => (c.slot k).timed && (c.slot k).timer == 1

/-- PREEMPT_TIMERs count down; one that stands at 1 is left to its expiry, a turn of this cc. -/
def Core.countTimers (c : Core) : Core :=
  { c with slots := c.slots.map fun (x : Slot) =>
      if x.timed && decide (1 < x.timer.toNat) then { x with timer := x.timer - 1 } else x }

/-- ROTATION_BOUNDARY at every core. -/
def State.boundary (s : State) : State :=
  let cores := s.cores.keys
  let due := cores.flatMap fun c => ((s.core c).expiries).map fun k => Instr.preemptTimerExpiry c k
  let s := cores.foldl (fun (s : State) c => s.modCore c fun k => k.applyAlmanac.startGangs.countTimers) s
  let s := cores.foldl (fun (s : State) c => (List.range 16).foldl (fun (s : State) k => s.restoreWoken c k) s) s
  let s := cores.foldl (fun (s : State) c =>
    if isLeader c then (List.range 14).foldl (fun (s : State) k => s.startCouple c k) s else s) s
  { s with turns := due ++ s.turns }

def execRotationBoundary (s : State) : Out := .next s.boundary

end Sys2Proof.Machine
end

