-- ==== Sys2Proof/Machine/Issue.lean ====
section
/-!
DEFINITION. Issue: which slot issues in a turn (spec/04 R75–R77, R80), fetching a group (spec/03 R47, R71; spec/05 R100, R109),
running a pair (R48–R50, R68–R70, R159), the events that may happen next, and the passing of a cc (R5, R76).
-/
namespace Sys2Proof.Machine

open Sys2Proof

/-! ## Fetch (R47, R71, R100, R109, R186) -/

/-- The slot whose pair is to be issued, with its registers as they stand before the pair (R48). Its words are 0 until a group is
fetched: a trap of the fetch itself, SEG or XPERM, names no slot and has no group, and its record has SLOTK 0 and PAIR 0 (DESIGN
CHOICE, unsafe; log entry 71). -/
def State.beginPair (s : State) (core slot : Nat) : State :=
  let x := s.slot core slot
  let src : Sources := ⟨x.s, x.p, x.statusWord⟩
  let src := if x.adone then x.held.getD src else src
  { s with
    curCore := core, curSlot := slot
    lat := { s := src.s, p := src.p, pc := x.pc, status := src.status, w0 := 0, w1 := 0, inA := false
             adone := x.adone, flow := .go } }

/-- A group read through the instruction cache, whose line may be stale (R71), and the die's L2; the words, and whether they are
poisoned. -/
def State.readCode (s : State) (l : Loc) : State × BitVec 64 × Bool :=
  let (t, s) := s.fresh
  let pa := l.addr
  let word (l : CacheLine) : BitVec 64 × Bool := (l.words.getD (pa % 128 / 8) 0, l.poisoned (pa % 128) 8)
  match s.here.icache.find? fun (kv : Nat × CacheLine) => kv.1 == pa / 128, Config.cacheKeeps t with
  | some (_, line), true => (s, word line)
  | _, _ =>
    let s := s.l2Access s.curCore s.cur.launch (.mem (pa / 128 * 128) l.attr.tree l.attr.cls l.attr.key) 128 false
    let line := s.lineAt pa true
    (s.modHere fun c => { c with icache := fillCache icacheLines (Config.choose t) (pa / 128) line c.icache }, word line)

/-- A group from a slot's fetch buffer, if the buffer serves it. -/
def State.fromBuffer (s : State) (dva : Nat) : State × Option (BitVec 64) :=
  match s.cur.fbuf.find? fun (kv : Nat × BitVec 64) => kv.1 == dva with
  | some (_, g) =>
    let (t, s) := s.fresh
    (s, if Config.bufferServes t then some g else none)
  | none => (s, none)

/-- The checks of a fetch against c0; the DVA. -/
def State.fetchDva (s : State) : Except Stop Nat := do
  let k : Cap := s.cur.c[0]
  let pc := s.lat.pc.toNat
  need (k.x && pc % 8 == 0 && decide (pc + 8 ≤ k.limit ∧ k.base + pc < 2 ^ 56) && !isWindow (k.base + pc))
    (.trap clsSeg pc)
  .ok (k.base + pc)

/-- Breakpoints that a fetch at a DVA on a core meets (R175). -/
def State.breakAt (s : State) (dva : Nat) : Option Nat :=
  (s.breakpoints.find? fun (b : Breakpoint) => b.dva == dva && b.core.all (· == s.curCore)).map (·.n)

/-- Translation of a fetch; a page that is not executable traps XPERM. -/
def State.fetchLoc (s : State) (dva : Nat) : Except Stop Loc := do
  let l ← s.xlate dva .fetch
  match s.tlbFind s.curCore s.cur (s.asidOf s.cur) dva with
  | some e => need (e.pte.getLsbD 46) (.trap clsXperm dva)
  | none => pure ()
  .ok l

/-- The group at the current slot's pc, and the breakpoint it stands at. -/
def State.fetch (s : State) : State × Except Stop (BitVec 64 × Option Nat) :=
  match s.fetchDva with
  | .error e => (s, .error e)
  | .ok dva =>
    if s.cur.poisoned then (s, .error (.kill dva))
    else if s.cur.regPoison.contains 40 then (s, .error (.kill 0))
    else
      match s.fromBuffer dva with
      | (s, some g) => (s, .ok (g, s.breakAt dva))
      | (s, none) =>
        match s.fetchLoc dva with
        | .error e => (s, .error e)
        | .ok (.mem pa tree cls key) =>
          match s.readCode (.mem pa tree cls key) with
          | (s, g, poison) =>
            if poison then (s, .error (.kill dva))
            else
              let s := s.modCur fun x =>
                { x with fbuf := ((dva, g) :: x.fbuf.filter fun (kv : Nat × BitVec 64) => kv.1 != dva).take 4, grants := [] }
              (s, .ok (g, s.breakAt dva))
        | .ok _ => (s, .error (.trap clsSeg s.lat.pc.toNat))

/-- A fetch that stops: the pair has had no effect, and its A-slot is run or not as before; SLOTK and PAIR of a trap are those of
`State.beginPair`. -/
def State.stopFetch (s : State) (e : Stop) : State :=
  match e with
  | .walk asid dva kind => s.againWhole.awaitWalk asid dva kind
  | .fault dva cause kind =>
    if s.faultWaits s.curCore (s.asidOf s.cur) then s.againWhole.awaitWalk (s.asidOf s.cur) dva kind
    else s.againWhole.faultSlot s.curCore s.curSlot dva cause kind s.lat.pc s.lat.adone false
  | e => s.stop e

/-! ## What is decided at decode (R68–R70, R159, R162, R366) -/

/-- word0 and word1 of a group. -/
def groupLo (g : BitVec 64) : Half := g.extractLsb' 0 32
def groupHi (g : BitVec 64) : Half := g.extractLsb' 32 32

/-- ILL that depends on more than the words: a vector instruction barred in an open run, VLOOP in one or with a count of more
than 32 bits, ERET without a record; the slot that traps. -/
def State.illAtIssue (s : State) (c : Instr) (a : Option Instr) : Option SlotK :=
  let cBad := match c with
    | .eret g => s.guard g && s.cur.traprec == 0
    | _ => false
  let open' := runOpen s.cur.seq
  let aBad := match a with
    | some (.vloop r _ g) => s.guard g && (open' || fld (s.src r) 32 32 != 0)
    | some (.vred _ o) | some (.vextr o) | some (.vsort _ o) | some (.vksel _ o) => open' && s.guard o.g
    | some (.vsync g) => open' && s.guard g
    | _ => false
  if cBad then some 0 else if aBad then some 1 else none

/-- The first vector register of an A-slot instruction at or above the slot's register count. -/
def State.overAllot (s : State) (a : Option Instr) : Option Nat :=
  a.bind fun i => (vectorRegs i).find? fun r => decide (s.cur.allot ≤ r)

/-- A fetched group that may not issue now: a vector A-slot with the sequencer full (R159). -/
def State.heldBack (s : State) (g : BitVec 64) : Bool :=
  match decodeGroup (groupLo g) (groupHi g) with
  | .error _ => false
  | .ok (_, a) => !s.lat.adone && a.any isVector && decide (16 ≤ seqLeft s.cur.seq)

/-! ## Running a pair (R48–R50, R69) -/

/-- A trap at decode, before either slot has any effect. -/
def State.trapDecode (s : State) (cls info : Nat) (k : SlotK) : State :=
  { s with lat := { s.lat with inA := k == 1 } }.stop (.trap cls info)

/-- The C-slot of the current pair run by `ex`. -/
def State.runC (s : State) (ex : Instr → State → State) (c : Instr) : State :=
  if s.cur.coupled then s.runCoupled ex c else ex c s

/-- A register that carries poison is read by an instruction: its guard, or an operand once the guard holds (R186). -/
def State.eatsPoison (s : State) (i : Instr) : Bool :=
  let bad (r : Nat) : Bool := s.cur.regPoison.contains r
  match guardOf i with
  | some g => bad (32 + g.toNat) || (s.guard g && (registerReads i).any bad)
  | none => (registerReads i).any bad

/-- A pair reads a register that carries poison (R186). -/
def State.readsPoison (s : State) (c : Instr) (a : Option Instr) : Bool := s.eatsPoison c || a.any s.eatsPoison

/-- A pair that has passed decode. The C-slot's trap is found first; otherwise the A-slot runs, and then the C-slot, both over
the registers as they stood before the pair. A trap of the A-slot leaves the C-slot without effect. Where the sequencer is empty and the
C-slot asks for that, the manual does not say whether the vector entry of its own A-slot counts: the entry is handed first, and the C-slot
waits for it (DESIGN CHOICE; log entry 102). -/
def State.runPair (s : State) (ex : Instr → State → State) (c : Instr) (a : Option Instr) : State :=
  let probe := s.runC ex c
  if s.readsPoison c a then s.killSlot s.curCore s.curSlot 0
  else
  match a with
  | none => probe
  | some i =>
    match probe.lat.flow with
    | .trapped _ _ | .waits => probe
    | _ =>
      if s.lat.adone then probe
      else
        let t := ex i { s with lat := { s.lat with inA := true } }
        if t.goes then { t with lat := { t.lat with inA := false, adone := true } }.runC ex c else t

/-- A fetched group decoded and run: the traps of R69 in their order, then the pair. When both slots trap ALLOT, which rank alike, the
record names the A-slot (DESIGN CHOICE, unsafe; log entry 72); an ALLOT of the C-slot, found when it runs, comes before a
breakpoint, and a breakpoint before the C-slot's other traps, with which it has one rank (DESIGN CHOICE; log entry 103). -/
def State.runWords (s : State) (ex : Instr → State → State) (g : BitVec 64) (brk : Option Nat) : State :=
  let s := { s with lat := { s.lat with w0 := groupLo g, w1 := groupHi g } }
  match decodeGroup (groupLo g) (groupHi g) with
  | .error k => s.trapDecode clsIll 0 k
  | .ok (c, a) =>
    let a := if s.lat.adone then none else a
    match s.illAtIssue c a with
    | some k => (if k = 1 then s.modCur fun x => { x with seq := cancelRun x.seq } else s).trapDecode clsIll 0 k
    | none =>
      match s.overAllot a with
      | some r => s.trapDecode clsAllot r 1
      | none =>
        let t := s.modCur fun x => { x with pc := s.lat.pc + 8, adone := false, held := none }
        match brk with
        | some n =>
          match (t.runC ex c).lat.flow with
          | .trapped cls _ => if cls = clsAllot then t.runC ex c else s.trapDecode clsBrk n 0
          | _ => s.trapDecode clsBrk n 0
        | none => t.runPair ex c a

/-- A coupled strand's group: its interval may have to end first (R189); a retired pair is counted. -/
def State.runCoupledWords (s : State) (ex : Instr → State → State) (g : BitVec 64) (brk : Option Nat) : State :=
  let core := s.curCore
  let slot := s.curSlot
  let s := s.coupledReply core slot
  let op := match decodeGroup (groupLo g) (groupHi g) with
    | .ok (c, _) => c
    | .error _ => .nopC
  if s.endDue core slot op then s.toEnd core slot
  else
    let t := s.runWords ex g brk
    let pairs := ((s.coupleOf core slot).map fun c => (c.half core).pairs).getD 0
    if t.lat.flow != .go && t.lat.flow != .waits && pairs != 0 then s.toEnd core slot
    else
      let t := t.coupledReply core slot
      if t.goes && !(t.slot core slot).adone then t.countPair core slot else t

/-- A fetch that stops in a coupled strand: before a trap the interval ends (R189). -/
def State.stopCoupledFetch (s : State) (e : Stop) : State :=
  let pairs := ((s.coupleOf s.curCore s.curSlot).map fun c => (c.half s.curCore).pairs).getD 0
  match e with
  | .trap cls info => if pairs = 0 then s.stopFetch (.trap cls info) else s.toEnd s.curCore s.curSlot
  | e => s.stopFetch e

/-- The current slot's group fetched and run. -/
def State.runGroup (s : State) (ex : Instr → State → State) : State :=
  let s := (s.beginPair s.curCore s.curSlot).modCur fun x => { x with lastIssue := some s.cc }
  match s.fetch with
  | (s, .error e) => if s.cur.coupled then s.stopCoupledFetch e else s.stopFetch e
  | (s, .ok (g, brk)) => if s.cur.coupled then s.runCoupledWords ex g brk else s.runWords ex g brk

/-! ## Turns (R75–R77, R80) -/

/-- Entry `k` of the Almanac in force. -/
def Core.entry (c : Core) (k : Nat) : BitVec 9 := c.alm[k % 16]?.getD 0

/-- The issue owner of an entry, if it has one. -/
def Core.owner (c : Core) (k : Nat) : Option Nat := if almIv (c.entry k) then some (almIssue (c.entry k)) else none

/-- A slot owns an issue entry. -/
def Core.ownsTurn (c : Core) (slot : Nat) : Bool := (List.range 16).any fun k => c.owner k == some slot

/-- A slot may issue: READY, from its boundary on, 8 cc after its last issue, no request or trap to be taken first, and its next pair
is not held back. -/
def State.mayIssue (s : State) (core slot : Nat) : Bool :=
  let x := s.slot core slot
  x.st == .ready && decide (x.fromCc ≤ s.cc) && x.lastIssue.all (fun t => decide (t + 8 ≤ s.cc)) && !s.preemptDue core slot
    && !(s.holdDue core slot && s.betweenIntervals core slot)
    && match (s.beginPair core slot).fetch with
      | (t, .ok (g, _)) => !t.heldBack g
      | (_, .error _) => true

/-- The slots a turn of entry `k` is offered to, in order: the issue owners of the entries after it, and a slot without an
issue entry at the first entry that it owns as step owner. At one entry the issue owner comes first: the manual orders no issue
owner and a slot that owns only step entries there (DESIGN CHOICE, unsafe; log entry 73). -/
def Core.donees (c : Core) (k : Nat) : List Nat :=
  ((List.range 15).flatMap fun i =>
    let e := k + 1 + i
    let step := almStep (c.entry e)
    (c.owner e).toList ++ (if c.ownsTurn step then [] else [step])).eraseDups

/-- A slot qualifies for a donated turn at entry `k`. Own turns that lie past the boundary are read from the Almanac in force, whatever
ALMWs are pending, which the manual leaves open (DESIGN CHOICE; log entry 104). -/
def State.qualifies (s : State) (core k slot : Nat) : Bool :=
  let c := s.core core
  let x := c.slot slot
  !x.gang && x.st != .ganged && !((List.range 7).any fun i => c.owner (k + 1 + i) == some slot) && s.mayIssue core slot

/-- The slot that issues in a turn: the owner, or the donee; none for a bubble. A gang issues at its even entry, and its odd
entry is consumed with it. -/
def State.turnOf (s : State) (core : Nat) : Option Nat :=
  let c := s.core core
  let k := s.cc % 16
  let donee := (c.donees k).find? (s.qualifies core k)
  match c.owner k with
  | none => donee
  | some o =>
    let half := o % 2 == 1 && (c.slot o).st == .ganged && (c.slot (o - 1)).gang
    if half then
      if (c.slot (o - 1)).lastIssue.any fun t => t + 1 == s.cc then none else donee
    else if s.mayIssue core o then some o
    else donee

/-- What the owner of a turn is due before it may issue: a packet held too long is discarded by a trap, and a request is
taken. -/
def State.settleOwner (s : State) (core : Nat) : State :=
  match (s.core core).owner (s.cc % 16) with
  | some o => (s.holdTimeout core o).takePreempt core o
  | none => s

/-- ISSUE_TURN: the slot that issues in this turn of a core; its group is fetched and run in the next step. Slot 15 without
a movement strand runs the vendor's routine (R92). -/
def State.issueTurn (s : State) (core : Nat) : State :=
  let s := s.settleOwner core
  if (s.core core).owner (s.cc % 16) == some 15 && s.vendorDue core then s.vendorTurn core
  else
    match s.turnOf core with
    | some k => { s with curCore := core, curSlot := k, issuing := true }
    | none => s

def execIssueTurn (core : Nat) (s : State) : Out := .next (s.issueTurn core)

/-! ## What may happen next (R5) -/

/-- Events of a slot. -/
def State.slotEvents (s : State) (core slot : Nat) : List Instr :=
  let x := s.slot core slot
  let on (b : Bool) (i : Instr) : List Instr := if b then [i] else []
  on (x.reply.any fun r => x.st == .reply && r.cond == .busy) (.waitListBusyReissue core slot)
    ++ on (x.reply.any fun r => x.st == .reply && s.replyDue core slot r.cond) (.replyWritten core slot [])
    ++ on (x.walk.isSome && x.st == .reply) (.translationWalk core slot)
    ++ ((List.range 4).filter fun q => (x.waitingRow q).isSome).map (.loadQueueRowFill core slot)
    ++ on (!x.seq.isEmpty) (.sequencerEntryRun core slot)
    ++ on (!x.wakes.isEmpty) (.wokenContextRestore core slot)
    ++ on ((s.seeks core slot).any fun only => ((s.core core).nextArrival only).isSome) (.takeArrival core slot)
    ++ on ((s.seeks core slot).any fun only => ((s.core core).nextArrival only).isNone) (.steal core slot)
    ++ on (x.st == .saved && x.resuming && (s.regrantSaved core slot).isSome) (.resumption core slot)
    ++ on (s.preemptDue core slot) (.preEmption core slot)
    ++ on (s.holdDue core slot) (.pktHoldTimeout core slot)
    ++ on (s.intervalReady core slot) (.intervalEnd core slot)

/-- Events of a core and its slots. -/
def State.coreEvents (s : State) (core : Nat) : List Instr :=
  let c := s.core core
  let on (b : Bool) (i : Instr) : List Instr := if b then [i] else []
  on (!c.path.isEmpty) (.storePerformed core)
    ++ on (c.msgs.any (·.handler)) (.handlerStart core)
    ++ on (!c.copyOrd.isEmpty || c.copyRun.any (!·.ended)) (.copyCommandStart core)
    ++ on (c.copyRun.isSome || !c.ended.isEmpty) (.commandCompletion core)
    ++ on (s.pieces.any fun (p : Piece) => p.receivers.contains core) (.multicastPieceDrain core)
    ++ (List.range 16).flatMap (s.slotEvents core)

/-- Events of the clusters, the homes, the network, the launch unit and the DRAM. -/
def State.packageEvents (s : State) : List Instr :=
  s.clusters.flatMap (fun (kc : Nat × Cluster) =>
      (if kc.2.walker.isEmpty then [] else [.cacheWalk kc.1]) ++ (if kc.2.sfu.isEmpty then [] else [.sfuRequestServe kc.1]))
    ++ (List.range s.packets.length).map .packetDelivery
    ++ (List.range s.records.length).map .arrivalRecordAccept
    ++ (List.range s.units.length).map .arrivalUnit
    ++ (List.range s.stgs.length).map .stgAcknowledgement
    ++ (List.range s.jobs.length).flatMap (fun n =>
      match s.jobs[n]? with
      | some j => [if j.abort then Instr.tabortUnwind n else Instr.tbackLevel n]
      | none => [])
    ++ (if s.launches.isEmpty then [] else [.equinoxSweep])
    ++ s.launches.map (fun (l : Launch) => .classifierWindow l.id)
    ++ s.queues.flatMap (fun (kq : Nat × Queue) =>
      if kq.2.on then [.queueTailTake kq.1] ++ (if kq.2.packets.isEmpty then [] else [.launchPlacement kq.1]) else [])
    ++ ((List.range 16).filter fun k => !(s.dram k).reqs.isEmpty && !(s.dram k).reqs.any (·.marked)).map .dramBatchMark
    ++ (if s.hier.drams.toList.any (fun (d : Dram) => !d.used.isEmpty) then [.dramCapWindow] else [])
    ++ (s.hier.llc.keys.filter s.nextVictim).map .llcEviction
    ++ ((s.pieces.flatMap (·.receivers)).eraseDups.filter fun n => !s.cores.keys.contains n).map .multicastPieceDrain

/-- Every event that may happen. -/
def State.events (s : State) : List Instr := s.packageEvents ++ s.cores.keys.flatMap s.coreEvents

/-- What happens inside that no row of the table names: the counter cache of a home slice drops a block or node (R254), a home's
directory gives up an entry, whose L2 copies come home (R111), the oldest command of a port's ring is taken (R259). -/
inductive Inner where
  | counterDrop (key : Nat)
  | directoryEvict (line : Nat)
  | command (port : Nat)
  deriving DecidableEq, Repr

/-- The inner happenings that may come next. -/
def State.inners (s : State) : List Inner :=
  s.hier.cached.keys.map .counterDrop ++ s.hier.dirs.keys.map .directoryEvict ++ (s.commands.map (·.1)).eraseDups.map .command

def State.inner (s : State) (ex : Instr → State → State) : Inner → State
  | .counterDrop key => { s with hier := { s.hier with cached := s.hier.cached.erase key } }
  | .directoryEvict line => s.withHier (128 * line) (s.hier.recall (s.env 0 []) line none true) false
  | .command port => s.takeCommand ex port

/-! ## The passing of a cc (R76) -/

/-- The turns of a cc: the boundary at entry 0, then an issue turn and a step turn of every core. -/
def State.turnsAt (s : State) (cc : Nat) : List Instr :=
  (if cc % 16 = 0 then [.rotationBoundary] else []) ++ s.cores.keys.flatMap fun c => [.issueTurn c, .rank1Step c]

/-- Slots in ASBAR whose condition is met go on (R108). -/
def State.barriersMet (s : State) : State :=
  s.cores.keys.foldl (fun (s : State) c => (List.range 16).foldl (fun (s : State) k => s.barrierMet c k) s) s

/-- The next cc. -/
def State.advance (s : State) : State :=
  let s := s.serveDrams.barriersMet.sendFlits
  { s with cc := s.cc + 1, turns := s.turnsAt (s.cc + 1) }

/-! ## Inputs -/

/-- An input from outside; `ex` runs an event, or what the supervisor does; the settings of R259 change by the command rings alone. The host
reaches host memory and the BARs alone (R250). -/
def State.takeInput (s : State) (ex : Instr → State → State) (i : Input) : State :=
  match i with
  | .op op => if ringOnly op then s else ex op s
  | .post port op done => if port < 2 ∧ isCommand op then { s with commands := s.commands ++ [(port, op, done)] } else s
  | .hostStore pa bs => if hostPa pa then s.homeWrite 0 (.mem pa false 0 0) bs false else s
  | .hostAtomic pa n op => if hostPa pa then s.hostAtomic pa n op else s
  | .apertureRead _ _ => { s with hostGot := s.hostGot ++ [BitVec.allOnes 64] }
  | .apertureAtomic vf offset n op => s.apertureAtomic vf offset n op
  | .load pa attr bs => if attr.cls < 64 ∧ attr.key < 256 then s.loaderWrite pa attr bs else s
  | .image q count bs => { s with images := s.images.put (imageKey q count) bs }
  | .peer link m => s.fromPeer link m
  | .carried link => s.carried link
  | .freeFaults asid n => if asid < 4096 then s.freeFaults asid n else s
  | .poisonReg core slot reg => s.poisonReg core slot reg
  | .alterLine line d => s.alterLine line d
  | .alterMeta key m => s.alterMeta key m
  | .sensor die n shift temp => s.setSensor die n shift temp
  | .readSensor die n => s.readSensor die n
  | .bindPasid vf asid pasid => if asid < 4096 then s.modVf vf fun v => { v with pasids := v.pasids.put asid pasid } else s
  | .assignTee vf on => s.modVf vf fun v => { v with tee := on }
  | .ideStream port stream key => s.modPort port fun p =>
    { p with ide := match key with
        | some k => p.ide.put stream k
        | none => p.ide.erase stream }

/-- The next input from outside taken. -/
def State.input (s : State) (ex : Instr → State → State) : State :=
  match s.inputs with
  | [] => s
  | i :: rest => { s with inputs := rest }.takeInput ex i

/-- One of the things that may happen, by number: the next cc, an event, an inner happening, the next input. -/
def State.happen (s : State) (ex : Instr → State → State) (n : Nat) : State :=
  let es := s.events
  if n = 0 then s.advance
  else
    match es[n - 1]?, s.inners[n - 1 - es.length]? with
    | some e, _ => ex e s
    | none, some i => s.inner ex i
    | none, none => s.input ex

/-- How many things may happen. -/
def State.options (s : State) : Nat := 1 + s.events.length + s.inners.length + (if s.inputs.isEmpty then 0 else 1)

/-! ## Before the part is ready (R257, R262) -/

/-- What the outside does before the part is ready: a cold reset, or the host in its own memory; anything else, accesses to BAR2 too,
is discarded. -/
def State.early (s : State) (ex : Instr → State → State) : Option State :=
  match s.inputs with
  | [] => none
  | i :: rest =>
    let s := { s with inputs := rest }
    some (match i with
      | .op (.coldReset image signature version) => ex (.coldReset image signature version) s
      | .hostStore pa bs => s.takeInput ex (.hostStore pa bs)
      | .hostAtomic pa n op => s.takeInput ex (.hostAtomic pa n op)
      | _ => s)

/-- The next step of bring-up, or what the outside does meanwhile. -/
def State.bootStep (s : State) (ex : Instr → State → State) (n : Nat) : State :=
  if s.inputs.isEmpty then s.bringUp n
  else
    let (t, s) := s.fresh
    if Config.choose t % 2 = 0 then s.bringUp n else (s.early ex).getD s

/-- The next thing happens: the part chooses which (R5). -/
def State.proceed (s : State) (ex : Instr → State → State) : State :=
  if s.options = 1 then s.advance
  else
    let (t, s) := s.fresh
    s.happen ex (Config.choose t % s.options)

/-! ## A word placed for the next step -/

/-- A launch that a placed word belongs to, with core 0 as its only seat. -/
def placedLaunch : Launch where
  id := 0
  queue := 0
  asid := 0
  entry := 0
  args := 0
  captab := 0
  gens := []
  fmt := 0
  scl := 0
  spill := 0
  donew := 0
  cls := 0
  sage := 0
  arrDepth := 16
  dqcap := 16
  almanac := 0
  steal := 3
  movement := false
  seats := [{ core := 0, index := 0, pbase := programArea, lmsize := 0x77000, dqBase := 0, top := 0, bottom := 0, frames := []
              arrBase := 0, spillHead := 0, spillTail := 0, sent := 0, recv := 0 }]
  strands := 1
  groups := 1
  sageLost := false
  sweep := none
  lost := false
  closing := false
  steps := 0
  laneOps := 0
  missed := 0
  intensity := .balanced
  vf := 0

/-- A group of two words placed at DVA and PA 0 and at pc 0 of slot 0 of core 0, which is READY and has the turn. -/
def State.placeWord (s : State) (g : Half × Half) : State :=
  let s := { s with
    launches := placedLaunch :: s.launches.filter fun (l : Launch) => l.id != 0
    issuing := true, curCore := 0, curSlot := 0, boot := .ready
    mem := s.mem.wrBytes 0 (bytesOfNat 4 g.1.toNat ++ bytesOfNat 4 g.2.toNat)
    memPoison := setErase s.memPoison 0
    breakpoints := s.breakpoints.filter fun (b : Breakpoint) => b.dva != 0 }
  let s := s.modCluster 0 fun c => { c with tlb := ⟨0, 0, 1, (0b0111#4 ++ 0#44 : BitVec 48).setWidth 64⟩ :: c.tlb }
  let s := s.modCore 0 fun c => { c with icache := c.icache.erase 0 }
  s.modSlot 0 0 fun x =>
    { x with
      st := .ready, pc := 0, c := x.c.set 0 (Cap.make 0 0x1000 7 0 0), launch := some 0, adone := false, poisoned := false
      regPoison := [], held := none, fbuf := [], coupled := false, packet := none, reply := none, park := none }

end Sys2Proof.Machine
end

