-- ==== Sys2Proof/Machine/ScalarFp.lean ====
section
/-!
DEFINITION. Scalar FP32 A-slot instructions (spec/20_ref_e_to_l.md R296–R298, R303–R305; R65, R141–R145). Operands are
the low bits of a register, results are written with zeros above them, flags are sticky in STATUS.
-/
namespace Sys2Proof.Machine

open Sys2Proof

/-- The FP32 value in the low half of a word (R140). -/
def fpOf (w : Word) : FVal := fp32.value (fld w 0 32)

/-- A result and its flags, if the guard holds. -/
def fpIf (g : PredIx) (d : Reg) (r : Nat × RFlags) (s : State) : Out :=
  .next (if s.guard g then (s.setReg d (BitVec.ofNat 64 r.1)).raise r.2 else s)

/-- FMIN and FMAX: the result is an operand; a NaN operand is invalid (R304). -/
def fminmax (max : Bool) (a b : FVal) : Nat × RFlags :=
  (fp32.bits .rne (FVal.pick max a b), if a == .nan || b == .nan then .invalid else .none)

/-- FCMP by its minor: eq, lt, le, unordered (R145, R297). -/
def fcmpOp (x : BitVec 2) (a b : FVal) : Bool :=
  if x = 0#2 then a.eq b else if x = 1#2 then a.lt b else if x = 2#2 then a.le b else a == .nan || b == .nan

/-- FCMP lt and le are invalid on a NaN (R144, R297). -/
def fcmpFlags (x : BitVec 2) (a b : FVal) : RFlags :=
  if (x = 1#2 ∨ x = 2#2) ∧ (a = .nan ∨ b = .nan) then .invalid else .none

/-- FCVT by its minor and rounding (R65, R298). -/
def fcvtOp (x : BitVec 3) (r : Rnd) (w : Word) : Nat × RFlags :=
  if x = 0#3 then
    let (z, f) := (fpOf w).toInt r q32Min q32Max
    ((BitVec.ofInt 64 z).toNat, f)
  else if x = 1#3 then fp32.round r (.ofInt w.toInt 0 false)
  else if x = 2#3 then bf16.round r (fpOf w)
  else if x = 3#3 then fp32.round .rne (bf16.value (fld w 0 16))
  else if x = 4#3 then fp16.round r (fpOf w)
  else if x = 5#3 then fp32.round .rne (fp16.value (fld w 0 16))
  else if x = 6#3 then e8m10.round r (fpOf w)
  else fp32.round .rne (e8m10.value (fld w 0 19))

def execFadd (d a b : Reg) (g : PredIx) (s : State) : Out := fpIf g d (arith ((fpOf (s.src a)).add (fpOf (s.src b)))) s
def execFsub (d a b : Reg) (g : PredIx) (s : State) : Out :=
  fpIf g d (arith ((fpOf (s.src a)).add (fpOf (s.src b)).neg)) s
def execFmul (d a b : Reg) (g : PredIx) (s : State) : Out := fpIf g d (arith ((fpOf (s.src a)).mul (fpOf (s.src b)))) s
def execFma (d a b e : Reg) (g : PredIx) (s : State) : Out :=
  fpIf g d (arith (((fpOf (s.src a)).mul (fpOf (s.src b))).add (fpOf (s.src e)))) s
def execFms (d a b e : Reg) (g : PredIx) (s : State) : Out :=
  fpIf g d (arith (((fpOf (s.src a)).mul (fpOf (s.src b))).add (fpOf (s.src e)).neg)) s
def execFmin (d a b : Reg) (g : PredIx) (s : State) : Out := fpIf g d (fminmax false (fpOf (s.src a)) (fpOf (s.src b))) s
def execFmax (d a b : Reg) (g : PredIx) (s : State) : Out := fpIf g d (fminmax true (fpOf (s.src a)) (fpOf (s.src b))) s
def execFcmp (p : PredIx) (a b : Reg) (g : PredIx) (x : BitVec 2) (s : State) : Out :=
  let u := fpOf (s.src a)
  let v := fpOf (s.src b)
  .next (if s.guard g then (s.setPred p (fcmpOp x u v)).raise (fcmpFlags x u v) else s)
def execFcvt (d a : Reg) (rnd : BitVec 2) (g : PredIx) (x : BitVec 3) (s : State) : Out :=
  fpIf g d (fcvtOp x (Rnd.ofCode rnd) (s.src a)) s

end Sys2Proof.Machine
end

