-- ==== Sys2Proof/Machine/Dispatch.lean ====
section
/-!
DEFINITION. The dispatch: one meaning for every constructor of Instr (spec/opcode_table.json).
-/
namespace Sys2Proof.Machine

open Sys2Proof

def exec (i : Instr) (s : State) : Host.Outcome State Fault Refusal :=
  match i with
  | .nopC => Sys2Proof.Machine.execNopC s
  | .ld d a c imm => Sys2Proof.Machine.execLd d a c imm s
  | .ldLone d a c ext => Sys2Proof.Machine.execLdLone d a c ext s
  | .st d a c imm => Sys2Proof.Machine.execSt d a c imm s
  | .stLone d a c ext => Sys2Proof.Machine.execStLone d a c ext s
  | .ldl d a imm => Sys2Proof.Machine.execLdl d a imm s
  | .ldlLone d a ext => Sys2Proof.Machine.execLdlLone d a ext s
  | .stl d a imm => Sys2Proof.Machine.execStl d a imm s
  | .stlLone d a ext => Sys2Proof.Machine.execStlLone d a ext s
  | .ldh d a c m imm => Sys2Proof.Machine.execLdh d a c m imm s
  | .ldf d a c m imm => Sys2Proof.Machine.execLdf d a c m imm s
  | .ldx d a c m imm => Sys2Proof.Machine.execLdx d a c m imm s
  | .stf d a c m imm => Sys2Proof.Machine.execStf d a c m imm s
  | .stfa d a c m imm => Sys2Proof.Machine.execStfa d a c m imm s
  | .feclr a c m imm => Sys2Proof.Machine.execFeclr a c m imm s
  | .waitListBusyReissue core slot => Sys2Proof.Machine.execWaitListBusyReissue core slot s
  | .lq d a b c g k => Sys2Proof.Machine.execLq d a b c g k s
  | .loadQueueRowFill core slot q => Sys2Proof.Machine.execLoadQueueRowFill core slot q s
  | .sq d a b c g k => Sys2Proof.Machine.execSq d a b c g k s
  | .atom d a b c ord size op => Sys2Proof.Machine.execAtom d a b c ord size op s
  | .cas d a b c ord size => Sys2Proof.Machine.execCas d a b c ord size s
  | .stg d a c imm => Sys2Proof.Machine.execStg d a c imm s
  | .stgLone d a c ext => Sys2Proof.Machine.execStgLone d a c ext s
  | .stgAcknowledgement n => Sys2Proof.Machine.execStgAcknowledgement n s
  | .fence g f => Sys2Proof.Machine.execFence g f s
  | .rflush d a b c g => Sys2Proof.Machine.execRflush d a b c g s
  | .rinv d a b c g => Sys2Proof.Machine.execRinv d a b c g s
  | .cacheWalk cluster => Sys2Proof.Machine.execCacheWalk cluster s
  | .cld a c g => Sys2Proof.Machine.execCld a c g s
  | .cst a c g => Sys2Proof.Machine.execCst a c g s
  | .cnar d a b c g => Sys2Proof.Machine.execCnar d a b c g s
  | .cgive a c g => Sys2Proof.Machine.execCgive a c g s
  | .br disp => Sys2Proof.Machine.execBr disp s
  | .brLone ext => Sys2Proof.Machine.execBrLone ext s
  | .bc p sense disp => Sys2Proof.Machine.execBc p sense disp s
  | .bcLone p sense ext => Sys2Proof.Machine.execBcLone p sense ext s
  | .jal disp => Sys2Proof.Machine.execJal disp s
  | .jalLone ext => Sys2Proof.Machine.execJalLone ext s
  | .jr d a g => Sys2Proof.Machine.execJr d a g s
  | .loop d ext => Sys2Proof.Machine.execLoop d ext s
  | .li d ext => Sys2Proof.Machine.execLi d ext s
  | .lih d ext => Sys2Proof.Machine.execLih d ext s
  | .spawn a b c g => Sys2Proof.Machine.execSpawn a b c g s
  | .spawnLone a c ext => Sys2Proof.Machine.execSpawnLone a c ext s
  | .await a c g => Sys2Proof.Machine.execAwait a c g s
  | .done g => Sys2Proof.Machine.execDone g s
  | .migrate a g => Sys2Proof.Machine.execMigrate a g s
  | .send a b g ch h => Sys2Proof.Machine.execSend a b g ch h s
  | .sende a b g ch h => Sys2Proof.Machine.execSende a b g ch h s
  | .waitm g => Sys2Proof.Machine.execWaitm g s
  | .popm d g => Sys2Proof.Machine.execPopm d g s
  | .epushMat a g => Sys2Proof.Machine.execEpushMat a g s
  | .epushCopy a g => Sys2Proof.Machine.execEpushCopy a g s
  | .epop d g engine => Sys2Proof.Machine.execEpop d g engine s
  | .mma d a b c g z => Sys2Proof.Machine.execMma d a b c g z s
  | .mmae d a b tmask toSq sqIx g out rnd => Sys2Proof.Machine.execMmae d a b tmask toSq sqIx g out rnd s
  | .ringset d a b g fmt => Sys2Proof.Machine.execRingset d a b g fmt s
  | .claim d a g => Sys2Proof.Machine.execClaim d a g s
  | .shrink a g => Sys2Proof.Machine.execShrink a g s
  | .vallot d a g => Sys2Proof.Machine.execVallot d a g s
  | .gang g => Sys2Proof.Machine.execGang g s
  | .ungang g => Sys2Proof.Machine.execUngang g s
  | .tdesc d a g f => Sys2Proof.Machine.execTdesc d a g f s
  | .tback a b c g alt => Sys2Proof.Machine.execTback a b c g alt s
  | .tbackLevel n => Sys2Proof.Machine.execTbackLevel n s
  | .texp d a g => Sys2Proof.Machine.execTexp d a g s
  | .tfill d a b g => Sys2Proof.Machine.execTfill d a b g s
  | .tseal d a g => Sys2Proof.Machine.execTseal d a g s
  | .trec d a g => Sys2Proof.Machine.execTrec d a g s
  | .tabort d a c g => Sys2Proof.Machine.execTabort d a c g s
  | .tabortUnwind n => Sys2Proof.Machine.execTabortUnwind n s
  | .tform a c g f => Sys2Proof.Machine.execTform a c g f s
  | .lzres d a g w z => Sys2Proof.Machine.execLzres d a g w z s
  | .lzexp d a b g => Sys2Proof.Machine.execLzexp d a b g s
  | .lzwait d a g => Sys2Proof.Machine.execLzwait d a g s
  | .lzfree d a g => Sys2Proof.Machine.execLzfree d a g s
  | .lzcfg d a g => Sys2Proof.Machine.execLzcfg d a g s
  | .lzstat d a g => Sys2Proof.Machine.execLzstat d a g s
  | .csrr d n => Sys2Proof.Machine.execCsrr d n s
  | .csrw a n => Sys2Proof.Machine.execCsrw a n s
  | .openWalk a => Sys2Proof.Machine.execOpenWalk a s
  | .adoptWalk a => Sys2Proof.Machine.execAdoptWalk a s
  | .ticketClear a => Sys2Proof.Machine.execTicketClear a s
  | .trap a g => Sys2Proof.Machine.execTrap a g s
  | .eret g => Sys2Proof.Machine.execEret g s
  | .yield g => Sys2Proof.Machine.execYield g s
  | .asfl a g => Sys2Proof.Machine.execAsfl a g s
  | .asbar g => Sys2Proof.Machine.execAsbar g s
  | .couple g => Sys2Proof.Machine.execCouple g s
  | .uncouple g => Sys2Proof.Machine.execUncouple g s
  | .wake a g => Sys2Proof.Machine.execWake a g s
  | .almr d a g => Sys2Proof.Machine.execAlmr d a g s
  | .almw a b g => Sys2Proof.Machine.execAlmw a b g s
  | .dtrd d a g => Sys2Proof.Machine.execDtrd d a g s
  | .dtwr a b g => Sys2Proof.Machine.execDtwr a b g s
  | .nopA => Sys2Proof.Machine.execNopA s
  | .add d a b g => Sys2Proof.Machine.execAdd d a b g s
  | .sub d a b g => Sys2Proof.Machine.execSub d a b g s
  | .addi d a imm => Sys2Proof.Machine.execAddi d a imm s
  | .mul d a b g => Sys2Proof.Machine.execMul d a b g s
  | .mulh d a b g x => Sys2Proof.Machine.execMulh d a b g x s
  | .div d a b g => Sys2Proof.Machine.execDiv d a b g s
  | .divu d a b g => Sys2Proof.Machine.execDivu d a b g s
  | .rem d a b g => Sys2Proof.Machine.execRem d a b g s
  | .remu d a b g => Sys2Proof.Machine.execRemu d a b g s
  | .and d a b g => Sys2Proof.Machine.execAnd d a b g s
  | .andn d a b g => Sys2Proof.Machine.execAndn d a b g s
  | .or d a b g => Sys2Proof.Machine.execOr d a b g s
  | .xor d a b g => Sys2Proof.Machine.execXor d a b g s
  | .shl d a b g => Sys2Proof.Machine.execShl d a b g s
  | .shlImm d a n g => Sys2Proof.Machine.execShlImm d a n g s
  | .shr d a b g => Sys2Proof.Machine.execShr d a b g s
  | .shrImm d a n g => Sys2Proof.Machine.execShrImm d a n g s
  | .sar d a b g => Sys2Proof.Machine.execSar d a b g s
  | .sarImm d a n g => Sys2Proof.Machine.execSarImm d a n g s
  | .min d a b g => Sys2Proof.Machine.execMin d a b g s
  | .max d a b g => Sys2Proof.Machine.execMax d a b g s
  | .minu d a b g => Sys2Proof.Machine.execMinu d a b g s
  | .maxu d a b g => Sys2Proof.Machine.execMaxu d a b g s
  | .cmp p a b g x => Sys2Proof.Machine.execCmp p a b g x s
  | .sel d a b p g => Sys2Proof.Machine.execSel d a b p g s
  | .bits d a g x => Sys2Proof.Machine.execBits d a g x s
  | .ext d a b e g => Sys2Proof.Machine.execExt d a b e g s
  | .extS d a b e g => Sys2Proof.Machine.execExtS d a b e g s
  | .ins d a b e g => Sys2Proof.Machine.execIns d a b e g s
  | .fadd d a b g => Sys2Proof.Machine.execFadd d a b g s
  | .fsub d a b g => Sys2Proof.Machine.execFsub d a b g s
  | .fmul d a b g => Sys2Proof.Machine.execFmul d a b g s
  | .fma d a b e g => Sys2Proof.Machine.execFma d a b e g s
  | .fms d a b e g => Sys2Proof.Machine.execFms d a b e g s
  | .fmin d a b g => Sys2Proof.Machine.execFmin d a b g s
  | .fmax d a b g => Sys2Proof.Machine.execFmax d a b g s
  | .fcmp p a b g x => Sys2Proof.Machine.execFcmp p a b g x s
  | .fcvt d a rnd g x => Sys2Proof.Machine.execFcvt d a rnd g x s
  | .vadd o => Sys2Proof.Machine.execVadd o s
  | .vsub o => Sys2Proof.Machine.execVsub o s
  | .vmul o => Sys2Proof.Machine.execVmul o s
  | .vfma o => Sys2Proof.Machine.execVfma o s
  | .vmin o => Sys2Proof.Machine.execVmin o s
  | .vmax o => Sys2Proof.Machine.execVmax o s
  | .vcmp x o => Sys2Proof.Machine.execVcmp x o s
  | .vsel o => Sys2Proof.Machine.execVsel o s
  | .vred x o => Sys2Proof.Machine.execVred x o s
  | .vcvt r o => Sys2Proof.Machine.execVcvt r o s
  | .vdec sc o => Sys2Proof.Machine.execVdec sc o s
  | .venc o => Sys2Proof.Machine.execVenc o s
  | .vscl o => Sys2Proof.Machine.execVscl o s
  | .vperm o => Sys2Proof.Machine.execVperm o s
  | .vbcast o => Sys2Proof.Machine.execVbcast o s
  | .vextr o => Sys2Proof.Machine.execVextr o s
  | .vidx o => Sys2Proof.Machine.execVidx o s
  | .vloop a n g => Sys2Proof.Machine.execVloop a n g s
  | .vsfu o => Sys2Proof.Machine.execVsfu o s
  | .vsort x o => Sys2Proof.Machine.execVsort x o s
  | .vksel x o => Sys2Proof.Machine.execVksel x o s
  | .vrand o => Sys2Proof.Machine.execVrand o s
  | .vimask o => Sys2Proof.Machine.execVimask o s
  | .vsync g => Sys2Proof.Machine.execVsync g s
  | .issueTurn core => Sys2Proof.Machine.execIssueTurn core s
  | .rank1Step core => Sys2Proof.Machine.execRank1Step core s
  | .rotationBoundary => Sys2Proof.Machine.execRotationBoundary s
  | .preemptTimerExpiry core slot => Sys2Proof.Machine.execPreemptTimerExpiry core slot s
  | .preEmption core slot => Sys2Proof.Machine.execPreEmption core slot s
  | .pktHoldTimeout core slot => Sys2Proof.Machine.execPktHoldTimeout core slot s
  | .resumption core slot => Sys2Proof.Machine.execResumption core slot s
  | .translationWalk core slot => Sys2Proof.Machine.execTranslationWalk core slot s
  | .wokenContextRestore core slot => Sys2Proof.Machine.execWokenContextRestore core slot s
  | .steal core slot => Sys2Proof.Machine.execSteal core slot s
  | .takeArrival core slot => Sys2Proof.Machine.execTakeArrival core slot s
  | .replyWritten core slot answer => Sys2Proof.Machine.execReplyWritten core slot answer s
  | .storePerformed core => Sys2Proof.Machine.execStorePerformed core s
  | .packetDelivery n => Sys2Proof.Machine.execPacketDelivery n s
  | .handlerStart core => Sys2Proof.Machine.execHandlerStart core s
  | .arrivalRecordAccept n => Sys2Proof.Machine.execArrivalRecordAccept n s
  | .equinoxSweep => Sys2Proof.Machine.execEquinoxSweep s
  | .queueTailTake q => Sys2Proof.Machine.execQueueTailTake q s
  | .launchPlacement q => Sys2Proof.Machine.execLaunchPlacement q s
  | .classifierWindow launch => Sys2Proof.Machine.execClassifierWindow launch s
  | .sequencerEntryRun core slot => Sys2Proof.Machine.execSequencerEntryRun core slot s
  | .sfuRequestServe cluster => Sys2Proof.Machine.execSfuRequestServe cluster s
  | .copyCommandStart core => Sys2Proof.Machine.execCopyCommandStart core s
  | .commandCompletion core => Sys2Proof.Machine.execCommandCompletion core s
  | .multicastPieceDrain core => Sys2Proof.Machine.execMulticastPieceDrain core s
  | .arrivalUnit n => Sys2Proof.Machine.execArrivalUnit n s
  | .intervalEnd core slot => Sys2Proof.Machine.execIntervalEnd core slot s
  | .flitReplay link => Sys2Proof.Machine.execFlitReplay link s
  | .laneMarginStepDown link => Sys2Proof.Machine.execLaneMarginStepDown link s
  | .laneTrainingFailure link lane => Sys2Proof.Machine.execLaneTrainingFailure link lane s
  | .linkDown link => Sys2Proof.Machine.execLinkDown link s
  | .powerSample watts => Sys2Proof.Machine.execPowerSample watts s
  | .ageingSensorUpdate die eolh worst => Sys2Proof.Machine.execAgeingSensorUpdate die eolh worst s
  | .dramBatchMark ctl => Sys2Proof.Machine.execDramBatchMark ctl s
  | .dramCapWindow => Sys2Proof.Machine.execDramCapWindow s
  | .llcEviction line => Sys2Proof.Machine.execLlcEviction line s
  | .coldReset image signature version => Sys2Proof.Machine.execColdReset image signature version s
  | .functionLevelReset vf => Sys2Proof.Machine.execFunctionLevelReset vf s
  | .fillApertureWrite vf offset data => Sys2Proof.Machine.execFillApertureWrite vf offset data s
  | .spdmAttestation nonce => Sys2Proof.Machine.execSpdmAttestation nonce s
  | .setWayMasks cls llc l2 => Sys2Proof.Machine.execSetWayMasks cls llc l2 s
  | .setDramCap cls cap => Sys2Proof.Machine.execSetDramCap cls cap s
  | .setVcWeights cls w0 w2 w4 w3 => Sys2Proof.Machine.execSetVcWeights cls w0 w2 w4 w3 s
  | .writeKeySlot k key => Sys2Proof.Machine.execWriteKeySlot k key s
  | .writeRouteEntry dev primary alternate => Sys2Proof.Machine.execWriteRouteEntry dev primary alternate s
  | .writeQueueDescriptor q desc => Sys2Proof.Machine.execWriteQueueDescriptor q desc s
  | .setTenantAreas asid areas => Sys2Proof.Machine.execSetTenantAreas asid areas s
  | .setAsidRoot asid root => Sys2Proof.Machine.execSetAsidRoot asid root s
  | .setPowerCap watts => Sys2Proof.Machine.execSetPowerCap watts s
  | .takeLinkDown link => Sys2Proof.Machine.execTakeLinkDown link s
  | .retrainLink link => Sys2Proof.Machine.execRetrainLink link s
  | .supervisorPreempt core slot => Sys2Proof.Machine.execSupervisorPreempt core slot s
  | .releaseKilledSlot core slot => Sys2Proof.Machine.execReleaseKilledSlot core slot s
  | .abortLaunch launch => Sys2Proof.Machine.execAbortLaunch launch s
  | .injectPreempt core slot => Sys2Proof.Machine.execInjectPreempt core slot s
  | .injectEcc core slot => Sys2Proof.Machine.execInjectEcc core slot s
  | .setBreakpoint n at' core => Sys2Proof.Machine.execSetBreakpoint n at' core s
  | .setAgeingThreshold hours => Sys2Proof.Machine.execSetAgeingThreshold hours s
  | .ageingWarnClear die data => Sys2Proof.Machine.execAgeingWarnClear die data s
  | .atsInvalidation base len => Sys2Proof.Machine.execAtsInvalidation base len s
  | .bindQueueToVf q vf => Sys2Proof.Machine.execBindQueueToVf q vf s

end Sys2Proof.Machine
end

