-- ==== Sys2Proof/Machine/Step.lean ====
section
/-!
DEFINITION. One step of the package, and placing an instruction where the next step fetches it. What a step does is in
Issue.lean.
-/
namespace Sys2Proof.Machine

open Sys2Proof

/-- An instruction run for its next state. -/
def run (i : Instr) (s : State) : State :=
  match exec i s with
  | .next t => t
  | .fault _ | .refused _ => s

/-- One step: the pair of the slot that has the turn; or the next turn of this cc; or the next thing that happens. Before the part is
ready, a step of bring-up (R262). A part whose boot verification failed stays in reset until the outside does something (R257). -/
def step (s : State) : Host.Outcome State Fault Refusal :=
  match s.boot with
  | .failed _ => match s.early run with
    | some t => .next t
    | none => .fault .heldInReset
  | .starting n => .next (s.bootStep run n)
  | .ready =>
    if s.issuing then .next ({ s with issuing := false }.runGroup run)
    else
      match s.turns with
      | i :: rest => exec i { s with turns := rest }
      | [] => .next (s.proceed run)

/-- `s` with an instruction of the table's numbering at the pc of slot 0 of core 0, which is READY and has the turn: a launch
on that core, c0 over the code, and the page of the code in the port's TLB. -/
def State.withFetchWord (s : State) (nbits w : Nat) : State :=
  s.placeWord (tableGroup nbits w)

end Sys2Proof.Machine
end

