-- ==== Sys2Proof/Safety.lean ====
section
/-!
DEFINITION. What counts as a safe run, in the terms that statements use: invariants of the state, what a program sees of memory
and registers, and the integer and exact meanings that results are stated in.
-/
namespace Sys2Proof

open Sys2Proof.Machine

/-! ## The state as a program sees it -/

/-- A step goes on: it ends neither in a fault nor in a refusal. -/
def Goes (s : State) : Prop := ∃ t, step s = .next t

/-- Every memory of the package is in canonical form: device and host memory, and the local memory of every core. -/
def MemWf (s : State) : Bool := Memory.wf s.mem && s.cores.all fun (kc : Nat × Core) => Memory.wf kc.2.lm

/-- A byte of the package's memory, as every access reads it. -/
def byteAt (s : State) (pa : Nat) : Byte := s.mem.rd pa

/-- A byte of a core's local memory. -/
def localByteAt (s : State) (core off : Nat) : Byte := (s.core core).lm.rd off

/-- The pair of the current slot is one of the 16 slots of its core (R11). -/
abbrev SlotOk (s : State) : Prop := s.curSlot < 16

/-- Two states hold the same memory: every byte of device memory and of every core's local memory. -/
def SameMemory (s t : State) : Prop :=
  (∀ pa, byteAt t pa = byteAt s pa) ∧ ∀ core off, localByteAt t core off = localByteAt s core off

/-- Every byte outside `n` bytes from a place is as it was. -/
def SameOutside (s t : State) (l : Loc) (n : Nat) : Prop :=
  (∀ pa, (∀ p tr cl k, l = .mem p tr cl k → pa < p ∨ p + n ≤ pa) → byteAt t pa = byteAt s pa) ∧
  ∀ core off, (∀ o, l = .lm core o → off < o ∨ o + n ≤ off) → localByteAt t core off = localByteAt s core off

/-- A place of this package's device memory, or of a core's local memory in a launch's partition. -/
def OnHome (l : Loc) : Prop := (∃ pa tr cl k, l = .mem pa tr cl k) ∨ ∃ core off, l = .lm core off ∧ programArea ≤ off

/-- The registers, capabilities, pc and status of the current slot are as they were. -/
def SameStrand (s t : State) : Prop :=
  t.cur.s = s.cur.s ∧ t.cur.p = s.cur.p ∧ t.cur.c = s.cur.c ∧ t.cur.pc = s.cur.pc ∧ t.cur.status = s.cur.status

/-- The answer of an access is in: the current slot is in REPLY and REPLY_WRITTEN will write these registers (R49). -/
def RepliesWith (s t : State) (ws : List (Nat × Word)) : Prop :=
  t.cur.st = .reply ∧ t.cur.reply = some ⟨.now, ws, false⟩ ∧ SameStrand s t

/-- A slot has resumed a frame (R82), or was killed by poison in it: pc, join link and the carried registers s24–s31 are the frame's. -/
def Resumed (t : State) (core slot : Nat) (f : Frame) : Prop :=
  (t.slot core slot).st = .killed ∨
    ((t.slot core slot).st ≠ .free ∧ (t.slot core slot).pc = f.pc ∧ (t.slot core slot).join = f.join ∧
      ∀ i, i < 8 → (t.slot core slot).reg (BitVec.ofNat 5 (24 + i)) = f.carry.getD i 0)

/-- The current slot with its pc at `v`. -/
def goTo (s : State) (v : Word) : State := s.modCur fun x => { x with pc := v }

/-- What an instruction that has gone on leaves behind it of a page walk and of a wait: nothing (R103, R108). -/
def served (s : State) : State := s.modCur fun x => { x with grants := [], since := none, walk := none, inl := none }

/-- No row of a load queue of the current strand waits for its elements (R160). -/
abbrev RowsIn (s : State) : Prop := ∀ q, q < 4 → s.cur.waitingRow q = none

/-- The current strand's own stores are performed: the core's path is empty, no STG is in flight, no drain is queued and no row of
a load queue waits. -/
abbrev StoresIn (s : State) : Prop := s.here.path = [] ∧ s.stgs = [] ∧ s.cur.drainsQueued = 0 ∧ RowsIn s

/-- The lines of `n` bytes from an address are in the LLC, and no sector that failed its MAC awaits its poison, so that no read of them
fails a MAC (R112, R254). -/
def Resident (s : State) (pa n : Nat) : Prop :=
  s.hier.failed = [] ∧ ∀ b, pa ≤ b → b < pa + n → (s.hier.llc.look (b / 128)).isSome = true

/-- No access waits at any home of the package (R91). -/
def NoWaiters (s : State) : Prop := s.waiters = [] ∧ ∀ core, (s.core core).waiters = []

/-! ## Integers of the A-slot (R64): results by integer arithmetic -/

/-- Sources as integers. -/
def uns (s : State) (r : Reg) : Nat := (s.src r).toNat
def sgn (s : State) (r : Reg) : Int := (s.src r).toInt

/-- The product that a MULH minor forms (R325). -/
def wideProduct (s : State) (x : BitVec 3) (a b : Reg) : Int :=
  if x = 0 then sgn s a * sgn s b else if x = 1 then (uns s a : Int) * uns s b else sgn s a * uns s b

/-- Sums, products, quotients and remainders: guard, destination and value (R266, R285, R325, R330, R343). -/
def arithResult (s : State) : Instr → Option (PredIx × Reg × Word)
  | .add d a b g => some (g, d, BitVec.ofNat 64 (uns s a + uns s b))
  | .sub d a b g => some (g, d, BitVec.ofInt 64 ((uns s a : Int) - uns s b))
  | .addi d a imm => some (0, d, BitVec.ofInt 64 ((uns s a : Int) + imm.toInt))
  | .mul d a b g => some (g, d, BitVec.ofNat 64 (uns s a * uns s b))
  | .mulh d a b g x => some (g, d, BitVec.ofInt 64 (wideProduct s x a b / 2 ^ 64))
  | .div d a b g => some (g, d, if uns s b = 0 then 0xFFFFFFFFFFFFFFFF else BitVec.ofInt 64 ((sgn s a).tdiv (sgn s b)))
  | .divu d a b g => some (g, d, if uns s b = 0 then 0xFFFFFFFFFFFFFFFF else BitVec.ofNat 64 (uns s a / uns s b))
  | .rem d a b g =>
    some (g, d, if uns s b = 0 then s.src a else BitVec.ofInt 64 (sgn s a - sgn s b * (sgn s a).tdiv (sgn s b)))
  | .remu d a b g => some (g, d, if uns s b = 0 then s.src a else BitVec.ofNat 64 (uns s a % uns s b))
  | _ => none

/-- A shift count: the low six bits of a register (R333). -/
def count6 (s : State) (b : Reg) : Nat := uns s b % 64

/-- The number whose bit `i` is bit 63 − i of another. -/
def mirrored (n : Nat) : Nat := (List.range 64).foldl (fun acc i => acc + (if n.testBit (63 - i) then 2 ^ i else 0)) 0

/-- BITS by its minor: how many ones; zeros above the highest one; the place of the lowest one; the mirror image (R275). -/
def bitsResult (x : BitVec 2) (n : Nat) : Nat :=
  if x = 0 then (List.range 64).countP n.testBit
  else if x = 1 then (if n = 0 then 64 else 63 - n.log2)
  else if x = 2 then ((List.range 64).find? n.testBit).getD 64
  else mirrored n

/-- The field of EXT: `m + 1` bits of a number from bit `l` on; bits above 63 read as 0 (R295). -/
def fieldOf (n l m : Nat) : Nat := n / 2 ^ l % 2 ^ (m + 1)

/-- Bitwise operations, shifts and bit fields (R268, R275, R295, R327, R333, R377). -/
def bitResult (s : State) : Instr → Option (PredIx × Reg × Word)
  | .and d a b g => some (g, d, BitVec.ofNat 64 (uns s a &&& uns s b))
  | .andn d a b g => some (g, d, BitVec.ofNat 64 (uns s a &&& (2 ^ 64 - 1 - uns s b)))
  | .or d a b g => some (g, d, BitVec.ofNat 64 (uns s a ||| uns s b))
  | .xor d a b g => some (g, d, BitVec.ofNat 64 (uns s a ^^^ uns s b))
  | .shl d a b g => some (g, d, BitVec.ofNat 64 (uns s a * 2 ^ count6 s b))
  | .shlImm d a n g => some (g, d, BitVec.ofNat 64 (uns s a * 2 ^ n.toNat))
  | .shr d a b g => some (g, d, BitVec.ofNat 64 (uns s a / 2 ^ count6 s b))
  | .shrImm d a n g => some (g, d, BitVec.ofNat 64 (uns s a / 2 ^ n.toNat))
  | .sar d a b g => some (g, d, BitVec.ofInt 64 (sgn s a / 2 ^ count6 s b))
  | .sarImm d a n g => some (g, d, BitVec.ofInt 64 (sgn s a / 2 ^ n.toNat))
  | .bits d a g x => some (g, d, BitVec.ofNat 64 (bitsResult x (uns s a)))
  | .ext d a b m g => some (g, d, BitVec.ofNat 64 (fieldOf (uns s a) (count6 s b) m.toNat))
  | .extS d a b m g =>
    let f := fieldOf (uns s a) (count6 s b) m.toNat
    some (g, d, BitVec.ofInt 64 (if f < 2 ^ m.toNat then (f : Int) else (f : Int) - 2 ^ (m.toNat + 1)))
  | .ins d a b m g =>
    let mask := (2 ^ (m.toNat + 1) - 1) * 2 ^ count6 s b % 2 ^ 64
    some (g, d, BitVec.ofNat 64 ((uns s d &&& (2 ^ 64 - 1 - mask)) ||| (uns s a * 2 ^ count6 s b % 2 ^ 64 &&& mask)))
  | _ => none

/-- The condition of a CMP (R281). -/
def cmpHolds (s : State) (x : BitVec 3) (a b : Reg) : Prop :=
  if x = 0 then s.src a = s.src b
  else if x = 1 then s.src a ≠ s.src b
  else if x = 2 then sgn s a < sgn s b
  else if x = 3 then sgn s a ≤ sgn s b
  else if x = 4 then uns s a < uns s b
  else uns s a ≤ uns s b

/-- Scalar instructions of the A-slot (R63). -/
def scalarA : Instr → Bool
  | .nopA | .add .. | .sub .. | .addi .. | .mul .. | .mulh .. | .div .. | .divu .. | .rem .. | .remu .. | .and .. | .andn ..
  | .or .. | .xor .. | .shl .. | .shlImm .. | .shr .. | .shrImm .. | .sar .. | .sarImm .. | .min .. | .max .. | .minu ..
  | .maxu .. | .cmp .. | .sel .. | .bits .. | .ext .. | .extS .. | .ins .. | .fadd .. | .fsub .. | .fmul .. | .fma ..
  | .fms .. | .fmin .. | .fmax .. | .fcmp .. | .fcvt .. => true
  | _ => false

/-- Those that may set a floating-point flag of STATUS (R144). -/
def floatA : Instr → Bool
  | .fadd .. | .fsub .. | .fmul .. | .fma .. | .fms .. | .fmin .. | .fmax .. | .fcmp .. | .fcvt .. => true
  | _ => false

/-! ## Vector instructions -/

/-- Instructions that work lane by lane on registers: the operands, and what a lane becomes from d, a and b (R353, R356, R367).
For the integer types these are the operations of 32-bit words. -/
def lanewiseOf : Instr → Option (VOp × (Half → Half → Half → Half))
  | .vadd o => some (o, fun _ a b => if o.t.ult 2#3 then a + b else laneAdd o.t a b)
  | .vsub o => some (o, fun _ a b => if o.t.ult 2#3 then a - b else laneSub o.t a b)
  | .vmul o => some (o, fun _ a b => if o.t.ult 2#3 then a * b else laneMul o.t a b)
  | .vfma o => some (o, fun d a b => laneFma o.t d a b)
  | .vmin o => some (o, fun _ a b =>
      if o.t = 0#3 then (if a.slt b then a else b) else if o.t = 1#3 then (if a.ult b then a else b) else laneMinMax false o.t a b)
  | .vmax o => some (o, fun _ a b =>
      if o.t = 0#3 then (if a.slt b then b else a) else if o.t = 1#3 then (if a.ult b then b else a) else laneMinMax true o.t a b)
  | .vcmp x o => some (o, fun _ a b =>
      if o.t = 0#3 ∧ x = 1#2 then (if a.slt b then 0xFFFFFFFF else 0)
      else if o.t = 1#3 ∧ x = 1#2 then (if a.ult b then 0xFFFFFFFF else 0)
      else laneCompare x o.t a b)
  | .vsel o => some (o, fun d a b => typeBits o.t (if d = 0 then b else a))
  | .vscl o => some (o, fun _ a b => laneScale o.t a b)
  | _ => none

/-- The head of a slot's sequencer is an entry that may run: the slot is not SAVED, in no gang, has lanes, no register of it carries
poison, and no DTWR waits on the core (R147, R159, R186). -/
def EntryReady (s : State) (core slot : Nat) (op : Instr) (x y : Word) (rest : List SeqItem) : Prop :=
  slot < 16 ∧ (∃ t, (s.slot core slot).seq = .one ⟨op, x, y, false, [], none, t⟩ :: rest) ∧
  (s.core core).tableWaiter = none ∧ (s.slot core slot).st ≠ .saved ∧ (s.slot core slot).gang = false ∧ (s.slot core slot).svGroups = [] ∧ (s.slot core slot).groups.Nodup ∧
  (s.slot core slot).groups ≠ [] ∧ (s.slot core slot).regPoison = []

/-- A list of valid entries in the order of R153: the entries of another list, their values with zeros above them, none before one that
stands earlier. -/
def Ordered (small : Bool) (t : BitVec 3) (es l : List Entry) : Prop :=
  l.Perm ((es.filter (entryValid t)).map fun e => (typeBits t e.1, e.2)) ∧ l.Pairwise fun a b => entryBefore small t b a = false

/-- The exact value of a lane of a type, integers too (R357). -/
def laneExact (f : BitVec 3) (x : Half) : FVal :=
  if f = 0 then .ofInt x.toInt 0 false else if f = 1 then .ofInt x.toNat 0 false else laneVal f x

/-! ## Exact values -/

/-- A finite exact value as a rational number. -/
def ratOf : FVal → Option Rat
  | .fin neg m e =>
    let x : Rat := ((m * 2 ^ e.toNat : Nat) : Rat) / ((2 ^ (-e).toNat : Nat) : Rat)
    some (if neg then -x else x)
  | _ => none

/-- A rational rounded to an integer by a mode (R141). -/
def intOf (m : Rnd) (x : Rat) : Int :=
  match m with
  | .rtz => if x < 0 then ⌈x⌉ else ⌊x⌋
  | .rup => ⌈x⌉
  | .rdn => ⌊x⌋
  | .rne =>
    let f := ⌊x⌋
    if x - f < 1 / 2 then f else if 1 / 2 < x - f then f + 1 else if f % 2 = 0 then f else f + 1

/-- A conversion to an integer between two bounds (R143): NaN gives 0, a result outside its range the nearer end. -/
def IntFrom (v : FVal) (m : Rnd) (lo hi z : Int) : Prop :=
  (v = .nan → z = 0) ∧ (∀ n, v = .inf n → z = if n then lo else hi) ∧ ∀ x, ratOf v = some x → z = max lo (min hi (intOf m x))

/-- A finite pattern of a format that an exact value rounds to by a mode (R141): on the side that the mode says, with no value of the
format between; for nearest, none is nearer, and the pattern is even where one is as near. -/
def RoundsTo (k : Fmt) (m : Rnd) (x : Rat) (bits : Nat) : Prop :=
  ∀ y, ratOf (k.value bits) = some y →
    (m = .rup → x ≤ y) ∧ (m = .rdn → y ≤ x) ∧ (m = .rtz → |y| ≤ |x|) ∧
    ∀ (n : Nat) (z : Rat), n < 2 ^ k.width → ratOf (k.value n) = some z →
      (m ≠ .rne → ¬ (x < z ∧ z < y) ∧ ¬ (y < z ∧ z < x)) ∧
      (m = .rne → |x - y| ≤ |x - z| ∧ (|x - y| = |x - z| → z ≠ y → bits % 2 = 0))

/-- A value narrowed to a format by a mode, and what it reports (R138, R141, R144): NaN gives the canonical NaN and infinities stay,
with no flag; a finite value is rounded; an infinite result of one is an overflow, and the modes that round toward zero give the
largest finite value in its place. -/
def NarrowsTo (k : Fmt) (m : Rnd) (v : FVal) (bits : Nat) (f : RFlags) : Prop :=
  (v = .nan → bits = k.nan ∧ f = .none) ∧ (∀ n, v = .inf n → bits = k.inf n ∧ f = .none) ∧
  ∀ x, ratOf v = some x → RoundsTo k m x bits ∧ f.inv = false ∧ bits % 2 ^ (k.e + k.f) ≤ k.inf false ∧
    (∀ n, k.value bits = .inf n → f.ovf = true ∧ f.inx = true ∧ n = decide (x < 0) ∧
      (m = .rne ∨ (m = .rup ∧ 0 < x) ∨ (m = .rdn ∧ x < 0)) ∧
      ∀ (w : Nat) (z : Rat), w < 2 ^ k.width → ratOf (k.value w) = some z → |z| < |x|) ∧
    (f.ovf = true → k.value bits = .inf (decide (x < 0)) ∨ bits = k.maxFinite (decide (x < 0))) ∧
    ∀ y, ratOf (k.value bits) = some y → f.ovf = false → (f.inx = false ↔ y = x) ∧
      (f.unf = true ↔ y ≠ 0 ∧ y ≠ x ∧ bits % 2 ^ (k.e + k.f) < 2 ^ k.f)

/-- A value of a narrow format widened to FP32 (R65): the same value, NaN canonical. -/
def WidensTo (v : FVal) (bits : Nat) : Prop :=
  (v = .nan → bits = 0x7FC00000) ∧ (∀ n, v = .inf n → bits = fp32.inf n) ∧
  ∀ x, ratOf v = some x → ratOf (fp32.value bits) = some x ∧ (fp32.value bits).isNeg = v.isNeg

end Sys2Proof
end

