-- ==== Sys2Proof/Certificates/Slice0/Obligations.lean ====
section
/-!
DEFINITION. The statements about the model, one definition each: what instructions, events and commands do, what they leave alone,
what the decoder and the encoder say of words, and what every step keeps.
-/

open Sys2Proof Sys2Proof.Machine

/-! ## Groups that are no instructions -/

/-- A fetched group traps ILL at decode, with the position of its bad slot (R68): no slot of it has any effect. -/
def Sys2Proof.Claims.TrapsIll (g : BitVec 64) (k : Nat) : Prop :=
  ∀ (s u : State), s.boot = .ready → s.issuing = true →
    (let b := (({ s with issuing := false }).beginPair s.curCore s.curSlot).modCur fun x => { x with lastIssue := some s.cc }
     b.fetch = (u, .ok (g, none))) →
    u.cur.coupled = false →
    step s = .next ({ u with lat := { u.lat with w0 := groupLo g, w1 := groupHi g, inA := k == 1 } }.stop (.trap clsIll 0))

/-! ## Words and steps -/

/-- Words of R266, R267, R268, R276, R285, R297, R308, R312, R313, R319 and R333 as the manual writes them out decode to the
instructions they stand for. -/
def Obligations.SampleWordsDecode : Prop :=
  decodeA 0x05253000#32 = some (.add 9 5 6 0) ∧ decodeA 0x0C630002#32 = some (.addi 3 3 2) ∧
  decodeA 0x21DDF000#32 = some (.and 14 29 30 0) ∧ decodeA 0x1B03A001#32 = some (.divu 24 3 20 0) ∧
  decodeA 0x2CC60782#32 = some (.shlImm 6 6 30 0) ∧ decodeA 0x5C2B5001#32 = some (.fcmp 1 11 10 0 1) ∧
  decodeC 0x201FFFC7#32 = some (.br (-57)) ∧ decodeC 0x26008000#32 = some (.jr 0 1 0) ∧
  decodeC 0x60530000#32 = some (.almr 5 6 0) ∧ decodeC 0x32080000#32 = some (.migrate 16 0) ∧
  decodeLone 0xAA400000#32 0x12345678#32 = some (.li 4 0x12345678) ∧
  decodeLone 0xA8900000#32 0xFFFFFFFF#32 = some (.loop 9 0xFFFFFFFF)

/-- The words of every well-formed pair decode to it, unless both slots write one register (R48): encoder and decoder agree on
every operand of both slots. A lone form is read from its two words, whatever they hold. -/
def Obligations.EncodedGroupsDecode : Prop :=
  (∀ c a w0 w1, WellFormed c = true → WellFormed a = true → encode c = .c w0 → encode a = .a w1 →
    writesClash (asDecoded c) a = false → decodeGroup w0 w1 = .ok (asDecoded c, some a)) ∧
  (∀ c w0 ext, WellFormed c = true → encode c = .lone w0 ext → decodeGroup w0 ext = .ok (c, none))

/-- Every word has one meaning and every meaning one word: what decodes is well-formed and encodes back to the same words, so no
bit of a legal word is ignored. -/
def Obligations.LegalWordsAreCanonical : Prop :=
  ∀ w i, decode w = some i → WellFormed i = true ∧ encode i = w

/-- A fetched pair whose words decode runs its decoded instructions: first the C-slot alone finds out whether the pair stops
before any effect; if not, the A-slot's meaning and then the C-slot's meaning are run over the latched registers (R48, R69). The
step moves the pc past the 8 bytes of the group before the meanings run. No register of the slot carries poison (R186). A
fetched lone form, or the C-slot of a pair whose A-slot has completed, is the one instruction that the step runs. A fetched
group that does not decode traps ILL at its bad slot, with no effect of either (R68). Outside a pair's issue the next turn of
the cc is run, and a step with none left goes on. -/
def Obligations.StepRunsDecodedGroup : Prop :=
  (∀ (s u : State) (g : BitVec 64) (c a : Instr),
     s.boot = .ready → s.issuing = true →
     (let b := (({ s with issuing := false }).beginPair s.curCore s.curSlot).modCur fun x => { x with lastIssue := some s.cc }
      b.fetch = (u, .ok (g, none))) →
     u.cur.coupled = false → u.cur.regPoison = [] → u.lat.adone = false →
     decodeGroup (groupLo g) (groupHi g) = .ok (c, some a) →
     (let v : State := { u with lat := { u.lat with w0 := groupLo g, w1 := groupHi g } }
      v.illAtIssue c (some a) = none → v.overAllot (some a) = none →
      let w := v.modCur fun x => { x with pc := u.lat.pc + 8, adone := false, held := none }
      let c1 := run c w
      let a1 := run a { w with lat := { w.lat with inA := true } }
      ((∃ x y, c1.lat.flow = .trapped x y) ∨ c1.lat.flow = .waits → exec c w = .next c1 ∧ step s = .next c1) ∧
      ((∀ x y, c1.lat.flow ≠ .trapped x y) → c1.lat.flow ≠ .waits → a1.lat.flow = .go → a1.cur.coupled = false →
        exec a { w with lat := { w.lat with inA := true } } = .next a1 ∧
        ∃ t, exec c { a1 with lat := { a1.lat with inA := false, adone := true } } = .next t ∧ step s = .next t))) ∧
  (∀ (s u : State) (g : BitVec 64) (c : Instr) (a : Option Instr),
     s.boot = .ready → s.issuing = true →
     (let b := (({ s with issuing := false }).beginPair s.curCore s.curSlot).modCur fun x => { x with lastIssue := some s.cc }
      b.fetch = (u, .ok (g, none))) →
     u.cur.coupled = false → u.cur.regPoison = [] → (a = none ∨ u.lat.adone = true) →
     decodeGroup (groupLo g) (groupHi g) = .ok (c, a) →
     (let v : State := { u with lat := { u.lat with w0 := groupLo g, w1 := groupHi g } }
      v.illAtIssue c none = none →
      let w := v.modCur fun x => { x with pc := u.lat.pc + 8, adone := false, held := none }
      ∃ t, exec c w = .next t ∧ step s = .next t)) ∧
  (∀ (g : BitVec 64) (k : Nat), decodeGroup (groupLo g) (groupHi g) = .error k → Sys2Proof.Claims.TrapsIll g k) ∧
  ((∀ s i rest, s.boot = .ready → s.issuing = false → s.turns = i :: rest → step s = exec i { s with turns := rest }) ∧
   (∀ s, s.boot = .ready → s.issuing = false → s.turns = [] → Goes s))

/-- The fetch of an aligned pc inside an executable c0, whose page the port maps executable, gives the eight bytes that stand at
the page's place, low word first, when no copy of them is held by the slot or its core and the line is not delivered poisoned
(R47, R71, R254), and no poison stands in c0 (R186). -/
def Obligations.FetchReadsTheGroupAtThePc : Prop :=
  ∀ (s : State) (e : TlbEntry) (pa cls key : Nat) (t : Bool),
    SlotOk s →
    let pc := s.lat.pc.toNat
    let k : Cap := s.cur.c[0]
    let dva := k.base + pc
    k.x = true → pc % 8 = 0 → pc + 8 ≤ k.limit → dva < 2 ^ 56 → isWindow dva = false →
    s.cur.poisoned = false → 40 ∉ s.cur.regPoison → s.cur.fbuf = [] → s.here.icache = [] → s.breakpoints = [] →
    s.cur.walkFailed (s.asidOf s.cur) dva .fetch = none →
    s.tlbFind s.curCore s.cur (s.asidOf s.cur) dva = some e → e.pte.getLsbD 46 = true → e.loc dva = .mem pa t cls key →
    pa % 8 = 0 →
    (s.l2Access s.curCore s.cur.launch (.mem (pa / 128 * 128) t cls key) 128 false).poisonedAt (.mem pa t cls key) 8 = false →
    ∃ u, s.fetch = (u, .ok (BitVec.ofNat 64 (natOfBytes (s.mem.rdBytes pa 8)), none)) ∧ u.cur.pc = s.cur.pc ∧
      u.lat = s.lat ∧ SameMemory s u

/-! ## Reset -/

/-- Right after bring-up (R262): the part is ready; every slot of every core is FREE with s0–s31, TRAPVEC, TRAPREC, TICKET and the
capabilities 0, DTNAN 0xFF and no lanes; Almanac entry k is valid with k as step and issue owner (R74); memory and local memory read
0; no launch and no enabled queue. That s1–s31 and p1–p7, the accumulators and the decode table are 0 is the model's choice (log
entry 11), and so is it that host memory, which bring-up does not scrub, reads 0 (log entry 16). -/
def Obligations.ResetLeavesTheMachine : Prop :=
  State.reset.boot = .ready ∧ State.reset.cc = 0 ∧ State.reset.launches = [] ∧
  (∀ pa, byteAt State.reset pa = 0) ∧ (∀ core off, localByteAt State.reset core off = 0) ∧
  (∀ q, (Sparse.get Queue.reset State.reset.queues q).desc = 0) ∧
  (∀ core k, k < 16 →
    let x := State.reset.slot core k
    x.st = .free ∧ (∀ r, x.reg r = 0) ∧ (∀ p, x.pred p = (p == 0)) ∧ (∀ c : Fin 8, x.c[c] = 0) ∧ x.trapvec = 0 ∧ x.traprec = 0 ∧
      x.ticket = 0 ∧ x.dtnan = 0xFF ∧ x.groups = [] ∧ x.allot = 0 ∧ x.status = 0 ∧
      ((State.reset.core core).entry k) = 1#1 ++ BitVec.ofNat 4 k ++ BitVec.ofNat 4 k) ∧
  (∀ core, State.reset.core core = Core.reset) ∧ (∀ core w, (State.reset.full (.lm core (8 * w))) = !(0x1000 ≤ w && w < 0x1004))

/-- The memories of the package are in canonical form after reset. -/
def Obligations.ResetMemoryIsCanonical : Prop :=
  MemWf State.reset = true

/-- Every step keeps every memory of the package in canonical form: no two entries for a byte, none that an unlisted byte would
read as. -/
def Obligations.EveryStepKeepsMemoryCanonical : Prop :=
  ∀ s t, MemWf s = true → step s = .next t → MemWf t = true

/-! ## Registers (R55, R50) -/

/-- The register files of R55: s0 reads 0 and p0 reads 1, before a pair and after it, and writes to them are discarded; any
other register reads as it was last written; a write of one register leaves every other one, the status and the pc of its slot,
every other slot and all of memory as they were. -/
def Obligations.RegisterFilesReadWhatWasWritten : Prop :=
  ∀ (s : State) (r : Reg) (v : Word) (p : PredIx) (b : Bool), SlotOk s →
    (s.src 0 = 0 ∧ s.psrc 0 = true ∧ s.cur.reg 0 = 0 ∧ s.cur.pred 0 = true) ∧
    (s.setReg 0 v).cur = s.cur ∧ (s.setPred 0 b).cur = s.cur ∧
    (r ≠ 0 → (s.setReg r v).cur.reg r = v) ∧ (p ≠ 0 → (s.setPred p b).cur.pred p = b) ∧
    (∀ q, q ≠ r → (s.setReg r v).cur.reg q = s.cur.reg q) ∧ (∀ q, q ≠ p → (s.setPred p b).cur.pred q = s.cur.pred q) ∧
    (∀ q, (s.setReg r v).cur.pred q = s.cur.pred q) ∧ (∀ q, (s.setPred p b).cur.reg q = s.cur.reg q) ∧
    (let same (t : State) : Prop :=
       t.cur.pc = s.cur.pc ∧ t.cur.status = s.cur.status ∧ t.cur.c = s.cur.c ∧ SameMemory s t ∧
       ∀ core k, k < 16 → (core, k) ≠ (s.curCore, s.curSlot) → t.slot core k = s.slot core k
     same (s.setReg r v) ∧ same (s.setPred p b))

/-! ## Integers of the A-slot -/

/-- Sums, products, quotients and remainders are those of the integers, narrowed to 64 bits (R266, R285, R325, R330, R343); a
guard that does not hold leaves everything as it was. MIN, MAX, MINU and MAXU give one of the two sources, the lesser or the
greater as signed or unsigned numbers (R318). Bitwise operations, shifts, BITS, EXT and INS by numbers (R268, R275, R295, R327,
R333, R377). -/
def Obligations.IntegerInstructionsComputeOnIntegers : Prop :=
  (∀ (i : Instr) (s : State) (g : PredIx) (d : Reg) (v : Word), WellFormed i = true → arithResult s i = some (g, d, v) →
     exec i s = .next (if s.guard g then s.setReg d v else s)) ∧
  (∀ (s : State) (d a b : Reg) (g : PredIx), s.guard g = true →
     (∃ v, exec (.min d a b g) s = .next (s.setReg d v) ∧ v.toInt = min (sgn s a) (sgn s b)) ∧
     (∃ v, exec (.max d a b g) s = .next (s.setReg d v) ∧ v.toInt = max (sgn s a) (sgn s b)) ∧
     (∃ v, exec (.minu d a b g) s = .next (s.setReg d v) ∧ v.toNat = min (uns s a) (uns s b)) ∧
     (∃ v, exec (.maxu d a b g) s = .next (s.setReg d v) ∧ v.toNat = max (uns s a) (uns s b))) ∧
  (∀ (i : Instr) (s : State) (g : PredIx) (d : Reg) (v : Word), WellFormed i = true → bitResult s i = some (g, d, v) →
     exec i s = .next (if s.guard g then s.setReg d v else s))

/-- R268: AND and ANDN bit by bit; both complete in every state, so neither traps; the example words. R343: SUB modulo 2^64, its
reserved minors, no trap and no flag, the example word, and ADDI with the negated value. -/
def Obligations.AndAndnSubCompute : Prop :=
  ((∀ (s : State) (d a b : Reg) (g : PredIx), s.guard g = true →
     (∃ v, exec (.and d a b g) s = .next (s.setReg d v) ∧ ∀ k, v.getLsbD k = ((s.src a).getLsbD k && (s.src b).getLsbD k)) ∧
     (∃ v, exec (.andn d a b g) s = .next (s.setReg d v) ∧
       ∀ k, v.getLsbD k = ((s.src a).getLsbD k && !(s.src b).getLsbD k))) ∧
   (∀ (s : State) (d a b : Reg) (g : PredIx), (∃ t, exec (.and d a b g) s = .next t ∧ t.lat.flow = s.lat.flow) ∧
     ∃ t, exec (.andn d a b g) s = .next t ∧ t.lat.flow = s.lat.flow) ∧
   decodeA 0x21DDF000#32 = some (.and 14 29 30 0) ∧ decodeA 0x20632001#32 = some (.andn 3 3 4 0)) ∧
  ((∀ (s : State) (d a b : Reg) (g : PredIx), s.guard g = true →
     exec (.sub d a b g) s = .next (s.setReg d (BitVec.ofInt 64 (((uns s a : Int) - uns s b) % 2 ^ 64)))) ∧
   (∀ (s : State) (d a b : Reg) (g : PredIx), ∃ t, exec (.sub d a b g) s = .next t ∧ t.lat.flow = s.lat.flow ∧
     t.cur.status = s.cur.status ∧ t.cur.p = s.cur.p) ∧
   (∀ (d a b e : BitVec 5) (g minor : BitVec 3), minor ≠ 0 → decodeA (AF.pack ⟨2, d, a, b, e, g, minor⟩) = none) ∧
   decodeA 0x0BEB1000#32 = some (.sub 31 11 2 0) ∧
   (∀ (s : State) (d a : Reg) (k : BitVec 16), k ≠ BitVec.intMin 16 →
     exec (.addi d a (-k)) s = .next (s.setReg d (BitVec.ofInt 64 ((uns s a : Int) - k.toInt)))))

/-- R281: CMP sets its predicate to 1 or 0 by the condition of its minor; minors 6 and 7, and a field d of more than three bits,
trap ILL beside every legal C-slot; a write of p0 is discarded; the predicate counts as a destination; the example word. R334:
SEL by its predicate as it stood before the pair; a field e of more than three bits and other minors trap ILL; a false guard
leaves s[d]; with p0 it is a move; the example word. -/
def Obligations.CompareAndSelect : Prop :=
  ((∀ (s : State) (p : PredIx) (a b : Reg) (g : PredIx) (x : BitVec 3), WellFormed (.cmp p a b g x) = true → s.guard g = true →
     (cmpHolds s x a b → exec (.cmp p a b g x) s = .next (s.setPred p true)) ∧
     (¬ cmpHolds s x a b → exec (.cmp p a b g x) s = .next (s.setPred p false))) ∧
   (∀ (s : State) (v : Bool), (s.setPred 0 v).cur = s.cur) ∧
   (∀ (w0 : Half) (d a b e : BitVec 5) (g minor : BitVec 3), w0.getLsbD 31 = false → decodeC w0 ≠ none →
     (6#3).ule minor = true ∨ (8#5).ule d = true → Sys2Proof.Claims.TrapsIll (AF.pack ⟨15, d, a, b, e, g, minor⟩ ++ w0) 1) ∧
   (∀ p a b g x, destinations (.cmp p a b g x) = [32 + p.toNat]) ∧
   decodeA 0x3C2C7801#32 = some (.cmp 1 12 15 0 1)) ∧
  ((∀ (s : State) (d a b : Reg) (p g : PredIx), s.guard g = true →
     exec (.sel d a b p g) s = .next (s.setReg d (if s.psrc p = true then s.src a else s.src b))) ∧
   (∀ (s : State) (d a b : Reg) (p g : PredIx), s.guard g = false → exec (.sel d a b p g) s = .next s) ∧
   (∀ (s : State) (d a b : Reg) (g : PredIx), s.guard g = true → exec (.sel d a b 0 g) s = .next (s.setReg d (s.src a))) ∧
   (∀ (w0 : Half) (d a b e : BitVec 5) (g minor : BitVec 3), w0.getLsbD 31 = false → decodeC w0 ≠ none →
     minor ≠ 0 ∨ (8#5).ule e = true → Sys2Proof.Claims.TrapsIll (AF.pack ⟨16, d, a, b, e, g, minor⟩ ++ w0) 1) ∧
   decodeA 0x40A63880#32 = some (.sel 5 6 7 2 0))

/-- An integer or floating-point instruction of the A-slot changes nothing but registers and status of its own slot: every other
slot, the pc, the capabilities, all of memory, the full/empty bits and the rest of the package are as they were. A guard that
does not hold leaves an instruction without effect (R50, R264): exec gives the state it was given, whatever the instruction, its
operands and the mode. -/
def Obligations.ScalarASlotChangesOnlyItsRegisters : Prop :=
  (∀ (i : Instr) (s t : State), SlotOk s → scalarA i = true → exec i s = .next t →
     (t = s ∨ t = s.setCur { s.cur with
       s := t.cur.s, p := t.cur.p, status := t.cur.status, wlog := t.cur.wlog, regPoison := t.cur.regPoison }) ∧
     (∀ r : Reg, r.toNat ∉ destinations i ∨ r = 0 → t.cur.reg r = s.cur.reg r) ∧
     (∀ q, 32 + q.toNat ∉ destinations i → t.cur.pred q = s.cur.pred q) ∧
     (floatA i = false → t.cur.status = s.cur.status)) ∧
  (∀ (i : Instr) (g : PredIx) (s : State), guardOf i = some g → s.psrc g = false → exec i s = .next s)

/-! ## Floating point of the A-slot -/

/-- The scalar FP32 instructions: the result of the exact operation rounded once, with its flags joined to STATUS; FMIN, FMAX
and FCMP as R145 orders values (R296, R297, R303, R304, R305). FCVT by minor and mode (R65, R141, R143, R144, R298): to i64 the
value rounded by the mode, the nearer end of the range where it lies beyond, 0 for NaN; to FP32 from i64, and to BF16, FP16 and
E8M10, the value rounded by the mode, an overflow by the mode, NaN canonical; widened, the same value; each with its flags. -/
def Obligations.FloatInstructionsRoundTheExactResult : Prop :=
  ∀ (s : State) (d a b e : Reg) (p g : PredIx) (x : BitVec 2) (k : BitVec 3) (r : BitVec 2), s.guard g = true →
    let A := fp32.value (uns s a % 2 ^ 32)
    let B := fp32.value (uns s b % 2 ^ 32)
    let E := fp32.value (uns s e % 2 ^ 32)
    let put (v : Nat × RFlags) : State := (s.setReg d (BitVec.ofNat 64 v.1)).raise v.2
    let rounded (v : FVal) : State := if v = .nan then put (0x7FC00000, .invalid) else put (fp32.round .rne v)
    exec (.fadd d a b g) s = .next (rounded (A.add B)) ∧
    exec (.fsub d a b g) s = .next (rounded (A.add B.neg)) ∧
    exec (.fmul d a b g) s = .next (rounded (A.mul B)) ∧
    exec (.fma d a b e g) s = .next (rounded ((A.mul B).add E)) ∧
    exec (.fms d a b e g) s = .next (rounded ((A.mul B).add E.neg)) ∧
    (∃ v, exec (.fmin d a b g) s = .next (put (v, if A = .nan ∨ B = .nan then .invalid else .none)) ∧
      fp32.value v = FVal.pick false A B) ∧
    (∃ v, exec (.fmax d a b g) s = .next (put (v, if A = .nan ∨ B = .nan then .invalid else .none)) ∧
      fp32.value v = FVal.pick true A B) ∧
    (∃ v, exec (.fcmp p a b g x) s = .next ((s.setPred p v).raise
        (if (x = 1 ∨ x = 2) ∧ (A = .nan ∨ B = .nan) then .invalid else .none)) ∧
      (v = true ↔ (x = 0 ∧ A.cmp B = some .eq) ∨ (x = 1 ∧ A.cmp B = some .lt) ∨
        (x = 2 ∧ (A.cmp B = some .lt ∨ A.cmp B = some .eq)) ∨ (x = 3 ∧ A.cmp B = none))) ∧
    (let m := Rnd.ofCode r
     let v := fcvtOp k m (s.src a)
     let out (x : Rat) : Prop := intOf m x < -(2 ^ 63) ∨ 2 ^ 63 - 1 < intOf m x
     exec (.fcvt d a r g k) s = .next (put v) ∧
     (k = 0 → ∃ z : Int, v.1 = (BitVec.ofInt 64 z).toNat ∧ IntFrom A m (-(2 ^ 63)) (2 ^ 63 - 1) z ∧ v.2.ovf = false ∧ v.2.unf = false ∧
       (v.2.inv = true ↔ ∀ x, ratOf A = some x → out x) ∧
       (v.2.inx = true ↔ ∃ x, ratOf A = some x ∧ ¬ out x ∧ (z : Rat) ≠ x)) ∧
     (k = 1 → NarrowsTo fp32 m (.ofInt (sgn s a) 0 false) v.1 v.2) ∧
     (k = 2 → NarrowsTo bf16 m A v.1 v.2) ∧ (k = 4 → NarrowsTo fp16 m A v.1 v.2) ∧ (k = 6 → NarrowsTo e8m10 m A v.1 v.2) ∧
     (k = 3 → WidensTo (bf16.value (uns s a % 2 ^ 16)) v.1 ∧ v.2 = .none) ∧
     (k = 5 → WidensTo (fp16.value (uns s a % 2 ^ 16)) v.1 ∧ v.2 = .none) ∧
     (k = 7 → WidensTo (e8m10.value (uns s a % 2 ^ 19)) v.1 ∧ v.2 = .none))

/-- Exact sums and products of finite values are those of the rationals; the order of finite values is theirs. The directed
modes (R141): to FP32, toward zero never grows a magnitude, up never falls below and down never rises above the exact value, and
no value of the format lies between. -/
def Obligations.ExactAndDirectedResults : Prop :=
  (∀ (a b : FVal) (x y : Rat), ratOf a = some x → ratOf b = some y →
     ratOf (a.add b) = some (x + y) ∧ ratOf (a.mul b) = some (x * y) ∧ ratOf a.neg = some (-x) ∧
     (a.cmp b = some .lt ↔ x < y) ∧ (a.cmp b = some .eq ↔ x = y) ∧ a.cmp b ≠ none) ∧
  (∀ (v : FVal) (x y : Rat) (r : Rnd), ratOf v = some x → r ≠ .rne → ratOf (fp32.value (fp32.bits r v)) = some y →
     (r = .rup → x ≤ y) ∧ (r = .rdn → y ≤ x) ∧ (r = .rtz → |y| ≤ |x|) ∧
     ∀ (n : Nat) (z : Rat), n < 2 ^ 32 → ratOf (fp32.value n) = some z → ¬ (x < z ∧ z < y) ∧ ¬ (y < z ∧ z < x))

/-- Rounding to nearest, ties to even (R141): a finite result of rounding an exact value to FP32 is a value nearest to it, and
the even pattern where two are equally near; no inexact flag means that the value is kept. -/
def Obligations.RoundingGivesTheNearestValue : Prop :=
  ∀ (v : FVal) (x y : Rat), ratOf v = some x → ratOf (fp32.value (fp32.bits .rne v)) = some y →
    (∀ (n : Nat) (z : Rat), n < 2 ^ 32 → ratOf (fp32.value n) = some z →
      |x - y| ≤ |x - z| ∧ (|x - y| = |x - z| → z ≠ y → fp32.bits .rne v % 2 = 0)) ∧
    ((fp32.round .rne v).2.inx = false ↔ y = x)

/-! ## Control flow (R47, R274, R276, R307, R308, R313) -/

/-- NOPs change nothing; LI gives the sign-extended constant; LIH replaces the high half and keeps the low one (R312). Branches
and calls set the pc to a distance of pairs from their own pc, or to the pair after it (R274, R276, R307); the link is s1; a
lone form does what its short form does with a displacement of 32 bits. LOOP counts its register down (R313). -/
def Obligations.ConstantsAndBranches : Prop :=
  (∀ (s : State) (d : Reg) (ext : Half),
     exec .nopC s = .next s ∧ exec .nopA s = .next s ∧
     exec (.li d ext) s = .next (s.setReg d (BitVec.ofInt 64 ext.toInt)) ∧
     exec (.lih d ext) s = .next (s.setReg d (BitVec.ofNat 64 (ext.toNat * 2 ^ 32 + uns s d % 2 ^ 32)))) ∧
  (∀ (s : State) (p : PredIx) (sense : BitVec 1) (disp : BitVec 21) (ext : Half) (d : Reg),
     let pc := s.lat.pc.toNat
     let tgt (n : Int) : Word := BitVec.ofInt 64 ((pc : Int) + 8 * n)
     let goes := s.psrc p = true ∧ sense = 0 ∨ s.psrc p = false ∧ sense = 1
     exec (.br disp) s = .next (goTo s (tgt disp.toInt)) ∧
     exec (.brLone ext) s = .next (goTo s (tgt ext.toInt)) ∧
     (goes → exec (.bc p sense disp) s = .next (goTo s (tgt disp.toInt)) ∧
       exec (.bcLone p sense ext) s = .next (goTo s (tgt ext.toInt))) ∧
     (¬ goes → exec (.bc p sense disp) s = .next (goTo s (tgt 1)) ∧ exec (.bcLone p sense ext) s = .next (goTo s (tgt 1))) ∧
     exec (.jal disp) s = .next (goTo (s.setReg 1 (tgt 1)) (tgt disp.toInt)) ∧
     exec (.jalLone ext) s = .next (goTo (s.setReg 1 (tgt 1)) (tgt ext.toInt)) ∧
     (let n := BitVec.ofInt 64 ((uns s d : Int) - 1)
      exec (.loop d ext) s = .next (goTo (s.setReg d n) (if uns s d = 1 then tgt 1 else tgt ext.toInt))))

/-- R308: JR links and jumps by the values before the pair; with both fields the same register it swaps them; a target that is
not a multiple of 8 traps ALN with s[a]; one outside c0, or without X, traps SEG when it is fetched; the example words. -/
def Obligations.JumpThroughARegister : Prop :=
  (∀ (s : State) (d a : Reg) (g : PredIx), s.guard g = true → uns s a % 8 = 0 →
    exec (.jr d a g) s = .next (served (goTo (s.setReg d (s.lat.pc + 8)) (s.src a)))) ∧
  (∀ (s : State) (d a : Reg) (g : PredIx), s.guard g = true → uns s a % 8 ≠ 0 →
    exec (.jr d a g) s = .next (s.stop (.trap clsAln (uns s a)))) ∧
  (∀ s : State, (let k : Cap := s.cur.c[0]
    k.x = false ∨ k.limit < s.lat.pc.toNat + 8) → s.fetch = (s, .error (.trap clsSeg s.lat.pc.toNat))) ∧
  decodeC 0x26008000#32 = some (.jr 0 1 0) ∧ decodeC 0x26148000#32 = some (.jr 1 9 0)

/-! ## Taking a trap and returning from it (R177–R180) -/

/-- Taking a trap whose record can be pushed (R177), in a slot with an empty sequencer, no gang, no open packet and no poison in s2, at
a core where no access waits: the record stands below s2 and in the save area, s2 and TRAPREC name it, TRAPCLS holds the class, the pc
is TRAPVEC, and nothing else of the slot but its waits and its lanes has changed. A trap whose record cannot be pushed escalates
(R180): outside slot 14 the slot is pre-empted with its context saved, and the record with ESC stands in its save area; in slot
14 the handler ends. -/
def Obligations.TrapsPushARecordOrEscalate : Prop :=
  (∀ (s : State) (core slot cls info : Nat) (pc : Word) (pair off : Nat) (adone slotk : Bool),
     slot < 16 → cls < 256 →
     (let x := s.slot core slot
      let a := (x.reg 2).toNat - 64
      x.trapvec ≠ 0 → programArea + 64 ≤ (x.reg 2).toNat → (x.reg 2).toNat ≤ s.lmend core x → (x.reg 2).toNat % 8 = 0 →
      2 ∉ x.regPoison → x.st ≠ .killed → x.seq = [] → (s.cluster (clusterOf core)).sfu = [] →
      x.gang = false → x.packet = none → x.coupled = false →
      (s.core core).waiters = [] →
      s.place x.launch core a = some off → off % 8 = 0 → (off + 64 ≤ saveArea slot ∨ saveArea slot + 0x400 ≤ off) →
      let r : TrapRec :=
        { epc := if cls = clsTrapi then (pc + 8).toNat else pc.toNat, info := info, pair := pair, cls := cls, seqd := 0,
          adone := adone, esc := false, pktd := false, gspl := false, slotk := slotk, prev := x.traprec.toNat, cyc := s.cc,
          w48 := 0, w56 := 0 }
      let t := s.takeTrap core slot cls info pc pair adone slotk
      let y := t.slot core slot
      (t.core core).lm.rdBytes off 64 = r.bytes ∧ (t.core core).lm.rdBytes (saveArea slot + 0x3C0) 64 = r.bytes ∧
      y.reg 2 = BitVec.ofNat 64 a ∧ y.traprec = BitVec.ofNat 64 a ∧ y.pc = x.trapvec ∧ fld y.status 24 8 = cls ∧ y.st = .ready ∧
      (∀ r : Reg, r ≠ 2 → y.reg r = x.reg r) ∧ y.p = x.p ∧ y.c = x.c ∧ y.ticket = x.ticket ∧ y.join = x.join ∧
      y.matQ = x.matQ ∧ y.copyQ = x.copyQ ∧
      (∀ b, b < 24 ∨ 32 ≤ b → y.status.getLsbD b = x.status.getLsbD b) ∧
      (∀ pa, byteAt t pa = byteAt s pa) ∧
      ∀ k o, (k ≠ core ∨ ((o < off ∨ off + 64 ≤ o) ∧ (o < saveArea slot + 0x3C0 ∨ saveArea slot + 0x400 ≤ o))) →
        localByteAt t k o = localByteAt s k o)) ∧
  (∀ (s : State) (core slot cls info : Nat) (pc : Word) (pair : Nat) (adone slotk : Bool), slot < 16 → NoWaiters s →
     (s.slot core slot).st ≠ .killed → (s.slot core slot).trapvec = 0 → 2 ∉ (s.slot core slot).regPoison →
     (s.slot core slot).seq = [] → (s.cluster (clusterOf core)).sfu = [] →
     (s.slot core slot).gang = false → (s.slot core slot).packet = none → (s.slot core slot).coupled = false →
     (slot = 14 → (s.slot core slot).ticket = 0) →
     (let x := s.slot core slot
      let r : TrapRec :=
        { epc := if cls = clsTrapi then (pc + 8).toNat else pc.toNat, info := info, pair := pair, cls := cls, seqd := 0,
          adone := adone, esc := true, pktd := false, gspl := false, slotk := slotk, prev := x.traprec.toNat, cyc := s.cc,
          w48 := 0, w56 := 0 }
      let t := s.takeTrap core slot cls info pc pair adone slotk
      let y := t.slot core slot
      (t.core core).lm.rdBytes (saveArea slot + 0x3C0) 64 = r.bytes ∧
      (t.core core).lm.rdBytes (saveArea slot) 256 = bytesOfWords (x.s.toList.map BitVec.toNat) ∧
      (slot ≠ 14 → y.st = .saved ∧ y.pc = BitVec.ofNat 64 r.epc ∧ y.s = x.s ∧ y.status = x.status ∧ y.traprec = x.traprec) ∧
      (slot = 14 → y.st = .free ∧ y.launch = none)))

/-- TRAP takes its trap with class TRAPI and INFO s[a], in every mode (R179, R293), once the sequencer can be emptied (R177). ERET from
where TRAP has pushed its record brings back the pc after the TRAP, s2 and TRAPREC. ERET in general (R179, R293): the record at TRAPREC
gives pc, TRAPREC and ADONE, s2 is put above it; with no record it traps ILL, with one that does not stand in the partition SYS. -/
def Obligations.TrapThenReturnGoesOn : Prop :=
  ((∀ (s : State) (a : Reg) (g : PredIx), s.guard g = true →
     exec (.trap a g) s = .next (s.stop (.trap clsTrapi (uns s a))) ∧
     (s.trapWaits s.curCore s.curSlot = false → exec (.trap a g) s =
       .next { s.trapHere clsTrapi (uns s a) s.lat.adone with
         lat := { (s.trapHere clsTrapi (uns s a) s.lat.adone).lat with flow := .trapped clsTrapi (uns s a) } })) ∧
   ∀ (s u : State) (a : Reg) (off : Nat) (l : Latch), SlotOk s →
     (let x := s.cur
      x.trapvec ≠ 0 → programArea + 64 ≤ (x.reg 2).toNat → (x.reg 2).toNat ≤ s.lmend s.curCore x → (x.reg 2).toNat % 8 = 0 →
      2 ∉ x.regPoison → x.st ≠ .killed → x.seq = [] → (s.cluster s.cl).sfu = [] →
      x.gang = false → x.packet = none → x.coupled = false →
      s.here.waiters = [] → s.here.lmPoison = [] →
      s.place x.launch s.curCore ((x.reg 2).toNat - 64) = some off → off % 8 = 0 → saveArea s.curSlot + 0x400 ≤ off →
      exec (.trap a 0) s = .next u →
      ∃ t, exec (.eret 0) { u with lat := l } = .next t ∧ t.cur.pc = s.lat.pc + 8 ∧ t.cur.reg 2 = x.reg 2 ∧
        t.cur.traprec = x.traprec ∧ t.cur.adone = s.lat.adone ∧ ∀ r : Reg, t.cur.reg r = x.reg r)) ∧
  (∀ (s : State) (g : PredIx), s.guard g = true →
     (let a := s.cur.traprec.toNat
      let inside := programArea ≤ a ∧ a + 64 ≤ s.lmend s.curCore s.cur ∧ (s.place s.cur.launch s.curCore a).isSome = true
      (a = 0 → exec (.eret g) s = .next (s.stop (.trap clsIll 0))) ∧
      (a ≠ 0 → ¬ inside → exec (.eret g) s = .next (s.stop (.trap clsSys a))) ∧
      (∀ off, a ≠ 0 → inside → s.place s.cur.launch s.curCore a = some off → s.poisonedAt (.lm s.curCore off) 64 = false →
        off % 8 = 0 →
        let w (i : Nat) : Word := s.rdWord (.lm s.curCore (off + 8 * i))
        exec (.eret g) s = .next (served ((s.setReg 2 (BitVec.ofNat 64 (a + 64))).modCur fun x =>
          { x with pc := w 0, traprec := w 4, adone := (w 3).getLsbD 4 })))))

/-! ## Special registers (R58, R59, R283, R284) -/

/-- CSRR reads every number that R58 lists: the value is there for each, and other numbers do not decode; CYCLE, SLOTID and CORELOC
are the slot's own outside checked pairing (R189). CSRW: STATUS clears, by ones, only the flags it may clear (R59), and of those the
ones that stood set before the pair, which is the model's choice (log entry 70); TRAPVEC is cut to a multiple of 8; STEALDOM is no
wider than the launch's domain; SAGEMODE, LZDROP and PREEMPT_TIMER are the supervisor's: user mode traps SYS with INFO 0x11 (R265).
-/
def Obligations.SpecialRegistersReadAndWrite : Prop :=
  ((∀ (s : State) (d : Reg) (n : BitVec 10) (v : Word), s.csrValue n = some v →
     exec (.csrr d n) s = .next (served (s.setReg d v))) ∧
   (∀ (s : State) (n : BitVec 10), csrListed n = true ↔ (s.csrValue n).isSome = true) ∧
   (∀ d n, csrListed n = false → WellFormed (.csrr d n) = false) ∧
   (∀ s : State, s.csrValue 0 = some s.lat.status ∧ s.csrValue 1 = some s.cur.trapvec ∧ s.csrValue 2 = some s.cur.traprec ∧
     (s.cur.coupled = false → s.csrValue 3 = some (BitVec.ofNat 64 s.cc) ∧
       s.csrValue 4 = some (BitVec.ofNat 64 ((s.device * 1024 + s.curCore) * 16 + s.curSlot)) ∧
       s.csrValue 5 = some (BitVec.ofNat 64 (s.device * 1024 + s.curCore))) ∧
     s.csrValue 6 = some (BitVec.ofNat 64 (s.here.vlen s.curSlot)) ∧ s.csrValue 7 = some (BitVec.ofNat 64 s.cur.allot) ∧
     s.csrValue 0x00A = some s.cur.ticket ∧ s.csrValue 0x00B = some (s.cur.stealdom.setWidth 64) ∧
     s.csrValue 0x00D = some (s.here.lzdrop.setWidth 64) ∧ s.csrValue 0x00E = some (s.cur.dtnan.setWidth 64) ∧
     s.csrValue 0x00F = some (s.cur.timer.setWidth 64) ∧
     ∀ l, s.launchOf s.cur = some l → s.csrValue 8 = some (BitVec.ofNat 64 l.fmt) ∧ s.csrValue 9 = some (BitVec.ofNat 64 l.scl) ∧
       s.csrValue 0x00C = some (l.sage.setWidth 64))) ∧
  (∀ (s : State) (a : Reg),
     let v := s.src a
     exec (.csrw a 0) s = .next (served (s.modCur fun x => { x with status := statusWritten x.status s.lat.status v })) ∧
     (∀ b st seen, (statusWritten st seen v).getLsbD b =
       (st.getLsbD b && !((b ∈ [8, 9, 10, 11, 12, 13, 16] : Bool) && seen.getLsbD b && v.getLsbD b))) ∧
     exec (.csrw a 1) s = .next (served (s.modCur fun x => { x with trapvec := BitVec.ofNat 64 (v.toNat / 8 * 8) })) ∧
     (∀ l, s.launchOf s.cur = some l → ∃ k : BitVec 2, k.toNat = min (v.toNat % 4) l.steal.toNat ∧
       exec (.csrw a 0x00B) s = .next (served (s.modCur fun x => { x with stealdom := k }))) ∧
     exec (.csrw a 0x00E) s = .next (served (s.modCur fun x => { x with dtnan := BitVec.ofNat 8 v.toNat })) ∧
     (s.cur.supervisor = true →
       exec (.csrw a 0x00C) s = .next (served (s.modLaunch (s.cur.launch.getD 0) fun l =>
         { l with sage := if v.toNat % 4 = 3 then 0 else BitVec.ofNat 2 v.toNat })) ∧
       exec (.csrw a 0x00D) s = .next (served (s.modHere fun c => { c with lzdrop := BitVec.ofNat 32 v.toNat })) ∧
       exec (.csrw a 0x00F) s = .next (served (s.modCur fun x => { x with timer := BitVec.ofNat 32 v.toNat }))) ∧
     (s.cur.supervisor = false → ∀ n ∈ [0x00C#10, 0x00D#10, 0x00F#10],
       exec (.csrw a n) s = .next (s.stop (.trap clsSys 0x11))))

/-- A write of TICKET (R206, R284): 0 clears it; an address with low bits 1 adopts the record at the address below, or traps SEG for
a window address and, by the model's choice (log entry 87), for one of more than 56 bits; an address of a 128-byte record opens the
walk there: the record's words are initialised, its ticket word is empty, TICKET names it; low bits other than 0 and 1 trap ALN. -/
def Obligations.TicketWritesOpenAdoptAndClear : Prop :=
  ∀ (s : State) (a : Reg), SlotOk s →
    let v := s.src a
    (v = 0 → exec (.ticketClear a) s = .next (served (s.modCur fun x => { x with ticket := 0 })) ∧
      exec (.openWalk a) s = .next (served (s.modCur fun x => { x with ticket := 0 }))) ∧
    (v.toNat % 128 = 1 → v.toNat < 2 ^ 56 → isWindow (v - 1).toNat = false →
      exec (.adoptWalk a) s = .next (served (s.modCur fun x => { x with ticket := v - 1 })) ∧
      exec (.openWalk a) s = .next (served (s.modCur fun x => { x with ticket := v - 1 }))) ∧
    (v.toNat % 128 = 1 → 2 ^ 56 ≤ v.toNat ∨ isWindow (v - 1).toNat = true →
      exec (.adoptWalk a) s = .next (s.stop (.trap clsSeg (v - 1).toNat))) ∧
    (1 < v.toNat % 128 → exec (.openWalk a) s = .next (s.stop (.trap clsAln v.toNat))) ∧
    (∀ pa tr cl key, v ≠ 0 → v.toNat % 128 = 0 → v.toNat < 2 ^ 56 → isWindow v.toNat = false → pa % 128 = 0 →
      s.xlate v.toNat .atomic = .ok (.mem pa tr cl key) → StoresIn s → s.waiters = [] →
      ∃ t, exec (.openWalk a) s = .next t ∧ t.cur.ticket = v ∧ t.full (.mem pa tr cl key) = false ∧
        t.mem.rdBytes pa 32 = bytesOfWords [0, 0x100, 0, 0] ∧
        (∀ b, b < pa ∨ pa + 32 ≤ b → byteAt t b = byteAt s b) ∧ ∀ core off, localByteAt t core off = localByteAt s core off)

/-! ## YIELD, flushes, WAKE, the Almanac, the decode table -/

/-- YIELD gives up the slot's turns until the next rotation boundary, and traps PKT 4 with a packet open (R87, R294). ASFL and
ASBAR (R108, R269): in user mode SYS; ASFL leaves no TLB entry of the ASID in any port, and no walk of the ASID in any slot that would
install one, and ASBAR goes on when every access translated before the flush has completed. WAKE (R107, R376), by the supervisor or by
a strand of the launch: a faulted context that its tag names is put on its slot's list once, and a WAKE that names none, or one woken
already, does nothing; a WAKE for another core waits for its reply; another launch's slot traps SYS 0x13; a word with reserved bits set
traps SEG. -/
def Obligations.YieldFlushAndWake : Prop :=
  (∀ (s : State) (g : PredIx), s.guard g = true →
     (s.cur.packet = none → exec (.yield g) s = .next (served (s.modCur fun x => { x with fromCc := (s.cc / 16 + 1) * 16 }))) ∧
     (s.cur.packet ≠ none → exec (.yield g) s = .next (s.stop (.trap clsPkt 4)))) ∧
  (∀ (s : State) (a : Reg) (g : PredIx), s.guard g = true →
     (s.cur.supervisor = false → exec (.asfl a g) s = .next (s.stop (.trap clsSys 0x11)) ∧
       exec (.asbar g) s = .next (s.stop (.trap clsSys 0x11))) ∧
     (s.cur.supervisor = true → SlotOk s →
       (∃ t, exec (.asfl a g) s = .next t ∧ t.cur.flushAt = some s.cc ∧ SameMemory s t ∧
         (∀ n e, e ∈ (t.cluster n).tlb → e.asid ≠ uns s a % 4096) ∧
         (∀ n e, e ∈ (s.cluster n).tlb → e.asid ≠ uns s a % 4096 → e ∈ (t.cluster n).tlb) ∧
         ∀ core k, k < 16 → ∀ w, (t.slot core k).walk = some w → w.asid = uns s a % 4096 → w.install = false) ∧
       ((s.cur.flushAt.all fun t => !s.translatedBefore t) = true → exec (.asbar g) s = .next (served s)) ∧
       (∀ t, s.cur.flushAt = some t → s.translatedBefore t = true → s.curSlot ≠ 14 → s.cur.packet = none →
         exec (.asbar g) s = .next (served (s.parkCur .asbar))))) ∧
  (∀ (s : State) (a : Reg) (g : PredIx), s.guard g = true →
     (let v := uns s a
      let slot := v % 16
      let core := v / 16 % 1024
      let tag := v / 2 ^ 22 % 65536
      let x := s.slot core slot
      let form := v / 2 ^ 38 % 2 ^ 26 = 0 ∧ v / 2 ^ 14 % 256 = s.device
      let user := s.belongs core slot (s.cur.launch.getD 0) = true ∨ s.holdsFault core slot s.cur.launch 0 = true
      let marks := tag ≠ 0 ∧ (x.faultTag = tag ∨ x.lentTag = tag) ∧ tag ∉ x.wakes
      let may := s.cur.supervisor = true ∨ s.holdsFault core slot s.cur.launch tag = true
      let woken : State := s.modSlot core slot fun x => { x with wakes := x.wakes ++ [tag], wakeCc := s.cc }
      (v / 2 ^ 38 % 2 ^ 26 ≠ 0 → exec (.wake a g) s = .next (s.stop (.trap clsSeg v))) ∧
      (v / 2 ^ 38 % 2 ^ 26 = 0 → s.cur.supervisor = false → s.belongs core slot (s.cur.launch.getD 0) = false →
        s.holdsFault core slot s.cur.launch 0 = false → exec (.wake a g) s = .next (s.stop (.trap clsSys 0x13))) ∧
      (form → may → marks → (core ≠ s.curCore → exec (.wake a g) s = .next (served (woken.replyWith []))) ∧
        (core = s.curCore → exec (.wake a g) s = .next (served woken))) ∧
      (form → s.cur.supervisor = true ∨ user → ¬ (may ∧ marks) →
        (core ≠ s.curCore → exec (.wake a g) s = .next (served (s.replyWith []))) ∧
        (core = s.curCore → exec (.wake a g) s = .next (served s)))))

/-- The Almanac (R74, R79, R267): ALMR reads the entry in force; ALMW leaves it, and notes the entry for the next rotation
boundary, where all writes noted take force together. The decode table (R147, R288): DTRD reads an entry of 19 bits, once no
DTWR waits; DTWR writes one and clears the image's address, while the core serves one launch only and no code8 work queued
before it is left, and drains that waited for it then meet their rows; an index of 256 or more traps SEG. -/
def Obligations.AlmanacAndDecodeTable : Prop :=
  ((∀ (s : State) (d a : Reg) (g : PredIx), s.guard g = true →
     (∀ h : uns s a < 16, exec (.almr d a g) s = .next (served (s.setReg d ((s.here.alm[uns s a]).setWidth 64)))) ∧
     (16 ≤ uns s a → exec (.almr d a g) s = .next (s.stop (.trap clsSeg (uns s a))))) ∧
   (∀ (s : State) (a b : Reg) (g : PredIx), s.guard g = true →
     (let k := uns s a
      let new := (s.src b).extractLsb' 0 9
      let old := s.here.almPending.getD k 0
      let all := s.here.almPending.set k new
      k < 16 → uns s b < 512 → (almIv old = true → s.ownsSlot (almIssue old) = true) → s.ownsSlot (almStep old) = true →
      s.ownsSlot (almStep new) = true → (almIv new = true → s.ownsSlot (almIssue new) = true) → almSpaced all = true →
      s.gangsAdjacent s.curCore all = true →
      exec (.almw a b g) s = .next (served (s.modHere fun c => { c with almNext := c.almNext.filter (·.1 != k) ++ [(k, new)] })))) ∧
   (∀ (s : State) (core : Nat), core ∈ s.cores.keys → s.cores.keys.Pairwise (· < ·) →
     (∀ c ∈ s.cores.keys, ∀ k < 16, (s.slot c k).wakes = [] ∧ (s.slot c k).coupling = false) →
     ∃ t, exec .rotationBoundary s = .next t ∧ (t.core core).almNext = [] ∧
       (t.core core).alm = (s.core core).almNext.foldl
         (fun (v : Vector (BitVec 9) 16) (w : Nat × BitVec 9) => v.setIfInBounds w.1 w.2) (s.core core).alm)) ∧
  (∀ (s : State) (d a b : Reg) (g : PredIx), s.guard g = true →
     (256 ≤ uns s a → exec (.dtrd d a g) s = .next (s.stop (.trap clsSeg (uns s a))) ∧
       exec (.dtwr a b g) s = .next (s.stop (.trap clsSeg (uns s a)))) ∧
     (uns s a < 256 → (s.here.tableWaiter ≠ none → exec (.dtrd d a g) s = .next (s.stop (.reissue .tableWritten))) ∧
       (s.here.tableWaiter = none → exec (.dtrd d a g) s = .next (served (s.setReg d (BitVec.ofNat 64 ((Sparse.get 0 s.here.dtab (uns s a)).toNat % 2 ^ 19))))) ∧
       ((∀ k < 16, (s.slot s.curCore k).launch = none ∨ (s.slot s.curCore k).launch = s.cur.launch) →
         s.here.tableBusy (s.cur.since.getD s.cc) = false →
         exec (.dtwr a b g) s = .next (served ((s.modCur fun x => { x with since := none }).modHere fun c =>
           Core.drainAll { c with dtab := c.dtab.put (uns s a) (BitVec.ofNat 32 (uns s b % 2 ^ 19)), dtag := 0 })))))

/-! ## Local memory (R97, R98, R311, R342) -/

/-- LDL and STL check their offset in this order: beyond the end of the launch's partition SEG, not a multiple of 8 ALN, below
the program area SYS, unless the strand is the supervisor's or LDL reads a movement request word (R97, R98); INFO is the offset.
LDL and STL of an offset that the launch's partition holds (R98, R311, R342): LDL puts the little-endian word there into s[d]
and changes no memory; STL writes the eight bytes of s[d], and every other byte, and every register, is as it was. -/
def Obligations.LocalAccesses : Prop :=
  (∀ (s : State) (d a : Reg) (imm : BitVec 12) (ext : Half),
     let chk (i : Instr) (o : Nat) (mayRead : Bool) : Prop :=
       (s.lmend s.curCore s.cur ≤ o → exec i s = .next (s.stop (.trap clsSeg o))) ∧
       (o < s.lmend s.curCore s.cur → o % 8 ≠ 0 → exec i s = .next (s.stop (.trap clsAln o))) ∧
       (o < s.lmend s.curCore s.cur → o % 8 = 0 → s.cur.supervisor = false → o < 0x9000 →
         (mayRead = false ∨ o < 0x8000 ∨ 0x8020 ≤ o) → exec i s = .next (s.stop (.trap clsSys o)))
     chk (.ldl d a imm) (s.src a + imm.signExtend 64).toNat true ∧ chk (.stl d a imm) (s.src a + imm.signExtend 64).toNat false ∧
     chk (.ldlLone d a ext) (s.src a + ext.signExtend 64).toNat true ∧
     chk (.stlLone d a ext) (s.src a + ext.signExtend 64).toNat false) ∧
  (∀ (s : State) (d a : Reg) (imm : BitVec 12) (ext : Half) (l : Launch) (t : Seat) (o : Nat), SlotOk s →
     s.launchOf s.cur = some l → l.seat s.curCore = some t → programArea ≤ o → o < programArea + t.lmsize → o % 8 = 0 →
     (let off := t.pbase + (o - programArea)
      let loads (i : Instr) : Prop := exec i s = .next (served (s.setReg d (BitVec.ofNat 64 (natOfBytes (s.here.lm.rdBytes off 8)))))
      let stores (i : Instr) : Prop := ∃ u, exec i s = .next u ∧ u.here.lm.rdBytes off 8 = bytesOfNat 8 (uns s d) ∧
        SameOutside s u (.lm s.curCore off) 8 ∧ SameStrand s u
      ((s.src a + imm.signExtend 64).toNat = o → s.poisonedAt (.lm s.curCore off) 8 = false → loads (.ldl d a imm)) ∧
      ((s.src a + ext.signExtend 64).toNat = o → s.poisonedAt (.lm s.curCore off) 8 = false → loads (.ldlLone d a ext)) ∧
      ((s.src a + imm.signExtend 64).toNat = o → StoresIn s → s.here.waiters = [] → stores (.stl d a imm)) ∧
      ((s.src a + ext.signExtend 64).toNat = o → StoresIn s → s.here.waiters = [] → stores (.stlLone d a ext))))

/-! ## Global memory (R100, R121, R309, R340) -/

/-- A global access is granted or traps by its capability (R100): SEG without a right at all, without the right it needs, beyond
the limit or the 56 bits of an address, and for a write through a read-only or an outdated capability; ALN when its address is
no multiple of 8; INFO is the offset, or the address for ALN. Translation by the port (R103–R105): an entry with the rights
gives the place; a miss has the slot wait for a walk with its C-slot to issue again; a missing right, R for a read and W without Q
for a write, is a page fault of that cause, and the slot is FAULTED with its registers and pc in its save area (R183). -/
def Obligations.GlobalAccessesAreCheckedAndTranslated : Prop :=
  (∀ (s : State) (d a : Reg) (c : CapIx) (imm : BitVec 12),
     let k : Cap := s.cur.c[c.toNat]
     let o := (s.src a + imm.signExtend 64).toNat
     let within := o + 8 ≤ k.limit ∧ k.base + o < 2 ^ 56
     (k.r = false ∨ ¬ within → exec (.ld d a c imm) s = .next (s.stop (.trap clsSeg o))) ∧
     (k.r = true → within → isWindow (k.base + o) = false → (k.base + o) % 8 ≠ 0 →
       exec (.ld d a c imm) s = .next (s.stop (.trap clsAln (k.base + o)))) ∧
     (k.w = false ∨ ¬ within ∨ k.q = true ∨ s.genCurrent s.cur k = false →
       exec (.st d a c imm) s = .next (s.stop (.trap clsSeg o)) ∧ exec (.stg d a c imm) s = .next (s.stop (.trap clsSeg o))) ∧
     (k.w = true → within → k.q = false → s.genCurrent s.cur k = true → isWindow (k.base + o) = false → (k.base + o) % 8 ≠ 0 →
       exec (.st d a c imm) s = .next (s.stop (.trap clsAln (k.base + o)))) ∧
     (∀ l, k.r = true → within → isWindow (k.base + o) = false → (k.base + o) % 8 = 0 → s.xlate (k.base + o) .read = .ok l →
       s.globalLoc c (s.offset a imm) 8 true false .read .other = .ok (l, k.base + o)) ∧
     (∀ l, k.w = true → within → k.q = false → s.genCurrent s.cur k = true → isWindow (k.base + o) = false →
       (k.base + o) % 8 = 0 → s.xlate (k.base + o) .write = .ok l →
       s.globalLoc c (s.offset a imm) 8 false true .write .other = .ok (l, k.base + o))) ∧
  (∀ (s : State) (dva : Nat) (kind : Access), s.cur.walk = none →
     (∀ e, s.tlbFind s.curCore s.cur (s.asidOf s.cur) dva = some e →
       (kind.reads = true → e.pte.getLsbD 44 = true) → (kind.writes = true → e.pte.getLsbD 45 = true ∧ e.pte.getLsbD 47 = false) →
       s.xlate dva kind = .ok (e.loc dva)) ∧
     (s.tlbFind s.curCore s.cur (s.asidOf s.cur) dva = none → s.xlate dva kind = .error (.walk (s.asidOf s.cur) dva kind)) ∧
     (∀ e, s.tlbFind s.curCore s.cur (s.asidOf s.cur) dva = some e → kind.reads = true → e.pte.getLsbD 44 = false →
       s.xlate dva kind = .error (.fault dva 2 kind)) ∧
     (∀ e, s.tlbFind s.curCore s.cur (s.asidOf s.cur) dva = some e → (kind.reads = true → e.pte.getLsbD 44 = true) → kind.writes = true →
       e.pte.getLsbD 45 = false ∨ e.pte.getLsbD 47 = true → s.xlate dva kind = .error (.fault dva 3 kind)) ∧
     (SlotOk s → let t := s.stop (.walk (s.asidOf s.cur) dva kind)
       t.cur.st = .reply ∧ t.cur.pc = s.lat.pc ∧ t.cur.adone = true ∧ t.cur.walk = some ⟨s.asidOf s.cur, dva, kind, true, none⟩ ∧ SameMemory s t) ∧
     (∀ cause, SlotOk s → s.faultWaits s.curCore (s.asidOf s.cur) = false →
       (s.stop (.fault dva cause kind)).cur.st = .faulted ∧ (s.stop (.fault dva cause kind)).cur.pc = s.lat.pc ∧
       (s.stop (.fault dva cause kind)).cur.adone = true ∧
       (let lm := (s.stop (.fault dva cause kind)).here.lm
        lm.rdBytes (saveArea s.curSlot) 256 = bytesOfWords (s.cur.s.toList.map BitVec.toNat) ∧
        lm.rdBytes (saveArea s.curSlot + 0x200) 8 = bytesOfNat 8 s.lat.pc.toNat)))

/-- LD through a capability that grants it (R309): the slot waits in REPLY for the word that stands at the place when nothing of
it is held elsewhere: no store of the core is on its way, its L1 holds no line, and the word is not delivered poisoned. Memory
is unchanged. A reply that has come is written (R49): the registers it names hold its words, and the slot is READY; a wait for
room at a home issues its C-slot again (R91). -/
def Obligations.LoadsAnswer : Prop :=
  (∀ (s : State) (d a : Reg) (c : CapIx) (imm : BitVec 12) (ext : Half) (pa dva cl key : Nat) (tr : Bool), SlotOk s →
     StoresIn s → s.here.l1 = [] → (s.cap c).s = false →
     (s.l2Access s.curCore s.cur.launch (.mem (pa / 128 * 128) tr cl key) 128 false).poisonedAt (.mem pa tr cl key) 8 = false →
     (let loads (i : Instr) : Prop := ∃ t, exec i s = .next t ∧
        RepliesWith s t [(d.toNat, BitVec.ofNat 64 (natOfBytes (s.mem.rdBytes pa 8)))] ∧ SameMemory s t
      (pa % 8 = 0 → s.globalLoc c (s.offset a imm) 8 true false .read .other = .ok (.mem pa tr cl key, dva) → loads (.ld d a c imm)) ∧
      (pa % 8 = 0 → s.globalLoc c (s.offset a ext) 8 true false .read .other = .ok (.mem pa tr cl key, dva) →
        loads (.ldLone d a c ext)))) ∧
  (∀ (s : State) (core slot : Nat) (ws : List (Nat × Word)), slot < 16 → (s.slot core slot).coupled = false →
     ((s.slot core slot).st = .reply → (s.slot core slot).reply = some ⟨.now, ws, false⟩ → (s.slot core slot).seqReply = false →
       ∃ t, exec (.replyWritten core slot []) s = .next t ∧ (t.slot core slot).st = .ready ∧ (t.slot core slot).reply = none ∧
         t.slot core slot = { (s.slot core slot).setCodes ws with st := .ready, park := none, reply := none } ∧ SameMemory s t) ∧
     (∀ b, (s.slot core slot).reply = some ⟨.busy, ws, b⟩ → exec (.waitListBusyReissue core slot) s =
       .next (s.modSlot core slot fun x => { x with st := .ready, reply := none })))

/-- ST and STG to device memory put the word into the core's store path, and their slot goes on; memory changes when the store
is performed (R118, R340, R341). ST through the window to a core of this package waits for its reply. STORE_PERFORMED (R118):
the oldest store of a core's path writes its bytes at its home and leaves the path; every other byte is as it was. STG through
the window is accepted and performed later (R127): it counts in flight, and its acknowledgement writes the word, and its strand
counts those that are left. -/
def Obligations.StoresArePerformed : Prop :=
  (∀ (s : State) (d a : Reg) (c : CapIx) (imm : BitVec 12) (ext : Half) (l : Loc) (dva : Nat), SlotOk s →
     s.cur.drainsQueued = 0 → (s.cap c).s = false →
     (let enters (i : Instr) : Prop := ∃ t, exec i s = .next t ∧
        t.here.path = s.here.path ++ [⟨s.curSlot, l, bytesOfNat 8 (uns s d), false, false, s.cc, none, none, none⟩] ∧ SameMemory s t ∧
        SameStrand s t ∧ t.cur.st = s.cur.st
      let waits (i : Instr) : Prop := ∃ t, exec i s = .next t ∧
        t.here.path = s.here.path ++ [⟨s.curSlot, l, bytesOfNat 8 (uns s d), true, false, s.cc, none, none, none⟩] ∧ SameMemory s t ∧
        t.cur.st = .reply
      let short := s.globalLoc c (s.offset a imm) 8 false true .write .other = .ok (l, dva)
      let long := s.globalLoc c (s.offset a ext) 8 false true .write .other = .ok (l, dva)
      ((∃ pa tr cl key, l = .mem pa tr cl key) → (short → enters (.st d a c imm) ∧ enters (.stg d a c imm)) ∧
        (long → enters (.stLone d a c ext) ∧ enters (.stgLone d a c ext))) ∧
      ((∃ core off, l = .lm core off) → (short → waits (.st d a c imm)) ∧ (long → waits (.stLone d a c ext))))) ∧
  (∀ (s : State) (core : Nat) (p : PathStore) (rest : List PathStore), (s.core core).path = p :: rest → OnHome p.loc →
     NoWaiters s → s.stgs = [] → p.sage = none → (∀ q, q < 4 → (s.slot core p.slot).waitingRow q = none) →
     ∃ t, exec (.storePerformed core) s = .next t ∧ (t.core core).path = rest ∧ t.rdLoc p.loc p.bytes.length = p.bytes ∧
       SameOutside s t p.loc p.bytes.length) ∧
  ((∀ (s : State) (d a : Reg) (c : CapIx) (imm : BitVec 12) (ext : Half) (core off dva : Nat), SlotOk s → StoresIn s →
     s.cur.stgs < 64 →
     (let sent (i : Instr) : Prop := ∃ t, exec i s = .next t ∧ t.stgs = [⟨s.curCore, .slot s.curCore s.curSlot, .lm core off, dva, s.src d, none⟩] ∧
        t.cur.stgs = 1 ∧ t.cur.st = s.cur.st ∧ SameMemory s t ∧ SameStrand s t
      (s.globalLoc c (s.offset a imm) 8 false true .write .other = .ok (.lm core off, dva) → sent (.stg d a c imm)) ∧
      (s.globalLoc c (s.offset a ext) 8 false true .write .other = .ok (.lm core off, dva) → sent (.stgLone d a c ext)))) ∧
   ∀ (s : State) (g : Stg) (rest : List Stg) (core off c k : Nat), s.stgs = g :: rest → g.loc = .lm core off →
     g.owner = .slot c k → k < 16 → NoWaiters s → (s.slot c k).st ≠ .saved →
     ∃ t, exec (.stgAcknowledgement 0) s = .next t ∧ t.stgs = rest ∧ t.rdLoc g.loc 8 = bytesOfNat 8 g.data.toNat ∧
       SameOutside s t g.loc 8 ∧ (t.slot c k).stgs = rest.countP fun (h : Stg) => h.owner == .slot c k)

/-! ## Full and empty words (R91, R299–R301) -/

/-- LDH, LDF and LDX of a word: LDH answers it, full or not; LDF answers a full word and leaves it full; LDX answers a full word
and leaves it empty; where the bit is empty LDF and LDX park the slot, last of the waiters of the word's home, or issue again where the
home has no room for it (R91). No byte changes. STF, STFA and FECLR of a word: STF stores into an empty word and fills it, and parks,
or issues again, at a full one; STFA stores and fills whatever the bit; FECLR empties the bit and keeps the data. Every byte but those
of the word is as it was. A word that is filled serves the oldest waiter of its home that it satisfies (R91): a parked LDX, behind
waiters for other words and ahead of others that want a full word, has the word and leaves it empty, and its slot is READY. -/
def Obligations.FullEmptyWords : Prop :=
  (∀ (s : State) (d a : Reg) (c : CapIx) (m : BitVec 1) (imm : BitVec 9) (l : Loc) (dva : Nat), SlotOk s → StoresIn s → OnHome l →
     (let clean (w : Bool) : Prop := NoWaiters s ∧ (s.serveMe l w w).poisonedAt l 8 = false
      let answers (i : Instr) (full : Bool) : Prop := ∃ t, exec i s = .next t ∧ RepliesWith s t [(d.toNat, s.rdWord l)] ∧
        SameMemory s t ∧ t.full l = full ∧ ∀ k, k.sameWord l = false → t.full k = s.full k
      let parks (i : Instr) (kind : WaitKind) : Prop :=
        (s.waitRoom l = true → ∃ t, exec i s = .next t ∧ t.cur.st = .parked ∧ t.cur.park = some .fullEmpty ∧
          t.waitList l = s.waitList l ++ [⟨.slot s.curCore s.curSlot, l, dva, kind, s.cc⟩] ∧ SameMemory s t ∧ t.full l = false) ∧
        (s.waitRoom l = false → exec i s = .next (s.stop (.reissue .busy)))
      (s.cfLoc c m (s.offsetW a imm) true false .read .ldh = .ok (l, dva) → clean false → answers (.ldh d a c m imm) (s.full l)) ∧
      (s.cfLoc c m (s.offsetW a imm) true false .read .other = .ok (l, dva) → clean false → s.full l = true →
        answers (.ldf d a c m imm) true) ∧
      (s.cfLoc c m (s.offsetW a imm) true true .atomic .ldx = .ok (l, dva) → clean true → s.full l = true →
        answers (.ldx d a c m imm) false) ∧
      (s.cfLoc c m (s.offsetW a imm) true false .read .other = .ok (l, dva) → s.full l = false → s.mayWait = true →
        parks (.ldf d a c m imm) (.ldf d)) ∧
      (s.cfLoc c m (s.offsetW a imm) true true .atomic .ldx = .ok (l, dva) → s.full l = false → s.mayWait = true →
        parks (.ldx d a c m imm) (.ldx d)))) ∧
  (∀ (s : State) (d a : Reg) (c : CapIx) (m : BitVec 1) (imm : BitVec 9) (l : Loc) (dva : Nat), SlotOk s → StoresIn s → OnHome l →
     (let fills (i : Instr) : Prop := NoWaiters s → ∃ t, exec i s = .next t ∧ RepliesWith s t [] ∧ t.rdLoc l 8 = bytesOfNat 8 (uns s d) ∧
        SameOutside s t l 8 ∧ t.full l = true ∧ ∀ k, k.sameWord l = false → t.full k = s.full k
      (s.cfLoc c m (s.offsetW a imm) false true .write .stf = .ok (l, dva) → s.full l = false → fills (.stf d a c m imm)) ∧
      (s.cfLoc c m (s.offsetW a imm) false true .write .stf = .ok (l, dva) → s.full l = true → s.mayWait = true →
        (s.waitRoom l = true → ∃ t, exec (.stf d a c m imm) s = .next t ∧ t.cur.st = .parked ∧
          t.waitList l = s.waitList l ++ [⟨.slot s.curCore s.curSlot, l, dva, .stf (s.src d), s.cc⟩] ∧ SameMemory s t) ∧
        (s.waitRoom l = false → exec (.stf d a c m imm) s = .next (s.stop (.reissue .busy)))) ∧
      (s.cfLoc c m (s.offsetW a imm) false true .write .stfa = .ok (l, dva) → fills (.stfa d a c m imm)) ∧
      (s.cfLoc c m (s.offsetW a imm) false true .write .other = .ok (l, dva) → NoWaiters s →
        ∃ t, exec (.feclr a c m imm) s = .next t ∧ RepliesWith s t [] ∧ SameMemory s t ∧ t.full l = false ∧
          ∀ k, k.sameWord l = false → t.full k = s.full k))) ∧
  (∀ (s : State) (core off slot : Nat) (d : Reg) (v : Word) (dva at' : Nat) (w : Waiter) (pre post : List Waiter), slot < 16 →
     off % 8 = 0 → programArea ≤ off → w = ⟨.slot core slot, .lm core off, dva, .ldx d, at'⟩ →
     (s.core core).waiters = pre ++ w :: post → (∀ u ∈ pre, u.hears (.lm core off) = false) →
     (∀ u ∈ post, u.hears (.lm core off) = true → (∃ e, u.kind = .ldf e) ∨ ∃ e, u.kind = .ldx e) →
     (s.slot core slot).seqReply = false →
     (let t := s.fill (clusterOf core) (.lm core off) v
      (t.core core).waiters = pre ++ post ∧ t.full (.lm core off) = false ∧ (t.slot core slot).st = .ready ∧
      (d ≠ 0 → (t.slot core slot).reg d = v)))

/-! ## Atomics (R270–R278) -/

/-- The operations of ATOM on 32 and 64 bits, by the arithmetic of bit vectors (R271): add, and, or, xor, signed and unsigned
minimum and maximum, swap. ATOM and CAS at the home of their word: the old value answers; ATOM writes the result of its
operation; CAS writes its new value exactly when the old value is the one it compares with, in 64 or 128 bits; no other byte
changes. -/
def Obligations.AtomicsReadModifyWrite : Prop :=
  (let law (n : Nat) : Prop := ∀ x y : BitVec (8 * n),
     atomOp 0 n x.toNat y.toNat = (x + y).toNat ∧ atomOp 1 n x.toNat y.toNat = (x &&& y).toNat ∧
     atomOp 2 n x.toNat y.toNat = (x ||| y).toNat ∧ atomOp 3 n x.toNat y.toNat = (x ^^^ y).toNat ∧
     atomOp 4 n x.toNat y.toNat = (if x.sle y then x else y).toNat ∧ atomOp 5 n x.toNat y.toNat = (if x.sle y then y else x).toNat ∧
     atomOp 6 n x.toNat y.toNat = (if x.ule y then x else y).toNat ∧ atomOp 7 n x.toNat y.toNat = (if x.ule y then y else x).toNat ∧
     atomOp 8 n x.toNat y.toNat = y.toNat
   law 4 ∧ law 8) ∧
  (∀ (s : State) (d a b : Reg) (c : CapIx) (ord : BitVec 2) (size : BitVec 1) (op : BitVec 4) (l : Loc) (dva : Nat), SlotOk s →
     StoresIn s → OnHome l → NoWaiters s → s.inputs = [] →
     (let old (n : Nat) : Nat := natOfBytes (s.rdLoc l n)
      let clean (n : Nat) : Prop := (s.serveMe l false true).poisonedAt l n = false
      let at' (n : Nat) : Prop := s.globalLoc c (s.src a) n true true .atomic .other = .ok (l, dva)
      let n := if size = 1 then 4 else 8
      let pair (r : Reg) : Nat := uns s r + uns s (r + 1) * 2 ^ 64
      (WellFormed (.atom d a b c ord size op) = true → at' n → clean n →
        ∃ t, exec (.atom d a b c ord size op) s = .next t ∧ RepliesWith s t [(d.toNat, BitVec.ofNat 64 (old n))] ∧
          t.rdLoc l n = bytesOfNat n (atomOp op n (old n) (uns s b % 2 ^ (8 * n))) ∧ SameOutside s t l n) ∧
      (at' 8 → clean 8 → ∃ t, exec (.cas d a b c ord 0) s = .next t ∧ RepliesWith s t [(d.toNat, BitVec.ofNat 64 (old 8))] ∧
        SameOutside s t l 8 ∧ (old 8 = uns s d → t.rdLoc l 8 = bytesOfNat 8 (uns s b)) ∧
        (old 8 ≠ uns s d → t.rdLoc l 8 = s.rdLoc l 8)) ∧
      (at' 16 → clean 16 → ∃ t, exec (.cas d a b c ord 1) s = .next t ∧
        RepliesWith s t [(d.toNat, BitVec.ofNat 64 (old 16)), ((d + 1).toNat, BitVec.ofNat 64 (old 16 / 2 ^ 64))] ∧
        SameOutside s t l 16 ∧ (old 16 = pair d → t.rdLoc l 16 = bytesOfNat 16 (pair b)) ∧
        (old 16 ≠ pair d → t.rdLoc l 16 = s.rdLoc l 16))))

/-! ## Queue rows, posted stores, fences, flushes -/

/-- LQ reserves a row of its queue for elements at s[a] + l × stride, a stride of s0 being the element's size (R160, R314); SQ
queues a drain (R339); with no lanes granted both do nothing. In Sage's trap mode (R135) the checked elements are read or checked as
it issues, which is the model's reading (log entry 46). LOAD_QUEUE_ROW_FILL (R61, R160): the oldest waiting row of a slot arrives with
its elements, of the core's own local memory or of device memory, widened by kind. -/
def Obligations.QueueRows : Prop :=
  (∀ (s : State) (d a b : Reg) (c : CapIx) (g : PredIx) (k : BitVec 4) (elems : List (Loc × Nat)), s.guard g = true →
     (s.here.vlen s.curSlot = 0 →
       exec (.lq d a b c g k) s = .next (served s) ∧ exec (.sq d a b c g k) s = .next (served s)) ∧
     (s.here.vlen s.curSlot ≠ 0 → d.toNat < 4 → s.row c a b (lqSize k) false = .ok elems →
       (s.cur.lq[d.toNat]?.getD []).length < 16 →
       (let es := elems.map fun e => (e.1, e.2, (s.cap c).q || s.pageQ e.2)
        let pushed (u : State) (r : LqRow) : State := served (u.modCur fun x =>
          { x with lq := x.lq.setIfInBounds d.toNat ((x.lq[d.toNat]?.getD []) ++ [r]) })
        (((s.cap c).s && s.sageTraps s.cur) = false →
          exec (.lq d a b c g k) s = .next (pushed s (.waiting k es (s.cap c).s s.cc))) ∧
        (∀ v u lanes, ((s.cap c).s && s.sageTraps s.cur) = true → s.ownFirstAll (lqSize k) (es.map (·.1)) = .ok v →
          v.readRow v.curCore v.curSlot k true false true v.cc es = (u, .ok lanes) →
          exec (.lq d a b c g k) s = .next (pushed u (.arrived lanes))))) ∧
     (∀ size write row, s.row c a b size write = .ok row → row.length = s.here.vlen s.curSlot ∧
       ∀ l, l < s.here.vlen s.curSlot → ∃ e, row[l]? = some e ∧
         e.2 = (s.cap c).base + (s.src a + BitVec.ofNat 64 l * (if b = 0 then BitVec.ofNat 64 size else s.src b)).toNat ∧
         (isWindow e.2 = false → e.2 % size = 0 ∧ s.xlate e.2 (if write then .write else .read) = .ok e.1)) ∧
     (s.here.vlen s.curSlot ≠ 0 → d.toNat < 2 → s.row c a b (sqSize k) true = .ok elems →
       (s.cur.drains[d.toNat]?.getD []).length < 8 →
       (let queued (u : State) (checked : Bool) : State := served ((u.modCur fun x =>
          { x with drains := x.drains.setIfInBounds d.toNat ((x.drains[d.toNat]?.getD []) ++ [⟨k, elems, checked, u.cc, u.waitsSince⟩]) }).modHere
          fun h => h.drainRows u.curSlot)
        (((s.cap c).s && s.sageTraps s.cur) = false → exec (.sq d a b c g k) s = .next (queued s (s.cap c).s)) ∧
        (∀ u, ((s.cap c).s && s.sageTraps s.cur) = true → s.sqChecks elems = .ok u →
          exec (.sq d a b c g k) s = .next (queued u false)))) ∧
     (∀ start stride n l, l < n → (rowOffsets start stride n)[l]? = some (start + BitVec.ofNat 64 l * stride))) ∧
  (∀ (s : State) (core slot q at' : Nat) (k : BitVec 4) (rest : List LqRow), slot < 16 → q < 4 → (s.slot core slot).st ≠ .saved →
     (s.slot core slot).oldestRow.any (·.q == q) = true → (s.core core).path = [] → s.stgs = [] →
     (s.slot core slot).drainsQueued = 0 →
     (let arrives (vs : List (List Byte)) : Prop := ∃ t, exec (.loadQueueRowFill core slot q) s = .next t ∧ SameMemory s t ∧
        (t.slot core slot).lq[q]?.getD [] = .arrived (vs.map fun v => lqWiden k (natOfBytes v)) :: rest
      (∀ offs : List Nat, (s.slot core slot).lq[q]?.getD [] = .waiting k (offs.map fun o => (.lm core o, o, false)) false at' :: rest →
        (s.core core).lmPoison = [] → arrives (offs.map fun o => (s.core core).lm.rdBytes o (lqSize k))) ∧
      (∀ (es : List (Nat × Nat × Bool)) (tr : Bool) (cl key : Nat), (s.slot core slot).lq[q]?.getD [] =
          .waiting k (es.map fun e => (.mem e.1 tr cl key, e.2)) false at' :: rest →
        (∀ e ∈ es, e.1 % lqSize k = 0 ∧ Resident s e.1 (lqSize k)) → s.memPoison = [] → s.hier.l2 = [] → (s.core core).l1 = [] →
        arrives (es.map fun e => s.mem.rdBytes e.1 (lqSize k)))))

/-- FENCE (R126, R302): every form is a release: it waits for queued drains, and for earlier stores to other packages, and
performs the stores of the core's path; with F bit 0 it waits for the strand's posted stores to be acknowledged, and with bit 1
it performs those to its own core. RFLUSH and RINV give their range of lines to the cluster's walker with its barrier word
(R115, R331), or fill the barrier at once for an empty range; that the range is translated as they issue is the model's choice (log
entry 66); CACHE_WALK ends the oldest range: no L1 of the cluster holds a
line of it, RINV's are in no instruction cache, and the barrier word is 0 and full. -/
def Obligations.FencesAndRanges : Prop :=
  (∀ (s : State) (g : PredIx) (f : BitVec 2), s.guard g = true →
     (s.cur.drainsQueued ≠ 0 → exec (.fence g f) s = .next (s.stop (.reissue .drainsIn))) ∧
     (s.cur.drainsQueued = 0 → s.pathOut s.curCore s.curSlot s.waitsSince = true →
       exec (.fence g f) s = .next (s.stop (.reissue (.pathIn s.waitsSince)))) ∧
     (∀ t, s.release = .ok t →
       (f.getLsbD 0 = true → t.cur.stgs ≠ 0 → exec (.fence g f) s = .next (s.stop (.reissue .stgAcked))) ∧
       ((f.getLsbD 0 = true → t.cur.stgs = 0) → exec (.fence g f) s = .next (served (if f.getLsbD 1 then
         t.flushStgs t.curCore t.curSlot fun l => match l with
           | .lm core _ => core == t.curCore
           | _ => false
         else t)))) ∧
     (∀ u, s.cur.drainsQueued = 0 → s.pathOut s.curCore s.curSlot s.waitsSince = false → s.rowsIn = .ok u →
       s.release = .ok (u.drainStores u.curCore)) ∧
     (StoresIn s → s.cur.stgs = 0 → exec (.fence g f) s = .next (served s))) ∧
  ((∀ (s : State) (d a b : Reg) (c : CapIx) (g : PredIx) (barrier : Loc) (lines : List Nat), s.guard g = true → StoresIn s →
     (let k := s.cap c
      let off := uns s a
      let len := uns s b
      let o := uns s d
      k.r = true → k.w = true → k.q = false → s.genCurrent s.cur k = true → off + len ≤ k.limit → k.base + off + len ≤ 2 ^ 56 →
      isWindow (k.base + off) = false → (∀ l ∈ rangeLines (k.base + off) len, isWindow (128 * l) = false) → o + 8 ≤ k.limit → k.base + o < 2 ^ 56 →
      isWindow (k.base + o) = false → (k.base + o) % 8 = 0 → (s.cluster s.cl).walker.length < 8 →
      s.xlate (k.base + o) .write = .ok barrier → s.physLines (rangeLines (k.base + off) len) = .ok lines →
      (len = 0 → exec (.rflush d a b c g) s = .next (served (s.fill s.cl barrier 0 (s.pasidOf s.cur.launch))) ∧
        exec (.rinv d a b c g) s = .next (served (s.fill s.cl barrier 0 (s.pasidOf s.cur.launch)))) ∧
      (len ≠ 0 → ∀ inv, exec (if inv then .rinv d a b c g else .rflush d a b c g) s = .next (served (s.modCluster s.cl fun w =>
        { w with walker := w.walker ++ [⟨inv, lines, barrier, s.cur.launch.getD 0, s.cc⟩] }))))) ∧
   ∀ (s : State) (cl pa : Nat) (r : WalkRange) (rest : List WalkRange) (tr : Bool) (cls key : Nat), NoWaiters s →
     (s.cluster cl).walker = r :: rest → r.barrier = .mem pa tr cls key →
     ∃ t, exec (.cacheWalk cl) s = .next t ∧ (t.cluster cl).walker = rest ∧ t.full r.barrier = true ∧
       t.mem.rdBytes pa 8 = bytesOfNat 8 0 ∧ SameOutside s t r.barrier 8 ∧
       (∀ i x, i < 8 → x ∈ (t.core (8 * cl + i)).l1 → x.1 ∉ r.lines) ∧
       (r.inv = true → ∀ n x, x ∈ (t.core n).icache → x.1 ∉ r.lines))

/-! ## Capabilities (R56, R99–R102, R280) -/

/-- CNAR narrows (R280): what it writes has its base and its end within the capability it read, no right that one lacked, and
the same GEN; it traps SEG rather than widen. CLD loads a capability register from its launch's table (R99, R101); CST writes an
entry through a capability with O; CGIVE writes two entries, after which the capability's own entry has lost W and O (R102).
The fields of what they load and write; each write of an entry makes older copies outdated. -/
def Obligations.CapabilitiesNarrowAndMove : Prop :=
  (∀ (s : State) (d a b : Reg) (c : CapIx) (g : PredIx), SlotOk s → s.guard g = true →
     (let k : Cap := s.cap c
      let off := uns s a
      let size := uns s b
      (c = 0 ∨ k.any = false ∨ k.limit < off + size → exec (.cnar d a b c g) s = .next (s.stop (.trap clsSeg off))) ∧
      (c ≠ 0 → k.any = true → off + size ≤ k.limit → k.base + off < 2 ^ 56 →
        ∃ t, exec (.cnar d a b c g) s = .next t ∧ t.cur.s = s.cur.s ∧ SameMemory s t ∧
          (let k' : Cap := t.cur.c[c.toNat]
           k'.base = k.base + off ∧ k'.limit = size ∧ k.base ≤ k'.base ∧ k'.base + k'.limit ≤ k.base + k.limit ∧
           k'.rights &&& ~~~k.rights = 0 ∧ k'.gen = k.gen ∧ k'.index = k.index) ∧
          ∀ j : Fin 8, j.val ≠ c.toNat → t.cur.c[j] = s.cur.c[j]))) ∧
  (∀ (s : State) (a : Reg) (c : CapIx) (g : PredIx) (l : Launch) (place home' : Loc), s.guard g = true → s.myLaunch = some l →
     (let i := uns s a
      let k := s.cap c
      (c ≠ 0 → i < 256 → s.entryLoc i = .ok place → StoresIn s → (s.serveMe place false false).poisonedAt place 32 = false →
        exec (.cld a c g) s = .next (served ((s.serveMe place false false).modCur fun x => x.setCap c (s.tableCap l i place)))) ∧
      (c = 0 ∨ 256 ≤ i → exec (.cld a c g) s = .next (s.stop (.trap clsSeg i))) ∧
      (256 ≤ i ∨ k.o = false ∨ s.genCurrent s.cur k = false ∨ i = 0 ∨ i = 1 →
        exec (.cst a c g) s = .next (s.stop (.trap clsSeg i)) ∧ exec (.cgive a c g) s = .next (s.stop (.trap clsSeg i))) ∧
      (2 ≤ i → i < 256 → k.o = true → s.genCurrent s.cur k = true → s.entryLoc i = .ok place →
        exec (.cst a c g) s = .next (served ((s.writeEntry l i place k.base k.limit k.rights).replyWith []))) ∧
      (2 ≤ i → i < 256 → k.o = true → s.genCurrent s.cur k = true → i ≠ k.index → s.entryLoc i = .ok place →
        s.entryLoc k.index = .ok home' → StoresIn s → s.here.l1 = [] →
        let old : Cap := BitVec.ofNat 256 (natOfBytes (s.rdLoc home' 32))
        ∃ t, exec (.cgive a c g) s = .next t ∧ t = served ((((s.modHere fun h => { h with l1 := [] }).writeEntry l i place k.base k.limit
          k.rights).writeEntry l k.index home' old.base old.limit (old.rights &&& 0b110101)).replyWith [])) ∧
      (let fields (k : Cap) (base limit : Nat) (rights : BitVec 6) (gen : BitVec 16) (index : Nat) : Prop :=
         k.base = base ∧ k.limit = limit ∧ k.rights = rights ∧ k.gen = gen ∧ k.index = index
       let entry (t : State) (p : Loc) : Cap := BitVec.ofNat 256 (natOfBytes (t.rdLoc p 32))
       SlotOk s → OnHome place →
       (c ≠ 0 → i < 256 → s.entryLoc i = .ok place → StoresIn s → (s.serveMe place false false).poisonedAt place 32 = false →
         ∃ t, exec (.cld a c g) s = .next t ∧ SameMemory s t ∧ (∀ j : Fin 8, j.val ≠ c.toNat → t.cur.c[j] = s.cur.c[j]) ∧
           fields t.cur.c[c.toNat] (entry s place).base (entry s place).limit (entry s place).rights (l.gen i) i) ∧
       (2 ≤ i → i < 256 → k.o = true → s.genCurrent s.cur k = true → s.entryLoc i = .ok place → NoWaiters s →
         ∃ t, exec (.cst a c g) s = .next t ∧ RepliesWith s t [] ∧ SameOutside s t place 32 ∧
           fields (entry t place) k.base k.limit k.rights (l.gen i + 1) 0) ∧
       (2 ≤ i → i < 256 → k.o = true → s.genCurrent s.cur k = true → i ≠ k.index → s.entryLoc i = .ok place →
         s.entryLoc k.index = .ok home' → StoresIn s → NoWaiters s →
         ∀ p q pt qt pc qc pk qk, place = .mem p pt pc pk → home' = .mem q qt qc qk → p + 32 ≤ q ∨ q + 32 ≤ p →
         ∃ t, exec (.cgive a c g) s = .next t ∧ RepliesWith s t [] ∧
           fields (entry t place) k.base k.limit k.rights (l.gen i + 1) 0 ∧
           fields (entry t home') (entry s home').base (entry s home').limit ((entry s home').rights &&& 0b110101)
             (l.gen k.index + 1) 0 ∧
           (∀ b, (b < p ∨ p + 32 ≤ b) → (b < q ∨ q + 32 ≤ b) → byteAt t b = byteAt s b) ∧
           ∀ core off, localByteAt t core off = localByteAt s core off)) ∧
      (∀ u, s.launchById l.id = some u → NoWaiters s → ∀ j b n r, ∃ w, (s.writeEntry l j place b n r).launchById l.id = some w ∧
        w.gen j = u.gen j + 1 ∧ ∀ x, x ≠ j → w.gen x = u.gen x)))

/-! ## Strands (R82–R86, R90, R273, R286, R287, R319, R337) -/

/-- SPAWN (R83) of a child whose frame the deque takes: the join word rises by one, the parent's frame stands at the bottom of
the deque with its pc after the SPAWN, and the child runs at once in the slot, with the parent's registers; of a tenant without
Sage's areas. That the frame takes the lowest free place of the deque is the model's choice (log entry 68). In the handler slot it
traps HBLK, with a packet open PKT. -/
def Obligations.SpawnPushesTheParent : Prop :=
  ∀ (s : State) (a b : Reg) (c : CapIx) (g : PredIx) (ext : Half) (join pa cl key : Nat) (tr : Bool) (l : Launch) (p : Seat),
    SlotOk s → s.guard g = true →
    (s.cur.packet ≠ none → exec (.spawn a b c g) s = .next (s.decideInl.stop (.trap clsPkt 4)) ∧
      exec (.spawnLone a c ext) s = .next (s.decideInl.stop (.trap clsPkt 4))) ∧
    (s.cur.packet = none → s.curSlot = 14 → exec (.spawn a b c g) s = .next (s.decideInl.stop (.trap clsHblk 0x16)) ∧
      exec (.spawnLone a c ext) s = .next (s.decideInl.stop (.trap clsHblk 0x16))) ∧
    (s.cur.packet = none → s.curSlot ≠ 14 → s.cur.coupled = false → s.cur.inl = none → s.capDva c (s.src a) 8 true true = .ok join →
      isWindow join = false → join % 8 = 0 → s.xlate join .atomic = .ok (.mem pa tr cl key) → StoresIn s → NoWaiters s →
      s.tenants = [] → (s.serveMe (.mem pa tr cl key) true true).poisonedAt (.mem pa tr cl key) 8 = false →
      s.launchOf s.cur = some l → l.seat s.curCore = some p → p.frames.length < s.cur.dqcap →
      (let place : Loc := .mem pa tr cl key
       let free := (freePlace s.cur.dqcap p.frames).getD 0
       let f : Frame :=
         { pc := s.lat.pc + 8, carry := (List.range 8).map fun i => s.src (BitVec.ofNat 5 (24 + i))
           capidx := s.cur.c.toList.map fun (k : Cap) => k.index, join := s.cur.join, group := l.groups, retpos := s.cur.retpos
           ret := s.cur.ret, origin := s.curSlot, arrival := false, domain := s.cur.stealdom }
       let spawns (i : Instr) (entry : Word) : Prop := ∃ t q, exec i s = .next t ∧ t.rdWord place = s.rdWord place + 1 ∧
         t.cur.pc = entry ∧ t.cur.join = join ∧ t.cur.ret = .deque ∧ t.cur.retpos = p.bottom ∧ t.cur.st = .reply ∧
         t.cur.s = s.cur.s ∧ t.cur.p = s.cur.p ∧ t.cur.c = s.cur.c ∧ (t.launchOf t.cur).bind (·.seat s.curCore) = some q ∧
         q.frames = p.frames ++ [free] ∧ q.bottom = p.bottom + 1 ∧ t.here.lm.rdBytes (p.framePlace free) 96 = f.bytes
       (uns s b % 8 = 0 → spawns (.spawn a b c g) (s.src b)) ∧
       spawns (.spawnLone a c ext) (s.lat.pc + ext.signExtend 64 * 8)))

/-- AWAIT (R85): a count of 0 completes at once, with an acquire; any other parks the slot on the word's waiters. -/
def Obligations.AwaitWaitsForZero : Prop :=
  ∀ (s : State) (a : Reg) (c : CapIx) (g : PredIx) (dva pa cl key : Nat) (tr : Bool), SlotOk s → s.guard g = true → StoresIn s →
    NoWaiters s → s.deviceDva c (s.src a) true false = .ok dva → s.cur.packet = none → s.xlate dva .read = .ok (.mem pa tr cl key) →
    s.cur.seq = [] → (s.serveMe (.mem pa tr cl key) false false).poisonedAt (.mem pa tr cl key) 8 = false →
    (s.rdWord (.mem pa tr cl key) = 0 → s.tenants = [] →
      ∃ t, exec (.await a c g) s = .next t ∧ RepliesWith s t [] ∧ SameMemory s t ∧ t.cur.ival = nextIval s.cur.ival ∧
        ∀ x ∈ t.here.l1, x.2.ro = true) ∧
    (s.rdWord (.mem pa tr cl key) ≠ 0 → s.curSlot ≠ 14 →
      ∃ t, exec (.await a c g) s = .next t ∧ t.cur.st = .parked ∧ t.cur.park = some .fullEmpty ∧
        t.waiters = [⟨.slot s.curCore s.curSlot, .mem pa tr cl key, dva, .await, s.cc⟩] ∧ SameMemory s t) ∧
    (s.rdWord (.mem pa tr cl key) ≠ 0 → s.curSlot = 14 → exec (.await a c g) s = .next (s.stop (.answer clsHblk 0x17)))

/-- DONE (R84, R286, R287): with engine results, or KIND 0 commands queued, running or ended, outstanding it traps ENG, with a packet
open PKT; in the handler slot it ends the handler; elsewhere the join word falls by one, and a strand without a frame to return to
leaves its slot FREE, while one whose frame is still at the bottom of its deque resumes it in place, and an inlined one resumes the
frame at s2, which rises above it. -/
def Obligations.DoneEndsTheStrand : Prop :=
  ∀ (s : State) (g : PredIx), SlotOk s → s.guard g = true →
    (s.cur.packet ≠ none → exec (.done g) s = .next (s.stop (.trap clsPkt 4))) ∧
    (s.cur.packet = none → s.cur.coupled = false → s.cur.matRes ≠ [] ∨ s.cur.copyRes ≠ [] →
      exec (.done g) s = .next (s.stop (.trap clsEng 0xFFFF))) ∧
    (let mine (c : Completion) : Prop := c.kind = 0 ∧ c.ctx = 0
     s.cur.packet = none → s.cur.coupled = false →
       (∃ m ∈ s.cur.matQ, m.sync = false ∧ mine m.comp) ∨ (∃ m ∈ s.cur.copyQ, mine m.comp) ∨
       (∃ r, s.here.copyRun = some r ∧ r.slot = s.curSlot ∧ r.killed = false ∧ mine r.cmd.comp) ∨
       (∃ e ∈ s.here.ended, e.slot = s.curSlot ∧ mine e.comp) →
       exec (.done g) s = .next (s.stop (.trap clsEng 0xFFFF))) ∧
    (s.cur.packet = none → s.cur.coupled = false → s.here.owes s.curSlot false = false → s.here.owes s.curSlot true = false →
      s.cur.matRes = [] → s.cur.copyRes = [] → s.cur.ticket = 0 → s.cur.seq = [] → StoresIn s → NoWaiters s →
      s.pairedOdd s.curCore s.curSlot = false →
      (s.curSlot = 14 → s.cur.ret ≠ .inline → ∃ t, exec (.done g) s = .next t ∧ t.cur.st = .free ∧ SameMemory s t) ∧
      (s.curSlot ≠ 14 → s.cur.ret = .none → s.cur.join = 0 →
        ∃ t, exec (.done g) s = .next t ∧ t.cur.st = .free ∧ t.cur.launch = none ∧ t.cur.groups = [] ∧ SameMemory s t) ∧
      (∀ pa tr cl key, s.curSlot ≠ 14 → s.cur.ret = .none → s.cur.join ≠ 0 → s.xlate s.cur.join .atomic = .ok (.mem pa tr cl key) →
        (s.serveMe (.mem pa tr cl key) true true).poisonedAt (.mem pa tr cl key) 8 = false →
        ∃ t, exec (.done g) s = .next t ∧ t.cur.st = .free ∧ t.rdWord (.mem pa tr cl key) = s.rdWord (.mem pa tr cl key) - 1 ∧
          SameOutside s t (.mem pa tr cl key) 8) ∧
      (∀ l p rest last, s.curSlot ≠ 14 → s.cur.ret = .deque → s.cur.join = 0 → s.launchOf s.cur = some l →
        l.seat s.curCore = some p → p.frames = rest ++ [last] → p.bottom - 1 = s.cur.retpos → s.here.lmPoison = [] →
        ∃ t, exec (.done g) s = .next t ∧ Resumed t s.curCore s.curSlot (Frame.ofBytes (s.here.lm.rdBytes (p.framePlace last) 96))) ∧
      (∀ l o, s.curSlot ≠ 14 → s.cur.ret = .inline → s.cur.join = 0 → s.launchOf s.cur = some l → s.here.lmPoison = [] →
        uns s 2 % 8 = 0 → programArea ≤ uns s 2 → uns s 2 + 96 ≤ s.lmend s.curCore s.cur →
        s.place s.cur.launch s.curCore (uns s 2) = some o →
        ∃ t, exec (.done g) s = .next t ∧ Resumed t s.curCore s.curSlot (Frame.ofBytes (s.here.lm.rdBytes o 96)) ∧
          (t.cur.st = .killed ∨ t.cur.reg 2 = BitVec.ofNat 64 (uns s 2 + 96))))

/-- MIGRATE (R90, R319): the strand leaves as an arrival record that resumes after the MIGRATE; the slot is PARKED without lanes
until the target accepts the record, and is then FREE. ARRIVAL_RECORD_ACCEPT, TAKE_ARRIVAL and STEAL (R86, R90): a core accepts
a record while the launch's arrival queue has room, in the lowest free place, which is the model's choice (log entry 69), and the
migrating slot is FREE; a FREE general slot takes the earliest
record; with none there it steals the topmost frame of its core. -/
def Obligations.WorkMoves : Prop :=
  (∀ (s : State) (a : Reg) (g : PredIx) (l : Launch), SlotOk s → s.guard g = true →
     (let v := uns s a
      let dva := v % 2 ^ 56
      let form := v / 2 ^ 48 % 256 = 0xFE ∧ v % 2 ^ 30 = 0 ∧ s.windowForm dva = true
      (s.cur.coupled = false → s.curSlot = 14 → exec (.migrate a g) s = .next (s.stop (.trap clsHblk 0x19))) ∧
      (s.cur.coupled = false → s.curSlot ≠ 14 → s.cur.packet = none → ¬ form → exec (.migrate a g) s = .next (s.stop (.trap clsSeg v))) ∧
      (s.cur.coupled = false → s.curSlot ≠ 14 → s.cur.packet = none → form → s.holdsLaunch s.cur dva = false →
        exec (.migrate a g) s = .next (s.stop (.trap clsPkt 3))) ∧
      (s.cur.coupled = false → s.curSlot ≠ 14 → s.cur.packet = none → form → s.holdsLaunch s.cur dva = true →
        s.engineBusy s.curCore s.curSlot = false → s.cur.seq = [] → StoresIn s → s.pairedOdd s.curCore s.curSlot = false →
        s.launchOf s.cur = some l → winDev dva = s.device → s.tenants = [] →
        ∃ t, exec (.migrate a g) s = .next t ∧ t.cur.st = .parked ∧ t.cur.park = some .migrate ∧ t.cur.groups = [] ∧
          t.cur.allot = 0 ∧ SameMemory s t ∧
          t.records = s.records ++ [⟨s.tick, s.coreloc s.curCore, some s.curSlot, s.device, winCore dva, l.id,
            Frame.bytes
              { pc := s.lat.pc + 8, carry := (List.range 8).map fun i => s.src (BitVec.ofNat 5 (24 + i))
                capidx := s.cur.c.toList.map fun (k : Cap) => k.index, join := s.cur.join, group := l.groups, retpos := 0
                ret := .none, origin := s.curSlot, arrival := true, domain := s.cur.stealdom }, false⟩]))) ∧
  ((∀ (s : State) (r : ArrivalRecord) (l : Launch) (p : Seat), s.records = [r] → r.dev = s.device → s.launchById r.launch = some l →
     l.closing = false → l.seat r.dest = some p → ((s.core r.dest).arrivalPlaces l.id).length < l.arrDepth → r.bytes.length = 96 → r.poison = false →
     (let free := (freePlace l.arrDepth ((s.core r.dest).arrivalPlaces l.id)).getD 0
      ∃ t, exec (.arrivalRecordAccept 0) s = .next t ∧ t.records = [] ∧
        (t.core r.dest).arrivals = (s.core r.dest).arrivals ++ [⟨l.id, false, free⟩] ∧
        (t.core r.dest).lm.rdBytes (p.recordPlace free) 96 = r.bytes ∧
        ∀ k, r.slot = some k → k < 16 → (s.slot (r.src % 1024) k).ticket = 0 → (t.slot (r.src % 1024) k).st = .free)) ∧
   (∀ (s : State) (core slot place : Nat) (rest : List ArrivalRef) (l : Launch) (p : Seat), slot < 14 →
     (s.slot core slot).st = .free → (s.slot core slot).ownWork = false → (s.slot core slot).coupled = false →
     (s.core core).arrivals = ⟨l.id, false, place⟩ :: rest → s.launchById l.id = some l → l.seat core = some p →
     (s.core core).lmPoison = [] →
     ∃ t, exec (.takeArrival core slot) s = .next t ∧ (t.core core).arrivals = rest ∧
       Resumed t core slot (Frame.ofBytes ((s.core core).lm.rdBytes (p.recordPlace place) 96))) ∧
   ∀ (s : State) (core slot top : Nat) (below : List Nat) (l : Launch) (p : Seat), slot < 14 →
     (s.slot core slot).st = .free → (s.slot core slot).ownWork = false → (s.slot core slot).coupled = false →
     (s.core core).arrivals = [] → s.launches = [l] → l.seats = [p] → p.core = core → p.frames = top :: below →
     (s.core core).lmPoison = [] →
     ∃ t q, exec (.steal core slot) s = .next t ∧ (t.launchById l.id).bind (·.seat core) = some q ∧ q.frames = below ∧
       q.top = p.top + 1 ∧ Resumed t core slot (Frame.ofBytes ((s.core core).lm.rdBytes (p.framePlace top) 96)))

/-- GANG (R80, R306) takes the next slot, FREE and of the launch, whose Almanac entry follows its own, with as many lane groups;
that the odd slot is GANGED in GANG's own step is the model's reading (log entry 23); UNGANG, once the sequencer is empty, ends the
gang and the odd slot is FREE (R81). CLAIM, SHRINK and VALLOT (R156, R279): CLAIM grants as many of the groups asked for as are held
or have room, the held ones first, ascending, and notes what is missing; SHRINK lowers the register count; VALLOT raises it no
further than 32 and the room of its groups. Each first waits until the sequencer is empty, whatever it asks for; then in a gang each
traps ALLOT, VALLOT also beyond 32 registers, and in checked pairing CLAIM and VALLOT trap SYS. A CLAIM that is granted nothing sets the
register count to 0. -/
def Obligations.GangsAndGrants : Prop :=
  (∀ (s : State) (g : PredIx), SlotOk s → s.guard g = true →
     (let k := s.curSlot
      let t := s.here.alm.toList
      let got := (List.range 16).filter fun n => s.groupFree s.curCore (k + 1) s.cur.allot n
      (s.cur.coupled = false → s.cur.seq ≠ [] → exec (.gang g) s = .next (s.stop (.reissue .seqEmpty))) ∧
      (s.cur.seq ≠ [] → exec (.ungang g) s = .next (s.stop (.reissue .seqEmpty))) ∧
      (s.cur.coupled = false → s.cur.seq = [] → k % 2 = 1 ∨ 14 ≤ k → exec (.gang g) s = .next (s.stop (.trap clsAllot 0))) ∧
      (s.cur.coupled = false → k < 14 → k % 2 = 0 → (s.slot s.curCore (k + 1)).st = .free → s.cur.seq = [] →
        s.belongs s.curCore (k + 1) (s.cur.launch.getD 0) = true → s.cur.groups.length ≤ got.length →
        (∃ e, issueEntries t k = [e] ∧ issueEntries t (k + 1) = [(e + 1) % 16]) →
        ∃ u, exec (.gang g) s = .next u ∧ (u.slot s.curCore (k + 1)).st = .ganged ∧
          (u.slot s.curCore (k + 1)).groups = got.take s.cur.groups.length ∧ SameStrand s u) ∧
      (s.cur.gang = false → s.cur.seq = [] → exec (.ungang g) s = .next (served s)) ∧
      (s.cur.gang = true → s.cur.seq = [] → k % 2 = 0 →
        ∃ u, exec (.ungang g) s = .next u ∧ u.cur.gang = false ∧ (u.slot s.curCore (k + 1)).st = .free ∧
          (u.slot s.curCore (k + 1)).groups = [] ∧ SameStrand s u))) ∧
  (∀ (s : State) (d a : Reg) (g : PredIx), SlotOk s → s.guard g = true →
     (s.cur.seq ≠ [] → exec (.claim d a g) s = .next (s.stop (.reissue .seqEmpty)) ∧
       exec (.shrink a g) s = .next (s.stop (.reissue .seqEmpty)) ∧ exec (.vallot d a g) s = .next (s.stop (.reissue .seqEmpty))) ∧
     (s.cur.seq = [] → s.cur.gang = true → exec (.claim d a g) s = .next (s.stop (.trap clsAllot (uns s a))) ∧
       exec (.shrink a g) s = .next (s.stop (.trap clsAllot (uns s a))) ∧
       exec (.vallot d a g) s = .next (s.stop (.trap clsAllot (uns s a)))) ∧
     (s.cur.seq = [] → 32 < uns s a → exec (.vallot d a g) s = .next (s.stop (.trap clsAllot (uns s a)))) ∧
     (s.cur.seq = [] → s.cur.gang = false → s.cur.coupled = true → exec (.claim d a g) s = .next (s.stop (.trap clsSys 0x10)) ∧
       (uns s a ≤ 32 → exec (.vallot d a g) s = .next (s.stop (.trap clsSys 0x10)))) ∧
     (s.cur.seq = [] → s.cur.gang = false →
       (s.cur.coupled = false → ∃ t, exec (.claim d a g) s = .next t ∧ (d ≠ 0 → t.cur.reg d = BitVec.ofNat 64 (16 * t.cur.groups.length)) ∧
         t.cur.groups.length ≤ min (uns s a) 256 / 16 ∧ t.cur.groups.Pairwise (· < ·) ∧
         (∀ n ∈ t.cur.groups, n ∈ s.cur.groups ∨ s.groupFree s.curCore s.curSlot s.cur.allot n = true) ∧
         (s.cur.groups.Nodup → (∀ n ∈ s.cur.groups, n < 16) → t.cur.groups.length =
           min (min (uns s a) 256 / 16) ((List.range 16).countP fun n => s.groupFree s.curCore s.curSlot s.cur.allot n) ∧
           (s.cur.groups.length ≤ min (uns s a) 256 / 16 → ∀ n ∈ s.cur.groups, n ∈ t.cur.groups)) ∧
         (t.cur.groups = [] → t.cur.allot = 0) ∧ (t.cur.groups ≠ [] → t.cur.allot = s.cur.allot) ∧
         (t.cur.want = if t.cur.groups.length < min (uns s a) 256 / 16 then 16 * (min (uns s a) 256 / 16) else 0)) ∧
       (∃ t, exec (.shrink a g) s = .next t ∧ t.cur.allot = s.cur.allot - uns s a ∧ t.cur.groups = s.cur.groups ∧
         ∀ r, r < t.cur.allot → r < 32 → ∀ n ∈ s.cur.groups, Sparse.get zeros16 t.cur.vrf (32 * n + r) =
           Sparse.get zeros16 s.cur.vrf (32 * n + r)) ∧
       (s.cur.coupled = false → uns s a ≤ 32 → ∃ t, exec (.vallot d a g) s = .next t ∧ (d ≠ 0 → t.cur.reg d = BitVec.ofNat 64 t.cur.allot) ∧
         s.cur.allot ≤ t.cur.allot ∧ t.cur.allot ≤ max s.cur.allot (uns s a) ∧
         (s.cur.allot < uns s a → s.rowsFor (uns s a) = true → t.cur.allot = uns s a))))

/-! ## Messages (R87–R89, R328, R329, R335, R336) -/

/-- SEND and SENDE (R87): a first word opens a packet, further ones are appended while target, channel and H agree; a ninth word
traps PKT 1, another target PKT 2; SENDE closes the packet and gives it to the network. POPM and WAITM (R88): POPM takes the
oldest packet of its launch, its words in s[d] to s[d+7] with zeros for words not sent; WAITM goes on when one is there, and
takes none; without one both park at the queue. PACKET_DELIVERY and HANDLER_START (R88, R89): the oldest packet of a path enters
its core's queue of 64, its words in the message-queue row of local memory (R97) at the lowest free place, which is the model's choice
(log entry 86), and waits while that is full; the first packet with H starts a handler in a FREE slot 14, at its first
word and with the others in s3–s9, their count in s10. WOKEN_CONTEXT_RESTORE (R106, R107): from the first boundary after its
WAKE on, the faulted context of a slot that has not been lent goes on at the pc of its save area. -/
def Obligations.MessagesAndWaking : Prop :=
  (∀ (s : State) (a b : Reg) (g : PredIx) (ch : BitVec 2) (h : BitVec 1), SlotOk s → s.guard g = true →
     (let v := uns s a
      let dva := v % 2 ^ 56
      let target (p : OpenPacket) : Nat := p.target.toNat % 2 ^ 56
      let form := v / 2 ^ 48 % 256 = 0xFE ∧ v % 2 ^ 30 = 0 ∧ s.windowForm dva = true
      (¬ form → exec (.send a b g ch h) s = .next (s.stop (.trap clsSeg v)) ∧
        exec (.sende a b g ch h) s = .next (s.stop (.trap clsSeg v))) ∧
      (form → s.cur.packet = none → s.holdsLaunch s.cur dva = true → exec (.send a b g ch h) s =
        .next (served (s.modCur fun x => { x with packet := some ⟨s.src a, ch, h == 1, [s.src b]⟩ }))) ∧
      (form → s.cur.packet = none → s.holdsLaunch s.cur dva = false →
        exec (.send a b g ch h) s = .next (s.stop (.trap clsPkt 3))) ∧
      (∀ p, form → s.cur.packet = some p → p.words.length < 8 → target p = dva → p.ch = ch → p.handler = (h == 1) →
        exec (.send a b g ch h) s = .next (served (s.modCur fun x => { x with packet := some { p with words := p.words ++ [s.src b] } }))) ∧
      (∀ p, form → s.cur.packet = some p → 8 ≤ p.words.length → exec (.send a b g ch h) s = .next (s.stop (.trap clsPkt 1))) ∧
      (∀ p, form → s.cur.packet = some p → p.words.length < 8 → target p ≠ dva ∨ p.ch ≠ ch ∨ p.handler ≠ (h == 1) →
        exec (.send a b g ch h) s = .next (s.stop (.trap clsPkt 2))) ∧
      (∀ l, form → s.cur.packet = none → s.holdsLaunch s.cur dva = true → StoresIn s → winDev dva = s.device →
        s.launchOf s.cur = some l →
        ∃ t, exec (.sende a b g ch h) s = .next t ∧ RepliesWith s t [] ∧ t.cur.packet = none ∧
          t.packets = s.packets ++ [⟨s.coreloc s.curCore, s.device, winCore dva, l.id, ch, h == 1, [s.src b], 0⟩]) ∧
      (∀ l p, form → s.cur.packet = some p → p.words.length < 8 → target p = dva → p.ch = ch → p.handler = (h == 1) →
        StoresIn s → winDev dva = s.device → s.launchOf s.cur = some l →
        ∃ t, exec (.sende a b g ch h) s = .next t ∧ t.cur.packet = none ∧
          t.packets = s.packets ++ [⟨s.coreloc s.curCore, s.device, winCore dva, l.id, ch, h == 1, p.words ++ [s.src b], 0⟩]))) ∧
  (∀ (s : State) (d : Reg) (g : PredIx) (id : Nat), SlotOk s → s.guard g = true → s.cur.launch = some id →
     (∀ p rest, s.here.msgs = p :: rest → p.handler = false → p.launch = id → 1 ≤ d.toNat → d.toNat ≤ 24 →
       (∃ t, exec (.popm d g) s = .next t ∧ t.here.msgs = rest ∧ SameMemory s t ∧
         (∀ i, i < 8 → t.cur.reg (BitVec.ofNat 5 (d.toNat + i)) = p.words.getD i 0) ∧
         (∀ r : Reg, r.toNat < d.toNat ∨ d.toNat + 8 ≤ r.toNat → t.cur.reg r = s.cur.reg r)) ∧
       exec (.waitm g) s = .next (served s)) ∧
     ((∀ p ∈ s.here.msgs, p.handler = true ∨ p.launch ≠ id) → s.curSlot ≠ 14 → s.cur.packet = none →
       (∃ t, exec (.popm d g) s = .next t ∧ t.cur.st = .parked ∧ t.cur.park = some (.message (some d)) ∧
         t.here.msgWait = s.here.msgWait ++ [s.curSlot]) ∧
       ∃ t, exec (.waitm g) s = .next t ∧ t.cur.st = .parked ∧ t.cur.park = some (.message none) ∧
         t.here.msgWait = s.here.msgWait ++ [s.curSlot]) ∧
     ((∀ p ∈ s.here.msgs, p.handler = true ∨ p.launch ≠ id) → s.curSlot = 14 →
       exec (.popm d g) s = .next (s.stop (.trap clsHblk 0x1B)) ∧ exec (.waitm g) s = .next (s.stop (.trap clsHblk 0x1B)))) ∧
  ((∀ (s : State) (p : Packet) (rest : List Packet) (l : Launch), s.packets = p :: rest → s.launchById p.launch = some l →
     l.closing = false →
     ((s.core p.dest).msgs.length < 64 → (s.core p.dest).msgWait = [] →
       (let at' := (freePlace 64 ((s.core p.dest).msgs.map (·.place))).getD 0
        ∃ t, exec (.packetDelivery 0) s = .next t ∧ t.packets = rest ∧
          (t.core p.dest).msgs = (s.core p.dest).msgs ++ [{ p with place := at' }] ∧
          (t.core p.dest).lm.rdBytes (0x7000 + 64 * at') 64 = bytesOfWords ((List.range 8).map fun i => (p.words.getD i 0).toNat) ∧
          SameOutside s t (.lm p.dest (0x7000 + 64 * at')) 64)) ∧
     (64 ≤ (s.core p.dest).msgs.length → exec (.packetDelivery 0) s = .next s)) ∧
   (∀ (s : State) (p q : Packet) (mid : List Packet), s.packets = p :: (mid ++ [q]) → p.samePath q = true ∨ q.samePath p = true →
     exec (.packetDelivery (mid.length + 1)) s = .next s) ∧
   ∀ (s : State) (core : Nat) (p : Packet) (rest : List Packet) (l : Launch), (s.slot core 14).st = .free →
     (s.slot core 14).coupled = false → (s.core core).msgs = p :: rest → p.handler = true → s.launchById p.launch = some l →
     ∃ t, exec (.handlerStart core) s = .next t ∧ (t.core core).msgs = rest ∧
       ((t.slot core 14).st = .killed ∨ (t.slot core 14).st = .ready ∧ (t.slot core 14).pc = p.words.getD 0 0 ∧
         (∀ i, i < 7 → (t.slot core 14).reg (BitVec.ofNat 5 (3 + i)) = p.words.getD (i + 1) 0) ∧
         (t.slot core 14).reg 10 = BitVec.ofNat 64 p.words.length ∧
         ∀ r : Reg, r.toNat < 3 ∨ 10 < r.toNat → (t.slot core 14).reg r = (s.slot core 14).reg r)) ∧
  (∀ (s : State) (core slot : Nat), slot < 16 → (s.slot core slot).st = .faulted → (s.slot core slot).faultTag ≠ 0 →
     (s.slot core slot).faultTag ∈ (s.slot core slot).wakes → ((s.slot core slot).wakeCc / 16 + 1) * 16 ≤ s.cc →
     (s.slot core slot).mmaFault = false → (s.slot core slot).seqReply = false → (s.slot core slot).lentTag = 0 →
     (s.core core).lmPoison = [] →
     ∃ t, exec (.wokenContextRestore core slot) s = .next t ∧ (t.slot core slot).st = .ready ∧ (t.slot core slot).faultTag = 0 ∧
       (t.slot core slot).pc = BitVec.ofNat 64 (natOfBytes ((s.core core).lm.rdBytes (saveArea slot + 0x200) 8)) ∧ SameMemory s t)

/-! ## The vector pool (R155–R163, R173, R279, R353–R375) -/

/-- Every vector instruction is handed to its slot's sequencer with the scalars it reads at issue (R159), after every entry
before it or, one that writes no scalar, into the run that is being handed (R162); the last entry of a run of no passes ends the run
unrun. One that writes a scalar, and VSYNC, leave the slot in REPLY. VLOOP opens a run. The step of a pair whose A-slot may not be
handed inside the run that is open traps ILL and cancels the run (R162); that of a pair whose A-slot names a vector register at or
above the slot's count traps ALLOT with its number (R174, R175), also where its C-slot would trap ALLOT itself: the manual does not say
which of the two is then taken, and that it is the A-slot's is the model's choice (log entry 72). -/
def Obligations.VectorInstructionsAreHanded : Prop :=
  (∀ (s : State) (o : VOp) (c r : BitVec 2) (z : BitVec 1), s.guard o.g = true →
    (let enters (i : Instr) (x y : Word) (owes : Bool) : Prop :=
       (let e : SeqEntry := ⟨i, x, y, false, [], none, s.cc⟩
        let put (q : List SeqItem) : Host.Outcome State Fault Refusal := .next (s.modCur fun t =>
          { t with seq := q, seqReply := owes || t.seqReply, st := if owes then .reply else t.st })
        (runOpen s.cur.seq = false → dropEmptyRun s.cur.seq = s.cur.seq → exec i s = put (s.cur.seq ++ [.one e])) ∧
        ∀ before n count es, owes = false → s.cur.seq = before ++ [.run n count 0 0 es] → es.length < n →
          dropEmptyRun before = before →
          (count ≠ 0 ∨ es.length + 1 < n → exec i s = put (before ++ [.run n count 0 0 (es ++ [e])])) ∧
          (count = 0 → es.length + 1 = n → exec i s = put before))
     (∀ i ∈ [Instr.vadd o, .vsub o, .vmul o, .vfma o, .vmin o, .vmax o, .vcmp c o, .vsel o, .vcvt r o, .vdec z o, .vscl o,
         .vperm o, .vsfu o], enters i 0 0 false) ∧
     enters (.venc o) 0 (s.cur.dtnan.setWidth 64) false ∧
     (∀ i ∈ [Instr.vbcast o, .vidx o], enters i (s.src o.a) 0 false) ∧
     enters (.vrand o) (s.src o.a) (s.src o.b) false ∧ enters (.vimask o) 0 (s.src o.b) false ∧
     (∀ i ∈ [Instr.vred r o, .vsort z o, .vsync o.g], enters i 0 0 true) ∧
     enters (.vextr o) 0 (s.src o.b) true ∧ enters (.vksel z o) (s.src o.b) 0 true)) ∧
  (∀ (s u : State) (w : BitVec 64) (c i : Instr), s.boot = .ready → s.issuing = true →
    (let b := (({ s with issuing := false }).beginPair s.curCore s.curSlot).modCur fun x => { x with lastIssue := some s.cc }
     b.fetch = (u, .ok (w, none))) →
    u.cur.coupled = false → u.lat.adone = false → decodeGroup (groupLo w) (groupHi w) = .ok (c, some i) →
    (let v : State := { u with lat := { u.lat with w0 := groupLo w, w1 := groupHi w } }
     let inA (x : State) : State := { x with lat := { x.lat with inA := true } }
     (barredInRun i = true → runOpen v.cur.seq = true → (∃ g, guardOf i = some g ∧ v.guard g = true) → (∀ g, c ≠ .eret g) →
       step s = .next ((inA (v.modCur fun x => { x with seq := cancelRun x.seq })).stop (.trap clsIll 0))) ∧
     (∀ r, v.illAtIssue c (some i) = none → v.overAllot (some i) = some r → r ∈ vectorRegs i ∧ v.cur.allot ≤ r ∧
       step s = .next ((inA v).stop (.trap clsAllot r))))) ∧
  ∀ (s : State) (a : Reg) (n : BitVec 4) (g : PredIx), s.guard g = true →
    (runOpen s.cur.seq = false → uns s a < 2 ^ 32 → exec (.vloop a n g) s =
      .next (served (s.modCur fun x => { x with seq := x.seq ++ [.run (n.toNat + 1) (uns s a) 0 0 []] }))) ∧
    (runOpen s.cur.seq = true ∨ 2 ^ 32 ≤ uns s a → exec (.vloop a n g) s = .next (s.stop (.trap clsIll 0)))

/-- SEQUENCER_ENTRY_RUN of a lane-by-lane instruction on registers (R353–R373): every lane of v[d] becomes the function of the
lanes of v[d], v[a] and v[b]; the entry is done; other registers and all of memory keep their values. VBCAST and VIDX fill every
lane from the scalar read at issue; VPERM picks lanes of v[a]; VCVT rounds by its mode and saturates, or rounds stochastically; VDEC
and VENC go through the decode table; VRAND is its fixed function; VIMASK compares intervals (R357–R370). VRED sum of the integer
types gives the sum of the lanes as integers modulo 2^64, and VEXTR the lane that its index names, or 0; VSORT and VKSEL with k ≤
VLEN give their entries in the order of R153, then fillers, and their count (R364, R365); the slot's wait for the scalar ends. -/
def Obligations.SequencerEntriesRun : Prop :=
  (∀ (i : Instr) (s : State) (core slot : Nat) (o : VOp) (f : Half → Half → Half → Half) (x y : Word) (rest : List SeqItem),
     lanewiseOf i = some (o, f) → EntryReady s core slot i x y rest → o.qa = 0 → o.qb = 0 → o.qd = 0 → o.t.ult 6#3 = true →
     ∃ t, exec (.sequencerEntryRun core slot) s = .next t ∧ (t.slot core slot).seq = rest ∧ SameMemory s t ∧
       (t.core core).vreg slot o.d.toNat = (List.range ((s.core core).vlen slot)).map (fun l =>
         f (((s.core core).vreg slot o.d.toNat).getD l 0) (((s.core core).vreg slot o.a.toNat).getD l 0)
           (((s.core core).vreg slot o.b.toNat).getD l 0)) ∧
       (∀ r, r < 32 → r ≠ o.d.toNat → (t.core core).vreg slot r = (s.core core).vreg slot r) ∧
       (t.slot core slot).s = (s.slot core slot).s) ∧
  (∀ (s : State) (core slot : Nat) (o : VOp) (x y : Word) (rest : List SeqItem) (op : Instr), EntryReady s core slot op x y rest →
     o.qa = 0 → o.qb = 0 → o.qd = 0 → o.t.ult 6#3 = true →
     (let n := (s.core core).vlen slot
      let A (l : Nat) : Half := ((s.core core).vreg slot o.a.toNat).getD l 0
      let B (l : Nat) : Half := ((s.core core).vreg slot o.b.toNat).getD l 0
      let code (a : Half) : Nat := (Sparse.get 0 (s.core core).dtab (a.toNat % 256)).toNat
      let row (f : Nat → Half) : Prop := ∃ t, exec (.sequencerEntryRun core slot) s = .next t ∧ SameMemory s t ∧
        (t.core core).vreg slot o.d.toNat = (List.range n).map f ∧ (t.slot core slot).seq = rest ∧
        (t.slot core slot).s = (s.slot core slot).s ∧
        ∀ r, r < 32 → r ≠ o.d.toNat → (t.core core).vreg slot r = (s.core core).vreg slot r
      (op = .vbcast o → row fun _ => typeBits o.t (x.extractLsb' 0 32)) ∧
      (op = .vidx o → row fun l => BitVec.ofNat 32 (x.toNat + l)) ∧
      (op = .vperm o → row fun l => if (B l).toNat < n then typeBits o.t (A (B l).toNat) else 0) ∧
      (∀ r, op = .vcvt r o → r ≠ 3 → ∃ f, row f ∧ ∀ l, l < n →
        (let src := o.b.extractLsb' 0 3
         let v := laneExact src (A l)
         let m := vcvtRnd r o.b
         (o.t = 0 → IntFrom v m (-(2 ^ 31)) (2 ^ 31 - 1) (f l).toInt) ∧ (o.t = 1 → IntFrom v m 0 (2 ^ 32 - 1) (f l).toNat) ∧
         (2 ≤ o.t.toNat → (o.t = 4 → src.toNat < 2 → ∀ q, ratOf v = some q → |q| ≤ 65504) →
           ∃ flags, NarrowsTo (typeFmt o.t) m v (f l).toNat flags))) ∧
      (op = .vcvt 3 o → row fun l => BitVec.ofNat 32 ((typeFmt o.t).stochastic (fp32.value (A l).toNat) (B l).toNat)) ∧
      (op = .vdec 0 o → row fun l => laneOf o.t (e8m10.value (code (A l)))) ∧
      (op = .vdec 1 o → row fun l => if (B l).toNat % 256 = 255 then laneOf o.t .nan
        else laneOf o.t ((e8m10.value (code (A l))).scale (((B l).toNat % 256 : Nat) - 127))) ∧
      (op = .venc o → row fun l => BitVec.ofNat 32 (if laneVal o.t (A l) = .nan then y.toNat % 256
        else enc8 (fun k => (Sparse.get 0 (s.core core).dtab k).toNat) (y.toNat % 256) (laneVal o.t (A l)))) ∧
      (op = .vrand o → row fun l =>
        let u := x ^^^ (y * 0x9E3779B97F4A7C15#64) ^^^ (BitVec.ofNat 64 l * 0xD1B54A32D192ED03#64)
        let a := u + 0x9E3779B97F4A7C15#64
        let b := (a ^^^ (a >>> 30)) * 0xBF58476D1CE4E5B9#64
        let c := (b ^^^ (b >>> 27)) * 0x94D049BB133111EB#64
        BitVec.ofNat 32 ((c ^^^ (c >>> 31)).toNat / 2 ^ 32)) ∧
      (op = .vimask o → row fun l =>
        if (A l).toNat % 65536 ≤ y.toNat % 65536 ∧ y.toNat / 65536 % 65536 ≤ (A l).toNat / 65536 then BitVec.allOnes 32 else 0) ∧
      ((s.slot core slot).st = .reply → (s.slot core slot).reply = none → (s.slot core slot).coupled = false →
        (let scalar (d : Reg) (v : Word) (t : State) : Prop := exec (.sequencerEntryRun core slot) s = .next t ∧ SameMemory s t ∧
           (t.slot core slot).seqReply = false ∧ (t.slot core slot).st = .ready ∧ (d ≠ 0 → (t.slot core slot).reg d = v)
         let even := o.a.toNat % 2 = 0 ∧ o.d.toNat % 2 = 0
         (op = .vred 0 o → o.t = 0 → ∃ t, scalar o.d (BitVec.ofInt 64 ((List.range n).map fun l => (A l).toInt).sum) t) ∧
         (op = .vred 0 o → o.t = 1 → ∃ t, scalar o.d (BitVec.ofNat 64 ((List.range n).map fun l => (A l).toNat).sum) t) ∧
         (op = .vextr o → o.t = 0 → ∃ t, scalar o.d (if y.toNat < n then BitVec.ofInt 64 (A y.toNat).toInt else 0) t) ∧
         (op = .vextr o → o.t ≠ 0 → ∃ t, scalar o.d (if y.toNat < n then (typeBits o.t (A y.toNat)).setWidth 64 else 0) t) ∧
         (∀ z, op = .vsort z o → even → ∃ t l, Ordered (z == 1) o.t ((s.core core).entries slot o.a.toNat) l ∧
           scalar o.b (BitVec.ofNat 64 l.length) t ∧
           (t.core core).entries slot o.d.toNat = l ++ List.replicate (n - l.length) (filler (z == 1) o.t)) ∧
         (∀ z, op = .vksel z o → even → min x.toNat 4096 ≤ n → ∃ t l,
           Ordered (z == 1) o.t ((s.core core).entries slot o.a.toNat ++ (s.core core).entries slot o.d.toNat) l ∧
           (let k := min (min x.toNat 4096) l.length
            scalar o.b (BitVec.ofNat 64 k) t ∧
            (t.core core).entries slot o.d.toNat = l.take k ++ List.replicate (n - k) (filler (z == 1) o.t)))))))

/-- SFU_REQUEST_SERVE (R152, R173, R374): the head request of a cluster's queue leaves it; its results are the function's, lane
by lane, in the register it names, unless the slot has been killed. The exact results of R152 for exp2, log2, rcp, rsqrt, tanh and
sin; a NaN gives the canonical NaN, and tanh never exceeds 1. -/
def Obligations.SpecialFunctionRequestsAreServed : Prop :=
  (∀ (s : State) (r : SfuReq) (rest : List SfuReq), r.slot < 16 →
    (s.cluster (clusterOf r.core)).sfu = r :: rest →
    (r.dead = true → ∃ t, exec (.sfuRequestServe (clusterOf r.core)) s = .next t ∧
      (t.cluster (clusterOf r.core)).sfu = rest ∧ t.cores = s.cores) ∧
    (r.dead = false → (s.slot r.core r.slot).gang = false → (s.slot r.core r.slot).svGroups = [] →
      (s.slot r.core r.slot).groups.Nodup → ((s.slot r.core r.slot).st = .saved → NoWaiters s) → r.d.qd = 0 → r.xs.length = (s.core r.core).vlen r.slot →
      ∃ t, exec (.sfuRequestServe (clusterOf r.core)) s = .next t ∧ (t.cluster (clusterOf r.core)).sfu = rest ∧
        (t.core r.core).vreg r.slot r.d.d.toNat = r.xs.map fun x => sfu x (r.d.b.extractLsb' 0 3))) ∧
  (let at' (x : Half) : Option Rat := ratOf (fp32.value x.toNat)
   (∀ x f, f.toNat < 6 → fp32.value x.toNat = .nan → sfu x f = 0x7FC00000) ∧
   (sfu 0x00000000 0 = 0x3F800000 ∧ sfu 0x80000000 0 = 0x3F800000 ∧ sfu 0xFF800000 0 = 0 ∧ sfu 0x7F800000 0 = 0x7F800000 ∧
     (∀ x (n : Int), at' x = some n → -149 ≤ n → n ≤ 127 → at' (sfu x 0) = some (2 ^ n)) ∧
     ∀ x q, at' x = some q → 128 ≤ q → sfu x 0 = 0x7F800000) ∧
   (sfu 0x3F800000 1 = 0 ∧ sfu 0x00000000 1 = 0xFF800000 ∧ sfu 0x80000000 1 = 0xFF800000 ∧ sfu 0x7F800000 1 = 0x7F800000 ∧
     sfu 0xFF800000 1 = 0x7FC00000 ∧ (∀ x q, at' x = some q → q < 0 → sfu x 1 = 0x7FC00000) ∧
     ∀ x (n : Int), at' x = some (2 ^ n) → at' (sfu x 1) = some n) ∧
   (sfu 0x00000000 2 = 0x7F800000 ∧ sfu 0x80000000 2 = 0xFF800000 ∧ sfu 0x7F800000 2 = 0 ∧ sfu 0xFF800000 2 = 0x80000000 ∧
     ∀ x (n : Int), at' x = some (2 ^ n) → -127 ≤ n → at' (sfu x 2) = some (2 ^ (-n))) ∧
   (sfu 0x00000000 3 = 0x7F800000 ∧ sfu 0x80000000 3 = 0xFF800000 ∧ sfu 0x7F800000 3 = 0 ∧ sfu 0xFF800000 3 = 0x7FC00000 ∧
     (∀ x q, at' x = some q → q < 0 → sfu x 3 = 0x7FC00000) ∧
     ∀ x (n : Int), at' x = some (4 ^ n) → at' (sfu x 3) = some (2 ^ (-n))) ∧
   (sfu 0x00000000 4 = 0 ∧ sfu 0x80000000 4 = 0x80000000 ∧ sfu 0x7F800000 4 = 0x3F800000 ∧ sfu 0xFF800000 4 = 0xBF800000 ∧
     ∀ x, fp32.value x.toNat ≠ .nan → (sfu x 4).toNat % 2 ^ 31 ≤ 0x3F800000) ∧
   (sfu 0x00000000 5 = 0 ∧ sfu 0x80000000 5 = 0x80000000 ∧ sfu 0x7F800000 5 = 0x7FC00000 ∧ sfu 0xFF800000 5 = 0x7FC00000))

/-! ## Engines (R164–R172, R289–R292, R321–R324, R332) -/

/-- EPUSH (R164, R291): the block's offset is checked SEG, ALN, SYS; a matrix block of legal fields enters the slot's input
queue of the matrix engine, and a local copy within the partition that of the copy engine, in the core's order of copies. -/
def Obligations.CommandsEnterTheirQueue : Prop :=
  ∀ (s : State) (a : Reg) (g : PredIx), SlotOk s → s.guard g = true →
    (let o := uns s a
     (∀ i ∈ [Instr.epushMat a g, Instr.epushCopy a g],
       (0x7FFFF < o ∨ s.lmend s.curCore s.cur ≤ o → exec i s = .next (s.stop (.trap clsSeg o))) ∧
       (o ≤ 0x7FFFF → o < s.lmend s.curCore s.cur → o % 64 ≠ 0 → exec i s = .next (s.stop (.trap clsAln o))) ∧
       (o ≤ 0x7FFFF → o < s.lmend s.curCore s.cur → o % 64 = 0 → o < 0x9000 → exec i s = .next (s.stop (.trap clsSys o)))) ∧
     (∀ off, o ≤ 0x7FFFF → o < s.lmend s.curCore s.cur → o % 64 = 0 → 0x9000 ≤ o →
       s.place s.cur.launch s.curCore o = some off → s.poisonedAt (.lm s.curCore off) 64 = false → StoresIn s →
       s.cur.coupled = false →
       (let block := s.here.lm.rdBytes off 64
        (∀ (ra rb acc z k kind : Nat) (tag : BitVec 32), ra < 8 → rb < 8 → acc < 4 → z < 2 → ra ≠ rb → k % 32 = 0 → 32 ≤ k →
          k ≤ 2 ^ 24 → (kind = 0 ∨ kind = 3) →
          block = bytesOfWords [ra + rb * 8 + acc * 64 + z * 256 + k * 2 ^ 32, 0, 0, 0, 0, 0, 0, kind + tag.toNat * 2 ^ 32] →
          s.cur.matQ.length < 2 →
          exec (.epushMat a g) s = .next (served (s.modCur fun x => { x with
            matQ := x.matQ ++ [⟨s.cur.launch.getD 0, s.cc, k, z == 1, acc, ra, rb, false, 0, [], [], false,
              ⟨kind, tag, 0, 0, 0, false, none, 0, 0⟩⟩] }))) ∧
        (∀ (src dst rows rowBytes sstride dstride kind : Nat) (tag : BitVec 32), 1 ≤ rows → rows < 2 ^ 16 → 1 ≤ rowBytes →
          rowBytes ≤ 2 ^ 24 → sstride < 2 ^ 31 → dstride < 2 ^ 31 → (kind = 0 ∨ kind = 3) → 0x9000 ≤ src → 0x9000 ≤ dst →
          s.lmend s.curCore s.cur ≤ 0x80000 → src + (rows - 1) * sstride + rowBytes ≤ s.lmend s.curCore s.cur →
          dst + (rows - 1) * dstride + rowBytes ≤ s.lmend s.curCore s.cur →
          block = bytesOfWords [src, dst, rowBytes + rows * 2 ^ 32 + 2 ^ 56 + 2 ^ 60, sstride + dstride * 2 ^ 32, 0, 0, 0,
            kind + tag.toNat * 2 ^ 32] →
          s.cur.copyQ.length < 2 →
          ∃ t, exec (.epushCopy a g) s = .next t ∧ t.here.copyOrd = s.here.copyOrd ++ [s.curSlot] ∧ SameMemory s t ∧
            SameStrand s t ∧ t.cur.copyQ = s.cur.copyQ ++ [⟨s.cur.launch.getD 0, 1, src, 1, dst, rows, rowBytes, sstride, dstride,
              0, 0, 0, false, ⟨kind, tag, 0, 0, 0, false, none, 0, 0⟩⟩]))))

/-- EPOP (R289), for either engine: the oldest result goes to s[d]; with none there and none owed it traps ENG. MMA (R321): a legal
operation on rings that hold tiles is queued and its slot is PARKED until it ends. RINGSET (R332): base, size, format and scale
offset of an idle ring, HEAD 0, and the whole of it or nothing held. -/
def Obligations.ResultsRingsAndSynchronousOperations : Prop :=
  (∀ (s : State) (d : Reg) (g : PredIx), SlotOk s → s.guard g = true →
    (∀ v rest, s.cur.matRes = v :: rest →
      ∃ t, exec (.epop d g 0) s = .next t ∧ t.cur.matRes = rest ∧ (d ≠ 0 → t.cur.reg d = v) ∧ SameMemory s t) ∧
    (∀ v rest, s.cur.copyRes = v :: rest →
      ∃ t, exec (.epop d g 1) s = .next t ∧ t.cur.copyRes = rest ∧ (d ≠ 0 → t.cur.reg d = v) ∧ SameMemory s t) ∧
    (s.cur.matRes = [] → s.here.owes s.curSlot false = false → exec (.epop d g 0) s = .next (s.stop (.trap clsEng 0xFFFE))) ∧
    (s.cur.copyRes = [] → s.here.owes s.curSlot true = false →
      exec (.epop d g 1) s = .next (s.stop (.trap clsEng 0xFFFE)))) ∧
  (∀ (s : State) (d a b : Reg) (c : CapIx) (g : PredIx) (z : BitVec 1), SlotOk s → s.guard g = true → s.cur.since = none →
    (let k := uns s a
     (k % 32 ≠ 0 ∨ k < 32 ∨ 2 ^ 24 < k ∨ b.toNat = c.toNat → exec (.mma d a b c g z) s = .next (s.stop (.trap clsEng 0xFFFF))) ∧
     (k % 32 = 0 → 32 ≤ k → k ≤ 2 ^ 24 → b.toNat ≠ c.toNat → holdsTile (s.here.ring b.toNat) 32 = true →
       holdsTile (s.here.ring c.toNat) 64 = true → s.curSlot ≠ 14 → s.cur.packet = none → s.cur.coupled = false →
       s.cur.matQ.length < 2 →
       ∃ t, exec (.mma d a b c g z) s = .next t ∧ t.cur.st = .parked ∧ t.cur.park = some .mma ∧ SameMemory s t ∧ SameStrand s t ∧
         t.cur.matQ = s.cur.matQ ++ [⟨s.cur.launch.getD 0, s.cc, k, z == 1, d.toNat, b.toNat, c.toNat, true, 0, [], [], false,
           ⟨3, 0, 0, 0, 0, false, none, 0, 0⟩⟩]))) ∧
  ∀ (s : State) (d a b : Reg) (g : PredIx) (fmt : BitVec 4), s.guard g = true → d.toNat < 8 →
    (let v := uns s a
     let base := v % 2 ^ 19
     let size := uns s b
     (v / 2 ^ 20 % 2 ^ 12 ≠ 0 ∨ base % 128 ≠ 0 ∨ base < 0x9000 → exec (.ringset d a b g fmt) s = .next (s.stop (.trap clsSeg v))) ∧
     (∀ log, 12 ≤ log → log ≤ 18 → size = 2 ^ log → v / 2 ^ 20 % 2 ^ 12 = 0 → base % 128 = 0 → 0x9000 ≤ base →
       base + size ≤ s.lmend s.curCore s.cur → s.here.ringIdle d.toNat = true →
       ∃ t, exec (.ringset d a b g fmt) s = .next t ∧ SameMemory s t ∧ SameStrand s t ∧
         (let r := t.here.ring d.toNat
          ringBase r = base ∧ ringSize r = size ∧ ringHead r = 0 ∧ ringSoff r = v / 2 ^ 32 ∧ ringFmt r = fmt.extractLsb' 0 2 ∧
          ringHeld r = if v / 2 ^ 19 % 2 = 1 then 0 else size) ∧
         ∀ n, n ≠ d.toNat → t.here.ring n = s.here.ring n))

/-- RANK_1_STEP (R150, R168, R322): the oldest operation of the step owner's slot, over two bf16 rings, adds the outer product
of its next row of A and row of B to its accumulator tile, each element rounded once to FP32, starting from 0 with Z; other
tiles keep their values; the last row of a tile takes both tiles out of their rings; the last step ends the operation with
status 0. MMAE (R169, R323, R324) of an idle accumulator: every FP32 element, times s[b] or 1 and rounded, goes to local memory
in row-major order, or as eight rows of 256 lanes to a store queue; the tile is unchanged. -/
def Obligations.MatrixStepsAndExtraction : Prop :=
  (∀ (s : State) (core slot : Nat) (m : MatOp) (rest : List MatOp) (l : Launch) (as bs : List Byte), slot < 16 →
     slot = almStep ((s.core core).entry s.cc) → (s.slot core slot).matQ = m :: rest → s.mayStep core slot m = true →
     m.acc < 4 → m.ringA < 8 → m.ringB < 8 → m.ringA ≠ m.ringB → s.launchById m.launch = some l → (s.core core).lmPoison = [] →
     (s.core core).acc.Pairwise (fun x y => x.1 < y.1) →
     (let ra := (s.core core).ring m.ringA
      let rb := (s.core core).ring m.ringB
      let row := m.next % 32
      ringFmt ra = 0 → ringFmt rb = 0 → s.ringBytes core m.launch ra (64 * row) 64 = some as →
      s.ringBytes core m.launch rb (128 * row) 128 = some bs →
      (let A (x : Nat) : FVal := bf16.value (natOfBytes ((as.drop (2 * x)).take 2))
       let B (y : Nat) : FVal := bf16.value (natOfBytes ((bs.drop (2 * y)).take 2))
       let old (n : Nat) : Half := if m.z = true ∧ m.next = 0 then 0 else ((s.core core).accTile m.acc).getD n 0
       ∃ t, exec (.rank1Step core) s = .next t ∧
         (∀ x y, x < 32 → y < 64 → ((t.core core).accTile m.acc).getD (64 * x + y) 0 =
           BitVec.ofNat 32 (fp32.bits .rne (((A x).mul (B y)).add (fp32.value (old (64 * x + y)).toNat)))) ∧
         (∀ k, k < 4 → k ≠ m.acc → (t.core core).accTile k = (s.core core).accTile k) ∧
         (row ≠ 31 → (t.core core).rings = (s.core core).rings) ∧
         (row = 31 → (t.core core).ring m.ringA = ringPop ra 2048 ∧ (t.core core).ring m.ringB = ringPop rb 4096) ∧
         (m.next + 1 ≠ m.k → ∃ n, (t.slot core slot).matQ = n :: rest ∧ n.next = m.next + 1 ∧ n.k = m.k ∧ n.acc = m.acc) ∧
         (m.next + 1 = m.k → (t.slot core slot).matQ = rest) ∧
         (m.next + 1 = m.k → m.sync = true → (s.slot core slot).st = .parked → (s.slot core slot).park = some .mma →
           (s.slot core slot).seqReply = false → (t.slot core slot).st = .ready) ∧
         (m.next + 1 = m.k → m.sync = false →
           (t.core core).ended = (s.core core).ended ++ [⟨slot, m.launch, false, 0, m.comp⟩]) ∧
         SameMemory s t))) ∧
  (∀ (s : State) (d a b : Reg) (q : BitVec 1) (g : PredIx) (r : BitVec 2), SlotOk s → s.guard g = true → StoresIn s →
     NoWaiters s →
     (let tile := s.here.accTile (d.toNat % 4)
      let scale : FVal := fp32.value (if b = 0 then 0x3F800000 else uns s b % 2 ^ 32)
      let out (i : Nat) : Nat := fp32.bits .rne ((fp32.value (tile.getD i 0).toNat).mul scale)
      let o := uns s a
      s.here.accBusy (d.toNat % 4) (s.cur.since.getD s.cc) = false →
      (∀ off, o + 8192 ≤ s.lmend s.curCore s.cur → o % 4 = 0 → 0x9000 ≤ o → s.place s.cur.launch s.curCore o = some off →
        off % 4 = 0 →
        ∃ t, exec (.mmae d a b 0 0 q g 0 r) s = .next t ∧ SameStrand s t ∧ SameOutside s t (.lm s.curCore off) 8192 ∧
          (∀ i, i < 2048 → t.here.lm.rdBytes (off + 4 * i) 4 = bytesOfNat 4 (out i)) ∧ t.here.acc = s.here.acc) ∧
      (s.here.vlen s.curSlot = 256 → s.cur.sqRows[q.toNat]?.getD [] = [] →
        ∃ t, exec (.mmae d a b 0 1 q g 0 r) s = .next t ∧ SameStrand s t ∧ SameMemory s t ∧ t.here.acc = s.here.acc ∧
          t.cur.sqRows[q.toNat]?.getD [] = (List.range 8).map fun n => (List.range 256).map fun i => BitVec.ofNat 32 (out (256 * n + i)))))

/-- COPY_COMMAND_START (R172): a local copy of one row of whole words brings its bytes to its destination and changes nothing else; it has
then ended with status 0. That the whole of it happens in the step that starts it is the model's choice (log entry 30). COMMAND_COMPLETION
(R165, R290): the result word {tag, status} of an ended command goes by its KIND to its slot's result queue, into a packet, into a word
that it fills, or nowhere. MULTICAST_PIECE_DRAIN (R172): a receiving core takes its oldest piece into its partition; the piece stays for
the receivers that have not taken it, and the last one frees its place. -/
def Obligations.CopiesRunAndAnswer : Prop :=
  ((∀ (s : State) (core k n : Nat) (m : CopyCmd) (rest : List CopyCmd) (l : Launch) (p : Seat), k < 16 → (s.core core).copyRun = none →
     (s.core core).copyOrd = [k] → (s.slot core k).copyQ = m :: rest → s.mayStart core k m = true → m.mute = false →
     m.skind = 1 → m.dkind = 1 → m.rows = 1 → m.rowBytes = 8 * n → m.src % 8 = 0 → m.dst % 8 = 0 → s.launchById m.launch = some l →
     l.seat core = some p → p.pbase % 8 = 0 → 0x9000 ≤ m.src → m.src + 8 * n ≤ 0x9000 + p.lmsize → 0x9000 ≤ m.dst →
     m.dst + 8 * n ≤ 0x9000 + p.lmsize → (m.src + 8 * n ≤ m.dst ∨ m.dst + 8 * n ≤ m.src) → NoWaiters s →
     (s.core core).lmPoison = [] →
     (let at' (o : Nat) : Nat := p.pbase + (o - 0x9000)
      ∃ t, exec (.copyCommandStart core) s = .next t ∧
        (t.core core).lm.rdBytes (at' m.dst) (8 * n) = (s.core core).lm.rdBytes (at' m.src) (8 * n) ∧
        SameOutside s t (.lm core (at' m.dst)) (8 * n) ∧ (t.slot core k).copyQ = rest ∧ (t.core core).copyOrd = [] ∧
        (t.core core).copyRun.any (fun r => r.ended && r.status == 0 && r.slot == k && r.cmd == m) = true)) ∧
   ∀ (s : State) (core : Nat) (e : EndedCmd) (rest : List EndedCmd), e.slot < 16 → (s.core core).ended = e :: rest →
     (let w : Word := e.comp.tag ++ BitVec.ofNat 32 e.status
      ∃ t, exec (.commandCompletion core) s = .next t ∧ (e.comp.kind ≠ 2 → (t.core core).ended = rest) ∧
        (e.comp.kind = 0 → e.comp.ctx = 0 → e.copy = false → (t.slot core e.slot).matRes = (s.slot core e.slot).matRes ++ [w]) ∧
        (e.comp.kind = 0 → e.comp.ctx = 0 → e.copy = true → (t.slot core e.slot).copyRes = (s.slot core e.slot).copyRes ++ [w]) ∧
        (e.comp.kind = 1 → winDev (e.comp.target.toNat % 2 ^ 56) = s.device → t.packets = s.packets ++
          [⟨s.coreloc core, s.device, winCore (e.comp.target.toNat % 2 ^ 56), e.launch, e.comp.ch, e.comp.h,
            if e.comp.h = true then [e.comp.handler, w] else [w], 0⟩]) ∧
        (∀ w', e.comp.kind = 2 → e.comp.fill = some w' → OnHome w' → NoWaiters s → t.rdLoc w' 8 = bytesOfNat 8 w.toNat ∧
          t.full w' = true) ∧
        (e.comp.kind = 3 → t.slot core e.slot = s.slot core e.slot ∧ t.packets = s.packets))) ∧
  (∀ (s : State) (core off : Nat) (p : Piece) (pre post : List Piece), s.pieces = pre ++ p :: post →
     (∀ q ∈ pre, core ∉ q.receivers) → core ∈ p.receivers → p.receivers.Nodup →
     s.place (some p.launch) core p.off = some off → NoWaiters s → (∀ n, (s.core n).copyRun = none) →
     ∃ t, exec (.multicastPieceDrain core) s = .next t ∧ (t.core core).lm.rdBytes off p.data.length = p.data ∧
       SameOutside s t (.lm core off) p.data.length ∧
       (p.receivers = [core] → t.pieces = pre ++ post) ∧
       (p.receivers ≠ [core] → t.pieces = pre ++ { p with receivers := p.receivers.erase core } :: post))

/-! ## Search trees (R195–R216, R344–R352) -/

/-- The formula choice (R202, R208): the edge chosen is one whose score is not NaN, no edge scores higher, and of equal scores
it is the lowest; none is chosen exactly when every score is NaN. TDESC (R208, R349) of an open walk at an expanded node: the
chosen edge's child and {edge, depth} answer; the walk's depth, entry and leaf, and the in-flight counts of the edge and of its
node, are written, and nothing else. Where no edge can be chosen the status says why: no walk 8, a closed one 4, a full one 7, a
node being expanded 1, terminal 3, not expanded 5. -/
def Obligations.DescentsMarkTheirPath : Prop :=
  (∀ (s : State) (l : Loc) (img : List Byte),
     (let score (e : Nat) : FVal := fmlScore img (s.edgeView l e)
      (∀ e, s.bestEdge l img = some e → e < s.ndChildren l ∧ score e ≠ .nan ∧
        (∀ k, k < s.ndChildren l → (score e).lt (score k) = false) ∧
        ∀ k, k < e → score k = .nan ∨ (score k).lt (score e) = true) ∧
      (s.bestEdge l img = none ↔ ∀ k, k < s.ndChildren l → score k = .nan))) ∧
  (∀ (s : State) (d a : Reg) (g : PredIx) (f : BitVec 4) (pr pa ca cr ka kr : Nat) (tr : Bool), SlotOk s → s.guard g = true →
     NoWaiters s → RowsIn s → s.memPoison = [] → Resident s pr 1152 → Resident s pa 4096 →
     (let r := s.src a
      let rc : Loc := .mem pr tr cr kr
      let l : Loc := .mem pa true ca ka
      let answers (child : Word) (st : Nat) : Prop := ∃ t, exec (.tdesc d a g f) s = .next t ∧
        RepliesWith s t [(d.toNat, child), (d.toNat + 1, BitVec.ofNat 64 st)] ∧ SameMemory s t
      (s.cur.ticket = 0 → answers 0 8) ∧
      (s.cur.ticket ≠ 0 → s.recordAt s.cur.ticket.toNat = .ok ⟨rc, rc⟩ → s.nodeLoc r = .ok (some l) →
        (s.walkOpen ⟨rc, rc⟩ = false → answers 0 4) ∧
        (s.walkOpen ⟨rc, rc⟩ = true → s.walkDepth ⟨rc, rc⟩ = 64 → answers 0 7) ∧
        (s.walkOpen ⟨rc, rc⟩ = true → s.walkDepth ⟨rc, rc⟩ ≠ 64 → s.nodeCheck r (some l) = none →
          (s.ndState l = 0 → answers 0 5) ∧ (s.ndState l = 1 → answers 0 1) ∧ (s.ndState l = 3 → answers 0 3) ∧
          (∀ img e, s.ndState l = 2 → pr % 128 = 0 → pa % 128 = 0 → pr % 4096 + 1152 ≤ 4096 →
            (pa + 128 + 32 * s.ndChildren l ≤ pr ∨ pr + 1152 ≤ pa) →
            s.formula (s.asidOf s.cur) (if s.ndFld l 0 44 1 = 1 then s.ndFld l 0 40 4 else f.toNat) = some img →
            s.bestEdge l img = some e →
            (let j := s.walkDepth ⟨rc, rc⟩
             let child := s.rdWord (edgeAt l e 0)
             ∃ t, exec (.tdesc d a g f) s = .next t ∧
               RepliesWith s t [(d.toNat, child), (d.toNat + 1, BitVec.ofNat 64 (e * 2 ^ 8 + (j + 1) * 2 ^ 16))] ∧
               t.walkOpen ⟨rc, rc⟩ = true ∧ t.walkDepth ⟨rc, rc⟩ = j + 1 ∧ t.rdWord (rc.plus 24) = child ∧
               t.rdWord (rc.plus (128 + 16 * j)) = r ∧ t.rdWord (rc.plus (136 + 16 * j)) = BitVec.ofNat 64 e ∧
               t.edFlight l e = min (s.edFlight l e + 1) 0xFFFF ∧ t.ndFtot l = min (s.ndFtot l + 1) 0xFFFF ∧
               t.edVisits l e = s.edVisits l e ∧ t.ndVisits l = s.ndVisits l ∧
               (∀ core off, localByteAt t core off = localByteAt s core off) ∧
               ∀ b, (b < pr + 8 ∨ pr + 32 ≤ b) → (b < pr + 128 + 16 * j ∨ pr + 144 + 16 * j ≤ b) → (b < pa + 16 ∨ pa + 24 ≤ b) →
                 (b < pa + 136 + 32 * e ∨ pa + 144 + 32 * e ≤ b) → byteAt t b = byteAt s b))))))

/-- Expansion (R209–R211, R214, R346, R351): TEXP takes an unexpanded node for the walk; TFILL writes its edges, their in-flight
counts 0, and its counts; TSEAL ends the expansion with the node's new state in its full expansion word; TREC frees a node that
nothing uses, under a new generation. Each answers 0, or the status that says why not. -/
def Obligations.NodesAreExpandedAndRecycled : Prop :=
  ∀ (s : State) (d a b : Reg) (g : PredIx) (pr pa ca cr ka kr : Nat) (tr : Bool), SlotOk s → s.guard g = true → NoWaiters s →
    RowsIn s → s.memPoison = [] → Resident s pr 1152 → Resident s pa 4096 → pr % 128 = 0 → pa % 128 = 0 → (pa + 4096 ≤ pr ∨ pr + 1152 ≤ pa) →
    (let r := s.src a
     let rc : Loc := .mem pr tr cr kr
     let l : Loc := .mem pa true ca ka
     let x := hdrAt l 4
     let answers (i : Instr) (st : Nat) (t : State) : Prop := exec i s = .next t ∧ RepliesWith s t [(d.toNat, BitVec.ofNat 64 st)]
     s.nodeLoc r = .ok (some l) → s.nodeCheck r (some l) = none →
     (s.cur.ticket ≠ 0 → s.recordAt s.cur.ticket.toNat = .ok ⟨rc, rc⟩ →
       (let idle := s.walkOpen ⟨rc, rc⟩ = true ∧ s.rdWord (rc.plus 16) = 0
        (s.walkOpen ⟨rc, rc⟩ = false → ∃ t, answers (.texp d a g) 4 t ∧ SameMemory s t) ∧
        (s.walkOpen ⟨rc, rc⟩ = true → s.rdWord (rc.plus 16) ≠ 0 → ∃ t, answers (.texp d a g) 6 t ∧ SameMemory s t) ∧
        (idle → s.ndState l = 1 → ∃ t, answers (.texp d a g) 1 t ∧ SameMemory s t) ∧
        (idle → s.ndState l = 2 → ∃ t, answers (.texp d a g) 2 t ∧ SameMemory s t) ∧
        (idle → s.ndState l = 3 → ∃ t, answers (.texp d a g) 3 t ∧ SameMemory s t) ∧
        (idle → s.ndState l = 0 → ∃ t, answers (.texp d a g) 0 t ∧ t.ndState l = 1 ∧ t.rdWord x = s.cur.ticket ∧ t.full x = false ∧
          t.rdWord (rc.plus 16) = r)) ∧
       (s.expandedBy l s.cur.ticket = false → StoresIn s → (∃ t, answers (.tfill d a b g) 6 t ∧ SameMemory s t) ∧
         ∃ t, answers (.tseal d a g) 6 t ∧ SameMemory s t) ∧
       (∀ off n, s.expandedBy l s.cur.ticket = true → s.here.lmPoison = [] → uns s b % 32 = 0 → 0x9000 ≤ uns s b →
         uns s b + 32 + 32 * n ≤ s.lmend s.curCore s.cur → uns s b + 32 + 32 * n ≤ 0x80000 → off % 8 = 0 →
         s.place s.cur.launch s.curCore (uns s b) = some off → n ≤ 124 → pa % 4096 + 128 + 32 * n ≤ 4096 →
         fld (s.rdWord (.lm s.curCore off)) 0 7 = n →
         ∃ t, answers (.tfill d a b g) 0 t ∧ t.ndChildren l = n ∧
           t.ndFld l 5 0 32 = fld (s.rdWord (.lm s.curCore (off + 8))) 0 32 ∧
           ∀ e, e < n → t.mem.rdBytes (pa + 128 + 32 * e) 32 = (s.here.lm.rdBytes (off + 32 + 32 * e) 12) ++ [0, 0] ++
             (s.here.lm.rdBytes (off + 46 + 32 * e) 14) ++ [0, 0, 0, 0]) ∧
       (s.expandedBy l s.cur.ticket = true → StoresIn s →
         (let st := if s.ndChildren l = 0 then 3 else 2
          ∃ t, answers (.tseal d a g) 0 t ∧ t.ndState l = st ∧ t.rdWord x = BitVec.ofNat 64 st ∧ t.full x = true ∧
            t.rdWord (rc.plus 16) = 0))) ∧
     (let used := s.ndState l = 1 ∨ s.ndPin l = true ∨ 0 < s.ndFtot l ∨ ∃ e, e < s.ndChildren l ∧ 0 < s.edFlight l e
      (used → ∃ t, answers (.trec d a g) 6 t ∧ SameMemory s t) ∧
      (¬ used → ∃ t, answers (.trec d a g) 0 t ∧ t.ndState l = 4 ∧ t.ndGen l = (s.ndGen l + 1) % 2 ^ 15 ∧ t.rdWord x = 0 ∧
        t.full x = false)))

/-- TBACK, TABORT and TFORM (R204, R212, R213, R345, R347, R352): TBACK closes an open walk and leaves a back-up of its leaf and
its entries from the deepest on; TABORT closes it and leaves an unwinding; a closed walk is left as it is. TFORM puts a legal
image into its formula slot, and traps ENG at the lowest bad byte of another. TBACK_LEVEL and TABORT_UNWIND (R212, R213): a
level of a back-up adds a visit and the value, negated at odd levels of an alternating one, to edge and node and takes the marks
off; a level of an unwinding takes the marks off only; after the last level the ticket word is filled with the completion word,
and a node that an aborted walk was expanding is unexpanded again. -/
def Obligations.WalksCloseLevelByLevel : Prop :=
  ((∀ (s : State) (d a b : Reg) (c : CapIx) (g : PredIx) (alt : BitVec 1) (pr cr kr dva : Nat) (tr : Bool), SlotOk s →
     s.guard g = true → StoresIn s → s.memPoison = [] → Resident s pr 1152 → pr % 128 = 0 → pr % 4096 + 1152 ≤ 4096 →
     (let rc : Loc := .mem pr tr cr kr
      let w : WalkRec := ⟨rc, rc⟩
      let depth := s.walkDepth w
      let entry (j : Nat) : Word × Option Nat := (s.rdWord (rc.plus (128 + 16 * j)), some (fld (s.rdWord (rc.plus (136 + 16 * j))) 0 8))
      let path := ((List.range depth).reverse.map entry)
      let closes (t : State) : Prop := t.walkOpen w = false ∧ t.walkDepth w = depth ∧
        t.cur.ticket = (if s.cur.ticket.toNat = dva then 0 else s.cur.ticket)
      s.closingRecord a c = .ok (w, dva) →
      (s.walkOpen w = true → ∃ t, exec (.tback a b c g alt) s = .next t ∧ t.cur.st = .reply ∧ closes t ∧
        t.jobs = s.jobs ++ [⟨false, w, BitVec.ofNat 64 dva, s.asidOf s.cur, s.curCore, s.curSlot, alt == 1,
          (fp32.value (uns s b % 2 ^ 32)).toQ32, (if s.rdWord (rc.plus 24) = 0 then [] else [(s.rdWord (rc.plus 24), none)]) ++ path,
          0, 0, 0, false, false, s.cc, false, false⟩]) ∧
      (s.walkOpen w = false → (∃ t, exec (.tback a b c g alt) s = .next t ∧ t.jobs = s.jobs ∧ t.cur.st = .reply ∧ SameMemory s t) ∧
        ∃ t, exec (.tabort d a c g) s = .next t ∧ t.jobs = s.jobs ∧ t.cur.reply = some ⟨.now, [(d.toNat, 4)], false⟩ ∧
          SameMemory s t) ∧
      (s.walkOpen w = true → ∃ t, exec (.tabort d a c g) s = .next t ∧ t.cur.reply = some ⟨.now, [(d.toNat, 0)], false⟩ ∧ closes t ∧
        t.jobs = s.jobs ++ [⟨true, w, BitVec.ofNat 64 dva, s.asidOf s.cur, s.curCore, s.curSlot, false, 0, path, 0, 0, 9, false, false,
          s.cc, false, false⟩]))) ∧
   ∀ (s : State) (a : Reg) (c : CapIx) (g : PredIx) (f : BitVec 4) (dva pa cl key : Nat) (tr : Bool), SlotOk s → s.guard g = true →
     StoresIn s → s.memPoison = [] → Resident s pa 96 → s.capDva c (s.src a) 96 true false = .ok dva → isWindow dva = false →
     (dva % 8 ≠ 0 → exec (.tform a c g f) s = .next (s.stop (.trap clsAln dva))) ∧
     (dva % 8 = 0 → s.wordLocs ((List.range 12).map fun i => dva + 8 * i) =
         .ok ((List.range 12).map fun i => .mem (pa + 8 * i) tr cl key) →
       (let img := s.mem.rdBytes pa 96
        (firstBad (fmlBad img) = none → ∃ t, exec (.tform a c g f) s = .next t ∧ RepliesWith s t [] ∧ SameMemory s t ∧
          t.formula (s.asidOf s.cur) f.toNat = some img) ∧
        (∀ n, firstBad (fmlBad img) = some n → exec (.tform a c g f) s = .next (s.stop (.trap clsEng n)))))) ∧
  (∀ (s : State) (j : TreeJob), s.jobs = [j] → j.waits = false → NoWaiters s → s.memPoison = [] →
     (∀ (r : Word) (e : Nat) (rest : List (Word × Option Nat)) (pa ca ka : Nat), j.levels = (r, some e) :: rest →
       pa % 128 = 0 → Resident s pa 4096 → isWindow (refDva r) = false →
       (let l : Loc := .mem pa true ca ka
        let x : Int := if j.alt = true ∧ j.index % 2 = 1 then sat64 (-j.value) else j.value
        s.xlateOr j.core j.asid (refDva r) true true = some (s, .ok l) → s.nodeCheck r (some l) = none → e < s.ndChildren l →
        0 < s.edFlight l e → 0 < s.ndFtot l →
        (j.abort = false → ∃ t, exec (.tbackLevel 0) s = .next t ∧
          t.edVisits l e = min (s.edVisits l e + 1) (2 ^ 32 - 1) ∧ t.ndVisits l = min (s.ndVisits l + 1) (2 ^ 32 - 1) ∧
          t.edValue l e = sat64 (s.edValue l e + x) ∧ (t.rdWord (hdrAt l 3)).toInt = sat64 ((s.rdWord (hdrAt l 3)).toInt + x) ∧
          t.edFlight l e = s.edFlight l e - 1 ∧ t.ndFtot l = s.ndFtot l - 1 ∧
          t.jobs = [{ j with levels := rest, index := j.index + 1, done := j.done + 1 }]) ∧
        (j.abort = true → ∃ t, exec (.tabortUnwind 0) s = .next t ∧
          t.edVisits l e = s.edVisits l e ∧ t.ndVisits l = s.ndVisits l ∧ t.edValue l e = s.edValue l e ∧
          t.edFlight l e = s.edFlight l e - 1 ∧ t.ndFtot l = s.ndFtot l - 1 ∧
          t.jobs = [{ j with levels := rest, index := j.index + 1, done := 0 }]))) ∧
     (∀ (pr cr kr : Nat) (tr : Bool), j.levels = [] → pr % 128 = 0 → j.record = ⟨.mem pr tr cr kr, .mem pr tr cr kr⟩ →
       (let rc : Loc := .mem pr tr cr kr
        let filled (t : State) : Prop := t.jobs = [] ∧ t.rdWord rc = BitVec.ofNat 64 (j.st + j.done * 2 ^ 8 +
          (if j.sat = true then 2 ^ 15 else 0) + if j.skip = true then 2 ^ 16 else 0) ∧ t.full rc = true
        (j.abort = false → ∃ t, exec (.tbackLevel 0) s = .next t ∧ filled t) ∧
        (j.abort = true → Resident s pr 1152 → s.rdWord (rc.plus 16) = 0 → ∃ t, exec (.tabortUnwind 0) s = .next t ∧ filled t) ∧
        (∀ pa ca ka, j.abort = true → Resident s pr 1152 → Resident s pa 4096 →
          (let r := s.rdWord (rc.plus 16)
           let l : Loc := .mem pa true ca ka
           let u : State := s.recallFor j.core j.asid rc
           r ≠ 0 → isWindow (refDva r) = false → u.xlateOr j.core j.asid (refDva r) true true = some (u, .ok l) →
           s.nodeCheck r (some l) = none → s.expandedBy l j.ticket = true → pa % 128 = 0 → (pa + 4096 ≤ pr ∨ pr + 1152 ≤ pa) →
           ∃ t, exec (.tabortUnwind 0) s = .next t ∧ filled t ∧ t.ndState l = 0 ∧ t.ndChildren l = 0 ∧
             t.rdWord (hdrAt l 4) = 9 ∧ t.full (hdrAt l 4) = true)))))

/-! ## Landing zones (R220–R230, R315–R317) -/

/-- The landing-zone instructions on a zone of the slot's own core: LZCFG makes a zone of FREE slots, or removes one; LZRES reserves
the lowest FREE slot and gives its token, or answers NONE, or waits; LZEXP posts what is expected, LZWAIT goes on when all has come,
LZFREE frees the slot under a new generation, LZSTAT reads it; a token whose slot is free or reserved anew is STALE, one of no zone
BADZONE. ARRIVAL_UNIT (R222, R227, R228): a unit of a sound token is written into its slot's bytes and counted; the slot is COMPLETE
when all that was posted has come; a unit for a slot that is free or reserved anew is dropped and counted. That LZFREE keeps PEND
and POSTED of the slot it frees, which LZSTAT then reads, is the model's choice (log 47). -/
def Obligations.ZonesReceiveUnits : Prop :=
  (∀ (s : State) (d a b : Reg) (g : PredIx) (z : BitVec 2), SlotOk s → s.guard g = true → s.here.lzWait = [] →
     (let v := uns s a
      let id := s.cur.launch.getD 0
      let done (i : Instr) (st : Word) (t : State) : Prop := exec i s = .next t ∧ (d ≠ 0 → t.cur.reg d = st)
      let slotOf (t : State) (z k : Nat) : Option LzSlot := (t.here.zone z).bind fun x => x.slots[k]?
      (let log := v / 2 ^ 28 % 8 + 10
       let count := v / 2 ^ 24 % 16 + 1
       let base := v % 2 ^ 19
       let i := v / 2 ^ 32 % 4
       (v / 2 ^ 40 ≠ 0 ∨ v / 2 ^ 19 % 2 ^ 5 ≠ 0 → exec (.lzcfg d a g) s = .next (s.stop (.trap clsLz 2))) ∧
       (v / 2 ^ 40 = 0 → v / 2 ^ 19 % 2 ^ 5 = 0 → v / 2 ^ 31 % 2 = 1 → (∀ j, j < 4 → s.here.zone j = none) →
         (¬ (log ≤ 16 ∧ count * 2 ^ log ≤ 262144 ∧ base % 2 ^ log = 0 ∧ 0x9000 ≤ base ∧
             base + count * 2 ^ log ≤ s.lmend s.curCore s.cur) → exec (.lzcfg d a g) s = .next (s.stop (.trap clsLz 2))) ∧
         (log ≤ 16 → count * 2 ^ log ≤ 262144 → base % 2 ^ log = 0 → 0x9000 ≤ base →
           base + count * 2 ^ log ≤ s.lmend s.curCore s.cur → StoresIn s →
           ∃ t, done (.lzcfg d a g) 0 t ∧ t.here.zone i = some ⟨id, base, log, v / 2 ^ 34 % 64, List.replicate count ⟨.free, 0, false, none⟩⟩)) ∧
       (∀ x, v / 2 ^ 40 = 0 → v / 2 ^ 19 % 2 ^ 5 = 0 → v / 2 ^ 31 % 2 = 0 → s.here.zone i = some x → x.launch = id →
         ((∀ k ∈ x.slots, k.st = .free) → ∃ t, done (.lzcfg d a g) 0 t ∧ t.here.zone i = none) ∧
         ((∃ k ∈ x.slots, k.st ≠ .free) → ∃ t, done (.lzcfg d a g) 5 t ∧ t.here.zone i = some x))) ∧
      (v / 2 ^ 48 % 256 = 0xFE → v % 2 ^ 30 = 0 → winDev (v % 2 ^ 56) = s.device → winCore (v % 2 ^ 56) = s.curCore →
        (s.here.zone z.toNat = none → ∃ t, done (.lzres d a g 0 z) 5 t) ∧
        (∀ x, s.here.zone z.toNat = some x → x.launch = id →
          (∀ k, x.slots.findIdx? (fun y => y.st == .free) = some k →
            (let gen := (s.here.slotGen z.toNat k).toNat
             let token : Word := BitVec.ofNat 64 (s.device * 2 ^ 56 + s.curCore * 2 ^ 46 + z.toNat * 2 ^ 44 + k * 2 ^ 40 + gen * 2 ^ 24)
             (∃ t, done (.lzres d a g 0 z) token t ∧ slotOf t z.toNat k = some ⟨.reserved, 0, false, none⟩) ∧
             ∃ t, done (.lzres d a g 1 z) token t ∧ slotOf t z.toNat k = some ⟨.reserved, 0, false, none⟩)) ∧
          (x.slots.findIdx? (fun y => y.st == .free) = none → (∃ t, done (.lzres d a g 0 z) 1 t ∧ t.here.zone z.toNat = some x) ∧
            (s.curSlot ≠ 14 → s.cur.packet = none → ∃ t, exec (.lzres d a g 1 z) s = .next t ∧ t.cur.st = .parked ∧
              t.here.lzWait = [⟨.slot s.curCore s.curSlot, z.toNat, none, d⟩])))) ∧
      (let w := s.src a
       v % 2 ^ 24 = 0 → tokenDev w = s.device → tokenCore w = s.curCore →
       (let zn := tokenZone w
        let k := tokenSlot w
        let n := uns s b
        let four (st : Word) : Prop := (∃ t, done (.lzexp d a b g) st t) ∧ (∃ t, done (.lzwait d a g) st t) ∧ ∃ t, done (.lzfree d a g) st t
        (s.here.zone zn = none → four 5) ∧
        (∀ x, slotOf s zn k = some x → x.st = .free ∨ tokenGen w ≠ s.here.slotGen zn k → four 4) ∧
        (∀ x, slotOf s zn k = some x → x.st ≠ .free → tokenGen w = s.here.slotGen zn k →
          (x.st = .failed → (∃ t, done (.lzexp d a b g) 3 t) ∧ ∃ t, done (.lzwait d a g) 3 t) ∧
          (x.st ≠ .failed → x.pend + n ≤ 1048575 → ∃ t, done (.lzexp d a b g) 0 t ∧ slotOf t zn k =
            some { x with st := if x.pend + n = 0 then .complete else .arriving, pend := x.pend + n, posted := true }) ∧
          (x.st ≠ .failed → 1048575 < x.pend + n → ∃ t, done (.lzexp d a b g) 2 t ∧ slotOf t zn k = some x) ∧
          (x.st = .complete → ∃ t, done (.lzwait d a g) 0 t ∧ ∀ l ∈ t.here.l1, l.2.ro = true) ∧
          (x.st = .reserved ∨ x.st = .arriving → s.curSlot ≠ 14 → s.cur.packet = none →
            ∃ t, exec (.lzwait d a g) s = .next t ∧ t.cur.st = .parked ∧
              t.here.lzWait = [⟨.slot s.curCore s.curSlot, zn, some k, d⟩]) ∧
          (∃ t, done (.lzfree d a g) 0 t ∧ slotOf t zn k = some { x with st := .free } ∧
            t.here.slotGen zn k = s.here.slotGen zn k + 1)) ∧
        (∀ y x, s.here.zone zn = some y → y.launch = id → y.slots[k]? = some x → ∃ t, done (.lzstat d a g)
          (BitVec.ofNat 64 (min s.here.lzdrop.toNat 0x7FFFFF * 2 ^ 41 + (if x.posted = true then 2 ^ 40 else 0) +
            (BitVec.ofInt 21 x.pend).toNat * 2 ^ 19 + (s.here.slotGen zn k).toNat * 2 ^ 3 +
            (if x.st = .free then 0 else if x.st = .reserved then 1 else if x.st = .arriving then 2 else if x.st = .complete then 3 else 4)))
          t))))) ∧
  (∀ (s : State) (u : LzUnit) (y : Zone) (x : LzSlot), s.units = [u] → u.data.length = 64 → NoWaiters s →
     (let core := tokenCore u.token
      let z := tokenZone u.token
      let k := tokenSlot u.token
      (s.core core).lzWait = [] → (s.core core).zone z = some y → y.slots[k]? = some x → u.offset + 64 ≤ 2 ^ y.log →
      (∀ off, x.st ≠ .free → x.st ≠ .failed → tokenGen u.token = (s.core core).slotGen z k → x.pend ≠ -1048576 →
        s.place (some y.launch) core (y.base + k * 2 ^ y.log + u.offset) = some off →
        ∃ t, exec (.arrivalUnit 0) s = .next t ∧ t.units = [] ∧ (t.core core).lm.rdBytes off 64 = u.data ∧
          SameOutside s t (.lm core off) 64 ∧ (((t.core core).zone z).bind fun v => v.slots[k]?) = some { x with
            st := if x.posted = true ∧ x.pend = 1 then .complete else .arriving, pend := x.pend - 1 } ∧
          ∀ c r, u.sender = some c → u.link = none → (s.core (c % 1024)).copyRun = some r →
            (t.core (c % 1024)).copyRun.any (fun q => q.units == r.units.filter fun v => v.1 != u.num) = true) ∧
      (x.st = .free ∨ tokenGen u.token ≠ (s.core core).slotGen z k → (s.core core).lzdrop ≠ 0xFFFFFFFF →
        ∃ t, exec (.arrivalUnit 0) s = .next t ∧ t.units = [] ∧ SameMemory s t ∧
          (t.core core).lzdrop = (s.core core).lzdrop + 1 ∧ (t.core core).zone z = some y)))

/-! ## Checked pairing (R188–R191, R282) -/

/-- COUPLE waits for its partner; UNCOUPLE lets both strands run on alone. INTERVAL_END: fingerprints that agree release the
buffered stores and start a fresh interval; the first that differ take both halves back to their checkpoints; the second kill both.
R190 gives the rollback the registers and the pc; that it restores the status word too is the model's choice (log 39). -/
def Obligations.IntervalsAreComparedOrRolledBack : Prop :=
  (∀ (s : State) (g : PredIx), SlotOk s → s.guard g = true →
    (s.cur.coupled = false → s.here.vlen s.curSlot = 0 → s.pairedOdd s.curCore s.curSlot = false → s.curSlot < 14 →
      ∃ t, exec (.couple g) s = .next t ∧ t.cur.st = .reply ∧ t.cur.reply = some ⟨.partner, [], false⟩ ∧ SameStrand s t ∧
        SameMemory s t) ∧
    (s.cur.coupled = true → ∃ t, exec (.uncouple g) s = .next t ∧ SameStrand s t ∧ SameMemory s t ∧
      (t.slot (s.curCore / 2 * 2) s.curSlot).coupled = false ∧ (t.slot (s.curCore / 2 * 2 + 1) s.curSlot).coupled = false)) ∧
  ∀ (s : State) (lead slot : Nat) (c : Couple), lead % 2 = 0 → slot < 14 → s.couples = [c] → c.leader = lead → c.slot = slot →
    c.lead.atEnd = true → c.chk.atEnd = true → c.out = false → c.missed = false →
    (∀ core, core = lead ∨ core = lead + 1 → (s.slot core slot).coupled = true ∧ (s.slot core slot).wlog = [] ∧
      (s.slot core slot).st = .reply ∧ (s.slot core slot).reply = some ⟨.interval, [], true⟩) →
    (let halves (p : Nat → Half2 → Slot → Prop) : Prop := ∃ t, exec (.intervalEnd lead slot) s = .next t ∧
       p lead c.lead (t.slot lead slot) ∧ p (lead + 1) c.chk (t.slot (lead + 1) slot)
     (c.lead.crc = c.chk.crc → (∀ v ∈ c.lead.buf, ∃ pa tr cl key, v.loc = .mem pa tr cl key) →
       halves (fun core _ x => x.st = .ready ∧ x.s = (s.slot core slot).s ∧ x.pc = (s.slot core slot).pc) ∧
       ∃ t, exec (.intervalEnd lead slot) s = .next t ∧
         (t.core lead).path = (s.core lead).path ++ c.lead.buf.map (fun v =>
           ⟨slot, v.loc, v.bytes, false, false, v.at', v.sage, none, none⟩) ∧
         t.couples.all (fun d => d.lead.buf == [] && d.lead.crc == 0 && d.chk.crc == 0 && !d.lead.atEnd && !d.chk.atEnd) = true) ∧
     (c.lead.crc ≠ c.chk.crc → c.again = false →
       halves (fun _ h x => x.st = .ready ∧ x.s = h.check.s ∧ x.p = h.check.p ∧ x.c = h.check.c ∧ x.pc = h.check.pc ∧
         x.status = h.check.status) ∧
       ∃ t, exec (.intervalEnd lead slot) s = .next t ∧ t.rollbacks = s.rollbacks + 1 ∧ SameMemory s t) ∧
     (c.lead.crc ≠ c.chk.crc → c.again = true → halves (fun _ _ x => x.st = .killed)))

/-! ## Pre-emption, walks, turns (R75–R77, R103–R105, R181–R185) -/

/-- PRE_EMPTION and RESUMPTION (R182, R183, R185): a strand with a request at a pair boundary is SAVED; resumed from its save area it has
the registers, predicates, capabilities, pc, trap registers, ticket, join word and results that it had. Requests and timers (R181, R187):
a request against a strand is raised once, dropped for slot 14; a timer that stands at 1 expires and raises one; a request held 65,536 cc
by an open packet traps PKT 6, whose record's PAIR and SLOTK 0 are the model's choice (log 50); ramdb's ECC injection poisons the next
group; a killed slot is released. TRANSLATION_WALK and ISSUE_TURN: a walk that ends in a leaf with the rights installs its entry in the
port and its pair issues again; one that fails keeps its cause for the pair, and a walk waits while its tenant's port can hold no further
fault record (R103–R105). The owner of the entry of the cc issues if it may (R75, R76). -/
def Obligations.PreemptionRequestsWalksAndTurns : Prop :=
  (∀ (s : State) (core slot : Nat), slot < 16 → s.preemptDue core slot = true →
     (let x := s.slot core slot
      x.gang = false → x.coupled = false → x.groups = [] → x.svGroups = [] → x.join < 2 ^ 64 → x.matRes.length ≤ 4 →
      x.copyRes.length ≤ 4 → x.p.getLsbD 0 = true → statusStored x.status = x.status → (∀ c ∈ x.c, capStored c = c) →
      ∃ t u, exec (.preEmption core slot) s = .next t ∧ (t.slot core slot).st = .saved ∧ (t.slot core slot).groups = [] ∧
        exec (.resumption core slot) t = .next u ∧
        (let y := u.slot core slot
         y.st = .ready ∧ y.s = x.s ∧ y.p = x.p ∧ y.c = x.c ∧ y.pc = x.pc ∧ y.status = x.status ∧ y.trapvec = x.trapvec ∧
         y.traprec = x.traprec ∧ y.ticket = x.ticket ∧ y.join = x.join ∧ y.ret = x.ret ∧ y.retpos = x.retpos ∧
         y.strand = x.strand ∧ y.group = x.group ∧ y.ival = x.ival ∧ y.adone = x.adone ∧ y.stealdom = x.stealdom ∧
         y.dtnan = x.dtnan ∧ y.timer = x.timer ∧ y.matRes = x.matRes ∧ y.copyRes = x.copyRes ∧
         y.fromCc = (s.cc / 16 + 1) * 16 ∧ ∀ pa, byteAt u pa = byteAt s pa))) ∧
  (∀ (s : State) (core slot : Nat), slot < 16 →
     (let x := s.slot core slot
      let asks (i : Instr) : Prop := exec i s = .next (s.modSlot core slot fun y => { y with preReq := y.preReq <|> some s.cc })
      let live := x.st = .ready ∨ x.st = .reply ∨ x.st = .parked ∨ x.st = .faulted
      (slot ≠ 14 → live → asks (.supervisorPreempt core slot) ∧ asks (.injectPreempt core slot)) ∧
      (slot = 14 → exec (.supervisorPreempt core slot) s = .next s ∧ exec (.injectPreempt core slot) s = .next s) ∧
      (slot ≠ 14 → x.st = .ready ∨ x.st = .reply ∨ x.st = .parked → x.timer = 1 →
        ∃ t, exec (.preemptTimerExpiry core slot) s = .next t ∧ (t.slot core slot).timer = 0 ∧
          (t.slot core slot).preReq = (x.preReq <|> some s.cc) ∧ SameMemory s t) ∧
      (∀ since, x.st = .ready → x.since = none → x.coupled = false → x.packet.isSome = true → x.preReq = some since → since + 65536 ≤ s.cc →
        s.trapWaits core slot = false → exec (.pktHoldTimeout core slot) s = .next (s.takeTrap core slot clsPkt 6 x.pc 0 x.adone false)) ∧
      (live → ∃ t, exec (.injectEcc core slot) s = .next t ∧ (t.slot core slot).poisoned = true ∧ SameMemory s t) ∧
      (x.st = .killed → ∃ t, exec (.releaseKilledSlot core slot) s = .next t ∧ (t.slot core slot).st = .free ∧ SameMemory s t ∧
        ∀ c k, k < 16 → (c, k) ≠ (core, slot) → t.slot c k = s.slot c k) ∧
      (∀ n a, exec (.setBreakpoint n (some a) none) s =
        .next { s with breakpoints := (s.breakpoints.filter fun b => b.n != n) ++ [⟨n, a.toNat, none⟩] }) ∧
      ∀ n, exec (.setBreakpoint n none none) s = .next { s with breakpoints := s.breakpoints.filter fun b => b.n != n })) ∧
  ((∀ (s u : State) (core slot : Nat) (w : Walk), slot < 16 → (s.slot core slot).walk = some w → (s.slot core slot).st = .reply →
     (s.slot core slot).seqReply = false →
     (s.faultWaits core w.asid = true → exec (.translationWalk core slot) s = .next s) ∧
     (∀ e, s.faultWaits core w.asid = false → s.walk core w.asid w.dva = (u, .leaf e) → leafCause e.pte w.kind.reads w.kind.writes = none → w.install = true →
       ∃ t, exec (.translationWalk core slot) s = .next t ∧ (t.slot core slot).st = .ready ∧ (t.slot core slot).walk = none ∧
         (t.cluster (core / 8)).tlb.head? = some e ∧ SameMemory s t) ∧
     (∀ cause, s.walk core w.asid w.dva = (u, .fail cause) → s.faultWaits core w.asid = false → ∃ t, exec (.translationWalk core slot) s = .next t ∧
       (t.slot core slot).st = .ready ∧ (t.slot core slot).walk = some { w with failed := some cause } ∧ SameMemory s t)) ∧
   ∀ (s : State) (core slot : Nat), slot < 15 → (s.core core).owner (s.cc % 16) = some slot → s.holdDue core slot = false →
     s.preemptDue core slot = false → s.mayIssue core slot = true → (s.slot core slot).st ≠ .ganged →
     exec (.issueTurn core) s = .next { s with curCore := core, curSlot := slot, issuing := true })

/-! ## Queues and launches (R93, R98, R237–R245, R251, R263) -/

/-- Queues (R237, R238, R251): a descriptor that enables a queue starts it from count 0; a write to a fill aperture writes and fills
the tail word of a queue of its function, and is discarded and counted otherwise; a filled tail word is taken, left empty, and its
count kept; the packets up to the count then enter the queue in order, the head word following each; a count that passes the ring
disables the queue. LAUNCH_PLACEMENT (R239–R242, R244): the head packet of a queue that the arbiter lets go leaves the queue once
its batch snapshot is taken; a refused one has its cause written and its completion word filled; one that fits starts its strands in
FREE slots at its entry, on a zeroed partition, under a new launch. The model's choices: the count is the low 32 bits of the tail
word, a queue enabled anew starts from HEAD 0, and one packet is read a turn (log 42); functions are numbered 1–510, and 0 and 511
are the PFs (log 13); a command for a queue or function that is not there changes nothing (log 14). -/
def Obligations.QueuesFeedTheLaunchUnit : Prop :=
  ((∀ (s : State) (q : Nat) (desc : BitVec 512), 16384 ≤ q → exec (.writeQueueDescriptor q desc) s = .next s) ∧
   (∀ (s : State) (q : Nat) (desc : BitVec 512), q < 16384 → ∃ t, exec (.writeQueueDescriptor q desc) s = .next t ∧
     (t.queue q).vf = (s.queue q).vf ∧ (∀ k, k ≠ q → t.queue k = s.queue k) ∧
     (desc.getLsbD 99 = true → (t.queue q).desc = desc ∧
       ((s.queue q).on = false → (t.queue q).head = 0 ∧ (t.queue q).upTo = 0 ∧ (t.queue q).packets = []) ∧
       ((s.queue q).on = true → t.queue q = { s.queue q with desc := desc })) ∧
     (desc.getLsbD 99 = false → (t.queue q).on = false ∧ (t.queue q).packets = [])) ∧
   (∀ (s : State) (q vf : Nat), (vf ≤ 510 → q < 16384 → ∃ t, exec (.bindQueueToVf q vf) s = .next t ∧
       t.queue q = { s.queue q with vf := vf } ∧ ∀ k, k ≠ q → t.queue k = s.queue k) ∧
     (510 < vf ∨ 16384 ≤ q → exec (.bindQueueToVf q vf) s = .next s)) ∧
   (∀ (s u : State) (q vf o : Nat) (data : Word) (l : Loc), s.boot = .ready → NoWaiters s →
     (q < 16384 → vf ≤ 511 → vf = 0 ∨ vf = 511 ∨ (s.queue q).vf = vf → s.xlateUnit (s.queue q).asid (s.queue q).tail false true = (u, some l) → OnHome l →
       ∃ t, exec (.fillApertureWrite vf (8 * q) data) s = .next t ∧ t.rdLoc l 8 = bytesOfNat 8 data.toNat ∧ t.full l = true ∧
         SameOutside s t l 8) ∧
     (511 < vf ∨ vf ≠ 0 ∧ vf ≠ 511 ∧ (s.queue q).vf ≠ vf → exec (.fillApertureWrite vf (8 * q) data) s = .next { s with discarded := s.discarded + 1 }) ∧
     (o % 8 ≠ 0 ∨ 131072 ≤ o → exec (.fillApertureWrite vf o data) s = .next { s with discarded := s.discarded + 1 })) ∧
   (∀ (s u : State) (q : Nat) (l : Loc), NoWaiters s → (s.queue q).on = true → OnHome l → (s.queue q).head = (s.queue q).upTo →
     s.xlateUnit (s.queue q).asid (s.queue q).tail true true = (u, some l) →
     (let v := s.queue q
      let w := u.touch l true 0 [] (u.pasidFor v.asid)
      let count : BitVec 32 := (w.rdWord l).extractLsb' 0 32
      (w.full l = false → exec (.queueTailTake q) s = .next w) ∧
      (w.full l = true → ∃ t, exec (.queueTailTake q) s = .next t ∧ t.full l = false ∧
        (2 ^ v.logSize < (count - v.head).toNat → (t.queue q).on = false) ∧
        ((count - v.head).toNat ≤ 2 ^ v.logSize → t.queue q = { v with upTo := count })))) ∧
   (∀ (s w : State) (q : Nat) (p : Option (BitVec 512)), (s.queue q).on = true → (s.queue q).head ≠ (s.queue q).upTo →
     (let v := s.queue q
      let v' := { v with head := v.head + 1, packets := v.packets ++ p.toList.map fun b => (v.head.toNat, b) }
      s.unitBlock v.asid (v.ring + 64 * (v.head.toNat % 2 ^ v.logSize)) = (w, p) →
      ∃ t, exec (.queueTailTake q) s = .next t ∧ t.queue q = v' ∧
        ∀ u l, (w.setQueue q v').xlateUnit v.asid (v.tail + 8) false true = (u, some l) → OnHome l → v.tail % 8 = 0 →
          t.rdWord l = BitVec.ofNat 64 (v.head + 1).toNat ∧ SameOutside s t l 8)) ∧
   ∀ (s : State) (q : Nat), (s.queue q).on = false → exec (.queueTailTake q) s = .next s) ∧
  (∀ (s u : State) (q count : Nat) (b : BitVec 512), s.arbiterLets q = true → NoWaiters s →
     (s.queue q).packets.head? = some (count, b) →
     (let v := s.queue q
      let p := Pkt.of b
      (∀ cause w l, s.headPlan q = (u, some (.error cause)) →
        ((u.takeHead q).dropImage q count).xlateUnit v.asid p.donew false true = (w, some l) → OnHome l →
        ∃ t, exec (.launchPlacement q) s = .next t ∧ (t.queue q).packets = v.packets.tail ∧
          t.rdWord l = BitVec.ofNat 64 (1 + cause * 2 ^ 8) ∧ t.full l = true ∧ t.launches = s.launches) ∧
      (∀ x seats, s.headPlan q = (u, some (.ok (x, seats))) → v.snapped = false →
        exec (.launchPlacement q) s = .next (u.snapStep q (v.snapRun.getD ⟨0, none, none⟩))) ∧
      (∀ seat : Seat, s.headPlan q = (u, some (.ok (0, [seat]))) → p.fmt = 0 → 1 ≤ p.strands → 0x9000 ≤ seat.pbase →
        seat.pbase % 4096 = 0 → seat.lmsize % 4096 = 0 → Sparse.get [] s.images (imageKey q count) = [] → v.snapped = true →
        (∀ l ∈ s.launches, l.id ≠ s.nextLaunch) → (∀ k, k < 14 → (s.slot seat.core k).coupled = false) →
        (∃ k, k < 14 ∧ (s.slot seat.core k).st = .free) →
        ∃ t k, exec (.launchPlacement q) s = .next t ∧ (t.queue q).packets = v.packets.tail ∧ k < 14 ∧
          (s.slot seat.core k).st = .free ∧
          ((t.slot seat.core k).st = .killed ∨ (t.slot seat.core k).st = .ready ∧ (t.slot seat.core k).pc = p.entry ∧
            (t.slot seat.core k).launch = some s.nextLaunch ∧ (t.slot seat.core k).dqcap = p.dqcap % 128 ∧
            (t.slot seat.core k).trapvec = 0 ∧ (t.slot seat.core k).dtnan = 0xFF) ∧
          (t.launchById s.nextLaunch).any (fun l => l.entry == p.entry && l.queue == q && l.seats.map (·.core) == [seat.core]) = true ∧
          ∀ o, o < seat.lmsize → localByteAt t seat.core (seat.pbase + o) = 0)))

/-- The end of a launch (R93, R263): the second of two sweeps that find every core idle and as many packets and records received as
sent ends it with status 0; an abort kills its strands without a record of a kill in the notices, frees their slots, and writes
status 2 once its accepted copies have run and the stores accepted for its partitions are performed; a function-level reset disables
the function's queues and aborts its launches. The model's choices: virtual functions are numbered 1–510, 0 and 511 being the physical ones
(log 13), and a reset of another number changes nothing (log 14). -/
def Obligations.LaunchesEndOrAreAborted : Prop :=
  (∀ (s : State) (l : Launch), s.launches = [l] →
    (∀ n, s.sweepOf l = some n → l.lost = false ∧ l.closing = false ∧ (l.seats.map (·.sent)).sum = n ∧
      (l.seats.map (·.recv)).sum = n ∧ ∀ t ∈ l.seats, s.idle t.core l.id = true) ∧
    (l.closing = false → s.sweepOf l = none ∨ s.sweepOf l ≠ l.sweep →
      exec .equinoxSweep s = .next { s with launches := [{ l with sweep := s.sweepOf l }] }) ∧
    (l.closing = true → l.seats.any (fun t => s.copiesOn t.core l.id || s.storesTo t) = true → exec .equinoxSweep s = .next s) ∧
    (∀ n w d seat, s.sweepOf l = some n ∧ l.sweep = some n ∨ l.closing = true ∧ s.copiesOn seat.core l.id = false ∧ s.storesTo seat = false →
      l.seats = [seat] → NoWaiters s →
      (s.slot seat.core 15).st = .free → (s.slot seat.core 15).lentTag = 0 → (∀ z, z < 4 → (s.core seat.core).zone z = none) →
      (s.leaveCores l).xlateUnit l.asid l.donew false true = (w, some d) → OnHome d →
      ∃ t, exec .equinoxSweep s = .next t ∧ t.launches = [] ∧ t.rdWord d = (if l.closing then 2 else 0) ∧ t.full d = true)) ∧
  (∀ (s : State) (l : Launch) (seat : Seat), s.launches = [l] → l.seats = [seat] → NoWaiters s →
    ∃ t, exec (.abortLaunch l.id) s = .next t ∧ t.notices = s.notices ∧
      (∀ k, k < 16 → (s.slot seat.core k).launch = some l.id → (s.slot seat.core k).st ≠ .ganged →
        (t.slot seat.core k).st = .free) ∧
      (s.copiesOn seat.core l.id = false → s.storesTo seat = false → t.launches = []) ∧
      ((s.core seat.core).copyRun.any (fun r => r.cmd.launch == l.id) = true ∨ (∃ k, k < 8 ∧
        (s.slot seat.core (2 * k)).copyQ.any (·.launch == l.id) = true) → t.launches.map (·.closing) = [true])) ∧
  ∀ (s : State) (vf : Nat),
    (let off : State := { s with queues := s.queues.map fun kv => (kv.1, if kv.2.vf = vf then kv.2.disable else kv.2) }
     (1 ≤ vf → vf ≤ 510 → (∀ l ∈ s.launches, l.vf ≠ vf) → exec (.functionLevelReset vf) s = .next off) ∧
     (∀ l, 1 ≤ vf → vf ≤ 510 → s.launches = [l] → l.vf = vf → exec (.functionLevelReset vf) s = exec (.abortLaunch l.id) off) ∧
     (vf = 0 ∨ 510 < vf → exec (.functionLevelReset vf) s = .next s) ∧
     ∀ v : Queue, v.disable.on = false ∧ v.disable.packets = [])

/-- CLASSIFIER_WINDOW (R243): a launch takes the class of its window's work, and its queue too if it is the queue's latest; the
counts start again. That a window without work leaves both is the model's choice (log 44). -/
def Obligations.ClassifierWindowSetsTheClass : Prop :=
  ∀ (s : State) (l : Launch), s.launches = [l] →
    (let work := 2048 * l.steps + l.laneOps
     let cls := if 64 * l.missed ≤ work then Intensity.compute else if 8 * l.missed ≤ work then .balanced else .memory
     let idle := work = 0 ∧ l.missed = 0
     ∃ t, exec (.classifierWindow l.id) s = .next t ∧
       t.launches = [{ l with steps := 0, laneOps := 0, missed := 0, intensity := if idle then l.intensity else cls }] ∧
       (idle ∨ (s.queue l.queue).latest ≠ l.id → t.queues = s.queues) ∧
       (¬ idle → (s.queue l.queue).latest = l.id → t.queue l.queue = { s.queue l.queue with cls := cls }))

/-! ## Links (R231–R235) -/

/-- FLIT_REPLAY, LANE_MARGIN_STEP_DOWN, LANE_TRAINING_FAILURE, RETRAIN_LINK and LINK_DOWN: seven replays in a row are borne, the
eighth brings the link down; a link slows one step at a time and narrows to its whole half; a link is declared down, its routes are
retired, and the zone slots reserved over it are FAILED; retrained it has its full rate and width. A link sends VC1 before VC5 and
both before the rest (R246), and nothing while its retry buffer of 512 flits is full. That a link with a failed lane in both halves
is trained at the next lower rate, and is down at the lowest, is the model's choice (log 41). -/
def Obligations.LinksReplaySlowAndFail : Prop :=
  ∀ (s : State) (k : Nat), k < 16 →
    (let l := s.link k
     let down (t : State) : Prop := (t.link k).up = false ∧
       t.routes = s.routes.map (fun r => (r.1, r.2.retire k)) ∧
       ∀ core z n x, core ∈ s.cores.keys → z < 4 → n < 16 → (((s.core core).zone z).bind fun v => v.slots[n]?) = some x →
         x.link = some k → x.st ≠ .free →
         ((((t.core core).zone z).bind fun v => v.slots[n]?).map fun y => y.st) = some .failed
     (l.up = true → l.replays + 1 < 8 → ∃ t, exec (.flitReplay k) s = .next t ∧ t.link k = { l with replays := l.replays + 1 } ∧
       SameMemory s t) ∧
     (l.up = true → 8 ≤ l.replays + 1 → ∃ t, exec (.flitReplay k) s = .next t ∧ down t) ∧
     (l.up = true → (∃ t, exec (.linkDown k) s = .next t ∧ down t) ∧ ∃ t, exec (.takeLinkDown k) s = .next t ∧ down t) ∧
     (l.up = false → exec (.linkDown k) s = .next s ∧ exec (.takeLinkDown k) s = .next s ∧ exec (.flitReplay k) s = .next s) ∧
     (∃ t, exec (.laneMarginStepDown k) s = .next t ∧ t.link k = { l with rate := min 3 (l.rate + 1) }) ∧
     (∀ lane, (let failed := setInsert l.failed lane
       ((∀ f ∈ failed, f < 4) ∨ (∀ f ∈ failed, 4 ≤ f) →
         ∃ t, exec (.laneTrainingFailure k lane) s = .next t ∧ t.link k = { l with failed := failed, lanes := 4 }) ∧
       (∀ f g, f ∈ failed → g ∈ failed → f < 4 → 4 ≤ g →
         (l.rate < 3 → ∃ t, exec (.laneTrainingFailure k lane) s = .next t ∧
           t.link k = { l with rate := l.rate + 1, failed := [], lanes := 4 }) ∧
         (3 ≤ l.rate → l.up = true → ∃ t, exec (.laneTrainingFailure k lane) s = .next t ∧ down t)))) ∧
     (∃ t, exec (.retrainLink k) s = .next t ∧
       t.link k = { l with rate := 0, lanes := 8, failed := [], replays := 0, up := true }) ∧
     (∀ dev p, dev ≠ s.device → dev < 256 → p < 16 → (s.link p).up = true → ∃ t, exec (.writeRouteEntry dev (some p) none) s = .next t ∧
       t.routeTo dev = some p ∧ ∀ e, e ≠ dev → e ≠ s.device → t.routeTo e = s.routeTo e) ∧
     (512 ≤ l.retry.length → (s.sendFlit k).link k = l) ∧
     (∀ vc m, l.up = true → l.retry.length < 512 → l.head vc = some m → vc = 1 ∨ vc = 5 ∧ l.head 1 = none →
       ((s.sendFlit k).link k).retry = l.retry ++ [⟨l.seq, vc, m⟩]))

/-! ## Settings, memory upkeep, management (R114, R200, R245–R247, R250, R253–R262) -/

/-- The supervisor's and the firmware's commands set what they name and leave the rest as it was. Power and ageing (R260, R261): the
tenth sample of 1 ms lowers the clock a step while the mean is above the cap, no further than 8 steps, raises it while 3% below, no
further than 20, and leaves it between; a sensor that falls below the threshold sets WARN, which only a written 1 clears. The
model's choices: a power cap out of range is left out, the mean is compared exactly, and WARN is set by the crossing alone (log 53);
SET_TENANT_AREAS empties the formula slots of the ASID (log 37); the contents of a report, whose signature is a constant without a body
(log 8); and a key slot that is not there, 0 or above 255, changes nothing (log 14). -/
def Obligations.SettingsPowerAndAgeing : Prop :=
  (∀ (s : State) (n : Nat),
     (∀ llc l2, n < 64 → ∃ t, exec (.setWayMasks n llc l2) s = .next t ∧ t.classCfg n = { s.classCfg n with llcMask := llc, l2Mask := l2 } ∧
       (∀ k, k ≠ n → t.classCfg k = s.classCfg k) ∧ SameMemory s t) ∧
     (∀ cap, n < 64 → ∃ t, exec (.setDramCap n cap) s = .next t ∧ t.classCfg n = { s.classCfg n with cap := cap } ∧
       (∀ k, k ≠ n → t.classCfg k = s.classCfg k) ∧ SameMemory s t) ∧
     (∀ w0 w2 w4 w3, n < 64 → ∃ t, exec (.setVcWeights n w0 w2 w4 w3) s = .next t ∧
       t.classCfg n = { s.classCfg n with weights := [w0, w2, w4, w3] } ∧ (∀ k, k ≠ n → t.classCfg k = s.classCfg k)) ∧
     exec (.writeKeySlot 0 n) s = .next s ∧ (∀ key, 255 < n → exec (.writeKeySlot n key) s = .next s) ∧
     (∀ key, 1 ≤ n → n ≤ 255 → ∃ t, exec (.writeKeySlot n key) s = .next t ∧ t.keySlot n = ⟨key, (s.keySlot n).version + 1⟩ ∧
       (∀ k, k ≠ n → t.keySlot k = s.keySlot k) ∧ SameMemory s t) ∧
     (∀ areas, n < 4096 → ∃ t, exec (.setTenantAreas n areas) s = .next t ∧ (t.tenant n).areas = areas ∧
       (∀ k, k ≠ n → t.tenant k = s.tenant k) ∧ ∀ f, f < 16 → t.formula n f = none ∧ ∀ k, k ≠ n → t.formula k f = s.formula k f) ∧
     (∀ root, n < 4096 → ∃ t, exec (.setAsidRoot n (some root)) s = .next t ∧ t.roots.find? (·.1 == n) = some (n, root) ∧ SameMemory s t) ∧
     (n < 4096 → ∃ t, exec (.setAsidRoot n none) s = .next t ∧ t.roots.find? (·.1 == n) = none ∧ SameMemory s t) ∧
     (600 ≤ n → n ≤ 3200 → exec (.setPowerCap n) s = .next { s with powerCap := n }) ∧
     (n < 600 ∨ 3200 < n → exec (.setPowerCap n) s = .next s) ∧ exec (.setAgeingThreshold n) s = .next { s with eolhMin := n } ∧
     (∃ t, exec (.spdmAttestation n) s = .next t ∧ t.reports = s.reports ++ [⟨n, s.measurements, Config.sign s.identity (s.evidence n)⟩] ∧ SameMemory s t)) ∧
  ((∀ (s : State) (watts : Nat),
     (s.samples.length + 1 < 10 → exec (.powerSample watts) s = .next { s with samples := s.samples ++ [watts] }) ∧
     (s.samples.length = 9 → ∃ t, exec (.powerSample watts) s = .next t ∧ t.samples = [] ∧ SameMemory s t ∧
       (10 * s.powerCap < s.samples.sum + watts → t.clock = max 8 (s.clock - 1)) ∧
       (100 * (s.samples.sum + watts) ≤ 970 * s.powerCap → t.clock = min 20 (s.clock + 1)) ∧
       (s.samples.sum + watts ≤ 10 * s.powerCap → 970 * s.powerCap < 100 * (s.samples.sum + watts) → t.clock = s.clock))) ∧
   ∀ (s : State) (die : Fin 12) (eolh worst : Nat) (data : Word), worst < 64 →
     (let word (t : State) : Word := t.ageing[die]
      (∃ t, exec (.ageingSensorUpdate die eolh worst) s = .next t ∧ fld (word t) 40 24 = min eolh 0xFFFFFF ∧ fld (word t) 32 8 = worst ∧
        fld (word t) 1 31 = 0 ∧ ((word t).getLsbD 0 = true ↔
          (word s).getLsbD 0 = true ∨ (eolh < s.eolhMin ∧ s.eolhMin ≤ fld (word s) 40 24))) ∧
      (∃ t, exec (.ageingWarnClear die data) s = .next t ∧ (word t).getLsbD 0 = ((word s).getLsbD 0 && !data.getLsbD 0) ∧
        ∀ b, 0 < b → (word t).getLsbD b = (word s).getLsbD b)))

/-- DRAM_BATCH_MARK and DRAM_CAP_WINDOW (R247): a batch marks the waiting requests, at most 8 of a source in a bank and none of
a class at its cap, while no batch is open; a window starts from no transfers. -/
def Obligations.DramBatchesAreMarked : Prop :=
  (∀ (s : State) (ctl : Nat), ctl < 16 →
    ((s.dram ctl).reqs.any (·.marked) = true → exec (.dramBatchMark ctl) s = .next s) ∧
    ((s.dram ctl).reqs.any (·.marked) = false → ∃ t, exec (.dramBatchMark ctl) s = .next t ∧
      (t.dram ctl).reqs.map (fun r => { r with marked := false }) = (s.dram ctl).reqs ∧
      (∀ k, k ≠ ctl → t.dram k = s.dram k) ∧
      (∀ r ∈ (t.dram ctl).reqs, r.marked = true → s.atCap (s.dram ctl) r.cls = false) ∧
      (∀ cluster cls bank, ((t.dram ctl).reqs.countP fun r =>
        r.marked && r.cluster == cluster && r.cls == cls && r.bank == bank) ≤ 8) ∧
      (∀ r rest, (s.dram ctl).reqs = r :: rest → s.atCap (s.dram ctl) r.cls = false →
        (t.dram ctl).reqs.head? = some { r with marked := true }))) ∧
  ∀ s : State, ∃ t, exec .dramCapWindow s = .next t ∧ SameMemory s t ∧
    ∀ ctl, ctl < 16 → t.dram ctl = { s.dram ctl with used := [] }

/-- LLC_EVICTION and ATS_INVALIDATION (R112, R250, R253, R254): an evicted line is no longer in the LLC; a dirty one moves its
counter on, stands in DRAM encrypted under it with a MAC that holds, and queues its write at its stack's controller; an invalidation
drops the translations that overlap its range. The model's choices: the request's source 128, its bank and its row (log 52), which
addresses are host memory (log 9), and where the carve-out lies (log 61). -/
def Obligations.EvictionsAndInvalidations : Prop :=
  (∀ (s : State) (line : Nat) (tag : LlcLine), s.hier.llc.look line = some tag → hostPa (128 * line) = false →
    (let ctl := tag.attr.stack line
     let c' := (s.hier.counter 0 (line / 64)).bump line
     let key := s.keySlot tag.attr.key
     ∃ t, exec (.llcEviction line) s = .next t ∧ SameMemory s t ∧ t.hier.llc.look line = none ∧
      (tag.dirty = false → t.hier = { s.hier with llc := t.hier.llc }) ∧
      (tag.dirty = true →
        (t.dram ctl).reqs = (s.dram ctl).reqs ++ [⟨128, tag.attr.cls, line / 4 % 16, line / 64, false⟩] ∧
        (∀ k, k ≠ ctl → t.dram k = s.dram k) ∧
        (inCarve (128 * line) = false → s.hier.pathOk (line / 64) = true →
          t.hier.counter 0 (line / 64) = c' ∧ t.hier.macOk tag.attr.key key line = true ∧
          (t.hier.dramLine line).cipher = cipherOf key.key line c'.major (c'.minor line) (s.mem.rdBytes (128 * line) 128))))) ∧
  (∀ (s : State) (line : Nat), s.hier.llc.look line = none → exec (.llcEviction line) s = .next s) ∧
  ∀ (s : State) (base len : Nat), ∃ t, exec (.atsInvalidation base len) s = .next t ∧ t = { s with ports := t.ports } ∧
    ∀ k : Fin 2, t.ports[k] = { s.ports[k] with ats := t.ports[k].ats } ∧
      ∀ r, r ∈ t.ports[k].ats ↔ r ∈ s.ports[k].ats ∧ ¬ (r.base < base + len ∧ base < r.base + r.len)

/-- COLD_RESET (R257, R258, R262): an image whose signature does not verify, or whose public key is not the fused one, or whose
version is below the one the part has seen, leaves it failed; a sound one is measured, the identity key derived from the
measurement, and bring-up goes on step by step: the scrub, link training and discovery, the clearing of queues, slots and zones,
ready. A part whose boot verification failed takes no step of its own; a cold reset from outside is run (R257). The model's choices:
causes 1 and 2, and one step for each part of bring-up (log 51); the hash, the signature check and the fuses are constants without a
body (log 8). -/
def Obligations.ColdResetVerifiesTheImage : Prop :=
  ((∀ (s : State) (image signature : List Byte) (version : Nat),
     (let t0 : State := { s with issuing := false, turns := [] }
      let key := Config.imageKey image
      let sound : Bool := Config.sha512 key == Config.fusedHash && Config.ecdsaVerify key (Config.sha512 image) signature
      (sound = false → exec (.coldReset image signature version) s = .next { t0 with boot := .failed 1 }) ∧
      (sound = true → version < Config.rollback → exec (.coldReset image signature version) s = .next { t0 with boot := .failed 2 }) ∧
      (sound = true → Config.rollback ≤ version → exec (.coldReset image signature version) s =
        .next { t0 with
          measured := Config.sha512 image, identity := Config.identityKey (Config.sha512 image), boot := .starting 2 }))) ∧
   ∀ s : State, s.inputs = [] →
     (s.boot = .starting 2 → ∃ t, step s = .next t ∧ t.boot = .starting 3 ∧ t.hier = Hier.reset ∧
       (∀ pa, byteAt t pa = if hostPa pa then byteAt s pa else 0) ∧ (∀ core off, localByteAt t core off = 0) ∧
       ∀ core w, t.full (.lm core (8 * w)) = !(0x1000 ≤ w && w < 0x1004)) ∧
     (s.boot = .starting 3 → ∃ t, step s = .next t ∧ t.boot = .starting 4 ∧ t.links = State.reset.links ∧ SameMemory s t) ∧
     (s.boot = .starting 4 → ∃ t, step s = .next t ∧ t.boot = .starting 5 ∧ t.cores = State.reset.cores ∧ t.launches = [] ∧
       t.queues = [] ∧ t.routes = s.routes ∧ t.links = s.links ∧ t.measured = s.measured ∧ ∀ pa, byteAt t pa = byteAt s pa) ∧
     (s.boot = .starting 5 → step s = .next { s with boot := .ready })) ∧
  ((∀ s cause, s.boot = .failed cause → s.inputs = [] → step s = .fault .heldInReset) ∧
   ∀ s cause image signature version rest, s.boot = .failed cause → s.inputs = .op (.coldReset image signature version) :: rest →
     step s = exec (.coldReset image signature version) { s with inputs := rest })
end

