-- ==== Sys2Proof/Laws/Cache.lean ====
section
/-!
SUPPORT. What an access of the cache hierarchy can do (spec/05_memory_and_addressing.md R111–R115): it moves lines and poison,
and never a byte, a full/empty bit, a core or a slot. Provers cite these and leave the hierarchy folded.
-/
namespace Sys2Proof.Machine

open Sys2Proof

/-- A line served at its home changes the hierarchy, the words marked as poison and the ports' translations, and nothing else. -/
theorem touchLine_frame (s : State) (e : Env) (a : Attr) (pa : Nat) (w inval : Bool) (cl : Nat) (pasid : Option (BitVec 20)) :
    ∃ h p q, s.touchLine e a pa w inval cl pasid = { s with hier := h, memPoison := p, ports := q } := ⟨_, _, _, rfl⟩

theorem touch_frame (s : State) (l : Loc) (w : Bool) (cl : Nat) (bs : List Byte) (pasid : Option (BitVec 20)) (inval : Bool) :
    ∃ h p q, s.touch l w cl bs pasid inval = { s with hier := h, memPoison := p, ports := q } := by
  cases l with
  | mem => exact touchLine_frame ..
  | _ => exact ⟨_, _, _, rfl⟩

/-- Frames compose: a fold whose every step changes certain parts alone changes those alone. -/
theorem foldl_frame {α : Type} {P : State → State → Prop} (refl : ∀ s, P s s) (trans : ∀ {r s t}, P r s → P s t → P r t)
    (f : State → α → State) (step : ∀ s x, P s (f s x)) (xs : List α) (s : State) : P s (xs.foldl f s) := by
  induction xs generalizing s with
  | nil => exact refl s
  | cons x xs ih => exact trans (step s x) (ih (f s x))

theorem touchLines_frame (s : State) (l : Loc) (n : Nat) (w : Bool) (cl : Nat) (bs : List Byte)
    (pasid : Option (BitVec 20)) (inval : Bool) :
    ∃ h p q, s.touchLines l n w cl bs pasid inval = { s with hier := h, memPoison := p, ports := q } := by
  cases l with
  | mem pa tree cls key =>
    exact foldl_frame (P := fun s t => ∃ h p q, t = { s with hier := h, memPoison := p, ports := q }) (fun _ => ⟨_, _, _, rfl⟩)
      (fun ⟨_, _, _, e⟩ ⟨h, p, q, e'⟩ => ⟨h, p, q, by rw [e', e]⟩) _ (fun s _ => touchLine_frame s ..) (lineParts pa n) s
  | _ => exact ⟨_, _, _, rfl⟩

/-- A core's access through its L2 may count missed bytes besides. -/
theorem l2Line_frame (s : State) (core : Nat) (launch : Option Nat) (e : Env) (pa n : Nat) (a : Attr) (w : Bool)
    (pasid : Option (BitVec 20)) :
    ∃ h p q ls, s.l2Line core launch e pa n a w pasid = { s with hier := h, memPoison := p, ports := q, launches := ls } := by
  cases launch <;> exact ⟨_, _, _, _, rfl⟩

theorem l2Access_frame (s : State) (core : Nat) (launch : Option Nat) (l : Loc) (n : Nat) (w : Bool) (bs : List Byte)
    (pasid : Option (BitVec 20)) :
    ∃ h p q ls, s.l2Access core launch l n w bs pasid = { s with hier := h, memPoison := p, ports := q, launches := ls } := by
  cases l with
  | mem pa tree cls key =>
    exact foldl_frame (P := fun s t => ∃ h p q ls, t = { s with hier := h, memPoison := p, ports := q, launches := ls })
      (fun _ => ⟨_, _, _, _, rfl⟩) (fun ⟨_, _, _, _, e⟩ ⟨h, p, q, ls, e'⟩ => ⟨h, p, q, ls, by rw [e', e]⟩) _
      (fun s _ => l2Line_frame s ..) (lineParts pa n) s
  | _ => exact ⟨_, _, _, _, rfl⟩

/-- An eviction changes the hierarchy alone, but for the ports' translations. -/
theorem evict_frame (s : State) (line : Nat) :
    ∃ h p q, s.evict line = { s with hier := h, memPoison := p, ports := q } := by
  unfold State.evict
  split <;> exact ⟨_, _, _, rfl⟩

@[simp] theorem touch_mem (s : State) (l : Loc) (w : Bool) (cl : Nat) (bs : List Byte) (pasid : Option (BitVec 20)) (inval : Bool) :
    (s.touch l w cl bs pasid inval).mem = s.mem := by
  obtain ⟨_, _, _, e⟩ := touch_frame s l w cl bs pasid inval
  rw [e]
@[simp] theorem touch_cores (s : State) (l : Loc) (w : Bool) (cl : Nat) (bs : List Byte) (pasid : Option (BitVec 20)) (inval : Bool) :
    (s.touch l w cl bs pasid inval).cores = s.cores := by
  obtain ⟨_, _, _, e⟩ := touch_frame s l w cl bs pasid inval
  rw [e]
@[simp] theorem l2Access_mem (s : State) (core : Nat) (launch : Option Nat) (l : Loc) (n : Nat) (w : Bool) (bs : List Byte)
    (pasid : Option (BitVec 20)) : (s.l2Access core launch l n w bs pasid).mem = s.mem := by
  obtain ⟨_, _, _, _, e⟩ := l2Access_frame s core launch l n w bs pasid
  rw [e]
@[simp] theorem l2Access_cores (s : State) (core : Nat) (launch : Option Nat) (l : Loc) (n : Nat) (w : Bool) (bs : List Byte)
    (pasid : Option (BitVec 20)) : (s.l2Access core launch l n w bs pasid).cores = s.cores := by
  obtain ⟨_, _, _, _, e⟩ := l2Access_frame s core launch l n w bs pasid
  rw [e]

end Sys2Proof.Machine
end

