-- ==== Sys2Proof/Laws/Decode.lean ====
section
/-!
SUPPORT. Decoding undoes packing: the fields of a packed word are the fields that were packed, for every format.
-/
namespace Sys2Proof
open BitVec (extractLsb'_append_eq_of_le extractLsb'_append_eq_of_add_le extractLsb'_eq_self)

@[simp] theorem CR.unpack_pack (f : CR) : CR.unpack f.pack = f := by
  cases f
  simp (disch := decide) only [CR.unpack, CR.pack, extractLsb'_append_eq_of_le, extractLsb'_append_eq_of_add_le,
    Nat.reduceSub, extractLsb'_eq_self]

@[simp] theorem copOf_CR (f : CR) : copOf f.pack = f.cop := by
  cases f
  simp (disch := decide) only [copOf, CR.pack, extractLsb'_append_eq_of_le, extractLsb'_append_eq_of_add_le,
    Nat.reduceSub, extractLsb'_eq_self]

@[simp] theorem lone_CR (f : CR) : f.pack[31] = f.l[0] := by
  simp only [CR.pack, ← BitVec.getLsbD_eq_getElem, BitVec.getLsbD_append]
  simp only [Nat.reduceLT, Nat.reduceSub, ↓reduceIte]

@[simp] theorem CI.unpack_pack (f : CI) : CI.unpack f.pack = f := by
  cases f
  simp (disch := decide) only [CI.unpack, CI.pack, extractLsb'_append_eq_of_le, extractLsb'_append_eq_of_add_le,
    Nat.reduceSub, extractLsb'_eq_self]

@[simp] theorem copOf_CI (f : CI) : copOf f.pack = f.cop := by
  cases f
  simp (disch := decide) only [copOf, CI.pack, extractLsb'_append_eq_of_le, extractLsb'_append_eq_of_add_le,
    Nat.reduceSub, extractLsb'_eq_self]

@[simp] theorem lone_CI (f : CI) : f.pack[31] = f.l[0] := by
  simp only [CI.pack, ← BitVec.getLsbD_eq_getElem, BitVec.getLsbD_append]
  simp only [Nat.reduceLT, Nat.reduceSub, ↓reduceIte]

@[simp] theorem CF.unpack_pack (f : CF) : CF.unpack f.pack = f := by
  cases f
  simp (disch := decide) only [CF.unpack, CF.pack, extractLsb'_append_eq_of_le, extractLsb'_append_eq_of_add_le,
    Nat.reduceSub, extractLsb'_eq_self]

@[simp] theorem copOf_CF (f : CF) : copOf f.pack = f.cop := by
  cases f
  simp (disch := decide) only [copOf, CF.pack, extractLsb'_append_eq_of_le, extractLsb'_append_eq_of_add_le,
    Nat.reduceSub, extractLsb'_eq_self]

@[simp] theorem lone_CF (f : CF) : f.pack[31] = f.l[0] := by
  simp only [CF.pack, ← BitVec.getLsbD_eq_getElem, BitVec.getLsbD_append]
  simp only [Nat.reduceLT, Nat.reduceSub, ↓reduceIte]

@[simp] theorem CA.unpack_pack (f : CA) : CA.unpack f.pack = f := by
  cases f
  simp (disch := decide) only [CA.unpack, CA.pack, extractLsb'_append_eq_of_le, extractLsb'_append_eq_of_add_le,
    Nat.reduceSub, extractLsb'_eq_self]

@[simp] theorem copOf_CA (f : CA) : copOf f.pack = f.cop := by
  cases f
  simp (disch := decide) only [copOf, CA.pack, extractLsb'_append_eq_of_le, extractLsb'_append_eq_of_add_le,
    Nat.reduceSub, extractLsb'_eq_self]

@[simp] theorem lone_CA (f : CA) : f.pack[31] = f.l[0] := by
  simp only [CA.pack, ← BitVec.getLsbD_eq_getElem, BitVec.getLsbD_append]
  simp only [Nat.reduceLT, Nat.reduceSub, ↓reduceIte]

@[simp] theorem CB.unpack_pack (f : CB) : CB.unpack f.pack = f := by
  cases f
  simp (disch := decide) only [CB.unpack, CB.pack, extractLsb'_append_eq_of_le, extractLsb'_append_eq_of_add_le,
    Nat.reduceSub, extractLsb'_eq_self]

@[simp] theorem copOf_CB (f : CB) : copOf f.pack = f.cop := by
  cases f
  simp (disch := decide) only [copOf, CB.pack, extractLsb'_append_eq_of_le, extractLsb'_append_eq_of_add_le,
    Nat.reduceSub, extractLsb'_eq_self]

@[simp] theorem lone_CB (f : CB) : f.pack[31] = f.l[0] := by
  simp only [CB.pack, ← BitVec.getLsbD_eq_getElem, BitVec.getLsbD_append]
  simp only [Nat.reduceLT, Nat.reduceSub, ↓reduceIte]

@[simp] theorem AF.unpack_pack (f : AF) : AF.unpack f.pack = f := by
  cases f
  simp (disch := decide) only [AF.unpack, AF.pack, extractLsb'_append_eq_of_le, extractLsb'_append_eq_of_add_le,
    Nat.reduceSub, extractLsb'_eq_self]

@[simp] theorem aopOf_AF (f : AF) : aopOf f.pack = f.aop := by
  cases f
  simp (disch := decide) only [aopOf, AF.pack, extractLsb'_append_eq_of_le, Nat.reduceSub, extractLsb'_eq_self]

@[simp] theorem AI.unpack_pack (f : AI) : AI.unpack f.pack = f := by
  cases f
  simp (disch := decide) only [AI.unpack, AI.pack, extractLsb'_append_eq_of_le, extractLsb'_append_eq_of_add_le,
    Nat.reduceSub, extractLsb'_eq_self]

@[simp] theorem aopOf_AI (f : AI) : aopOf f.pack = f.aop := by
  cases f
  simp (disch := decide) only [aopOf, AI.pack, extractLsb'_append_eq_of_le, Nat.reduceSub, extractLsb'_eq_self]

/-! ## Fields made of smaller ones -/

theorem fence_field : ∀ f : BitVec 2, (0#2 ++ f : BitVec 4).ult 4#4 = true ∧ (0#2 ++ f : BitVec 4).extractLsb' 0 2 = f := by
  decide

theorem bit_field : ∀ x : BitVec 1, (0#3 ++ x : BitVec 4).ult 2#4 = true ∧ (0#3 ++ x : BitVec 4).extractLsb' 0 1 = x := by
  decide

theorem lzres_field : ∀ (w : BitVec 1) (z : BitVec 2), (0#1 ++ w ++ z : BitVec 4).ult 8#4 = true ∧
    (0#1 ++ w ++ z : BitVec 4).extractLsb' 2 1 = w ∧ (0#1 ++ w ++ z : BitVec 4).extractLsb' 0 2 = z := by
  decide

theorem send_field : ∀ (ch : BitVec 2) (h x : BitVec 1), (ch ++ h ++ x : BitVec 4).extractLsb' 2 2 = ch ∧
    (ch ++ h ++ x : BitVec 4).extractLsb' 1 1 = h ∧ (ch ++ h ++ x : BitVec 4).extractLsb' 0 1 = x := by
  decide

theorem pair_field : ∀ x y : BitVec 2, (x ++ y : BitVec 4).extractLsb' 2 2 = x ∧ (x ++ y : BitVec 4).extractLsb' 0 2 = y := by
  decide

theorem three_field : ∀ x y z : BitVec 1, (x ++ y ++ z : BitVec 3).extractLsb' 2 1 = x ∧
    (x ++ y ++ z : BitVec 3).extractLsb' 1 1 = y ∧ (x ++ y ++ z : BitVec 3).extractLsb' 0 1 = z := by
  decide

theorem csr_field (x : BitVec 2) (n : BitVec 10) :
    (x ++ n : BitVec 12).extractLsb' 0 10 = n ∧ (x ++ n : BitVec 12).extractLsb' 10 2 = x := by
  constructor
  · exact extractLsb'_append_eq_of_add_le (by decide) |>.trans extractLsb'_eq_self
  · exact extractLsb'_append_eq_of_le (by decide) |>.trans extractLsb'_eq_self

theorem pred_field : ∀ p : BitVec 3, (0#2 ++ p : BitVec 5).ult 8#5 = true ∧ (0#2 ++ p : BitVec 5).extractLsb' 0 3 = p := by
  decide

theorem rnd_field : ∀ r : BitVec 2, (0#3 ++ r : BitVec 5).ult 4#5 = true ∧ (0#3 ++ r : BitVec 5).extractLsb' 0 2 = r := by
  decide

theorem bits_field : ∀ x : BitVec 2, (0#1 ++ x : BitVec 3).ult 4#3 = true ∧ (0#1 ++ x : BitVec 3).extractLsb' 0 2 = x := by
  decide

theorem run_field : ∀ n : BitVec 4, (0#1 ++ n : BitVec 5).ult 16#5 = true ∧ (0#1 ++ n : BitVec 5).extractLsb' 0 4 = n := by
  decide

theorem half_field : ∀ x : BitVec 1, (0#1 ++ x : BitVec 2).extractLsb' 0 1 = x ∧ (0#1 ++ x : BitVec 2)[1] = false := by
  decide

theorem sub_field : ∀ (x y z : BitVec 1) (s : BitVec 2), (x ++ y ++ z ++ s : BitVec 5).extractLsb' 4 1 = x ∧
    (x ++ y ++ z ++ s : BitVec 5).extractLsb' 3 1 = y ∧ (x ++ y ++ z ++ s : BitVec 5).extractLsb' 2 1 = z ∧
    (x ++ y ++ z ++ s : BitVec 5).extractLsb' 0 2 = s := by
  decide

theorem scale_field : ∀ (x y z : BitVec 1) (u : BitVec 2), (x ++ y ++ z ++ u : BitVec 5).extractLsb' 0 1 = u.extractLsb' 0 1 ∧
    (x ++ y ++ z ++ u : BitVec 5)[1] = u[1] := by
  decide

theorem shift_field : ∀ n : BitVec 6, (shiftMinor n = 2#3 ∧ (0#1 ++ n.extractLsb' 0 5 : BitVec 6) = n) ∨
    (shiftMinor n = 3#3 ∧ (1#1 ++ n.extractLsb' 0 5 : BitVec 6) = n) := by
  decide

end Sys2Proof
end

