-- ==== Sys2Proof/Laws/Tables.lean ====
section
/-!
SUPPORT. Tables and memories: what is read after a write, and that writing keeps keys rising and memories canonical.
-/
namespace Sys2Proof.Machine

variable {α : Type}

/-! ## Tables -/

@[simp] theorem Sparse.get_nil (d : α) (k : Nat) : Sparse.get d [] k = d := rfl

/-- A key reads what was last put there, and every other key reads as before. -/
theorem Sparse.get_put (d : α) (m : Sparse α) (k : Nat) (v : α) (j : Nat) :
    Sparse.get d (m.put k v) j = if k = j then v else Sparse.get d m j := by
  induction m with
  | nil => rfl
  | cons h t ih =>
    obtain ⟨k', v'⟩ := h
    unfold Sparse.put
    split
    · simp only [Sparse.get, ih]
      split <;> split <;> first | rfl | omega
    · split
      · subst_vars
        simp only [Sparse.get]
        split <;> rfl
      · simp only [Sparse.get]

@[simp] theorem Sparse.get_put_same (d : α) (m : Sparse α) (k : Nat) (v : α) : Sparse.get d (m.put k v) k = v := by
  simp [Sparse.get_put]

theorem Sparse.get_put_other (d : α) (m : Sparse α) {k j : Nat} (v : α) (h : k ≠ j) :
    Sparse.get d (m.put k v) j = Sparse.get d m j := by
  simp [Sparse.get_put, h]

/-- Keys strictly rise from a bound on. -/
def Sparse.from (b : Nat) : Sparse α → Prop
  | [] => True
  | (k, _) :: rest => b ≤ k ∧ Sparse.from (k + 1) rest

theorem Sparse.from_mono {a b : Nat} (h : a ≤ b) : ∀ {m : Sparse α}, m.from b → m.from a
  | [], _ => trivial
  | _ :: _, hm => ⟨h.trans hm.1, hm.2⟩

theorem Sparse.from_put {k : Nat} {v : α} : ∀ {m : Sparse α} {b : Nat}, m.from b → b ≤ k → (m.put k v).from b
  | [], _, _, h => ⟨h, trivial⟩
  | (k', v') :: rest, b, hm, h => by
    unfold Sparse.put
    split
    · exact ⟨hm.1, Sparse.from_put hm.2 (by omega)⟩
    · split
      · subst_vars; exact ⟨h, hm.2⟩
      · exact ⟨h, by omega, hm.2⟩

/-- Leaving out entries keeps the keys rising. -/
theorem Sparse.from_filter (p : Nat × α → Bool) : ∀ {m : Sparse α} {b : Nat}, m.from b → Sparse.from b (m.filter p)
  | [], _, _ => trivial
  | (k, v) :: rest, b, hm => by
    rw [List.filter_cons]
    split
    · exact ⟨hm.1, Sparse.from_filter p hm.2⟩
    · exact Sparse.from_mono (hm.1.trans (Nat.le_succ _)) (Sparse.from_filter p hm.2)

theorem Sparse.from_erase (k : Nat) {m : Sparse α} {b : Nat} (h : m.from b) : (m.erase k).from b := Sparse.from_filter _ h

theorem Sparse.get_of_from (d : α) : ∀ {m : Sparse α} {b k : Nat}, m.from b → k < b → Sparse.get d m k = d
  | [], _, _, _, _ => rfl
  | (k', _) :: rest, b, k, hm, h => by
    have : k' ≠ k := by have := hm.1; omega
    simp only [Sparse.get, this, if_false]
    exact Sparse.get_of_from d hm.2 (by have := hm.1; omega)

/-- A key taken out reads the default, and every other key reads as before. -/
theorem Sparse.get_erase (d : α) (k j : Nat) : ∀ m : Sparse α, Sparse.get d (m.erase k) j = if k = j then d else Sparse.get d m j
  | [] => by simp [Sparse.erase, Sparse.get]
  | (k', v') :: rest => by
    have ih := Sparse.get_erase d k j rest
    unfold Sparse.erase at ih ⊢
    by_cases hk : k' = k
    · subst hk
      rw [List.filter_cons_of_neg (by simp), ih]
      by_cases hj : k' = j <;> simp [Sparse.get, hj]
    · rw [List.filter_cons_of_pos (by simp [hk])]
      simp only [Sparse.get, ih]
      split <;> split <;> first | rfl | omega

/-! ## Memories -/

/-- A memory in canonical form: keys rise, no zero byte is listed. -/
theorem Memory.wf_iff (m : Memory) : Memory.wf m = true ↔ Sparse.from 0 m ∧ ∀ c ∈ m, c.2 ≠ 0 := by
  have gen : ∀ (m : Memory) (b : Nat), (∀ c, m.head? = some c → b ≤ c.1) →
      (Memory.wf m = true ↔ Sparse.from b m ∧ ∀ c ∈ m, c.2 ≠ 0) := by
    intro m
    induction m with
    | nil => intro b _; simp [Memory.wf, Sparse.from]
    | cons h t ih =>
      intro b hb
      obtain ⟨a, x⟩ := h
      have hba : b ≤ a := hb _ rfl
      cases t with
      | nil => simp [Memory.wf, Sparse.from, hba]
      | cons h' t' =>
        obtain ⟨a', x'⟩ := h'
        have := ih a' (by intro c hc; simp at hc; subst hc; exact le_refl _)
        simp only [Memory.wf, Bool.and_eq_true, decide_eq_true_eq, bne_iff_ne, this, Sparse.from, List.mem_cons,
          forall_eq_or_imp, hba, true_and]
        constructor
        · rintro ⟨⟨h1, h2⟩, ⟨_, h3⟩, h4, h5⟩
          exact ⟨⟨by omega, h3⟩, h1, h4, h5⟩
        · rintro ⟨⟨h2, h3⟩, h1, h4, h5⟩
          exact ⟨⟨h1, by omega⟩, ⟨le_refl _, h3⟩, h4, h5⟩
  exact gen m 0 (fun _ _ => Nat.zero_le _)

theorem Sparse.mem_put {m : Sparse α} {k : Nat} {v : α} {c : Nat × α} (h : c ∈ m.put k v) : c = (k, v) ∨ c ∈ m := by
  induction m with
  | nil => simpa [Sparse.put] using h
  | cons x t ih =>
    obtain ⟨k', v'⟩ := x
    unfold Sparse.put at h
    split at h
    · rcases List.mem_cons.1 h with h | h
      · exact .inr (by simp [h])
      · rcases ih h with h | h
        · exact .inl h
        · exact .inr (by simp [h])
    · split at h
      · rcases List.mem_cons.1 h with h | h
        · exact .inl h
        · exact .inr (by simp [h])
      · rcases List.mem_cons.1 h with h | h
        · exact .inl h
        · exact .inr h

theorem Sparse.mem_erase {m : Sparse α} {k : Nat} {c : Nat × α} (h : c ∈ m.erase k) : c ∈ m := (List.mem_filter.1 h).1

/-- A byte written keeps the canonical form. -/
theorem Memory.wf_wr {m : Memory} (a : Nat) (b : Byte) (h : Memory.wf m = true) : Memory.wf (m.wr a b) = true := by
  rw [Memory.wf_iff] at h ⊢
  unfold Memory.wr
  split
  · exact ⟨Sparse.from_erase a h.1, fun c hc => h.2 c (Sparse.mem_erase hc)⟩
  · refine ⟨Sparse.from_put (b := 0) h.1 (Nat.zero_le _), fun c hc => ?_⟩
    rcases Sparse.mem_put hc with rfl | hc
    · assumption
    · exact h.2 c hc

/-- Bytes written keep the canonical form. -/
theorem Memory.wf_wrBytes (bs : List Byte) : ∀ {m : Memory} (a : Nat), Memory.wf m = true →
    Memory.wf (m.wrBytes a bs) = true := by
  induction bs with
  | nil => intro m a h; exact h
  | cons b bs ih => intro m a h; exact ih (a + 1) (Memory.wf_wr a b h)

/-- Leaving out bytes keeps the canonical form. -/
theorem Memory.wf_filter {m : Memory} (p : Host.Cell → Bool) (h : Memory.wf m = true) :
    Memory.wf (m.filter p) = true := by
  rw [Memory.wf_iff] at h ⊢
  exact ⟨Sparse.from_filter p h.1, fun c hc => h.2 c (List.mem_filter.1 hc).1⟩

/-- A byte reads what was last written there, and every other byte reads as before. -/
theorem Memory.rd_wr (m : Memory) (a : Nat) (b : Byte) (j : Nat) :
    (m.wr a b).rd j = if a = j then b else m.rd j := by
  unfold Memory.wr Memory.rd
  split
  · subst_vars
    rw [Sparse.get_erase 0 a j]
  · rw [Sparse.get_put]

/-- Bytes outside those written read as before. -/
theorem Memory.rd_wrBytes_other (bs : List Byte) : ∀ (m : Memory) (a j : Nat), (j < a ∨ a + bs.length ≤ j) →
    (m.wrBytes a bs).rd j = m.rd j := by
  induction bs with
  | nil => intro m a j _; rfl
  | cons b bs ih =>
    intro m a j hj
    simp only [List.length_cons] at hj
    show ((m.wr a b).wrBytes (a + 1) bs).rd j = _
    rw [ih _ (a + 1) j (by omega), Memory.rd_wr, if_neg (by omega)]

/-- Bytes written are read back. -/
theorem Memory.rdBytes_wrBytes (bs : List Byte) : ∀ (m : Memory) (a : Nat), (m.wrBytes a bs).rdBytes a bs.length = bs := by
  induction bs with
  | nil => intro m a; rfl
  | cons b bs ih =>
    intro m a
    show ((m.wr a b).wrBytes (a + 1) bs).rd a :: ((m.wr a b).wrBytes (a + 1) bs).rdBytes (a + 1) bs.length = _
    rw [ih, Memory.rd_wrBytes_other bs _ (a + 1) a (by omega), Memory.rd_wr, if_pos rfl]

/-! ## Bytes and words -/

@[simp] theorem length_bytesOfNat (n v : Nat) : (bytesOfNat n v).length = n := by
  induction n generalizing v with
  | zero => rfl
  | succ n ih => simp [bytesOfNat, ih]

/-- The little-endian bytes of a number give its value modulo their range (R4). -/
theorem natOfBytes_bytesOfNat (n v : Nat) : natOfBytes (bytesOfNat n v) = v % 256 ^ n := by
  induction n generalizing v with
  | zero => simp [bytesOfNat, natOfBytes, Nat.mod_one]
  | succ n ih =>
    have : natOfBytes (bytesOfNat (n + 1) v) = v % 256 + 256 * natOfBytes (bytesOfNat n (v / 256)) := by
      simp [bytesOfNat, natOfBytes]
    rw [this, ih, pow_succ, Nat.mul_comm (256 ^ n) 256, Nat.mod_mul]

@[simp] theorem length_rdBytes (m : Memory) (a n : Nat) : (m.rdBytes a n).length = n := by
  induction n generalizing a with
  | zero => rfl
  | succ n ih => simp [Memory.rdBytes, ih]

end Sys2Proof.Machine
end

