-- ==== Sys2Proof/Laws/State.lean ====
section
/-!
SUPPORT. The fields of the state after each of its updates, one lemma for each field that an update leaves alone; slots and cores
read after they are written.
-/
namespace Sys2Proof.Machine

open Sys2Proof

/-! ### State.setCore -/

@[simp] theorem State.setCore_cc (s : State) (n : Nat) (c : Core) : (s.setCore n c).cc = s.cc := rfl
@[simp] theorem State.setCore_device (s : State) (n : Nat) (c : Core) : (s.setCore n c).device = s.device := rfl
@[simp] theorem State.setCore_tick (s : State) (n : Nat) (c : Core) : (s.setCore n c).tick = s.tick := rfl
@[simp] theorem State.setCore_curCore (s : State) (n : Nat) (c : Core) : (s.setCore n c).curCore = s.curCore := rfl
@[simp] theorem State.setCore_curSlot (s : State) (n : Nat) (c : Core) : (s.setCore n c).curSlot = s.curSlot := rfl
@[simp] theorem State.setCore_issuing (s : State) (n : Nat) (c : Core) : (s.setCore n c).issuing = s.issuing := rfl
@[simp] theorem State.setCore_lat (s : State) (n : Nat) (c : Core) : (s.setCore n c).lat = s.lat := rfl
@[simp] theorem State.setCore_turns (s : State) (n : Nat) (c : Core) : (s.setCore n c).turns = s.turns := rfl
@[simp] theorem State.setCore_inputs (s : State) (n : Nat) (c : Core) : (s.setCore n c).inputs = s.inputs := rfl
@[simp] theorem State.setCore_clusters (s : State) (n : Nat) (c : Core) : (s.setCore n c).clusters = s.clusters := rfl
@[simp] theorem State.setCore_mem (s : State) (n : Nat) (c : Core) : (s.setCore n c).mem = s.mem := rfl
@[simp] theorem State.setCore_memEmpty (s : State) (n : Nat) (c : Core) : (s.setCore n c).memEmpty = s.memEmpty := rfl
@[simp] theorem State.setCore_memPoison (s : State) (n : Nat) (c : Core) : (s.setCore n c).memPoison = s.memPoison := rfl
@[simp] theorem State.setCore_waiters (s : State) (n : Nat) (c : Core) : (s.setCore n c).waiters = s.waiters := rfl
@[simp] theorem State.setCore_packets (s : State) (n : Nat) (c : Core) : (s.setCore n c).packets = s.packets := rfl
@[simp] theorem State.setCore_records (s : State) (n : Nat) (c : Core) : (s.setCore n c).records = s.records := rfl
@[simp] theorem State.setCore_stgs (s : State) (n : Nat) (c : Core) : (s.setCore n c).stgs = s.stgs := rfl
@[simp] theorem State.setCore_forwards (s : State) (n : Nat) (c : Core) : (s.setCore n c).forwards = s.forwards := rfl
@[simp] theorem State.setCore_units (s : State) (n : Nat) (c : Core) : (s.setCore n c).units = s.units := rfl
@[simp] theorem State.setCore_pieces (s : State) (n : Nat) (c : Core) : (s.setCore n c).pieces = s.pieces := rfl
@[simp] theorem State.setCore_jobs (s : State) (n : Nat) (c : Core) : (s.setCore n c).jobs = s.jobs := rfl
@[simp] theorem State.setCore_couples (s : State) (n : Nat) (c : Core) : (s.setCore n c).couples = s.couples := rfl
@[simp] theorem State.setCore_rollbacks (s : State) (n : Nat) (c : Core) : (s.setCore n c).rollbacks = s.rollbacks := rfl
@[simp] theorem State.setCore_launches (s : State) (n : Nat) (c : Core) : (s.setCore n c).launches = s.launches := rfl
@[simp] theorem State.setCore_nextLaunch (s : State) (n : Nat) (c : Core) : (s.setCore n c).nextLaunch = s.nextLaunch := rfl
@[simp] theorem State.setCore_images (s : State) (n : Nat) (c : Core) : (s.setCore n c).images = s.images := rfl
@[simp] theorem State.setCore_queues (s : State) (n : Nat) (c : Core) : (s.setCore n c).queues = s.queues := rfl
@[simp] theorem State.setCore_tenants (s : State) (n : Nat) (c : Core) : (s.setCore n c).tenants = s.tenants := rfl
@[simp] theorem State.setCore_roots (s : State) (n : Nat) (c : Core) : (s.setCore n c).roots = s.roots := rfl
@[simp] theorem State.setCore_formulas (s : State) (n : Nat) (c : Core) : (s.setCore n c).formulas = s.formulas := rfl
@[simp] theorem State.setCore_shadow (s : State) (n : Nat) (c : Core) : (s.setCore n c).shadow = s.shadow := rfl
@[simp] theorem State.setCore_shadowOf (s : State) (n : Nat) (c : Core) : (s.setCore n c).shadowOf = s.shadowOf := rfl
@[simp] theorem State.setCore_groupOf (s : State) (n : Nat) (c : Core) : (s.setCore n c).groupOf = s.groupOf := rfl
@[simp] theorem State.setCore_routes (s : State) (n : Nat) (c : Core) : (s.setCore n c).routes = s.routes := rfl
@[simp] theorem State.setCore_links (s : State) (n : Nat) (c : Core) : (s.setCore n c).links = s.links := rfl
@[simp] theorem State.setCore_classes (s : State) (n : Nat) (c : Core) : (s.setCore n c).classes = s.classes := rfl
@[simp] theorem State.setCore_keys (s : State) (n : Nat) (c : Core) : (s.setCore n c).keys = s.keys := rfl
@[simp] theorem State.setCore_hier (s : State) (n : Nat) (c : Core) : (s.setCore n c).hier = s.hier := rfl
@[simp] theorem State.setCore_breakpoints (s : State) (n : Nat) (c : Core) : (s.setCore n c).breakpoints = s.breakpoints := rfl
@[simp] theorem State.setCore_notices (s : State) (n : Nat) (c : Core) : (s.setCore n c).notices = s.notices := rfl
@[simp] theorem State.setCore_noticesLost (s : State) (n : Nat) (c : Core) : (s.setCore n c).noticesLost = s.noticesLost := rfl
@[simp] theorem State.setCore_discarded (s : State) (n : Nat) (c : Core) : (s.setCore n c).discarded = s.discarded := rfl
@[simp] theorem State.setCore_ageing (s : State) (n : Nat) (c : Core) : (s.setCore n c).ageing = s.ageing := rfl
@[simp] theorem State.setCore_eolhMin (s : State) (n : Nat) (c : Core) : (s.setCore n c).eolhMin = s.eolhMin := rfl
@[simp] theorem State.setCore_powerCap (s : State) (n : Nat) (c : Core) : (s.setCore n c).powerCap = s.powerCap := rfl
@[simp] theorem State.setCore_clock (s : State) (n : Nat) (c : Core) : (s.setCore n c).clock = s.clock := rfl
@[simp] theorem State.setCore_samples (s : State) (n : Nat) (c : Core) : (s.setCore n c).samples = s.samples := rfl
@[simp] theorem State.setCore_boot (s : State) (n : Nat) (c : Core) : (s.setCore n c).boot = s.boot := rfl
@[simp] theorem State.setCore_measured (s : State) (n : Nat) (c : Core) : (s.setCore n c).measured = s.measured := rfl
@[simp] theorem State.setCore_identity (s : State) (n : Nat) (c : Core) : (s.setCore n c).identity = s.identity := rfl
@[simp] theorem State.setCore_reports (s : State) (n : Nat) (c : Core) : (s.setCore n c).reports = s.reports := rfl
@[simp] theorem State.setCore_sensors (s : State) (n : Nat) (c : Core) : (s.setCore n c).sensors = s.sensors := rfl
@[simp] theorem State.setCore_commands (s : State) (n : Nat) (c : Core) : (s.setCore n c).commands = s.commands := rfl
@[simp] theorem State.setCore_ports (s : State) (n : Nat) (c : Core) : (s.setCore n c).ports = s.ports := rfl
@[simp] theorem State.setCore_hostGot (s : State) (n : Nat) (c : Core) : (s.setCore n c).hostGot = s.hostGot := rfl

/-! ### State.modCore -/

@[simp] theorem State.modCore_cc (s : State) (n : Nat) (f : Core → Core) : (s.modCore n f).cc = s.cc := rfl
@[simp] theorem State.modCore_device (s : State) (n : Nat) (f : Core → Core) : (s.modCore n f).device = s.device := rfl
@[simp] theorem State.modCore_tick (s : State) (n : Nat) (f : Core → Core) : (s.modCore n f).tick = s.tick := rfl
@[simp] theorem State.modCore_curCore (s : State) (n : Nat) (f : Core → Core) : (s.modCore n f).curCore = s.curCore := rfl
@[simp] theorem State.modCore_curSlot (s : State) (n : Nat) (f : Core → Core) : (s.modCore n f).curSlot = s.curSlot := rfl
@[simp] theorem State.modCore_issuing (s : State) (n : Nat) (f : Core → Core) : (s.modCore n f).issuing = s.issuing := rfl
@[simp] theorem State.modCore_lat (s : State) (n : Nat) (f : Core → Core) : (s.modCore n f).lat = s.lat := rfl
@[simp] theorem State.modCore_turns (s : State) (n : Nat) (f : Core → Core) : (s.modCore n f).turns = s.turns := rfl
@[simp] theorem State.modCore_inputs (s : State) (n : Nat) (f : Core → Core) : (s.modCore n f).inputs = s.inputs := rfl
@[simp] theorem State.modCore_clusters (s : State) (n : Nat) (f : Core → Core) : (s.modCore n f).clusters = s.clusters := rfl
@[simp] theorem State.modCore_mem (s : State) (n : Nat) (f : Core → Core) : (s.modCore n f).mem = s.mem := rfl
@[simp] theorem State.modCore_memEmpty (s : State) (n : Nat) (f : Core → Core) : (s.modCore n f).memEmpty = s.memEmpty := rfl
@[simp] theorem State.modCore_memPoison (s : State) (n : Nat) (f : Core → Core) : (s.modCore n f).memPoison = s.memPoison := rfl
@[simp] theorem State.modCore_waiters (s : State) (n : Nat) (f : Core → Core) : (s.modCore n f).waiters = s.waiters := rfl
@[simp] theorem State.modCore_packets (s : State) (n : Nat) (f : Core → Core) : (s.modCore n f).packets = s.packets := rfl
@[simp] theorem State.modCore_records (s : State) (n : Nat) (f : Core → Core) : (s.modCore n f).records = s.records := rfl
@[simp] theorem State.modCore_stgs (s : State) (n : Nat) (f : Core → Core) : (s.modCore n f).stgs = s.stgs := rfl
@[simp] theorem State.modCore_forwards (s : State) (n : Nat) (f : Core → Core) : (s.modCore n f).forwards = s.forwards := rfl
@[simp] theorem State.modCore_units (s : State) (n : Nat) (f : Core → Core) : (s.modCore n f).units = s.units := rfl
@[simp] theorem State.modCore_pieces (s : State) (n : Nat) (f : Core → Core) : (s.modCore n f).pieces = s.pieces := rfl
@[simp] theorem State.modCore_jobs (s : State) (n : Nat) (f : Core → Core) : (s.modCore n f).jobs = s.jobs := rfl
@[simp] theorem State.modCore_couples (s : State) (n : Nat) (f : Core → Core) : (s.modCore n f).couples = s.couples := rfl
@[simp] theorem State.modCore_rollbacks (s : State) (n : Nat) (f : Core → Core) : (s.modCore n f).rollbacks = s.rollbacks := rfl
@[simp] theorem State.modCore_launches (s : State) (n : Nat) (f : Core → Core) : (s.modCore n f).launches = s.launches := rfl
@[simp] theorem State.modCore_nextLaunch (s : State) (n : Nat) (f : Core → Core) : (s.modCore n f).nextLaunch = s.nextLaunch := rfl
@[simp] theorem State.modCore_images (s : State) (n : Nat) (f : Core → Core) : (s.modCore n f).images = s.images := rfl
@[simp] theorem State.modCore_queues (s : State) (n : Nat) (f : Core → Core) : (s.modCore n f).queues = s.queues := rfl
@[simp] theorem State.modCore_tenants (s : State) (n : Nat) (f : Core → Core) : (s.modCore n f).tenants = s.tenants := rfl
@[simp] theorem State.modCore_roots (s : State) (n : Nat) (f : Core → Core) : (s.modCore n f).roots = s.roots := rfl
@[simp] theorem State.modCore_formulas (s : State) (n : Nat) (f : Core → Core) : (s.modCore n f).formulas = s.formulas := rfl
@[simp] theorem State.modCore_shadow (s : State) (n : Nat) (f : Core → Core) : (s.modCore n f).shadow = s.shadow := rfl
@[simp] theorem State.modCore_shadowOf (s : State) (n : Nat) (f : Core → Core) : (s.modCore n f).shadowOf = s.shadowOf := rfl
@[simp] theorem State.modCore_groupOf (s : State) (n : Nat) (f : Core → Core) : (s.modCore n f).groupOf = s.groupOf := rfl
@[simp] theorem State.modCore_routes (s : State) (n : Nat) (f : Core → Core) : (s.modCore n f).routes = s.routes := rfl
@[simp] theorem State.modCore_links (s : State) (n : Nat) (f : Core → Core) : (s.modCore n f).links = s.links := rfl
@[simp] theorem State.modCore_classes (s : State) (n : Nat) (f : Core → Core) : (s.modCore n f).classes = s.classes := rfl
@[simp] theorem State.modCore_keys (s : State) (n : Nat) (f : Core → Core) : (s.modCore n f).keys = s.keys := rfl
@[simp] theorem State.modCore_hier (s : State) (n : Nat) (f : Core → Core) : (s.modCore n f).hier = s.hier := rfl
@[simp] theorem State.modCore_breakpoints (s : State) (n : Nat) (f : Core → Core) : (s.modCore n f).breakpoints = s.breakpoints := rfl
@[simp] theorem State.modCore_notices (s : State) (n : Nat) (f : Core → Core) : (s.modCore n f).notices = s.notices := rfl
@[simp] theorem State.modCore_noticesLost (s : State) (n : Nat) (f : Core → Core) : (s.modCore n f).noticesLost = s.noticesLost := rfl
@[simp] theorem State.modCore_discarded (s : State) (n : Nat) (f : Core → Core) : (s.modCore n f).discarded = s.discarded := rfl
@[simp] theorem State.modCore_ageing (s : State) (n : Nat) (f : Core → Core) : (s.modCore n f).ageing = s.ageing := rfl
@[simp] theorem State.modCore_eolhMin (s : State) (n : Nat) (f : Core → Core) : (s.modCore n f).eolhMin = s.eolhMin := rfl
@[simp] theorem State.modCore_powerCap (s : State) (n : Nat) (f : Core → Core) : (s.modCore n f).powerCap = s.powerCap := rfl
@[simp] theorem State.modCore_clock (s : State) (n : Nat) (f : Core → Core) : (s.modCore n f).clock = s.clock := rfl
@[simp] theorem State.modCore_samples (s : State) (n : Nat) (f : Core → Core) : (s.modCore n f).samples = s.samples := rfl
@[simp] theorem State.modCore_boot (s : State) (n : Nat) (f : Core → Core) : (s.modCore n f).boot = s.boot := rfl
@[simp] theorem State.modCore_measured (s : State) (n : Nat) (f : Core → Core) : (s.modCore n f).measured = s.measured := rfl
@[simp] theorem State.modCore_identity (s : State) (n : Nat) (f : Core → Core) : (s.modCore n f).identity = s.identity := rfl
@[simp] theorem State.modCore_reports (s : State) (n : Nat) (f : Core → Core) : (s.modCore n f).reports = s.reports := rfl
@[simp] theorem State.modCore_sensors (s : State) (n : Nat) (f : Core → Core) : (s.modCore n f).sensors = s.sensors := rfl
@[simp] theorem State.modCore_commands (s : State) (n : Nat) (f : Core → Core) : (s.modCore n f).commands = s.commands := rfl
@[simp] theorem State.modCore_ports (s : State) (n : Nat) (f : Core → Core) : (s.modCore n f).ports = s.ports := rfl
@[simp] theorem State.modCore_hostGot (s : State) (n : Nat) (f : Core → Core) : (s.modCore n f).hostGot = s.hostGot := rfl

/-! ### State.modSlot -/

@[simp] theorem State.modSlot_cc (s : State) (c k : Nat) (f : Slot → Slot) : (s.modSlot c k f).cc = s.cc := rfl
@[simp] theorem State.modSlot_device (s : State) (c k : Nat) (f : Slot → Slot) : (s.modSlot c k f).device = s.device := rfl
@[simp] theorem State.modSlot_tick (s : State) (c k : Nat) (f : Slot → Slot) : (s.modSlot c k f).tick = s.tick := rfl
@[simp] theorem State.modSlot_curCore (s : State) (c k : Nat) (f : Slot → Slot) : (s.modSlot c k f).curCore = s.curCore := rfl
@[simp] theorem State.modSlot_curSlot (s : State) (c k : Nat) (f : Slot → Slot) : (s.modSlot c k f).curSlot = s.curSlot := rfl
@[simp] theorem State.modSlot_issuing (s : State) (c k : Nat) (f : Slot → Slot) : (s.modSlot c k f).issuing = s.issuing := rfl
@[simp] theorem State.modSlot_lat (s : State) (c k : Nat) (f : Slot → Slot) : (s.modSlot c k f).lat = s.lat := rfl
@[simp] theorem State.modSlot_turns (s : State) (c k : Nat) (f : Slot → Slot) : (s.modSlot c k f).turns = s.turns := rfl
@[simp] theorem State.modSlot_inputs (s : State) (c k : Nat) (f : Slot → Slot) : (s.modSlot c k f).inputs = s.inputs := rfl
@[simp] theorem State.modSlot_clusters (s : State) (c k : Nat) (f : Slot → Slot) : (s.modSlot c k f).clusters = s.clusters := rfl
@[simp] theorem State.modSlot_mem (s : State) (c k : Nat) (f : Slot → Slot) : (s.modSlot c k f).mem = s.mem := rfl
@[simp] theorem State.modSlot_memEmpty (s : State) (c k : Nat) (f : Slot → Slot) : (s.modSlot c k f).memEmpty = s.memEmpty := rfl
@[simp] theorem State.modSlot_memPoison (s : State) (c k : Nat) (f : Slot → Slot) : (s.modSlot c k f).memPoison = s.memPoison := rfl
@[simp] theorem State.modSlot_waiters (s : State) (c k : Nat) (f : Slot → Slot) : (s.modSlot c k f).waiters = s.waiters := rfl
@[simp] theorem State.modSlot_packets (s : State) (c k : Nat) (f : Slot → Slot) : (s.modSlot c k f).packets = s.packets := rfl
@[simp] theorem State.modSlot_records (s : State) (c k : Nat) (f : Slot → Slot) : (s.modSlot c k f).records = s.records := rfl
@[simp] theorem State.modSlot_stgs (s : State) (c k : Nat) (f : Slot → Slot) : (s.modSlot c k f).stgs = s.stgs := rfl
@[simp] theorem State.modSlot_forwards (s : State) (c k : Nat) (f : Slot → Slot) : (s.modSlot c k f).forwards = s.forwards := rfl
@[simp] theorem State.modSlot_units (s : State) (c k : Nat) (f : Slot → Slot) : (s.modSlot c k f).units = s.units := rfl
@[simp] theorem State.modSlot_pieces (s : State) (c k : Nat) (f : Slot → Slot) : (s.modSlot c k f).pieces = s.pieces := rfl
@[simp] theorem State.modSlot_jobs (s : State) (c k : Nat) (f : Slot → Slot) : (s.modSlot c k f).jobs = s.jobs := rfl
@[simp] theorem State.modSlot_couples (s : State) (c k : Nat) (f : Slot → Slot) : (s.modSlot c k f).couples = s.couples := rfl
@[simp] theorem State.modSlot_rollbacks (s : State) (c k : Nat) (f : Slot → Slot) : (s.modSlot c k f).rollbacks = s.rollbacks := rfl
@[simp] theorem State.modSlot_launches (s : State) (c k : Nat) (f : Slot → Slot) : (s.modSlot c k f).launches = s.launches := rfl
@[simp] theorem State.modSlot_nextLaunch (s : State) (c k : Nat) (f : Slot → Slot) : (s.modSlot c k f).nextLaunch = s.nextLaunch := rfl
@[simp] theorem State.modSlot_images (s : State) (c k : Nat) (f : Slot → Slot) : (s.modSlot c k f).images = s.images := rfl
@[simp] theorem State.modSlot_queues (s : State) (c k : Nat) (f : Slot → Slot) : (s.modSlot c k f).queues = s.queues := rfl
@[simp] theorem State.modSlot_tenants (s : State) (c k : Nat) (f : Slot → Slot) : (s.modSlot c k f).tenants = s.tenants := rfl
@[simp] theorem State.modSlot_roots (s : State) (c k : Nat) (f : Slot → Slot) : (s.modSlot c k f).roots = s.roots := rfl
@[simp] theorem State.modSlot_formulas (s : State) (c k : Nat) (f : Slot → Slot) : (s.modSlot c k f).formulas = s.formulas := rfl
@[simp] theorem State.modSlot_shadow (s : State) (c k : Nat) (f : Slot → Slot) : (s.modSlot c k f).shadow = s.shadow := rfl
@[simp] theorem State.modSlot_shadowOf (s : State) (c k : Nat) (f : Slot → Slot) : (s.modSlot c k f).shadowOf = s.shadowOf := rfl
@[simp] theorem State.modSlot_groupOf (s : State) (c k : Nat) (f : Slot → Slot) : (s.modSlot c k f).groupOf = s.groupOf := rfl
@[simp] theorem State.modSlot_routes (s : State) (c k : Nat) (f : Slot → Slot) : (s.modSlot c k f).routes = s.routes := rfl
@[simp] theorem State.modSlot_links (s : State) (c k : Nat) (f : Slot → Slot) : (s.modSlot c k f).links = s.links := rfl
@[simp] theorem State.modSlot_classes (s : State) (c k : Nat) (f : Slot → Slot) : (s.modSlot c k f).classes = s.classes := rfl
@[simp] theorem State.modSlot_keys (s : State) (c k : Nat) (f : Slot → Slot) : (s.modSlot c k f).keys = s.keys := rfl
@[simp] theorem State.modSlot_hier (s : State) (c k : Nat) (f : Slot → Slot) : (s.modSlot c k f).hier = s.hier := rfl
@[simp] theorem State.modSlot_breakpoints (s : State) (c k : Nat) (f : Slot → Slot) : (s.modSlot c k f).breakpoints = s.breakpoints := rfl
@[simp] theorem State.modSlot_notices (s : State) (c k : Nat) (f : Slot → Slot) : (s.modSlot c k f).notices = s.notices := rfl
@[simp] theorem State.modSlot_noticesLost (s : State) (c k : Nat) (f : Slot → Slot) : (s.modSlot c k f).noticesLost = s.noticesLost := rfl
@[simp] theorem State.modSlot_discarded (s : State) (c k : Nat) (f : Slot → Slot) : (s.modSlot c k f).discarded = s.discarded := rfl
@[simp] theorem State.modSlot_ageing (s : State) (c k : Nat) (f : Slot → Slot) : (s.modSlot c k f).ageing = s.ageing := rfl
@[simp] theorem State.modSlot_eolhMin (s : State) (c k : Nat) (f : Slot → Slot) : (s.modSlot c k f).eolhMin = s.eolhMin := rfl
@[simp] theorem State.modSlot_powerCap (s : State) (c k : Nat) (f : Slot → Slot) : (s.modSlot c k f).powerCap = s.powerCap := rfl
@[simp] theorem State.modSlot_clock (s : State) (c k : Nat) (f : Slot → Slot) : (s.modSlot c k f).clock = s.clock := rfl
@[simp] theorem State.modSlot_samples (s : State) (c k : Nat) (f : Slot → Slot) : (s.modSlot c k f).samples = s.samples := rfl
@[simp] theorem State.modSlot_boot (s : State) (c k : Nat) (f : Slot → Slot) : (s.modSlot c k f).boot = s.boot := rfl
@[simp] theorem State.modSlot_measured (s : State) (c k : Nat) (f : Slot → Slot) : (s.modSlot c k f).measured = s.measured := rfl
@[simp] theorem State.modSlot_identity (s : State) (c k : Nat) (f : Slot → Slot) : (s.modSlot c k f).identity = s.identity := rfl
@[simp] theorem State.modSlot_reports (s : State) (c k : Nat) (f : Slot → Slot) : (s.modSlot c k f).reports = s.reports := rfl
@[simp] theorem State.modSlot_sensors (s : State) (c k : Nat) (f : Slot → Slot) : (s.modSlot c k f).sensors = s.sensors := rfl
@[simp] theorem State.modSlot_commands (s : State) (c k : Nat) (f : Slot → Slot) : (s.modSlot c k f).commands = s.commands := rfl
@[simp] theorem State.modSlot_ports (s : State) (c k : Nat) (f : Slot → Slot) : (s.modSlot c k f).ports = s.ports := rfl
@[simp] theorem State.modSlot_hostGot (s : State) (c k : Nat) (f : Slot → Slot) : (s.modSlot c k f).hostGot = s.hostGot := rfl

/-! ### State.modCur -/

@[simp] theorem State.modCur_cc (s : State) (f : Slot → Slot) : (s.modCur f).cc = s.cc := rfl
@[simp] theorem State.modCur_device (s : State) (f : Slot → Slot) : (s.modCur f).device = s.device := rfl
@[simp] theorem State.modCur_tick (s : State) (f : Slot → Slot) : (s.modCur f).tick = s.tick := rfl
@[simp] theorem State.modCur_curCore (s : State) (f : Slot → Slot) : (s.modCur f).curCore = s.curCore := rfl
@[simp] theorem State.modCur_curSlot (s : State) (f : Slot → Slot) : (s.modCur f).curSlot = s.curSlot := rfl
@[simp] theorem State.modCur_issuing (s : State) (f : Slot → Slot) : (s.modCur f).issuing = s.issuing := rfl
@[simp] theorem State.modCur_lat (s : State) (f : Slot → Slot) : (s.modCur f).lat = s.lat := rfl
@[simp] theorem State.modCur_turns (s : State) (f : Slot → Slot) : (s.modCur f).turns = s.turns := rfl
@[simp] theorem State.modCur_inputs (s : State) (f : Slot → Slot) : (s.modCur f).inputs = s.inputs := rfl
@[simp] theorem State.modCur_clusters (s : State) (f : Slot → Slot) : (s.modCur f).clusters = s.clusters := rfl
@[simp] theorem State.modCur_mem (s : State) (f : Slot → Slot) : (s.modCur f).mem = s.mem := rfl
@[simp] theorem State.modCur_memEmpty (s : State) (f : Slot → Slot) : (s.modCur f).memEmpty = s.memEmpty := rfl
@[simp] theorem State.modCur_memPoison (s : State) (f : Slot → Slot) : (s.modCur f).memPoison = s.memPoison := rfl
@[simp] theorem State.modCur_waiters (s : State) (f : Slot → Slot) : (s.modCur f).waiters = s.waiters := rfl
@[simp] theorem State.modCur_packets (s : State) (f : Slot → Slot) : (s.modCur f).packets = s.packets := rfl
@[simp] theorem State.modCur_records (s : State) (f : Slot → Slot) : (s.modCur f).records = s.records := rfl
@[simp] theorem State.modCur_stgs (s : State) (f : Slot → Slot) : (s.modCur f).stgs = s.stgs := rfl
@[simp] theorem State.modCur_forwards (s : State) (f : Slot → Slot) : (s.modCur f).forwards = s.forwards := rfl
@[simp] theorem State.modCur_units (s : State) (f : Slot → Slot) : (s.modCur f).units = s.units := rfl
@[simp] theorem State.modCur_pieces (s : State) (f : Slot → Slot) : (s.modCur f).pieces = s.pieces := rfl
@[simp] theorem State.modCur_jobs (s : State) (f : Slot → Slot) : (s.modCur f).jobs = s.jobs := rfl
@[simp] theorem State.modCur_couples (s : State) (f : Slot → Slot) : (s.modCur f).couples = s.couples := rfl
@[simp] theorem State.modCur_rollbacks (s : State) (f : Slot → Slot) : (s.modCur f).rollbacks = s.rollbacks := rfl
@[simp] theorem State.modCur_launches (s : State) (f : Slot → Slot) : (s.modCur f).launches = s.launches := rfl
@[simp] theorem State.modCur_nextLaunch (s : State) (f : Slot → Slot) : (s.modCur f).nextLaunch = s.nextLaunch := rfl
@[simp] theorem State.modCur_images (s : State) (f : Slot → Slot) : (s.modCur f).images = s.images := rfl
@[simp] theorem State.modCur_queues (s : State) (f : Slot → Slot) : (s.modCur f).queues = s.queues := rfl
@[simp] theorem State.modCur_tenants (s : State) (f : Slot → Slot) : (s.modCur f).tenants = s.tenants := rfl
@[simp] theorem State.modCur_roots (s : State) (f : Slot → Slot) : (s.modCur f).roots = s.roots := rfl
@[simp] theorem State.modCur_formulas (s : State) (f : Slot → Slot) : (s.modCur f).formulas = s.formulas := rfl
@[simp] theorem State.modCur_shadow (s : State) (f : Slot → Slot) : (s.modCur f).shadow = s.shadow := rfl
@[simp] theorem State.modCur_shadowOf (s : State) (f : Slot → Slot) : (s.modCur f).shadowOf = s.shadowOf := rfl
@[simp] theorem State.modCur_groupOf (s : State) (f : Slot → Slot) : (s.modCur f).groupOf = s.groupOf := rfl
@[simp] theorem State.modCur_routes (s : State) (f : Slot → Slot) : (s.modCur f).routes = s.routes := rfl
@[simp] theorem State.modCur_links (s : State) (f : Slot → Slot) : (s.modCur f).links = s.links := rfl
@[simp] theorem State.modCur_classes (s : State) (f : Slot → Slot) : (s.modCur f).classes = s.classes := rfl
@[simp] theorem State.modCur_keys (s : State) (f : Slot → Slot) : (s.modCur f).keys = s.keys := rfl
@[simp] theorem State.modCur_hier (s : State) (f : Slot → Slot) : (s.modCur f).hier = s.hier := rfl
@[simp] theorem State.modCur_breakpoints (s : State) (f : Slot → Slot) : (s.modCur f).breakpoints = s.breakpoints := rfl
@[simp] theorem State.modCur_notices (s : State) (f : Slot → Slot) : (s.modCur f).notices = s.notices := rfl
@[simp] theorem State.modCur_noticesLost (s : State) (f : Slot → Slot) : (s.modCur f).noticesLost = s.noticesLost := rfl
@[simp] theorem State.modCur_discarded (s : State) (f : Slot → Slot) : (s.modCur f).discarded = s.discarded := rfl
@[simp] theorem State.modCur_ageing (s : State) (f : Slot → Slot) : (s.modCur f).ageing = s.ageing := rfl
@[simp] theorem State.modCur_eolhMin (s : State) (f : Slot → Slot) : (s.modCur f).eolhMin = s.eolhMin := rfl
@[simp] theorem State.modCur_powerCap (s : State) (f : Slot → Slot) : (s.modCur f).powerCap = s.powerCap := rfl
@[simp] theorem State.modCur_clock (s : State) (f : Slot → Slot) : (s.modCur f).clock = s.clock := rfl
@[simp] theorem State.modCur_samples (s : State) (f : Slot → Slot) : (s.modCur f).samples = s.samples := rfl
@[simp] theorem State.modCur_boot (s : State) (f : Slot → Slot) : (s.modCur f).boot = s.boot := rfl
@[simp] theorem State.modCur_measured (s : State) (f : Slot → Slot) : (s.modCur f).measured = s.measured := rfl
@[simp] theorem State.modCur_identity (s : State) (f : Slot → Slot) : (s.modCur f).identity = s.identity := rfl
@[simp] theorem State.modCur_reports (s : State) (f : Slot → Slot) : (s.modCur f).reports = s.reports := rfl
@[simp] theorem State.modCur_sensors (s : State) (f : Slot → Slot) : (s.modCur f).sensors = s.sensors := rfl
@[simp] theorem State.modCur_commands (s : State) (f : Slot → Slot) : (s.modCur f).commands = s.commands := rfl
@[simp] theorem State.modCur_ports (s : State) (f : Slot → Slot) : (s.modCur f).ports = s.ports := rfl
@[simp] theorem State.modCur_hostGot (s : State) (f : Slot → Slot) : (s.modCur f).hostGot = s.hostGot := rfl

/-! ### State.modHere -/

@[simp] theorem State.modHere_cc (s : State) (f : Core → Core) : (s.modHere f).cc = s.cc := rfl
@[simp] theorem State.modHere_device (s : State) (f : Core → Core) : (s.modHere f).device = s.device := rfl
@[simp] theorem State.modHere_tick (s : State) (f : Core → Core) : (s.modHere f).tick = s.tick := rfl
@[simp] theorem State.modHere_curCore (s : State) (f : Core → Core) : (s.modHere f).curCore = s.curCore := rfl
@[simp] theorem State.modHere_curSlot (s : State) (f : Core → Core) : (s.modHere f).curSlot = s.curSlot := rfl
@[simp] theorem State.modHere_issuing (s : State) (f : Core → Core) : (s.modHere f).issuing = s.issuing := rfl
@[simp] theorem State.modHere_lat (s : State) (f : Core → Core) : (s.modHere f).lat = s.lat := rfl
@[simp] theorem State.modHere_turns (s : State) (f : Core → Core) : (s.modHere f).turns = s.turns := rfl
@[simp] theorem State.modHere_inputs (s : State) (f : Core → Core) : (s.modHere f).inputs = s.inputs := rfl
@[simp] theorem State.modHere_clusters (s : State) (f : Core → Core) : (s.modHere f).clusters = s.clusters := rfl
@[simp] theorem State.modHere_mem (s : State) (f : Core → Core) : (s.modHere f).mem = s.mem := rfl
@[simp] theorem State.modHere_memEmpty (s : State) (f : Core → Core) : (s.modHere f).memEmpty = s.memEmpty := rfl
@[simp] theorem State.modHere_memPoison (s : State) (f : Core → Core) : (s.modHere f).memPoison = s.memPoison := rfl
@[simp] theorem State.modHere_waiters (s : State) (f : Core → Core) : (s.modHere f).waiters = s.waiters := rfl
@[simp] theorem State.modHere_packets (s : State) (f : Core → Core) : (s.modHere f).packets = s.packets := rfl
@[simp] theorem State.modHere_records (s : State) (f : Core → Core) : (s.modHere f).records = s.records := rfl
@[simp] theorem State.modHere_stgs (s : State) (f : Core → Core) : (s.modHere f).stgs = s.stgs := rfl
@[simp] theorem State.modHere_forwards (s : State) (f : Core → Core) : (s.modHere f).forwards = s.forwards := rfl
@[simp] theorem State.modHere_units (s : State) (f : Core → Core) : (s.modHere f).units = s.units := rfl
@[simp] theorem State.modHere_pieces (s : State) (f : Core → Core) : (s.modHere f).pieces = s.pieces := rfl
@[simp] theorem State.modHere_jobs (s : State) (f : Core → Core) : (s.modHere f).jobs = s.jobs := rfl
@[simp] theorem State.modHere_couples (s : State) (f : Core → Core) : (s.modHere f).couples = s.couples := rfl
@[simp] theorem State.modHere_rollbacks (s : State) (f : Core → Core) : (s.modHere f).rollbacks = s.rollbacks := rfl
@[simp] theorem State.modHere_launches (s : State) (f : Core → Core) : (s.modHere f).launches = s.launches := rfl
@[simp] theorem State.modHere_nextLaunch (s : State) (f : Core → Core) : (s.modHere f).nextLaunch = s.nextLaunch := rfl
@[simp] theorem State.modHere_images (s : State) (f : Core → Core) : (s.modHere f).images = s.images := rfl
@[simp] theorem State.modHere_queues (s : State) (f : Core → Core) : (s.modHere f).queues = s.queues := rfl
@[simp] theorem State.modHere_tenants (s : State) (f : Core → Core) : (s.modHere f).tenants = s.tenants := rfl
@[simp] theorem State.modHere_roots (s : State) (f : Core → Core) : (s.modHere f).roots = s.roots := rfl
@[simp] theorem State.modHere_formulas (s : State) (f : Core → Core) : (s.modHere f).formulas = s.formulas := rfl
@[simp] theorem State.modHere_shadow (s : State) (f : Core → Core) : (s.modHere f).shadow = s.shadow := rfl
@[simp] theorem State.modHere_shadowOf (s : State) (f : Core → Core) : (s.modHere f).shadowOf = s.shadowOf := rfl
@[simp] theorem State.modHere_groupOf (s : State) (f : Core → Core) : (s.modHere f).groupOf = s.groupOf := rfl
@[simp] theorem State.modHere_routes (s : State) (f : Core → Core) : (s.modHere f).routes = s.routes := rfl
@[simp] theorem State.modHere_links (s : State) (f : Core → Core) : (s.modHere f).links = s.links := rfl
@[simp] theorem State.modHere_classes (s : State) (f : Core → Core) : (s.modHere f).classes = s.classes := rfl
@[simp] theorem State.modHere_keys (s : State) (f : Core → Core) : (s.modHere f).keys = s.keys := rfl
@[simp] theorem State.modHere_hier (s : State) (f : Core → Core) : (s.modHere f).hier = s.hier := rfl
@[simp] theorem State.modHere_breakpoints (s : State) (f : Core → Core) : (s.modHere f).breakpoints = s.breakpoints := rfl
@[simp] theorem State.modHere_notices (s : State) (f : Core → Core) : (s.modHere f).notices = s.notices := rfl
@[simp] theorem State.modHere_noticesLost (s : State) (f : Core → Core) : (s.modHere f).noticesLost = s.noticesLost := rfl
@[simp] theorem State.modHere_discarded (s : State) (f : Core → Core) : (s.modHere f).discarded = s.discarded := rfl
@[simp] theorem State.modHere_ageing (s : State) (f : Core → Core) : (s.modHere f).ageing = s.ageing := rfl
@[simp] theorem State.modHere_eolhMin (s : State) (f : Core → Core) : (s.modHere f).eolhMin = s.eolhMin := rfl
@[simp] theorem State.modHere_powerCap (s : State) (f : Core → Core) : (s.modHere f).powerCap = s.powerCap := rfl
@[simp] theorem State.modHere_clock (s : State) (f : Core → Core) : (s.modHere f).clock = s.clock := rfl
@[simp] theorem State.modHere_samples (s : State) (f : Core → Core) : (s.modHere f).samples = s.samples := rfl
@[simp] theorem State.modHere_boot (s : State) (f : Core → Core) : (s.modHere f).boot = s.boot := rfl
@[simp] theorem State.modHere_measured (s : State) (f : Core → Core) : (s.modHere f).measured = s.measured := rfl
@[simp] theorem State.modHere_identity (s : State) (f : Core → Core) : (s.modHere f).identity = s.identity := rfl
@[simp] theorem State.modHere_reports (s : State) (f : Core → Core) : (s.modHere f).reports = s.reports := rfl
@[simp] theorem State.modHere_sensors (s : State) (f : Core → Core) : (s.modHere f).sensors = s.sensors := rfl
@[simp] theorem State.modHere_commands (s : State) (f : Core → Core) : (s.modHere f).commands = s.commands := rfl
@[simp] theorem State.modHere_ports (s : State) (f : Core → Core) : (s.modHere f).ports = s.ports := rfl
@[simp] theorem State.modHere_hostGot (s : State) (f : Core → Core) : (s.modHere f).hostGot = s.hostGot := rfl

/-! ### State.modCluster -/

@[simp] theorem State.modCluster_cc (s : State) (n : Nat) (f : Cluster → Cluster) : (s.modCluster n f).cc = s.cc := rfl
@[simp] theorem State.modCluster_device (s : State) (n : Nat) (f : Cluster → Cluster) : (s.modCluster n f).device = s.device := rfl
@[simp] theorem State.modCluster_tick (s : State) (n : Nat) (f : Cluster → Cluster) : (s.modCluster n f).tick = s.tick := rfl
@[simp] theorem State.modCluster_curCore (s : State) (n : Nat) (f : Cluster → Cluster) : (s.modCluster n f).curCore = s.curCore := rfl
@[simp] theorem State.modCluster_curSlot (s : State) (n : Nat) (f : Cluster → Cluster) : (s.modCluster n f).curSlot = s.curSlot := rfl
@[simp] theorem State.modCluster_issuing (s : State) (n : Nat) (f : Cluster → Cluster) : (s.modCluster n f).issuing = s.issuing := rfl
@[simp] theorem State.modCluster_lat (s : State) (n : Nat) (f : Cluster → Cluster) : (s.modCluster n f).lat = s.lat := rfl
@[simp] theorem State.modCluster_turns (s : State) (n : Nat) (f : Cluster → Cluster) : (s.modCluster n f).turns = s.turns := rfl
@[simp] theorem State.modCluster_inputs (s : State) (n : Nat) (f : Cluster → Cluster) : (s.modCluster n f).inputs = s.inputs := rfl
@[simp] theorem State.modCluster_cores (s : State) (n : Nat) (f : Cluster → Cluster) : (s.modCluster n f).cores = s.cores := rfl
@[simp] theorem State.modCluster_mem (s : State) (n : Nat) (f : Cluster → Cluster) : (s.modCluster n f).mem = s.mem := rfl
@[simp] theorem State.modCluster_memEmpty (s : State) (n : Nat) (f : Cluster → Cluster) : (s.modCluster n f).memEmpty = s.memEmpty := rfl
@[simp] theorem State.modCluster_memPoison (s : State) (n : Nat) (f : Cluster → Cluster) : (s.modCluster n f).memPoison = s.memPoison := rfl
@[simp] theorem State.modCluster_waiters (s : State) (n : Nat) (f : Cluster → Cluster) : (s.modCluster n f).waiters = s.waiters := rfl
@[simp] theorem State.modCluster_packets (s : State) (n : Nat) (f : Cluster → Cluster) : (s.modCluster n f).packets = s.packets := rfl
@[simp] theorem State.modCluster_records (s : State) (n : Nat) (f : Cluster → Cluster) : (s.modCluster n f).records = s.records := rfl
@[simp] theorem State.modCluster_stgs (s : State) (n : Nat) (f : Cluster → Cluster) : (s.modCluster n f).stgs = s.stgs := rfl
@[simp] theorem State.modCluster_forwards (s : State) (n : Nat) (f : Cluster → Cluster) : (s.modCluster n f).forwards = s.forwards := rfl
@[simp] theorem State.modCluster_units (s : State) (n : Nat) (f : Cluster → Cluster) : (s.modCluster n f).units = s.units := rfl
@[simp] theorem State.modCluster_pieces (s : State) (n : Nat) (f : Cluster → Cluster) : (s.modCluster n f).pieces = s.pieces := rfl
@[simp] theorem State.modCluster_jobs (s : State) (n : Nat) (f : Cluster → Cluster) : (s.modCluster n f).jobs = s.jobs := rfl
@[simp] theorem State.modCluster_couples (s : State) (n : Nat) (f : Cluster → Cluster) : (s.modCluster n f).couples = s.couples := rfl
@[simp] theorem State.modCluster_rollbacks (s : State) (n : Nat) (f : Cluster → Cluster) : (s.modCluster n f).rollbacks = s.rollbacks := rfl
@[simp] theorem State.modCluster_launches (s : State) (n : Nat) (f : Cluster → Cluster) : (s.modCluster n f).launches = s.launches := rfl
@[simp] theorem State.modCluster_nextLaunch (s : State) (n : Nat) (f : Cluster → Cluster) : (s.modCluster n f).nextLaunch = s.nextLaunch := rfl
@[simp] theorem State.modCluster_images (s : State) (n : Nat) (f : Cluster → Cluster) : (s.modCluster n f).images = s.images := rfl
@[simp] theorem State.modCluster_queues (s : State) (n : Nat) (f : Cluster → Cluster) : (s.modCluster n f).queues = s.queues := rfl
@[simp] theorem State.modCluster_tenants (s : State) (n : Nat) (f : Cluster → Cluster) : (s.modCluster n f).tenants = s.tenants := rfl
@[simp] theorem State.modCluster_roots (s : State) (n : Nat) (f : Cluster → Cluster) : (s.modCluster n f).roots = s.roots := rfl
@[simp] theorem State.modCluster_formulas (s : State) (n : Nat) (f : Cluster → Cluster) : (s.modCluster n f).formulas = s.formulas := rfl
@[simp] theorem State.modCluster_shadow (s : State) (n : Nat) (f : Cluster → Cluster) : (s.modCluster n f).shadow = s.shadow := rfl
@[simp] theorem State.modCluster_shadowOf (s : State) (n : Nat) (f : Cluster → Cluster) : (s.modCluster n f).shadowOf = s.shadowOf := rfl
@[simp] theorem State.modCluster_groupOf (s : State) (n : Nat) (f : Cluster → Cluster) : (s.modCluster n f).groupOf = s.groupOf := rfl
@[simp] theorem State.modCluster_routes (s : State) (n : Nat) (f : Cluster → Cluster) : (s.modCluster n f).routes = s.routes := rfl
@[simp] theorem State.modCluster_links (s : State) (n : Nat) (f : Cluster → Cluster) : (s.modCluster n f).links = s.links := rfl
@[simp] theorem State.modCluster_classes (s : State) (n : Nat) (f : Cluster → Cluster) : (s.modCluster n f).classes = s.classes := rfl
@[simp] theorem State.modCluster_keys (s : State) (n : Nat) (f : Cluster → Cluster) : (s.modCluster n f).keys = s.keys := rfl
@[simp] theorem State.modCluster_hier (s : State) (n : Nat) (f : Cluster → Cluster) : (s.modCluster n f).hier = s.hier := rfl
@[simp] theorem State.modCluster_breakpoints (s : State) (n : Nat) (f : Cluster → Cluster) : (s.modCluster n f).breakpoints = s.breakpoints := rfl
@[simp] theorem State.modCluster_notices (s : State) (n : Nat) (f : Cluster → Cluster) : (s.modCluster n f).notices = s.notices := rfl
@[simp] theorem State.modCluster_noticesLost (s : State) (n : Nat) (f : Cluster → Cluster) : (s.modCluster n f).noticesLost = s.noticesLost := rfl
@[simp] theorem State.modCluster_discarded (s : State) (n : Nat) (f : Cluster → Cluster) : (s.modCluster n f).discarded = s.discarded := rfl
@[simp] theorem State.modCluster_ageing (s : State) (n : Nat) (f : Cluster → Cluster) : (s.modCluster n f).ageing = s.ageing := rfl
@[simp] theorem State.modCluster_eolhMin (s : State) (n : Nat) (f : Cluster → Cluster) : (s.modCluster n f).eolhMin = s.eolhMin := rfl
@[simp] theorem State.modCluster_powerCap (s : State) (n : Nat) (f : Cluster → Cluster) : (s.modCluster n f).powerCap = s.powerCap := rfl
@[simp] theorem State.modCluster_clock (s : State) (n : Nat) (f : Cluster → Cluster) : (s.modCluster n f).clock = s.clock := rfl
@[simp] theorem State.modCluster_samples (s : State) (n : Nat) (f : Cluster → Cluster) : (s.modCluster n f).samples = s.samples := rfl
@[simp] theorem State.modCluster_boot (s : State) (n : Nat) (f : Cluster → Cluster) : (s.modCluster n f).boot = s.boot := rfl
@[simp] theorem State.modCluster_measured (s : State) (n : Nat) (f : Cluster → Cluster) : (s.modCluster n f).measured = s.measured := rfl
@[simp] theorem State.modCluster_identity (s : State) (n : Nat) (f : Cluster → Cluster) : (s.modCluster n f).identity = s.identity := rfl
@[simp] theorem State.modCluster_reports (s : State) (n : Nat) (f : Cluster → Cluster) : (s.modCluster n f).reports = s.reports := rfl
@[simp] theorem State.modCluster_sensors (s : State) (n : Nat) (f : Cluster → Cluster) : (s.modCluster n f).sensors = s.sensors := rfl
@[simp] theorem State.modCluster_commands (s : State) (n : Nat) (f : Cluster → Cluster) : (s.modCluster n f).commands = s.commands := rfl
@[simp] theorem State.modCluster_ports (s : State) (n : Nat) (f : Cluster → Cluster) : (s.modCluster n f).ports = s.ports := rfl
@[simp] theorem State.modCluster_hostGot (s : State) (n : Nat) (f : Cluster → Cluster) : (s.modCluster n f).hostGot = s.hostGot := rfl

/-! ### State.modLaunch -/

@[simp] theorem State.modLaunch_cc (s : State) (id : Nat) (f : Launch → Launch) : (s.modLaunch id f).cc = s.cc := rfl
@[simp] theorem State.modLaunch_device (s : State) (id : Nat) (f : Launch → Launch) : (s.modLaunch id f).device = s.device := rfl
@[simp] theorem State.modLaunch_tick (s : State) (id : Nat) (f : Launch → Launch) : (s.modLaunch id f).tick = s.tick := rfl
@[simp] theorem State.modLaunch_curCore (s : State) (id : Nat) (f : Launch → Launch) : (s.modLaunch id f).curCore = s.curCore := rfl
@[simp] theorem State.modLaunch_curSlot (s : State) (id : Nat) (f : Launch → Launch) : (s.modLaunch id f).curSlot = s.curSlot := rfl
@[simp] theorem State.modLaunch_issuing (s : State) (id : Nat) (f : Launch → Launch) : (s.modLaunch id f).issuing = s.issuing := rfl
@[simp] theorem State.modLaunch_lat (s : State) (id : Nat) (f : Launch → Launch) : (s.modLaunch id f).lat = s.lat := rfl
@[simp] theorem State.modLaunch_turns (s : State) (id : Nat) (f : Launch → Launch) : (s.modLaunch id f).turns = s.turns := rfl
@[simp] theorem State.modLaunch_inputs (s : State) (id : Nat) (f : Launch → Launch) : (s.modLaunch id f).inputs = s.inputs := rfl
@[simp] theorem State.modLaunch_cores (s : State) (id : Nat) (f : Launch → Launch) : (s.modLaunch id f).cores = s.cores := rfl
@[simp] theorem State.modLaunch_clusters (s : State) (id : Nat) (f : Launch → Launch) : (s.modLaunch id f).clusters = s.clusters := rfl
@[simp] theorem State.modLaunch_mem (s : State) (id : Nat) (f : Launch → Launch) : (s.modLaunch id f).mem = s.mem := rfl
@[simp] theorem State.modLaunch_memEmpty (s : State) (id : Nat) (f : Launch → Launch) : (s.modLaunch id f).memEmpty = s.memEmpty := rfl
@[simp] theorem State.modLaunch_memPoison (s : State) (id : Nat) (f : Launch → Launch) : (s.modLaunch id f).memPoison = s.memPoison := rfl
@[simp] theorem State.modLaunch_waiters (s : State) (id : Nat) (f : Launch → Launch) : (s.modLaunch id f).waiters = s.waiters := rfl
@[simp] theorem State.modLaunch_packets (s : State) (id : Nat) (f : Launch → Launch) : (s.modLaunch id f).packets = s.packets := rfl
@[simp] theorem State.modLaunch_records (s : State) (id : Nat) (f : Launch → Launch) : (s.modLaunch id f).records = s.records := rfl
@[simp] theorem State.modLaunch_stgs (s : State) (id : Nat) (f : Launch → Launch) : (s.modLaunch id f).stgs = s.stgs := rfl
@[simp] theorem State.modLaunch_forwards (s : State) (id : Nat) (f : Launch → Launch) : (s.modLaunch id f).forwards = s.forwards := rfl
@[simp] theorem State.modLaunch_units (s : State) (id : Nat) (f : Launch → Launch) : (s.modLaunch id f).units = s.units := rfl
@[simp] theorem State.modLaunch_pieces (s : State) (id : Nat) (f : Launch → Launch) : (s.modLaunch id f).pieces = s.pieces := rfl
@[simp] theorem State.modLaunch_jobs (s : State) (id : Nat) (f : Launch → Launch) : (s.modLaunch id f).jobs = s.jobs := rfl
@[simp] theorem State.modLaunch_couples (s : State) (id : Nat) (f : Launch → Launch) : (s.modLaunch id f).couples = s.couples := rfl
@[simp] theorem State.modLaunch_rollbacks (s : State) (id : Nat) (f : Launch → Launch) : (s.modLaunch id f).rollbacks = s.rollbacks := rfl
@[simp] theorem State.modLaunch_nextLaunch (s : State) (id : Nat) (f : Launch → Launch) : (s.modLaunch id f).nextLaunch = s.nextLaunch := rfl
@[simp] theorem State.modLaunch_images (s : State) (id : Nat) (f : Launch → Launch) : (s.modLaunch id f).images = s.images := rfl
@[simp] theorem State.modLaunch_queues (s : State) (id : Nat) (f : Launch → Launch) : (s.modLaunch id f).queues = s.queues := rfl
@[simp] theorem State.modLaunch_tenants (s : State) (id : Nat) (f : Launch → Launch) : (s.modLaunch id f).tenants = s.tenants := rfl
@[simp] theorem State.modLaunch_roots (s : State) (id : Nat) (f : Launch → Launch) : (s.modLaunch id f).roots = s.roots := rfl
@[simp] theorem State.modLaunch_formulas (s : State) (id : Nat) (f : Launch → Launch) : (s.modLaunch id f).formulas = s.formulas := rfl
@[simp] theorem State.modLaunch_shadow (s : State) (id : Nat) (f : Launch → Launch) : (s.modLaunch id f).shadow = s.shadow := rfl
@[simp] theorem State.modLaunch_shadowOf (s : State) (id : Nat) (f : Launch → Launch) : (s.modLaunch id f).shadowOf = s.shadowOf := rfl
@[simp] theorem State.modLaunch_groupOf (s : State) (id : Nat) (f : Launch → Launch) : (s.modLaunch id f).groupOf = s.groupOf := rfl
@[simp] theorem State.modLaunch_routes (s : State) (id : Nat) (f : Launch → Launch) : (s.modLaunch id f).routes = s.routes := rfl
@[simp] theorem State.modLaunch_links (s : State) (id : Nat) (f : Launch → Launch) : (s.modLaunch id f).links = s.links := rfl
@[simp] theorem State.modLaunch_classes (s : State) (id : Nat) (f : Launch → Launch) : (s.modLaunch id f).classes = s.classes := rfl
@[simp] theorem State.modLaunch_keys (s : State) (id : Nat) (f : Launch → Launch) : (s.modLaunch id f).keys = s.keys := rfl
@[simp] theorem State.modLaunch_hier (s : State) (id : Nat) (f : Launch → Launch) : (s.modLaunch id f).hier = s.hier := rfl
@[simp] theorem State.modLaunch_breakpoints (s : State) (id : Nat) (f : Launch → Launch) : (s.modLaunch id f).breakpoints = s.breakpoints := rfl
@[simp] theorem State.modLaunch_notices (s : State) (id : Nat) (f : Launch → Launch) : (s.modLaunch id f).notices = s.notices := rfl
@[simp] theorem State.modLaunch_noticesLost (s : State) (id : Nat) (f : Launch → Launch) : (s.modLaunch id f).noticesLost = s.noticesLost := rfl
@[simp] theorem State.modLaunch_discarded (s : State) (id : Nat) (f : Launch → Launch) : (s.modLaunch id f).discarded = s.discarded := rfl
@[simp] theorem State.modLaunch_ageing (s : State) (id : Nat) (f : Launch → Launch) : (s.modLaunch id f).ageing = s.ageing := rfl
@[simp] theorem State.modLaunch_eolhMin (s : State) (id : Nat) (f : Launch → Launch) : (s.modLaunch id f).eolhMin = s.eolhMin := rfl
@[simp] theorem State.modLaunch_powerCap (s : State) (id : Nat) (f : Launch → Launch) : (s.modLaunch id f).powerCap = s.powerCap := rfl
@[simp] theorem State.modLaunch_clock (s : State) (id : Nat) (f : Launch → Launch) : (s.modLaunch id f).clock = s.clock := rfl
@[simp] theorem State.modLaunch_samples (s : State) (id : Nat) (f : Launch → Launch) : (s.modLaunch id f).samples = s.samples := rfl
@[simp] theorem State.modLaunch_boot (s : State) (id : Nat) (f : Launch → Launch) : (s.modLaunch id f).boot = s.boot := rfl
@[simp] theorem State.modLaunch_measured (s : State) (id : Nat) (f : Launch → Launch) : (s.modLaunch id f).measured = s.measured := rfl
@[simp] theorem State.modLaunch_identity (s : State) (id : Nat) (f : Launch → Launch) : (s.modLaunch id f).identity = s.identity := rfl
@[simp] theorem State.modLaunch_reports (s : State) (id : Nat) (f : Launch → Launch) : (s.modLaunch id f).reports = s.reports := rfl
@[simp] theorem State.modLaunch_sensors (s : State) (id : Nat) (f : Launch → Launch) : (s.modLaunch id f).sensors = s.sensors := rfl
@[simp] theorem State.modLaunch_commands (s : State) (id : Nat) (f : Launch → Launch) : (s.modLaunch id f).commands = s.commands := rfl
@[simp] theorem State.modLaunch_ports (s : State) (id : Nat) (f : Launch → Launch) : (s.modLaunch id f).ports = s.ports := rfl
@[simp] theorem State.modLaunch_hostGot (s : State) (id : Nat) (f : Launch → Launch) : (s.modLaunch id f).hostGot = s.hostGot := rfl

/-! ### State.notify -/

@[simp] theorem State.notify_cc (s : State) (kind who : Nat) : (s.notify kind who).cc = s.cc := rfl
@[simp] theorem State.notify_device (s : State) (kind who : Nat) : (s.notify kind who).device = s.device := rfl
@[simp] theorem State.notify_curCore (s : State) (kind who : Nat) : (s.notify kind who).curCore = s.curCore := rfl
@[simp] theorem State.notify_curSlot (s : State) (kind who : Nat) : (s.notify kind who).curSlot = s.curSlot := rfl
@[simp] theorem State.notify_issuing (s : State) (kind who : Nat) : (s.notify kind who).issuing = s.issuing := rfl
@[simp] theorem State.notify_lat (s : State) (kind who : Nat) : (s.notify kind who).lat = s.lat := rfl
@[simp] theorem State.notify_turns (s : State) (kind who : Nat) : (s.notify kind who).turns = s.turns := rfl
@[simp] theorem State.notify_inputs (s : State) (kind who : Nat) : (s.notify kind who).inputs = s.inputs := rfl
@[simp] theorem State.notify_cores (s : State) (kind who : Nat) : (s.notify kind who).cores = s.cores := rfl
@[simp] theorem State.notify_clusters (s : State) (kind who : Nat) : (s.notify kind who).clusters = s.clusters := rfl
@[simp] theorem State.notify_mem (s : State) (kind who : Nat) : (s.notify kind who).mem = s.mem := rfl
@[simp] theorem State.notify_memEmpty (s : State) (kind who : Nat) : (s.notify kind who).memEmpty = s.memEmpty := rfl
@[simp] theorem State.notify_memPoison (s : State) (kind who : Nat) : (s.notify kind who).memPoison = s.memPoison := rfl
@[simp] theorem State.notify_waiters (s : State) (kind who : Nat) : (s.notify kind who).waiters = s.waiters := rfl
@[simp] theorem State.notify_packets (s : State) (kind who : Nat) : (s.notify kind who).packets = s.packets := rfl
@[simp] theorem State.notify_records (s : State) (kind who : Nat) : (s.notify kind who).records = s.records := rfl
@[simp] theorem State.notify_stgs (s : State) (kind who : Nat) : (s.notify kind who).stgs = s.stgs := rfl
@[simp] theorem State.notify_forwards (s : State) (kind who : Nat) : (s.notify kind who).forwards = s.forwards := rfl
@[simp] theorem State.notify_units (s : State) (kind who : Nat) : (s.notify kind who).units = s.units := rfl
@[simp] theorem State.notify_pieces (s : State) (kind who : Nat) : (s.notify kind who).pieces = s.pieces := rfl
@[simp] theorem State.notify_jobs (s : State) (kind who : Nat) : (s.notify kind who).jobs = s.jobs := rfl
@[simp] theorem State.notify_couples (s : State) (kind who : Nat) : (s.notify kind who).couples = s.couples := rfl
@[simp] theorem State.notify_rollbacks (s : State) (kind who : Nat) : (s.notify kind who).rollbacks = s.rollbacks := rfl
@[simp] theorem State.notify_launches (s : State) (kind who : Nat) : (s.notify kind who).launches = s.launches := rfl
@[simp] theorem State.notify_nextLaunch (s : State) (kind who : Nat) : (s.notify kind who).nextLaunch = s.nextLaunch := rfl
@[simp] theorem State.notify_images (s : State) (kind who : Nat) : (s.notify kind who).images = s.images := rfl
@[simp] theorem State.notify_queues (s : State) (kind who : Nat) : (s.notify kind who).queues = s.queues := rfl
@[simp] theorem State.notify_tenants (s : State) (kind who : Nat) : (s.notify kind who).tenants = s.tenants := rfl
@[simp] theorem State.notify_roots (s : State) (kind who : Nat) : (s.notify kind who).roots = s.roots := rfl
@[simp] theorem State.notify_formulas (s : State) (kind who : Nat) : (s.notify kind who).formulas = s.formulas := rfl
@[simp] theorem State.notify_shadow (s : State) (kind who : Nat) : (s.notify kind who).shadow = s.shadow := rfl
@[simp] theorem State.notify_shadowOf (s : State) (kind who : Nat) : (s.notify kind who).shadowOf = s.shadowOf := rfl
@[simp] theorem State.notify_groupOf (s : State) (kind who : Nat) : (s.notify kind who).groupOf = s.groupOf := rfl
@[simp] theorem State.notify_routes (s : State) (kind who : Nat) : (s.notify kind who).routes = s.routes := rfl
@[simp] theorem State.notify_links (s : State) (kind who : Nat) : (s.notify kind who).links = s.links := rfl
@[simp] theorem State.notify_classes (s : State) (kind who : Nat) : (s.notify kind who).classes = s.classes := rfl
@[simp] theorem State.notify_keys (s : State) (kind who : Nat) : (s.notify kind who).keys = s.keys := rfl
@[simp] theorem State.notify_hier (s : State) (kind who : Nat) : (s.notify kind who).hier = s.hier := rfl
@[simp] theorem State.notify_breakpoints (s : State) (kind who : Nat) : (s.notify kind who).breakpoints = s.breakpoints := rfl
@[simp] theorem State.notify_discarded (s : State) (kind who : Nat) : (s.notify kind who).discarded = s.discarded := rfl
@[simp] theorem State.notify_ageing (s : State) (kind who : Nat) : (s.notify kind who).ageing = s.ageing := rfl
@[simp] theorem State.notify_eolhMin (s : State) (kind who : Nat) : (s.notify kind who).eolhMin = s.eolhMin := rfl
@[simp] theorem State.notify_powerCap (s : State) (kind who : Nat) : (s.notify kind who).powerCap = s.powerCap := rfl
@[simp] theorem State.notify_clock (s : State) (kind who : Nat) : (s.notify kind who).clock = s.clock := rfl
@[simp] theorem State.notify_samples (s : State) (kind who : Nat) : (s.notify kind who).samples = s.samples := rfl
@[simp] theorem State.notify_boot (s : State) (kind who : Nat) : (s.notify kind who).boot = s.boot := rfl
@[simp] theorem State.notify_measured (s : State) (kind who : Nat) : (s.notify kind who).measured = s.measured := rfl
@[simp] theorem State.notify_identity (s : State) (kind who : Nat) : (s.notify kind who).identity = s.identity := rfl
@[simp] theorem State.notify_reports (s : State) (kind who : Nat) : (s.notify kind who).reports = s.reports := rfl
@[simp] theorem State.notify_sensors (s : State) (kind who : Nat) : (s.notify kind who).sensors = s.sensors := rfl
@[simp] theorem State.notify_commands (s : State) (kind who : Nat) : (s.notify kind who).commands = s.commands := rfl
@[simp] theorem State.notify_ports (s : State) (kind who : Nat) : (s.notify kind who).ports = s.ports := rfl
@[simp] theorem State.notify_hostGot (s : State) (kind who : Nat) : (s.notify kind who).hostGot = s.hostGot := rfl

/-! ### State.setReg -/

@[simp] theorem State.setReg_cc (s : State) (r : Reg) (v : Word) : (s.setReg r v).cc = s.cc := rfl
@[simp] theorem State.setReg_device (s : State) (r : Reg) (v : Word) : (s.setReg r v).device = s.device := rfl
@[simp] theorem State.setReg_tick (s : State) (r : Reg) (v : Word) : (s.setReg r v).tick = s.tick := rfl
@[simp] theorem State.setReg_curCore (s : State) (r : Reg) (v : Word) : (s.setReg r v).curCore = s.curCore := rfl
@[simp] theorem State.setReg_curSlot (s : State) (r : Reg) (v : Word) : (s.setReg r v).curSlot = s.curSlot := rfl
@[simp] theorem State.setReg_issuing (s : State) (r : Reg) (v : Word) : (s.setReg r v).issuing = s.issuing := rfl
@[simp] theorem State.setReg_lat (s : State) (r : Reg) (v : Word) : (s.setReg r v).lat = s.lat := rfl
@[simp] theorem State.setReg_turns (s : State) (r : Reg) (v : Word) : (s.setReg r v).turns = s.turns := rfl
@[simp] theorem State.setReg_inputs (s : State) (r : Reg) (v : Word) : (s.setReg r v).inputs = s.inputs := rfl
@[simp] theorem State.setReg_clusters (s : State) (r : Reg) (v : Word) : (s.setReg r v).clusters = s.clusters := rfl
@[simp] theorem State.setReg_mem (s : State) (r : Reg) (v : Word) : (s.setReg r v).mem = s.mem := rfl
@[simp] theorem State.setReg_memEmpty (s : State) (r : Reg) (v : Word) : (s.setReg r v).memEmpty = s.memEmpty := rfl
@[simp] theorem State.setReg_memPoison (s : State) (r : Reg) (v : Word) : (s.setReg r v).memPoison = s.memPoison := rfl
@[simp] theorem State.setReg_waiters (s : State) (r : Reg) (v : Word) : (s.setReg r v).waiters = s.waiters := rfl
@[simp] theorem State.setReg_packets (s : State) (r : Reg) (v : Word) : (s.setReg r v).packets = s.packets := rfl
@[simp] theorem State.setReg_records (s : State) (r : Reg) (v : Word) : (s.setReg r v).records = s.records := rfl
@[simp] theorem State.setReg_stgs (s : State) (r : Reg) (v : Word) : (s.setReg r v).stgs = s.stgs := rfl
@[simp] theorem State.setReg_forwards (s : State) (r : Reg) (v : Word) : (s.setReg r v).forwards = s.forwards := rfl
@[simp] theorem State.setReg_units (s : State) (r : Reg) (v : Word) : (s.setReg r v).units = s.units := rfl
@[simp] theorem State.setReg_pieces (s : State) (r : Reg) (v : Word) : (s.setReg r v).pieces = s.pieces := rfl
@[simp] theorem State.setReg_jobs (s : State) (r : Reg) (v : Word) : (s.setReg r v).jobs = s.jobs := rfl
@[simp] theorem State.setReg_couples (s : State) (r : Reg) (v : Word) : (s.setReg r v).couples = s.couples := rfl
@[simp] theorem State.setReg_rollbacks (s : State) (r : Reg) (v : Word) : (s.setReg r v).rollbacks = s.rollbacks := rfl
@[simp] theorem State.setReg_launches (s : State) (r : Reg) (v : Word) : (s.setReg r v).launches = s.launches := rfl
@[simp] theorem State.setReg_nextLaunch (s : State) (r : Reg) (v : Word) : (s.setReg r v).nextLaunch = s.nextLaunch := rfl
@[simp] theorem State.setReg_images (s : State) (r : Reg) (v : Word) : (s.setReg r v).images = s.images := rfl
@[simp] theorem State.setReg_queues (s : State) (r : Reg) (v : Word) : (s.setReg r v).queues = s.queues := rfl
@[simp] theorem State.setReg_tenants (s : State) (r : Reg) (v : Word) : (s.setReg r v).tenants = s.tenants := rfl
@[simp] theorem State.setReg_roots (s : State) (r : Reg) (v : Word) : (s.setReg r v).roots = s.roots := rfl
@[simp] theorem State.setReg_formulas (s : State) (r : Reg) (v : Word) : (s.setReg r v).formulas = s.formulas := rfl
@[simp] theorem State.setReg_shadow (s : State) (r : Reg) (v : Word) : (s.setReg r v).shadow = s.shadow := rfl
@[simp] theorem State.setReg_shadowOf (s : State) (r : Reg) (v : Word) : (s.setReg r v).shadowOf = s.shadowOf := rfl
@[simp] theorem State.setReg_groupOf (s : State) (r : Reg) (v : Word) : (s.setReg r v).groupOf = s.groupOf := rfl
@[simp] theorem State.setReg_routes (s : State) (r : Reg) (v : Word) : (s.setReg r v).routes = s.routes := rfl
@[simp] theorem State.setReg_links (s : State) (r : Reg) (v : Word) : (s.setReg r v).links = s.links := rfl
@[simp] theorem State.setReg_classes (s : State) (r : Reg) (v : Word) : (s.setReg r v).classes = s.classes := rfl
@[simp] theorem State.setReg_keys (s : State) (r : Reg) (v : Word) : (s.setReg r v).keys = s.keys := rfl
@[simp] theorem State.setReg_hier (s : State) (r : Reg) (v : Word) : (s.setReg r v).hier = s.hier := rfl
@[simp] theorem State.setReg_breakpoints (s : State) (r : Reg) (v : Word) : (s.setReg r v).breakpoints = s.breakpoints := rfl
@[simp] theorem State.setReg_notices (s : State) (r : Reg) (v : Word) : (s.setReg r v).notices = s.notices := rfl
@[simp] theorem State.setReg_noticesLost (s : State) (r : Reg) (v : Word) : (s.setReg r v).noticesLost = s.noticesLost := rfl
@[simp] theorem State.setReg_discarded (s : State) (r : Reg) (v : Word) : (s.setReg r v).discarded = s.discarded := rfl
@[simp] theorem State.setReg_ageing (s : State) (r : Reg) (v : Word) : (s.setReg r v).ageing = s.ageing := rfl
@[simp] theorem State.setReg_eolhMin (s : State) (r : Reg) (v : Word) : (s.setReg r v).eolhMin = s.eolhMin := rfl
@[simp] theorem State.setReg_powerCap (s : State) (r : Reg) (v : Word) : (s.setReg r v).powerCap = s.powerCap := rfl
@[simp] theorem State.setReg_clock (s : State) (r : Reg) (v : Word) : (s.setReg r v).clock = s.clock := rfl
@[simp] theorem State.setReg_samples (s : State) (r : Reg) (v : Word) : (s.setReg r v).samples = s.samples := rfl
@[simp] theorem State.setReg_boot (s : State) (r : Reg) (v : Word) : (s.setReg r v).boot = s.boot := rfl
@[simp] theorem State.setReg_measured (s : State) (r : Reg) (v : Word) : (s.setReg r v).measured = s.measured := rfl
@[simp] theorem State.setReg_identity (s : State) (r : Reg) (v : Word) : (s.setReg r v).identity = s.identity := rfl
@[simp] theorem State.setReg_reports (s : State) (r : Reg) (v : Word) : (s.setReg r v).reports = s.reports := rfl
@[simp] theorem State.setReg_sensors (s : State) (r : Reg) (v : Word) : (s.setReg r v).sensors = s.sensors := rfl
@[simp] theorem State.setReg_commands (s : State) (r : Reg) (v : Word) : (s.setReg r v).commands = s.commands := rfl
@[simp] theorem State.setReg_ports (s : State) (r : Reg) (v : Word) : (s.setReg r v).ports = s.ports := rfl
@[simp] theorem State.setReg_hostGot (s : State) (r : Reg) (v : Word) : (s.setReg r v).hostGot = s.hostGot := rfl

/-! ### State.setPred -/

@[simp] theorem State.setPred_cc (s : State) (r : PredIx) (v : Bool) : (s.setPred r v).cc = s.cc := rfl
@[simp] theorem State.setPred_device (s : State) (r : PredIx) (v : Bool) : (s.setPred r v).device = s.device := rfl
@[simp] theorem State.setPred_tick (s : State) (r : PredIx) (v : Bool) : (s.setPred r v).tick = s.tick := rfl
@[simp] theorem State.setPred_curCore (s : State) (r : PredIx) (v : Bool) : (s.setPred r v).curCore = s.curCore := rfl
@[simp] theorem State.setPred_curSlot (s : State) (r : PredIx) (v : Bool) : (s.setPred r v).curSlot = s.curSlot := rfl
@[simp] theorem State.setPred_issuing (s : State) (r : PredIx) (v : Bool) : (s.setPred r v).issuing = s.issuing := rfl
@[simp] theorem State.setPred_lat (s : State) (r : PredIx) (v : Bool) : (s.setPred r v).lat = s.lat := rfl
@[simp] theorem State.setPred_turns (s : State) (r : PredIx) (v : Bool) : (s.setPred r v).turns = s.turns := rfl
@[simp] theorem State.setPred_inputs (s : State) (r : PredIx) (v : Bool) : (s.setPred r v).inputs = s.inputs := rfl
@[simp] theorem State.setPred_clusters (s : State) (r : PredIx) (v : Bool) : (s.setPred r v).clusters = s.clusters := rfl
@[simp] theorem State.setPred_mem (s : State) (r : PredIx) (v : Bool) : (s.setPred r v).mem = s.mem := rfl
@[simp] theorem State.setPred_memEmpty (s : State) (r : PredIx) (v : Bool) : (s.setPred r v).memEmpty = s.memEmpty := rfl
@[simp] theorem State.setPred_memPoison (s : State) (r : PredIx) (v : Bool) : (s.setPred r v).memPoison = s.memPoison := rfl
@[simp] theorem State.setPred_waiters (s : State) (r : PredIx) (v : Bool) : (s.setPred r v).waiters = s.waiters := rfl
@[simp] theorem State.setPred_packets (s : State) (r : PredIx) (v : Bool) : (s.setPred r v).packets = s.packets := rfl
@[simp] theorem State.setPred_records (s : State) (r : PredIx) (v : Bool) : (s.setPred r v).records = s.records := rfl
@[simp] theorem State.setPred_stgs (s : State) (r : PredIx) (v : Bool) : (s.setPred r v).stgs = s.stgs := rfl
@[simp] theorem State.setPred_forwards (s : State) (r : PredIx) (v : Bool) : (s.setPred r v).forwards = s.forwards := rfl
@[simp] theorem State.setPred_units (s : State) (r : PredIx) (v : Bool) : (s.setPred r v).units = s.units := rfl
@[simp] theorem State.setPred_pieces (s : State) (r : PredIx) (v : Bool) : (s.setPred r v).pieces = s.pieces := rfl
@[simp] theorem State.setPred_jobs (s : State) (r : PredIx) (v : Bool) : (s.setPred r v).jobs = s.jobs := rfl
@[simp] theorem State.setPred_couples (s : State) (r : PredIx) (v : Bool) : (s.setPred r v).couples = s.couples := rfl
@[simp] theorem State.setPred_rollbacks (s : State) (r : PredIx) (v : Bool) : (s.setPred r v).rollbacks = s.rollbacks := rfl
@[simp] theorem State.setPred_launches (s : State) (r : PredIx) (v : Bool) : (s.setPred r v).launches = s.launches := rfl
@[simp] theorem State.setPred_nextLaunch (s : State) (r : PredIx) (v : Bool) : (s.setPred r v).nextLaunch = s.nextLaunch := rfl
@[simp] theorem State.setPred_images (s : State) (r : PredIx) (v : Bool) : (s.setPred r v).images = s.images := rfl
@[simp] theorem State.setPred_queues (s : State) (r : PredIx) (v : Bool) : (s.setPred r v).queues = s.queues := rfl
@[simp] theorem State.setPred_tenants (s : State) (r : PredIx) (v : Bool) : (s.setPred r v).tenants = s.tenants := rfl
@[simp] theorem State.setPred_roots (s : State) (r : PredIx) (v : Bool) : (s.setPred r v).roots = s.roots := rfl
@[simp] theorem State.setPred_formulas (s : State) (r : PredIx) (v : Bool) : (s.setPred r v).formulas = s.formulas := rfl
@[simp] theorem State.setPred_shadow (s : State) (r : PredIx) (v : Bool) : (s.setPred r v).shadow = s.shadow := rfl
@[simp] theorem State.setPred_shadowOf (s : State) (r : PredIx) (v : Bool) : (s.setPred r v).shadowOf = s.shadowOf := rfl
@[simp] theorem State.setPred_groupOf (s : State) (r : PredIx) (v : Bool) : (s.setPred r v).groupOf = s.groupOf := rfl
@[simp] theorem State.setPred_routes (s : State) (r : PredIx) (v : Bool) : (s.setPred r v).routes = s.routes := rfl
@[simp] theorem State.setPred_links (s : State) (r : PredIx) (v : Bool) : (s.setPred r v).links = s.links := rfl
@[simp] theorem State.setPred_classes (s : State) (r : PredIx) (v : Bool) : (s.setPred r v).classes = s.classes := rfl
@[simp] theorem State.setPred_keys (s : State) (r : PredIx) (v : Bool) : (s.setPred r v).keys = s.keys := rfl
@[simp] theorem State.setPred_hier (s : State) (r : PredIx) (v : Bool) : (s.setPred r v).hier = s.hier := rfl
@[simp] theorem State.setPred_breakpoints (s : State) (r : PredIx) (v : Bool) : (s.setPred r v).breakpoints = s.breakpoints := rfl
@[simp] theorem State.setPred_notices (s : State) (r : PredIx) (v : Bool) : (s.setPred r v).notices = s.notices := rfl
@[simp] theorem State.setPred_noticesLost (s : State) (r : PredIx) (v : Bool) : (s.setPred r v).noticesLost = s.noticesLost := rfl
@[simp] theorem State.setPred_discarded (s : State) (r : PredIx) (v : Bool) : (s.setPred r v).discarded = s.discarded := rfl
@[simp] theorem State.setPred_ageing (s : State) (r : PredIx) (v : Bool) : (s.setPred r v).ageing = s.ageing := rfl
@[simp] theorem State.setPred_eolhMin (s : State) (r : PredIx) (v : Bool) : (s.setPred r v).eolhMin = s.eolhMin := rfl
@[simp] theorem State.setPred_powerCap (s : State) (r : PredIx) (v : Bool) : (s.setPred r v).powerCap = s.powerCap := rfl
@[simp] theorem State.setPred_clock (s : State) (r : PredIx) (v : Bool) : (s.setPred r v).clock = s.clock := rfl
@[simp] theorem State.setPred_samples (s : State) (r : PredIx) (v : Bool) : (s.setPred r v).samples = s.samples := rfl
@[simp] theorem State.setPred_boot (s : State) (r : PredIx) (v : Bool) : (s.setPred r v).boot = s.boot := rfl
@[simp] theorem State.setPred_measured (s : State) (r : PredIx) (v : Bool) : (s.setPred r v).measured = s.measured := rfl
@[simp] theorem State.setPred_identity (s : State) (r : PredIx) (v : Bool) : (s.setPred r v).identity = s.identity := rfl
@[simp] theorem State.setPred_reports (s : State) (r : PredIx) (v : Bool) : (s.setPred r v).reports = s.reports := rfl
@[simp] theorem State.setPred_sensors (s : State) (r : PredIx) (v : Bool) : (s.setPred r v).sensors = s.sensors := rfl
@[simp] theorem State.setPred_commands (s : State) (r : PredIx) (v : Bool) : (s.setPred r v).commands = s.commands := rfl
@[simp] theorem State.setPred_ports (s : State) (r : PredIx) (v : Bool) : (s.setPred r v).ports = s.ports := rfl
@[simp] theorem State.setPred_hostGot (s : State) (r : PredIx) (v : Bool) : (s.setPred r v).hostGot = s.hostGot := rfl

/-! ### State.raise -/

@[simp] theorem State.raise_cc (s : State) (f : RFlags) : (s.raise f).cc = s.cc := rfl
@[simp] theorem State.raise_device (s : State) (f : RFlags) : (s.raise f).device = s.device := rfl
@[simp] theorem State.raise_tick (s : State) (f : RFlags) : (s.raise f).tick = s.tick := rfl
@[simp] theorem State.raise_curCore (s : State) (f : RFlags) : (s.raise f).curCore = s.curCore := rfl
@[simp] theorem State.raise_curSlot (s : State) (f : RFlags) : (s.raise f).curSlot = s.curSlot := rfl
@[simp] theorem State.raise_issuing (s : State) (f : RFlags) : (s.raise f).issuing = s.issuing := rfl
@[simp] theorem State.raise_lat (s : State) (f : RFlags) : (s.raise f).lat = s.lat := rfl
@[simp] theorem State.raise_turns (s : State) (f : RFlags) : (s.raise f).turns = s.turns := rfl
@[simp] theorem State.raise_inputs (s : State) (f : RFlags) : (s.raise f).inputs = s.inputs := rfl
@[simp] theorem State.raise_clusters (s : State) (f : RFlags) : (s.raise f).clusters = s.clusters := rfl
@[simp] theorem State.raise_mem (s : State) (f : RFlags) : (s.raise f).mem = s.mem := rfl
@[simp] theorem State.raise_memEmpty (s : State) (f : RFlags) : (s.raise f).memEmpty = s.memEmpty := rfl
@[simp] theorem State.raise_memPoison (s : State) (f : RFlags) : (s.raise f).memPoison = s.memPoison := rfl
@[simp] theorem State.raise_waiters (s : State) (f : RFlags) : (s.raise f).waiters = s.waiters := rfl
@[simp] theorem State.raise_packets (s : State) (f : RFlags) : (s.raise f).packets = s.packets := rfl
@[simp] theorem State.raise_records (s : State) (f : RFlags) : (s.raise f).records = s.records := rfl
@[simp] theorem State.raise_stgs (s : State) (f : RFlags) : (s.raise f).stgs = s.stgs := rfl
@[simp] theorem State.raise_forwards (s : State) (f : RFlags) : (s.raise f).forwards = s.forwards := rfl
@[simp] theorem State.raise_units (s : State) (f : RFlags) : (s.raise f).units = s.units := rfl
@[simp] theorem State.raise_pieces (s : State) (f : RFlags) : (s.raise f).pieces = s.pieces := rfl
@[simp] theorem State.raise_jobs (s : State) (f : RFlags) : (s.raise f).jobs = s.jobs := rfl
@[simp] theorem State.raise_couples (s : State) (f : RFlags) : (s.raise f).couples = s.couples := rfl
@[simp] theorem State.raise_rollbacks (s : State) (f : RFlags) : (s.raise f).rollbacks = s.rollbacks := rfl
@[simp] theorem State.raise_launches (s : State) (f : RFlags) : (s.raise f).launches = s.launches := rfl
@[simp] theorem State.raise_nextLaunch (s : State) (f : RFlags) : (s.raise f).nextLaunch = s.nextLaunch := rfl
@[simp] theorem State.raise_images (s : State) (f : RFlags) : (s.raise f).images = s.images := rfl
@[simp] theorem State.raise_queues (s : State) (f : RFlags) : (s.raise f).queues = s.queues := rfl
@[simp] theorem State.raise_tenants (s : State) (f : RFlags) : (s.raise f).tenants = s.tenants := rfl
@[simp] theorem State.raise_roots (s : State) (f : RFlags) : (s.raise f).roots = s.roots := rfl
@[simp] theorem State.raise_formulas (s : State) (f : RFlags) : (s.raise f).formulas = s.formulas := rfl
@[simp] theorem State.raise_shadow (s : State) (f : RFlags) : (s.raise f).shadow = s.shadow := rfl
@[simp] theorem State.raise_shadowOf (s : State) (f : RFlags) : (s.raise f).shadowOf = s.shadowOf := rfl
@[simp] theorem State.raise_groupOf (s : State) (f : RFlags) : (s.raise f).groupOf = s.groupOf := rfl
@[simp] theorem State.raise_routes (s : State) (f : RFlags) : (s.raise f).routes = s.routes := rfl
@[simp] theorem State.raise_links (s : State) (f : RFlags) : (s.raise f).links = s.links := rfl
@[simp] theorem State.raise_classes (s : State) (f : RFlags) : (s.raise f).classes = s.classes := rfl
@[simp] theorem State.raise_keys (s : State) (f : RFlags) : (s.raise f).keys = s.keys := rfl
@[simp] theorem State.raise_hier (s : State) (f : RFlags) : (s.raise f).hier = s.hier := rfl
@[simp] theorem State.raise_breakpoints (s : State) (f : RFlags) : (s.raise f).breakpoints = s.breakpoints := rfl
@[simp] theorem State.raise_notices (s : State) (f : RFlags) : (s.raise f).notices = s.notices := rfl
@[simp] theorem State.raise_noticesLost (s : State) (f : RFlags) : (s.raise f).noticesLost = s.noticesLost := rfl
@[simp] theorem State.raise_discarded (s : State) (f : RFlags) : (s.raise f).discarded = s.discarded := rfl
@[simp] theorem State.raise_ageing (s : State) (f : RFlags) : (s.raise f).ageing = s.ageing := rfl
@[simp] theorem State.raise_eolhMin (s : State) (f : RFlags) : (s.raise f).eolhMin = s.eolhMin := rfl
@[simp] theorem State.raise_powerCap (s : State) (f : RFlags) : (s.raise f).powerCap = s.powerCap := rfl
@[simp] theorem State.raise_clock (s : State) (f : RFlags) : (s.raise f).clock = s.clock := rfl
@[simp] theorem State.raise_samples (s : State) (f : RFlags) : (s.raise f).samples = s.samples := rfl
@[simp] theorem State.raise_boot (s : State) (f : RFlags) : (s.raise f).boot = s.boot := rfl
@[simp] theorem State.raise_measured (s : State) (f : RFlags) : (s.raise f).measured = s.measured := rfl
@[simp] theorem State.raise_identity (s : State) (f : RFlags) : (s.raise f).identity = s.identity := rfl
@[simp] theorem State.raise_reports (s : State) (f : RFlags) : (s.raise f).reports = s.reports := rfl
@[simp] theorem State.raise_sensors (s : State) (f : RFlags) : (s.raise f).sensors = s.sensors := rfl
@[simp] theorem State.raise_commands (s : State) (f : RFlags) : (s.raise f).commands = s.commands := rfl
@[simp] theorem State.raise_ports (s : State) (f : RFlags) : (s.raise f).ports = s.ports := rfl
@[simp] theorem State.raise_hostGot (s : State) (f : RFlags) : (s.raise f).hostGot = s.hostGot := rfl

/-! ### Registers of a slot -/

@[simp] theorem Slot.note_st (x : Slot) (code : Nat) (v : Word) : (x.note code v).st = x.st := by unfold Slot.note; split <;> rfl
@[simp] theorem Slot.note_s (x : Slot) (code : Nat) (v : Word) : (x.note code v).s = x.s := by unfold Slot.note; split <;> rfl
@[simp] theorem Slot.note_p (x : Slot) (code : Nat) (v : Word) : (x.note code v).p = x.p := by unfold Slot.note; split <;> rfl
@[simp] theorem Slot.note_c (x : Slot) (code : Nat) (v : Word) : (x.note code v).c = x.c := by unfold Slot.note; split <;> rfl
@[simp] theorem Slot.note_pc (x : Slot) (code : Nat) (v : Word) : (x.note code v).pc = x.pc := by unfold Slot.note; split <;> rfl
@[simp] theorem Slot.note_status (x : Slot) (code : Nat) (v : Word) : (x.note code v).status = x.status := by unfold Slot.note; split <;> rfl
@[simp] theorem Slot.note_trapvec (x : Slot) (code : Nat) (v : Word) : (x.note code v).trapvec = x.trapvec := by unfold Slot.note; split <;> rfl
@[simp] theorem Slot.note_traprec (x : Slot) (code : Nat) (v : Word) : (x.note code v).traprec = x.traprec := by unfold Slot.note; split <;> rfl
@[simp] theorem Slot.note_ticket (x : Slot) (code : Nat) (v : Word) : (x.note code v).ticket = x.ticket := by unfold Slot.note; split <;> rfl
@[simp] theorem Slot.note_stealdom (x : Slot) (code : Nat) (v : Word) : (x.note code v).stealdom = x.stealdom := by unfold Slot.note; split <;> rfl
@[simp] theorem Slot.note_dtnan (x : Slot) (code : Nat) (v : Word) : (x.note code v).dtnan = x.dtnan := by unfold Slot.note; split <;> rfl
@[simp] theorem Slot.note_timer (x : Slot) (code : Nat) (v : Word) : (x.note code v).timer = x.timer := by unfold Slot.note; split <;> rfl
@[simp] theorem Slot.note_allot (x : Slot) (code : Nat) (v : Word) : (x.note code v).allot = x.allot := by unfold Slot.note; split <;> rfl
@[simp] theorem Slot.note_groups (x : Slot) (code : Nat) (v : Word) : (x.note code v).groups = x.groups := by unfold Slot.note; split <;> rfl
@[simp] theorem Slot.note_want (x : Slot) (code : Nat) (v : Word) : (x.note code v).want = x.want := by unfold Slot.note; split <;> rfl
@[simp] theorem Slot.note_vrf (x : Slot) (code : Nat) (v : Word) : (x.note code v).vrf = x.vrf := by unfold Slot.note; split <;> rfl
@[simp] theorem Slot.note_seq (x : Slot) (code : Nat) (v : Word) : (x.note code v).seq = x.seq := by unfold Slot.note; split <;> rfl
@[simp] theorem Slot.note_seqReply (x : Slot) (code : Nat) (v : Word) : (x.note code v).seqReply = x.seqReply := by unfold Slot.note; split <;> rfl
@[simp] theorem Slot.note_lq (x : Slot) (code : Nat) (v : Word) : (x.note code v).lq = x.lq := by unfold Slot.note; split <;> rfl
@[simp] theorem Slot.note_sqRows (x : Slot) (code : Nat) (v : Word) : (x.note code v).sqRows = x.sqRows := by unfold Slot.note; split <;> rfl
@[simp] theorem Slot.note_drains (x : Slot) (code : Nat) (v : Word) : (x.note code v).drains = x.drains := by unfold Slot.note; split <;> rfl
@[simp] theorem Slot.note_matQ (x : Slot) (code : Nat) (v : Word) : (x.note code v).matQ = x.matQ := by unfold Slot.note; split <;> rfl
@[simp] theorem Slot.note_copyQ (x : Slot) (code : Nat) (v : Word) : (x.note code v).copyQ = x.copyQ := by unfold Slot.note; split <;> rfl
@[simp] theorem Slot.note_matRes (x : Slot) (code : Nat) (v : Word) : (x.note code v).matRes = x.matRes := by unfold Slot.note; split <;> rfl
@[simp] theorem Slot.note_copyRes (x : Slot) (code : Nat) (v : Word) : (x.note code v).copyRes = x.copyRes := by unfold Slot.note; split <;> rfl
@[simp] theorem Slot.note_mmaeOut (x : Slot) (code : Nat) (v : Word) : (x.note code v).mmaeOut = x.mmaeOut := by unfold Slot.note; split <;> rfl
@[simp] theorem Slot.note_since (x : Slot) (code : Nat) (v : Word) : (x.note code v).since = x.since := by unfold Slot.note; split <;> rfl
@[simp] theorem Slot.note_begun (x : Slot) (code : Nat) (v : Word) : (x.note code v).begun = x.begun := by unfold Slot.note; split <;> rfl
@[simp] theorem Slot.note_launch (x : Slot) (code : Nat) (v : Word) : (x.note code v).launch = x.launch := by unfold Slot.note; split <;> rfl
@[simp] theorem Slot.note_join (x : Slot) (code : Nat) (v : Word) : (x.note code v).join = x.join := by unfold Slot.note; split <;> rfl
@[simp] theorem Slot.note_ret (x : Slot) (code : Nat) (v : Word) : (x.note code v).ret = x.ret := by unfold Slot.note; split <;> rfl
@[simp] theorem Slot.note_retpos (x : Slot) (code : Nat) (v : Word) : (x.note code v).retpos = x.retpos := by unfold Slot.note; split <;> rfl
@[simp] theorem Slot.note_strand (x : Slot) (code : Nat) (v : Word) : (x.note code v).strand = x.strand := by unfold Slot.note; split <;> rfl
@[simp] theorem Slot.note_group (x : Slot) (code : Nat) (v : Word) : (x.note code v).group = x.group := by unfold Slot.note; split <;> rfl
@[simp] theorem Slot.note_ival (x : Slot) (code : Nat) (v : Word) : (x.note code v).ival = x.ival := by unfold Slot.note; split <;> rfl
@[simp] theorem Slot.note_packet (x : Slot) (code : Nat) (v : Word) : (x.note code v).packet = x.packet := by unfold Slot.note; split <;> rfl
@[simp] theorem Slot.note_gang (x : Slot) (code : Nat) (v : Word) : (x.note code v).gang = x.gang := by unfold Slot.note; split <;> rfl
@[simp] theorem Slot.note_inl (x : Slot) (code : Nat) (v : Word) : (x.note code v).inl = x.inl := by unfold Slot.note; split <;> rfl
@[simp] theorem Slot.note_adone (x : Slot) (code : Nat) (v : Word) : (x.note code v).adone = x.adone := by unfold Slot.note; split <;> rfl
@[simp] theorem Slot.note_held (x : Slot) (code : Nat) (v : Word) : (x.note code v).held = x.held := by unfold Slot.note; split <;> rfl
@[simp] theorem Slot.note_park (x : Slot) (code : Nat) (v : Word) : (x.note code v).park = x.park := by unfold Slot.note; split <;> rfl
@[simp] theorem Slot.note_reply (x : Slot) (code : Nat) (v : Word) : (x.note code v).reply = x.reply := by unfold Slot.note; split <;> rfl
@[simp] theorem Slot.note_lastIssue (x : Slot) (code : Nat) (v : Word) : (x.note code v).lastIssue = x.lastIssue := by unfold Slot.note; split <;> rfl
@[simp] theorem Slot.note_fromCc (x : Slot) (code : Nat) (v : Word) : (x.note code v).fromCc = x.fromCc := by unfold Slot.note; split <;> rfl
@[simp] theorem Slot.note_preReq (x : Slot) (code : Nat) (v : Word) : (x.note code v).preReq = x.preReq := by unfold Slot.note; split <;> rfl
@[simp] theorem Slot.note_faults (x : Slot) (code : Nat) (v : Word) : (x.note code v).faults = x.faults := by unfold Slot.note; split <;> rfl
@[simp] theorem Slot.note_faultTag (x : Slot) (code : Nat) (v : Word) : (x.note code v).faultTag = x.faultTag := by unfold Slot.note; split <;> rfl
@[simp] theorem Slot.note_mmaFault (x : Slot) (code : Nat) (v : Word) : (x.note code v).mmaFault = x.mmaFault := by unfold Slot.note; split <;> rfl
@[simp] theorem Slot.note_lentTag (x : Slot) (code : Nat) (v : Word) : (x.note code v).lentTag = x.lentTag := by unfold Slot.note; split <;> rfl
@[simp] theorem Slot.note_lentLaunch (x : Slot) (code : Nat) (v : Word) : (x.note code v).lentLaunch = x.lentLaunch := by unfold Slot.note; split <;> rfl
@[simp] theorem Slot.note_lentVec (x : Slot) (code : Nat) (v : Word) : (x.note code v).lentVec = x.lentVec := by unfold Slot.note; split <;> rfl
@[simp] theorem Slot.note_lentHeld (x : Slot) (code : Nat) (v : Word) : (x.note code v).lentHeld = x.lentHeld := by unfold Slot.note; split <;> rfl
@[simp] theorem Slot.note_wakes (x : Slot) (code : Nat) (v : Word) : (x.note code v).wakes = x.wakes := by unfold Slot.note; split <;> rfl
@[simp] theorem Slot.note_wakeCc (x : Slot) (code : Nat) (v : Word) : (x.note code v).wakeCc = x.wakeCc := by unfold Slot.note; split <;> rfl
@[simp] theorem Slot.note_svGroups (x : Slot) (code : Nat) (v : Word) : (x.note code v).svGroups = x.svGroups := by unfold Slot.note; split <;> rfl
@[simp] theorem Slot.note_resuming (x : Slot) (code : Nat) (v : Word) : (x.note code v).resuming = x.resuming := by unfold Slot.note; split <;> rfl
@[simp] theorem Slot.note_flushAt (x : Slot) (code : Nat) (v : Word) : (x.note code v).flushAt = x.flushAt := by unfold Slot.note; split <;> rfl
@[simp] theorem Slot.note_walk (x : Slot) (code : Nat) (v : Word) : (x.note code v).walk = x.walk := by unfold Slot.note; split <;> rfl
@[simp] theorem Slot.note_grants (x : Slot) (code : Nat) (v : Word) : (x.note code v).grants = x.grants := by unfold Slot.note; split <;> rfl
@[simp] theorem Slot.note_fbuf (x : Slot) (code : Nat) (v : Word) : (x.note code v).fbuf = x.fbuf := by unfold Slot.note; split <;> rfl
@[simp] theorem Slot.note_stgs (x : Slot) (code : Nat) (v : Word) : (x.note code v).stgs = x.stgs := by unfold Slot.note; split <;> rfl
@[simp] theorem Slot.note_poisoned (x : Slot) (code : Nat) (v : Word) : (x.note code v).poisoned = x.poisoned := by unfold Slot.note; split <;> rfl
@[simp] theorem Slot.note_regPoison (x : Slot) (code : Nat) (v : Word) : (x.note code v).regPoison = x.regPoison := by unfold Slot.note; split <;> rfl
@[simp] theorem Slot.note_out (x : Slot) (code : Nat) (v : Word) : (x.note code v).out = x.out := by unfold Slot.note; split <;> rfl
@[simp] theorem Slot.note_coupled (x : Slot) (code : Nat) (v : Word) : (x.note code v).coupled = x.coupled := by unfold Slot.note; split <;> rfl
@[simp] theorem Slot.setReg_st (x : Slot) (r : Reg) (v : Word) : (x.setReg r v).st = x.st := by unfold Slot.setReg; split <;> simp
@[simp] theorem Slot.setReg_p (x : Slot) (r : Reg) (v : Word) : (x.setReg r v).p = x.p := by unfold Slot.setReg; split <;> simp
@[simp] theorem Slot.setReg_c (x : Slot) (r : Reg) (v : Word) : (x.setReg r v).c = x.c := by unfold Slot.setReg; split <;> simp
@[simp] theorem Slot.setReg_pc (x : Slot) (r : Reg) (v : Word) : (x.setReg r v).pc = x.pc := by unfold Slot.setReg; split <;> simp
@[simp] theorem Slot.setReg_status (x : Slot) (r : Reg) (v : Word) : (x.setReg r v).status = x.status := by unfold Slot.setReg; split <;> simp
@[simp] theorem Slot.setReg_trapvec (x : Slot) (r : Reg) (v : Word) : (x.setReg r v).trapvec = x.trapvec := by unfold Slot.setReg; split <;> simp
@[simp] theorem Slot.setReg_traprec (x : Slot) (r : Reg) (v : Word) : (x.setReg r v).traprec = x.traprec := by unfold Slot.setReg; split <;> simp
@[simp] theorem Slot.setReg_ticket (x : Slot) (r : Reg) (v : Word) : (x.setReg r v).ticket = x.ticket := by unfold Slot.setReg; split <;> simp
@[simp] theorem Slot.setReg_stealdom (x : Slot) (r : Reg) (v : Word) : (x.setReg r v).stealdom = x.stealdom := by unfold Slot.setReg; split <;> simp
@[simp] theorem Slot.setReg_dtnan (x : Slot) (r : Reg) (v : Word) : (x.setReg r v).dtnan = x.dtnan := by unfold Slot.setReg; split <;> simp
@[simp] theorem Slot.setReg_timer (x : Slot) (r : Reg) (v : Word) : (x.setReg r v).timer = x.timer := by unfold Slot.setReg; split <;> simp
@[simp] theorem Slot.setReg_allot (x : Slot) (r : Reg) (v : Word) : (x.setReg r v).allot = x.allot := by unfold Slot.setReg; split <;> simp
@[simp] theorem Slot.setReg_groups (x : Slot) (r : Reg) (v : Word) : (x.setReg r v).groups = x.groups := by unfold Slot.setReg; split <;> simp
@[simp] theorem Slot.setReg_want (x : Slot) (r : Reg) (v : Word) : (x.setReg r v).want = x.want := by unfold Slot.setReg; split <;> simp
@[simp] theorem Slot.setReg_vrf (x : Slot) (r : Reg) (v : Word) : (x.setReg r v).vrf = x.vrf := by unfold Slot.setReg; split <;> simp
@[simp] theorem Slot.setReg_seq (x : Slot) (r : Reg) (v : Word) : (x.setReg r v).seq = x.seq := by unfold Slot.setReg; split <;> simp
@[simp] theorem Slot.setReg_seqReply (x : Slot) (r : Reg) (v : Word) : (x.setReg r v).seqReply = x.seqReply := by unfold Slot.setReg; split <;> simp
@[simp] theorem Slot.setReg_lq (x : Slot) (r : Reg) (v : Word) : (x.setReg r v).lq = x.lq := by unfold Slot.setReg; split <;> simp
@[simp] theorem Slot.setReg_sqRows (x : Slot) (r : Reg) (v : Word) : (x.setReg r v).sqRows = x.sqRows := by unfold Slot.setReg; split <;> simp
@[simp] theorem Slot.setReg_drains (x : Slot) (r : Reg) (v : Word) : (x.setReg r v).drains = x.drains := by unfold Slot.setReg; split <;> simp
@[simp] theorem Slot.setReg_matQ (x : Slot) (r : Reg) (v : Word) : (x.setReg r v).matQ = x.matQ := by unfold Slot.setReg; split <;> simp
@[simp] theorem Slot.setReg_copyQ (x : Slot) (r : Reg) (v : Word) : (x.setReg r v).copyQ = x.copyQ := by unfold Slot.setReg; split <;> simp
@[simp] theorem Slot.setReg_matRes (x : Slot) (r : Reg) (v : Word) : (x.setReg r v).matRes = x.matRes := by unfold Slot.setReg; split <;> simp
@[simp] theorem Slot.setReg_copyRes (x : Slot) (r : Reg) (v : Word) : (x.setReg r v).copyRes = x.copyRes := by unfold Slot.setReg; split <;> simp
@[simp] theorem Slot.setReg_mmaeOut (x : Slot) (r : Reg) (v : Word) : (x.setReg r v).mmaeOut = x.mmaeOut := by unfold Slot.setReg; split <;> simp
@[simp] theorem Slot.setReg_since (x : Slot) (r : Reg) (v : Word) : (x.setReg r v).since = x.since := by unfold Slot.setReg; split <;> simp
@[simp] theorem Slot.setReg_begun (x : Slot) (r : Reg) (v : Word) : (x.setReg r v).begun = x.begun := by unfold Slot.setReg; split <;> simp
@[simp] theorem Slot.setReg_launch (x : Slot) (r : Reg) (v : Word) : (x.setReg r v).launch = x.launch := by unfold Slot.setReg; split <;> simp
@[simp] theorem Slot.setReg_join (x : Slot) (r : Reg) (v : Word) : (x.setReg r v).join = x.join := by unfold Slot.setReg; split <;> simp
@[simp] theorem Slot.setReg_ret (x : Slot) (r : Reg) (v : Word) : (x.setReg r v).ret = x.ret := by unfold Slot.setReg; split <;> simp
@[simp] theorem Slot.setReg_retpos (x : Slot) (r : Reg) (v : Word) : (x.setReg r v).retpos = x.retpos := by unfold Slot.setReg; split <;> simp
@[simp] theorem Slot.setReg_strand (x : Slot) (r : Reg) (v : Word) : (x.setReg r v).strand = x.strand := by unfold Slot.setReg; split <;> simp
@[simp] theorem Slot.setReg_group (x : Slot) (r : Reg) (v : Word) : (x.setReg r v).group = x.group := by unfold Slot.setReg; split <;> simp
@[simp] theorem Slot.setReg_ival (x : Slot) (r : Reg) (v : Word) : (x.setReg r v).ival = x.ival := by unfold Slot.setReg; split <;> simp
@[simp] theorem Slot.setReg_packet (x : Slot) (r : Reg) (v : Word) : (x.setReg r v).packet = x.packet := by unfold Slot.setReg; split <;> simp
@[simp] theorem Slot.setReg_gang (x : Slot) (r : Reg) (v : Word) : (x.setReg r v).gang = x.gang := by unfold Slot.setReg; split <;> simp
@[simp] theorem Slot.setReg_inl (x : Slot) (r : Reg) (v : Word) : (x.setReg r v).inl = x.inl := by unfold Slot.setReg; split <;> simp
@[simp] theorem Slot.setReg_adone (x : Slot) (r : Reg) (v : Word) : (x.setReg r v).adone = x.adone := by unfold Slot.setReg; split <;> simp
@[simp] theorem Slot.setReg_held (x : Slot) (r : Reg) (v : Word) : (x.setReg r v).held = x.held := by unfold Slot.setReg; split <;> simp
@[simp] theorem Slot.setReg_park (x : Slot) (r : Reg) (v : Word) : (x.setReg r v).park = x.park := by unfold Slot.setReg; split <;> simp
@[simp] theorem Slot.setReg_reply (x : Slot) (r : Reg) (v : Word) : (x.setReg r v).reply = x.reply := by unfold Slot.setReg; split <;> simp
@[simp] theorem Slot.setReg_lastIssue (x : Slot) (r : Reg) (v : Word) : (x.setReg r v).lastIssue = x.lastIssue := by unfold Slot.setReg; split <;> simp
@[simp] theorem Slot.setReg_fromCc (x : Slot) (r : Reg) (v : Word) : (x.setReg r v).fromCc = x.fromCc := by unfold Slot.setReg; split <;> simp
@[simp] theorem Slot.setReg_preReq (x : Slot) (r : Reg) (v : Word) : (x.setReg r v).preReq = x.preReq := by unfold Slot.setReg; split <;> simp
@[simp] theorem Slot.setReg_faults (x : Slot) (r : Reg) (v : Word) : (x.setReg r v).faults = x.faults := by unfold Slot.setReg; split <;> simp
@[simp] theorem Slot.setReg_faultTag (x : Slot) (r : Reg) (v : Word) : (x.setReg r v).faultTag = x.faultTag := by unfold Slot.setReg; split <;> simp
@[simp] theorem Slot.setReg_mmaFault (x : Slot) (r : Reg) (v : Word) : (x.setReg r v).mmaFault = x.mmaFault := by unfold Slot.setReg; split <;> simp
@[simp] theorem Slot.setReg_lentTag (x : Slot) (r : Reg) (v : Word) : (x.setReg r v).lentTag = x.lentTag := by unfold Slot.setReg; split <;> simp
@[simp] theorem Slot.setReg_lentLaunch (x : Slot) (r : Reg) (v : Word) : (x.setReg r v).lentLaunch = x.lentLaunch := by unfold Slot.setReg; split <;> simp
@[simp] theorem Slot.setReg_lentVec (x : Slot) (r : Reg) (v : Word) : (x.setReg r v).lentVec = x.lentVec := by unfold Slot.setReg; split <;> simp
@[simp] theorem Slot.setReg_lentHeld (x : Slot) (r : Reg) (v : Word) : (x.setReg r v).lentHeld = x.lentHeld := by unfold Slot.setReg; split <;> simp
@[simp] theorem Slot.setReg_wakes (x : Slot) (r : Reg) (v : Word) : (x.setReg r v).wakes = x.wakes := by unfold Slot.setReg; split <;> simp
@[simp] theorem Slot.setReg_wakeCc (x : Slot) (r : Reg) (v : Word) : (x.setReg r v).wakeCc = x.wakeCc := by unfold Slot.setReg; split <;> simp
@[simp] theorem Slot.setReg_svGroups (x : Slot) (r : Reg) (v : Word) : (x.setReg r v).svGroups = x.svGroups := by unfold Slot.setReg; split <;> simp
@[simp] theorem Slot.setReg_resuming (x : Slot) (r : Reg) (v : Word) : (x.setReg r v).resuming = x.resuming := by unfold Slot.setReg; split <;> simp
@[simp] theorem Slot.setReg_flushAt (x : Slot) (r : Reg) (v : Word) : (x.setReg r v).flushAt = x.flushAt := by unfold Slot.setReg; split <;> simp
@[simp] theorem Slot.setReg_walk (x : Slot) (r : Reg) (v : Word) : (x.setReg r v).walk = x.walk := by unfold Slot.setReg; split <;> simp
@[simp] theorem Slot.setReg_grants (x : Slot) (r : Reg) (v : Word) : (x.setReg r v).grants = x.grants := by unfold Slot.setReg; split <;> simp
@[simp] theorem Slot.setReg_fbuf (x : Slot) (r : Reg) (v : Word) : (x.setReg r v).fbuf = x.fbuf := by unfold Slot.setReg; split <;> simp
@[simp] theorem Slot.setReg_stgs (x : Slot) (r : Reg) (v : Word) : (x.setReg r v).stgs = x.stgs := by unfold Slot.setReg; split <;> simp
@[simp] theorem Slot.setReg_poisoned (x : Slot) (r : Reg) (v : Word) : (x.setReg r v).poisoned = x.poisoned := by unfold Slot.setReg; split <;> simp
@[simp] theorem Slot.setReg_out (x : Slot) (r : Reg) (v : Word) : (x.setReg r v).out = x.out := by unfold Slot.setReg; split <;> simp
@[simp] theorem Slot.setReg_coupled (x : Slot) (r : Reg) (v : Word) : (x.setReg r v).coupled = x.coupled := by unfold Slot.setReg; split <;> simp
@[simp] theorem Slot.setPred_st (x : Slot) (r : PredIx) (v : Bool) : (x.setPred r v).st = x.st := by unfold Slot.setPred; split <;> simp
@[simp] theorem Slot.setPred_s (x : Slot) (r : PredIx) (v : Bool) : (x.setPred r v).s = x.s := by unfold Slot.setPred; split <;> simp
@[simp] theorem Slot.setPred_c (x : Slot) (r : PredIx) (v : Bool) : (x.setPred r v).c = x.c := by unfold Slot.setPred; split <;> simp
@[simp] theorem Slot.setPred_pc (x : Slot) (r : PredIx) (v : Bool) : (x.setPred r v).pc = x.pc := by unfold Slot.setPred; split <;> simp
@[simp] theorem Slot.setPred_status (x : Slot) (r : PredIx) (v : Bool) : (x.setPred r v).status = x.status := by unfold Slot.setPred; split <;> simp
@[simp] theorem Slot.setPred_trapvec (x : Slot) (r : PredIx) (v : Bool) : (x.setPred r v).trapvec = x.trapvec := by unfold Slot.setPred; split <;> simp
@[simp] theorem Slot.setPred_traprec (x : Slot) (r : PredIx) (v : Bool) : (x.setPred r v).traprec = x.traprec := by unfold Slot.setPred; split <;> simp
@[simp] theorem Slot.setPred_ticket (x : Slot) (r : PredIx) (v : Bool) : (x.setPred r v).ticket = x.ticket := by unfold Slot.setPred; split <;> simp
@[simp] theorem Slot.setPred_stealdom (x : Slot) (r : PredIx) (v : Bool) : (x.setPred r v).stealdom = x.stealdom := by unfold Slot.setPred; split <;> simp
@[simp] theorem Slot.setPred_dtnan (x : Slot) (r : PredIx) (v : Bool) : (x.setPred r v).dtnan = x.dtnan := by unfold Slot.setPred; split <;> simp
@[simp] theorem Slot.setPred_timer (x : Slot) (r : PredIx) (v : Bool) : (x.setPred r v).timer = x.timer := by unfold Slot.setPred; split <;> simp
@[simp] theorem Slot.setPred_allot (x : Slot) (r : PredIx) (v : Bool) : (x.setPred r v).allot = x.allot := by unfold Slot.setPred; split <;> simp
@[simp] theorem Slot.setPred_groups (x : Slot) (r : PredIx) (v : Bool) : (x.setPred r v).groups = x.groups := by unfold Slot.setPred; split <;> simp
@[simp] theorem Slot.setPred_want (x : Slot) (r : PredIx) (v : Bool) : (x.setPred r v).want = x.want := by unfold Slot.setPred; split <;> simp
@[simp] theorem Slot.setPred_vrf (x : Slot) (r : PredIx) (v : Bool) : (x.setPred r v).vrf = x.vrf := by unfold Slot.setPred; split <;> simp
@[simp] theorem Slot.setPred_seq (x : Slot) (r : PredIx) (v : Bool) : (x.setPred r v).seq = x.seq := by unfold Slot.setPred; split <;> simp
@[simp] theorem Slot.setPred_seqReply (x : Slot) (r : PredIx) (v : Bool) : (x.setPred r v).seqReply = x.seqReply := by unfold Slot.setPred; split <;> simp
@[simp] theorem Slot.setPred_lq (x : Slot) (r : PredIx) (v : Bool) : (x.setPred r v).lq = x.lq := by unfold Slot.setPred; split <;> simp
@[simp] theorem Slot.setPred_sqRows (x : Slot) (r : PredIx) (v : Bool) : (x.setPred r v).sqRows = x.sqRows := by unfold Slot.setPred; split <;> simp
@[simp] theorem Slot.setPred_drains (x : Slot) (r : PredIx) (v : Bool) : (x.setPred r v).drains = x.drains := by unfold Slot.setPred; split <;> simp
@[simp] theorem Slot.setPred_matQ (x : Slot) (r : PredIx) (v : Bool) : (x.setPred r v).matQ = x.matQ := by unfold Slot.setPred; split <;> simp
@[simp] theorem Slot.setPred_copyQ (x : Slot) (r : PredIx) (v : Bool) : (x.setPred r v).copyQ = x.copyQ := by unfold Slot.setPred; split <;> simp
@[simp] theorem Slot.setPred_matRes (x : Slot) (r : PredIx) (v : Bool) : (x.setPred r v).matRes = x.matRes := by unfold Slot.setPred; split <;> simp
@[simp] theorem Slot.setPred_copyRes (x : Slot) (r : PredIx) (v : Bool) : (x.setPred r v).copyRes = x.copyRes := by unfold Slot.setPred; split <;> simp
@[simp] theorem Slot.setPred_mmaeOut (x : Slot) (r : PredIx) (v : Bool) : (x.setPred r v).mmaeOut = x.mmaeOut := by unfold Slot.setPred; split <;> simp
@[simp] theorem Slot.setPred_since (x : Slot) (r : PredIx) (v : Bool) : (x.setPred r v).since = x.since := by unfold Slot.setPred; split <;> simp
@[simp] theorem Slot.setPred_begun (x : Slot) (r : PredIx) (v : Bool) : (x.setPred r v).begun = x.begun := by unfold Slot.setPred; split <;> simp
@[simp] theorem Slot.setPred_launch (x : Slot) (r : PredIx) (v : Bool) : (x.setPred r v).launch = x.launch := by unfold Slot.setPred; split <;> simp
@[simp] theorem Slot.setPred_join (x : Slot) (r : PredIx) (v : Bool) : (x.setPred r v).join = x.join := by unfold Slot.setPred; split <;> simp
@[simp] theorem Slot.setPred_ret (x : Slot) (r : PredIx) (v : Bool) : (x.setPred r v).ret = x.ret := by unfold Slot.setPred; split <;> simp
@[simp] theorem Slot.setPred_retpos (x : Slot) (r : PredIx) (v : Bool) : (x.setPred r v).retpos = x.retpos := by unfold Slot.setPred; split <;> simp
@[simp] theorem Slot.setPred_strand (x : Slot) (r : PredIx) (v : Bool) : (x.setPred r v).strand = x.strand := by unfold Slot.setPred; split <;> simp
@[simp] theorem Slot.setPred_group (x : Slot) (r : PredIx) (v : Bool) : (x.setPred r v).group = x.group := by unfold Slot.setPred; split <;> simp
@[simp] theorem Slot.setPred_ival (x : Slot) (r : PredIx) (v : Bool) : (x.setPred r v).ival = x.ival := by unfold Slot.setPred; split <;> simp
@[simp] theorem Slot.setPred_packet (x : Slot) (r : PredIx) (v : Bool) : (x.setPred r v).packet = x.packet := by unfold Slot.setPred; split <;> simp
@[simp] theorem Slot.setPred_gang (x : Slot) (r : PredIx) (v : Bool) : (x.setPred r v).gang = x.gang := by unfold Slot.setPred; split <;> simp
@[simp] theorem Slot.setPred_inl (x : Slot) (r : PredIx) (v : Bool) : (x.setPred r v).inl = x.inl := by unfold Slot.setPred; split <;> simp
@[simp] theorem Slot.setPred_adone (x : Slot) (r : PredIx) (v : Bool) : (x.setPred r v).adone = x.adone := by unfold Slot.setPred; split <;> simp
@[simp] theorem Slot.setPred_held (x : Slot) (r : PredIx) (v : Bool) : (x.setPred r v).held = x.held := by unfold Slot.setPred; split <;> simp
@[simp] theorem Slot.setPred_park (x : Slot) (r : PredIx) (v : Bool) : (x.setPred r v).park = x.park := by unfold Slot.setPred; split <;> simp
@[simp] theorem Slot.setPred_reply (x : Slot) (r : PredIx) (v : Bool) : (x.setPred r v).reply = x.reply := by unfold Slot.setPred; split <;> simp
@[simp] theorem Slot.setPred_lastIssue (x : Slot) (r : PredIx) (v : Bool) : (x.setPred r v).lastIssue = x.lastIssue := by unfold Slot.setPred; split <;> simp
@[simp] theorem Slot.setPred_fromCc (x : Slot) (r : PredIx) (v : Bool) : (x.setPred r v).fromCc = x.fromCc := by unfold Slot.setPred; split <;> simp
@[simp] theorem Slot.setPred_preReq (x : Slot) (r : PredIx) (v : Bool) : (x.setPred r v).preReq = x.preReq := by unfold Slot.setPred; split <;> simp
@[simp] theorem Slot.setPred_faults (x : Slot) (r : PredIx) (v : Bool) : (x.setPred r v).faults = x.faults := by unfold Slot.setPred; split <;> simp
@[simp] theorem Slot.setPred_faultTag (x : Slot) (r : PredIx) (v : Bool) : (x.setPred r v).faultTag = x.faultTag := by unfold Slot.setPred; split <;> simp
@[simp] theorem Slot.setPred_mmaFault (x : Slot) (r : PredIx) (v : Bool) : (x.setPred r v).mmaFault = x.mmaFault := by unfold Slot.setPred; split <;> simp
@[simp] theorem Slot.setPred_lentTag (x : Slot) (r : PredIx) (v : Bool) : (x.setPred r v).lentTag = x.lentTag := by unfold Slot.setPred; split <;> simp
@[simp] theorem Slot.setPred_lentLaunch (x : Slot) (r : PredIx) (v : Bool) : (x.setPred r v).lentLaunch = x.lentLaunch := by unfold Slot.setPred; split <;> simp
@[simp] theorem Slot.setPred_lentVec (x : Slot) (r : PredIx) (v : Bool) : (x.setPred r v).lentVec = x.lentVec := by unfold Slot.setPred; split <;> simp
@[simp] theorem Slot.setPred_lentHeld (x : Slot) (r : PredIx) (v : Bool) : (x.setPred r v).lentHeld = x.lentHeld := by unfold Slot.setPred; split <;> simp
@[simp] theorem Slot.setPred_wakes (x : Slot) (r : PredIx) (v : Bool) : (x.setPred r v).wakes = x.wakes := by unfold Slot.setPred; split <;> simp
@[simp] theorem Slot.setPred_wakeCc (x : Slot) (r : PredIx) (v : Bool) : (x.setPred r v).wakeCc = x.wakeCc := by unfold Slot.setPred; split <;> simp
@[simp] theorem Slot.setPred_svGroups (x : Slot) (r : PredIx) (v : Bool) : (x.setPred r v).svGroups = x.svGroups := by unfold Slot.setPred; split <;> simp
@[simp] theorem Slot.setPred_resuming (x : Slot) (r : PredIx) (v : Bool) : (x.setPred r v).resuming = x.resuming := by unfold Slot.setPred; split <;> simp
@[simp] theorem Slot.setPred_flushAt (x : Slot) (r : PredIx) (v : Bool) : (x.setPred r v).flushAt = x.flushAt := by unfold Slot.setPred; split <;> simp
@[simp] theorem Slot.setPred_walk (x : Slot) (r : PredIx) (v : Bool) : (x.setPred r v).walk = x.walk := by unfold Slot.setPred; split <;> simp
@[simp] theorem Slot.setPred_grants (x : Slot) (r : PredIx) (v : Bool) : (x.setPred r v).grants = x.grants := by unfold Slot.setPred; split <;> simp
@[simp] theorem Slot.setPred_fbuf (x : Slot) (r : PredIx) (v : Bool) : (x.setPred r v).fbuf = x.fbuf := by unfold Slot.setPred; split <;> simp
@[simp] theorem Slot.setPred_stgs (x : Slot) (r : PredIx) (v : Bool) : (x.setPred r v).stgs = x.stgs := by unfold Slot.setPred; split <;> simp
@[simp] theorem Slot.setPred_poisoned (x : Slot) (r : PredIx) (v : Bool) : (x.setPred r v).poisoned = x.poisoned := by unfold Slot.setPred; split <;> simp
@[simp] theorem Slot.setPred_out (x : Slot) (r : PredIx) (v : Bool) : (x.setPred r v).out = x.out := by unfold Slot.setPred; split <;> simp
@[simp] theorem Slot.setPred_coupled (x : Slot) (r : PredIx) (v : Bool) : (x.setPred r v).coupled = x.coupled := by unfold Slot.setPred; split <;> simp

/-! ### A slot put into a core -/

@[simp] theorem Core.setSlot_alm (c : Core) (k : Nat) (x : Slot) : (c.setSlot k x).alm = c.alm := rfl
@[simp] theorem Core.setSlot_almNext (c : Core) (k : Nat) (x : Slot) : (c.setSlot k x).almNext = c.almNext := rfl
@[simp] theorem Core.setSlot_lm (c : Core) (k : Nat) (x : Slot) : (c.setSlot k x).lm = c.lm := rfl
@[simp] theorem Core.setSlot_lmEmpty (c : Core) (k : Nat) (x : Slot) : (c.setSlot k x).lmEmpty = c.lmEmpty := rfl
@[simp] theorem Core.setSlot_lmPoison (c : Core) (k : Nat) (x : Slot) : (c.setSlot k x).lmPoison = c.lmPoison := rfl
@[simp] theorem Core.setSlot_path (c : Core) (k : Nat) (x : Slot) : (c.setSlot k x).path = c.path := rfl
@[simp] theorem Core.setSlot_l1 (c : Core) (k : Nat) (x : Slot) : (c.setSlot k x).l1 = c.l1 := rfl
@[simp] theorem Core.setSlot_icache (c : Core) (k : Nat) (x : Slot) : (c.setSlot k x).icache = c.icache := rfl
@[simp] theorem Core.setSlot_waiters (c : Core) (k : Nat) (x : Slot) : (c.setSlot k x).waiters = c.waiters := rfl
@[simp] theorem Core.setSlot_msgs (c : Core) (k : Nat) (x : Slot) : (c.setSlot k x).msgs = c.msgs := rfl
@[simp] theorem Core.setSlot_msgWait (c : Core) (k : Nat) (x : Slot) : (c.setSlot k x).msgWait = c.msgWait := rfl
@[simp] theorem Core.setSlot_arrivals (c : Core) (k : Nat) (x : Slot) : (c.setSlot k x).arrivals = c.arrivals := rfl
@[simp] theorem Core.setSlot_zones (c : Core) (k : Nat) (x : Slot) : (c.setSlot k x).zones = c.zones := rfl
@[simp] theorem Core.setSlot_lzGen (c : Core) (k : Nat) (x : Slot) : (c.setSlot k x).lzGen = c.lzGen := rfl
@[simp] theorem Core.setSlot_lzWait (c : Core) (k : Nat) (x : Slot) : (c.setSlot k x).lzWait = c.lzWait := rfl
@[simp] theorem Core.setSlot_lzdrop (c : Core) (k : Nat) (x : Slot) : (c.setSlot k x).lzdrop = c.lzdrop := rfl
@[simp] theorem Core.setSlot_rings (c : Core) (k : Nat) (x : Slot) : (c.setSlot k x).rings = c.rings := rfl
@[simp] theorem Core.setSlot_tiles (c : Core) (k : Nat) (x : Slot) : (c.setSlot k x).tiles = c.tiles := rfl
@[simp] theorem Core.setSlot_acc (c : Core) (k : Nat) (x : Slot) : (c.setSlot k x).acc = c.acc := rfl
@[simp] theorem Core.setSlot_dtab (c : Core) (k : Nat) (x : Slot) : (c.setSlot k x).dtab = c.dtab := rfl
@[simp] theorem Core.setSlot_dtag (c : Core) (k : Nat) (x : Slot) : (c.setSlot k x).dtag = c.dtag := rfl
@[simp] theorem Core.setSlot_copyOrd (c : Core) (k : Nat) (x : Slot) : (c.setSlot k x).copyOrd = c.copyOrd := rfl
@[simp] theorem Core.setSlot_copyRun (c : Core) (k : Nat) (x : Slot) : (c.setSlot k x).copyRun = c.copyRun := rfl
@[simp] theorem Core.setSlot_ended (c : Core) (k : Nat) (x : Slot) : (c.setSlot k x).ended = c.ended := rfl

/-! ### Read after write -/

/-- A core reads what was last put there, and every other core reads as before. -/
theorem State.core_setCore (s : State) (n : Nat) (c : Core) (m : Nat) :
    (s.setCore n c).core m = if n = m then c else s.core m := by
  simp [State.core, State.setCore, Sparse.get_put]

@[simp] theorem State.core_setCore_same (s : State) (n : Nat) (c : Core) : (s.setCore n c).core n = c := by
  simp [State.core_setCore]

@[simp] theorem State.core_modCore_same (s : State) (n : Nat) (f : Core → Core) : (s.modCore n f).core n = f (s.core n) := by
  simp [State.modCore]

theorem State.core_modCore_other (s : State) {n m : Nat} (f : Core → Core) (h : n ≠ m) : (s.modCore n f).core m = s.core m := by
  simp [State.modCore, State.core_setCore, h]

/-- A slot reads what was last put there, and every other slot of the core reads as before. -/
theorem Core.slot_setSlot (c : Core) (k : Nat) (x : Slot) (j : Nat) :
    (c.setSlot k x).slot j = if k = j ∧ k < 16 then x else c.slot j := by
  unfold Core.slot Core.setSlot
  simp only [Vector.getElem?_setIfInBounds]
  by_cases h : k = j
  · subst h
    by_cases hk : k < 16
    · simp [hk]
    · simp [hk]
  · simp [h]

@[simp] theorem Core.slot_setSlot_same (c : Core) (k : Nat) (x : Slot) (h : k < 16) : (c.setSlot k x).slot k = x := by
  simp [Core.slot_setSlot, h]

theorem State.slot_modSlot (s : State) (c k : Nat) (f : Slot → Slot) (c' k' : Nat) :
    (s.modSlot c k f).slot c' k' = if c = c' ∧ k = k' ∧ k < 16 then f (s.slot c k) else s.slot c' k' := by
  simp only [State.slot, State.modSlot, State.setSlot, State.core_setCore]
  by_cases hc : c = c'
  · subst hc; simp [Core.slot_setSlot]
  · simp [hc]

@[simp] theorem State.slot_modSlot_same (s : State) (c k : Nat) (f : Slot → Slot) (h : k < 16) :
    (s.modSlot c k f).slot c k = f (s.slot c k) := by
  simp [State.slot_modSlot, h]

@[simp] theorem State.cur_modCur (s : State) (f : Slot → Slot) (h : s.curSlot < 16) : (s.modCur f).cur = f s.cur := by
  simp [State.modCur, State.cur, h]

/-- A change of one slot leaves the rest of its core alone. -/
theorem State.core_modSlot (s : State) (c k : Nat) (f : Slot → Slot) :
    (s.modSlot c k f).core c = (s.core c).setSlot k (f (s.slot c k)) := by
  simp [State.modSlot, State.setSlot]

theorem State.core_modSlot_other (s : State) {c c' : Nat} (k : Nat) (f : Slot → Slot) (h : c ≠ c') :
    (s.modSlot c k f).core c' = s.core c' := by
  simp [State.modSlot, State.setSlot, State.core_setCore, h]

/-! ### Registers (R55) -/

/-- A register written reads the value, but for s0, which reads 0; every other register reads as before. -/
theorem Slot.reg_setReg (x : Slot) (r : Reg) (v : Word) (q : Reg) :
    (x.setReg r v).reg q = if q = 0#5 then 0 else if q = r then v else x.reg q := by
  unfold Slot.reg Slot.setReg
  by_cases hq : q = 0#5
  · simp [hq]
  · by_cases hr : r = 0#5
    · simp [hq, hr]
    · by_cases h : q = r
      · subst h; simp [hq]
      · have : r.toNat ≠ q.toNat := fun e => h (BitVec.eq_of_toNat_eq e.symm)
        simp [hq, hr, h, Vector.getElem_set_ne, this]

end Sys2Proof.Machine
end

