-- ==== Sys2Proof/Laws/Memory.lean ====
section
/-!
SUPPORT. Every memory operation keeps the memories of the package canonical, and what is read at a place after it is written.
-/
namespace Sys2Proof

open Sys2Proof.Machine

theorem memWf_iff (s : State) :
    MemWf s = true ↔ Memory.wf s.mem = true ∧ ∀ kc ∈ s.cores, Memory.wf kc.2.lm = true := by
  simp [MemWf, List.all_eq_true]

theorem memWf_mem {s : State} (h : MemWf s = true) : Memory.wf s.mem = true := ((memWf_iff s).1 h).1

theorem memWf_lm {s : State} (h : MemWf s = true) (n : Nat) : Memory.wf (s.core n).lm = true := by
  have hc := ((memWf_iff s).1 h).2
  unfold State.core
  generalize s.cores = m at hc
  induction m with
  | nil => rfl
  | cons x t ih =>
    obtain ⟨k, c⟩ := x
    unfold Sparse.get
    split
    · exact hc (k, c) (by simp)
    · exact ih fun kc hkc => hc kc (by simp [hkc])

/-- A change that leaves memory and cores alone keeps the memories canonical. -/
theorem memWf_of_eq {s t : State} (hm : t.mem = s.mem) (hc : t.cores = s.cores) (h : MemWf s = true) : MemWf t = true := by
  rw [memWf_iff] at h ⊢
  rw [hm, hc]
  exact h

theorem memWf_of_cores {s t : State} (hm : Memory.wf t.mem = true) (hc : t.cores = s.cores) (h : MemWf s = true) :
    MemWf t = true := by
  rw [memWf_iff] at h ⊢
  rw [hc]
  exact ⟨hm, h.2⟩

theorem memWf_setCore {s : State} (n : Nat) {c : Core} (h : MemWf s = true) (hc : Memory.wf c.lm = true) :
    MemWf (s.setCore n c) = true := by
  rw [memWf_iff] at h ⊢
  refine ⟨h.1, fun kc hkc => ?_⟩
  rcases Sparse.mem_put hkc with rfl | hkc
  · exact hc
  · exact h.2 kc hkc

theorem memWf_modCore {s : State} (n : Nat) {f : Core → Core} (h : MemWf s = true)
    (hf : ∀ c, Memory.wf c.lm = true → Memory.wf (f c).lm = true) : MemWf (s.modCore n f) = true :=
  memWf_setCore n h (hf _ (memWf_lm h n))

/-- A change of a core that leaves its local memory alone. -/
theorem memWf_modCore_keep {s : State} (n : Nat) {f : Core → Core} (h : MemWf s = true) (hf : ∀ c, (f c).lm = c.lm) :
    MemWf (s.modCore n f) = true :=
  memWf_modCore n h fun c hc => by rw [hf]; exact hc

@[simp] theorem memWf_modSlot {s : State} (c k : Nat) (f : Slot → Slot) (h : MemWf s = true) :
    MemWf (s.modSlot c k f) = true :=
  memWf_setCore c h (memWf_lm h c)

@[simp] theorem memWf_setSlot {s : State} (c k : Nat) (x : Slot) (h : MemWf s = true) : MemWf (s.setSlot c k x) = true :=
  memWf_setCore c h (memWf_lm h c)

@[simp] theorem memWf_modCur {s : State} (f : Slot → Slot) (h : MemWf s = true) : MemWf (s.modCur f) = true :=
  memWf_modSlot _ _ f h

@[simp] theorem memWf_setReg {s : State} (r : Reg) (v : Word) (h : MemWf s = true) : MemWf (s.setReg r v) = true :=
  memWf_modCur _ h

@[simp] theorem memWf_setPred {s : State} (r : PredIx) (v : Bool) (h : MemWf s = true) : MemWf (s.setPred r v) = true :=
  memWf_modCur _ h

@[simp] theorem memWf_raise {s : State} (f : RFlags) (h : MemWf s = true) : MemWf (s.raise f) = true := memWf_modCur _ h

@[simp] theorem memWf_modCluster {s : State} (n : Nat) (f : Cluster → Cluster) (h : MemWf s = true) :
    MemWf (s.modCluster n f) = true := memWf_of_eq rfl rfl h

@[simp] theorem memWf_modLaunch {s : State} (id : Nat) (f : Launch → Launch) (h : MemWf s = true) :
    MemWf (s.modLaunch id f) = true := memWf_of_eq rfl rfl h

@[simp] theorem memWf_notify {s : State} (k w : Nat) (h : MemWf s = true) : MemWf (s.notify k w) = true :=
  memWf_of_eq rfl rfl h

/-! ## Memory operations -/

/-- Bytes written at a place keep the memories canonical. -/
@[simp] theorem memWf_wrLoc {s : State} (l : Loc) (bs : List Byte) (p : Bool) (h : MemWf s = true) :
    MemWf (s.wrLoc l bs p) = true := by
  cases l with
  | mem pa t c k =>
    have hm := Memory.wf_wrBytes bs pa (memWf_mem h)
    exact memWf_of_cores (s := s) hm rfl h
  | lm core off => exact memWf_modCore core h fun c hc => Memory.wf_wrBytes bs off hc
  | peer _ _ => exact h
  | noPart _ => exact h
  | lost _ => exact h

@[simp] theorem memWf_wrLm {s : State} (core off : Nat) (bs : List Byte) (h : MemWf s = true) :
    MemWf (s.wrLm core off bs) = true := memWf_wrLoc _ _ _ h

@[simp] theorem memWf_setFull {s : State} (l : Loc) (b : Bool) (h : MemWf s = true) : MemWf (s.setFull l b) = true := by
  cases l with
  | mem pa t c k => exact memWf_of_eq (s := s) rfl rfl h
  | lm core off => exact memWf_modCore_keep core h fun _ => rfl
  | peer _ _ => exact h
  | noPart _ => exact h
  | lost _ => exact h

@[simp] theorem memWf_touch {s : State} (l : Loc) (w : Bool) (cl : Nat) (bs : List Byte) (pasid : Option (BitVec 20)) (inval : Bool)
    (h : MemWf s = true) : MemWf (s.touch l w cl bs pasid inval) = true := by
  cases l with
  | mem pa t c k => exact memWf_of_eq (s := s) rfl rfl h
  | lm core off => exact h
  | peer _ _ => exact h
  | noPart _ => exact h
  | lost _ => exact h

@[simp] theorem memWf_selfInvalidate {s : State} (core : Nat) (h : MemWf s = true) : MemWf (s.selfInvalidate core) = true :=
  memWf_modCore_keep core h fun _ => rfl

@[simp] theorem memWf_refreshL1 {s : State} (core : Nat) (l : Loc) (bs : List Byte) (p : Bool) (h : MemWf s = true) :
    MemWf (s.refreshL1 core l bs p) = true := by
  cases l with
  | mem pa t c k => exact memWf_modCore_keep core h fun _ => rfl
  | lm core off => exact h
  | peer _ _ => exact h
  | noPart _ => exact h
  | lost _ => exact h

/-! ## Reading after a write -/

/-- A byte of device memory after bytes are written there. -/
theorem byteAt_wrLoc_other {s : State} (pa : Nat) (t : Bool) (c k : Nat) (bs : List Byte) (p : Bool) (a : Nat)
    (ha : a < pa ∨ pa + bs.length ≤ a) : byteAt (s.wrLoc (.mem pa t c k) bs p) a = byteAt s a :=
  Memory.rd_wrBytes_other bs s.mem pa a ha

/-- A write to a core's local memory leaves device memory alone. -/
@[simp] theorem byteAt_wrLm (s : State) (core off : Nat) (bs : List Byte) (a : Nat) :
    byteAt (s.wrLm core off bs) a = byteAt s a := rfl

/-- The bytes written at a place are read back there. -/
theorem rdLoc_wrLoc {s : State} (l : Loc) (bs : List Byte) (p : Bool)
    (hl : ∀ d v, l ≠ .peer d v) (hn : ∀ v, l ≠ .noPart v) (hx : ∀ v, l ≠ .lost v) : (s.wrLoc l bs p).rdLoc l bs.length = bs := by
  cases l with
  | mem pa t c k => exact Memory.rdBytes_wrBytes bs s.mem pa
  | lm core off =>
    simp only [State.wrLoc, State.rdLoc, State.core_modCore_same]
    exact Memory.rdBytes_wrBytes bs _ off
  | peer d v => exact absurd rfl (hl d v)
  | noPart v => exact absurd rfl (hn v)
  | lost v => exact absurd rfl (hx v)

end Sys2Proof
end

