-- ==== Sys2Proof/Laws/Ops.lean ====
section
/-!
SUPPORT. What the shared operations of instructions do, said once: how an instruction ends, guards, checks, the common forms of
the A-slot, handing to the sequencer, translation.
-/
namespace Sys2Proof.Machine

open Sys2Proof

/-! ## Checks -/

@[simp] theorem need_true (e : Stop) : need true e = .ok () := rfl
@[simp] theorem need_false (e : Stop) : need false e = .error e := rfl

theorem need_ok {b : Bool} {e : Stop} (h : need b e = .ok ()) : b = true := by
  cases b
  · cases h
  · rfl

theorem need_error {b : Bool} {e e' : Stop} (h : need b e = .error e') : b = false ∧ e' = e := by
  cases b
  · cases h; exact ⟨rfl, rfl⟩
  · cases h

/-! ## How an instruction ends -/

theorem finish_ok (s t : State) :
    finish s (.ok t) = .next (t.modCur fun x => { x with grants := [], since := none, walk := none, inl := none }) := rfl

theorem finish_error (s : State) (e : Stop) : finish s (.error e) = .next (s.stop e) := rfl

/-- Every instruction that ends in `finish` goes on. -/
theorem finish_next (s : State) (r : Except Stop State) : ∃ t, finish s r = .next t := ⟨_, rfl⟩

theorem guarded_true {g : PredIx} {s : State} (h : s.guard g = true) (r : Except Stop State) :
    guarded g s r = finish s r := by
  simp [guarded, h]

/-- An instruction whose guard does not hold has no effect (R50). -/
theorem guarded_false {g : PredIx} {s : State} (h : s.guard g = false) (r : Except Stop State) :
    guarded g s r = .next s := by
  simp [guarded, h]

/-! ## The common forms of the A-slot -/

theorem writeIf_true {g : PredIx} {s : State} (h : s.guard g = true) (d : Reg) (v : Word) :
    writeIf g d v s = .next (s.setReg d v) := by
  simp [writeIf, h]

theorem writeIf_false {g : PredIx} {s : State} (h : s.guard g = false) (d : Reg) (v : Word) :
    writeIf g d v s = .next s := by
  simp [writeIf, h]

theorem predIf_true {g : PredIx} {s : State} (h : s.guard g = true) (p : PredIx) (v : Bool) :
    predIf g p v s = .next (s.setPred p v) := by
  simp [predIf, h]

theorem predIf_false {g : PredIx} {s : State} (h : s.guard g = false) (p : PredIx) (v : Bool) :
    predIf g p v s = .next s := by
  simp [predIf, h]

theorem fpIf_true {g : PredIx} {s : State} (h : s.guard g = true) (d : Reg) (r : Nat × RFlags) :
    fpIf g d r s = .next ((s.setReg d (BitVec.ofNat 64 r.1)).raise r.2) := by
  simp [fpIf, h]

theorem fpIf_false {g : PredIx} {s : State} (h : s.guard g = false) (d : Reg) (r : Nat × RFlags) :
    fpIf g d r s = .next s := by
  simp [fpIf, h]

/-! ## Handing to the sequencer -/

/-- Outside a run that is being handed, an entry goes to the end of the sequencer. -/
theorem handEntry_true {g : PredIx} {s : State} (h : s.guard g = true) (op : Instr) (x y : Word) :
    handEntry g op x y s = .next (s.modCur fun t =>
      { t with seq := dropEmptyRun (hand t.seq ⟨op, x, y, false, [], none, s.cc⟩) }) := by
  simp [handEntry, h]

theorem handScalar_true {g : PredIx} {s : State} (h : s.guard g = true) (op : Instr) (x y : Word) :
    handScalar g op x y s = .next (s.modCur fun t =>
      { t with seq := hand t.seq ⟨op, x, y, false, [], none, s.cc⟩, seqReply := true, st := .reply }) := by
  simp [handScalar, h]

/-! ## Translation (R103) -/

/-- A DVA that the port maps with the rights an access needs goes to the place its entry gives. -/
theorem xlate_ok {s : State} {dva : Nat} {kind : Access} {e : TlbEntry} (hw : s.cur.walkFailed (s.asidOf s.cur) dva kind = none)
    (he : s.tlbFind s.curCore s.cur (s.asidOf s.cur) dva = some e) (hr : leafCause e.pte kind.reads kind.writes = none) :
    s.xlate dva kind = .ok (e.loc dva) := by
  simp [State.xlate, hw, he, hr]

/-- A DVA that the port does not map starts a walk. -/
theorem xlate_miss {s : State} {dva : Nat} {kind : Access} (hw : s.cur.walkFailed (s.asidOf s.cur) dva kind = none)
    (he : s.tlbFind s.curCore s.cur (s.asidOf s.cur) dva = none) :
    s.xlate dva kind = .error (.walk (s.asidOf s.cur) dva kind) := by
  simp [State.xlate, hw, he]

/-! ## Steps -/

theorem step_issue {s : State} (hb : s.boot = .ready) (hi : s.issuing = true) :
    step s = .next ({ s with issuing := false }.runGroup run) := by
  simp [step, hb, hi]

theorem step_turn {s : State} {i : Instr} {rest : List Instr} (hb : s.boot = .ready) (hi : s.issuing = false)
    (ht : s.turns = i :: rest) : step s = exec i { s with turns := rest } := by
  simp [step, hb, hi, ht]

theorem step_proceed {s : State} (hb : s.boot = .ready) (hi : s.issuing = false) (ht : s.turns = []) :
    step s = .next (s.proceed run) := by
  simp [step, hb, hi, ht]

end Sys2Proof.Machine
end

