-- ==== Sys2Proof/Laws/PerInstr.lean ====
section
/-!
SUPPORT. Statements about every instruction, one lemma for each: what the encoder writes, the decoder reads back.
-/
namespace Sys2Proof.Laws.RoundTrip

set_option Elab.async false
set_option linter.unusedSimpArgs false

open Sys2Proof
open BitVec (extractLsb'_append_eq_of_le extractLsb'_append_eq_of_add_le extractLsb'_eq_self)

/-- The words of a well-formed instruction decode to it; an event or a command has no words. -/
def Statement (i : Instr) : Prop :=
  WellFormed i = true → encode i = .none ∨ decode (encode i) = some (asDecoded i)

theorem nopC : Statement (.nopC) := by
  exact fun _ => .inr (by decide +kernel)

theorem ld (d : Reg) (a : Reg) (c : CapIx) (imm : BitVec 12) : Statement (.ld d a c imm) := by
  intro h; right
  simp only [encode, asDecoded, decode, ci, decodeC, rawC, copOf_CI]
  simp [rawCAt, Option.filter, when0, h]

theorem ldLone (d : Reg) (a : Reg) (c : CapIx) (ext : Half) : Statement (.ldLone d a c ext) := by
  intro h; right
  simp only [encode, asDecoded, decode, loneCI, decodeLone, rawLone, copOf_CI]
  simp [rawLoneAt, Option.filter, when0, h]

theorem st (d : Reg) (a : Reg) (c : CapIx) (imm : BitVec 12) : Statement (.st d a c imm) := by
  intro h; right
  simp only [encode, asDecoded, decode, ci, decodeC, rawC, copOf_CI]
  simp [rawCAt, Option.filter, when0, h]

theorem stLone (d : Reg) (a : Reg) (c : CapIx) (ext : Half) : Statement (.stLone d a c ext) := by
  intro h; right
  simp only [encode, asDecoded, decode, loneCI, decodeLone, rawLone, copOf_CI]
  simp [rawLoneAt, Option.filter, when0, h]

theorem ldl (d : Reg) (a : Reg) (imm : BitVec 12) : Statement (.ldl d a imm) := by
  intro h; right
  simp only [encode, asDecoded, decode, ci, decodeC, rawC, copOf_CI]
  simp [rawCAt, Option.filter, when0, h]

theorem ldlLone (d : Reg) (a : Reg) (ext : Half) : Statement (.ldlLone d a ext) := by
  intro h; right
  simp only [encode, asDecoded, decode, loneCI, decodeLone, rawLone, copOf_CI]
  simp [rawLoneAt, Option.filter, when0, h]

theorem stl (d : Reg) (a : Reg) (imm : BitVec 12) : Statement (.stl d a imm) := by
  intro h; right
  simp only [encode, asDecoded, decode, ci, decodeC, rawC, copOf_CI]
  simp [rawCAt, Option.filter, when0, h]

theorem stlLone (d : Reg) (a : Reg) (ext : Half) : Statement (.stlLone d a ext) := by
  intro h; right
  simp only [encode, asDecoded, decode, loneCI, decodeLone, rawLone, copOf_CI]
  simp [rawLoneAt, Option.filter, when0, h]

theorem ldh (d : Reg) (a : Reg) (c : CapIx) (m : BitVec 1) (imm : BitVec 9) : Statement (.ldh d a c m imm) := by
  intro h; right
  simp only [encode, asDecoded, decode, cf, decodeC, rawC, copOf_CF]
  simp [rawCAt, Option.filter, when0, h]

theorem ldf (d : Reg) (a : Reg) (c : CapIx) (m : BitVec 1) (imm : BitVec 9) : Statement (.ldf d a c m imm) := by
  intro h; right
  simp only [encode, asDecoded, decode, cf, decodeC, rawC, copOf_CF]
  simp [rawCAt, Option.filter, when0, h]

theorem ldx (d : Reg) (a : Reg) (c : CapIx) (m : BitVec 1) (imm : BitVec 9) : Statement (.ldx d a c m imm) := by
  intro h; right
  simp only [encode, asDecoded, decode, cf, decodeC, rawC, copOf_CF]
  simp [rawCAt, Option.filter, when0, h]

theorem stf (d : Reg) (a : Reg) (c : CapIx) (m : BitVec 1) (imm : BitVec 9) : Statement (.stf d a c m imm) := by
  intro h; right
  simp only [encode, asDecoded, decode, cf, decodeC, rawC, copOf_CF]
  simp [rawCAt, Option.filter, when0, h]

theorem stfa (d : Reg) (a : Reg) (c : CapIx) (m : BitVec 1) (imm : BitVec 9) : Statement (.stfa d a c m imm) := by
  intro h; right
  simp only [encode, asDecoded, decode, cf, decodeC, rawC, copOf_CF]
  simp [rawCAt, Option.filter, when0, h]

theorem feclr (a : Reg) (c : CapIx) (m : BitVec 1) (imm : BitVec 9) : Statement (.feclr a c m imm) := by
  intro h; right
  simp only [encode, asDecoded, decode, cf, decodeC, rawC, copOf_CF]
  simp [rawCAt, Option.filter, when0, h]

theorem waitListBusyReissue (core : Nat) (slot : Nat) : Statement (.waitListBusyReissue core slot) := by
  intro _; exact .inl rfl

theorem lq (d : Reg) (a : Reg) (b : Reg) (c : CapIx) (g : PredIx) (k : BitVec 4) : Statement (.lq d a b c g k) := by
  intro h; right
  simp only [encode, asDecoded, decode, cr, decodeC, rawC, copOf_CR]
  simp [rawCAt, Option.filter, when0, CR.unused, h]

theorem loadQueueRowFill (core : Nat) (slot : Nat) (q : Nat) : Statement (.loadQueueRowFill core slot q) := by
  intro _; exact .inl rfl

theorem sq (d : Reg) (a : Reg) (b : Reg) (c : CapIx) (g : PredIx) (k : BitVec 4) : Statement (.sq d a b c g k) := by
  intro h; right
  simp only [encode, asDecoded, decode, cr, decodeC, rawC, copOf_CR]
  simp [rawCAt, Option.filter, when0, CR.unused, h]

theorem atom (d : Reg) (a : Reg) (b : Reg) (c : CapIx) (ord : BitVec 2) (size : BitVec 1) (op : BitVec 4) : Statement (.atom d a b c ord size op) := by
  intro h; right
  simp only [encode, asDecoded, decode, ca, decodeC, rawC, copOf_CA]
  simp [rawCAt, Option.filter, when0, h]

theorem cas (d : Reg) (a : Reg) (b : Reg) (c : CapIx) (ord : BitVec 2) (size : BitVec 1) : Statement (.cas d a b c ord size) := by
  intro h; right
  simp only [encode, asDecoded, decode, ca, decodeC, rawC, copOf_CA]
  simp [rawCAt, Option.filter, when0, h]

theorem stg (d : Reg) (a : Reg) (c : CapIx) (imm : BitVec 12) : Statement (.stg d a c imm) := by
  intro h; right
  simp only [encode, asDecoded, decode, ci, decodeC, rawC, copOf_CI]
  simp [rawCAt, Option.filter, when0, h]

theorem stgLone (d : Reg) (a : Reg) (c : CapIx) (ext : Half) : Statement (.stgLone d a c ext) := by
  intro h; right
  simp only [encode, asDecoded, decode, loneCI, decodeLone, rawLone, copOf_CI]
  simp [rawLoneAt, Option.filter, when0, h]

theorem stgAcknowledgement (n : Nat) : Statement (.stgAcknowledgement n) := by
  intro _; exact .inl rfl

theorem fence (g : PredIx) (f : BitVec 2) : Statement (.fence g f) := by
  intro h; right
  simp only [encode, asDecoded, decode, cr, decodeC, rawC, copOf_CR]
  simp [rawCAt, Option.filter, when0, CR.unused, fence_field, h]

theorem rflush (d : Reg) (a : Reg) (b : Reg) (c : CapIx) (g : PredIx) : Statement (.rflush d a b c g) := by
  intro h; right
  simp only [encode, asDecoded, decode, cr, decodeC, rawC, copOf_CR]
  simp [rawCAt, Option.filter, when0, CR.unused, h]

theorem rinv (d : Reg) (a : Reg) (b : Reg) (c : CapIx) (g : PredIx) : Statement (.rinv d a b c g) := by
  intro h; right
  simp only [encode, asDecoded, decode, cr, decodeC, rawC, copOf_CR]
  simp [rawCAt, Option.filter, when0, CR.unused, h]

theorem cacheWalk (cluster : Nat) : Statement (.cacheWalk cluster) := by
  intro _; exact .inl rfl

theorem cld (a : Reg) (c : CapIx) (g : PredIx) : Statement (.cld a c g) := by
  intro h; right
  simp only [encode, asDecoded, decode, cr, decodeC, rawC, copOf_CR]
  simp [rawCAt, Option.filter, when0, CR.unused, h]

theorem cst (a : Reg) (c : CapIx) (g : PredIx) : Statement (.cst a c g) := by
  intro h; right
  simp only [encode, asDecoded, decode, cr, decodeC, rawC, copOf_CR]
  simp [rawCAt, Option.filter, when0, CR.unused, h]

theorem cnar (d : Reg) (a : Reg) (b : Reg) (c : CapIx) (g : PredIx) : Statement (.cnar d a b c g) := by
  intro h; right
  simp only [encode, asDecoded, decode, cr, decodeC, rawC, copOf_CR]
  simp [rawCAt, Option.filter, when0, CR.unused, h]

theorem cgive (a : Reg) (c : CapIx) (g : PredIx) : Statement (.cgive a c g) := by
  intro h; right
  simp only [encode, asDecoded, decode, cr, decodeC, rawC, copOf_CR]
  simp [rawCAt, Option.filter, when0, CR.unused, h]

theorem br (disp : BitVec 21) : Statement (.br disp) := by
  intro h; right
  simp only [encode, asDecoded, decode, cb, decodeC, rawC, copOf_CB]
  simp [rawCAt, Option.filter, when0, h]

theorem brLone (ext : Half) : Statement (.brLone ext) := by
  intro h; right
  simp only [encode, asDecoded, decode, loneCB, decodeLone, rawLone, copOf_CB]
  simp [rawLoneAt, Option.filter, when0, h]

theorem bc (p : PredIx) (sense : BitVec 1) (disp : BitVec 21) : Statement (.bc p sense disp) := by
  intro h; right
  simp only [encode, asDecoded, decode, cb, decodeC, rawC, copOf_CB]
  simp [rawCAt, Option.filter, when0, h]

theorem bcLone (p : PredIx) (sense : BitVec 1) (ext : Half) : Statement (.bcLone p sense ext) := by
  intro h; right
  simp only [encode, asDecoded, decode, loneCB, decodeLone, rawLone, copOf_CB]
  simp [rawLoneAt, Option.filter, when0, h]

theorem jal (disp : BitVec 21) : Statement (.jal disp) := by
  intro h; right
  simp only [encode, asDecoded, decode, cb, decodeC, rawC, copOf_CB]
  simp [rawCAt, Option.filter, when0, h]

theorem jalLone (ext : Half) : Statement (.jalLone ext) := by
  intro h; right
  simp only [encode, asDecoded, decode, loneCB, decodeLone, rawLone, copOf_CB]
  simp [rawLoneAt, Option.filter, when0, h]

theorem jr (d : Reg) (a : Reg) (g : PredIx) : Statement (.jr d a g) := by
  intro h; right
  simp only [encode, asDecoded, decode, cr, decodeC, rawC, copOf_CR]
  simp [rawCAt, Option.filter, when0, CR.unused, h]

theorem loop (d : Reg) (ext : Half) : Statement (.loop d ext) := by
  intro h; right
  simp only [encode, asDecoded, decode, loneCI, decodeLone, rawLone, copOf_CI]
  simp [rawLoneAt, Option.filter, when0, h]

theorem li (d : Reg) (ext : Half) : Statement (.li d ext) := by
  intro h; right
  simp only [encode, asDecoded, decode, loneCI, decodeLone, rawLone, copOf_CI]
  simp [rawLoneAt, Option.filter, when0, h]

theorem lih (d : Reg) (ext : Half) : Statement (.lih d ext) := by
  intro h; right
  simp only [encode, asDecoded, decode, loneCI, decodeLone, rawLone, copOf_CI]
  simp [rawLoneAt, Option.filter, when0, h]

theorem spawn (a : Reg) (b : Reg) (c : CapIx) (g : PredIx) : Statement (.spawn a b c g) := by
  intro h; right
  simp only [encode, asDecoded, decode, cr, decodeC, rawC, copOf_CR]
  simp [rawCAt, Option.filter, when0, CR.unused, h]

theorem spawnLone (a : Reg) (c : CapIx) (ext : Half) : Statement (.spawnLone a c ext) := by
  intro h; right
  simp only [encode, asDecoded, decode, decodeLone, rawLone, copOf_CR]
  simp [rawLoneAt, Option.filter, when0, CR.unused, h]

theorem await (a : Reg) (c : CapIx) (g : PredIx) : Statement (.await a c g) := by
  intro h; right
  simp only [encode, asDecoded, decode, cr, decodeC, rawC, copOf_CR]
  simp [rawCAt, Option.filter, when0, CR.unused, h]

theorem done (g : PredIx) : Statement (.done g) := by
  intro h; right
  simp only [encode, asDecoded, decode, cr, decodeC, rawC, copOf_CR]
  simp [rawCAt, Option.filter, when0, CR.unused, h]

theorem migrate (a : Reg) (g : PredIx) : Statement (.migrate a g) := by
  intro h; right
  simp only [encode, asDecoded, decode, cr, decodeC, rawC, copOf_CR]
  simp [rawCAt, Option.filter, when0, CR.unused, h]

theorem send (a : Reg) (b : Reg) (g : PredIx) (ch : BitVec 2) (h : BitVec 1) : Statement (.send a b g ch h) := by
  intro h; right
  simp only [encode, asDecoded, decode, cr, decodeC, rawC, copOf_CR]
  simp [rawCAt, Option.filter, when0, CR.unused, send_field, h]

theorem sende (a : Reg) (b : Reg) (g : PredIx) (ch : BitVec 2) (h : BitVec 1) : Statement (.sende a b g ch h) := by
  intro h; right
  simp only [encode, asDecoded, decode, cr, decodeC, rawC, copOf_CR]
  simp [rawCAt, Option.filter, when0, CR.unused, send_field, h]

theorem waitm (g : PredIx) : Statement (.waitm g) := by
  intro h; right
  simp only [encode, asDecoded, decode, cr, decodeC, rawC, copOf_CR]
  simp [rawCAt, Option.filter, when0, CR.unused, h]

theorem popm (d : Reg) (g : PredIx) : Statement (.popm d g) := by
  intro h; right
  simp only [encode, asDecoded, decode, cr, decodeC, rawC, copOf_CR]
  simp [rawCAt, Option.filter, when0, CR.unused, h]

theorem epushMat (a : Reg) (g : PredIx) : Statement (.epushMat a g) := by
  intro h; right
  simp only [encode, asDecoded, decode, cr, decodeC, rawC, copOf_CR]
  simp [rawCAt, Option.filter, when0, CR.unused, h]

theorem epushCopy (a : Reg) (g : PredIx) : Statement (.epushCopy a g) := by
  intro h; right
  simp only [encode, asDecoded, decode, cr, decodeC, rawC, copOf_CR]
  simp [rawCAt, Option.filter, when0, CR.unused, h]

theorem epop (d : Reg) (g : PredIx) (engine : BitVec 1) : Statement (.epop d g engine) := by
  intro h; right
  simp only [encode, asDecoded, decode, cr, decodeC, rawC, copOf_CR]
  simp [rawCAt, Option.filter, when0, CR.unused, bit_field, h]

theorem mma (d : Reg) (a : Reg) (b : Reg) (c : CapIx) (g : PredIx) (z : BitVec 1) : Statement (.mma d a b c g z) := by
  intro h; right
  simp only [encode, asDecoded, decode, cr, decodeC, rawC, copOf_CR]
  simp [rawCAt, Option.filter, when0, CR.unused, bit_field, h]

theorem mmae (d : Reg) (a : Reg) (b : Reg) (tmask : BitVec 1) (toSq : BitVec 1) (sqIx : BitVec 1) (g : PredIx) (out : BitVec 2) (rnd : BitVec 2) : Statement (.mmae d a b tmask toSq sqIx g out rnd) := by
  intro h; right
  simp only [encode, asDecoded, decode, cr, decodeC, rawC, copOf_CR]
  simp [rawCAt, Option.filter, when0, CR.unused, pair_field, three_field, h]

theorem ringset (d : Reg) (a : Reg) (b : Reg) (g : PredIx) (fmt : BitVec 4) : Statement (.ringset d a b g fmt) := by
  intro h; right
  simp only [encode, asDecoded, decode, cr, decodeC, rawC, copOf_CR]
  simp [rawCAt, Option.filter, when0, CR.unused, h]

theorem claim (d : Reg) (a : Reg) (g : PredIx) : Statement (.claim d a g) := by
  intro h; right
  simp only [encode, asDecoded, decode, cr, decodeC, rawC, copOf_CR]
  simp [rawCAt, Option.filter, when0, CR.unused, h]

theorem shrink (a : Reg) (g : PredIx) : Statement (.shrink a g) := by
  intro h; right
  simp only [encode, asDecoded, decode, cr, decodeC, rawC, copOf_CR]
  simp [rawCAt, Option.filter, when0, CR.unused, h]

theorem vallot (d : Reg) (a : Reg) (g : PredIx) : Statement (.vallot d a g) := by
  intro h; right
  simp only [encode, asDecoded, decode, cr, decodeC, rawC, copOf_CR]
  simp [rawCAt, Option.filter, when0, CR.unused, h]

theorem gang (g : PredIx) : Statement (.gang g) := by
  intro h; right
  simp only [encode, asDecoded, decode, cr, decodeC, rawC, copOf_CR]
  simp [rawCAt, Option.filter, when0, CR.unused, h]

theorem ungang (g : PredIx) : Statement (.ungang g) := by
  intro h; right
  simp only [encode, asDecoded, decode, cr, decodeC, rawC, copOf_CR]
  simp [rawCAt, Option.filter, when0, CR.unused, h]

theorem tdesc (d : Reg) (a : Reg) (g : PredIx) (f : BitVec 4) : Statement (.tdesc d a g f) := by
  intro h; right
  simp only [encode, asDecoded, decode, cr, decodeC, rawC, copOf_CR]
  simp [rawCAt, Option.filter, when0, CR.unused, h]

theorem tback (a : Reg) (b : Reg) (c : CapIx) (g : PredIx) (alt : BitVec 1) : Statement (.tback a b c g alt) := by
  intro h; right
  simp only [encode, asDecoded, decode, cr, decodeC, rawC, copOf_CR]
  simp [rawCAt, Option.filter, when0, CR.unused, bit_field, h]

theorem tbackLevel (n : Nat) : Statement (.tbackLevel n) := by
  intro _; exact .inl rfl

theorem texp (d : Reg) (a : Reg) (g : PredIx) : Statement (.texp d a g) := by
  intro h; right
  simp only [encode, asDecoded, decode, cr, decodeC, rawC, copOf_CR]
  simp [rawCAt, Option.filter, when0, CR.unused, h]

theorem tfill (d : Reg) (a : Reg) (b : Reg) (g : PredIx) : Statement (.tfill d a b g) := by
  intro h; right
  simp only [encode, asDecoded, decode, cr, decodeC, rawC, copOf_CR]
  simp [rawCAt, Option.filter, when0, CR.unused, h]

theorem tseal (d : Reg) (a : Reg) (g : PredIx) : Statement (.tseal d a g) := by
  intro h; right
  simp only [encode, asDecoded, decode, cr, decodeC, rawC, copOf_CR]
  simp [rawCAt, Option.filter, when0, CR.unused, h]

theorem trec (d : Reg) (a : Reg) (g : PredIx) : Statement (.trec d a g) := by
  intro h; right
  simp only [encode, asDecoded, decode, cr, decodeC, rawC, copOf_CR]
  simp [rawCAt, Option.filter, when0, CR.unused, h]

theorem tabort (d : Reg) (a : Reg) (c : CapIx) (g : PredIx) : Statement (.tabort d a c g) := by
  intro h; right
  simp only [encode, asDecoded, decode, cr, decodeC, rawC, copOf_CR]
  simp [rawCAt, Option.filter, when0, CR.unused, h]

theorem tabortUnwind (n : Nat) : Statement (.tabortUnwind n) := by
  intro _; exact .inl rfl

theorem tform (a : Reg) (c : CapIx) (g : PredIx) (f : BitVec 4) : Statement (.tform a c g f) := by
  intro h; right
  simp only [encode, asDecoded, decode, cr, decodeC, rawC, copOf_CR]
  simp [rawCAt, Option.filter, when0, CR.unused, h]

theorem lzres (d : Reg) (a : Reg) (g : PredIx) (w : BitVec 1) (z : BitVec 2) : Statement (.lzres d a g w z) := by
  intro h; right
  simp only [encode, asDecoded, decode, cr, decodeC, rawC, copOf_CR]
  simp [rawCAt, Option.filter, when0, CR.unused, lzres_field, h]

theorem lzexp (d : Reg) (a : Reg) (b : Reg) (g : PredIx) : Statement (.lzexp d a b g) := by
  intro h; right
  simp only [encode, asDecoded, decode, cr, decodeC, rawC, copOf_CR]
  simp [rawCAt, Option.filter, when0, CR.unused, h]

theorem lzwait (d : Reg) (a : Reg) (g : PredIx) : Statement (.lzwait d a g) := by
  intro h; right
  simp only [encode, asDecoded, decode, cr, decodeC, rawC, copOf_CR]
  simp [rawCAt, Option.filter, when0, CR.unused, h]

theorem lzfree (d : Reg) (a : Reg) (g : PredIx) : Statement (.lzfree d a g) := by
  intro h; right
  simp only [encode, asDecoded, decode, cr, decodeC, rawC, copOf_CR]
  simp [rawCAt, Option.filter, when0, CR.unused, h]

theorem lzcfg (d : Reg) (a : Reg) (g : PredIx) : Statement (.lzcfg d a g) := by
  intro h; right
  simp only [encode, asDecoded, decode, cr, decodeC, rawC, copOf_CR]
  simp [rawCAt, Option.filter, when0, CR.unused, h]

theorem lzstat (d : Reg) (a : Reg) (g : PredIx) : Statement (.lzstat d a g) := by
  intro h; right
  simp only [encode, asDecoded, decode, cr, decodeC, rawC, copOf_CR]
  simp [rawCAt, Option.filter, when0, CR.unused, h]

theorem csrr (d : Reg) (n : BitVec 10) : Statement (.csrr d n) := by
  intro h; right
  simp only [encode, asDecoded, decode, ci, decodeC, rawC, copOf_CI]
  simp [rawCAt, Option.filter, when0, csr_field, h]

theorem csrw (a : Reg) (n : BitVec 10) : Statement (.csrw a n) := by
  intro h; right
  have hn : n ≠ 10#10 := by
    rintro rfl; simp [WellFormed, csrWritable] at h
  simp only [encode, asDecoded, decode, ci, decodeC, rawC, copOf_CI]
  simp [rawCAt, Option.filter, when0, csr_field, h, hn]

theorem openWalk (a : Reg) : Statement (.openWalk a) := by
  intro _; right
  simp only [encode, asDecoded, decode, ci, decodeC, rawC, copOf_CI]
  simp [rawCAt, Option.filter, when0, csr_field, WellFormed]

theorem adoptWalk (a : Reg) : Statement (.adoptWalk a) := by
  intro _; right
  simp only [encode, asDecoded, decode, ci, decodeC, rawC, copOf_CI]
  simp [rawCAt, Option.filter, when0, csr_field, WellFormed]

theorem ticketClear (a : Reg) : Statement (.ticketClear a) := by
  intro _; right
  simp only [encode, asDecoded, decode, ci, decodeC, rawC, copOf_CI]
  simp [rawCAt, Option.filter, when0, csr_field, WellFormed]

theorem trap (a : Reg) (g : PredIx) : Statement (.trap a g) := by
  intro h; right
  simp only [encode, asDecoded, decode, cr, decodeC, rawC, copOf_CR]
  simp [rawCAt, Option.filter, when0, CR.unused, h]

theorem eret (g : PredIx) : Statement (.eret g) := by
  intro h; right
  simp only [encode, asDecoded, decode, cr, decodeC, rawC, copOf_CR]
  simp [rawCAt, Option.filter, when0, CR.unused, h]

theorem yield (g : PredIx) : Statement (.yield g) := by
  intro h; right
  simp only [encode, asDecoded, decode, cr, decodeC, rawC, copOf_CR]
  simp [rawCAt, Option.filter, when0, CR.unused, h]

theorem asfl (a : Reg) (g : PredIx) : Statement (.asfl a g) := by
  intro h; right
  simp only [encode, asDecoded, decode, cr, decodeC, rawC, copOf_CR]
  simp [rawCAt, Option.filter, when0, CR.unused, h]

theorem asbar (g : PredIx) : Statement (.asbar g) := by
  intro h; right
  simp only [encode, asDecoded, decode, cr, decodeC, rawC, copOf_CR]
  simp [rawCAt, Option.filter, when0, CR.unused, h]

theorem couple (g : PredIx) : Statement (.couple g) := by
  intro h; right
  simp only [encode, asDecoded, decode, cr, decodeC, rawC, copOf_CR]
  simp [rawCAt, Option.filter, when0, CR.unused, h]

theorem uncouple (g : PredIx) : Statement (.uncouple g) := by
  intro h; right
  simp only [encode, asDecoded, decode, cr, decodeC, rawC, copOf_CR]
  simp [rawCAt, Option.filter, when0, CR.unused, h]

theorem wake (a : Reg) (g : PredIx) : Statement (.wake a g) := by
  intro h; right
  simp only [encode, asDecoded, decode, cr, decodeC, rawC, copOf_CR]
  simp [rawCAt, Option.filter, when0, CR.unused, h]

theorem almr (d : Reg) (a : Reg) (g : PredIx) : Statement (.almr d a g) := by
  intro h; right
  simp only [encode, asDecoded, decode, cr, decodeC, rawC, copOf_CR]
  simp [rawCAt, Option.filter, when0, CR.unused, h]

theorem almw (a : Reg) (b : Reg) (g : PredIx) : Statement (.almw a b g) := by
  intro h; right
  simp only [encode, asDecoded, decode, cr, decodeC, rawC, copOf_CR]
  simp [rawCAt, Option.filter, when0, CR.unused, h]

theorem dtrd (d : Reg) (a : Reg) (g : PredIx) : Statement (.dtrd d a g) := by
  intro h; right
  simp only [encode, asDecoded, decode, cr, decodeC, rawC, copOf_CR]
  simp [rawCAt, Option.filter, when0, CR.unused, h]

theorem dtwr (a : Reg) (b : Reg) (g : PredIx) : Statement (.dtwr a b g) := by
  intro h; right
  simp only [encode, asDecoded, decode, cr, decodeC, rawC, copOf_CR]
  simp [rawCAt, Option.filter, when0, CR.unused, h]

theorem nopA : Statement (.nopA) := by
  exact fun _ => .inr (by decide +kernel)

theorem add (d : Reg) (a : Reg) (b : Reg) (g : PredIx) : Statement (.add d a b g) := by
  intro h; right
  simp only [encode, asDecoded, decode, af, decodeA, rawA, aopOf_AF]
  simp [rawAAt, Option.filter, when0, h]

theorem sub (d : Reg) (a : Reg) (b : Reg) (g : PredIx) : Statement (.sub d a b g) := by
  intro h; right
  simp only [encode, asDecoded, decode, af, decodeA, rawA, aopOf_AF]
  simp [rawAAt, Option.filter, when0, h]

theorem addi (d : Reg) (a : Reg) (imm : BitVec 16) : Statement (.addi d a imm) := by
  intro _; right
  simp only [encode, asDecoded, decode, decodeA, rawA, aopOf_AI]
  simp [rawAAt, Option.filter, WellFormed]

theorem mul (d : Reg) (a : Reg) (b : Reg) (g : PredIx) : Statement (.mul d a b g) := by
  intro h; right
  simp only [encode, asDecoded, decode, af, decodeA, rawA, aopOf_AF]
  simp [rawAAt, Option.filter, when0, h]

theorem mulh (d : Reg) (a : Reg) (b : Reg) (g : PredIx) (x : BitVec 3) : Statement (.mulh d a b g x) := by
  intro h; right
  simp only [encode, asDecoded, decode, af, decodeA, rawA, aopOf_AF]
  simp [rawAAt, Option.filter, when0, h]

theorem div (d : Reg) (a : Reg) (b : Reg) (g : PredIx) : Statement (.div d a b g) := by
  intro h; right
  simp only [encode, asDecoded, decode, af, decodeA, rawA, aopOf_AF]
  simp [rawAAt, Option.filter, when0, h]

theorem divu (d : Reg) (a : Reg) (b : Reg) (g : PredIx) : Statement (.divu d a b g) := by
  intro h; right
  simp only [encode, asDecoded, decode, af, decodeA, rawA, aopOf_AF]
  simp [rawAAt, Option.filter, when0, h]

theorem rem (d : Reg) (a : Reg) (b : Reg) (g : PredIx) : Statement (.rem d a b g) := by
  intro h; right
  simp only [encode, asDecoded, decode, af, decodeA, rawA, aopOf_AF]
  simp [rawAAt, Option.filter, when0, h]

theorem remu (d : Reg) (a : Reg) (b : Reg) (g : PredIx) : Statement (.remu d a b g) := by
  intro h; right
  simp only [encode, asDecoded, decode, af, decodeA, rawA, aopOf_AF]
  simp [rawAAt, Option.filter, when0, h]

theorem and (d : Reg) (a : Reg) (b : Reg) (g : PredIx) : Statement (.and d a b g) := by
  intro h; right
  simp only [encode, asDecoded, decode, af, decodeA, rawA, aopOf_AF]
  simp [rawAAt, Option.filter, when0, h]

theorem andn (d : Reg) (a : Reg) (b : Reg) (g : PredIx) : Statement (.andn d a b g) := by
  intro h; right
  simp only [encode, asDecoded, decode, af, decodeA, rawA, aopOf_AF]
  simp [rawAAt, Option.filter, when0, h]

theorem or (d : Reg) (a : Reg) (b : Reg) (g : PredIx) : Statement (.or d a b g) := by
  intro h; right
  simp only [encode, asDecoded, decode, af, decodeA, rawA, aopOf_AF]
  simp [rawAAt, Option.filter, when0, h]

theorem xor (d : Reg) (a : Reg) (b : Reg) (g : PredIx) : Statement (.xor d a b g) := by
  intro h; right
  simp only [encode, asDecoded, decode, af, decodeA, rawA, aopOf_AF]
  simp [rawAAt, Option.filter, when0, h]

theorem shl (d : Reg) (a : Reg) (b : Reg) (g : PredIx) : Statement (.shl d a b g) := by
  intro h; right
  simp only [encode, asDecoded, decode, af, decodeA, rawA, aopOf_AF]
  simp [rawAAt, Option.filter, when0, h]

theorem shlImm (d : Reg) (a : Reg) (n : BitVec 6) (g : PredIx) : Statement (.shlImm d a n g) := by
  intro _; right
  simp only [encode, asDecoded, decode, af, decodeA, rawA, aopOf_AF]
  rcases shift_field n with h | h <;> simp [rawAAt, Option.filter, WellFormed, when0, h]

theorem shr (d : Reg) (a : Reg) (b : Reg) (g : PredIx) : Statement (.shr d a b g) := by
  intro h; right
  simp only [encode, asDecoded, decode, af, decodeA, rawA, aopOf_AF]
  simp [rawAAt, Option.filter, when0, h]

theorem shrImm (d : Reg) (a : Reg) (n : BitVec 6) (g : PredIx) : Statement (.shrImm d a n g) := by
  intro _; right
  simp only [encode, asDecoded, decode, af, decodeA, rawA, aopOf_AF]
  rcases shift_field n with h | h <;> simp [rawAAt, Option.filter, WellFormed, when0, h]

theorem sar (d : Reg) (a : Reg) (b : Reg) (g : PredIx) : Statement (.sar d a b g) := by
  intro h; right
  simp only [encode, asDecoded, decode, af, decodeA, rawA, aopOf_AF]
  simp [rawAAt, Option.filter, when0, h]

theorem sarImm (d : Reg) (a : Reg) (n : BitVec 6) (g : PredIx) : Statement (.sarImm d a n g) := by
  intro _; right
  simp only [encode, asDecoded, decode, af, decodeA, rawA, aopOf_AF]
  rcases shift_field n with h | h <;> simp [rawAAt, Option.filter, WellFormed, when0, h]

theorem min (d : Reg) (a : Reg) (b : Reg) (g : PredIx) : Statement (.min d a b g) := by
  intro h; right
  simp only [encode, asDecoded, decode, af, decodeA, rawA, aopOf_AF]
  simp [rawAAt, Option.filter, when0, h]

theorem max (d : Reg) (a : Reg) (b : Reg) (g : PredIx) : Statement (.max d a b g) := by
  intro h; right
  simp only [encode, asDecoded, decode, af, decodeA, rawA, aopOf_AF]
  simp [rawAAt, Option.filter, when0, h]

theorem minu (d : Reg) (a : Reg) (b : Reg) (g : PredIx) : Statement (.minu d a b g) := by
  intro h; right
  simp only [encode, asDecoded, decode, af, decodeA, rawA, aopOf_AF]
  simp [rawAAt, Option.filter, when0, h]

theorem maxu (d : Reg) (a : Reg) (b : Reg) (g : PredIx) : Statement (.maxu d a b g) := by
  intro h; right
  simp only [encode, asDecoded, decode, af, decodeA, rawA, aopOf_AF]
  simp [rawAAt, Option.filter, when0, h]

theorem cmp (p : PredIx) (a : Reg) (b : Reg) (g : PredIx) (x : BitVec 3) : Statement (.cmp p a b g x) := by
  intro h; right
  simp only [encode, asDecoded, decode, af, decodeA, rawA, aopOf_AF]
  simp [rawAAt, Option.filter, when0, pred_field, h]

theorem sel (d : Reg) (a : Reg) (b : Reg) (p : PredIx) (g : PredIx) : Statement (.sel d a b p g) := by
  intro h; right
  simp only [encode, asDecoded, decode, af, decodeA, rawA, aopOf_AF]
  simp [rawAAt, Option.filter, when0, pred_field, h]

theorem bits (d : Reg) (a : Reg) (g : PredIx) (x : BitVec 2) : Statement (.bits d a g x) := by
  intro h; right
  simp only [encode, asDecoded, decode, af, decodeA, rawA, aopOf_AF]
  simp [rawAAt, Option.filter, when0, bits_field, h]

theorem ext (d : Reg) (a : Reg) (b : Reg) (e : Reg) (g : PredIx) : Statement (.ext d a b e g) := by
  intro h; right
  simp only [encode, asDecoded, decode, af, decodeA, rawA, aopOf_AF]
  simp [rawAAt, Option.filter, when0, h]

theorem extS (d : Reg) (a : Reg) (b : Reg) (e : Reg) (g : PredIx) : Statement (.extS d a b e g) := by
  intro h; right
  simp only [encode, asDecoded, decode, af, decodeA, rawA, aopOf_AF]
  simp [rawAAt, Option.filter, when0, h]

theorem ins (d : Reg) (a : Reg) (b : Reg) (e : Reg) (g : PredIx) : Statement (.ins d a b e g) := by
  intro h; right
  simp only [encode, asDecoded, decode, af, decodeA, rawA, aopOf_AF]
  simp [rawAAt, Option.filter, when0, h]

theorem fadd (d : Reg) (a : Reg) (b : Reg) (g : PredIx) : Statement (.fadd d a b g) := by
  intro h; right
  simp only [encode, asDecoded, decode, af, decodeA, rawA, aopOf_AF]
  simp [rawAAt, Option.filter, when0, h]

theorem fsub (d : Reg) (a : Reg) (b : Reg) (g : PredIx) : Statement (.fsub d a b g) := by
  intro h; right
  simp only [encode, asDecoded, decode, af, decodeA, rawA, aopOf_AF]
  simp [rawAAt, Option.filter, when0, h]

theorem fmul (d : Reg) (a : Reg) (b : Reg) (g : PredIx) : Statement (.fmul d a b g) := by
  intro h; right
  simp only [encode, asDecoded, decode, af, decodeA, rawA, aopOf_AF]
  simp [rawAAt, Option.filter, when0, h]

theorem fma (d : Reg) (a : Reg) (b : Reg) (e : Reg) (g : PredIx) : Statement (.fma d a b e g) := by
  intro h; right
  simp only [encode, asDecoded, decode, af, decodeA, rawA, aopOf_AF]
  simp [rawAAt, Option.filter, when0, h]

theorem fms (d : Reg) (a : Reg) (b : Reg) (e : Reg) (g : PredIx) : Statement (.fms d a b e g) := by
  intro h; right
  simp only [encode, asDecoded, decode, af, decodeA, rawA, aopOf_AF]
  simp [rawAAt, Option.filter, when0, h]

theorem fmin (d : Reg) (a : Reg) (b : Reg) (g : PredIx) : Statement (.fmin d a b g) := by
  intro h; right
  simp only [encode, asDecoded, decode, af, decodeA, rawA, aopOf_AF]
  simp [rawAAt, Option.filter, when0, h]

theorem fmax (d : Reg) (a : Reg) (b : Reg) (g : PredIx) : Statement (.fmax d a b g) := by
  intro h; right
  simp only [encode, asDecoded, decode, af, decodeA, rawA, aopOf_AF]
  simp [rawAAt, Option.filter, when0, h]

theorem fcmp (p : PredIx) (a : Reg) (b : Reg) (g : PredIx) (x : BitVec 2) : Statement (.fcmp p a b g x) := by
  intro h; right
  simp only [encode, asDecoded, decode, af, decodeA, rawA, aopOf_AF]
  simp [rawAAt, Option.filter, when0, pred_field, bits_field, h]

theorem fcvt (d : Reg) (a : Reg) (rnd : BitVec 2) (g : PredIx) (x : BitVec 3) : Statement (.fcvt d a rnd g x) := by
  intro h; right
  simp only [encode, asDecoded, decode, af, decodeA, rawA, aopOf_AF]
  simp [rawAAt, Option.filter, when0, rnd_field, h]

theorem vadd (o : VOp) : Statement (.vadd o) := by
  intro h; right
  simp only [encode, asDecoded, decode, av, decodeA, rawA, aopOf_AF]
  simp [rawAAt, Option.filter, when0, AF.vop, sub_field, h]

theorem vsub (o : VOp) : Statement (.vsub o) := by
  intro h; right
  simp only [encode, asDecoded, decode, av, decodeA, rawA, aopOf_AF]
  simp [rawAAt, Option.filter, when0, AF.vop, sub_field, h]

theorem vmul (o : VOp) : Statement (.vmul o) := by
  intro h; right
  simp only [encode, asDecoded, decode, av, decodeA, rawA, aopOf_AF]
  simp [rawAAt, Option.filter, when0, AF.vop, sub_field, h]

theorem vfma (o : VOp) : Statement (.vfma o) := by
  intro h; right
  simp only [encode, asDecoded, decode, av, decodeA, rawA, aopOf_AF]
  simp [rawAAt, Option.filter, when0, AF.vop, sub_field, h]

theorem vmin (o : VOp) : Statement (.vmin o) := by
  intro h; right
  simp only [encode, asDecoded, decode, av, decodeA, rawA, aopOf_AF]
  simp [rawAAt, Option.filter, when0, AF.vop, sub_field, h]

theorem vmax (o : VOp) : Statement (.vmax o) := by
  intro h; right
  simp only [encode, asDecoded, decode, av, decodeA, rawA, aopOf_AF]
  simp [rawAAt, Option.filter, when0, AF.vop, sub_field, h]

theorem vcmp (x : BitVec 2) (o : VOp) : Statement (.vcmp x o) := by
  intro h; right
  simp only [encode, asDecoded, decode, av, decodeA, rawA, aopOf_AF]
  simp [rawAAt, Option.filter, when0, AF.vop, sub_field, h]

theorem vsel (o : VOp) : Statement (.vsel o) := by
  intro h; right
  simp only [encode, asDecoded, decode, av, decodeA, rawA, aopOf_AF]
  simp [rawAAt, Option.filter, when0, AF.vop, sub_field, h]

theorem vred (x : BitVec 2) (o : VOp) : Statement (.vred x o) := by
  intro h; right
  simp only [encode, asDecoded, decode, av, decodeA, rawA, aopOf_AF]
  simp [rawAAt, Option.filter, when0, AF.vop, sub_field, h]

theorem vcvt (r : BitVec 2) (o : VOp) : Statement (.vcvt r o) := by
  intro h; right
  simp only [encode, asDecoded, decode, av, decodeA, rawA, aopOf_AF]
  simp [rawAAt, Option.filter, when0, AF.vop, sub_field, h]

theorem vdec (s : BitVec 1) (o : VOp) : Statement (.vdec s o) := by
  intro h; right
  simp only [encode, asDecoded, decode, av, decodeA, rawA, aopOf_AF]
  simp [rawAAt, Option.filter, when0, AF.vop, sub_field, scale_field, half_field, h]

theorem venc (o : VOp) : Statement (.venc o) := by
  intro h; right
  simp only [encode, asDecoded, decode, av, decodeA, rawA, aopOf_AF]
  simp [rawAAt, Option.filter, when0, AF.vop, sub_field, h]

theorem vscl (o : VOp) : Statement (.vscl o) := by
  intro h; right
  simp only [encode, asDecoded, decode, av, decodeA, rawA, aopOf_AF]
  simp [rawAAt, Option.filter, when0, AF.vop, sub_field, h]

theorem vperm (o : VOp) : Statement (.vperm o) := by
  intro h; right
  simp only [encode, asDecoded, decode, av, decodeA, rawA, aopOf_AF]
  simp [rawAAt, Option.filter, when0, AF.vop, sub_field, h]

theorem vbcast (o : VOp) : Statement (.vbcast o) := by
  intro h; right
  simp only [encode, asDecoded, decode, av, decodeA, rawA, aopOf_AF]
  simp [rawAAt, Option.filter, when0, AF.vop, sub_field, h]

theorem vextr (o : VOp) : Statement (.vextr o) := by
  intro h; right
  simp only [encode, asDecoded, decode, av, decodeA, rawA, aopOf_AF]
  simp [rawAAt, Option.filter, when0, AF.vop, sub_field, h]

theorem vidx (o : VOp) : Statement (.vidx o) := by
  intro h; right
  simp only [encode, asDecoded, decode, av, decodeA, rawA, aopOf_AF]
  simp [rawAAt, Option.filter, when0, AF.vop, sub_field, h]

theorem vloop (a : Reg) (n : BitVec 4) (g : PredIx) : Statement (.vloop a n g) := by
  intro h; right
  simp only [encode, asDecoded, decode, af, decodeA, rawA, aopOf_AF]
  simp [rawAAt, Option.filter, when0, run_field, h]

theorem vsfu (o : VOp) : Statement (.vsfu o) := by
  intro h; right
  simp only [encode, asDecoded, decode, av, decodeA, rawA, aopOf_AF]
  simp [rawAAt, Option.filter, when0, AF.vop, sub_field, h]

theorem vsort (x : BitVec 1) (o : VOp) : Statement (.vsort x o) := by
  intro h; right
  simp only [encode, asDecoded, decode, av, decodeA, rawA, aopOf_AF]
  simp [rawAAt, Option.filter, when0, AF.vop, sub_field, scale_field, half_field, h]

theorem vksel (x : BitVec 1) (o : VOp) : Statement (.vksel x o) := by
  intro h; right
  simp only [encode, asDecoded, decode, av, decodeA, rawA, aopOf_AF]
  simp [rawAAt, Option.filter, when0, AF.vop, sub_field, scale_field, half_field, h]

theorem vrand (o : VOp) : Statement (.vrand o) := by
  intro h; right
  simp only [encode, asDecoded, decode, av, decodeA, rawA, aopOf_AF]
  simp [rawAAt, Option.filter, when0, AF.vop, sub_field, h]

theorem vimask (o : VOp) : Statement (.vimask o) := by
  intro h; right
  simp only [encode, asDecoded, decode, av, decodeA, rawA, aopOf_AF]
  simp [rawAAt, Option.filter, when0, AF.vop, sub_field, h]

theorem vsync (g : PredIx) : Statement (.vsync g) := by
  intro h; right
  simp only [encode, asDecoded, decode, af, decodeA, rawA, aopOf_AF]
  simp [rawAAt, Option.filter, when0, h]

theorem issueTurn (core : Nat) : Statement (.issueTurn core) := by
  intro _; exact .inl rfl

theorem rank1Step (core : Nat) : Statement (.rank1Step core) := by
  intro _; exact .inl rfl

theorem rotationBoundary : Statement (.rotationBoundary) := by
  intro _; exact .inl rfl

theorem preemptTimerExpiry (core : Nat) (slot : Nat) : Statement (.preemptTimerExpiry core slot) := by
  intro _; exact .inl rfl

theorem preEmption (core : Nat) (slot : Nat) : Statement (.preEmption core slot) := by
  intro _; exact .inl rfl

theorem pktHoldTimeout (core : Nat) (slot : Nat) : Statement (.pktHoldTimeout core slot) := by
  intro _; exact .inl rfl

theorem resumption (core : Nat) (slot : Nat) : Statement (.resumption core slot) := by
  intro _; exact .inl rfl

theorem translationWalk (core : Nat) (slot : Nat) : Statement (.translationWalk core slot) := by
  intro _; exact .inl rfl

theorem wokenContextRestore (core : Nat) (slot : Nat) : Statement (.wokenContextRestore core slot) := by
  intro _; exact .inl rfl

theorem steal (core : Nat) (slot : Nat) : Statement (.steal core slot) := by
  intro _; exact .inl rfl

theorem takeArrival (core : Nat) (slot : Nat) : Statement (.takeArrival core slot) := by
  intro _; exact .inl rfl

theorem replyWritten (core : Nat) (slot : Nat) (answer : List Word) : Statement (.replyWritten core slot answer) := by
  intro _; exact .inl rfl

theorem storePerformed (core : Nat) : Statement (.storePerformed core) := by
  intro _; exact .inl rfl

theorem packetDelivery (n : Nat) : Statement (.packetDelivery n) := by
  intro _; exact .inl rfl

theorem handlerStart (core : Nat) : Statement (.handlerStart core) := by
  intro _; exact .inl rfl

theorem arrivalRecordAccept (n : Nat) : Statement (.arrivalRecordAccept n) := by
  intro _; exact .inl rfl

theorem equinoxSweep : Statement (.equinoxSweep) := by
  intro _; exact .inl rfl

theorem queueTailTake (q : Nat) : Statement (.queueTailTake q) := by
  intro _; exact .inl rfl

theorem launchPlacement (q : Nat) : Statement (.launchPlacement q) := by
  intro _; exact .inl rfl

theorem classifierWindow (launch : Nat) : Statement (.classifierWindow launch) := by
  intro _; exact .inl rfl

theorem sequencerEntryRun (core : Nat) (slot : Nat) : Statement (.sequencerEntryRun core slot) := by
  intro _; exact .inl rfl

theorem sfuRequestServe (cluster : Nat) : Statement (.sfuRequestServe cluster) := by
  intro _; exact .inl rfl

theorem copyCommandStart (core : Nat) : Statement (.copyCommandStart core) := by
  intro _; exact .inl rfl

theorem commandCompletion (core : Nat) : Statement (.commandCompletion core) := by
  intro _; exact .inl rfl

theorem multicastPieceDrain (core : Nat) : Statement (.multicastPieceDrain core) := by
  intro _; exact .inl rfl

theorem arrivalUnit (n : Nat) : Statement (.arrivalUnit n) := by
  intro _; exact .inl rfl

theorem intervalEnd (core : Nat) (slot : Nat) : Statement (.intervalEnd core slot) := by
  intro _; exact .inl rfl

theorem flitReplay (link : Nat) : Statement (.flitReplay link) := by
  intro _; exact .inl rfl

theorem laneMarginStepDown (link : Nat) : Statement (.laneMarginStepDown link) := by
  intro _; exact .inl rfl

theorem laneTrainingFailure (link : Nat) (lane : Nat) : Statement (.laneTrainingFailure link lane) := by
  intro _; exact .inl rfl

theorem linkDown (link : Nat) : Statement (.linkDown link) := by
  intro _; exact .inl rfl

theorem powerSample (watts : Nat) : Statement (.powerSample watts) := by
  intro _; exact .inl rfl

theorem ageingSensorUpdate (die : Nat) (eolh : Nat) (worst : Nat) : Statement (.ageingSensorUpdate die eolh worst) := by
  intro _; exact .inl rfl

theorem dramBatchMark (ctl : Nat) : Statement (.dramBatchMark ctl) := by
  intro _; exact .inl rfl

theorem dramCapWindow : Statement (.dramCapWindow) := by
  intro _; exact .inl rfl

theorem llcEviction (line : Nat) : Statement (.llcEviction line) := by
  intro _; exact .inl rfl

theorem coldReset (image : List Byte) (signature : List Byte) (version : Nat) : Statement (.coldReset image signature version) := by
  intro _; exact .inl rfl

theorem functionLevelReset (vf : Nat) : Statement (.functionLevelReset vf) := by
  intro _; exact .inl rfl

theorem fillApertureWrite (vf : Nat) (offset : Nat) (data : Word) : Statement (.fillApertureWrite vf offset data) := by
  intro _; exact .inl rfl

theorem spdmAttestation (nonce : Nat) : Statement (.spdmAttestation nonce) := by
  intro _; exact .inl rfl

theorem setWayMasks (cls : Nat) (llc : BitVec 32) (l2 : BitVec 16) : Statement (.setWayMasks cls llc l2) := by
  intro _; exact .inl rfl

theorem setDramCap (cls : Nat) (cap : Nat) : Statement (.setDramCap cls cap) := by
  intro _; exact .inl rfl

theorem setVcWeights (cls : Nat) (w0 : Nat) (w2 : Nat) (w4 : Nat) (w3 : Nat) : Statement (.setVcWeights cls w0 w2 w4 w3) := by
  intro _; exact .inl rfl

theorem writeKeySlot (k : Nat) (key : Nat) : Statement (.writeKeySlot k key) := by
  intro _; exact .inl rfl

theorem writeRouteEntry (dev : Nat) (primary : Option Nat) (alternate : Option Nat) : Statement (.writeRouteEntry dev primary alternate) := by
  intro _; exact .inl rfl

theorem writeQueueDescriptor (q : Nat) (desc : BitVec 512) : Statement (.writeQueueDescriptor q desc) := by
  intro _; exact .inl rfl

theorem setTenantAreas (asid : Nat) (areas : TenantAreas) : Statement (.setTenantAreas asid areas) := by
  intro _; exact .inl rfl

theorem setAsidRoot (asid : Nat) (root : Option Nat) : Statement (.setAsidRoot asid root) := by
  intro _; exact .inl rfl

theorem setPowerCap (watts : Nat) : Statement (.setPowerCap watts) := by
  intro _; exact .inl rfl

theorem takeLinkDown (link : Nat) : Statement (.takeLinkDown link) := by
  intro _; exact .inl rfl

theorem retrainLink (link : Nat) : Statement (.retrainLink link) := by
  intro _; exact .inl rfl

theorem supervisorPreempt (core : Nat) (slot : Nat) : Statement (.supervisorPreempt core slot) := by
  intro _; exact .inl rfl

theorem releaseKilledSlot (core : Nat) (slot : Nat) : Statement (.releaseKilledSlot core slot) := by
  intro _; exact .inl rfl

theorem abortLaunch (launch : Nat) : Statement (.abortLaunch launch) := by
  intro _; exact .inl rfl

theorem injectPreempt (core : Nat) (slot : Nat) : Statement (.injectPreempt core slot) := by
  intro _; exact .inl rfl

theorem injectEcc (core : Nat) (slot : Nat) : Statement (.injectEcc core slot) := by
  intro _; exact .inl rfl

theorem setBreakpoint (n : Nat) (at' : Option (BitVec 56)) (core : Option Nat) : Statement (.setBreakpoint n at' core) := by
  intro _; exact .inl rfl

theorem setAgeingThreshold (hours : Nat) : Statement (.setAgeingThreshold hours) := by
  intro _; exact .inl rfl

theorem ageingWarnClear (die : Nat) (data : Word) : Statement (.ageingWarnClear die data) := by
  intro _; exact .inl rfl

theorem atsInvalidation (base : Nat) (len : Nat) : Statement (.atsInvalidation base len) := by
  intro _; exact .inl rfl

theorem bindQueueToVf (q : Nat) (vf : Nat) : Statement (.bindQueueToVf q vf) := by
  intro _; exact .inl rfl

end Sys2Proof.Laws.RoundTrip
end

