-- ==== Sys2Proof/Tests/Slice0.lean ====
section
/-!
SUPPORT. Tests: words of the manual and what they decode to, ill-formed terms, and, for the statements that have hypotheses, states and
operands that meet them. Expected values come from the spec's own examples or from hand calculation by its rules.
-/
namespace Sys2Proof.Tests

open Sys2Proof Sys2Proof.Machine

set_option Elab.async false
set_option maxRecDepth 100000

/-! ## States to test on -/

/-- A launch 7 of ASID 3 on core 0, whose partition is the whole program area up to 0x2_9000, with a deque at 0x2_8000 and arrival
places at 0x2_8800. -/
def launch : Launch := { placedLaunch with
  id := 7, asid := 3, captab := 0x70000, donew := 0x20F00, dqcap := 4, arrDepth := 2, gens := [(2, 1), (3, 1), (5, 1)]
  seats := [⟨0, 0, 0x9000, 0x20000, 0x28000, 0, 0, [], 0x28800, 0, 0, 0, 0⟩] }

/-- Port entries of ASID 3: a page of code, one of data, one of tree objects (T), one of the capability table. -/
def ports : List TlbEntry :=
  [⟨3, 0x10, 1, 0x8000780000000010⟩, ⟨3, 0x20, 1, 0x8000380000000020⟩, ⟨3, 0x30, 1, 0x8001380000000030⟩,
   ⟨3, 0x70, 1, 0x8000380000000070⟩, ⟨3, 0x71, 1, 0x8000380000000071⟩]

/-- A strand of that launch, with c0 over the code page, c1 over data with every right, c2 over the tree page, c3 over data without
W, c4 over the window, and these scalar registers. -/
def strand (regs : List (Nat × Word)) : Slot := { Slot.reset with
  st := .ready, launch := some 7, status := 0x800000000
  s := regs.foldl (fun v r => v.setIfInBounds r.1 r.2) (Vector.replicate 32 0)
  c := #v[Cap.make 0x10000 0x1000 7 0 0, Cap.make 0x20000 0x1000 0xF 1 2, Cap.make 0x30000 0x1000 3 1 3, Cap.make 0x20000 0x1000 1 1 2,
          Cap.make 0xFE000000000000 0x100000000000 3 1 5, 0, 0, 0] }

/-- Slot `k` of core 0 runs that strand, and its pair is being issued. -/
def home (k : Nat) (regs : List (Nat × Word)) (f : State → State := id) : State :=
  (f { State.reset with
    launches := [launch], nextLaunch := 8, cc := 5, clusters := [(0, ⟨ports, [], []⟩)]
    cores := [(0, Core.reset.setSlot k (strand regs))] }).beginPair 0 k

/-- The state that a next state holds, for a test of its fields. -/
def gives (o : Host.Outcome State Fault Refusal) (p : State → Bool) : Bool :=
  match o with
  | .next t => p t
  | _ => false

theorem noWaiters_of {s : State} (h : s.waiters = []) (hc : (s.cores.all fun kc => kc.2.waiters.isEmpty) = true) : NoWaiters s := by
  refine ⟨h, fun core => ?_⟩
  unfold State.core
  generalize s.cores = m at hc
  induction m with
  | nil => rfl
  | cons x rest ih =>
    obtain ⟨k, c⟩ := x
    simp only [List.all_cons, Bool.and_eq_true, List.isEmpty_iff] at hc
    unfold Sparse.get
    split
    · exact hc.1
    · exact ih hc.2

/-! ## Decoding: the example words of the manual, with what their source lines say (R266–R377 and the listings), and words written field
by field from R51–R53, R60, R63 and R66 where the manual prints none -/

theorem test_decode_memory :
    decodeC 0x03421000#32 = some (.ld 20 4 1 0) ∧ decodeC 0x02521FF8#32 = some (.ld 5 4 1 (-8)) ∧
    decodeC 0x04641000#32 = some (.st 6 8 1 0) ∧ decodeC 0x18B6A000#32 = some (.stg 11 13 2 0) ∧
    -- cop 000011 (LDL) and 000100 (STL), d, a, 000, imm12
    decodeC (0b0#1 ++ 0b000011#6 ++ 0b00101#5 ++ 0b00110#5 ++ 0b000#3 ++ 0xFF8#12) = some (.ldl 5 6 (-8)) ∧
    decodeC (0b0#1 ++ 0b000100#6 ++ 0b00101#5 ++ 0b00110#5 ++ 0b000#3 ++ 0x010#12) = some (.stl 5 6 16) := by decide

theorem test_decode_full_empty :
    decodeC 0x0B079000#32 = some (.ldh 16 15 1 0 0) ∧ decodeC 0x0C53A002#32 = some (.ldf 5 7 2 0 2) ∧
    decodeC 0x0CB52004#32 = some (.ldf 11 10 2 0 4) ∧ decodeC 0x0C970A02#32 = some (.ldx 9 14 0 1 2) ∧
    decodeC 0x0E3EA001#32 = some (.stf 3 29 2 0 1) ∧ decodeC 0x0E030A05#32 = some (.stfa 0 6 0 1 5) ∧
    decodeC 0x0E030C00#32 = some (.feclr 6 0 1 0) := by decide

theorem test_decode_queues_atomics :
    decodeC 0x10078086#32 = some (.lq 0 15 0 1 0 6) ∧ decodeC 0x12078081#32 = some (.sq 0 15 0 1 0 1) ∧
    decodeC 0x1462D8E0#32 = some (.atom 6 5 22 1 3 0 0) ∧ decodeC 0x147A20D9#32 = some (.atom 7 20 8 1 2 1 9) ∧
    decodeC 0x16428CE0#32 = some (.cas 4 5 3 1 3 0) ∧ decodeC 0x164A18F0#32 = some (.cas 4 20 6 1 3 1) ∧
    decodeC 0x1A000003#32 = some (.fence 0 3) ∧ decodeC 0x1C721500#32 = some (.rflush 7 4 5 2 0) ∧
    decodeC 0x1C721501#32 = some (.rinv 7 4 5 2 0) := by decide

theorem test_decode_capabilities :
    decodeC 0x1E020100#32 = some (.cld 4 2 0) ∧ decodeC 0x1E020181#32 = some (.cst 4 3 0) ∧
    decodeC 0x1E621582#32 = some (.cnar 6 4 5 3 0) ∧ decodeC 0x1E020183#32 = some (.cgive 4 3 0) := by decide

theorem test_decode_flow :
    -- BR: cop 010000, predicate 000, sense 0, disp21; BC adds the predicate and its sense; JAL is cop 010010
    decodeC (0b0#1 ++ 0b010000#6 ++ 0b000#3 ++ 0b0#1 ++ 0b000000000000000001011#21) = some (.br 11) ∧
    decodeC 0x225FFFFE#32 = some (.bc 1 0 (-2)) ∧ decodeC 0x22600002#32 = some (.bc 1 1 2) ∧ decodeC 0x233FFFFC#32 = some (.bc 4 1 (-4)) ∧
    decodeC 0x24000013#32 = some (.jal 19) ∧ decodeC 0x26148000#32 = some (.jr 1 9 0) := by decide

theorem test_decode_lone_forms :
    decodeLone 0x87D70000#32 0x9000#32 = some (.ldlLone 29 14 0x9000) ∧
    decodeLone 0x88E78000#32 0x9000#32 = some (.stlLone 14 15 0x9000) ∧
    decodeLone 0xAA400000#32 0x12345678#32 = some (.li 4 0x12345678) ∧ decodeLone 0xAAF00001#32 0x14#32 = some (.lih 15 0x14) ∧
    decodeLone 0xA2800000#32 0x100#32 = some (.bcLone 2 0 0x100) ∧ decodeLone 0xAC020080#32 0x20#32 = some (.spawnLone 4 1 0x20) ∧
    -- L 1, then the cop, d, a and c of the short form
    decodeLone (0b1#1 ++ 0b000001#6 ++ 0b00011#5 ++ 0b00100#5 ++ 0b001#3 ++ 0#12) 0x8000#32 = some (.ldLone 3 4 1 0x8000) ∧
    decodeLone (0b1#1 ++ 0b000010#6 ++ 0b00011#5 ++ 0b00100#5 ++ 0b001#3 ++ 0#12) 0x8000#32 = some (.stLone 3 4 1 0x8000) ∧
    decodeLone (0b1#1 ++ 0b001100#6 ++ 0b00011#5 ++ 0b00100#5 ++ 0b001#3 ++ 0#12) 0x8000#32 = some (.stgLone 3 4 1 0x8000) ∧
    decodeLone (0b1#1 ++ 0b010000#6 ++ 0#25) 0xFFFFFFFF#32 = some (.brLone (-1)) ∧
    decodeLone (0b1#1 ++ 0b010010#6 ++ 0#25) 0x40#32 = some (.jalLone 0x40) ∧
    decodeLone (0b1#1 ++ 0b010100#6 ++ 0b01001#5 ++ 0#20) 0xFFFFFFFE#32 = some (.loop 9 (-2)) := by decide

theorem test_decode_strands :
    decodeC 0x2C021480#32 = some (.spawn 4 5 1 0) ∧ decodeC 0x2E020080#32 = some (.await 4 1 0) ∧
    decodeC (0b0#1 ++ 0b011000#6 ++ 0#25) = some (.done 0) ∧ decodeC 0x32080000#32 = some (.migrate 16 0) ∧
    decodeC 0x340A140A#32 = some (.send 20 5 0 2 1) ∧ decodeC 0x3401A001#32 = some (.sende 3 8 0 0 0) ∧
    decodeC 0x36000000#32 = some (.waitm 0) ∧ decodeC 0x36300001#32 = some (.popm 3 0) := by decide

theorem test_decode_engines :
    decodeC 0x38050000#32 = some (.epushMat 10 0) ∧ decodeC 0x38080001#32 = some (.epushCopy 16 0) ∧
    decodeC 0x3A600000#32 = some (.epop 6 0 0) ∧ decodeC 0x3A900001#32 = some (.epop 9 0 1) ∧
    decodeC 0x3C0380D0#32 = some (.mma 0 7 0 1 5 0) ∧ decodeC 0x3C238081#32 = some (.mma 2 7 0 1 0 1) ∧
    decodeC 0x3E020000#32 = some (.mmae 0 4 0 0 0 0 0 0 0) ∧ decodeC 0x3E921604#32 = some (.mmae 9 4 5 1 0 0 0 1 0) ∧
    decodeC 0x3E000180#32 = some (.mmae 0 0 0 0 1 1 0 0 0) ∧ decodeC 0x40021800#32 = some (.ringset 0 4 6 0 0) ∧
    decodeC 0x42320000#32 = some (.claim 3 4 0) ∧ decodeC 0x42020001#32 = some (.shrink 4 0) ∧
    decodeC 0x42628002#32 = some (.vallot 6 5 0) ∧ decodeC 0x44000000#32 = some (.gang 0) ∧ decodeC 0x44000001#32 = some (.ungang 0) := by
  decide

theorem test_decode_trees :
    decodeC 0x46620000#32 = some (.tdesc 6 4 0 0) ∧ decodeC 0x48029C80#32 = some (.tback 5 7 1 0 0) ∧
    decodeC 0x480C3081#32 = some (.tback 24 12 1 0 1) ∧ decodeC 0x4A830000#32 = some (.texp 8 6 0) ∧
    decodeC 0x4A832401#32 = some (.tfill 8 6 9 0) ∧ decodeC 0x4A830002#32 = some (.tseal 8 6 0) ∧
    decodeC 0x4C830000#32 = some (.trec 8 6 0) ∧ decodeC 0x4C828081#32 = some (.tabort 8 5 1 0) ∧
    decodeC 0x4E020185#32 = some (.tform 4 3 0 5) := by decide

theorem test_decode_zones :
    decodeC 0x50530001#32 = some (.lzres 5 6 0 0 1) ∧ decodeC 0x503D0005#32 = some (.lzres 3 26 0 1 1) ∧
    decodeC 0x5272A000#32 = some (.lzexp 7 5 8 0) ∧ decodeC 0x52728001#32 = some (.lzwait 7 5 0) ∧
    decodeC 0x52728002#32 = some (.lzfree 7 5 0) ∧ decodeC 0x54748000#32 = some (.lzcfg 7 9 0) ∧
    decodeC 0x54728001#32 = some (.lzstat 7 5 0) := by decide

theorem test_decode_system :
    decodeC 0x56600005#32 = some (.csrr 6 5) ∧ decodeC 0x560C880A#32 = some (.openWalk 25) ∧
    -- cop 101011, d 00000, a, 000, minor 10 (write), the CSR number: TRAPVEC may be written, CORELOC may not
    decodeC (0b0#1 ++ 0b101011#6 ++ 0b00000#5 ++ 0b00110#5 ++ 0b000#3 ++ 0b10#2 ++ 0x001#10) = some (.csrw 6 1) ∧
    decodeC (0b0#1 ++ 0b101011#6 ++ 0b00000#5 ++ 0b00110#5 ++ 0b000#3 ++ 0b10#2 ++ 0x005#10) = none ∧
    decodeC 0x58020000#32 = some (.trap 4 0) ∧ decodeC 0x58000001#32 = some (.eret 0) ∧ decodeC 0x58000002#32 = some (.yield 0) ∧
    decodeC 0x5A020000#32 = some (.asfl 4 0) ∧ decodeC 0x5A000001#32 = some (.asbar 0) ∧ decodeC 0x5C000000#32 = some (.couple 0) ∧
    decodeC 0x5C000001#32 = some (.uncouple 0) ∧ decodeC 0x5E020000#32 = some (.wake 4 0) ∧ decodeC 0x60530000#32 = some (.almr 5 6 0) ∧
    decodeC 0x60031C01#32 = some (.almw 6 7 0) ∧ decodeC 0x62530000#32 = some (.dtrd 5 6 0) ∧ decodeC 0x62031C01#32 = some (.dtwr 6 7 0) ∧
    decodeC 0x00000000#32 = some .nopC := by decide

theorem test_decode_integers :
    decodeA 0x05253000#32 = some (.add 9 5 6 0) ∧ decodeA 0x0BEB1000#32 = some (.sub 31 11 2 0) ∧ decodeA 0x0C630002#32 = some (.addi 3 3 2) ∧
    decodeA 0x12B4A000#32 = some (.mul 21 20 20 0) ∧ decodeA 0x14A63802#32 = some (.mulh 5 6 7 0 2) ∧
    -- aop 000110 (DIV, minor 0 or 1 for DIVU) and 000111 (REM): d, a, b, e 00000, guard, minor
    decodeA (0b000110#6 ++ 0b00101#5 ++ 0b00110#5 ++ 0b00111#5 ++ 0#5 ++ 0b010#3 ++ 0b000#3) = some (.div 5 6 7 2) ∧
    decodeA 0x1B03A001#32 = some (.divu 24 3 20 0) ∧
    decodeA (0b000111#6 ++ 0b00101#5 ++ 0b00110#5 ++ 0b00111#5 ++ 0#5 ++ 0b010#3 ++ 0b000#3) = some (.rem 5 6 7 2) ∧
    decodeA 0x1DDBA801#32 = some (.remu 14 27 21 0) ∧ decodeA 0x21DDF000#32 = some (.and 14 29 30 0) ∧
    decodeA 0x20632001#32 = some (.andn 3 3 4 0) ∧ decodeA 0x24C63800#32 = some (.or 6 6 7 0) ∧ decodeA 0x2A30B000#32 = some (.xor 17 16 22 0) ∧
    decodeA 0x2E107800#32 = some (.shl 16 16 15 0) ∧ decodeA 0x2CC60782#32 = some (.shlImm 6 6 30 0) ∧
    decodeA 0x318C0042#32 = some (.shrImm 12 12 1 0) ∧ decodeA 0x34A50203#32 = some (.sarImm 5 5 40 0) ∧
    -- aop 001100 (SHR) and 001101 (SAR), minor[1] 0: the count is s[b]
    decodeA (0b001100#6 ++ 0b00101#5 ++ 0b00110#5 ++ 0b00111#5 ++ 0#5 ++ 0#3 ++ 0#3) = some (.shr 5 6 7 0) ∧
    decodeA (0b001101#6 ++ 0b00101#5 ++ 0b00110#5 ++ 0b00111#5 ++ 0#5 ++ 0#3 ++ 0#3) = some (.sar 5 6 7 0) := by decide

theorem test_decode_choices :
    decodeA 0x38A63800#32 = some (.min 5 6 7 0) ∧ decodeA 0x38A63801#32 = some (.max 5 6 7 0) ∧ decodeA 0x38A63802#32 = some (.minu 5 6 7 0) ∧
    decodeA 0x38A63803#32 = some (.maxu 5 6 7 0) ∧ decodeA 0x3C2C7801#32 = some (.cmp 1 12 15 0 1) ∧
    decodeA 0x40A63880#32 = some (.sel 5 6 7 2 0) ∧ decodeA 0x45CE0000#32 = some (.bits 14 14 0 0) ∧
    decodeA 0x47E30002#32 = some (.bits 31 3 0 2) ∧ decodeA 0x490701C0#32 = some (.ext 8 7 0 7 0) ∧
    -- EXT.S is minor 1 of aop 010010
    decodeA (0b010010#6 ++ 0b01000#5 ++ 0b00111#5 ++ 0b00000#5 ++ 0b00111#5 ++ 0#3 ++ 0b001#3) = some (.extS 8 7 0 7 0) ∧
    decodeA 0x48A63BC2#32 = some (.ins 5 6 7 15 0) ∧ decodeA 0x00000000#32 = some .nopA := by decide

theorem test_decode_floats :
    decodeA 0x4CA63800#32 = some (.fadd 5 6 7 0) ∧ decodeA 0x4CA63801#32 = some (.fsub 5 6 7 0) ∧ decodeA 0x50A63800#32 = some (.fmul 5 6 7 0) ∧
    decodeA 0x54A63A00#32 = some (.fma 5 6 7 8 0) ∧ decodeA 0x54A63A01#32 = some (.fms 5 6 7 8 0) ∧
    decodeA 0x58A63800#32 = some (.fmin 5 6 7 0) ∧ decodeA 0x58A63801#32 = some (.fmax 5 6 7 0) ∧
    decodeA 0x5C2B5001#32 = some (.fcmp 1 11 10 0 1) ∧ decodeA 0x60A60042#32 = some (.fcvt 5 6 1 0 2) := by decide

/-- Operands of a vector word: d, a, b, the flags of lq and sq heads, no guard, the type. -/
def v (d a b : Reg) (qa qb qd : BitVec 1) (t : BitVec 3) : VOp := ⟨d, a, b, qa, qb, qd, 0, t⟩

theorem test_decode_vectors :
    decodeA 0x80403402#32 = some (.vadd (v 2 0 6 1 0 0 2)) ∧ decodeA 0x80221840#32 = some (.vsub (v 1 2 3 0 0 0 0)) ∧
    decodeA 0x84C63802#32 = some (.vmul (v 6 6 7 0 0 0 2)) ∧ decodeA 0x88221802#32 = some (.vfma (v 1 2 3 0 0 0 2)) ∧
    decodeA 0x8C221802#32 = some (.vmin (v 1 2 3 0 0 0 2)) ∧ decodeA 0x8C221842#32 = some (.vmax (v 1 2 3 0 0 0 2)) ∧
    decodeA 0x90821842#32 = some (.vcmp 1 (v 4 2 3 0 0 0 2)) ∧ decodeA 0x94811001#32 = some (.vsel (v 4 1 2 0 0 0 1)) ∧
    decodeA 0x98A20002#32 = some (.vred 0 (v 5 2 0 0 0 0 2)) ∧ decodeA 0x98A20006#32 = some (.vred 0 (v 5 2 0 0 0 0 6)) ∧
    decodeA 0x9CC60802#32 = some (.vcvt 0 (v 6 6 1 0 0 0 2)) ∧ decodeA 0x9CA65083#32 = some (.vcvt 2 (v 5 6 10 0 0 0 3)) ∧
    decodeA 0x9CA648C3#32 = some (.vcvt 3 (v 5 6 9 0 0 0 3)) ∧ decodeA 0xA0600403#32 = some (.vdec 0 (v 3 0 0 1 0 0 3)) ∧
    decodeA 0xA0611042#32 = some (.vdec 1 (v 3 1 2 0 0 0 2)) ∧ decodeA 0xA4820002#32 = some (.venc (v 4 2 0 0 0 0 2)) ∧
    decodeA 0xA8221802#32 = some (.vscl (v 1 2 3 0 0 0 2)) ∧ decodeA 0xAC811001#32 = some (.vperm (v 4 1 2 0 0 0 1)) := by decide

theorem test_decode_vector_sources :
    decodeA 0xB0FB0002#32 = some (.vbcast (v 7 27 0 0 0 0 2)) ∧ decodeA 0xB6840002#32 = some (.vextr (v 20 4 0 0 0 0 2)) ∧
    decodeA 0xB8710001#32 = some (.vidx (v 3 17 0 0 0 0 1)) ∧ decodeA 0xBC090040#32 = some (.vloop 9 1 0) ∧
    decodeA 0xC0621802#32 = some (.vsfu (v 3 2 3 0 0 0 2)) ∧ decodeA 0xC4C24800#32 = some (.vsort 0 (v 6 2 9 0 0 0 0)) ∧
    decodeA 0xC8829002#32 = some (.vksel 0 (v 4 2 18 0 0 0 2)) ∧ decodeA 0xCCDC8001#32 = some (.vrand (v 6 28 16 0 0 0 1)) ∧
    decodeA 0xD0412801#32 = some (.vimask (v 2 1 5 0 0 0 1)) ∧ decodeA 0xD4000000#32 = some (.vsync 0) := by decide

/-- Reserved words of every map are none, and a pair that writes one register twice is none (R48, R68). -/
theorem test_decode_refuses :
    decodeC 0x60530010#32 ≠ some (.almr 5 6 0) ∧ decodeC 0x7E000000#32 = none ∧ decodeC 0x16428CE1#32 = none ∧
    decodeA 0xFC000000#32 = none ∧ decodeA 0x0BEB1001#32 = none ∧ decodeA 0x3C2C7806#32 = none ∧ decodeA 0x3D2C7801#32 = none ∧
    decodeLone 0x9A000000#32 0#32 = none ∧
    decodeGroup 0x03421000#32 0x0BEB1000#32 = .ok (.ld 20 4 1 0, some (.sub 31 11 2 0)) ∧
    decodeGroup 0x03F21000#32 0x0BEB1000#32 = .error 1 := by decide

/-! ## Well-formedness: a term that each check refuses -/

theorem test_ill_formed_cslot :
    [Instr.ldh 1 2 1 1 0, .ldf 1 2 1 1 0, .ldx 1 2 1 1 0, .stf 1 2 1 1 0, .stfa 1 2 1 1 0, .feclr 2 1 1 0].map WellFormed =
      List.replicate 6 false ∧
    [Instr.ldh 1 2 1 0 0, .ldf 1 2 0 1 0, .lq 4 1 2 1 0 0, .lq 0 1 2 1 0 8, .sq 2 1 2 1 0 0, .sq 0 1 2 1 0 8, .atom 1 2 3 1 0 0 9,
      .atom 1 2 3 1 0 0 10, .cas 1 2 4 1 0 1, .cas 2 2 3 1 0 1, .loop 0 5, .popm 0 0, .popm 25 0, .mma 4 1 0 1 0 0, .mma 0 1 8 1 0 0,
      .mmae 4 1 0 0 0 0 0 0 0, .mmae 0 1 0 0 1 0 0 0 0, .mmae 0 1 0 0 0 1 0 0 0, .mmae 0 1 0 0 0 0 0 3 1, .ringset 8 1 2 0 0,
      .ringset 0 1 2 0 4, .tdesc 0 1 0 0, .tdesc 3 1 0 0, .csrr 1 16, .csrw 1 2, .csrw 1 0x00A].map WellFormed =
      [true, true] ++ List.replicate 24 false := by decide

theorem test_ill_formed_aslot :
    [Instr.mulh 1 2 3 0 3, .cmp 1 2 3 0 6, .cmp 1 2 3 0 7, .fcvt 1 2 1 0 3, .fcvt 1 2 1 0 5, .fcvt 1 2 1 0 7].map WellFormed =
      List.replicate 6 false := by decide

theorem test_ill_formed_vector :
    [Instr.vadd (v 1 4 2 1 0 0 0), .vadd (v 1 2 4 0 1 0 0), .vadd (v 2 2 4 0 0 1 0), .vadd (v 1 2 3 0 0 0 6), .vfma (v 1 2 3 0 0 1 2),
      .vfma (v 1 2 3 0 0 0 0), .vsel (v 1 2 3 0 0 1 0), .vred 3 (v 1 2 0 0 0 0 0), .vred 0 (v 1 2 1 0 0 0 0), .vred 1 (v 1 2 0 0 0 0 6),
      .vcvt 3 (v 1 2 3 0 0 0 2), .vcvt 0 (v 1 2 8 0 0 0 2), .vcvt 0 (v 1 2 6 0 0 0 2), .vdec 0 (v 1 2 3 0 0 0 2), .vdec 1 (v 1 2 3 0 0 0 1),
      .venc (v 1 2 3 0 0 0 2), .vscl (v 1 2 3 0 0 0 0), .vbcast (v 1 2 3 0 0 0 0), .vextr (v 1 2 3 0 1 0 0), .vidx (v 1 2 0 0 0 0 2),
      .vsfu (v 1 2 6 0 0 0 2), .vsfu (v 1 2 3 0 0 0 3), .vsort 0 (v 1 2 3 0 0 0 0), .vksel 0 (v 2 3 3 0 0 0 0), .vksel 0 (v 2 4 3 1 0 0 0),
      .vrand (v 1 2 3 0 0 0 0), .vimask (v 1 2 3 0 1 0 1)].map WellFormed = List.replicate 27 false := by decide

theorem test_ill_formed_events :
    [Instr.waitListBusyReissue 1024 0, .replyWritten 0 16 [], .loadQueueRowFill 0 0 4, .cacheWalk 128, .issueTurn 1024, .storePerformed 1024,
      .queueTailTake 16384, .sfuRequestServe 128, .flitReplay 16, .laneTrainingFailure 0 8, .ageingSensorUpdate 12 0 0,
      .ageingSensorUpdate 0 (2 ^ 24) 0, .dramBatchMark 16, .llcEviction (2 ^ 45), .functionLevelReset 0, .fillApertureWrite 511 0 0,
      .fillApertureWrite 0 4 0, .fillApertureWrite 0 131072 0, .setWayMasks 64 0 0, .setDramCap 0 65, .setDramCap 0 0, .setVcWeights 0 0 1 1 1,
      .setVcWeights 0 1 1 1 16, .writeKeySlot 256 0, .writeRouteEntry 256 none none, .writeRouteEntry 0 (some 16) none,
      .writeQueueDescriptor 16384 0, .setTenantAreas 4096 ⟨0, 0, 0, 0, 0, 0, 0, 0⟩, .setAsidRoot 0 (some 4096), .setPowerCap 599, .setPowerCap 3201,
      .supervisorPreempt 0 16, .setBreakpoint 0 none (some 1024), .setAgeingThreshold (2 ^ 24), .ageingWarnClear 12 0,
      .atsInvalidation (2 ^ 52) 1, .bindQueueToVf 0 0].map WellFormed = List.replicate 37 false := by decide

/-! ## The hypotheses of the statements are met: words, steps, registers -/

/-- A state whose slot 0 is issuing the group at pc 0x10 of its code page. -/
def issuing (w0 w1 : Half) (k : Nat := 0) : State :=
  { home k [(4, 6), (5, 7)] (fun s => { (s.modSlot 0 k fun x => { x with pc := 0x10 }) with
      mem := Memory.wrBytes [] 0x10010 (bytesOfNat 4 w0.toNat ++ bytesOfNat 4 w1.toNat) }) with issuing := true }

/-- The state in which its fetch is made. -/
def begun (s : State) : State :=
  (({ s with issuing := false }).beginPair s.curCore s.curSlot).modCur fun x => { x with lastIssue := some s.cc }

/-- SAR and SUB beside NOP (a pair), LI (a lone form), a group that is none: each fetched, decoded and free to issue. -/
theorem test_met_StepRunsDecodedGroup :
    (let s := issuing 0 0x08850000#32
     let u := (begun s).fetch.1
     s.boot = .ready ∧ s.issuing = true ∧ (begun s).fetch.2 = .ok (0x0885000000000000#64, none) ∧ u.cur.coupled = false ∧
       u.cur.regPoison = [] ∧ u.lat.adone = false ∧ decodeGroup 0#32 0x08850000#32 = .ok (.nopC, some (.sub 4 5 0 0)) ∧
       u.illAtIssue .nopC (some (.sub 4 5 0 0)) = none ∧ u.overAllot (some (.sub 4 5 0 0)) = none ∧
       (run .nopC u).lat.flow = .go ∧ (run (.sub 4 5 0 0) u).lat.flow = .go) ∧
    (let s := issuing 0x36000000 0
     let u := (begun s).fetch.1
     (begun s).fetch.2 = .ok (0x36000000#64, none) ∧ decodeGroup 0x36000000#32 0#32 = .ok (.waitm 0, some .nopA) ∧
       (run (.trap 1 0) u).lat.flow = .trapped clsTrapi 0) ∧
    (let s := issuing 0xAA400000 0xFFFFFFFF
     let u := (begun s).fetch.1
     (begun s).fetch.2 = .ok (0xFFFFFFFFAA400000#64, none) ∧ u.cur.coupled = false ∧
       decodeGroup 0xAA400000#32 0xFFFFFFFF#32 = .ok (.li 4 0xFFFFFFFF, none) ∧ u.illAtIssue (.li 4 0xFFFFFFFF) none = none) ∧
    (begun (issuing 0x7E000000 0)).fetch.2 = .ok (0x7E000000#64, none) ∧ decodeGroup 0x7E000000#32 0#32 = .error 0 := by
  decide +kernel

theorem test_step_runs_pair :
    gives (step (issuing 0 0x08850000#32)) (fun t => t.cur.reg 4 == 7 && t.cur.pc == 0x18 && !t.issuing) = true ∧
    gives (step (issuing 0xAA400000 0xFFFFFFFF)) (fun t => t.cur.reg 4 == 0xFFFFFFFFFFFFFFFF && t.cur.pc == 0x18) = true ∧
    gives (step (issuing 0x7E000000 0)) (fun t => t.cur.st == .saved) = true := by decide +kernel

theorem test_step_fetch_word :
    gives (step (State.reset.withFetchWord 32 0x21DDF000)) (fun t => t.cur.st == .ready && t.cur.pc == 8) = true ∧
    gives (step (State.reset.withFetchWord 64 0x7FFFFFFFAA400000)) (fun t => t.cur.reg 4 == 0x7FFFFFFF && t.cur.pc == 8) = true := by decide +kernel

theorem test_met_StepTakesTurnsInOrder :
    (let s := { home 0 [] with turns := [.dramCapWindow] }
     s.boot = .ready ∧ s.issuing = false ∧ s.turns = .dramCapWindow :: []) ∧
    (State.reset.boot = .ready ∧ State.reset.issuing = false ∧ State.reset.turns = []) ∧
    (let s := { State.reset with boot := .failed 1 }
     s.boot = .failed 1 ∧ s.inputs = []) := by decide +kernel

abbrev FetchOk (pc : Word) : Prop :=
    let s := home 15 [] fun s => s.modSlot 0 15 fun x => { x with pc := pc }
    let k : Cap := s.cur.c[0]
    SlotOk s ∧ k.x = true ∧ s.lat.pc.toNat % 8 = 0 ∧ s.lat.pc.toNat + 8 ≤ k.limit ∧ isWindow (k.base + s.lat.pc.toNat) = false ∧
      s.cur.poisoned = false ∧ s.cur.fbuf = [] ∧ s.here.icache = [] ∧ s.breakpoints = [] ∧
      (s.l2Access s.curCore s.cur.launch (.mem ((0x10000 + s.lat.pc.toNat) / 128 * 128) false 0 0) 128 false).poisonedAt
        (.mem (0x10000 + s.lat.pc.toNat) false 0 0) 8 = false ∧
      s.cur.walkFailed 3 (0x10000 + s.lat.pc.toNat) .fetch = none ∧ s.asidOf s.cur = 3 ∧
      s.tlbFind 0 s.cur 3 (0x10000 + s.lat.pc.toNat) = some ⟨3, 0x10, 1, 0x8000780000000010⟩ ∧
      (0x8000780000000010#64).getLsbD 46 = true ∧
      (⟨3, 0x10, 1, 0x8000780000000010⟩ : TlbEntry).loc (0x10000 + s.lat.pc.toNat) = .mem (0x10000 + s.lat.pc.toNat) false 0 0

theorem test_met_FetchReadsTheGroupAtThePc : FetchOk 0 ∧ FetchOk 0xFF8 := by decide +kernel

/-- State.reset meets the premise of the invariant, and so does a state that holds bytes; its steps answer next states. -/
theorem test_met_EveryStepKeepsMemoryCanonical :
    MemWf State.reset = true ∧ MemWf (issuing 0 0x08850000#32) = true ∧ gives (step (issuing 0 0x08850000#32)) MemWf = true := by
  decide +kernel

/-- A pair and a lone form that meet the premises of the round trip. -/
theorem test_met_EncodedGroupsDecode :
    WellFormed (.ld 20 4 1 0) = true ∧ WellFormed (.sub 31 11 2 0) = true ∧ encode (.ld 20 4 1 0) = .c 0x03421000 ∧
    encode (.sub 31 11 2 0) = .a 0x0BEB1000 ∧ writesClash (.ld 20 4 1 0) (.sub 31 11 2 0) = false ∧
    encode (.li 4 0x12345678) = .lone 0xAA400000 0x12345678 ∧ decode (.c 0x03421000) = some (.ld 20 4 1 0) := by decide +kernel

theorem test_met_registers :
    (let s := home 15 [(31, 1)]
     SlotOk s ∧ (31 : Reg) ≠ 0 ∧ (7 : PredIx) ≠ 0) ∧
    (guardOf (.add 1 2 3 5) = some 5 ∧ (home 0 []).psrc 5 = false) ∧ (guardOf (.done 7) = some 7 ∧ (home 0 []).psrc 7 = false) := by
  decide +kernel

/-- ADD wraps, DIV of the most negative number by −1, MULH.SU, REM by 0; the premises of the statements on them. -/
theorem test_met_arithmetic :
    let s := home 0 [(5, 0x8000000000000000), (6, 0xFFFFFFFFFFFFFFFF), (7, 0)]
    WellFormed (.mulh 1 5 6 0 2) = true ∧ arithResult s (.add 1 6 6 0) = some (0, 1, 0xFFFFFFFFFFFFFFFE) ∧
    gives (exec (.div 1 5 6 0) s) (fun t => t.cur.reg 1 == 0x8000000000000000) = true ∧
    gives (exec (.rem 1 5 7 0) s) (fun t => t.cur.reg 1 == 0x8000000000000000) = true ∧
    gives (exec (.mulh 1 5 6 0 2) s) (fun t => t.cur.reg 1 == 0x8000000000000000) = true ∧
    gives (exec (.minu 1 5 6 0) s) (fun t => t.cur.reg 1 == 0x8000000000000000) = true ∧ s.guard 0 = true := by decide +kernel

theorem test_met_bits :
    let s := home 0 [(5, 0x8000000000000001), (6, 63), (7, 0xAB)]
    WellFormed (.bits 1 5 0 3) = true ∧ bitResult s (.bits 1 5 0 3) = some (0, 1, 0x8000000000000001) ∧
    gives (exec (.sar 1 5 6 0) s) (fun t => t.cur.reg 1 == 0xFFFFFFFFFFFFFFFF) = true ∧
    gives (exec (.extS 1 7 0 7 0) s) (fun t => t.cur.reg 1 == 0xFFFFFFFFFFFFFFAB) = true ∧
    gives (exec (.ins 5 7 6 7 0) s) (fun t => t.cur.reg 5 == 0x8000000000000001) = true ∧
    gives (exec (.andn 1 5 7 0) s) (fun t => t.cur.reg 1 == 0x8000000000000000) = true ∧ s.guard 0 = true := by decide +kernel

/-- Both sides of CMP and of SEL, with a word that traps ILL beside a legal C-slot. -/
theorem test_met_CompareAndSelect :
    let s := home 0 [(5, 0xFFFFFFFFFFFFFFFF), (6, 1)]
    WellFormed (.cmp 1 5 6 0 2) = true ∧ sgn s 5 < sgn s 6 ∧ ¬ uns s 5 < uns s 6 ∧ s.guard 0 = true ∧ s.guard 1 = false ∧
    (0#32).getLsbD 31 = false ∧ decodeC 0#32 ≠ none ∧ (6#3).ule 6#3 = true ∧ (8#5).ule 8#5 = true ∧
    gives (exec (.cmp 1 5 6 0 2) s) (fun t => t.cur.pred 1) = true ∧ gives (exec (.cmp 1 5 6 0 4) s) (fun t => !t.cur.pred 1) = true ∧
    gives (exec (.sel 3 5 6 1 0) s) (fun t => t.cur.reg 3 == 1) = true := by decide +kernel

theorem test_met_scalar_frame :
    SlotOk (home 13 []) ∧ scalarA (.fcmp 1 2 3 0 0) = true ∧ floatA (.cmp 1 2 3 0 0) = false ∧ (4 : Reg).toNat ∉ destinations (.add 3 4 5 0) := by
  decide +kernel

/-- FADD of 1.0 and 2^-24 is a tie that goes to the even 1.0 and sets INEXACT; FMA rounds once. -/
theorem test_met_FloatInstructions :
    let s := home 0 [(5, 0x3F800000), (6, 0x33800000), (7, 0xBF800000)]
    s.guard 0 = true ∧ gives (exec (.fadd 1 5 6 0) s) (fun t => t.cur.reg 1 == 0x3F800000) = true ∧
    gives (exec (.fma 1 5 6 7 0) s) (fun t => t.cur.reg 1 == 0xBF7FFFFF) = true ∧
    gives (exec (.fcmp 2 7 5 0 1) s) (fun t => t.cur.pred 2) = true := by decide +kernel

/-- 1/3 rounds to 0x3EAAAAAB to nearest and up, to 0x3EAAAAAA down: the premises of the rounding statements. -/
theorem test_met_Rounding :
    fp32.bits .rne (.fin false 0x5555555555 (-40)) = 0x3EAAAAAB ∧ fp32.bits .rdn (.fin false 0x5555555555 (-40)) = 0x3EAAAAAA ∧
    (ratOf (.fin false 1 (-1))).isSome = true ∧ (ratOf (fp32.value 0x3EAAAAAB)).isSome = true := by
  refine ⟨by decide +kernel, by decide +kernel, rfl, ?_⟩
  have : fp32.value 0x3EAAAAAB = .fin false 0xAAAAAB (-25) := by decide +kernel
  rw [this]; rfl

/-! ## Control flow, traps, special registers -/

theorem test_met_ConstantsAndBranches :
    let s := home 3 [(2, 1), (4, 2)] fun s => s.modSlot 0 3 fun x => { x with pc := 0x40 }
    s.psrc 0 = true ∧ s.psrc 1 = false ∧ uns s 2 = 1 ∧ uns s 4 ≠ 1 ∧
    gives (exec (.bc 1 0 (-8)) s) (fun t => t.cur.pc == 0x48) = true ∧ gives (exec (.bc 1 1 (-8)) s) (fun t => t.cur.pc == 0) = true ∧
    gives (exec (.loop 2 0xFFFFFFFF) s) (fun t => t.cur.pc == 0x48 && t.cur.reg 2 == 0) = true ∧
    gives (exec (.loop 4 0xFFFFFFFF) s) (fun t => t.cur.pc == 0x38 && t.cur.reg 4 == 1) = true ∧
    gives (exec (.lih 4 0x80000000) s) (fun t => t.cur.reg 4 == 0x8000000000000002) = true ∧
    gives (exec (.jal 2) s) (fun t => t.cur.pc == 0x50 && t.cur.reg 1 == 0x48) = true := by decide +kernel

/-- jr s1, s1 with an aligned and a misaligned target; a fetch at the limit of c0. -/
theorem test_met_JumpThroughARegister :
    (let s := home 3 [(1, 8)]
     s.guard 0 = true ∧ uns s 1 % 8 = 0 ∧ gives (exec (.jr 1 1 0) s) (fun t => t.cur.pc == 8 && t.cur.reg 1 == 8) = true) ∧
    (let s := home 3 [(1, 4)]
     uns s 1 % 8 ≠ 0 ∧ gives (exec (.jr 1 1 0) s) (fun t => t.lat.flow == .trapped clsAln 4) = true) ∧
    (let s := home 3 [] fun s => s.modSlot 0 3 fun x => { x with pc := 0xFFC }
     (let k : Cap := s.cur.c[0]; k.limit < s.lat.pc.toNat + 8)) := by decide +kernel

/-- A slot with a handler whose stack has room for one record: at the lowest and at the highest place of the partition. -/
abbrev TrapOk (s2 : Word) (off : Nat) : Prop :=
  let s := home 15 [(2, s2)] fun s => s.modSlot 0 15 fun x => { x with trapvec := 0x80 }
  let x := s.slot 0 15
  x.regPoison = [] ∧ x.trapvec ≠ 0 ∧ programArea + 64 ≤ (x.reg 2).toNat ∧ (x.reg 2).toNat ≤ s.lmend 0 x ∧ (x.reg 2).toNat % 8 = 0 ∧ x.seq = [] ∧
    (s.cluster (clusterOf 0)).sfu = [] ∧ x.gang = false ∧ x.packet = none ∧ x.coupled = false ∧ (s.core 0).waiters = [] ∧
    s.place x.launch 0 ((x.reg 2).toNat - 64) = some off ∧ off % 8 = 0 ∧ saveArea 15 + 0x400 ≤ off ∧
    (let t := s.takeTrap 0 15 clsSeg 0x123 0x40 5 true false
     t.cur.reg 2 = BitVec.ofNat 64 ((x.reg 2).toNat - 64) ∧ t.cur.pc = 0x80 ∧ fld t.cur.status 24 8 = 2 ∧
     natOfBytes ((t.core 0).lm.rdBytes off 8) = 0x40 ∧ natOfBytes ((t.core 0).lm.rdBytes (saveArea 15 + 0x3C8) 8) = 0x123)

/-- Slot 13 and the handler slot 14, without a handler of traps: their traps escalate. -/
abbrev EscalateOk (k : Nat) : Prop :=
  let s := home k [(2, 0x29000)]
  k < 16 ∧ (s.slot 0 k).regPoison = [] ∧ (s.slot 0 k).trapvec = 0 ∧ (s.slot 0 k).seq = [] ∧ (s.cluster (clusterOf 0)).sfu = [] ∧ (s.slot 0 k).gang = false ∧
    (s.slot 0 k).packet = none ∧ (s.slot 0 k).coupled = false ∧ (s.slot 0 k).ticket = 0

theorem test_met_TrapsPushARecordOrEscalate :
    TrapOk 0x9040 0x9000 ∧ TrapOk 0x29000 0x28FC0 ∧ EscalateOk 13 ∧ EscalateOk 14 := by decide +kernel

theorem test_escalation :
    ((home 13 []).takeTrap 0 13 clsSeg 0x123 0x40 5 true false).cur.st = .saved ∧
    ((home 14 []).takeTrap 0 14 clsSeg 0x123 0x40 5 true false).cur.st = .free := by decide +kernel

/-- A TRAP and the ERET that follows it. -/
theorem test_met_TrapThenReturnGoesOn :
    let s := home 0 [(2, 0x29000), (3, 7)] fun s => s.modSlot 0 0 fun x => { x with trapvec := 0x80, pc := 0x40 }
    let x := s.cur
    SlotOk s ∧ s.guard 0 = true ∧ s.trapWaits s.curCore s.curSlot = false ∧ 2 ∉ x.regPoison ∧ x.trapvec ≠ 0 ∧ programArea + 64 ≤ (x.reg 2).toNat ∧ (x.reg 2).toNat ≤ s.lmend s.curCore x ∧
    (x.reg 2).toNat % 8 = 0 ∧ x.seq = [] ∧ (s.cluster s.cl).sfu = [] ∧ x.gang = false ∧ x.packet = none ∧ x.coupled = false ∧
    s.here.waiters = [] ∧ s.here.lmPoison = [] ∧ s.place x.launch s.curCore ((x.reg 2).toNat - 64) = some 0x28FC0 ∧
    saveArea s.curSlot + 0x400 ≤ 0x28FC0 ∧
    gives (exec (.trap 3 0) s) (fun u => gives (exec (.eret 0) u) fun t =>
      t.cur.pc == 0x48 && t.cur.reg 2 == 0x29000 && t.cur.traprec == 0) = true := by decide +kernel

/-- TRAPREC 0, TRAPREC outside the partition, and TRAPREC at its last record. -/
theorem test_met_ReturnReadsTheRecord :
    (home 0 []).cur.traprec.toNat = 0 ∧
    (let s := home 0 [] fun s => s.modSlot 0 0 fun x => { x with traprec := 0x28FC8 }
     s.guard 0 = true ∧ s.cur.traprec.toNat ≠ 0 ∧ ¬ s.cur.traprec.toNat + 64 ≤ s.lmend s.curCore s.cur ∧
     gives (exec (.eret 0) s) (fun t => t.lat.flow == .trapped clsSys 0x28FC8) = true) ∧
    (let s := home 0 [] fun s => s.modSlot 0 0 fun x => { x with traprec := 0x28FC0 }
     programArea ≤ s.cur.traprec.toNat ∧ s.cur.traprec.toNat + 64 ≤ s.lmend s.curCore s.cur ∧ s.cur.traprec.toNat % 8 = 0 ∧
     s.place s.cur.launch s.curCore s.cur.traprec.toNat = some 0x28FC0 ∧ s.poisonedAt (.lm s.curCore 0x28FC0) 64 = false ∧
     gives (exec (.eret 0) s) (fun t => t.cur.reg 2 == 0x29000) = true) := by decide +kernel

/-- The highest number of R58 is listed, the next is not; user and supervisor writes. -/
theorem test_met_SpecialRegisters :
    (let s := home 15 [(5, 0x123)] fun s => s.modSlot 0 15 fun x => { x with status := 0x100 }
     s.csrValue 4 = some 15 ∧ s.csrValue 0x00F = some 0 ∧ csrListed 15 = true ∧ csrListed 16 = false ∧ (s.launchOf s.cur).isSome = true ∧
     s.cur.supervisor = false ∧ gives (exec (.csrw 5 0x00D) s) (fun t => t.lat.flow == .trapped clsSys 0x11) = true ∧
     gives (exec (.csrw 5 0) s) (fun t => !t.cur.status.getLsbD 8) = true ∧ gives (exec (.csrw 5 1) s) (fun t => t.cur.trapvec == 0x120) = true) ∧
    (let s := home 15 [(5, 7)] fun s => s.modSlot 0 15 fun x => { x with status := 0x40000 }
     s.cur.supervisor = true ∧ gives (exec (.csrw 5 0x00D) s) (fun t => t.here.lzdrop == 7) = true ∧
     gives (exec (.csrw 5 0x00F) s) (fun t => t.cur.timer == 7) = true) := by decide +kernel

/-- 0, an address with low bits 1, one with low bits 2, and a record's place. -/
theorem test_met_TicketWrites :
    (let s := home 13 [(6, 0x20081), (7, 0x20082), (8, 0x20080)]
     SlotOk s ∧ s.src 5 = 0 ∧ (s.src 6).toNat % 128 = 1 ∧ 1 < (s.src 7).toNat % 128 ∧ s.src 8 ≠ 0 ∧ (s.src 8).toNat % 128 = 0 ∧
     (s.src 8).toNat < 2 ^ 56 ∧ isWindow (s.src 8).toNat = false ∧ 0x20080 % 128 = 0 ∧ StoresIn s ∧ s.waiters = [] ∧
     (match s.xlate (s.src 8).toNat .atomic with | .ok l => l == .mem 0x20080 false 0 0 | _ => false) = true ∧
     gives (exec (.openWalk 8) s) (fun t => t.cur.ticket == 0x20080 && !t.full (.mem 0x20080 false 0 0)) = true ∧
     gives (exec (.openWalk 6) s) (fun t => t.cur.ticket == 0x20080) = true) := by decide +kernel

theorem test_met_YieldFlushAndWake :
    (let s := home 13 [(4, 3)]
     s.guard 0 = true ∧ s.cur.packet = none ∧ s.cur.supervisor = false ∧ gives (exec (.yield 0) s) (fun t => t.cur.fromCc == 16) = true ∧
     gives (exec (.asfl 4 0) s) (fun t => t.lat.flow == .trapped clsSys 0x11) = true) ∧
    (home 13 [] fun s => s.modSlot 0 13 fun x => { x with packet := some ⟨0, 0, false, []⟩ }).cur.packet ≠ none ∧
    (let s := home 13 [(4, 3)] fun s => s.modSlot 0 13 fun x => { x with status := 0x40000, flushAt := some 4, stgs := 1 }
     s.cur.supervisor = true ∧ SlotOk s ∧ s.curSlot ≠ 14 ∧ s.cur.packet = none ∧ s.cur.flushAt = some 4 ∧
     gives (exec (.asfl 4 0) s) (fun t => (t.cluster 0).tlb == [] && t.cur.flushAt == some 5) = true) ∧
    (let s := home 13 [(4, 3)] fun s => (s.modSlot 0 13 fun x => { x with status := 0x40000 }).modSlot 0 15 fun x =>
       { x with walk := some ⟨3, 0x21000, .read, true, none⟩ }
     gives (exec (.asfl 4 0) s) (fun t => (t.slot 0 15).walk == some ⟨3, 0x21000, .read, false, none⟩) = true) ∧
    ((home 13 [] fun s => s.modSlot 0 13 fun x => { x with status := 0x40000 }).cur.flushAt.all fun _ => false) = true := by decide +kernel

/-- An ASBAR with an access of before the flush still on its way. -/
theorem test_met_barrier_waits :
    let s := home 13 [] fun s => { s.modSlot 0 13 fun x => { x with status := 0x40000, flushAt := some 4 } with
      cores := (s.modSlot 0 13 fun x => { x with status := 0x40000, flushAt := some 4 }).cores.put 1
        { Core.reset with path := [⟨0, .mem 0x20000 false 0 0, [0], false, false, 3, none, none, none⟩] } }
    s.cur.flushAt = some 4 ∧ s.translatedBefore 4 = true := by decide +kernel

/-- Slot 13 of core 0 under this STATUS, and slot 2 of both cores FAULTED with tag 9 in this launch; what WAKE's s[a] holds. -/
def faulted (st : Word) (launch : Nat) (a : Word) : State :=
  let x : Slot := { Slot.reset with st := .faulted, faultTag := 9, launch := some launch }
  home 13 [(4, a)] fun s => { s with cores :=
    [(0, (Core.reset.setSlot 13 { strand [(4, a)] with status := st }).setSlot 2 x), (1, Core.reset.setSlot 2 x)] }

/-- WAKE of slot 2 of core 1 and of the own core by tag 9, by the supervisor and by the launch itself; of tag 8, of tag 0 and of one woken
already; a reserved bit; a user who may not. -/
theorem test_met_WakeMarksAContext :
    let wakes (t : State) (core : Nat) : Bool := (t.slot core 2).wakes == [9]
    let none' (t : State) : Bool := (t.slot 0 2).wakes == [] && (t.slot 1 2).wakes == []
    (let s := faulted 0x40000 8 (9 * 2 ^ 22 + 16 + 2)
     s.cur.supervisor = true ∧ uns s 4 / 2 ^ 38 % 2 ^ 26 = 0 ∧ uns s 4 / 2 ^ 14 % 256 = s.device ∧ uns s 4 / 16 % 1024 ≠ s.curCore ∧
     (s.slot 1 2).faultTag = 9 ∧ 9 ∉ (s.slot 1 2).wakes ∧ gives (exec (.wake 4 0) s) (fun t => wakes t 1 && t.cur.st == .reply) = true) ∧
    (let s := faulted 0 7 (9 * 2 ^ 22 + 2)
     s.cur.supervisor = false ∧ uns s 4 / 16 % 1024 = s.curCore ∧ s.holdsFault 0 2 s.cur.launch 9 = true ∧
     gives (exec (.wake 4 0) s) (fun t => wakes t 0 && t.cur.st == .ready) = true) ∧
    (let s := faulted 0 7 (9 * 2 ^ 22 + 16 + 2)
     s.holdsFault 1 2 s.cur.launch 9 = true ∧ gives (exec (.wake 4 0) s) (fun t => wakes t 1 && t.cur.st == .reply) = true) ∧
    (let s := faulted 0 7 (8 * 2 ^ 22 + 16 + 2)
     s.holdsFault 1 2 s.cur.launch 8 = false ∧ s.holdsFault 1 2 s.cur.launch 0 = true ∧
     gives (exec (.wake 4 0) s) (fun t => none' t && t.cur.st == .reply) = true) ∧
    gives (exec (.wake 4 0) (faulted 0x40000 8 2)) (fun t => none' t && t.cur.st == .ready) = true ∧
    (let s := (faulted 0x40000 8 (9 * 2 ^ 22 + 2)).modSlot 0 2 fun x => { x with wakes := [9] }
     gives (exec (.wake 4 0) s) (fun t => wakes t 0) = true) ∧
    (let s := faulted 0 8 (9 * 2 ^ 22 + 2)
     s.belongs 0 2 7 = false ∧ s.holdsFault 0 2 (some 7) 0 = false ∧
     gives (exec (.wake 4 0) s) (fun t => t.lat.flow == .trapped clsSys 0x13) = true) ∧
    uns (faulted 0 8 (2 ^ 38)) 4 / 2 ^ 38 % 2 ^ 26 ≠ 0 := by decide +kernel

/-- Entry 15 and index 16; an ALMW that keeps the spacing; a rotation boundary with a write pending. -/
theorem test_met_Almanac :
    (let s := home 13 [(4, 15), (5, 16), (6, 0x0FF)]
     uns s 4 < 16 ∧ 16 ≤ uns s 5 ∧ s.guard 0 = true ∧ gives (exec (.almr 3 4 0) s) (fun t => t.cur.reg 3 == 0x1FF) = true) ∧
    (let s := home 13 [(4, 13), (6, 0x0DD)]
     uns s 4 < 16 ∧ uns s 6 < 512 ∧ s.ownsSlot (almIssue (s.here.almPending.getD 13 0)) = true ∧
     s.ownsSlot (almStep (s.here.almPending.getD 13 0)) = true ∧ s.ownsSlot (almStep 0x0DD) = true ∧ almIv 0x0DD = false ∧
     almSpaced (s.here.almPending.set 13 0x0DD) = true ∧ s.gangsAdjacent s.curCore (s.here.almPending.set 13 0x0DD) = true ∧
     gives (exec (.almw 4 6 0) s) (fun t => t.here.almNext == [(13, 0x0DD)]) = true) ∧
    (let s := home 13 [] fun s => s.modCore 0 fun c => { c with almNext := [(13, 0x0DD)] }
     0 ∈ s.cores.keys ∧ ([0].all fun c => (List.range 16).all fun k => (s.slot c k).wakes == [] && !(s.slot c k).coupling) = true ∧
     gives (exec .rotationBoundary s) (fun t => (t.core 0).alm[13] == 0x0DD) = true) := by decide +kernel

theorem test_met_DecodeTable :
    let s := home 13 [(4, 255), (5, 256), (6, 0xFFFFF)]
    s.guard 0 = true ∧ uns s 4 < 256 ∧ 256 ≤ uns s 5 ∧
    ((List.range 16).all fun k => (s.slot s.curCore k).launch == none || (s.slot s.curCore k).launch == s.cur.launch) = true ∧
    s.here.tableBusy (s.cur.since.getD s.cc) = false ∧
    gives (exec (.dtwr 4 6 0) s) (fun t => Sparse.get 0 t.here.dtab 255 == 0x7FFFF) = true := by decide +kernel

/-! ## Memory -/

theorem test_met_LocalAccesses :
    (let s := home 15 [(4, 0x29000), (5, 0x9001), (6, 0x8020), (7, 0x8000), (8, 0x28FF8), (9, 0x1122334455667788)]
     let l := launch
     let t : Seat := ⟨0, 0, 0x9000, 0x20000, 0x28000, 0, 0, [], 0x28800, 0, 0, 0, 0⟩
     SlotOk s ∧ s.lmend s.curCore s.cur = 0x29000 ∧ s.cur.supervisor = false ∧
     gives (exec (.ldl 3 4 0) s) (fun t => t.lat.flow == .trapped clsSeg 0x29000) = true ∧
     gives (exec (.ldl 3 5 0) s) (fun t => t.lat.flow == .trapped clsAln 0x9001) = true ∧
     gives (exec (.ldl 3 6 0) s) (fun t => t.lat.flow == .trapped clsSys 0x8020) = true ∧
     gives (exec (.stl 3 7 0) s) (fun t => t.lat.flow == .trapped clsSys 0x8000) = true ∧
     s.launchOf s.cur = some l ∧ l.seat s.curCore = some t ∧ programArea ≤ 0x28FF8 ∧ 0x28FF8 < programArea + t.lmsize ∧
     (s.src 8 + (0#12).signExtend 64).toNat = 0x28FF8 ∧ (s.src 8 + (0#32).signExtend 64).toNat = 0x28FF8 ∧
     s.poisonedAt (.lm s.curCore (t.pbase + (0x28FF8 - programArea))) 8 = false ∧ StoresIn s ∧ s.here.waiters = [] ∧
     gives (exec (.stl 9 8 0) s) (fun t => t.here.lm.rdBytes 0x28FF8 8 == [0x88, 0x77, 0x66, 0x55, 0x44, 0x33, 0x22, 0x11]) = true ∧
     gives (exec (.stlLone 9 8 0) s) (fun t => t.here.lm.rdBytes 0x28FF8 2 == [0x88, 0x77]) = true) := by decide +kernel

/-- Through c1 (every right), c3 (no W), c0 of another generation, beyond the limit, misaligned; the last word of the page. -/
theorem test_met_GlobalAccessesAreChecked :
    let s := home 15 [(4, 0xFF8), (5, 0x1000), (6, 4)]
    let k : Cap := s.cur.c[1]
    let ro : Cap := s.cur.c[3]
    k.r = true ∧ k.w = true ∧ k.q = false ∧ s.genCurrent s.cur k = true ∧ ro.w = false ∧ 0xFF8 + 8 ≤ k.limit ∧ ¬ 0x1000 + 8 ≤ k.limit ∧
    k.base + 0xFF8 < 2 ^ 56 ∧ isWindow (k.base + 0xFF8) = false ∧ (k.base + 0xFF8) % 8 = 0 ∧ (k.base + 4) % 8 ≠ 0 ∧
    s.xlate (k.base + 0xFF8) .read = .ok (.mem 0x20FF8 false 0 0) ∧ s.xlate (k.base + 0xFF8) .write = .ok (.mem 0x20FF8 false 0 0) ∧
    gives (exec (.ld 3 5 1 0) s) (fun t => t.lat.flow == .trapped clsSeg 0x1000) = true ∧
    gives (exec (.ld 3 6 1 0) s) (fun t => t.lat.flow == .trapped clsAln 0x20004) = true ∧
    gives (exec (.st 3 4 3 0) s) (fun t => t.lat.flow == .trapped clsSeg 0xFF8) = true ∧
    gives (exec (.stg 3 6 1 0) s) (fun t => t.lat.flow == .trapped clsAln 0x20004) = true := by decide +kernel

/-- A hit, a miss, and a page without R. -/
theorem test_met_Translation :
    let s := home 15 []
    let e : TlbEntry := ⟨3, 0x20, 1, 0x8000380000000020⟩
    s.cur.walk = none ∧ s.asidOf s.cur = 3 ∧ s.tlbFind s.curCore s.cur 3 0x20FF8 = some e ∧ e.pte.getLsbD 44 = true ∧ e.pte.getLsbD 45 = true ∧
    e.pte.getLsbD 47 = false ∧ s.tlbFind s.curCore s.cur 3 0x21000 = none ∧ SlotOk s ∧ (s.tenant 3).pending = [] ∧
    ((home 15 [] fun s => { s with clusters := [(0, ⟨[⟨3, 0x20, 1, 0x8000200000000020⟩], [], []⟩)] }).tlbFind 0 (home 15 []).cur 3 0x20FF8 =
      some ⟨3, 0x20, 1, 0x8000200000000020⟩) ∧ (0x8000200000000020#64).getLsbD 44 = false ∧
    (s.stop (.fault 0x21000 1 .read)).cur.st = .faulted ∧ (s.stop (.walk 3 0x21000 .read)).cur.st = .reply := by decide +kernel

theorem test_met_LoadsAnswer :
    (let s := home 15 [(4, 0xFF8)] fun s => { s with mem := Memory.wrBytes [] 0x20FF8 [5, 6] }
     SlotOk s ∧ StoresIn s ∧ s.here.l1 = [] ∧ (s.cap 1).s = false ∧ 0x20FF8 % 8 = 0 ∧
     (s.l2Access s.curCore s.cur.launch (.mem 0x20F80 false 0 0) 128 false).poisonedAt (.mem 0x20FF8 false 0 0) 8 = false ∧
     s.globalLoc 1 (s.offset 4 (0#12)) 8 true false .read .other = .ok (.mem 0x20FF8 false 0 0, 0x20FF8) ∧
     s.globalLoc 1 (s.offset 4 (0#32)) 8 true false .read .other = .ok (.mem 0x20FF8 false 0 0, 0x20FF8) ∧
     gives (exec (.ld 3 4 1 0) s) (fun t => t.cur.reply == some ⟨.now, [(3, 0x605)], false⟩) = true) ∧
    (let s := home 15 [] fun s => s.modSlot 0 15 fun x => { x with st := .reply, reply := some ⟨.now, [(3, 0x605)], false⟩ }
     (s.slot 0 15).coupled = false ∧ (s.slot 0 15).st = .reply ∧ (s.slot 0 15).reply = some ⟨.now, [(3, 0x605)], false⟩ ∧
     (s.slot 0 15).seqReply = false ∧ gives (exec (.replyWritten 0 15 []) s) (fun t => (t.slot 0 15).reg 3 == 0x605 && (t.slot 0 15).st == .ready) = true) ∧
    (home 15 [] fun s => s.modSlot 0 15 fun x => { x with reply := some ⟨.busy, [], true⟩ }).cur.reply = some ⟨.busy, [], true⟩ := by
  decide +kernel

/-- ST and STG to memory, ST to the window of core 0, a store of the path, an STG and its acknowledgement. -/
theorem test_met_StoresArePerformed :
    (let s := home 15 [(3, 0x1234), (4, 0xFF8), (6, 0x9000)]
     SlotOk s ∧ StoresIn s ∧ s.cur.drainsQueued = 0 ∧ (s.cap 1).s = false ∧ (s.cap 4).s = false ∧ s.cur.stgs < 64 ∧
     s.globalLoc 1 (s.offset 4 (0#12)) 8 false true .write .other = .ok (.mem 0x20FF8 false 0 0, 0x20FF8) ∧
     s.globalLoc 1 (s.offset 4 (0#32)) 8 false true .write .other = .ok (.mem 0x20FF8 false 0 0, 0x20FF8) ∧
     s.globalLoc 4 (s.offset 6 (0#12)) 8 false true .write .other = .ok (.lm 0 0x9000, 0xFE000000009000) ∧
     s.globalLoc 4 (s.offset 6 (0#32)) 8 false true .write .other = .ok (.lm 0 0x9000, 0xFE000000009000) ∧
     gives (exec (.st 3 4 1 0) s) (fun t => t.here.path == [⟨15, .mem 0x20FF8 false 0 0, [0x34, 0x12, 0, 0, 0, 0, 0, 0], false, false, 5, none, none, none⟩]) = true ∧
     gives (exec (.stg 3 6 4 0) s) (fun t => t.stgs == [⟨0, .slot 0 15, .lm 0 0x9000, 0xFE000000009000, 0x1234, none⟩] && t.cur.stgs == 1) = true) ∧
    (let s := home 15 [] fun s => { s with cores := (s.modCore 0 fun c =>
        { c with path := [⟨15, .mem 0x20FF8 false 0 0, [0x34, 0x12], false, false, 5, none, none, none⟩] }).cores }
     (s.core 0).path = ⟨15, .mem 0x20FF8 false 0 0, [0x34, 0x12], false, false, 5, none, none, none⟩ :: [] ∧ s.stgs = [] ∧
     (∀ q, q < 4 → (s.slot 0 15).waitingRow q = none) ∧
     gives (exec (.storePerformed 0) s) (fun t => t.mem.rdBytes 0x20FF8 2 == [0x34, 0x12]) = true) ∧
    (let s := home 15 [] fun s => { s.modSlot 0 15 fun x => { x with stgs := 1 } with stgs := [⟨0, .slot 0 15, .lm 0 0x9000, 0xFE000000009000, 0x1234, none⟩] }
     s.stgs = ⟨0, .slot 0 15, .lm 0 0x9000, 0xFE000000009000, 0x1234, none⟩ :: [] ∧ (s.slot 0 15).st ≠ .saved ∧
     gives (exec (.stgAcknowledgement 0) s) (fun t => (t.core 0).lm.rdBytes 0x9000 2 == [0x34, 0x12] && t.cur.stgs == 0 && t.stgs == []) = true) := by
  decide +kernel

/-- The two kinds of home, and that no access waits there. -/
theorem test_met_homes : OnHome (.mem 0x20FF8 false 0 0) ∧ OnHome (.lm 0 0x9000) ∧ NoWaiters (home 15 []) :=
  ⟨.inl ⟨_, _, _, _, rfl⟩, .inr ⟨_, _, rfl, by decide⟩, noWaiters_of (by decide +kernel) (by decide +kernel)⟩

/-- A full and an empty word, through c1 and through the alias of local memory. -/
theorem test_met_FullEmptyWords :
    (let s := home 13 [(3, 7), (4, 0xFF8), (5, 0x9000)]
     SlotOk s ∧ StoresIn s ∧ s.mayWait = true ∧ s.full (.mem 0x20FF8 false 0 0) = true ∧ s.full (.lm 0 0x9000) = true ∧
     s.cfLoc 1 0 (s.offsetW 4 0) true false .read .ldh = .ok (.mem 0x20FF8 false 0 0, 0x20FF8) ∧
     s.cfLoc 1 0 (s.offsetW 4 0) true false .read .other = .ok (.mem 0x20FF8 false 0 0, 0x20FF8) ∧
     s.cfLoc 1 0 (s.offsetW 4 0) true true .atomic .ldx = .ok (.mem 0x20FF8 false 0 0, 0x20FF8) ∧
     s.cfLoc 1 0 (s.offsetW 4 0) false true .write .stf = .ok (.mem 0x20FF8 false 0 0, 0x20FF8) ∧
     s.cfLoc 1 0 (s.offsetW 4 0) false true .write .stfa = .ok (.mem 0x20FF8 false 0 0, 0x20FF8) ∧
     s.cfLoc 1 0 (s.offsetW 4 0) false true .write .other = .ok (.mem 0x20FF8 false 0 0, 0x20FF8) ∧
     (s.cfLoc 0 1 (s.offsetW 5 0) true true .atomic .ldx).isOk = true ∧
     (s.serveMe (.mem 0x20FF8 false 0 0) false false).poisonedAt (.mem 0x20FF8 false 0 0) 8 = false ∧
     (s.serveMe (.mem 0x20FF8 false 0 0) true true).poisonedAt (.mem 0x20FF8 false 0 0) 8 = false ∧
     ((s.touch (.mem 0x20FF8 false 0 0) true s.cl).hier.llc.look 0x41F).isSome = true ∧
     gives (exec (.ldx 3 5 0 1 0) s) (fun t => t.cur.reply == some ⟨.now, [(3, 0)], false⟩ && !t.full (.lm 0 0x9000)) = true ∧
     gives (exec (.stf 3 5 0 1 0) s) (fun t => t.cur.st == .parked && t.full (.lm 0 0x9000)) = true ∧
     gives (exec (.stfa 3 5 0 1 0) s) (fun t => t.here.lm.rd 0x9000 == 7 && t.cur.st == .reply) = true) ∧
    (let s := home 13 [(3, 7), (4, 0xFF8), (5, 0x9000)] fun s =>
       { s.modCore 0 fun c => { c with lmEmpty := c.lmEmpty ++ [0x1200] } with memEmpty := [0x41FF] }
     s.full (.mem 0x20FF8 false 0 0) = false ∧ s.full (.lm 0 0x9000) = false ∧ s.mayWait = true ∧ s.waitRoom (.lm 0 0x9000) = true ∧
     s.waitRoom (.mem 0x20FF8 false 0 0) = true ∧
     gives (exec (.ldx 3 5 0 1 0) s) (fun t => t.cur.st == .parked && t.here.waiters.map (fun w => (w.who, w.kind)) == [(.slot 0 13, .ldx 3)]) = true ∧
     gives (exec (.stf 3 5 0 1 0) s) (fun t => t.here.lm.rd 0x9000 == 7 && t.full (.lm 0 0x9000)) = true) ∧
    (let s := home 13 [(3, 7), (4, 0xFF8), (5, 0x9000)] fun s =>
       s.modCore 0 fun c => { c with lmEmpty := c.lmEmpty ++ [0x1200], waiters := List.replicate 16 ⟨.slot 1 5, .lm 0 0xA000, 0xA000, .ldf 3, 4⟩ }
     s.waitRoom (.lm 0 0x9000) = false ∧ s.mayWait = true ∧ s.waitRoom (.mem 0x20FF8 false 0 0) = true ∧
     gives (exec (.ldx 3 5 0 1 0) s) (fun t => t.cur.reply == some ⟨.busy, [], true⟩) = true) ∧
    (let w (loc : Nat) (k : WaitKind) : Waiter := ⟨.slot 0 13, .lm 0 loc, loc, k, 5⟩
     let pre := [w 0xA000 (.ldx 4)]
     let post := [{ w 0x9000 (.ldx 5) with who := .slot 0 12 }]
     let s := home 13 [] fun s => (s.modCore 0 fun c =>
       { c with lmEmpty := c.lmEmpty ++ [0x1200], waiters := pre ++ w 0x9000 (.ldx 3) :: post }).modSlot 0 13 fun x =>
         { x with st := .parked, park := some .fullEmpty }
     (s.core 0).waiters = pre ++ w 0x9000 (.ldx 3) :: post ∧ (pre.all fun u => !u.hears (.lm 0 0x9000)) = true ∧
     (post.all fun u => u.hears (.lm 0 0x9000)) = true ∧ (s.slot 0 13).seqReply = false ∧ programArea ≤ 0x9000 ∧ 0x9000 % 8 = 0 ∧
     (let t := s.fill 0 (.lm 0 0x9000) 42
      (t.slot 0 13).st = .ready ∧ (t.slot 0 13).reg 3 = 42 ∧ t.full (.lm 0 0x9000) = false ∧ (t.core 0).waiters = pre ++ post)) := by
  decide +kernel

/-- Device memory through c1 and local memory through the window; 32, 64 and 128 bits; the comparison of CAS met and not met. -/
theorem test_met_AtomicsReadModifyWrite :
    (let s := home 15 [(4, 0xFF0), (5, 0x9000), (6, 5), (8, 5), (9, 0)] fun s =>
       { s.modCore 0 fun c => { c with lm := Memory.wrBytes [] 0x9000 [5] } with mem := Memory.wrBytes [] 0x20FF0 [5, 0, 0, 0, 0, 0, 0, 0, 9] }
     SlotOk s ∧ StoresIn s ∧ s.inputs = [] ∧ WellFormed (.atom 3 4 6 1 3 1 9) = true ∧ WellFormed (.cas 8 4 6 1 3 1) = true ∧
     s.globalLoc 1 (s.src 4) 8 true true .atomic .other = .ok (.mem 0x20FF0 false 0 0, 0x20FF0) ∧
     s.globalLoc 1 (s.src 4) 4 true true .atomic .other = .ok (.mem 0x20FF0 false 0 0, 0x20FF0) ∧
     s.globalLoc 1 (s.src 4) 16 true true .atomic .other = .ok (.mem 0x20FF0 false 0 0, 0x20FF0) ∧
     s.globalLoc 4 (s.src 5) 8 true true .atomic .other = .ok (.lm 0 0x9000, 0xFE000000009000) ∧
     s.globalLoc 4 (s.src 5) 4 true true .atomic .other = .ok (.lm 0 0x9000, 0xFE000000009000) ∧
     s.globalLoc 4 (s.src 5) 16 true true .atomic .other = .ok (.lm 0 0x9000, 0xFE000000009000) ∧
     (s.serveMe (.lm 0 0x9000) false true).poisonedAt (.lm 0 0x9000) 16 = false ∧
     (s.serveMe (.mem 0x20FF0 false 0 0) false true).poisonedAt (.mem 0x20FF0 false 0 0) 16 = false ∧
     natOfBytes (s.rdLoc (.mem 0x20FF0 false 0 0) 8) = uns s 8 ∧ natOfBytes (s.rdLoc (.mem 0x20FF0 false 0 0) 16) ≠ uns s 8 + uns s 9 * 2 ^ 64 ∧
     natOfBytes (s.rdLoc (.lm 0 0x9000) 16) = uns s 8 + uns s 9 * 2 ^ 64 ∧
     gives (exec (.atom 3 5 6 4 3 0 0) s) (fun t => t.cur.reply == some ⟨.now, [(3, 5)], false⟩ && t.here.lm.rd 0x9000 == 10) = true ∧
     gives (exec (.cas 8 5 6 4 3 0) s) (fun t => t.cur.reply == some ⟨.now, [(8, 5)], false⟩ && t.here.lm.rd 0x9000 == 5) = true ∧
     gives (exec (.cas 8 5 4 4 3 1) s) (fun t => t.here.lm.rdBytes 0x9000 9 == [0xF0, 0xF, 0, 0, 0, 0, 0, 0, 0x00]) = true) := by
  decide +kernel

/-- Poison beside the word: the premise on it holds of device memory too. -/
theorem test_met_atomics_clean : (home 15 []).memPoison = [] ∧ (home 15 []).here.lmPoison = [] := by decide +kernel

/-- No lanes; a row of 16 32-bit elements up to the end of c1, and a drain. -/
theorem test_met_QueueRows :
    (let s := home 15 []
     s.guard 0 = true ∧ s.here.vlen s.curSlot = 0) ∧
    (let s := home 15 [(4, 0xFC0)] fun s => s.modSlot 0 15 fun x => { x with groups := [0], allot := 8 }
     s.here.vlen s.curSlot = 16 ∧ (3 : Reg).toNat < 4 ∧ (1 : Reg).toNat < 2 ∧
     s.row 1 4 0 (lqSize 6) false = .ok ((List.range 16).map fun i => (.mem (0x20FC0 + 4 * i) false 0 0, 0x20FC0 + 4 * i)) ∧
     s.row 1 4 0 (sqSize 0) true = .ok ((List.range 16).map fun i => (.mem (0x20FC0 + 4 * i) false 0 0, 0x20FC0 + 4 * i)) ∧
     (s.cur.lq[3]?.getD []).length < 16 ∧ (s.cur.drains[1]?.getD []).length < 8 ∧
     gives (exec (.lq 3 4 0 1 0 6) s) (fun t => (t.cur.lq[3]?.getD []).length == 1) = true ∧
     gives (exec (.sq 1 4 0 1 0 0) s) (fun t => (t.cur.drains[1]?.getD []).length == 1) = true) ∧
    (let row : LqRow := .waiting 2 ([0x9000, 0x9010].map fun o => (.lm 0 o, o, false)) false 5
     let s := home 15 [] fun s => (s.modCore 0 fun c => { c with lm := Memory.wrBytes [] 0x9010 [0xFE, 0xFF] }).modSlot 0 15 fun x =>
       { x with lq := x.lq.setIfInBounds 3 [row] }
     (s.slot 0 15).lq[3]?.getD [] = row :: [] ∧ (s.core 0).path = [] ∧ s.stgs = [] ∧ (s.core 0).lmPoison = [] ∧ 5 ≤ s.cc ∧
     gives (exec (.loadQueueRowFill 0 15 3) s) (fun t => (t.slot 0 15).lq[3]?.getD [] == [.arrived [0, 0xFFFFFFFE]]) = true) := by
  decide +kernel

theorem test_met_Fences :
    (let s := home 15 []
     s.guard 0 = true ∧ StoresIn s ∧ s.cur.stgs = 0 ∧ s.cur.drainsQueued = 0 ∧ gives (exec (.fence 0 3) s) (fun t => t.cur.st == .ready) = true) ∧
    (let s := home 15 [] fun s => s.modSlot 0 15 fun x => { x with stgs := 1 }
     s.cur.drainsQueued = 0 ∧ (1#2).getLsbD 0 = true ∧ s.cur.stgs ≠ 0 ∧ gives (exec (.fence 0 1) s) (fun t => t.cur.st == .reply) = true) ∧
    (home 15 [] fun s => s.modSlot 0 15 fun x => { x with drains := x.drains.setIfInBounds 1 [⟨0, [], false, 5, 5⟩] }).cur.drainsQueued ≠ 0 := by
  decide +kernel

/-- The last line of c1, an empty range at its end, and a walk that ends. -/
theorem test_met_RangesAreWalked :
    (let s := home 15 [(4, 0xF80), (5, 0x80), (6, 0), (7, 0x1000)]
     let k := s.cap 1
     s.guard 0 = true ∧ StoresIn s ∧ k.r = true ∧ k.w = true ∧ k.q = false ∧ s.genCurrent s.cur k = true ∧ uns s 4 + uns s 5 ≤ k.limit ∧
     uns s 7 + uns s 6 ≤ k.limit ∧ k.base + 0xF80 + 0x80 ≤ 2 ^ 56 ∧ isWindow (k.base + 0xF80) = false ∧ isWindow (k.base + 0xF80 + 0x80 - 1) = false ∧
     isWindow (k.base + 0x1000) = false ∧ uns s 6 + 8 ≤ k.limit ∧ (k.base + uns s 6) % 8 = 0 ∧ isWindow k.base = false ∧
     (s.cluster s.cl).walker.length < 8 ∧ s.xlate (k.base + uns s 6) .write = .ok (.mem 0x20000 false 0 0) ∧
     s.physLines (rangeLines (k.base + 0xF80) 0x80) = .ok [0x41F] ∧ s.physLines (rangeLines (k.base + 0x1000) 0) = .ok [] ∧
     gives (exec (.rinv 6 4 5 1 0) s) (fun t => (t.cluster 0).walker == [⟨true, [0x41F], .mem 0x20000 false 0 0, 7, 5⟩]) = true) ∧
    (let r : WalkRange := ⟨true, [0x41F], .mem 0x20000 false 0 0, 7, 5⟩
     let s := home 15 [] fun s => { s with memEmpty := [0x4000], clusters := [(0, ⟨ports, [r], []⟩)] }
     (s.cluster 0).walker = r :: [] ∧ gives (exec (.cacheWalk 0) s) (fun t => t.full (.mem 0x20000 false 0 0) && (t.cluster 0).walker == []) = true) := by
  decide +kernel

theorem test_met_CapabilitiesNarrow :
    (let s := home 15 [(4, 0x800), (5, 0x800), (6, 0x1001)]
     let k : Cap := s.cap 1
     SlotOk s ∧ s.guard 0 = true ∧ k.any = true ∧ uns s 4 + uns s 5 ≤ k.limit ∧ k.limit < uns s 4 + uns s 6 ∧ k.base + uns s 4 < 2 ^ 56 ∧
     gives (exec (.cnar 6 4 5 1 0) s) (fun t => (let n : Cap := t.cur.c[1]; n.base == 0x20800 && n.limit == 0x800 && n.r && !n.w)) = true ∧
     gives (exec (.cnar 6 4 6 1 0) s) (fun t => t.lat.flow == .trapped clsSeg 0x800) = true) := by decide +kernel

/-- Entry 255 and index 256; c1 has O, c3 has not; CGIVE from entry 2 to entry 4. -/
theorem test_met_CapabilityTable :
    (let s := home 15 [(4, 255), (5, 256), (6, 4), (7, 1)]
     let k := s.cap 1
     s.guard 0 = true ∧ s.myLaunch = some launch ∧ uns s 4 < 256 ∧ 256 ≤ uns s 5 ∧ s.entryLoc 255 = .ok (.mem 0x71FE0 false 0 0) ∧
     s.entryLoc 4 = .ok (.mem 0x70080 false 0 0) ∧ (s.serveMe (.mem 0x71FE0 false 0 0) false false).poisonedAt (.mem 0x71FE0 false 0 0) 32 = false ∧ k.o = true ∧ (s.cap 3).o = false ∧
     s.genCurrent s.cur k = true ∧ 2 ≤ uns s 6 ∧ uns s 6 ≠ k.index ∧ s.entryLoc k.index = .ok (.mem 0x70040 false 0 0) ∧ StoresIn s ∧
     s.here.l1 = [] ∧ (s.launchById 7).isSome = true ∧
     gives (exec (.cst 6 3 0) s) (fun t => t.lat.flow == .trapped clsSeg 4) = true ∧
     gives (exec (.cst 7 1 0) s) (fun t => t.lat.flow == .trapped clsSeg 1) = true ∧
     gives (exec (.cst 6 1 0) s) (fun t => t.mem.rdBytes 0x70082 1 == [2] && (t.launchById 7).any (fun l => l.gen 4 == 1)) = true) := by
  decide +kernel

/-! ## Strands, messages, vectors -/

/-- A spawn from the highest general slot with a full join page behind it; the handler slot; an open packet. -/
theorem test_met_SpawnPushesTheParent :
    (let s := home 13 [(4, 0xFF8), (5, 0x100), (24, 9)]
     SlotOk s ∧ s.guard 0 = true ∧ s.cur.packet = none ∧ s.curSlot ≠ 14 ∧ s.cur.coupled = false ∧
     s.capDva 1 (s.src 4) 8 true true = .ok 0x20FF8 ∧ isWindow 0x20FF8 = false ∧ 0x20FF8 % 8 = 0 ∧
     s.xlate 0x20FF8 .atomic = .ok (.mem 0x20FF8 false 0 0) ∧ StoresIn s ∧ s.tenants = [] ∧ s.cur.inl = none ∧
     (s.serveMe (.mem 0x20FF8 false 0 0) true true).poisonedAt (.mem 0x20FF8 false 0 0) 8 = false ∧
     s.launchOf s.cur = some launch ∧ (launch.seat s.curCore).any (fun p => p.frames.length < s.cur.dqcap) = true ∧ uns s 5 % 8 = 0) ∧
    (home 14 []).curSlot = 14 ∧ (home 14 []).cur.packet = none ∧
    (home 13 [] fun s => s.modSlot 0 13 fun x => { x with packet := some ⟨0, 0, false, []⟩ }).cur.packet ≠ none := by decide +kernel

theorem test_met_AwaitWaitsForZero :
    (let s := home 13 [(4, 0xFF8)]
     SlotOk s ∧ s.guard 0 = true ∧ StoresIn s ∧ s.deviceDva 1 (s.src 4) true false = .ok 0x20FF8 ∧ s.cur.packet = none ∧
     s.xlate 0x20FF8 .read = .ok (.mem 0x20FF8 false 0 0) ∧ s.cur.seq = [] ∧
     (s.serveMe (.mem 0x20FF8 false 0 0) false false).poisonedAt (.mem 0x20FF8 false 0 0) 8 = false ∧ s.rdWord (.mem 0x20FF8 false 0 0) = 0 ∧ s.tenants = []) ∧
    (let s := home 13 [(4, 0xFF8)] fun s => { s with mem := Memory.wrBytes [] 0x20FF8 [1] }
     s.rdWord (.mem 0x20FF8 false 0 0) ≠ 0 ∧ s.curSlot ≠ 14) ∧
    (let s := home 14 [(4, 0xFF8)] fun s => { s with mem := Memory.wrBytes [] 0x20FF8 [1] }
     s.rdWord (.mem 0x20FF8 false 0 0) ≠ 0 ∧ s.curSlot = 14 ∧ s.deviceDva 1 (s.src 4) true false = .ok 0x20FF8) := by decide +kernel

/-- A strand that ends in each of the four ways, and one with a result to take. -/
theorem test_met_DoneEndsTheStrand :
    (let s := home 13 []
     SlotOk s ∧ s.guard 0 = true ∧ s.cur.packet = none ∧ s.cur.coupled = false ∧ s.here.owes s.curSlot false = false ∧
     s.here.owes s.curSlot true = false ∧ s.cur.matRes = [] ∧ s.cur.copyRes = [] ∧ s.cur.ticket = 0 ∧ s.cur.seq = [] ∧ StoresIn s ∧
     s.pairedOdd s.curCore s.curSlot = false ∧ s.cur.ret = .none ∧ s.cur.join = 0 ∧
     gives (exec (.done 0) s) (fun t => t.cur.st == .free && t.cur.launch == none) = true) ∧
    (home 14 []).curSlot = 14 ∧ (home 14 []).cur.ret ≠ .inline ∧ (home 14 []).cur.ticket = 0 ∧
    (let s := home 13 [] fun s => s.modSlot 0 13 fun x => { x with join := 0x20FF8 }
     s.cur.ret = .none ∧ s.cur.join ≠ 0 ∧ s.xlate s.cur.join .atomic = .ok (.mem 0x20FF8 false 0 0) ∧
     (s.serveMe (.mem 0x20FF8 false 0 0) true true).poisonedAt (.mem 0x20FF8 false 0 0) 8 = false) ∧
    (let p : Seat := ⟨0, 0, 0x9000, 0x20000, 0x28000, 0, 1, [2], 0x28800, 0, 0, 0, 0⟩
     let l := { launch with seats := [p] }
     let s := home 13 [] fun s => { s.modSlot 0 13 fun x => { x with ret := .deque, retpos := 0 } with launches := [l] }
     s.cur.ret = .deque ∧ s.cur.join = 0 ∧ s.launchOf s.cur = some l ∧ l.seat s.curCore = some p ∧ p.frames = [] ++ [2] ∧
     p.bottom - 1 = s.cur.retpos ∧ s.here.lmPoison = []) ∧
    (let s := home 13 [] fun s => s.modSlot 0 13 fun x => { x with copyRes := [0] }
     s.cur.packet = none ∧ s.cur.coupled = false ∧ s.cur.copyRes ≠ [] ∧
     gives (exec (.done 0) s) (fun t => t.lat.flow == .trapped clsEng 0xFFFF) = true) := by decide +kernel

/-- A migration to the own core, a target of no launch, a bad form, and the handler slot. -/
theorem test_met_MigrateSendsAnArrivalRecord :
    (let s := home 13 [(4, 0x01FE000000000000), (5, 0x01FE000040000000), (6, 0x01FE000000000001)]
     let dva := uns s 4 % 2 ^ 56
     SlotOk s ∧ s.guard 0 = true ∧ s.cur.coupled = false ∧ s.curSlot ≠ 14 ∧ s.cur.packet = none ∧ uns s 4 / 2 ^ 48 % 256 = 0xFE ∧
     uns s 4 % 2 ^ 30 = 0 ∧ s.windowForm dva = true ∧ s.holdsLaunch s.cur dva = true ∧ s.engineBusy s.curCore s.curSlot = false ∧
     s.cur.seq = [] ∧ StoresIn s ∧ s.pairedOdd s.curCore s.curSlot = false ∧ s.launchOf s.cur = some launch ∧ winDev dva = s.device ∧
     s.tenants = [] ∧ s.holdsLaunch s.cur (uns s 5 % 2 ^ 56) = false ∧ uns s 6 % 2 ^ 30 ≠ 0 ∧
     gives (exec (.migrate 5 0) s) (fun t => t.lat.flow == .trapped clsPkt 3) = true ∧
     gives (exec (.migrate 4 0) s) (fun t => t.cur.st == .parked && t.records.length == 1) = true) ∧ (home 14 []).curSlot = 14 := by
  decide +kernel

/-- A record with room for it, a record taken, a frame stolen. -/
theorem test_met_WorkMoves :
    (let r : ArrivalRecord := ⟨4, 0, some 13, 0, 0, 7, List.replicate 96 0, false⟩
     let s := home 13 [] fun s => { s with records := [r] }
     s.records = [r] ∧ r.dev = s.device ∧ s.launchById r.launch = some launch ∧ (launch.seat r.dest).isSome = true ∧
     ((s.core r.dest).arrivalPlaces 7).length < launch.arrDepth ∧ r.bytes.length = 96 ∧ r.poison = false ∧ launch.closing = false ∧ (s.slot 0 13).ticket = 0 ∧
     gives (exec (.arrivalRecordAccept 0) s) (fun t => t.records == [] && t.here.arrivals == [⟨7, false, 0⟩] && t.cur.st == .free) = true) ∧
    (let s := home 0 [] fun s => s.modCore 0 fun c => { c with arrivals := [⟨7, false, 1⟩] }
     (s.slot 0 13).st = .free ∧ (s.slot 0 13).ownWork = false ∧ (s.slot 0 13).coupled = false ∧ (s.core 0).arrivals = ⟨7, false, 1⟩ :: [] ∧
     s.launchById 7 = some launch ∧ (launch.seat 0).isSome = true ∧ (s.core 0).lmPoison = []) ∧
    (let p : Seat := ⟨0, 0, 0x9000, 0x20000, 0x28000, 0, 1, [2], 0x28800, 0, 0, 0, 0⟩
     let s := home 0 [] fun s => { s with launches := [{ launch with seats := [p] }] }
     (s.slot 0 13).st = .free ∧ (s.slot 0 13).ownWork = false ∧ (s.core 0).arrivals = [] ∧ s.launches = [{ launch with seats := [p] }] ∧
     p.frames = 2 :: []) := by decide +kernel

/-- The last even slot and an odd one; a gang that ends. Slots 12 and 13 hold adjacent Almanac entries. -/
theorem test_met_GangsFormAndSplit :
    (let s := home 12 [] fun s => s.modSlot 0 12 fun x => { x with groups := [0], allot := 8 }
     let t := s.here.alm.toList
     SlotOk s ∧ s.guard 0 = true ∧ s.cur.coupled = false ∧ s.curSlot < 14 ∧ s.curSlot % 2 = 0 ∧ (s.slot 0 13).st = .free ∧ s.cur.seq = [] ∧
     s.belongs 0 13 7 = true ∧ s.cur.groups.length ≤ ((List.range 16).filter fun n => s.groupFree 0 13 s.cur.allot n).length ∧
     issueEntries t 12 = [12] ∧ issueEntries t 13 = [13] ∧ s.cur.gang = false ∧
     gives (exec (.gang 0) s) (fun u => (u.slot 0 13).st == .ganged) = true) ∧
    (home 13 []).curSlot % 2 = 1 ∧
    (let s := home 12 [] fun s => (s.modSlot 0 12 fun x => { x with gang := true }).modSlot 0 13 fun x => { x with st := .ganged }
     s.cur.gang = true ∧ s.cur.seq = [] ∧ s.curSlot % 2 = 0 ∧ gives (exec (.ungang 0) s) (fun u => (u.slot 0 13).st == .free) = true) := by
  decide +kernel

theorem test_met_Grants :
    (let s := home 12 [(4, 32), (5, 33)] fun s => s.modSlot 0 12 fun x => { x with groups := [0], allot := 8 }
     SlotOk s ∧ s.guard 0 = true ∧ s.cur.coupled = false ∧ s.cur.gang = false ∧ s.cur.seq = [] ∧ uns s 4 ≤ 32 ∧ 32 < uns s 5 ∧
     s.cur.allot < uns s 4 ∧ s.rowsFor (uns s 4) = true ∧
     gives (exec (.vallot 3 4 0) s) (fun t => t.cur.reg 3 == 32) = true ∧ gives (exec (.shrink 4 0) s) (fun t => t.cur.allot == 0) = true) ∧
    (let s := home 12 [(4, 32), (5, 33)] fun s => s.modSlot 0 12 fun x => { x with gang := true }
     s.cur.gang = true ∧ s.cur.seq = [] ∧ gives (exec (.claim 3 5 0) s) (fun t => t.lat.flow == .trapped clsAllot 33) = true ∧
     gives (exec (.shrink 5 0) s) (fun t => t.lat.flow == .trapped clsAllot 33) = true) ∧
    (let s := home 12 [(4, 32), (5, 33)] fun s => s.modSlot 0 12 fun x => { x with coupled := true, allot := 8 }
     s.cur.coupled = true ∧ s.cur.gang = false ∧ s.cur.seq = [] ∧ gives (exec (.shrink 4 0) s) (fun t => t.cur.allot == 0) = true) ∧
    (let s := home 12 [(5, 33)] fun s => s.modSlot 0 12 fun x => { x with seq := [.one ⟨.vsync 0, 0, 0, false, [], none, 5⟩] }
     gives (exec (.vallot 3 5 0) s) (fun t => t.cur.reply == some ⟨.seqEmpty, [], true⟩) = true) ∧
    (home 12 [] fun s => s.modSlot 0 12 fun x => { x with seq := [.one ⟨.vsync 0, 0, 0, false, [], none, 5⟩] }).cur.seq ≠ [] := by decide +kernel

/-- A packet opened, joined, ended, filled, and one that disagrees; the target is core 0 of the launch. -/
theorem test_met_PacketsAreBuiltAndSent :
    (let s := home 13 [(4, 0x01FE000000000000), (5, 8), (6, 1), (7, 0x01FE000040000000)]
     let dva := uns s 4 % 2 ^ 56
     SlotOk s ∧ s.guard 0 = true ∧ uns s 4 / 2 ^ 48 % 256 = 0xFE ∧ uns s 4 % 2 ^ 30 = 0 ∧ s.windowForm dva = true ∧ s.cur.packet = none ∧
     s.holdsLaunch s.cur dva = true ∧ s.holdsLaunch s.cur (uns s 7 % 2 ^ 56) = false ∧ uns s 6 % 2 ^ 30 ≠ 0 ∧ StoresIn s ∧ winDev dva = s.device ∧
     s.launchOf s.cur = some launch ∧
     gives (exec (.sende 4 5 0 3 1) s) (fun t => t.packets == [⟨0, 0, 0, 7, 3, true, [8], 0⟩]) = true) ∧
    (let p : OpenPacket := ⟨0x01FE000000000000, 3, true, List.replicate 7 1⟩
     let s := home 13 [(4, 0x01FE000000000000), (5, 8)] fun s => s.modSlot 0 13 fun x => { x with packet := some p }
     s.cur.packet = some p ∧ p.words.length < 8 ∧ p.target = s.src 4 ∧ p.ch = 3 ∧ p.handler = ((1 : BitVec 1) == 1) ∧ p.ch ≠ 2 ∧
     gives (exec (.send 4 5 0 3 1) s) (fun t => t.cur.packet.any (fun q => q.words.length == 8)) = true ∧
     gives (exec (.send 4 5 0 2 1) s) (fun t => t.lat.flow == .trapped clsPkt 2) = true ∧
     gives (exec (.sende 4 5 0 3 1) s) (fun t => t.packets.length == 1) = true) ∧
    (home 13 [] fun s => s.modSlot 0 13 fun x => { x with packet := some ⟨0, 0, false, List.replicate 8 1⟩ }).cur.packet =
      some ⟨0, 0, false, List.replicate 8 1⟩ := by decide +kernel

/-- POPM at its highest register, a wait, and the handler slot. -/
theorem test_met_PacketsAreTaken :
    (let p : Packet := ⟨0, 0, 0, 7, 0, false, [8, 9], 0⟩
     let s := home 13 [] fun s => s.modCore 0 fun c => { c with msgs := [p] }
     SlotOk s ∧ s.guard 0 = true ∧ s.cur.launch = some 7 ∧ s.here.msgs = p :: [] ∧ p.handler = false ∧ p.launch = 7 ∧
     1 ≤ (24 : Reg).toNat ∧ (24 : Reg).toNat ≤ 24 ∧
     gives (exec (.popm 24 0) s) (fun t => t.cur.reg 24 == 8 && t.cur.reg 25 == 9 && t.cur.reg 31 == 0 && t.here.msgs == []) = true) ∧
    (let s := home 13 []
     s.here.msgs = [] ∧ s.curSlot ≠ 14 ∧ s.cur.packet = none ∧ gives (exec (.popm 24 0) s) (fun t => t.here.msgWait == [13]) = true) ∧
    (home 14 []).here.msgs = [] ∧ (home 14 []).curSlot = 14 := by decide +kernel

/-- A packet delivered, a full queue, a packet behind another, a handler's packet; a woken context. -/
theorem test_met_MessagesAndWaking :
    (let p : Packet := ⟨0, 0, 0, 7, 0, true, [0x80, 5], 0⟩
     let s := home 13 [] fun s => { s with packets := [p, p] }
     s.packets = p :: ([] ++ [p]) ∧ p.samePath p = true ∧ s.launchById p.launch = some launch ∧ (s.core p.dest).msgs.length < 64 ∧
     (s.core p.dest).msgWait = [] ∧ gives (exec (.packetDelivery 0) s) (fun t => t.here.msgs == [p] && t.packets == [p]) = true ∧
     gives (exec (.packetDelivery 1) s) (fun t => t.packets.length == 2) = true) ∧
    64 ≤ ((home 13 [] fun s => s.modCore 0 fun c => { c with msgs := List.replicate 64 ⟨0, 0, 0, 7, 0, true, [0x80, 5], 0⟩ }).core 0).msgs.length ∧
    (let p : Packet := ⟨0, 0, 0, 7, 0, true, [0x80, 5], 0⟩
     let s := home 13 [] fun s => s.modCore 0 fun c => { c with msgs := [p] }
     (s.slot 0 14).st = .free ∧ (s.slot 0 14).coupled = false ∧ (s.core 0).msgs = p :: [] ∧ p.handler = true ∧ s.launchById p.launch = some launch ∧
     gives (exec (.handlerStart 0) s) (fun t => t.here.msgs == [] && (t.slot 0 14).pc == 0x80 && (t.slot 0 14).reg 3 == 5 && (t.slot 0 14).reg 10 == 2) = true) ∧
    (let s := home 13 [] fun s => { s.modSlot 0 13 fun x => { x with st := .faulted, faultTag := 9, wakes := [9], wakeCc := 15 } with cc := 16 }
     (s.slot 0 13).st = .faulted ∧ (s.slot 0 13).faultTag ≠ 0 ∧ (s.slot 0 13).faultTag ∈ (s.slot 0 13).wakes ∧
     ((s.slot 0 13).wakeCc / 16 + 1) * 16 ≤ s.cc ∧ (s.slot 0 13).mmaFault = false ∧ (s.slot 0 13).seqReply = false ∧
     (s.slot 0 13).lentTag = 0 ∧ (s.core 0).lmPoison = [] ∧ gives (exec (.wokenContextRestore 0 13) s) (fun t => (t.slot 0 13).st == .ready) = true) := by decide +kernel

/-! ## The vector pool and the engines -/

/-- Handed alone, as the entry before the last of an open run, and as the last; a run opened with the greatest count, and one too
great. -/
theorem test_met_VectorsAreHanded :
    (let s := home 13 [(4, 0xFFFFFFFF), (5, 0x100000000)]
     s.guard 0 = true ∧ runOpen s.cur.seq = false ∧ dropEmptyRun s.cur.seq = s.cur.seq ∧ uns s 4 < 2 ^ 32 ∧ 2 ^ 32 ≤ uns s 5 ∧
     gives (exec (.vextr (v 1 2 4 0 0 0 0)) s) (fun t => t.cur.seq.length == 1 && t.cur.st == .reply) = true ∧
     gives (exec (.vloop 4 1 0) s) (fun t => t.cur.seq == [.run 2 0xFFFFFFFF 0 0 []]) = true ∧
     gives (exec (.vsync 0) s) (fun t => t.cur.st == .reply && t.cur.seqReply) = true) ∧
    (let e : SeqEntry := ⟨.vidx (v 1 2 0 0 0 0 0), 0, 0, false, [], none, 5⟩
     let s := home 13 [] fun s => s.modSlot 0 13 fun x => { x with seq := [.run 3 7 0 0 [e]] }
     s.cur.seq = [] ++ [.run 3 7 0 0 [e]] ∧ [e].length < 3 ∧ [e].length + 1 < 3 ∧ dropEmptyRun [] = [] ∧ runOpen s.cur.seq = true) ∧
    (let s := home 13 [] fun s => s.modSlot 0 13 fun x => { x with seq := [.run 1 0 0 0 []] }
     s.cur.seq = [] ++ [.run 1 0 0 0 []] ∧ gives (exec (.vadd (v 1 2 3 0 0 0 0)) s) (fun t => t.cur.seq == []) = true) := by decide +kernel

/-- Slot 12 with two groups of lanes, v1 of ones and v2 of negative numbers, and this entry first in its sequencer. -/
def lanes (op : Instr) (x y : Word) (f : Slot → Slot := id) : State :=
  home 12 [] fun s => s.modSlot 0 12 fun s => f { s with
    groups := [0, 3], allot := 8, seq := [.one ⟨op, x, y, false, [], none, 5⟩]
    vrf := [(1, List.replicate 16 1), (2, List.replicate 16 0xFFFFFFFE), (97, List.replicate 16 1), (98, List.replicate 16 0x80000000)] }

theorem test_met_LaneOperations :
    (let s := lanes (.vsub (v 3 1 2 0 0 0 0)) 0 0
     (lanewiseOf (.vsub (v 3 1 2 0 0 0 0))).isSome = true ∧ (v 3 1 2 0 0 0 0).t.ult 6#3 = true ∧ (s.slot 0 12).st ≠ .saved ∧
     (s.slot 0 12).gang = false ∧ (s.slot 0 12).svGroups = [] ∧ (s.slot 0 12).groups.Nodup ∧ (s.slot 0 12).groups ≠ [] ∧
     (s.slot 0 12).seq = .one ⟨.vsub (v 3 1 2 0 0 0 0), 0, 0, false, [], none, 5⟩ :: [] ∧
     (s.core 0).tableWaiter = none ∧ (s.slot 0 12).regPoison = [] ∧
     gives (exec (.sequencerEntryRun 0 12) s) (fun t => (t.core 0).vreg 12 3 == List.replicate 16 3 ++ List.replicate 16 0x80000001 &&
       (t.slot 0 12).seq == []) = true) := by decide +kernel

theorem test_met_GeneratedLanes :
    gives (exec (.sequencerEntryRun 0 12) (lanes (.vidx (v 3 1 0 0 0 0 0)) 0xFFFFFFFF 0)) (fun t =>
      ((t.core 0).vreg 12 3).take 2 == [0xFFFFFFFF, 0]) = true ∧
    gives (exec (.sequencerEntryRun 0 12) (lanes (.vbcast (v 3 1 0 0 0 0 0)) 0x500000007 0)) (fun t =>
      ((t.core 0).vreg 12 3).getD 31 0 == 7) = true ∧
    (let f (x : Slot) : Slot := { x with st := .reply, seqReply := true }
     let s := lanes (.vred 0 (v 3 2 0 0 0 0 0)) 0 0 f
     (s.slot 0 12).st = .reply ∧ (s.slot 0 12).reply = none ∧ (s.slot 0 12).coupled = false ∧
     gives (exec (.sequencerEntryRun 0 12) s) (fun t => (t.slot 0 12).reg 3 == 0xFFFFFFF7FFFFFFE0 && (t.slot 0 12).st == .ready) = true ∧
     gives (exec (.sequencerEntryRun 0 12) (lanes (.vextr (v 3 2 0 0 0 0 0)) 0 31 f)) (fun t => (t.slot 0 12).reg 3 == 0xFFFFFFFF80000000) = true ∧
     gives (exec (.sequencerEntryRun 0 12) (lanes (.vextr (v 3 2 0 0 0 0 0)) 0 32 f)) (fun t => (t.slot 0 12).reg 3 == 0) = true) := by
  decide +kernel

/-- A living and a dead request. -/
theorem test_met_SpecialFunctions :
    (let r : SfuReq := ⟨0, 12, v 3 2 2 0 0 0 2, List.replicate 32 0x40000000, false⟩
     let s := { lanes (.vsfu (v 3 2 2 0 0 0 2)) 0 0 with clusters := [(0, ⟨ports, [], [r, { r with dead := true }]⟩)] }
     (s.cluster (clusterOf r.core)).sfu = r :: [{ r with dead := true }] ∧ r.dead = false ∧ (s.slot 0 12).gang = false ∧
     (s.slot 0 12).svGroups = [] ∧ (s.slot 0 12).groups.Nodup ∧ r.d.qd = 0 ∧ r.xs.length = (s.core 0).vlen 12) ∧
    (let r : SfuReq := ⟨0, 12, v 3 2 2 0 0 0 2, List.replicate 32 0x40000000, true⟩
     let s := { lanes (.vsfu (v 3 2 2 0 0 0 2)) 0 0 with clusters := [(0, ⟨ports, [], [r]⟩)] }
     (s.cluster (clusterOf r.core)).sfu = r :: [] ∧ r.dead = true ∧
     gives (exec (.sfuRequestServe 0) s) (fun t => (t.cluster 0).sfu == []) = true) := by decide +kernel

/-- A state whose local memory holds a command block of these words at 0x9000. -/
def block (ws : List Nat) (regs : List (Nat × Word)) : State :=
  home 13 regs fun s => s.modCore 0 fun c => { c with lm := Memory.wrBytes [] 0x9000 (bytesOfWords ws) }

/-- The offsets that trap, a matrix block and a copy block of the least fields, and of the greatest rows. -/
theorem test_met_CommandsEnterTheirQueue :
    (let ws := [0 + 7 * 8 + 3 * 64 + 256 + 2 ^ 24 * 2 ^ 32, 0, 0, 0, 0, 0, 0, 3 + 0xABCD * 2 ^ 32]
     let s := block ws [(4, 0x9000), (5, 0x80000), (6, 0x9020), (7, 0x8FC0), (8, 0x29000)]
     SlotOk s ∧ s.guard 0 = true ∧ 0x7FFFF < uns s 5 ∧ s.lmend s.curCore s.cur ≤ uns s 8 ∧ uns s 6 % 64 ≠ 0 ∧ uns s 6 < s.lmend s.curCore s.cur ∧
     uns s 7 % 64 = 0 ∧ uns s 7 < 0x9000 ∧ s.place s.cur.launch s.curCore 0x9000 = some 0x9000 ∧ s.poisonedAt (.lm s.curCore 0x9000) 64 = false ∧
     StoresIn s ∧ s.cur.coupled = false ∧ s.here.lm.rdBytes 0x9000 64 = bytesOfWords ws ∧ s.cur.matQ.length < 2 ∧
     gives (exec (.epushMat 5 0) s) (fun t => t.lat.flow == .trapped clsSeg 0x80000) = true ∧
     gives (exec (.epushMat 6 0) s) (fun t => t.lat.flow == .trapped clsAln 0x9020) = true ∧
     gives (exec (.epushCopy 7 0) s) (fun t => t.lat.flow == .trapped clsSys 0x8FC0) = true ∧
     gives (exec (.epushMat 4 0) s) (fun t => t.cur.matQ == [⟨7, 5, 2 ^ 24, true, 3, 0, 7, false, 0, [], [], false, ⟨3, 0xABCD, 0, 0, 0, false, none, 0, 0⟩⟩]) = true) ∧
    (let ws := [0x9000, 0x28F00, 256 + 1 * 2 ^ 32 + 2 ^ 56 + 2 ^ 60, 0, 0, 0, 0, 0]
     let s := block ws [(4, 0x9000)]
     s.lmend s.curCore s.cur ≤ 0x80000 ∧ 0x9000 + 0 * 0 + 256 ≤ s.lmend s.curCore s.cur ∧ 0x28F00 + 0 * 0 + 256 ≤ s.lmend s.curCore s.cur ∧
     s.here.lm.rdBytes 0x9000 64 = bytesOfWords ws ∧ s.cur.copyQ.length < 2 ∧
     gives (exec (.epushCopy 4 0) s) (fun t => t.here.copyOrd == [13] && t.cur.copyQ.length == 1) = true) := by decide +kernel

/-- A result of each engine, none of either, an MMA of the least K over rings that hold tiles, one of no rings, and a ring set. -/
theorem test_met_ResultsAndRings :
    (let s := home 13 [(4, 32), (5, 48)] fun s => (s.modSlot 0 13 fun x => { x with matRes := [5], copyRes := [6] }).modCore 0 fun c =>
       { c with rings := (c.rings.set 0 0x00001000000000000000000000609000#128).set 7 0x00001000000000000000000000609000#128 }
     SlotOk s ∧ s.guard 0 = true ∧ s.cur.matRes = 5 :: [] ∧ s.cur.copyRes = 6 :: [] ∧ s.cur.since = none ∧ uns s 4 % 32 = 0 ∧ 32 ≤ uns s 4 ∧
     uns s 5 % 32 ≠ 0 ∧ holdsTile (s.here.ring 0) 32 = true ∧ holdsTile (s.here.ring 7) 64 = true ∧ s.curSlot ≠ 14 ∧ s.cur.packet = none ∧
     s.cur.coupled = false ∧ s.cur.matQ.length < 2 ∧
     gives (exec (.epop 3 0 1) s) (fun t => t.cur.reg 3 == 6 && t.cur.copyRes == []) = true ∧
     gives (exec (.mma 3 4 0 7 0 1) s) (fun t => t.cur.st == .parked && t.cur.matQ.length == 1) = true ∧
     gives (exec (.mma 3 5 0 7 0 1) s) (fun t => t.lat.flow == .trapped clsEng 0xFFFF) = true) ∧
    (let s := home 13 [(4, 0x89000), (5, 0x1000), (6, 0x109000)]
     s.cur.copyRes = [] ∧ s.here.owes s.curSlot true = false ∧ s.cur.matRes = [] ∧ s.here.owes s.curSlot false = false ∧
     gives (exec (.epop 3 0 0) s) (fun t => t.lat.flow == .trapped clsEng 0xFFFE) = true ∧ uns s 4 / 2 ^ 20 % 2 ^ 12 = 0 ∧ uns s 4 % 2 ^ 19 = 0x9000 ∧ uns s 5 = 2 ^ 12 ∧
     0x9000 + uns s 5 ≤ s.lmend s.curCore s.cur ∧ s.here.ringIdle 7 = true ∧ uns s 6 / 2 ^ 20 % 2 ^ 12 ≠ 0 ∧
     gives (exec (.epop 3 0 1) s) (fun t => t.lat.flow == .trapped clsEng 0xFFFE) = true ∧
     gives (exec (.ringset 7 6 5 0 3) s) (fun t => t.lat.flow == .trapped clsSeg 0x109000) = true ∧
     gives (exec (.ringset 7 4 5 0 3) s) (fun t => ringHeld (t.here.ring 7) == 0 && ringSize (t.here.ring 7) == 4096) = true) := by decide +kernel

/-- Slot 5 parked in a matrix operation over the rings 0 and 7 of bf16 at its step turn. -/
def stepState (m : MatOp) : State :=
  { home 5 [] fun s => (s.modSlot 0 5 fun x => { x with matQ := [m], st := .parked, park := some .mma }).modCore 0 fun c =>
      { c with rings := (c.rings.set 0 0x00001000000000000000000000609000#128).set 7 0x0000100000000000000000000060A000#128 } with cc := 21 }

/-- The premises on its step. -/
def stepOk (m : MatOp) : Bool :=
  let s := stepState m
  decide (m.next < m.k ∧ 5 = almStep ((s.core 0).entry s.cc) ∧ (s.slot 0 5).matQ = m :: [] ∧ s.mayStep 0 5 m = true ∧ m.acc < 4) &&
  decide (m.ringA < 8 ∧ m.ringB < 8 ∧ m.ringA ≠ m.ringB ∧ s.launchById m.launch = some launch ∧ (s.core 0).lmPoison = []) &&
  decide ((s.core 0).acc = [] ∧ ringFmt ((s.core 0).ring 0) = 0 ∧ ringFmt ((s.core 0).ring 7) = 0 ∧ (s.slot 0 5).st = .parked) &&
  decide ((s.slot 0 5).park = some .mma ∧ (s.slot 0 5).seqReply = false) &&
  s.ringBytes 0 m.launch ((s.core 0).ring 0) (64 * (m.next % 32)) 64 == some (List.replicate 64 0) &&
  s.ringBytes 0 m.launch ((s.core 0).ring 7) (128 * (m.next % 32)) 128 == some (List.replicate 128 0)

/-- The last row of the last tile of an operation, synchronous and not; a first row, and the last row of a first tile. -/
theorem test_met_RankOneStep :
    stepOk ⟨7, 4, 32, true, 3, 0, 7, true, 31, [], [], false, ⟨3, 0, 0, 0, 0, false, none, 0, 0⟩⟩ = true ∧
    stepOk ⟨7, 4, 32, true, 3, 0, 7, false, 31, [], [], false, ⟨0, 9, 0, 0, 0, false, none, 0, 0⟩⟩ = true ∧
    stepOk ⟨7, 4, 64, true, 0, 0, 7, true, 0, [], [], false, ⟨3, 0, 0, 0, 0, false, none, 0, 0⟩⟩ = true ∧
    stepOk ⟨7, 4, 64, false, 0, 0, 7, true, 31, [], [], false, ⟨3, 0, 0, 0, 0, false, none, 0, 0⟩⟩ = true := by decide +kernel

/-- To the last 8 KiB of the partition, and to a store queue of a slot with all 256 lanes. -/
theorem test_met_AccumulatorsAreExtracted :
    (let s := home 13 [(4, 0x27000)] fun s => s.modSlot 0 13 fun x => { x with groups := List.range 16, allot := 2 }
     SlotOk s ∧ s.guard 0 = true ∧ StoresIn s ∧ s.here.accBusy 3 (s.cur.since.getD s.cc) = false ∧ uns s 4 + 8192 ≤ s.lmend s.curCore s.cur ∧
     uns s 4 % 4 = 0 ∧ 0x9000 ≤ uns s 4 ∧ s.place s.cur.launch s.curCore (uns s 4) = some 0x27000 ∧ s.here.vlen s.curSlot = 256 ∧
     s.cur.sqRows[1]?.getD [] = []) := by decide +kernel

/-- The oldest copy of a core: its first 8 bytes to its last; ended commands of each kind. -/
theorem test_met_CopiesRunAndAnswer :
    (let m : CopyCmd := ⟨7, 1, 0x9000, 1, 0x28FF8, 1, 8, 0, 0, 0, 0, 0, false, ⟨0, 9, 0, 0, 0, false, none, 0, 0⟩⟩
     let p : Seat := ⟨0, 0, 0x9000, 0x20000, 0x28000, 0, 0, [], 0x28800, 0, 0, 0, 0⟩
     let s := home 13 [] fun s => (s.modSlot 0 13 fun x => { x with copyQ := [m] }).modCore 0 fun c =>
       { c with copyOrd := [13], lm := Memory.wrBytes [] 0x9000 [1, 2, 3] }
     (s.core 0).copyRun = none ∧ (s.core 0).copyOrd = [13] ∧ (s.slot 0 13).copyQ = m :: [] ∧ s.mayStart 0 13 m = true ∧
     s.launchById m.launch = some launch ∧ launch.seat 0 = some p ∧ p.pbase % 8 = 0 ∧ m.dst + 8 * 1 ≤ 0x9000 + p.lmsize ∧ m.src + 8 ≤ m.dst ∧
     (s.core 0).lmPoison = [] ∧
     gives (exec (.copyCommandStart 0) s) (fun t => (t.core 0).lm.rdBytes 0x28FF8 4 == [1, 2, 3, 0] && (t.core 0).copyOrd == []) = true) ∧
    (let e (k : Nat) (c : Bool) : EndedCmd := ⟨13, 7, c, 5, ⟨k, 9, 0x80, 0xFE000000000000, 2, true, some (.lm 0 0x9000), 0, 0⟩⟩
     let s (k : Nat) (c : Bool) : State := home 13 [] fun s => s.modCore 0 fun x => { x with ended := [e k c] }
     ((s 0 false).core 0).ended = e 0 false :: [] ∧ winDev ((e 1 true).comp.target.toNat % 2 ^ 56) = 0 ∧
     gives (exec (.commandCompletion 0) (s 0 true)) (fun t => t.cur.copyRes == [0x900000005]) = true ∧
     gives (exec (.commandCompletion 0) (s 0 false)) (fun t => t.cur.matRes == [0x900000005]) = true ∧
     gives (exec (.commandCompletion 0) (s 1 true)) (fun t => t.packets == [⟨0, 0, 0, 7, 2, true, [0x80, 0x900000005], 0⟩]) = true ∧
     gives (exec (.commandCompletion 0) (s 2 true)) (fun t => (t.core 0).lm.rdBytes 0x9000 5 == [5, 0, 0, 0, 9] && t.full (.lm 0 0x9000)) = true ∧
     gives (exec (.commandCompletion 0) (s 3 true)) (fun t => t.here.ended == [] && t.packets == []) = true) := by decide +kernel

/-- The first of two receivers, and the only one of a piece behind another core's and before its own next. -/
theorem test_met_ReceiversTakeTheirPieces :
    (let p : Piece := ⟨0, [0, 1], 7, 1, 0x9000, [1, 2, 3], false⟩
     let s := home 13 [] fun s => { s with pieces := [p] }
     s.pieces = [p] ∧ 0 ∈ p.receivers ∧ p.receivers.Nodup ∧ s.place (some p.launch) 0 p.off = some 0x9000 ∧ (s.core p.sender).copyRun = none ∧
     p.receivers ≠ [0] ∧ gives (exec (.multicastPieceDrain 0) s) (fun t => (t.core 0).lm.rdBytes 0x9000 3 == [1, 2, 3] &&
       t.pieces == [{ p with receivers := [1] }]) = true) ∧
    (let p (rs : List Nat) : Piece := ⟨0, rs, 7, 1, 0x9000, [1, 2, 3], false⟩
     let s := home 13 [] fun s => { s with pieces := [p [1], p [0], p [0]] }
     s.pieces = [p [1]] ++ p [0] :: [p [0]] ∧ 0 ∉ (p [1]).receivers ∧
     gives (exec (.multicastPieceDrain 0) s) (fun t => t.pieces == [p [1], p [0]]) = true) := by decide +kernel

/-! ## Search trees -/

/-- The lines of pages 0x20 and 0x30 in the LLC. -/
def warm : Sparse LlcLine :=
  ((List.range 34).map (0x400 + ·) ++ (List.range 34).map (0x600 + ·)).foldl (fun m k => m.put k ⟨false, 0, 0, ⟨false, 0, 0⟩⟩) []

theorem resident_of {s : State} {pa n : Nat} (hp : pa % 128 = 0)
    (h : ((List.range (n / 128 + 1)).all fun k => (s.hier.llc.look (pa / 128 + k)).isSome) = true) (hf : s.hier.failed = []) :
    Resident s pa n := by
  refine ⟨hf, fun b h1 h2 => ?_⟩
  have := List.all_eq_true.mp h (b / 128 - pa / 128) (List.mem_range.mpr (by omega))
  rwa [Nat.add_sub_cancel' (by omega)] at this

/-- Slot 13 with these words in device memory, a walk record at 0x2_0000 named by TICKET, and a node at 0x3_0000 in the tree page. -/
def tree (ws : List (Nat × Nat)) (regs : List (Nat × Word)) (f : State → State := id) : State :=
  home 13 regs fun s => f { s.modSlot 0 13 fun x => { x with ticket := 0x20000 } with
    mem := ws.foldl (fun m w => Memory.wrBytes m w.1 (bytesOfNat 8 w.2)) []
    hier := { s.hier with llc := warm }
    formulas := [(48, bytesOfNat 4 1 ++ List.replicate 20 0 ++ [5] ++ List.replicate 71 0)] }

/-- The reference of that node in generation 9. -/
def node : Word := BitVec.ofNat 64 (0x30000 / 128 * 2 ^ 15 + 9)

/-- Word 0 of its header: children, state. -/
def header (n st : Nat) : Nat × Nat := (0x30000, 0x5E + st * 2 ^ 8 + 9 * 2 ^ 16 + n * 2 ^ 32)

/-- STATE of the record: open or closed, depth. -/
def record (depth : Nat) (o : Bool) : Nat × Nat := (0x20008, depth + if o then 256 else 0)

/-- Two edges in flight 1 and 2 scored by F (formula slot 0): edge 1 is taken, at the last depth too. -/
theorem test_met_DescentsMarkTheirPath :
    (let s := tree [header 2 2, record 63 true, (0x30088, 1 * 2 ^ 32), (0x300A8, 2 * 2 ^ 32), (0x300A0, 0x77)] [(6, node)]
     let rc : Loc := .mem 0x20000 false 0 0
     let l : Loc := .mem 0x30000 true 0 0
     SlotOk s ∧ s.guard 0 = true ∧ RowsIn s ∧ s.memPoison = [] ∧ s.cur.ticket ≠ 0 ∧ s.recordAt s.cur.ticket.toNat = .ok ⟨rc, rc⟩ ∧
     s.nodeLoc (s.src 6) = .ok (some l) ∧ s.walkOpen ⟨rc, rc⟩ = true ∧ s.walkDepth ⟨rc, rc⟩ ≠ 64 ∧ s.nodeCheck (s.src 6) (some l) = none ∧
     s.ndState l = 2 ∧ 0x30000 + 128 + 32 * s.ndChildren l ≤ 0x30FFF ∧ 0x20000 + 1152 ≤ 0x30000 ∧
     s.formula 3 0 = some (bytesOfNat 4 1 ++ List.replicate 20 0 ++ [5] ++ List.replicate 71 0) ∧
     s.bestEdge l (bytesOfNat 4 1 ++ List.replicate 20 0 ++ [5] ++ List.replicate 71 0) = some 1 ∧
     gives (exec (.tdesc 4 6 0 0) s) (fun t => t.cur.reply == some ⟨.now, [(4, 0x77), (5, 0x400100)], false⟩ && t.walkDepth ⟨rc, rc⟩ == 64 &&
       t.edFlight l 1 == 3 && t.ndFtot l == 1) = true) := by decide +kernel

/-- The lines that the statements on trees want in the LLC are there. -/
theorem test_met_resident : Resident (tree [] []) 0x20000 1152 ∧ Resident (tree [] []) 0x30000 4096 ∧ NoWaiters (tree [] []) :=
  ⟨resident_of rfl (by decide +kernel) rfl, resident_of rfl (by decide +kernel) rfl, noWaiters_of (by decide +kernel) (by decide +kernel)⟩

/-- No ticket, a closed walk, a full one, and nodes of the other states. -/
theorem test_met_descents_refused :
    let rc : Loc := .mem 0x20000 false 0 0
    let l : Loc := .mem 0x30000 true 0 0
    (home 13 []).cur.ticket = 0 ∧ (tree [record 0 false] []).walkOpen ⟨rc, rc⟩ = false ∧
    (tree [record 64 true] []).walkDepth ⟨rc, rc⟩ = 64 ∧ (tree [header 0 0] []).ndState l = 0 ∧
    (tree [header 0 0] []).nodeCheck node (some l) = none ∧ (tree [header 2 1] []).ndState l = 1 ∧
    (tree [header 0 3] []).nodeCheck node (some l) = none ∧ (tree [header 0 3] []).ndState l = 3 ∧
    gives (exec (.tdesc 4 6 0 0) (tree [header 0 3, record 0 true] [(6, node)])) (fun t =>
      t.cur.reply == some ⟨.now, [(4, 0), (5, 3)], false⟩) = true ∧
    gives (exec (.tdesc 4 6 0 0) (tree [header 2 2, record 64 true] [(6, node)])) (fun t =>
      t.cur.reply == some ⟨.now, [(4, 0), (5, 7)], false⟩) = true := by decide +kernel

/-- TEXP of an unexpanded node by an idle walk, by one that expands, and of nodes in the other states. -/
theorem test_met_NodesAreExpanded :
    let rc : Loc := .mem 0x20000 false 0 0
    let l : Loc := .mem 0x30000 true 0 0
    let s := tree [header 0 0, record 1 true] [(6, node)]
    s.nodeLoc (s.src 6) = .ok (some l) ∧ s.nodeCheck (s.src 6) (some l) = none ∧ s.recordAt s.cur.ticket.toNat = .ok ⟨rc, rc⟩ ∧
    s.walkOpen ⟨rc, rc⟩ = true ∧ s.rdWord (rc.plus 16) = 0 ∧ s.expandedBy l s.cur.ticket = false ∧ StoresIn s ∧
    (tree [header 0 0, record 1 true, (0x20010, 1)] []).rdWord (rc.plus 16) ≠ 0 ∧ (tree [header 0 1] []).ndState l = 1 ∧
    gives (exec (.texp 4 6 0) s) (fun t => t.cur.reply == some ⟨.now, [(4, 0)], false⟩ && t.ndState l == 1 && !t.full (hdrAt l 4) &&
      t.rdWord (rc.plus 16) == node) = true ∧
    gives (exec (.texp 4 6 0) (tree [header 2 2, record 1 true] [(6, node)])) (fun t => t.cur.reply == some ⟨.now, [(4, 2)], false⟩) = true := by
  decide +kernel

/-- TFILL and TSEAL by the walk that expands the node, with the greatest child count and with none. -/
theorem test_met_NodesAreFilled :
    let rc : Loc := .mem 0x20000 false 0 0
    let l : Loc := .mem 0x30000 true 0 0
    let s := tree [header 0 1, record 1 true, (0x30020, 0x20000), (0x20010, node.toNat)] [(6, node), (7, 0x28FE0 - 0xF80)] fun s =>
      { s.modCore 0 fun c => { c with lm := Memory.wrBytes [] (0x28FE0 - 0xF80) [124] } with memEmpty := [0x30020 / 8] }
    s.nodeCheck (s.src 6) (some l) = none ∧ s.expandedBy l s.cur.ticket = true ∧ s.here.lmPoison = [] ∧ uns s 7 % 32 = 0 ∧ 0x9000 ≤ uns s 7 ∧
    uns s 7 + 32 + 32 * 124 ≤ s.lmend s.curCore s.cur ∧ s.place s.cur.launch s.curCore (uns s 7) = some (uns s 7) ∧
    0x30000 % 4096 + 128 + 32 * 124 ≤ 4096 ∧ fld (s.rdWord (.lm s.curCore (uns s 7))) 0 7 = 124 ∧ StoresIn s ∧
    gives (exec (.tseal 4 6 0) s) (fun t => t.ndState l == 3 && t.rdWord (hdrAt l 4) == 3 && t.full (hdrAt l 4) && t.rdWord (rc.plus 16) == 0) = true := by
  decide +kernel

/-- TREC of a free and of a pinned node. -/
theorem test_met_NodesAreRecycled :
    let l : Loc := .mem 0x30000 true 0 0
    (tree [header 2 2] []).nodeCheck node (some l) = none ∧ (tree [header 2 2] []).ndPin l = false ∧
    ((List.range 2).all fun e => (tree [header 2 2] []).edFlight l e == 0) = true ∧
    (tree [(0x30000, (header 2 2).2 + 2048)] []).ndPin l = true ∧ (tree [header 2 2, (0x30010, 2 ^ 32)] []).ndFtot l = 1 ∧
    gives (exec (.trec 4 6 0) (tree [header 2 2] [(6, node)])) (fun t => t.ndState l == 4 && t.ndGen l == 10 &&
      t.cur.reply == some ⟨.now, [(4, 0)], false⟩) = true := by decide +kernel

/-- TBACK and TABORT of an open walk of the greatest depth and of a closed one; a legal and an illegal formula; a misaligned one. -/
theorem test_met_WalksClose :
    let rc : Loc := .mem 0x20000 false 0 0
    let s := tree [record 64 true, (0x20018, 5)] [(5, 0), (7, 0x3F800000)]
    SlotOk s ∧ s.guard 0 = true ∧ StoresIn s ∧ s.memPoison = [] ∧ 0x20000 % 4096 + 1152 ≤ 4096 ∧
    s.closingRecord 5 1 = .ok (⟨rc, rc⟩, 0x20000) ∧ s.walkOpen ⟨rc, rc⟩ = true ∧ (tree [record 2 false] []).walkOpen ⟨rc, rc⟩ = false ∧
    gives (exec (.tback 5 7 1 0 1) s) (fun t => !t.walkOpen ⟨rc, rc⟩ && t.cur.ticket == 0 && t.jobs.length == 1 &&
      t.jobs.all (fun j => j.levels.length == 65 && j.value == 4294967296 && j.alt)) = true ∧
    gives (exec (.tabort 4 5 1 0) (tree [record 2 false] [(5, 0)])) (fun t => t.cur.reply == some ⟨.now, [(4, 4)], false⟩) = true := by
  decide +kernel

theorem test_met_FormulasLoad :
    let s := tree [(0x20FA0, 1), (0x20FB8, 5)] [(4, 0xFA0), (5, 0xF01)]
    SlotOk s ∧ s.guard 0 = true ∧ s.capDva 1 (s.src 4) 96 true false = .ok 0x20FA0 ∧ isWindow 0x20FA0 = false ∧ 0x20FA0 % 8 = 0 ∧
    s.capDva 1 (s.src 5) 96 true false = .ok 0x20F01 ∧ 0x20F01 % 8 ≠ 0 ∧
    s.wordLocs ((List.range 12).map fun i => 0x20FA0 + 8 * i) = .ok ((List.range 12).map fun i => .mem (0x20FA0 + 8 * i) false 0 0) ∧
    firstBad (fmlBad (s.mem.rdBytes 0x20FA0 96)) = none ∧ firstBad (fmlBad ((tree [(0x20FA0, 17)] []).mem.rdBytes 0x20FA0 96)) = some 0 ∧
    ((s.hier.llc.look (0x20FA0 / 128)).isSome && (s.hier.llc.look (0x20FFF / 128)).isSome) = true ∧
    gives (exec (.tform 4 1 0 15) s) (fun t => (t.formula 3 15).isSome) = true ∧
    gives (exec (.tform 4 1 0 15) (tree [(0x20FA0, 17)] [(4, 0xFA0)])) (fun t => t.lat.flow == .trapped clsEng 0) = true := by decide +kernel

/-- A level, then the end, of a back-up and of an unwinding whose walk was expanding the node. -/
theorem test_met_LevelsUpdateTheirNodes :
    let rc : Loc := .mem 0x20000 false 0 0
    let l : Loc := .mem 0x30000 true 0 0
    let job (a : Bool) (ls : List (Word × Option Nat)) : TreeJob :=
      ⟨a, ⟨rc, rc⟩, 0x20000, 3, 0, 13, true, 2 ^ 32, ls, 1, 0, if a then 9 else 0, false, false, 0, false, false⟩
    let s (a : Bool) : State := tree [header 2 2, (0x30010, 2 ^ 32 + 4), (0x300A8, 2 ^ 32 + 7)] [] fun s => { s with jobs := [job a [(node, some 1)]] }
    (s true).jobs = [job true [(node, some 1)]] ∧ (s true).memPoison = [] ∧ (job true []).waits = false ∧ isWindow (refDva node) = false ∧
    ((s true).xlateOr 0 3 (refDva node) true true).any (fun r => r.1 == s true && r.2 == .ok l) = true ∧ (s true).nodeCheck node (some l) = none ∧ 1 < (s true).ndChildren l ∧
    0 < (s true).edFlight l 1 ∧ 0 < (s true).ndFtot l ∧
    gives (exec (.tbackLevel 0) (s false)) (fun t => t.edVisits l 1 == 8 && t.ndVisits l == 5 && t.edValue l 1 == -4294967296 &&
      t.edFlight l 1 == 0 && t.ndFtot l == 0) = true ∧
    gives (exec (.tabortUnwind 0) (s true)) (fun t => t.edVisits l 1 == 7 && t.edFlight l 1 == 0 && t.ndFtot l == 0) = true ∧
    (let e (a : Bool) : State := tree [header 0 1, (0x30020, 0x20000), (0x20010, node.toNat)] [] fun s =>
       { s with jobs := [job a []], memEmpty := [0x4000, 0x6004] }
     (let u := (e true).recallFor 0 3 rc
      (u.xlateOr 0 3 (refDva node) true true).any (fun r => r.1 == u && r.2 == .ok l) = true) ∧ (e true).nodeCheck node (some l) = none ∧
     (e true).rdWord (rc.plus 16) = node ∧ (e true).expandedBy l 0x20000 = true ∧ (tree [] []).rdWord (rc.plus 16) = 0 ∧
     gives (exec (.tbackLevel 0) (e false)) (fun t => t.jobs == [] && t.rdWord rc == 0 && t.full rc) = true ∧
     gives (exec (.tabortUnwind 0) (e true)) (fun t => t.jobs == [] && t.rdWord rc == 9 && t.ndState l == 0 && t.rdWord (hdrAt l 4) == 9) = true) := by
  decide +kernel

/-- A load behind an SQ of its word that has not met its row waits for it (R121); one of another word does not. -/
theorem test_load_waits_for_own_drain :
    let s := home 15 [(4, 0xFF8), (5, 0)] fun s => s.modSlot 0 15 fun x =>
      { x with drains := x.drains.setIfInBounds 1 [⟨0, [(.mem 0x20FFC false 0 0, 0x20FFC)], false, 4, 4⟩] }
    gives (exec (.ld 3 4 1 0) s) (fun t => t.cur.reply.any (fun r => r.cond == .drainsOn (.mem 0x20FF8 false 0 0) 8)) = true ∧
    gives (exec (.ld 3 5 1 0) s) (fun t => t.cur.reply == some ⟨.now, [(3, 0)], false⟩) = true := by decide +kernel

/-! ## Landing zones -/

/-- Core 0 with this zone at index 3, slot 1 of which is in generation 5. -/
def zoned (k : Nat) (z : Option Zone) (regs : List (Nat × Word)) : State :=
  home k regs fun s => s.modCore 0 fun c => { c.setZone 3 z with lzGen := [(49, 5)] }

/-- A zone of two slots of 64 KiB: the first is ARRIVING, the second as given. -/
def zone (x : LzSlot) : Zone := ⟨7, 0x10000, 16, 63, [⟨.arriving, 0, false, none⟩, x]⟩

/-- LZCFG of a zone that fills the partition to its end, of one slot more, with a reserved bit; a removal of a free zone and one of a
zone in use. -/
theorem test_met_ZonesAreConfigured :
    (let s := zoned 13 none [(4, 0xffaf019000), (5, 0xffaf01a000), (6, 0x1ffaf019000)]
     SlotOk s ∧ s.guard 0 = true ∧ StoresIn s ∧ s.here.lzWait = [] ∧ s.here.zone 0 = none ∧ s.here.zone 1 = none ∧ s.here.zone 2 = none ∧ s.here.zone 3 = none ∧
     uns s 4 / 2 ^ 40 = 0 ∧ uns s 4 / 2 ^ 19 % 2 ^ 5 = 0 ∧ uns s 4 / 2 ^ 31 % 2 = 1 ∧ s.lmend s.curCore s.cur = 0x29000 ∧
     uns s 6 / 2 ^ 40 ≠ 0 ∧
     gives (exec (.lzcfg 3 4 0) s) (fun t => t.cur.reg 3 == 0 &&
       t.here.zone 3 == some ⟨7, 0x19000, 12, 63, List.replicate 16 ⟨.free, 0, false, none⟩⟩) = true ∧
     gives (exec (.lzcfg 3 5 0) s) (fun t => t.lat.flow == .trapped clsLz 2) = true ∧
     gives (exec (.lzcfg 3 6 0) s) (fun t => t.lat.flow == .trapped clsLz 2) = true) ∧
    (let z : Zone := ⟨7, 0x10000, 10, 0, [⟨.free, 0, false, none⟩]⟩
     let s := zoned 13 (some z) [(4, 0x300000000)]
     uns s 4 / 2 ^ 31 % 2 = 0 ∧ s.here.zone 3 = some z ∧ z.launch = s.cur.launch.getD 0 ∧
     gives (exec (.lzcfg 3 4 0) s) (fun t => t.cur.reg 3 == 0 && t.here.zone 3 == none) = true) ∧
    gives (exec (.lzcfg 3 4 0) (zoned 13 (some (zone ⟨.free, 0, false, none⟩)) [(4, 0x300000000)])) (fun t => t.cur.reg 3 == 5) = true := by
  decide +kernel

/-- LZRES with no zone, with a free slot, with none. -/
theorem test_met_SlotsAreReserved :
    (let s := zoned 13 none [(4, 0xfe000000000000)]
     uns s 4 / 2 ^ 48 % 256 = 0xFE ∧ uns s 4 % 2 ^ 30 = 0 ∧ winDev (uns s 4 % 2 ^ 56) = s.device ∧ winCore (uns s 4 % 2 ^ 56) = s.curCore ∧
     gives (exec (.lzres 3 4 0 0 3) s) (fun t => t.cur.reg 3 == 5) = true) ∧
    (let y := zone ⟨.free, 0, false, none⟩
     let s := zoned 13 (some y) [(4, 0xfe000000000000)]
     s.here.zone 3 = some y ∧ y.launch = s.cur.launch.getD 0 ∧ y.slots.findIdx? (fun y => y.st == .free) = some 1 ∧
     gives (exec (.lzres 3 4 0 1 3) s) (fun t => t.cur.reg 3 == 0x310005000000 &&
       ((t.here.zone 3).bind fun x => x.slots[1]?) == some ⟨.reserved, 0, false, none⟩) = true) ∧
    (let y := zone ⟨.failed, 0, false, none⟩
     let s := zoned 13 (some y) [(4, 0xfe000000000000)]
     y.slots.findIdx? (fun y => y.st == .free) = none ∧ s.curSlot ≠ 14 ∧ s.cur.packet = none ∧
     gives (exec (.lzres 3 4 0 0 3) s) (fun t => t.cur.reg 3 == 1) = true ∧
     gives (exec (.lzres 3 4 0 1 3) s) (fun t => t.cur.st == .parked && t.here.lzWait == [⟨.slot 0 13, 3, none, 3⟩]) = true) := by decide +kernel

/-- Tokens of no zone, of a free slot, of an older generation, and of slots in the other states; expectations at the limit. -/
theorem test_met_SlotsArePostedAndFreed :
    (let s := zoned 13 none [(4, 0x310005000000)]
     uns s 4 % 2 ^ 24 = 0 ∧ tokenDev (s.src 4) = s.device ∧ tokenCore (s.src 4) = s.curCore ∧ s.here.zone (tokenZone (s.src 4)) = none ∧
     gives (exec (.lzwait 3 4 0) s) (fun t => t.cur.reg 3 == 5) = true) ∧
    gives (exec (.lzwait 3 4 0) (zoned 13 (some (zone ⟨.free, 0, false, none⟩)) [(4, 0x310005000000)])) (fun t => t.cur.reg 3 == 4) = true ∧
    (let s := zoned 13 (some (zone ⟨.failed, 0, false, none⟩)) [(4, 0x310005000000), (5, 0x310004000000)]
     tokenGen (s.src 5) ≠ s.here.slotGen 3 1 ∧ tokenGen (s.src 4) = s.here.slotGen 3 1 ∧
     gives (exec (.lzexp 3 5 0 0) s) (fun t => t.cur.reg 3 == 4) = true ∧ gives (exec (.lzwait 3 4 0) s) (fun t => t.cur.reg 3 == 3) = true ∧
     gives (exec (.lzfree 3 4 0) s) (fun t => t.cur.reg 3 == 0 && t.here.slotGen 3 1 == 6) = true) ∧
    (let x : LzSlot := ⟨.arriving, -5, false, none⟩
     let s := zoned 13 (some (zone x)) [(4, 0x310005000000), (5, 1048580), (6, 1048581), (7, 5)]
     x.pend + uns s 5 ≤ 1048575 ∧ 1048575 < x.pend + uns s 6 ∧ s.curSlot ≠ 14 ∧ s.cur.packet = none ∧
     gives (exec (.lzexp 3 4 5 0) s) (fun t => t.cur.reg 3 == 0 && ((t.here.zone 3).bind fun x => x.slots[1]?) == some ⟨.arriving, 1048575, true, none⟩) = true ∧
     gives (exec (.lzexp 3 4 6 0) s) (fun t => t.cur.reg 3 == 2) = true ∧
     gives (exec (.lzexp 3 4 7 0) s) (fun t => ((t.here.zone 3).bind fun x => x.slots[1]?) == some ⟨.complete, 0, true, none⟩) = true ∧
     gives (exec (.lzwait 3 4 0) s) (fun t => t.cur.st == .parked && t.here.lzWait == [⟨.slot 0 13, 3, some 1, 3⟩]) = true ∧
     gives (exec (.lzstat 3 4 0) s) (fun t => (t.cur.reg 3).toNat == (2 ^ 21 - 5) * 2 ^ 19 + 5 * 8 + 2) = true) ∧
    gives (exec (.lzwait 3 4 0) (zoned 13 (some (zone ⟨.complete, 0, true, none⟩)) [(4, 0x310005000000)])) (fun t => t.cur.reg 3 == 0) = true := by
  decide +kernel

/-- A unit at the end of its slot, the last expected, and one of an older generation. -/
theorem test_met_UnitsArriveInTheirSlot :
    let u : LzUnit := ⟨none, 0, none, 0x310005000000, 0xFFC0, List.replicate 64 9, false⟩
    let z (n : Nat) : Zone := ⟨7, 0x10000, 16, 0, [⟨.free, 0, false, none⟩, ⟨if n = 5 then .arriving else .free, 1, true, none⟩]⟩
    let s (n : Nat) : State := { State.reset with
      launches := [{ launch with seats := [⟨0, 0, 0x9000, 0x77000, 0x78000, 0, 0, [], 0x7A000, 0, 0, 0, 0⟩] }], units := [u]
      cores := [(0, { Core.reset.setZone 3 (some (z n)) with lzGen := [(49, BitVec.ofNat 16 n)] })] }
    NoWaiters (s 5) ∧ (s 5).units = [u] ∧ u.data.length = 64 ∧ ((s 5).core 0).lzWait = [] ∧ tokenCore u.token = 0 ∧ tokenZone u.token = 3 ∧ tokenSlot u.token = 1 ∧
    ((s 5).core 0).zone 3 = some (z 5) ∧ u.offset + 64 ≤ 2 ^ 16 ∧ tokenGen u.token = ((s 5).core 0).slotGen 3 1 ∧
    (s 5).place (some 7) 0 (0x10000 + 0x10000 + u.offset) = some 0x2FFC0 ∧
    tokenGen u.token ≠ ((s 6).core 0).slotGen 3 1 ∧ ((s 6).core 0).lzdrop ≠ 0xFFFFFFFF ∧
    gives (exec (.arrivalUnit 0) (s 5)) (fun t => t.units == [] && (t.core 0).lm.rd 0x2FFC0 == 9 && (t.core 0).lm.rd 0x2FFFF == 9 &&
      (((t.core 0).zone 3).bind fun v => v.slots[1]?) == some ⟨.complete, 0, true, none⟩) = true ∧
    gives (exec (.arrivalUnit 0) (s 6)) (fun t => t.units == [] && (t.core 0).lzdrop == 1) = true := by
  refine ⟨noWaiters_of (by decide +kernel) (by decide +kernel), ?_⟩
  decide +kernel

/-! ## Checked pairing, pre-emption, walks, turns -/

/-- COUPLE in slots that may; UNCOUPLE. -/
theorem test_met_PairsAreCoupled :
    (let s := home 13 []
     SlotOk s ∧ s.guard 0 = true ∧ s.cur.coupled = false ∧ s.here.vlen s.curSlot = 0 ∧ s.pairedOdd s.curCore s.curSlot = false ∧ s.curSlot < 14 ∧
     gives (exec (.couple 0) s) (fun t => t.cur.reply == some ⟨.partner, [], false⟩) = true) ∧
    (let s := home 13 [] fun s => (s.modSlot 0 13 fun x => { x with coupled := true }).modSlot 1 13 fun x => { x with coupled := true }
     s.cur.coupled = true ∧ gives (exec (.uncouple 0) s) (fun t => !(t.slot 0 13).coupled && !(t.slot 1 13).coupled) = true) := by
  decide +kernel

/-- An interval whose fingerprints agree, one that is rolled back, one that kills: slot 13 of cores 0 and 1. -/
theorem test_met_IntervalsAreComparedOrRolledBack :
    let h (crc : BitVec 64) : Half2 := ⟨crc, [⟨.mem 0x20008 false 0 0, 0x20008, [5, 0, 0, 0, 0, 0, 0, 0], none, 3⟩], { strand [(9, 77)] with pc := 0x10008 }, 4, true⟩
    let s (crc : BitVec 64) (again : Bool) : State :=
      { (home 13 []) with
        cores := [0, 1].map fun k => (k, Core.reset.setSlot 13 { strand [(9, 78)] with
          st := .reply, pc := 0x10028, coupled := true, reply := some ⟨.interval, [], true⟩ })
        couples := [⟨0, 13, h 1, h crc, [], false, false, false, again⟩] }
    (s 1 false).couples = [⟨0, 13, h 1, h 1, [], false, false, false, false⟩] ∧ ((s 1 false).slot 1 13).coupled = true ∧
    ((s 1 false).slot 1 13).wlog = [] ∧ ((s 1 false).slot 0 13).reply = some ⟨.interval, [], true⟩ ∧
    gives (exec (.intervalEnd 0 13) (s 1 false)) (fun t => (t.slot 0 13).reg 9 == 78 && (t.slot 1 13).st == .ready && (t.core 0).path.length == 1 &&
      t.couples.all (fun c => c.lead.crc == 0 && c.lead.buf == [])) = true ∧
    gives (exec (.intervalEnd 0 13) (s 2 false)) (fun t => (t.slot 0 13).reg 9 == 77 && (t.slot 1 13).pc == 0x10008 && t.rollbacks == 1) = true ∧
    gives (exec (.intervalEnd 0 13) (s 2 true)) (fun t => (t.slot 0 13).st == .killed && (t.slot 1 13).st == .killed) = true := by decide +kernel

/-- A strand with a request, saved; what it had comes back with it. -/
theorem test_met_PreemptedStrandComesBack :
    let s := home 13 [(9, 77)] fun s => s.modSlot 0 13 fun x => { x with preReq := some 3, join := 2 ^ 64 - 1, traprec := 8, p := 0xA1 }
    s.preemptDue 0 13 = true ∧ (s.slot 0 13).gang = false ∧ (s.slot 0 13).groups = [] ∧ (s.slot 0 13).svGroups = [] ∧ (s.slot 0 13).join < 2 ^ 64 ∧
    (s.slot 0 13).coupled = false ∧ (s.slot 0 13).p.getLsbD 0 = true ∧ statusStored (s.slot 0 13).status = (s.slot 0 13).status ∧
    ((s.slot 0 13).c.toList.all fun c => capStored c == c) = true ∧
    gives (exec (.preEmption 0 13) s) (fun t => (t.slot 0 13).st == .saved && gives (exec (.resumption 0 13) t) fun u =>
      (u.slot 0 13).st == .ready && (u.slot 0 13).p == 0xA1 && (u.slot 0 13).s == (s.slot 0 13).s && (u.slot 0 13).c == (s.slot 0 13).c && (u.slot 0 13).join == 2 ^ 64 - 1 &&
      (u.slot 0 13).fromCc == 16) = true := by decide +kernel

/-- A timer at 1, and a request held as long as it may be and one cc less. -/
theorem test_met_RequestsAreRaisedAndHeld :
    let s (cc timer : Nat) : State := home 13 [(2, 0x9040)] fun s => { s.modSlot 0 13 fun x => { x with
      packet := some ⟨0, 0, false, [1]⟩, preReq := some 7, trapvec := 0x10000, timer := BitVec.ofNat 32 timer } with cc := cc }
    ((s 65543 1).slot 0 13).st = .ready ∧ (s 65543 1).trapWaits 0 13 = false ∧ ((s 65543 1).slot 0 13).preReq = some 7 ∧ 7 + 65536 ≤ (s 65543 1).cc ∧ ((s 65543 1).slot 0 13).timer = 1 ∧
    gives (exec (.pktHoldTimeout 0 13) (s 65543 1)) (fun t => (t.slot 0 13).traprec == 0x9000 && (t.slot 0 13).pc == 0x10000 && (t.slot 0 13).packet == none) = true ∧
    gives (exec (.pktHoldTimeout 0 13) (s 65542 1)) (fun t => t == s 65542 1) = true ∧
    gives (exec (.preemptTimerExpiry 0 13) (home 13 [] fun s => s.modSlot 0 13 fun x => { x with timer := 1 })) (fun t =>
      (t.slot 0 13).timer == 0 && (t.slot 0 13).preReq == some 5) = true ∧
    gives (exec (.releaseKilledSlot 0 13) (home 13 [] fun s => s.modSlot 0 13 fun x => { x with st := .killed })) (fun t =>
      (t.slot 0 13).st == .free) = true ∧
    gives (exec (.supervisorPreempt 0 14) (home 14 [])) (fun t => (t.slot 0 14).preReq == none) = true := by decide +kernel

/-- A page table of four levels at 0x4_0000 whose last level maps page 0x20 (and nothing else), as the root of ASID 3. -/
def tabled (s : State) : State := { s with
  roots := [(3, 0x40000)]
  mem := [(0x40000, 0x8000000000000041), (0x41000, 0x8000000000000042), (0x42000, 0x8000000000000043),
    (0x43100, 0x8000380000000020)].foldl (fun m w => Memory.wrBytes m w.1 (bytesOfNat 8 w.2)) s.mem }

/-- A walk that ends in a leaf, one that ends in none; the owner of an entry. -/
theorem test_met_WalksEndAndOwnersIssue :
    (let w (d : Nat) : Walk := ⟨3, d, .read, true, none⟩
     let s (d : Nat) : State := tabled (home 13 [] fun s => s.modSlot 0 13 fun x => { x with st := .reply, walk := some (w d) })
     ((s 0x20FF8).slot 0 13).walk = some (w 0x20FF8) ∧ ((s 0x20FF8).slot 0 13).seqReply = false ∧ ((s 0x20FF8).tenant 3).pending = [] ∧
     (s 0x20FF8).faultWaits 0 3 = false ∧
     (let f : State := { s 0x20FF8 with tenants := [(3, { (s 0x20FF8).tenant 3 with pending := List.replicate 64 (0, []) })] }
      f.faultWaits 0 3 = true ∧ gives (exec (.translationWalk 0 13) f) (fun t => t == f) = true) ∧
     ((s 0x20FF8).walk 0 3 0x20FF8).2 = .leaf ⟨3, 0x20, 1, 0x8000380000000020⟩ ∧ leafCause 0x8000380000000020 true false = none ∧
     ((s 0x21000).walk 0 3 0x21000).2 = .fail 1 ∧
     gives (exec (.translationWalk 0 13) (s 0x20FF8)) (fun t => (t.slot 0 13).st == .ready && (t.slot 0 13).walk == none &&
       (t.cluster 0).tlb.head? == some ⟨3, 0x20, 1, 0x8000380000000020⟩) = true ∧
     gives (exec (.translationWalk 0 13) (s 0x21000)) (fun t => (t.slot 0 13).walk == some { w 0x21000 with failed := some 1 }) = true) ∧
    (let s := home 13 [] fun s => { s with cc := 13, mem := Memory.wrBytes [] 0x10000 (bytesOfNat 8 0) }
     let s := s.modSlot 0 13 fun x => { x with pc := 0x10000 }
     (s.core 0).owner (s.cc % 16) = some 13 ∧ s.holdDue 0 13 = false ∧ s.preemptDue 0 13 = false ∧ s.mayIssue 0 13 = true ∧
     (s.slot 0 13).st ≠ .ganged) := by decide +kernel

/-! ## Queues, launches, links, settings -/

/-- Queue 5: ASID 3, a ring of 8 packets at 0x2_0000, the tail word at 0x2_0FF0, enabled; with a page table, and the tail word
holding a count, full or empty; packets up to `upTo` are known of. -/
def queued (ps : List (BitVec 512)) (count : Nat) (full : Bool) (upTo : BitVec 32 := 0xFFFFFFFF) : State :=
  tabled { State.reset with
    queues := [(5, { Queue.reset with
      desc := 0xffffffffffffffff0000000000020ff0000000080f0300030000000000020000, head := 0xFFFFFFFF, upTo := upTo
      packets := ps.map fun b => (6, b), vf := 2 })]
    mem := Memory.wrBytes [] 0x20FF0 (bytesOfNat 8 count), memEmpty := if full then [] else [0x20FF0 / 8] }

/-- A descriptor, an aperture of the function's own queue and of another's, a tail word empty, with one packet, and with a count
that passes the ring by one; the packet before a count that wraps to 0. -/
theorem test_met_QueuesFillAndAreTaken :
    let l : Loc := .mem 0x20FF0 false 0 0
    let s (n : Nat) (f : Bool) : State := queued [] n f
    let u : State := ((s 0 true).xlateUnit 3 0x20FF0 true true).1
    ((s 0 true).queue 5).on = true ∧ ((s 0 true).queue 5).logSize = 3 ∧ NoWaiters (s 0 true) ∧ NoWaiters (s 8 true) ∧ (s 0 true).boot = .ready ∧
    ((s 0 true).queue 5).asid = 3 ∧ ((s 0 true).queue 5).tail = 0x20FF0 ∧ ((s 0 true).queue 5).head = ((s 0 true).queue 5).upTo ∧
    ((s 0 true).xlateUnit 3 0x20FF0 false true).2 = some l ∧ ((s 0 true).xlateUnit 3 0x20FF0 true true).2 = some l ∧
    (u.touch l true 0 [] (u.pasidFor 3)).full l = true ∧
    (let v := ((s 0 false).xlateUnit 3 0x20FF0 true true).1
     (v.touch l true 0 [] (v.pasidFor 3)).full l = false) ∧
    gives (exec (.queueTailTake 5) (s 0 true)) (fun t => !t.full l && (t.queue 5).head == 0xFFFFFFFF && (t.queue 5).upTo == 0) = true ∧
    gives (exec (.queueTailTake 5) (s 8 true)) (fun t => !(t.queue 5).on && !t.full l) = true ∧
    gives (exec (.queueTailTake 5) (s 7 true)) (fun t => (t.queue 5).on && (t.queue 5).upTo == 7) = true ∧
    (let r := queued [] 0 false 0
     (r.queue 5).head ≠ (r.queue 5).upTo ∧ (r.unitBlock 3 (0x20000 + 64 * 7)).2 = some 0 ∧ 0x20FF0 % 8 = 0 ∧
     gives (exec (.queueTailTake 5) r) (fun t => (t.queue 5).head == 0 && (t.queue 5).packets == [(0xFFFFFFFF, 0)] &&
       t.rdWord (.mem 0x20FF8 false 0 0) == 0) = true) ∧
    gives (exec (.fillApertureWrite 2 40 9) (s 0 false)) (fun t => t.full l && t.rdWord l == 9) = true ∧
    gives (exec (.fillApertureWrite 3 40 9) (s 0 false)) (fun t => !t.full l && t.discarded == 1) = true ∧
    gives (exec (.fillApertureWrite 2 44 9) (s 0 false)) (fun t => !t.full l && t.discarded == 1) = true ∧
    gives (exec (.writeQueueDescriptor 5 0xffffffffffffffff0000000000020ff0000000000f0300030000000000020000) (s 0 true)) (fun t => !(t.queue 5).on && (t.queue 5).vf == 2) = true := by
  refine ⟨by decide +kernel, by decide +kernel, noWaiters_of (by decide +kernel) (by decide +kernel),
    noWaiters_of (by decide +kernel) (by decide +kernel), ?_⟩
  decide +kernel

/-- A packet of one core, one that asks for 15 strands, and one whose batch snapshot is to be taken. -/
theorem test_met_HeadPacketIsPlacedOrRefused :
    (let s := queued [0x408078010000000000020f0000000000000000000000000000000000000000000000000000000000000700000000000000010000] 0 true
     s.arbiterLets 5 = true ∧ (s.headPlan 5).2 = some (.error 2) ∧
     gives (exec (.launchPlacement 5) s) (fun t => t.rdWord (.mem 0x20F00 false 0 0) == 513 && t.full (.mem 0x20F00 false 0 0) &&
       (t.queue 5).packets == []) = true) ∧
    (let s := queued [0x408008010000000000020f0000000000000000000000000000000000000000000000000000000000000700000000000000010000] 0 true
     let p := Pkt.of 0x408008010000000000020f0000000000000000000000000000000000000000000000000000000000000700000000000000010000
     let seat : Seat := ⟨0, 0, 0x9000, 0x77000, 0, 0, 0, [], 0, 0, 0, 0, 0⟩
     s.arbiterLets 5 = true ∧ (s.headPlan 5).2 = some (.ok (0, [seat])) ∧ p.fmt = 0 ∧ 1 ≤ p.strands ∧ (s.queue 5).snapped = true ∧
     ((s.queue 5).packets.head?.map (·.1)) = some 6 ∧ s.launches = [] ∧ Sparse.get [] s.images (imageKey 5 6) = [] ∧ (s.slot 0 13).coupled = false ∧ (s.slot 0 13).st = .free ∧
     (let b : State := s.setQueue 5 { s.queue 5 with desc := (s.queue 5).desc ||| (0x20800#512 <<< 256) }
      (b.queue 5).snapped = false ∧ b.arbiterLets 5 = true ∧
      gives (exec (.launchPlacement 5) b) (fun t => (t.queue 5).packets.length == 1 && (t.queue 5).snapRun == some ⟨0, some 0, none⟩) = true)) := by
  decide +kernel

/-- A launch that is idle at one sweep, at two, and one with a record still out; its abort; the classes. -/
theorem test_met_LaunchesEndOrAreAborted :
    let l (w : Option Nat) (sent : Nat) : Launch := { launch with sweep := w, seats := launch.seats.map fun t => { t with sent := sent, recv := 4 } }
    let s (w : Option Nat) (sent : Nat) : State := tabled { State.reset with launches := [l w sent] }
    (s (some 4) 4).launches = [l (some 4) 4] ∧ (s none 4).sweepOf (l none 4) = some 4 ∧ (s none 5).sweepOf (l none 5) = none ∧ NoWaiters (s (some 4) 4) ∧
    ((s none 4).slot 0 15).st = .free ∧ ((s none 4).slot 0 15).lentTag = 0 ∧ ((s none 4).core 0).zone 3 = none ∧
    (((s (some 4) 4).leaveCores (l (some 4) 4)).xlateUnit 3 0x20F00 false true).2 = some (.mem 0x20F00 false 0 0) ∧
    gives (exec .equinoxSweep (s none 4)) (fun t => t.launches == [l (some 4) 4]) = true ∧
    gives (exec .equinoxSweep (s (some 4) 4)) (fun t => t.launches == [] && t.full (.mem 0x20F00 false 0 0)) = true ∧
    ((s none 5).copiesOn 0 7 = false) ∧
    gives (exec (.abortLaunch 7) (s none 5)) (fun t => t.launches == [] && t.rdWord (.mem 0x20F00 false 0 0) == 2) = true ∧
    gives (exec (.functionLevelReset 510) { s none 5 with launches := [{ l none 5 with vf := 510 }] }) (fun t => t.launches == []) = true ∧
    (let m : CopyCmd := ⟨7, 1, 0x9000, 1, 0x28FF8, 1, 8, 0, 0, 0, 0, 0, false, ⟨0, 9, 0, 0, 0, false, none, 0, 0⟩⟩
     let c : State := (s none 5).modSlot 0 4 fun _ => { strand [] with copyQ := [m] }
     (c.slot 0 (2 * 2)).copyQ.any (·.launch == 7) = true ∧
     gives (exec (.abortLaunch 7) c) (fun t => (t.slot 0 4).st == .free && t.launches.map (·.closing) == [true] &&
       gives (exec .equinoxSweep t) fun u => u.launches == t.launches) = true) ∧
    (let k (steps missed : Nat) : State := { State.reset with queues := [(5, { Queue.reset with latest := 7 })], launches := [{ launch with queue := 5, steps := steps, laneOps := 0, missed := missed }] }
     gives (exec (.classifierWindow 7) (k 1 32)) (fun t => (t.queue 5).cls == .compute) = true ∧
     gives (exec (.classifierWindow 7) (k 1 33)) (fun t => (t.queue 5).cls == .balanced) = true ∧
     gives (exec (.classifierWindow 7) (k 1 257)) (fun t => (t.queue 5).cls == .memory) = true) := by
  refine ⟨by decide +kernel, by decide +kernel, by decide +kernel, noWaiters_of (by decide +kernel) (by decide +kernel), ?_⟩
  decide +kernel

/-- A link at its seventh and eighth replay, with a slot reserved over it; its halves; what it sends, with room and without. -/
theorem test_met_LinksReplaySlowAndFail :
    let s (n rate : Nat) (up : Bool) : State := { State.reset with
      links := (Vector.replicate 16 Link.reset).set 15 { Link.reset with rate := rate, replays := n, up := up, failed := [3] }
      routes := [(9, ⟨some 15, some 1⟩)]
      cores := [(0, Core.reset.setZone 3 (some ⟨7, 0x10000, 16, 0, [⟨.reserved, 0, false, some 15⟩]⟩))] }
    ((s 6 2 true).link 15).up = true ∧ 8 ≤ ((s 7 2 true).link 15).replays + 1 ∧ ((s 6 2 false).link 15).up = false ∧
    gives (exec (.flitReplay 15) (s 6 2 true)) (fun t => (t.link 15).up && (t.link 15).replays == 7) = true ∧
    gives (exec (.flitReplay 15) (s 7 2 true)) (fun t => !(t.link 15).up && t.routeTo 9 == some 1 &&
      (((t.core 0).zone 3).bind fun v => v.slots[0]?).any (fun x => x.st == .failed)) = true ∧
    gives (exec (.laneMarginStepDown 15) (s 6 2 true)) (fun t => (t.link 15).rate == 3) = true ∧
    gives (exec (.laneTrainingFailure 15 0) (s 6 2 true)) (fun t => (t.link 15).lanes == 4 && (t.link 15).rate == 2) = true ∧
    gives (exec (.laneTrainingFailure 15 7) (s 6 2 true)) (fun t => (t.link 15).failed == [] && (t.link 15).rate == 3) = true ∧
    gives (exec (.laneTrainingFailure 15 7) (s 6 3 true)) (fun t => !(t.link 15).up) = true ∧
    gives (exec (.retrainLink 15) (s 6 2 false)) (fun t => t.link 15 == Link.reset) = true ∧
    (let m (n : Nat) : LinkMsg := .answer n 1 []
     let l : Link := { Link.reset with vcs := (Vector.replicate 6 []).set 5 [m 5] |>.set 0 [m 0] }
     let q (l : Link) : State := { State.reset with links := (Vector.replicate 16 Link.reset).set 15 l }
     l.head 1 = none ∧ l.head 5 = some (m 5) ∧ l.retry.length < 512 ∧ (((q l).sendFlit 15).link 15).retry = [⟨0, 5, m 5⟩] ∧
     (((q { l with vcs := l.vcs.set 1 [m 1] }).sendFlit 15).link 15).retry = [⟨0, 1, m 1⟩] ∧
     (List.replicate 512 (Flit.mk 0 1 (m 1))).length = 512) := by decide +kernel

/-- The mean of ten samples at the cap, above it, and at 97% of it; a sensor at the threshold and below. -/
theorem test_met_PowerAndAgeingAreWatched :
    let s (n clock : Nat) : State := { State.reset with samples := List.replicate n 2800, clock := clock }
    (s 8 20).samples.length + 1 < 10 ∧ (s 9 20).samples.length = 9 ∧
    gives (exec (.powerSample 2800) (s 9 9)) (fun t => t.clock == 9) = true ∧ gives (exec (.powerSample 2801) (s 9 9)) (fun t => t.clock == 8) = true ∧
    gives (exec (.powerSample 1960) (s 9 9)) (fun t => t.clock == 10) = true ∧ gives (exec (.powerSample 1961) (s 9 9)) (fun t => t.clock == 9) = true ∧
    (let a : State := { State.reset with eolhMin := 100 }
     gives (exec (.ageingSensorUpdate 11 100 63) a) (fun t => !t.ageing[11].getLsbD 0) = true ∧
     gives (exec (.ageingSensorUpdate 11 99 63) a) (fun t => t.ageing[11].getLsbD 0 && gives (exec (.ageingWarnClear 11 1) t) fun u =>
       !u.ageing[11].getLsbD 0) = true) := by decide +kernel

/-- A batch of nine requests of one source in one bank, and of one class at its cap. -/
theorem test_met_DramBatchesAreMarked :
    let r : DramReq := ⟨0, 0, 3, 9, false⟩
    let s (used : Nat) : State := { State.reset with
      hier := { Hier.reset with drams := (Vector.replicate 16 ⟨[], [], []⟩).set 15 (Dram.mk (List.replicate 9 r) [(0, used)] []) } }
    ((s 0).dram 15).reqs.any (·.marked) = false ∧ (s 0).atCap ((s 0).dram 15) 0 = false ∧
    gives (exec (.dramBatchMark 15) (s 0)) (fun t => (t.dram 15).reqs.countP (·.marked) == 8) = true ∧
    gives (exec .dramCapWindow (s 7)) (fun t => (t.dram 15).used == []) = true := by decide +kernel

/-- A dirty line of class 1 under key 2, written back; a clean one; translations kept by the ports. -/
theorem test_met_EvictionsAndInvalidations :
    (let s (d : Bool) : State := { State.reset with
       mem := Memory.wrBytes [] 0x190 [7], hier := { Hier.reset with llc := [(3, ⟨d, 0, 0, ⟨false, 1, 2⟩⟩)] } }
     (s true).hier.llc.look 3 = some ⟨true, 0, 0, ⟨false, 1, 2⟩⟩ ∧ hostPa (128 * 3) = false ∧ inCarve (128 * 3) = false ∧
     (s true).hier.pathOk (3 / 64) = true ∧ (s true).hier.llc.look 4 = none ∧
     gives (exec (.llcEviction 3) (s true)) (fun t => (t.dram ((⟨false, 1, 2⟩ : Attr).stack 3)).reqs == [⟨128, 1, 0, 0, false⟩] && (t.hier.llc.look 3).isNone &&
       (t.hier.counter 0 0).minor 3 == 1) = true ∧
     gives (exec (.llcEviction 3) (s false)) (fun t => t.hier.drams == Hier.reset.drams && (t.hier.llc.look 3).isNone) = true) ∧
    (let s : State := { State.reset with ports := State.reset.ports.map fun p => { p with ats := [⟨none, 0x1000, 4096⟩, ⟨none, 0x3000, 4096⟩] } }
     gives (exec (.atsInvalidation 0x2000 4096) s) (fun t => t.ports.toList.all fun p => p.ats == [⟨none, 0x1000, 4096⟩, ⟨none, 0x3000, 4096⟩]) = true ∧
     gives (exec (.atsInvalidation 0x1FFF 1) s) (fun t => t.ports.toList.all fun p => p.ats == [⟨none, 0x3000, 4096⟩]) = true) := by decide +kernel

/-- The steps of bring-up after verification, from a part that held state. -/
theorem test_met_ColdReset :
    let s (n : Nat) : State := { issuing 0 0 with issuing := false, boot := .starting n }
    (s 2).inputs = [] ∧ gives (step (s 2)) (fun t => t.boot == .starting 3 && t.mem == [] && t.hier == Hier.reset) = true ∧
    gives (step (s 3)) (fun t => t.boot == .starting 4 && t.links == State.reset.links) = true ∧
    gives (step (s 4)) (fun t => t.boot == .starting 5 && t.launches == [] && t.cores == State.reset.cores) = true ∧
    gives (step (s 5)) (fun t => t.boot == .ready) = true := by decide +kernel

/-! ## More clauses and their hypotheses -/

/-- FCVT: 2.5 to i64 goes to the even 2, +infinity to the greatest i64, 2^24 + 1 down to FP32's 2^24. -/
theorem test_conversions :
    let s := home 0 [(4, 0x40200000), (5, 0x7F800000), (6, 0x1000001), (7, 0x7FC00000)]
    gives (exec (.fcvt 1 4 0 0 0) s) (fun t => t.cur.reg 1 == 2) = true ∧
    gives (exec (.fcvt 1 5 0 0 0) s) (fun t => t.cur.reg 1 == 0x7FFFFFFFFFFFFFFF) = true ∧
    gives (exec (.fcvt 1 6 0 0 1) s) (fun t => t.cur.reg 1 == 0x4B800000) = true ∧
    gives (exec (.fcvt 1 7 0 0 2) s) (fun t => t.cur.reg 1 == 0x7FC0) = true := by decide +kernel

/-- A page without W and one with Q; the context that a page fault saves. -/
theorem test_met_MissingRights :
    (let s := home 15 [] fun s => { s with clusters := [(0, ⟨[⟨3, 0x20, 1, 0x8000100000000020⟩, ⟨3, 0x21, 1, 0x8000B00000000021⟩], [], []⟩)] }
     s.cur.walk = none ∧ (0x8000100000000020#64).getLsbD 44 = true ∧ (0x8000100000000020#64).getLsbD 45 = false ∧ (0x8000B00000000021#64).getLsbD 45 = true ∧
     (0x8000B00000000021#64).getLsbD 47 = true ∧
     (match s.xlate 0x20FF8 .write, s.xlate 0x21FF8 .write with
      | .error (.fault 0x20FF8 3 .write), .error (.fault 0x21FF8 3 .write) => true
      | _, _ => false) = true) ∧
    (let s := home 15 [(4, 0xABCD)]
     s.faultWaits s.curCore (s.asidOf s.cur) = false ∧
     (s.stop (.fault 0x21000 3 .write)).here.lm.rdBytes (saveArea 15 + 32) 2 = [0xCD, 0xAB]) := by decide +kernel

/-- Slot 15 with a row that waits, and page 0x20 in the LLC. -/
def warmRows (row : LqRow) : State :=
  home 15 [] fun s => { s.modSlot 0 15 fun x => { x with lq := x.lq.setIfInBounds 3 [row] } with
    mem := Memory.wrBytes [] 0x2047C [7], hier := { s.hier with llc := warm } }

theorem test_met_rows_resident : Resident (warmRows (.arrived [])) 0x20000 1152 := resident_of rfl (by decide +kernel) rfl

/-- A checked row of each kind in Sage's trap mode; a row of device memory that waits, with nothing of it held elsewhere. -/
theorem test_met_RowsAndTraps :
    (let s := home 15 [(4, 0), (5, 8)] fun s => s.modSlot 0 15 fun x => { x with groups := [0], allot := 8 }
     s.row 1 4 5 4 false = .ok ((List.range 16).map fun i => (.mem (0x20000 + 8 * i) false 0 0, 0x20000 + 8 * i)) ∧
     (rowOffsets 8 16 3)[2]? = some 40) ∧
    (let s := home 15 [(4, 0xFC0)] fun s => { s.modSlot 0 15 fun x =>
       { x with groups := [0], allot := 8, c := x.c.setIfInBounds 1 (Cap.make 0x20000 0x1000 0x1F 1 2) } with launches := [{ launch with sage := 2 }] }
     let es := (List.range 16).map fun i => ((.mem (0x20FC0 + 4 * i) false 0 0, 0x20FC0 + 4 * i) : Loc × Nat)
     ((s.cap 1).s && s.sageTraps s.cur) = true ∧ s.row 1 4 0 4 false = .ok es ∧
     (match s.ownFirstAll 4 (es.map (·.1)) with
      | .ok v => (v.readRow v.curCore v.curSlot 6 true false true v.cc (es.map fun e => (e.1, e.2, false))).2.isOk
      | .error _ => false) = true ∧ (s.sqChecks es).isOk = true) ∧
    (let row : LqRow := .waiting 6 ([0x20000, 0x2047C].map fun o => (.mem o false 0 0, o, false)) false 5
     let s := warmRows row
     (s.slot 0 15).lq[3]?.getD [] = row :: [] ∧ (s.slot 0 15).oldestRow.any (·.q == 3) = true ∧ (s.slot 0 15).st ≠ .saved ∧
     (s.slot 0 15).drainsQueued = 0 ∧ (s.core 0).path = [] ∧ s.stgs = [] ∧ s.memPoison = [] ∧ s.hier.l2 = [] ∧ (s.core 0).l1 = [] ∧
     gives (exec (.loadQueueRowFill 0 15 3) s) (fun t => (t.slot 0 15).lq[3]?.getD [] == [.arrived [0, 7]]) = true) := by decide +kernel

/-- CLD of entry 255 and CGIVE of entry 2 to entry 4: the fields of what they load and write. -/
theorem test_met_CapabilityFields :
    (let s := home 15 [(4, 255), (6, 4)] fun s => { s with mem := Memory.wrBytes [] 0x71FE0 (bytesOfNat 32 (Cap.make 0x12345 0x40 5 9 9).toNat) }
     gives (exec (.cld 4 1 0) s) (fun t => (let k : Cap := t.cur.c[1]; k.base == 0x12345 && k.limit == 0x40 && k.rights == 5 && k.gen == 0 && k.index == 255)) = true ∧
     gives (exec (.cgive 6 1 0) s) (fun t => (launch.gen 2 == 1) && (t.launchById 7).any (fun l => l.gen 2 == 2 && l.gen 4 == 1)) = true) := by
  decide +kernel

/-- Commands of KIND 0 queued, running and ended; an inlined strand whose frame stands at s2. -/
theorem test_met_DoneWithCommands :
    (let m : CopyCmd := ⟨7, 1, 0x9000, 1, 0x28FF8, 1, 8, 0, 0, 0, 0, 0, false, ⟨0, 9, 0, 0, 0, false, none, 0, 0⟩⟩
     let s := home 13 [] fun s => s.modSlot 0 13 fun x => { x with copyQ := [m] }
     m ∈ s.cur.copyQ ∧ m.comp.kind = 0 ∧ m.comp.ctx = 0 ∧ gives (exec (.done 0) s) (fun t => t.lat.flow == .trapped clsEng 0xFFFF) = true) ∧
    (let m : MatOp := ⟨7, 5, 2 ^ 24, true, 3, 0, 7, false, 0, [], [], false, ⟨0, 9, 0, 0, 0, false, none, 0, 0⟩⟩
     let s := home 13 [] fun s => s.modSlot 0 13 fun x => { x with matQ := [m] }
     m ∈ s.cur.matQ ∧ m.sync = false ∧ gives (exec (.done 0) s) (fun t => t.lat.flow == .trapped clsEng 0xFFFF) = true) ∧
    (let e : EndedCmd := ⟨13, 7, true, 5, ⟨0, 9, 0x80, 0, 2, true, none, 0, 0⟩⟩
     let s := home 13 [] fun s => s.modCore 0 fun x => { x with ended := [e] }
     e ∈ s.here.ended ∧ e.slot = s.curSlot ∧ gives (exec (.done 0) s) (fun t => t.lat.flow == .trapped clsEng 0xFFFF) = true) ∧
    (let s := home 13 [(2, 0x9000)] fun s => s.modSlot 0 13 fun x => { x with ret := .inline }
     s.cur.ret = .inline ∧ s.cur.join = 0 ∧ s.launchOf s.cur = some launch ∧ s.here.lmPoison = [] ∧ uns s 2 % 8 = 0 ∧ programArea ≤ uns s 2 ∧
     uns s 2 + 96 ≤ s.lmend s.curCore s.cur ∧ s.place s.cur.launch s.curCore (uns s 2) = some 0x9000 ∧
     gives (exec (.done 0) s) (fun t => t.cur.reg 2 == 0x9060) = true) := by decide +kernel

/-- CLAIM of more than there is beside 255 lanes' worth, of nothing, and of what is held and more. -/
theorem test_claims :
    (let s := home 12 [(4, 256), (5, 15), (6, 33)] fun s => s.modSlot 0 12 fun x => { x with groups := [3], allot := 8 }
     s.cur.groups.Nodup ∧ (s.cur.groups.all fun n => decide (n < 16)) = true ∧
     gives (exec (.claim 3 4 0) s) (fun t => t.cur.groups == List.range 16 && t.cur.reg 3 == 256) = true ∧
     gives (exec (.claim 3 5 0) s) (fun t => t.cur.groups == [] && t.cur.reg 3 == 0 && t.cur.allot == 0) = true ∧
     gives (exec (.claim 3 6 0) s) (fun t => t.cur.groups == [0, 3] && t.cur.want == 0) = true) := by decide +kernel

/-- The row of the message queue that a packet takes beside one that waits. -/
theorem test_packet_row :
    (let p : Packet := ⟨0, 0, 0, 7, 0, true, [0x80, 5], 0⟩
     let s := home 13 [] fun s => { s.modCore 0 fun c => { c with msgs := [p] } with packets := [p] }
     gives (exec (.packetDelivery 0) s) (fun t => t.here.msgs == [p, { p with place := 1 }] && t.here.lm.rdBytes 0x7040 16 ==
       [0x80, 0, 0, 0, 0, 0, 0, 0, 5, 0, 0, 0, 0, 0, 0, 0]) = true) := by decide +kernel

/-- VSYNC handed inside an open run, which is cancelled; VPERM of v4 in a slot of 4 vector registers. -/
theorem test_met_VectorsAreRefused :
    (let s : State := { (issuing 0 0xD4000000#32).modSlot 0 0 fun x => { x with seq := [.one ⟨.vsync 0, 0, 0, false, [], none, 0⟩, .run 3 7 0 0 []] } with issuing := true }
     let u := (begun s).fetch.1
     (begun s).fetch.2 = .ok (0xD400000000000000#64, none) ∧ decodeGroup 0#32 0xD4000000#32 = .ok (.nopC, some (.vsync 0)) ∧
       u.cur.coupled = false ∧ u.lat.adone = false ∧ barredInRun (.vsync 0) = true ∧ runOpen u.cur.seq = true ∧ u.guard 0 = true ∧
       gives (step s) (fun t => t.cur.st == .saved) = true) ∧
    (let s := (issuing 0 0xAC811001#32).modSlot 0 0 fun x => { x with allot := 4, groups := [0] }
     let u := (begun s).fetch.1
     decodeGroup 0#32 0xAC811001#32 = .ok (.nopC, some (.vperm (v 4 1 2 0 0 0 1))) ∧ u.illAtIssue .nopC (some (.vperm (v 4 1 2 0 0 0 1))) = none ∧
       u.overAllot (some (.vperm (v 4 1 2 0 0 0 1))) = some 4 ∧ 4 ∈ vectorRegs (.vperm (v 4 1 2 0 0 0 1)) ∧ u.cur.allot ≤ 4 ∧
       gives (step s) (fun t => t.cur.st == .saved) = true) := by decide +kernel

/-- Lane results: VPERM by indices beyond VLEN, VRAND of seed and counter 0 (its lane 0 is the generator's first number), VIMASK of
[1, 0xFFFE], VDEC of code 1 and of scale 255, VENC of a NaN. -/
theorem test_lanes_permuted :
    gives (exec (.sequencerEntryRun 0 12) (lanes (.vperm (v 3 2 1 0 0 0 0)) 0 0)) (fun t => ((t.core 0).vreg 12 3) == List.replicate 32 0xFFFFFFFE) = true ∧
    gives (exec (.sequencerEntryRun 0 12) (lanes (.vperm (v 3 1 2 0 0 0 0)) 0 0)) (fun t => ((t.core 0).vreg 12 3) == List.replicate 32 0) = true ∧
    gives (exec (.sequencerEntryRun 0 12) (lanes (.vrand (v 3 0 0 0 0 0 1)) 0 0)) (fun t => ((t.core 0).vreg 12 3).getD 0 0 == 0xE220A839) = true ∧
    gives (exec (.sequencerEntryRun 0 12) (lanes (.vimask (v 3 1 5 0 0 0 1)) 0 0xFFFF)) (fun t =>
      ((t.core 0).vreg 12 3) == List.replicate 32 0xFFFFFFFF) = true ∧
    gives (exec (.sequencerEntryRun 0 12) (lanes (.vimask (v 3 1 5 0 0 0 1)) 0 0x1FFFF)) (fun t =>
      ((t.core 0).vreg 12 3) == List.replicate 32 0) = true := by decide +kernel

/-- VCVT to i32 saturates and to fp32 rounds; VDEC reads the table; VENC gives NaN its code. -/
theorem test_lanes_converted :
    gives (exec (.sequencerEntryRun 0 12) (lanes (.vcvt 0 (v 3 2 0 0 0 0 2)) 0 0)) (fun t => ((t.core 0).vreg 12 3).getD 0 0 == 0xC0000000) = true ∧
    gives (exec (.sequencerEntryRun 0 12) (lanes (.vcvt 0 (v 3 2 1 0 0 0 0)) 0 0)) (fun t => ((t.core 0).vreg 12 3).getD 0 0 == 0x7FFFFFFF) = true ∧
    gives (exec (.sequencerEntryRun 0 12) (lanes (.vdec 0 (v 3 1 0 0 0 0 2)) 0 0)) (fun t => ((t.core 0).vreg 12 3).getD 0 0 == 0) = true ∧
    gives (exec (.sequencerEntryRun 0 12) (lanes (.venc (v 3 2 0 0 0 0 2)) 0 0x155)) (fun t => ((t.core 0).vreg 12 3).getD 0 0 == 0x55) = true := by
  decide +kernel

/-- VSORT and VKSEL of v2:v3 and v0:v1, of one k that takes all and one that takes three; sums as integers. -/
theorem test_met_SortsAndSums :
    (let f (x : Slot) : Slot := { x with st := .reply, seqReply := true }
     min (3 : Nat) 4096 ≤ 32 ∧ (2 : Reg).toNat % 2 = 0 ∧
     gives (exec (.sequencerEntryRun 0 12) (lanes (.vsort 1 (v 4 2 9 0 0 0 0)) 0 0 f)) (fun t => (t.slot 0 12).reg 9 == 32 &&
       ((t.core 0).entries 12 4).map (·.1) == List.replicate 16 0x80000000 ++ List.replicate 16 0xFFFFFFFE) = true ∧
     gives (exec (.sequencerEntryRun 0 12) (lanes (.vksel 0 (v 4 2 9 0 0 0 0)) 3 0 f)) (fun t => (t.slot 0 12).reg 9 == 3 &&
       (((t.core 0).entries 12 4).map (·.1)).take 4 == [0, 0, 0, 0x80000000]) = true ∧
     gives (exec (.sequencerEntryRun 0 12) (lanes (.vred 0 (v 3 2 0 0 0 0 1)) 0 0 f)) (fun t => (t.slot 0 12).reg 3 == 0x17FFFFFFE0) = true) := by
  decide +kernel

/-- Exact values: 2^-149 and 2^127 of exp2, log2 of 2^-149, the reciprocal of 2^127, rsqrt of 4, tanh of -infinity. -/
theorem test_special_values :
    sfu 0xC3150000 0 = 1 ∧ sfu 0x42FE0000 0 = 0x7F000000 ∧ sfu 1 1 = 0xC3150000 ∧ sfu 0x7F000000 2 = 0x00400000 ∧ sfu 0x40800000 3 = 0x3F000000 ∧
    sfu 0xFF800000 4 = 0xBF800000 ∧ sfu 0x7FC00001 5 = 0x7FC00000 := by decide +kernel

/-- Queue 16,383 and 16,384; functions 510 and 511; the second PF's aperture; class 63 and ASID 4,095, and the numbers past them. -/
theorem test_met_Bounds :
    let s := queued [] 0 false
    gives (exec (.writeQueueDescriptor 16383 (1#512 <<< 99)) s) (fun t => (t.queue 16383).on) = true ∧
    gives (exec (.writeQueueDescriptor 16384 (1#512 <<< 99)) s) (fun t => t == s) = true ∧
    gives (exec (.bindQueueToVf 16383 510) s) (fun t => (t.queue 16383).vf == 510) = true ∧
    gives (exec (.bindQueueToVf 16383 511) s) (fun t => t == s) = true ∧
    gives (exec (.fillApertureWrite 511 40 9) s) (fun t => t.full (.mem 0x20FF0 false 0 0) && t.discarded == 0) = true ∧
    gives (exec (.fillApertureWrite 512 40 9) s) (fun t => t.discarded == 1) = true ∧
    gives (exec (.fillApertureWrite 2 131072 9) s) (fun t => t.discarded == 1) = true ∧
    gives (exec (.setDramCap 63 5) s) (fun t => (t.classCfg 63).cap == 5) = true ∧
    gives (exec (.setAsidRoot 4095 (some 0x1000)) s) (fun t => t.roots.contains (4095, 0x1000)) = true ∧
    gives (exec (.writeRouteEntry 255 (some 15) none) s) (fun t => t.routeTo 255 == some 15) = true := by decide +kernel

/-- A closing launch into whose partition an STG was accepted; a window of a launch that is not its queue's latest, and one
without work. -/
theorem test_met_ClosingAndClasses :
    (let l : Launch := { launch with closing := true }
     let seat : Seat := ⟨0, 0, 0x9000, 0x20000, 0x28000, 0, 0, [], 0x28800, 0, 0, 0, 0⟩
     let s : State := { State.reset with launches := [l], stgs := [⟨0, .ended, .lm 0 0x9000, 0xFE000000009000, 1, none⟩] }
     l.seats = [seat] ∧ s.storesTo seat = true ∧ gives (exec .equinoxSweep s) (fun t => t.launches == [l]) = true ∧
     gives (exec .equinoxSweep { s with stgs := [] }) (fun t => t.launches == []) = true) ∧
    (let s (latest steps : Nat) : State := { State.reset with
       queues := [(5, { Queue.reset with latest := latest })], launches := [{ launch with queue := 5, steps := steps, laneOps := 0, missed := 0 }] }
     gives (exec (.classifierWindow 7) (s 8 1)) (fun t => t.queues == (s 8 1).queues && t.launches.map (·.intensity) == [.compute]) = true ∧
     gives (exec (.classifierWindow 7) (s 7 0)) (fun t => t == s 7 0) = true) := by decide +kernel

end Sys2Proof.Tests
end

section
/-!
SUPPORT. The two directions of the encoding: what the encoder writes decodes to it, for every instruction at once, and packing
undoes unpacking, so that a word is its fields.
-/
namespace Sys2Proof.Laws.RoundTrip

/-- The lemmas of every instruction, taken together. -/
theorem statement_holds : ∀ i : Instr, Statement i
  | .nopC => nopC
  | .ld .. => ld _ _ _ _
  | .ldLone .. => ldLone _ _ _ _
  | .st .. => st _ _ _ _
  | .stLone .. => stLone _ _ _ _
  | .ldl .. => ldl _ _ _
  | .ldlLone .. => ldlLone _ _ _
  | .stl .. => stl _ _ _
  | .stlLone .. => stlLone _ _ _
  | .ldh .. => ldh _ _ _ _ _
  | .ldf .. => ldf _ _ _ _ _
  | .ldx .. => ldx _ _ _ _ _
  | .stf .. => stf _ _ _ _ _
  | .stfa .. => stfa _ _ _ _ _
  | .feclr .. => feclr _ _ _ _
  | .waitListBusyReissue .. => waitListBusyReissue _ _
  | .lq .. => lq _ _ _ _ _ _
  | .loadQueueRowFill .. => loadQueueRowFill _ _ _
  | .sq .. => sq _ _ _ _ _ _
  | .atom .. => atom _ _ _ _ _ _ _
  | .cas .. => cas _ _ _ _ _ _
  | .stg .. => stg _ _ _ _
  | .stgLone .. => stgLone _ _ _ _
  | .stgAcknowledgement .. => stgAcknowledgement _
  | .fence .. => fence _ _
  | .rflush .. => rflush _ _ _ _ _
  | .rinv .. => rinv _ _ _ _ _
  | .cacheWalk .. => cacheWalk _
  | .cld .. => cld _ _ _
  | .cst .. => cst _ _ _
  | .cnar .. => cnar _ _ _ _ _
  | .cgive .. => cgive _ _ _
  | .br .. => br _
  | .brLone .. => brLone _
  | .bc .. => bc _ _ _
  | .bcLone .. => bcLone _ _ _
  | .jal .. => jal _
  | .jalLone .. => jalLone _
  | .jr .. => jr _ _ _
  | .loop .. => loop _ _
  | .li .. => li _ _
  | .lih .. => lih _ _
  | .spawn .. => spawn _ _ _ _
  | .spawnLone .. => spawnLone _ _ _
  | .await .. => await _ _ _
  | .done .. => done _
  | .migrate .. => migrate _ _
  | .send .. => send _ _ _ _ _
  | .sende .. => sende _ _ _ _ _
  | .waitm .. => waitm _
  | .popm .. => popm _ _
  | .epushMat .. => epushMat _ _
  | .epushCopy .. => epushCopy _ _
  | .epop .. => epop _ _ _
  | .mma .. => mma _ _ _ _ _ _
  | .mmae .. => mmae _ _ _ _ _ _ _ _ _
  | .ringset .. => ringset _ _ _ _ _
  | .claim .. => claim _ _ _
  | .shrink .. => shrink _ _
  | .vallot .. => vallot _ _ _
  | .gang .. => gang _
  | .ungang .. => ungang _
  | .tdesc .. => tdesc _ _ _ _
  | .tback .. => tback _ _ _ _ _
  | .tbackLevel .. => tbackLevel _
  | .texp .. => texp _ _ _
  | .tfill .. => tfill _ _ _ _
  | .tseal .. => tseal _ _ _
  | .trec .. => trec _ _ _
  | .tabort .. => tabort _ _ _ _
  | .tabortUnwind .. => tabortUnwind _
  | .tform .. => tform _ _ _ _
  | .lzres .. => lzres _ _ _ _ _
  | .lzexp .. => lzexp _ _ _ _
  | .lzwait .. => lzwait _ _ _
  | .lzfree .. => lzfree _ _ _
  | .lzcfg .. => lzcfg _ _ _
  | .lzstat .. => lzstat _ _ _
  | .csrr .. => csrr _ _
  | .csrw .. => csrw _ _
  | .openWalk .. => openWalk _
  | .adoptWalk .. => adoptWalk _
  | .ticketClear .. => ticketClear _
  | .trap .. => trap _ _
  | .eret .. => eret _
  | .yield .. => yield _
  | .asfl .. => asfl _ _
  | .asbar .. => asbar _
  | .couple .. => couple _
  | .uncouple .. => uncouple _
  | .wake .. => wake _ _
  | .almr .. => almr _ _ _
  | .almw .. => almw _ _ _
  | .dtrd .. => dtrd _ _ _
  | .dtwr .. => dtwr _ _ _
  | .nopA => nopA
  | .add .. => add _ _ _ _
  | .sub .. => sub _ _ _ _
  | .addi .. => addi _ _ _
  | .mul .. => mul _ _ _ _
  | .mulh .. => mulh _ _ _ _ _
  | .div .. => div _ _ _ _
  | .divu .. => divu _ _ _ _
  | .rem .. => rem _ _ _ _
  | .remu .. => remu _ _ _ _
  | .and .. => and _ _ _ _
  | .andn .. => andn _ _ _ _
  | .or .. => or _ _ _ _
  | .xor .. => xor _ _ _ _
  | .shl .. => shl _ _ _ _
  | .shlImm .. => shlImm _ _ _ _
  | .shr .. => shr _ _ _ _
  | .shrImm .. => shrImm _ _ _ _
  | .sar .. => sar _ _ _ _
  | .sarImm .. => sarImm _ _ _ _
  | .min .. => min _ _ _ _
  | .max .. => max _ _ _ _
  | .minu .. => minu _ _ _ _
  | .maxu .. => maxu _ _ _ _
  | .cmp .. => cmp _ _ _ _ _
  | .sel .. => sel _ _ _ _ _
  | .bits .. => bits _ _ _ _
  | .ext .. => ext _ _ _ _ _
  | .extS .. => extS _ _ _ _ _
  | .ins .. => ins _ _ _ _ _
  | .fadd .. => fadd _ _ _ _
  | .fsub .. => fsub _ _ _ _
  | .fmul .. => fmul _ _ _ _
  | .fma .. => fma _ _ _ _ _
  | .fms .. => fms _ _ _ _ _
  | .fmin .. => fmin _ _ _ _
  | .fmax .. => fmax _ _ _ _
  | .fcmp .. => fcmp _ _ _ _ _
  | .fcvt .. => fcvt _ _ _ _ _
  | .vadd .. => vadd _
  | .vsub .. => vsub _
  | .vmul .. => vmul _
  | .vfma .. => vfma _
  | .vmin .. => vmin _
  | .vmax .. => vmax _
  | .vcmp .. => vcmp _ _
  | .vsel .. => vsel _
  | .vred .. => vred _ _
  | .vcvt .. => vcvt _ _
  | .vdec .. => vdec _ _
  | .venc .. => venc _
  | .vscl .. => vscl _
  | .vperm .. => vperm _
  | .vbcast .. => vbcast _
  | .vextr .. => vextr _
  | .vidx .. => vidx _
  | .vloop .. => vloop _ _ _
  | .vsfu .. => vsfu _
  | .vsort .. => vsort _ _
  | .vksel .. => vksel _ _
  | .vrand .. => vrand _
  | .vimask .. => vimask _
  | .vsync .. => vsync _
  | .issueTurn .. => issueTurn _
  | .rank1Step .. => rank1Step _
  | .rotationBoundary => rotationBoundary
  | .preemptTimerExpiry .. => preemptTimerExpiry _ _
  | .preEmption .. => preEmption _ _
  | .pktHoldTimeout .. => pktHoldTimeout _ _
  | .resumption .. => resumption _ _
  | .translationWalk .. => translationWalk _ _
  | .wokenContextRestore .. => wokenContextRestore _ _
  | .steal .. => steal _ _
  | .takeArrival .. => takeArrival _ _
  | .replyWritten .. => replyWritten _ _ _
  | .storePerformed .. => storePerformed _
  | .packetDelivery .. => packetDelivery _
  | .handlerStart .. => handlerStart _
  | .arrivalRecordAccept .. => arrivalRecordAccept _
  | .equinoxSweep => equinoxSweep
  | .queueTailTake .. => queueTailTake _
  | .launchPlacement .. => launchPlacement _
  | .classifierWindow .. => classifierWindow _
  | .sequencerEntryRun .. => sequencerEntryRun _ _
  | .sfuRequestServe .. => sfuRequestServe _
  | .copyCommandStart .. => copyCommandStart _
  | .commandCompletion .. => commandCompletion _
  | .multicastPieceDrain .. => multicastPieceDrain _
  | .arrivalUnit .. => arrivalUnit _
  | .intervalEnd .. => intervalEnd _ _
  | .flitReplay .. => flitReplay _
  | .laneMarginStepDown .. => laneMarginStepDown _
  | .laneTrainingFailure .. => laneTrainingFailure _ _
  | .linkDown .. => linkDown _
  | .powerSample .. => powerSample _
  | .ageingSensorUpdate .. => ageingSensorUpdate _ _ _
  | .dramBatchMark .. => dramBatchMark _
  | .dramCapWindow => dramCapWindow
  | .llcEviction .. => llcEviction _
  | .coldReset .. => coldReset _ _ _
  | .functionLevelReset .. => functionLevelReset _
  | .fillApertureWrite .. => fillApertureWrite _ _ _
  | .spdmAttestation .. => spdmAttestation _
  | .setWayMasks .. => setWayMasks _ _ _
  | .setDramCap .. => setDramCap _ _
  | .setVcWeights .. => setVcWeights _ _ _ _ _
  | .writeKeySlot .. => writeKeySlot _ _
  | .writeRouteEntry .. => writeRouteEntry _ _ _
  | .writeQueueDescriptor .. => writeQueueDescriptor _ _
  | .setTenantAreas .. => setTenantAreas _ _
  | .setAsidRoot .. => setAsidRoot _ _
  | .setPowerCap .. => setPowerCap _
  | .takeLinkDown .. => takeLinkDown _
  | .retrainLink .. => retrainLink _
  | .supervisorPreempt .. => supervisorPreempt _ _
  | .releaseKilledSlot .. => releaseKilledSlot _ _
  | .abortLaunch .. => abortLaunch _
  | .injectPreempt .. => injectPreempt _ _
  | .injectEcc .. => injectEcc _ _
  | .setBreakpoint .. => setBreakpoint _ _ _
  | .setAgeingThreshold .. => setAgeingThreshold _
  | .ageingWarnClear .. => ageingWarnClear _ _
  | .atsInvalidation .. => atsInvalidation _ _
  | .bindQueueToVf .. => bindQueueToVf _ _

end Sys2Proof.Laws.RoundTrip

namespace Sys2Proof
open BitVec (extractLsb'_append_extractLsb'_eq_extractLsb' extractLsb'_eq_self)

/-! ## Words that the encoder writes -/

theorem decodeC_of_encode {i : Instr} {w : Half} (hi : WellFormed i = true) (h : encode i = .c w) :
    decodeC w = some (asDecoded i) := by
  simpa [h, decode] using Laws.RoundTrip.statement_holds i hi

theorem decodeLone_of_encode {i : Instr} {w ext : Half} (hi : WellFormed i = true) (h : encode i = .lone w ext) :
    decodeLone w ext = some (asDecoded i) := by
  simpa [h, decode] using Laws.RoundTrip.statement_holds i hi

theorem decodeA_of_encode {i : Instr} {w : Half} (hi : WellFormed i = true) (h : encode i = .a w) :
    decodeA w = some (asDecoded i) := by
  simpa [h, decode] using Laws.RoundTrip.statement_holds i hi

/-- Only CSRW of TICKET, a C-slot word, is decoded to another instruction than the one encoded. -/
theorem asDecoded_of_encode_ne_c {i : Instr} (h : ∀ w, encode i ≠ .c w) : asDecoded i = i := by
  unfold asDecoded
  split
  · exact absurd rfl (h _)
  · exact absurd rfl (h _)
  · rfl

theorem getLsbD_of_decodeC {w : Half} {i : Instr} (h : decodeC w = some i) : w.getLsbD 31 = false := by
  unfold decodeC at h
  split at h
  · cases h
  · exact Bool.eq_false_of_not_eq_true ‹_›

theorem getLsbD_of_decodeLone {w ext : Half} {i : Instr} (h : decodeLone w ext = some i) : w.getLsbD 31 = true := by
  unfold decodeLone at h
  split at h
  · assumption
  · cases h

/-- A group whose two words decode is the pair, unless both write one register (R48). -/
theorem decodeGroup_pair {w0 w1 : Half} {c a : Instr} (hc : decodeC w0 = some c) (ha : decodeA w1 = some a)
    (hclash : writesClash c a = false) : decodeGroup w0 w1 = .ok (c, some a) := by
  simp only [decodeGroup, getLsbD_of_decodeC hc, hc, ha, hclash, Bool.false_eq_true, if_false]

theorem decodeGroup_lone {w0 ext : Half} {c : Instr} (hc : decodeLone w0 ext = some c) :
    decodeGroup w0 ext = .ok (c, none) := by
  simp only [decodeGroup, getLsbD_of_decodeLone hc, hc, if_true]

/-! ## Packing undoes unpacking -/

theorem CR.pack_unpack (w : Half) : (unpack w).pack = w := by
  simp only [unpack, pack]
  repeat rw [extractLsb'_append_extractLsb'_eq_extractLsb' (by decide)]
  exact extractLsb'_eq_self

theorem CI.pack_unpack (w : Half) : (unpack w).pack = w := by
  simp only [unpack, pack]
  repeat rw [extractLsb'_append_extractLsb'_eq_extractLsb' (by decide)]
  exact extractLsb'_eq_self

theorem CF.pack_unpack (w : Half) : (unpack w).pack = w := by
  simp only [unpack, pack]
  repeat rw [extractLsb'_append_extractLsb'_eq_extractLsb' (by decide)]
  exact extractLsb'_eq_self

theorem CA.pack_unpack (w : Half) : (unpack w).pack = w := by
  simp only [unpack, pack]
  repeat rw [extractLsb'_append_extractLsb'_eq_extractLsb' (by decide)]
  exact extractLsb'_eq_self

theorem CB.pack_unpack (w : Half) : (unpack w).pack = w := by
  simp only [unpack, pack]
  repeat rw [extractLsb'_append_extractLsb'_eq_extractLsb' (by decide)]
  exact extractLsb'_eq_self

theorem AF.pack_unpack (w : Half) : (unpack w).pack = w := by
  simp only [unpack, pack]
  repeat rw [extractLsb'_append_extractLsb'_eq_extractLsb' (by decide)]
  exact extractLsb'_eq_self

theorem AI.pack_unpack (w : Half) : (unpack w).pack = w := by
  simp only [unpack, pack]
  repeat rw [extractLsb'_append_extractLsb'_eq_extractLsb' (by decide)]
  exact extractLsb'_eq_self

/-! A word is packed from given fields exactly when these are the fields it unpacks to. -/

theorem CR.pack_eq_iff {l cop d a b c g minor w} : pack ⟨l, cop, d, a, b, c, g, minor⟩ = w ↔
    w.extractLsb' 31 1 = l ∧ copOf w = cop ∧ (unpack w).d = d ∧ (unpack w).a = a ∧ (unpack w).b = b ∧ (unpack
      w).c = c ∧ (unpack w).g = g ∧ (unpack w).minor = minor := by
  constructor
  · rintro rfl
    exact mk.inj (unpack_pack _)
  · rintro ⟨rfl, rfl, rfl, rfl, rfl, rfl, rfl, rfl⟩
    exact pack_unpack w

theorem CI.pack_eq_iff {l cop d a c imm w} : pack ⟨l, cop, d, a, c, imm⟩ = w ↔
    w.extractLsb' 31 1 = l ∧ copOf w = cop ∧ (unpack w).d = d ∧ (unpack w).a = a ∧ (unpack w).c = c ∧ (unpack
      w).imm = imm := by
  constructor
  · rintro rfl
    exact mk.inj (unpack_pack _)
  · rintro ⟨rfl, rfl, rfl, rfl, rfl, rfl⟩
    exact pack_unpack w

theorem CF.pack_eq_iff {l cop d a c m minor imm w} : pack ⟨l, cop, d, a, c, m, minor, imm⟩ = w ↔
    w.extractLsb' 31 1 = l ∧ copOf w = cop ∧ (unpack w).d = d ∧ (unpack w).a = a ∧ (unpack w).c = c ∧ (unpack
      w).m = m ∧ (unpack w).minor = minor ∧ (unpack w).imm = imm := by
  constructor
  · rintro rfl
    exact mk.inj (unpack_pack _)
  · rintro ⟨rfl, rfl, rfl, rfl, rfl, rfl, rfl, rfl⟩
    exact pack_unpack w

theorem CA.pack_eq_iff {l cop d a b c ord size op w} : pack ⟨l, cop, d, a, b, c, ord, size, op⟩ = w ↔
    w.extractLsb' 31 1 = l ∧ copOf w = cop ∧ (unpack w).d = d ∧ (unpack w).a = a ∧ (unpack w).b = b ∧ (unpack
      w).c = c ∧ (unpack w).ord = ord ∧ (unpack w).size = size ∧ (unpack w).op = op := by
  constructor
  · rintro rfl
    exact mk.inj (unpack_pack _)
  · rintro ⟨rfl, rfl, rfl, rfl, rfl, rfl, rfl, rfl, rfl⟩
    exact pack_unpack w

theorem CB.pack_eq_iff {l cop p sense disp w} : pack ⟨l, cop, p, sense, disp⟩ = w ↔
    w.extractLsb' 31 1 = l ∧ copOf w = cop ∧ (unpack w).p = p ∧ (unpack w).sense = sense ∧ (unpack w).disp =
      disp := by
  constructor
  · rintro rfl
    exact mk.inj (unpack_pack _)
  · rintro ⟨rfl, rfl, rfl, rfl, rfl⟩
    exact pack_unpack w

theorem AF.pack_eq_iff {aop d a b e g minor w} : pack ⟨aop, d, a, b, e, g, minor⟩ = w ↔
    aopOf w = aop ∧ (unpack w).d = d ∧ (unpack w).a = a ∧ (unpack w).b = b ∧ (unpack w).e = e ∧ (unpack w).g = g
      ∧ (unpack w).minor = minor := by
  constructor
  · rintro rfl
    exact mk.inj (unpack_pack _)
  · rintro ⟨rfl, rfl, rfl, rfl, rfl, rfl, rfl⟩
    exact pack_unpack w

theorem AI.pack_eq_iff {aop d a imm w} : pack ⟨aop, d, a, imm⟩ = w ↔
    aopOf w = aop ∧ (unpack w).d = d ∧ (unpack w).a = a ∧ (unpack w).imm = imm := by
  constructor
  · rintro rfl
    exact mk.inj (unpack_pack _)
  · rintro ⟨rfl, rfl, rfl, rfl⟩
    exact pack_unpack w

/-! ## Fields made of smaller ones, and what a zero part of one says -/

theorem fence_minor_iff : ∀ m : BitVec 4, m = 0#2 ++ m.extractLsb' 0 2 ↔ m.ult 4#4 = true := by decide

theorem bit_minor_iff : ∀ m : BitVec 4, m = 0#3 ++ m.extractLsb' 0 1 ↔ m.ult 2#4 = true := by decide

theorem lzres_minor_iff : ∀ m : BitVec 4, m = 0#1 ++ m.extractLsb' 2 1 ++ m.extractLsb' 0 2 ↔ m.ult 8#4 = true := by decide

theorem send_minor_iff : ∀ (m : BitVec 4) (x : BitVec 1),
    m = m.extractLsb' 2 2 ++ m.extractLsb' 1 1 ++ x ↔ m.extractLsb' 0 1 = x := by decide

theorem pair_minor_eq : ∀ m : BitVec 4, m.extractLsb' 2 2 ++ m.extractLsb' 0 2 = m := by decide

theorem three_bits_eq : ∀ c : BitVec 3, c.extractLsb' 2 1 ++ c.extractLsb' 1 1 ++ c.extractLsb' 0 1 = c := by decide

theorem csr_imm_iff (x : BitVec 2) (m : BitVec 12) : m = x ++ m.extractLsb' 0 10 ↔ m.extractLsb' 10 2 = x := by
  constructor
  · intro h
    rw [h]
    exact (csr_field x _).2
  · rintro rfl
    rw [extractLsb'_append_extractLsb'_eq_extractLsb' (by decide)]
    exact extractLsb'_eq_self.symm

theorem pred_d_iff : ∀ d : BitVec 5, d = 0#2 ++ d.extractLsb' 0 3 ↔ d.ult 8#5 = true := by decide

theorem rnd_e_iff : ∀ e : BitVec 5, e = 0#3 ++ e.extractLsb' 0 2 ↔ e.ult 4#5 = true := by decide

theorem run_e_iff : ∀ e : BitVec 5, e = 0#1 ++ e.extractLsb' 0 4 ↔ e.ult 16#5 = true := by decide

theorem cond_minor_iff : ∀ m : BitVec 3, m = 0#1 ++ m.extractLsb' 0 2 ↔ m.ult 4#3 = true := by decide

theorem sub_half_iff : ∀ e : BitVec 5, e.extractLsb' 0 2 = 0#1 ++ e.extractLsb' 0 1 ↔ e.getLsbD 1 = false := by decide

theorem shift_count_eq : ∀ (b : BitVec 1) (e : BitVec 5),
    (b ++ e : BitVec 6).extractLsb' 0 5 = e ∧ shiftMinor (b ++ e) = 1#2 ++ b := by decide

theorem vop_e_iff : ∀ (e : BitVec 5) (sub : BitVec 2),
    e = e.extractLsb' 4 1 ++ e.extractLsb' 3 1 ++ e.extractLsb' 2 1 ++ sub ↔ e.extractLsb' 0 2 = sub := by decide

theorem av_vop_eq_iff {aop sub w} : av aop sub (AF.unpack w).vop = .a w ↔
    aopOf w = aop ∧ (AF.unpack w).e.extractLsb' 0 2 = sub := by
  simp [av, AF.vop, AF.pack_eq_iff, vop_e_iff]

/-! ## Words that the decoder reads are the encoder's -/

theorem forall_mem_when0 {p : Bool} {j : Instr} {P : Instr → Prop} : (∀ i ∈ when0 p j, P i) ↔ (p = true → P j) := by
  cases p <;> simp [when0]

theorem encode_send_or_sende (x : BitVec 1) (a b : Reg) (g : PredIx) (ch : BitVec 2) (h : BitVec 1) :
    encode (if x = 0#1 then .send a b g ch h else .sende a b g ch h) = cr 0x1A 0 a b 0 g (ch ++ h ++ x) := by
  obtain rfl | rfl : x = 0#1 ∨ x = 1#1 := by revert x; decide
  · rfl
  · rfl

theorem encode_openWalk_or_csrw (a : Reg) (n : BitVec 10) :
    encode (if n = 0x00A#10 then .openWalk a else .csrw a n) = ci 0x2B 0 a 0 (2#2 ++ n) := by
  split
  · subst n; rfl
  · rfl

/-- Each row of the C-slot map checks that the fields its instruction does not hold are what the encoder writes there. -/
theorem encode_of_rawCAt (w : Half) (op : BitVec 6) (hl : w.extractLsb' 31 1 = 0#1) (hop : copOf w = op) :
    ∀ i ∈ rawCAt w op, encode i = .c w := by
  fun_cases rawCAt w op
  all_goals
    simp only [forall_mem_when0, Option.mem_some_iff, forall_eq', Option.not_mem_none, false_imp_iff, implies_true,
      encode_send_or_sende, encode_openWalk_or_csrw, CR.unused, Bool.not_true, Bool.not_false, Bool.false_or, Bool.true_or,
      Bool.true_and, Bool.and_true, Bool.and_eq_true, beq_iff_eq]
  all_goals try intro h
  all_goals
    try simp only [encode, cr, ci, cf, ca, cb, CR.pack_eq_iff, CI.pack_eq_iff, CF.pack_eq_iff, CA.pack_eq_iff, CB.pack_eq_iff,
      Code.c.injEq]
  all_goals
    simp +zetaDelta [*, fence_minor_iff, bit_minor_iff, lzres_minor_iff, send_minor_iff, pair_minor_eq, three_bits_eq,
      csr_imm_iff]

theorem encode_of_rawLoneAt (w ext : Half) (op : BitVec 6) (hl : w.extractLsb' 31 1 = 1#1) (hop : copOf w = op) :
    ∀ i ∈ rawLoneAt w ext op, encode i = .lone w ext := by
  fun_cases rawLoneAt w ext op
  all_goals
    simp only [forall_mem_when0, Option.not_mem_none, false_imp_iff, implies_true, CR.unused, Bool.not_true, Bool.not_false,
      Bool.false_or, Bool.true_or, Bool.and_true, Bool.and_eq_true, beq_iff_eq]
  all_goals
    intro h
    simp only [encode, loneCI, loneCB, CR.pack_eq_iff, CI.pack_eq_iff, CB.pack_eq_iff, Code.lone.injEq]
    simp +zetaDelta [*]

theorem encode_of_rawAAt (w : Half) (op : BitVec 6) (sub : BitVec 2) (e0 : Bool) (hop : aopOf w = op)
    (hsub : (AF.unpack w).e.extractLsb' 0 2 = sub) (he0 : e0 = ((AF.unpack w).e == 0#5)) :
    ∀ i ∈ rawAAt w (AF.unpack w) sub e0 op, encode i = .a w := by
  fun_cases rawAAt w (AF.unpack w) sub e0 op
  all_goals
    simp only [forall_mem_when0, Option.not_mem_none, Option.mem_some_iff, forall_eq', false_imp_iff, implies_true,
      Bool.and_eq_true, beq_iff_eq, he0]
  all_goals try intro h
  all_goals
    try simp only [encode, av_vop_eq_iff, af, AF.pack_eq_iff, AI.pack_eq_iff, Code.a.injEq, pred_d_iff, rnd_e_iff, run_e_iff,
      cond_minor_iff, sub_half_iff, shift_count_eq]
  all_goals simp +zetaDelta [-BitVec.getLsbD_eq_getElem, *]

theorem extractLsb'_31_eq {w : Half} {b : Bool} (h : w.getLsbD 31 = b) : w.extractLsb' 31 1 = BitVec.ofBool b := by
  ext i hi
  obtain rfl : i = 0 := by omega
  simpa using h

theorem encode_of_decode {w : Code} {i : Instr} (h : decode w = some i) : WellFormed i = true ∧ encode i = w := by
  cases w with
  | c w =>
    have hl := getLsbD_of_decodeC h
    simp only [decode, decodeC, hl, Bool.false_eq_true, if_false, Option.filter_eq_some_iff] at h
    exact ⟨h.2, encode_of_rawCAt w _ (extractLsb'_31_eq hl) rfl i h.1⟩
  | lone w ext =>
    have hl := getLsbD_of_decodeLone h
    simp only [decode, decodeLone, hl, if_true, Option.filter_eq_some_iff] at h
    exact ⟨h.2, encode_of_rawLoneAt w ext _ (extractLsb'_31_eq hl) rfl i h.1⟩
  | a w =>
    simp only [decode, decodeA, Option.filter_eq_some_iff] at h
    exact ⟨h.2, encode_of_rawAAt w _ _ _ rfl rfl rfl i h.1⟩
  | none => cases h

end Sys2Proof

namespace Sys2Proof.Proofs

/-- Settles O2: the encoder's words decode to what was encoded, in both slots, and the pair stands unless they clash. -/
theorem encodedGroupsDecode : Obligations.EncodedGroupsDecode := by
  constructor
  · intro c a w0 w1 hc ha hcw haw hclash
    have hdec : decodeA w1 = some a := by
      rw [decodeA_of_encode ha haw, asDecoded_of_encode_ne_c (by simp [haw])]
    exact decodeGroup_pair (decodeC_of_encode hc hcw) hdec hclash
  · intro c w0 ext hc hcw
    have hdec := decodeLone_of_encode hc hcw
    rw [asDecoded_of_encode_ne_c (by simp [hcw])] at hdec
    exact decodeGroup_lone hdec

/-- Settles O3: a word is its fields, and each row of the maps checks the fields its instruction does not hold. -/
theorem legalWordsAreCanonical : Obligations.LegalWordsAreCanonical :=
  fun _ _ h => encode_of_decode h

end Sys2Proof.Proofs
end

section
/-!
SUPPORT. The register files (R55): what a change of the current slot leaves alone, and predicates read after they are written.
-/
namespace Sys2Proof.Machine

open Sys2Proof

/-! ## Memory after a change of a slot -/

@[simp] theorem State.lm_modSlot (s : State) (c k : Nat) (f : Slot → Slot) (n : Nat) :
    ((s.modSlot c k f).core n).lm = (s.core n).lm := by
  by_cases h : c = n
  · subst h; simp [State.core_modSlot, Core.setSlot]
  · rw [State.core_modSlot_other s k f h]

theorem sameMemory_refl (s : State) : SameMemory s s := ⟨fun _ => rfl, fun _ _ => rfl⟩

theorem SameMemory.trans {r s t : State} (h : SameMemory r s) (h' : SameMemory s t) : SameMemory r t :=
  ⟨fun pa => (h'.1 pa).trans (h.1 pa), fun core off => (h'.2 core off).trans (h.2 core off)⟩

/-- The memory of a state is its `mem` and the local memories of its cores. -/
theorem sameMemory_of_mem_lm {s t : State} (hm : t.mem = s.mem) (hl : ∀ n, (t.core n).lm = (s.core n).lm) : SameMemory s t :=
  ⟨fun pa => by rw [byteAt, hm, byteAt], fun core off => by rw [localByteAt, hl, localByteAt]⟩

theorem sameMemory_modCur (s : State) (f : Slot → Slot) : SameMemory s (s.modCur f) :=
  sameMemory_of_mem_lm rfl fun n => State.lm_modSlot s _ _ f n

theorem State.slot_modCur_other (s : State) (f : Slot → Slot) {core k : Nat} (h : (core, k) ≠ (s.curCore, s.curSlot)) :
    (s.modCur f).slot core k = s.slot core k := by
  rw [State.modCur, State.slot_modSlot, if_neg]
  rintro ⟨rfl, rfl, -⟩
  exact h rfl

/-- A change of the current slot to what it is leaves every slot's contents as they were. -/
theorem State.cur_modCur_of_eq (s : State) (f : Slot → Slot) (h : f s.cur = s.cur) : (s.modCur f).cur = s.cur := by
  show (s.modSlot _ _ f).slot _ _ = _
  rw [State.slot_modSlot]
  split
  · exact h
  · rfl

/-! ## Registers and predicates (R55) -/

@[simp] theorem Slot.setReg_zero (x : Slot) (v : Word) : x.setReg 0#5 v = x := by simp [Slot.setReg]

@[simp] theorem Slot.setPred_zero (x : Slot) (v : Bool) : x.setPred 0#3 v = x := by simp [Slot.setPred]

@[simp] theorem Slot.reg_zero (x : Slot) : x.reg 0#5 = 0 := by simp [Slot.reg]

@[simp] theorem Slot.pred_zero (x : Slot) : x.pred 0#3 = true := by simp [Slot.pred]

theorem Slot.pred_congr {x y : Slot} (h : x.p = y.p) (q : PredIx) : x.pred q = y.pred q := by simp [Slot.pred, h]

theorem Slot.reg_congr {x y : Slot} (h : x.s = y.s) (q : Reg) : x.reg q = y.reg q := by simp [Slot.reg, h]

/-- A predicate written reads the value, but for p0, which reads 1; every other predicate reads as before. -/
theorem Slot.pred_setPred (x : Slot) (r : PredIx) (v : Bool) (q : PredIx) :
    (x.setPred r v).pred q = if q = 0#3 then true else if q = r then v else x.pred q := by
  by_cases hq : q = 0#3
  · simp [hq]
  by_cases hr : r = 0#3
  · subst hr
    simp [hq]
  have hq8 : q.toNat < 8 := q.isLt
  by_cases h : q = r
  · subst h
    cases v <;> simp [Slot.pred, Slot.setPred, hq, hq8]
  · obtain hlt | hlt : q.toNat < r.toNat ∨ r.toNat < q.toNat :=
      Nat.lt_or_gt_of_ne fun e => h (BitVec.eq_of_toNat_eq e)
    · cases v <;> simp [Slot.pred, Slot.setPred, hq, hr, h, hq8, hlt]
    · have hsub : q.toNat - r.toNat ≠ 0 := by omega
      cases v <;> simp [Slot.pred, Slot.setPred, hq, hr, h, hq8, hsub]

end Sys2Proof.Machine

namespace Sys2Proof.Proofs
open Sys2Proof.Machine

/-- Settles O9: a write of a register is a change of the current slot alone, which reads it back. -/
theorem registerFilesReadWhatWasWritten : Obligations.RegisterFilesReadWhatWasWritten := by
  intro s r v p b hs
  have hr : (s.setReg r v).cur = s.cur.setReg r v := State.cur_modCur s _ hs
  have hp : (s.setPred p b).cur = s.cur.setPred p b := State.cur_modCur s _ hs
  refine ⟨⟨by simp [State.src], by simp [State.psrc], Slot.reg_zero _, Slot.pred_zero _⟩, ?_, ?_, ?_, ?_, ?_, ?_, ?_, ?_, ?_, ?_⟩
  · exact State.cur_modCur_of_eq s _ (Slot.setReg_zero _ v)
  · exact State.cur_modCur_of_eq s _ (Slot.setPred_zero _ b)
  · intro (h : r ≠ 0#5)
    rw [hr, Slot.reg_setReg, if_neg h, if_pos rfl]
  · intro (h : p ≠ 0#3)
    rw [hp, Slot.pred_setPred, if_neg h, if_pos rfl]
  · intro q hq
    rw [hr, Slot.reg_setReg, if_neg hq]
    split
    · subst q; exact (Slot.reg_zero _).symm
    · rfl
  · intro q hq
    rw [hp, Slot.pred_setPred, if_neg hq]
    split
    · subst q; exact (Slot.pred_zero _).symm
    · rfl
  · intro q
    rw [hr]
    exact Slot.pred_congr (by simp) q
  · intro q
    rw [hp]
    exact Slot.reg_congr (by simp) q
  · exact ⟨by simp [hr], by simp [hr], by simp [hr], sameMemory_modCur s _, fun _ _ _ => State.slot_modCur_other s _⟩
  · exact ⟨by simp [hp], by simp [hp], by simp [hp], sameMemory_modCur s _, fun _ _ _ => State.slot_modCur_other s _⟩

end Sys2Proof.Proofs
end

section
/-!
SUPPORT. What a scalar instruction of the A-slot can do, said once: nothing, or a register of the current slot written, or that and
flags joined to STATUS; and every guarded instruction without its guard.
-/
namespace Sys2Proof.Machine

open Sys2Proof

/-! ## One change after another -/

theorem Sparse.put_put {α : Type} (m : Sparse α) (k : Nat) (v w : α) : (m.put k v).put k w = m.put k w := by
  induction m with
  | nil => simp [Sparse.put]
  | cons h t ih =>
    obtain ⟨k', v'⟩ := h
    by_cases hlt : k' < k
    · simp [Sparse.put, hlt, ih]
    · by_cases heq : k' = k
      · simp [Sparse.put, heq]
      · simp [Sparse.put, hlt, heq]

theorem Core.setSlot_setSlot (c : Core) (k : Nat) (x y : Slot) : (c.setSlot k x).setSlot k y = c.setSlot k y := by
  simp only [Core.setSlot]
  congr 1
  ext i hi
  simp only [Vector.getElem_setIfInBounds]
  split <;> rfl

theorem State.setCore_setCore (s : State) (n : Nat) (c d : Core) : (s.setCore n c).setCore n d = s.setCore n d := by
  simp only [State.setCore, Sparse.put_put]

theorem State.setSlot_setSlot (s : State) (c k : Nat) (x y : Slot) : (s.setSlot c k x).setSlot c k y = s.setSlot c k y := by
  simp only [State.setSlot, State.core_setCore_same, State.setCore_setCore, Core.setSlot_setSlot]

/-- Two changes of the current slot are one. -/
theorem State.modCur_modCur (s : State) (f g : Slot → Slot) (h : s.curSlot < 16) :
    (s.modCur f).modCur g = s.modCur fun x => g (f x) := by
  show (s.setSlot s.curCore s.curSlot (f s.cur)).setSlot s.curCore s.curSlot (g (s.modCur f).cur) = _
  rw [State.cur_modCur s f h, State.setSlot_setSlot]
  rfl

/-! ## Guards (R50) -/

theorem handEntry_false {g : PredIx} {s : State} (h : s.guard g = false) (op : Instr) (x y : Word) :
    handEntry g op x y s = .next s := by
  simp [handEntry, h]

theorem handScalar_false {g : PredIx} {s : State} (h : s.guard g = false) (op : Instr) (x y : Word) :
    handScalar g op x y s = .next s := by
  simp [handScalar, h]

/-- Without its guard an instruction has no effect: each of the common forms asks for the guard before anything else. -/
theorem exec_of_guard_false {i : Instr} {g : PredIx} {s : State} (hi : guardOf i = some g) (h : s.guard g = false) :
    exec i s = .next s := by
  cases i <;> cases hi
  case spawn => exact if_neg (by simp [h])
  case cmp => exact predIf_false h _ _
  case fcmp | fadd | fsub | fmul | fma | fms | fmin | fmax | fcvt => exact congrArg _ (if_neg (by simp [h]))
  case vadd | vsub | vmul | vfma | vmin | vmax | vcmp | vsel | vcvt | vdec | venc | vscl | vperm | vbcast | vidx | vsfu | vrand
      | vimask => exact handEntry_false h _ _ _
  case vred | vextr | vsort | vksel | vsync => exact handScalar_false h _ _ _
  case add | sub | mul | mulh | div | divu | rem | remu | and | andn | or | xor | shl | shlImm | shr | shrImm | sar | sarImm
      | min | max | minu | maxu | sel | bits | ext | extS | ins => exact writeIf_false h _ _
  all_goals exact guarded_false h _

/-! ## Scalar instructions of the A-slot -/

/-- The outcomes of a scalar instruction of the A-slot: no effect; its register written; its register written and flags joined. -/
inductive ScalarOutcome (i : Instr) (s : State) : State → Prop where
  | none : ScalarOutcome i s s
  | reg (d : Reg) (v : Word) (hd : destinations i = [d.toNat]) : ScalarOutcome i s (s.setReg d v)
  | pred (p : PredIx) (v : Bool) (hp : destinations i = [32 + p.toNat]) : ScalarOutcome i s (s.setPred p v)
  | regFlags (d : Reg) (v : Word) (f : RFlags) (hd : destinations i = [d.toNat]) (hf : floatA i = true) :
      ScalarOutcome i s ((s.setReg d v).raise f)
  | predFlags (p : PredIx) (v : Bool) (f : RFlags) (hp : destinations i = [32 + p.toNat]) (hf : floatA i = true) :
      ScalarOutcome i s ((s.setPred p v).raise f)

theorem ScalarOutcome.of_writeIf {i : Instr} {s t : State} {g : PredIx} {d : Reg} {v : Word}
    (hd : destinations i = [d.toNat]) (h : writeIf g d v s = .next t) : ScalarOutcome i s t := by
  cases h
  split
  · exact .reg d v hd
  · exact .none

theorem ScalarOutcome.of_predIf {i : Instr} {s t : State} {g p : PredIx} {v : Bool}
    (hp : destinations i = [32 + p.toNat]) (h : predIf g p v s = .next t) : ScalarOutcome i s t := by
  cases h
  split
  · exact .pred p v hp
  · exact .none

theorem ScalarOutcome.of_fpIf {i : Instr} {s t : State} {g : PredIx} {d : Reg} {r : Nat × RFlags}
    (hd : destinations i = [d.toNat]) (hf : floatA i = true) (h : fpIf g d r s = .next t) : ScalarOutcome i s t := by
  cases h
  split
  · exact .regFlags d _ _ hd hf
  · exact .none

theorem ScalarOutcome.of_fcmp {p g : PredIx} {a b : Reg} {x : BitVec 2} {s t : State}
    (h : exec (.fcmp p a b g x) s = .next t) : ScalarOutcome (.fcmp p a b g x) s t := by
  cases h
  split
  · exact .predFlags p _ _ rfl rfl
  · exact .none

theorem exec_scalarA {i : Instr} {s t : State} (hi : scalarA i = true) (h : exec i s = .next t) : ScalarOutcome i s t := by
  cases i <;> try cases hi
  case nopA => cases h; exact .none
  case cmp => exact .of_predIf rfl h
  case fcmp => exact .of_fcmp h
  case fadd | fsub | fmul | fma | fms | fmin | fmax | fcvt => exact .of_fpIf rfl rfl h
  all_goals exact .of_writeIf rfl h

/-- A slot of which nothing but registers and status has changed. -/
def Slot.RegsOnly (x y : Slot) : Prop :=
  y = { x with s := y.s, p := y.p, status := y.status, wlog := y.wlog, regPoison := y.regPoison }

theorem Slot.regsOnly_note {x y : Slot} (code : Nat) (v : Word) (h : x.RegsOnly y) : x.RegsOnly (y.note code v) := by
  unfold Slot.note
  split
  · rw [Slot.RegsOnly] at h ⊢
    rw [h]
  · exact h

theorem Slot.regsOnly_setReg (x : Slot) (r : Reg) (v : Word) : x.RegsOnly (x.setReg r v) := by
  unfold Slot.setReg
  split
  · rfl
  · exact Slot.regsOnly_note _ _ rfl

theorem Slot.regsOnly_setPred (x : Slot) (r : PredIx) (v : Bool) : x.RegsOnly (x.setPred r v) := by
  unfold Slot.setPred
  split
  · rfl
  · exact Slot.regsOnly_note _ _ rfl

theorem Slot.regsOnly_status {x y : Slot} (w : Word) (h : x.RegsOnly y) : x.RegsOnly { y with status := w } := by
  rw [Slot.RegsOnly] at h ⊢
  rw [h]

/-- What an outcome makes of the current slot, which is all that it changes. -/
theorem ScalarOutcome.modCur {i : Instr} {s t : State} (hs : SlotOk s) (h : ScalarOutcome i s t) :
    t = s ∨ ∃ f : Slot → Slot, t = s.modCur f ∧ s.cur.RegsOnly (f s.cur) := by
  cases h with
  | none => exact .inl rfl
  | reg d v => exact .inr ⟨_, rfl, Slot.regsOnly_setReg _ d v⟩
  | pred p v => exact .inr ⟨_, rfl, Slot.regsOnly_setPred _ p v⟩
  | regFlags d v f => exact .inr ⟨_, State.modCur_modCur s _ _ hs, Slot.regsOnly_status _ (Slot.regsOnly_setReg _ d v)⟩
  | predFlags p v f => exact .inr ⟨_, State.modCur_modCur s _ _ hs, Slot.regsOnly_status _ (Slot.regsOnly_setPred _ p v)⟩

theorem State.cur_setReg {s : State} (hs : SlotOk s) (d : Reg) (v : Word) : (s.setReg d v).cur = s.cur.setReg d v :=
  State.cur_modCur s _ hs

theorem State.cur_setPred {s : State} (hs : SlotOk s) (p : PredIx) (v : Bool) : (s.setPred p v).cur = s.cur.setPred p v :=
  State.cur_modCur s _ hs

theorem State.cur_raise {s : State} (hs : SlotOk s) (f : RFlags) :
    (s.raise f).cur = { s.cur with status := flagStatus s.cur.status f } :=
  State.cur_modCur s _ hs

theorem Slot.reg_setReg_other (x : Slot) {d q : Reg} (v : Word) (h : q.toNat ≠ d.toNat ∨ q = 0#5) :
    (x.setReg d v).reg q = x.reg q := by
  rw [Slot.reg_setReg]
  split
  · subst q; exact (Slot.reg_zero x).symm
  · rw [if_neg]
    rintro rfl
    exact h.elim (fun h => h rfl) ‹_›

theorem Slot.pred_setPred_other (x : Slot) {p q : PredIx} (v : Bool) (h : q.toNat ≠ p.toNat) :
    (x.setPred p v).pred q = x.pred q := by
  rw [Slot.pred_setPred]
  split
  · subst q; exact (Slot.pred_zero x).symm
  · rw [if_neg]
    rintro rfl
    exact h rfl

theorem ScalarOutcome.cur_reg {i : Instr} {s t : State} (hs : SlotOk s) (h : ScalarOutcome i s t) {r : Reg}
    (hr : r.toNat ∉ destinations i ∨ r = 0#5) : t.cur.reg r = s.cur.reg r := by
  cases h with
  | none => rfl
  | reg d v hd =>
    rw [State.cur_setReg hs]
    exact Slot.reg_setReg_other _ v (by simpa [hd] using hr)
  | pred p v => rw [State.cur_setPred hs, Slot.reg_congr (Slot.setPred_s _ p v)]
  | regFlags d v f hd =>
    rw [State.cur_raise (s := s.setReg d v) hs, State.cur_setReg hs]
    exact Slot.reg_setReg_other _ v (by simpa [hd] using hr)
  | predFlags p v f =>
    rw [State.cur_raise (s := s.setPred p v) hs, State.cur_setPred hs]
    exact Slot.reg_congr (Slot.setPred_s _ p v) r

theorem ScalarOutcome.cur_pred {i : Instr} {s t : State} (hs : SlotOk s) (h : ScalarOutcome i s t) {q : PredIx}
    (hq : 32 + q.toNat ∉ destinations i) : t.cur.pred q = s.cur.pred q := by
  cases h with
  | none => rfl
  | reg d v => rw [State.cur_setReg hs, Slot.pred_congr (Slot.setReg_p _ d v)]
  | pred p v hp =>
    rw [State.cur_setPred hs]
    exact Slot.pred_setPred_other _ v (by simpa [hp] using hq)
  | regFlags d v f =>
    rw [State.cur_raise (s := s.setReg d v) hs, State.cur_setReg hs]
    exact Slot.pred_congr (Slot.setReg_p _ d v) q
  | predFlags p v f hp =>
    rw [State.cur_raise (s := s.setPred p v) hs, State.cur_setPred hs]
    exact Slot.pred_setPred_other _ v (by simpa [hp] using hq)

theorem ScalarOutcome.cur_status {i : Instr} {s t : State} (hs : SlotOk s) (h : ScalarOutcome i s t) (hf : floatA i = false) :
    t.cur.status = s.cur.status := by
  cases h with
  | none => rfl
  | reg d v => rw [State.cur_setReg hs, Slot.setReg_status]
  | pred p v => rw [State.cur_setPred hs, Slot.setPred_status]
  | regFlags _ _ _ _ hf' | predFlags _ _ _ _ hf' => simp [hf] at hf'

end Sys2Proof.Machine

namespace Sys2Proof.Proofs
open Sys2Proof.Machine

/-- Settles O13: each scalar instruction has one of the outcomes of `ScalarOutcome`, and a guard is asked for before anything else. -/
theorem scalarASlotChangesOnlyItsRegisters : Obligations.ScalarASlotChangesOnlyItsRegisters := by
  refine ⟨fun i s t hs hi ht => ?_, fun i g s hi hg => exec_of_guard_false hi hg⟩
  have h := exec_scalarA hi ht
  refine ⟨?_, fun r hr => h.cur_reg hs hr, fun q hq => h.cur_pred hs hq, fun hf => h.cur_status hs hf⟩
  obtain rfl | ⟨f, rfl, hf⟩ := h.modCur hs
  · exact .inl rfl
  · right
    rw [State.cur_modCur s f hs]
    exact congrArg s.setCur hf

end Sys2Proof.Proofs
end

section
/-!
SUPPORT. Integers of the A-slot: each operation on 64-bit words is the operation on numbers, narrowed (R64).
-/
namespace Sys2Proof.Machine

open Sys2Proof

/-! ## Sums, products, quotients and remainders -/

theorem add_eq_ofNat (a b : Word) : a + b = BitVec.ofNat 64 (a.toNat + b.toNat) := by
  apply BitVec.eq_of_toNat_eq; simp

theorem mul_eq_ofNat (a b : Word) : a * b = BitVec.ofNat 64 (a.toNat * b.toNat) := by
  apply BitVec.eq_of_toNat_eq; simp

theorem sub_eq_ofInt (a b : Word) : a - b = BitVec.ofInt 64 ((a.toNat : Int) - b.toNat) := by
  rw [Int.sub_eq_add_neg, BitVec.ofInt_add, BitVec.ofInt_neg, BitVec.ofInt_natCast, BitVec.ofInt_natCast, BitVec.ofNat_toNat,
    BitVec.ofNat_toNat, BitVec.setWidth_eq, BitVec.setWidth_eq, BitVec.sub_eq_add_neg]

theorem add_sext64_eq_ofInt {n : Nat} (a : Word) (k : BitVec n) : a + sext64 k = BitVec.ofInt 64 ((a.toNat : Int) + k.toInt) := by
  rw [BitVec.ofInt_add, BitVec.ofInt_natCast, BitVec.ofNat_toNat, BitVec.setWidth_eq]
  rfl

/-- The high half of a product is the product divided by 2^64. -/
theorem extractLsb'_ofInt_high (p : Int) : (BitVec.ofInt 128 p).extractLsb' 64 64 = BitVec.ofInt 64 (p / 2 ^ 64) := by
  apply BitVec.eq_of_toNat_eq
  simp only [BitVec.extractLsb'_toNat, BitVec.toNat_ofInt, Nat.shiftRight_eq_div_pow]
  omega

theorem setWidth_eq_ofInt (a : Word) : a.setWidth 128 = BitVec.ofInt 128 a.toNat := by
  rw [BitVec.ofInt_natCast, BitVec.ofNat_toNat]

theorem mulHigh_eq_ofInt (s : State) (x : BitVec 3) (a b : Reg) :
    mulHigh x (s.src a) (s.src b) = BitVec.ofInt 64 (wideProduct s x a b / 2 ^ 64) := by
  rw [← extractLsb'_ofInt_high]
  unfold mulHigh wideProduct sgn uns
  simp only [setWidth_eq_ofInt, BitVec.signExtend, ← BitVec.ofInt_mul, BitVec.ofNat_eq_ofNat]
  split_ifs <;> rfl

theorem toNat_eq_zero_iff (a : Word) : a.toNat = 0 ↔ a = 0 := by
  rw [BitVec.toNat_eq]; rfl

theorem divS_eq (a b : Word) :
    divS a b = if b.toNat = 0 then 0xFFFFFFFFFFFFFFFF else BitVec.ofInt 64 (a.toInt.tdiv b.toInt) := by
  unfold divS
  simp only [toNat_eq_zero_iff]
  split
  · rfl
  · apply BitVec.eq_of_toInt_eq
    rw [BitVec.toInt_sdiv, BitVec.toInt_ofInt]

theorem divU_eq (a b : Word) : divU a b = if b.toNat = 0 then 0xFFFFFFFFFFFFFFFF else BitVec.ofNat 64 (a.toNat / b.toNat) := by
  unfold divU
  simp only [toNat_eq_zero_iff]
  split
  · rfl
  · exact BitVec.udiv_def

theorem remS_eq (a b : Word) :
    remS a b = if b.toNat = 0 then a else BitVec.ofInt 64 (a.toInt - b.toInt * a.toInt.tdiv b.toInt) := by
  unfold remS
  simp only [toNat_eq_zero_iff]
  split
  · rfl
  · rw [← Int.tmod_def, ← BitVec.toInt_srem, BitVec.ofInt_toInt]

theorem remU_eq (a b : Word) : remU a b = if b.toNat = 0 then a else BitVec.ofNat 64 (a.toNat % b.toNat) := by
  unfold remU
  simp only [toNat_eq_zero_iff]
  split
  · rfl
  · exact BitVec.umod_def

/-! ## Bitwise operations and shifts -/

theorem and_eq_ofNat (a b : Word) : a &&& b = BitVec.ofNat 64 (a.toNat &&& b.toNat) := by
  rw [← BitVec.toNat_and, BitVec.ofNat_toNat, BitVec.setWidth_eq]

theorem or_eq_ofNat (a b : Word) : a ||| b = BitVec.ofNat 64 (a.toNat ||| b.toNat) := by
  rw [← BitVec.toNat_or, BitVec.ofNat_toNat, BitVec.setWidth_eq]

theorem xor_eq_ofNat (a b : Word) : a ^^^ b = BitVec.ofNat 64 (a.toNat ^^^ b.toNat) := by
  rw [← BitVec.toNat_xor, BitVec.ofNat_toNat, BitVec.setWidth_eq]

theorem andn_eq_ofNat (a b : Word) : a &&& ~~~b = BitVec.ofNat 64 (a.toNat &&& (2 ^ 64 - 1 - b.toNat)) := by
  rw [and_eq_ofNat, BitVec.toNat_not]

theorem shl_eq_ofNat (a : Word) (n : Nat) : a <<< n = BitVec.ofNat 64 (a.toNat * 2 ^ n) := by
  apply BitVec.eq_of_toNat_eq
  rw [BitVec.toNat_shiftLeft, Nat.shiftLeft_eq, BitVec.toNat_ofNat]

theorem shr_eq_ofNat (a : Word) (n : Nat) : a >>> n = BitVec.ofNat 64 (a.toNat / 2 ^ n) := by
  rw [← Nat.shiftRight_eq_div_pow, ← BitVec.toNat_ushiftRight, BitVec.ofNat_toNat, BitVec.setWidth_eq]

theorem sar_eq_ofInt (a : Word) (n : Nat) : a.sshiftRight n = BitVec.ofInt 64 (a.toInt / 2 ^ n) := by
  rw [BitVec.sshiftRight, Int.shiftRight_eq_div_pow]
  norm_cast

theorem fld_low_six (w : Word) : fld w 0 6 = w.toNat % 64 := by
  simp [fld]

/-! ## BITS (R275) -/

theorem length_takeWhile_range {p : Nat → Bool} {n k : Nat} (hk : k ≤ n) (hlt : ∀ i < k, p i = true)
    (hend : k < n → p k = false) : ((List.range n).takeWhile p).length = k := by
  obtain ⟨m, rfl⟩ := Nat.exists_eq_add_of_le hk
  rw [List.range_add, List.takeWhile_append_of_pos (by simpa using hlt)]
  cases m with
  | zero => simp
  | succ m => simp [List.range_succ_eq_map, hend (by omega)]

theorem leadingZeros_eq (a : Word) :
    ((List.range 64).takeWhile fun i => !a.getMsbD i).length = if a.toNat = 0 then 64 else 63 - a.toNat.log2 := by
  have hmsb (i : Nat) (hi : i < 64) : a.getMsbD i = a.toNat.testBit (63 - i) := by
    simp only [BitVec.getMsbD, hi, decide_true, Bool.true_and]
    rfl
  split
  · next h0 => exact length_takeWhile_range le_rfl (fun i hi => by simp [hmsb i hi, h0]) fun h => absurd h (lt_irrefl _)
  · next h0 =>
    have hlog : a.toNat.log2 < 64 := (Nat.log2_lt h0).2 a.isLt
    refine length_takeWhile_range (by omega) (fun i hi => ?_) fun _ => ?_
    · rw [hmsb i (by omega), Nat.testBit_lt_two_pow ((Nat.log2_lt h0).1 (by omega))]
      rfl
    · rw [hmsb _ (by omega), show 63 - (63 - a.toNat.log2) = a.toNat.log2 by omega, Nat.testBit_log2 h0]
      rfl

theorem trailingZeros_eq (p : Nat → Bool) (n : Nat) :
    ((List.range n).takeWhile fun i => !p i).length = ((List.range n).find? p).getD n := by
  cases h : (List.range n).find? p with
  | none =>
    rw [List.find?_range_eq_none] at h
    exact length_takeWhile_range le_rfl (fun i hi => h i hi) (fun h => absurd h (lt_irrefl _))
  | some i =>
    obtain ⟨hp, hi, hlt⟩ := List.find?_range_eq_some.1 h
    rw [List.mem_range] at hi
    exact length_takeWhile_range hi.le (fun j hj => hlt j hj) fun _ => by simp [hp]

/-- A sum of different powers of two has the bits of the powers. -/
theorem testBit_sum_two_pow (b : Nat → Bool) (m : Nat) :
    (List.range m).foldl (fun acc i => acc + if b i then 2 ^ i else 0) 0 < 2 ^ m ∧
    ∀ j, ((List.range m).foldl (fun acc i => acc + if b i then 2 ^ i else 0) 0).testBit j = (decide (j < m) && b j) := by
  induction m with
  | zero => simp
  | succ m ih =>
    obtain ⟨hlt, hbit⟩ := ih
    rw [List.range_succ, List.foldl_append]
    simp only [List.foldl_cons, List.foldl_nil]
    generalize (List.range m).foldl _ 0 = n at hlt hbit
    refine ⟨by split <;> omega, fun j => ?_⟩
    by_cases hm : b m = true
    · rw [if_pos hm, Nat.add_comm]
      obtain h | rfl | h := lt_trichotomy j m
      · rw [Nat.testBit_two_pow_add_gt h, hbit]
        simp [h, Nat.lt_succ_of_lt h]
      · rw [Nat.testBit_two_pow_add_eq, hbit]
        simp [hm]
      · rw [Nat.testBit_lt_two_pow]
        · simp; omega
        · calc 2 ^ m + n < 2 ^ (m + 1) := by omega
            _ ≤ 2 ^ j := Nat.pow_le_pow_right (by decide) h
    · rw [if_neg hm, Nat.add_zero, hbit]
      obtain rfl | h := eq_or_ne j m
      · simp [hm]
      · simp [show (j < m) = (j < m + 1) by simp; omega]

theorem reverse_eq_mirrored (a : Word) : a.reverse = BitVec.ofNat 64 (mirrored a.toNat) := by
  apply BitVec.eq_of_getLsbD_eq
  intro i hi
  rw [BitVec.getLsbD_reverse, BitVec.getMsbD, BitVec.getLsbD_ofNat, mirrored,
    (testBit_sum_two_pow (fun i => a.toNat.testBit (63 - i)) 64).2]
  simp only [hi, decide_true, Bool.true_and]
  rfl

theorem bitsOp_eq_ofNat (x : BitVec 2) (a : Word) : bitsOp x a = BitVec.ofNat 64 (bitsResult x a.toNat) := by
  unfold bitsOp bitsResult
  simp only [BitVec.ofNat_eq_ofNat]
  by_cases h0 : x = 0#2
  · rw [if_pos h0, if_pos h0]
    rfl
  rw [if_neg h0, if_neg h0]
  by_cases h1 : x = 1#2
  · rw [if_pos h1, if_pos h1, leadingZeros_eq]
  rw [if_neg h1, if_neg h1]
  by_cases h2 : x = 2#2
  · rw [if_pos h2, if_pos h2, ← trailingZeros_eq]
    rfl
  · rw [if_neg h2, if_neg h2, reverse_eq_mirrored]

/-! ## Fields (R295) -/

theorem widthMask_toNat (e : Reg) : (widthMask e).toNat = 2 ^ (e.toNat + 1) - 1 := by
  have : 2 ^ (e.toNat + 1) ≤ 2 ^ 32 := Nat.pow_le_pow_right (by decide) e.isLt
  rw [widthMask, BitVec.toNat_ofNat, Nat.mod_eq_of_lt (by omega)]

theorem extField_toNat (a b : Word) (e : Reg) : (extField a b e).toNat = fieldOf a.toNat (b.toNat % 64) e.toNat := by
  rw [extField, BitVec.toNat_and, BitVec.toNat_ushiftRight, widthMask_toNat, Nat.and_two_pow_sub_one_eq_mod, fld_low_six,
    Nat.shiftRight_eq_div_pow, fieldOf]

theorem extField_eq_ofNat (a b : Word) (e : Reg) : extField a b e = BitVec.ofNat 64 (fieldOf a.toNat (b.toNat % 64) e.toNat) := by
  rw [← extField_toNat, BitVec.ofNat_toNat, BitVec.setWidth_eq]

/-- Shifting a field of `e + 1` bits up to the sign and down again extends its sign. -/
theorem shl_sar_eq_ofInt (f : Word) {e : Nat} (he : e < 64) (hf : f.toNat < 2 ^ (e + 1)) :
    (f <<< (63 - e)).sshiftRight (63 - e) =
      BitVec.ofInt 64 (if f.toNat < 2 ^ e then (f.toNat : Int) else (f.toNat : Int) - 2 ^ (e + 1)) := by
  have hpow : 2 ^ e * 2 ^ (63 - e) = 2 ^ 63 := by rw [← Nat.pow_add]; congr 1; omega
  have hpos : 0 < 2 ^ (63 - e) := Nat.two_pow_pos _
  generalize hk : 2 ^ (63 - e) = k at hpow hpos
  have hwidth : 2 ^ (e + 1) * k = 2 ^ 64 := by rw [Nat.pow_succ, Nat.mul_right_comm, hpow]; rfl
  have hfk : f.toNat * k < 2 ^ 64 := hwidth ▸ Nat.mul_lt_mul_of_pos_right hf hpos
  have htoNat : (f <<< (63 - e)).toNat = f.toNat * k := by
    rw [BitVec.toNat_shiftLeft, Nat.shiftLeft_eq, hk, Nat.mod_eq_of_lt hfk]
  have hkInt : (2 : Int) ^ (63 - e) = k := by rw [← hk]; norm_cast
  rw [sar_eq_ofInt, BitVec.toInt_eq_toNat_cond, htoNat, hkInt]
  congr 1
  by_cases h : f.toNat < 2 ^ e
  · have := Nat.mul_lt_mul_of_pos_right h hpos
    rw [if_pos h, if_pos (by omega)]
    push_cast
    exact Int.mul_ediv_cancel _ (by omega)
  · have := Nat.mul_le_mul_right k (Nat.le_of_not_lt h)
    rw [if_neg h, if_neg (by omega), ← hwidth]
    push_cast
    rw [← sub_mul]
    exact Int.mul_ediv_cancel _ (by omega)

theorem extFieldS_eq_ofInt (a b : Word) (e : Reg) :
    let f := fieldOf a.toNat (b.toNat % 64) e.toNat
    extFieldS a b e = BitVec.ofInt 64 (if f < 2 ^ e.toNat then (f : Int) else (f : Int) - 2 ^ (e.toNat + 1)) := by
  intro f
  have hf : (extField a b e).toNat = f := extField_toNat a b e
  rw [← hf]
  exact shl_sar_eq_ofInt _ (by omega) (hf ▸ Nat.mod_lt _ (Nat.two_pow_pos _))

theorem insField_eq_ofNat (d a b : Word) (e : Reg) :
    let mask := (2 ^ (e.toNat + 1) - 1) * 2 ^ (b.toNat % 64) % 2 ^ 64
    insField d a b e = BitVec.ofNat 64 ((d.toNat &&& (2 ^ 64 - 1 - mask)) ||| (a.toNat * 2 ^ (b.toNat % 64) % 2 ^ 64 &&& mask)) := by
  intro mask
  have hmask : (widthMask e <<< (b.toNat % 64)).toNat = mask := by
    rw [BitVec.toNat_shiftLeft, widthMask_toNat, Nat.shiftLeft_eq]
  rw [insField, fld_low_six, or_eq_ofNat, BitVec.toNat_and, BitVec.toNat_and, BitVec.toNat_not, hmask, BitVec.toNat_shiftLeft,
    Nat.shiftLeft_eq]

/-! ## MIN, MAX, MINU and MAXU (R318) -/

theorem toInt_ite_sle (a b : Word) : (if a.sle b then a else b).toInt = min a.toInt b.toInt := by
  simp only [BitVec.sle_iff_toInt_le]
  split
  · exact (min_eq_left ‹_›).symm
  · exact (min_eq_right (by omega)).symm

theorem toInt_ite_sle_max (a b : Word) : (if a.sle b then b else a).toInt = max a.toInt b.toInt := by
  simp only [BitVec.sle_iff_toInt_le]
  split
  · exact (max_eq_right ‹_›).symm
  · exact (max_eq_left (by omega)).symm

theorem toNat_ite_ule (a b : Word) : (if a.ule b then a else b).toNat = min a.toNat b.toNat := by
  simp only [BitVec.ule_iff_toNat_le]
  split
  · exact (min_eq_left ‹_›).symm
  · exact (min_eq_right (by omega)).symm

theorem toNat_ite_ule_max (a b : Word) : (if a.ule b then b else a).toNat = max a.toNat b.toNat := by
  simp only [BitVec.ule_iff_toNat_le]
  split
  · exact (max_eq_right ‹_›).symm
  · exact (max_eq_left (by omega)).symm

/-! ## The instructions -/

theorem writeIf_of_eq {g : PredIx} {d : Reg} {v w : Word} {s : State} (h : v = w) :
    writeIf g d v s = .next (if s.guard g then s.setReg d w else s) := by
  rw [h]; rfl

theorem exec_of_arithResult {i : Instr} {s : State} {g : PredIx} {d : Reg} {v : Word} (h : arithResult s i = some (g, d, v)) :
    exec i s = .next (if s.guard g then s.setReg d v else s) := by
  cases i <;> cases h
  case add => exact writeIf_of_eq (add_eq_ofNat _ _)
  case sub => exact writeIf_of_eq (sub_eq_ofInt _ _)
  case addi => exact writeIf_of_eq (add_sext64_eq_ofInt _ _)
  case mul => exact writeIf_of_eq (mul_eq_ofNat _ _)
  case mulh => exact writeIf_of_eq (mulHigh_eq_ofInt s _ _ _)
  case div => exact writeIf_of_eq (divS_eq _ _)
  case divu => exact writeIf_of_eq (divU_eq _ _)
  case rem => exact writeIf_of_eq (remS_eq _ _)
  case remu => exact writeIf_of_eq (remU_eq _ _)

theorem exec_of_bitResult {i : Instr} {s : State} {g : PredIx} {d : Reg} {v : Word} (h : bitResult s i = some (g, d, v)) :
    exec i s = .next (if s.guard g then s.setReg d v else s) := by
  cases i <;> cases h
  case and => exact writeIf_of_eq (and_eq_ofNat _ _)
  case andn => exact writeIf_of_eq (andn_eq_ofNat _ _)
  case or => exact writeIf_of_eq (or_eq_ofNat _ _)
  case xor => exact writeIf_of_eq (xor_eq_ofNat _ _)
  case shl => exact writeIf_of_eq ((shl_eq_ofNat _ _).trans (by rw [fld_low_six]; rfl))
  case shlImm => exact writeIf_of_eq (shl_eq_ofNat _ _)
  case shr => exact writeIf_of_eq ((shr_eq_ofNat _ _).trans (by rw [fld_low_six]; rfl))
  case shrImm => exact writeIf_of_eq (shr_eq_ofNat _ _)
  case sar => exact writeIf_of_eq ((sar_eq_ofInt _ _).trans (by rw [fld_low_six]; rfl))
  case sarImm => exact writeIf_of_eq (sar_eq_ofInt _ _)
  case bits => exact writeIf_of_eq (bitsOp_eq_ofNat _ _)
  case ext => exact writeIf_of_eq (extField_eq_ofNat _ _ _)
  case extS => exact writeIf_of_eq (extFieldS_eq_ofInt _ _ _)
  case ins => exact writeIf_of_eq (insField_eq_ofNat _ _ _ _)

end Sys2Proof.Machine

namespace Sys2Proof.Proofs
open Sys2Proof.Machine

/-- Settles O10: the values that the instructions write are those of the integers, by one lemma for each operation. -/
theorem integerInstructionsComputeOnIntegers : Obligations.IntegerInstructionsComputeOnIntegers := by
  refine ⟨fun i s g d v _ h => exec_of_arithResult h, fun s d a b g h => ?_, fun i s g d v _ h => exec_of_bitResult h⟩
  exact ⟨⟨_, writeIf_true h d _, toInt_ite_sle _ _⟩, ⟨_, writeIf_true h d _, toInt_ite_sle_max _ _⟩,
    ⟨_, writeIf_true h d _, toNat_ite_ule _ _⟩, ⟨_, writeIf_true h d _, toNat_ite_ule_max _ _⟩⟩

end Sys2Proof.Proofs
end

section
/-!
SUPPORT. Special registers (R58, R59, R265): which numbers are listed, and the fields of a word that a CSRW cuts out.
-/
namespace Sys2Proof.Machine

open Sys2Proof

theorem extractLsb'_zero_eq_ofNat (n : Nat) (v : Word) : v.extractLsb' 0 n = BitVec.ofNat n v.toNat := by
  apply BitVec.eq_of_toNat_eq
  simp

theorem and_not_seven (v : Word) : v &&& ~~~7#64 = BitVec.ofNat 64 (v.toNat / 8 * 8) := by
  apply BitVec.eq_of_getLsbD_eq
  intro i hi
  have hseven : (7#64).getLsbD i = decide (i < 3) := Nat.testBit_two_pow_sub_one 3 i
  rw [BitVec.getLsbD_and, BitVec.getLsbD_not, hseven, BitVec.getLsbD_ofNat, show v.toNat / 8 * 8 = v.toNat / 2 ^ 3 * 2 ^ 3 from rfl,
    Nat.testBit_mul_two_pow, Nat.testBit_div_two_pow]
  by_cases h : i < 3
  · simp [h, Nat.not_le.2 h]
  · simp only [hi, h, Nat.le_of_not_lt h, Nat.sub_add_cancel, decide_true, decide_false, Bool.not_false, Bool.and_true,
      Bool.true_and]
    rfl

theorem toNat_narrowest (a b : BitVec 2) : (narrowest a b).toNat = min a.toNat b.toNat := by
  unfold narrowest
  simp only [BitVec.ule_iff_toNat_le]
  split
  · exact (min_eq_left ‹_›).symm
  · exact (min_eq_right (by omega)).symm

theorem csrListed_iff (n : BitVec 10) : csrListed n = true ↔ n.toNat < 16 := by
  simp [csrListed, BitVec.ult]

theorem isSome_csrValue_iff (s : State) (n : BitVec 10) : (s.csrValue n).isSome = true ↔ n.toNat < 16 := by
  unfold State.csrValue
  generalize n.toNat = k
  constructor
  · intro h
    by_contra hk
    obtain ⟨m, rfl⟩ := Nat.exists_eq_add_of_le (Nat.le_of_not_lt hk)
    split at h
    all_goals first | omega | cases h
  · intro h
    interval_cases k <;> rfl

theorem getLsbD_statusW1C (b : Nat) : statusW1C.getLsbD b = (b ∈ [8, 9, 10, 11, 12, 13, 16] : Bool) := by
  by_cases h : b < 64
  · interval_cases b <;> rfl
  · rw [BitVec.getLsbD_of_ge _ _ (by omega)]
    symm
    simp only [decide_eq_false_iff_not, List.mem_cons, List.not_mem_nil, or_false]
    omega

theorem getLsbD_statusWritten (st seen v : Word) (b : Nat) : (statusWritten st seen v).getLsbD b =
    (st.getLsbD b && !((b ∈ [8, 9, 10, 11, 12, 13, 16] : Bool) && seen.getLsbD b && v.getLsbD b)) := by
  rw [statusWritten, BitVec.getLsbD_and, BitVec.getLsbD_not, BitVec.getLsbD_and, BitVec.getLsbD_and, getLsbD_statusW1C]
  by_cases h : b < 64
  · simp only [h, decide_true, Bool.true_and, Bool.and_comm, Bool.and_left_comm]
  · rw [BitVec.getLsbD_of_ge st b (by omega)]; rfl

theorem supervisor_true {s : State} (h : s.cur.supervisor = true) : s.supervisor = .ok () := by
  rw [State.supervisor, h, need_true]

theorem supervisor_false {s : State} (h : s.cur.supervisor = false) : s.supervisor = .error (.trap clsSys 0x11) := by
  rw [State.supervisor, h, need_false]

end Sys2Proof.Machine

namespace Sys2Proof.Proofs
open Sys2Proof.Machine

/-- Settles O21: each number is read and written by one arm of `csrValue` and `csrWrite`; a flag of STATUS is cleared bit by bit. -/
theorem specialRegistersReadAndWrite : Obligations.SpecialRegistersReadAndWrite := by
  refine ⟨⟨fun s d n v h => ?_, fun s n => ?_, fun d n h => h, fun s => ?_⟩, fun s a => ?_⟩
  · show finish s (s.csrRead d n) = _
    rw [State.csrRead, h]
    rfl
  · rw [csrListed_iff, isSome_csrValue_iff]
  · refine ⟨rfl, rfl, rfl, fun _ => ⟨rfl, rfl, rfl⟩, rfl, rfl, rfl, rfl, rfl, rfl, rfl, fun l hl => ?_⟩
    simp [State.csrValue, hl]
  · intro v
    refine ⟨rfl, fun b st seen => getLsbD_statusWritten st seen v b, ?_, fun l hl => ?_, ?_, fun hs => ⟨?_, ?_, ?_⟩, fun hs n hn => ?_⟩
    · rw [← and_not_seven]
      rfl
    · refine ⟨narrowest (v.extractLsb' 0 2) l.steal, ?_, ?_⟩
      · rw [toNat_narrowest, BitVec.extractLsb'_toNat]
        rfl
      · show finish s (s.csrWrite a 0x00B) = _
        simp [State.csrWrite, hl]
        rfl
    · rw [← extractLsb'_zero_eq_ofNat]
      rfl
    · show finish s (s.csrWrite a 0x00C) = _
      have h3 : v.extractLsb' 0 2 = 3#2 ↔ v.toNat % 4 = 3 := by
        rw [BitVec.toNat_eq, BitVec.extractLsb'_toNat]
        rfl
      simp only [State.csrWrite, supervisor_true hs, ← extractLsb'_zero_eq_ofNat, ← h3]
      rfl
    · show finish s (s.csrWrite a 0x00D) = _
      rw [← extractLsb'_zero_eq_ofNat]
      simp only [State.csrWrite, supervisor_true hs]
      rfl
    · show finish s (s.csrWrite a 0x00F) = _
      rw [← extractLsb'_zero_eq_ofNat]
      simp only [State.csrWrite, supervisor_true hs]
      rfl
    · show finish s (s.csrWrite a n) = _
      simp only [List.mem_cons, List.not_mem_nil, or_false] at hn
      obtain rfl | rfl | rfl := hn
      all_goals
        simp only [State.csrWrite, supervisor_false hs]
        rfl

end Sys2Proof.Proofs
end

section
/-!
SUPPORT. The step that issues a fetched group, by what its words decode to, for a slot that is not coupled.
-/
namespace Sys2Proof.Machine

open Sys2Proof

/-! ## What a change of the current slot reads -/

/-- A change of the current slot is known by what it makes of the slot as it stands. -/
theorem State.modCur_congr {s : State} {f g : Slot → Slot} (h : f s.cur = g s.cur) : s.modCur f = s.modCur g :=
  congrArg (s.setSlot s.curCore s.curSlot) h

/-- What a change of the current slot keeps there, whatever the number of the slot. -/
theorem State.cur_modCur_keeps {α : Type} (s : State) (f : Slot → Slot) (p : Slot → α) (h : ∀ x, p (f x) = p x) :
    p (s.modCur f).cur = p s.cur := by
  show p ((s.modSlot s.curCore s.curSlot f).slot s.curCore s.curSlot) = p (s.slot s.curCore s.curSlot)
  simp only [State.modSlot, State.slot, State.setSlot, State.core_setCore_same]
  by_cases hk : s.curSlot < 16
  · rw [Core.slot_setSlot_same _ _ _ hk, h]
  · simp [Core.slot, Core.setSlot, hk]

/-! ## A fetched group is run -/

/-- The state whose fetch a step asks for: the pair of the issuing slot begun (R49). -/
def State.issued (s : State) : State :=
  (({ s with issuing := false }).beginPair s.curCore s.curSlot).modCur fun x => { x with lastIssue := some s.cc }

/-- The words of the fetched group in the latches. -/
def State.latchWords (s : State) (g : BitVec 64) : State :=
  { s with lat := { s.lat with w0 := groupLo g, w1 := groupHi g } }

/-- The pc past the group whose instructions are run next. -/
def State.passGroup (s : State) (pc : Word) : State := s.modCur fun x => { x with pc := pc + 8, adone := false, held := none }

theorem State.passGroup_coupled (s : State) (pc : Word) : (s.passGroup pc).cur.coupled = s.cur.coupled :=
  s.cur_modCur_keeps _ (·.coupled) fun _ => rfl

theorem State.passGroup_regPoison (s : State) (pc : Word) : (s.passGroup pc).cur.regPoison = s.cur.regPoison :=
  s.cur_modCur_keeps _ (·.regPoison) fun _ => rfl

theorem step_fetched {s u : State} {g : BitVec 64} {brk : Option Nat} (hb : s.boot = .ready) (hi : s.issuing = true)
    (hf : s.issued.fetch = (u, .ok (g, brk))) (hc : u.cur.coupled = false) : step s = .next (u.runWords run g brk) := by
  rw [step_issue hb hi]
  simp only [State.runGroup]
  rw [show (({ s with issuing := false } : State).beginPair s.curCore s.curSlot).modCur
    (fun x => { x with lastIssue := some s.cc }) = s.issued from rfl, hf]
  simp [hc]

theorem runWords_undecoded {s : State} {ex : Instr → State → State} {g : BitVec 64} {brk : Option Nat} {k : SlotK}
    (hd : decodeGroup (groupLo g) (groupHi g) = .error k) : s.runWords ex g brk = (s.latchWords g).trapDecode clsIll 0 k := by
  simp [State.runWords, State.latchWords, hd]

/-- The A-slot that a decoded group still has to run. -/
def State.openA (s : State) (a : Option Instr) : Option Instr := if s.lat.adone then none else a

theorem runWords_ill {s : State} {ex : Instr → State → State} {g : BitVec 64} {brk : Option Nat} {c : Instr} {a : Option Instr}
    (hd : decodeGroup (groupLo g) (groupHi g) = .ok (c, a)) (hi : (s.latchWords g).illAtIssue c (s.openA a) = some 1) :
    s.runWords ex g brk = ((s.latchWords g).modCur fun x => { x with seq := cancelRun x.seq }).trapDecode clsIll 0 1 := by
  simp only [State.latchWords, State.openA] at hi
  simp [State.runWords, State.latchWords, hd, hi]

theorem runWords_overAllot {s : State} {ex : Instr → State → State} {g : BitVec 64} {brk : Option Nat} {c : Instr}
    {a : Option Instr} {r : Nat} (hd : decodeGroup (groupLo g) (groupHi g) = .ok (c, a))
    (hi : (s.latchWords g).illAtIssue c (s.openA a) = none) (ho : (s.latchWords g).overAllot (s.openA a) = some r) :
    s.runWords ex g brk = (s.latchWords g).trapDecode clsAllot r 1 := by
  simp only [State.latchWords, State.openA] at hi ho
  simp [State.runWords, State.latchWords, hd, hi, ho]

theorem runWords_ok {s : State} {ex : Instr → State → State} {g : BitVec 64} {c : Instr} {a : Option Instr}
    (hd : decodeGroup (groupLo g) (groupHi g) = .ok (c, a)) (hi : (s.latchWords g).illAtIssue c (s.openA a) = none)
    (ho : (s.latchWords g).overAllot (s.openA a) = none) :
    s.runWords ex g none = ((s.latchWords g).passGroup s.lat.pc).runPair ex c (s.openA a) := by
  simp only [State.latchWords, State.openA] at hi ho
  simp [State.runWords, State.latchWords, State.passGroup, State.openA, hd, hi, ho]

theorem openA_of_open {s : State} (h : s.lat.adone = false) (a : Option Instr) : s.openA a = a := by simp [State.openA, h]

theorem openA_of_done {s : State} {a : Option Instr} (h : a = none ∨ s.lat.adone = true) : s.openA a = none := by
  obtain rfl | h := h
  · simp [State.openA]
  · simp [State.openA, h]

theorem overAllot_none (s : State) : s.overAllot none = none := rfl

/-- The register of an ALLOT trap at decode is one that the instruction names, and the slot does not have it. -/
theorem overAllot_some {s : State} {i : Instr} {r : Nat} (h : s.overAllot (some i) = some r) :
    r ∈ vectorRegs i ∧ s.cur.allot ≤ r :=
  ⟨List.mem_of_find?_eq_some h, of_decide_eq_true (List.find?_some (p := fun r => decide (s.cur.allot ≤ r)) h)⟩

/-- Of the C-slots only an ERET can be ILL by more than its words. -/
theorem illAtIssue_of_ne_eret {c : Instr} (hc : ∀ g, c ≠ .eret g) (s : State) (a : Option Instr) :
    s.illAtIssue c a = s.illAtIssue .nopC a := by
  cases c
  case eret g => exact absurd rfl (hc g)
  all_goals rfl

/-- In an open run an instruction barred there traps ILL at the A-slot (R162). -/
theorem illAtIssue_barred {s : State} {c i : Instr} {g : PredIx} (hb : barredInRun i = true) (hr : runOpen s.cur.seq = true)
    (hi : guardOf i = some g) (hg : s.guard g = true) (hc : ∀ g, c ≠ .eret g) : s.illAtIssue c (some i) = some 1 := by
  rw [illAtIssue_of_ne_eret hc]
  cases i <;> cases hb <;> cases hi <;> simp [State.illAtIssue, hr, hg]

/-! ## A pair without poison -/

theorem eatsPoison_of_nil {s : State} (h : s.cur.regPoison = []) (i : Instr) : s.eatsPoison i = false := by
  simp only [State.eatsPoison, h]
  split <;> simp

theorem readsPoison_of_nil {s : State} (h : s.cur.regPoison = []) (c : Instr) (a : Option Instr) : s.readsPoison c a = false := by
  cases a <;> simp [State.readsPoison, eatsPoison_of_nil h]

theorem runC_of_uncoupled {s : State} (h : s.cur.coupled = false) (ex : Instr → State → State) (c : Instr) :
    s.runC ex c = ex c s := by
  simp [State.runC, h]

theorem runPair_lone {s : State} {c : Instr} (hc : s.cur.coupled = false) (hp : s.cur.regPoison = [])
    (ex : Instr → State → State) : s.runPair ex c none = ex c s := by
  simp [State.runPair, readsPoison_of_nil hp, runC_of_uncoupled hc]

/-- The latches as the A-slot of a pair sees them. -/
def State.slotA (s : State) : State := { s with lat := { s.lat with inA := true } }

/-- The latches as the C-slot sees them after its A-slot. -/
def State.slotC (s : State) : State := { s with lat := { s.lat with inA := false, adone := true } }

/-- The A-slot of a pair with its flow, and the C-slot after it. -/
theorem runPair_some (s : State) (ex : Instr → State → State) (c a : Instr) (hp : s.cur.regPoison = [])
    (hd : s.lat.adone = false) : s.runPair ex c (some a) = match (s.runC ex c).lat.flow with
      | .trapped _ _ | .waits => s.runC ex c
      | _ => if (ex a s.slotA).goes then (ex a s.slotA).slotC.runC ex c else ex a s.slotA := by
  unfold State.runPair
  rw [readsPoison_of_nil hp, hd]
  rfl

/-- A C-slot that would stop or wait leaves its A-slot without effect. -/
theorem runPair_probe {s : State} {c a : Instr} (hc : s.cur.coupled = false) (hp : s.cur.regPoison = [])
    (hd : s.lat.adone = false) {ex : Instr → State → State}
    (h : (∃ x y, (ex c s).lat.flow = .trapped x y) ∨ (ex c s).lat.flow = .waits) :
    s.runPair ex c (some a) = ex c s := by
  rw [runPair_some s ex c a hp hd, runC_of_uncoupled hc]
  obtain ⟨x, y, h⟩ | h := h <;> rw [h]

/-- Otherwise the A-slot is run, and then the C-slot. -/
theorem runPair_both {s : State} {c a : Instr} {ex : Instr → State → State} (hc : s.cur.coupled = false)
    (hp : s.cur.regPoison = []) (hd : s.lat.adone = false) (ht : ∀ x y, (ex c s).lat.flow ≠ .trapped x y)
    (hw : (ex c s).lat.flow ≠ .waits) (hg : (ex a s.slotA).lat.flow = .go) (hu : (ex a s.slotA).cur.coupled = false) :
    s.runPair ex c (some a) = ex c (ex a s.slotA).slotC := by
  have hgo : (ex a s.slotA).goes = true := by simp [State.goes, hg]
  rw [runPair_some s ex c a hp hd, runC_of_uncoupled hc]
  cases hf : (ex c s).lat.flow with
  | trapped x y => exact absurd hf (ht x y)
  | waits => exact absurd hf hw
  | go | answered => exact (if_pos hgo).trans (runC_of_uncoupled (s := (ex a s.slotA).slotC) hu ex c)

/-! ## Every instruction goes on -/

theorem guarded_next (g : PredIx) (s : State) (r : Except Stop State) : ∃ t, guarded g s r = .next t := by
  cases h : s.guard g
  · exact ⟨_, guarded_false h r⟩
  · exact ⟨_, guarded_true h r⟩

theorem exec_next (i : Instr) (s : State) : ∃ t, exec i s = .next t := by
  cases i
  case almr | almw | asbar | asfl | await | cgive | claim | cld | cnar | couple | cst | done | dtrd | dtwr | epop | epushCopy
      | epushMat | eret | fence | gang | jr | lq | lzcfg | lzexp | lzfree | lzres | lzstat | lzwait | migrate | mma | mmae |
      popm | rflush | ringset | rinv | send | sende | shrink | sq | tabort | tback | tdesc | texp | tfill | tform | trap |
      trec | tseal | uncouple | ungang | vallot | vloop | waitm | wake | yield =>
    exact guarded_next _ _ _
  case spawn a c x g =>
    cases h : s.guard g
    · exact ⟨_, if_neg (by simp [h])⟩
    · exact ⟨_, if_pos (by simp [h])⟩
  all_goals exact ⟨_, rfl⟩

theorem exec_eq_run (i : Instr) (s : State) : exec i s = .next (run i s) := by
  obtain ⟨t, h⟩ := exec_next i s
  rw [h, run, h]

end Sys2Proof.Machine
end


section
/-!
Steps: O4.
-/
namespace Sys2Proof.Proofs

open Sys2Proof Sys2Proof.Machine

theorem trapsIll_of_undecoded {g : BitVec 64} {k : Nat} (hd : decodeGroup (groupLo g) (groupHi g) = .error k) :
    Sys2Proof.Claims.TrapsIll g k := by
  intro s u hb hi hf hc
  rw [step_fetched hb hi hf hc, runWords_undecoded hd]
  rfl

/-- Settles O4: the step of a fetched group is the run of its pair, and every instruction goes on, so the run of an instruction is its
meaning. -/
theorem stepRunsDecodedGroup : Obligations.StepRunsDecodedGroup := by
  unfold Obligations.StepRunsDecodedGroup
  refine ⟨?_, ?_, fun g k => trapsIll_of_undecoded, ?_, ?_⟩
  · intro s u g c a hb hi hf hc hp hadone hd v hill hallot w c1 a1
    have hwc : w.cur.coupled = false := (v.passGroup_coupled u.lat.pc).trans hc
    have hwp : w.cur.regPoison = [] := (v.passGroup_regPoison u.lat.pc).trans hp
    have hopen := openA_of_open hadone (some a)
    have hstep : step s = .next (w.runPair run c (some a)) := by
      rw [step_fetched hb hi hf hc, runWords_ok hd (by rw [hopen]; exact hill) (by rw [hopen]; exact hallot), hopen]
      rfl
    refine ⟨fun hstop => ⟨exec_eq_run c w, ?_⟩, fun ht hw hgo hac => ⟨exec_eq_run a _, _, exec_eq_run c _, ?_⟩⟩
    · rw [hstep, runPair_probe hwc hwp hadone hstop]
    · rw [hstep, runPair_both hwc hwp hadone ht hw hgo hac]
      rfl
  · intro s u g c a hb hi hf hc hp hlone hd v hill w
    have hwc : w.cur.coupled = false := (v.passGroup_coupled u.lat.pc).trans hc
    have hwp : w.cur.regPoison = [] := (v.passGroup_regPoison u.lat.pc).trans hp
    have hopen := openA_of_done hlone
    refine ⟨_, exec_eq_run c w, ?_⟩
    rw [step_fetched hb hi hf hc, runWords_ok hd (by rw [hopen]; exact hill) (by rw [hopen]; rfl), hopen,
      runPair_lone (s := (u.latchWords g).passGroup u.lat.pc) hwc hwp]
    rfl
  · intro s i rest hb hi ht
    exact step_turn hb hi ht
  · intro s hb hi ht
    exact ⟨_, step_proceed hb hi ht⟩

end Sys2Proof.Proofs
end

section
/-!
SUPPORT. How an entry is handed to the sequencer, outside a run that is being handed and in one (R159, R162).
-/
namespace Sys2Proof.Machine

open Sys2Proof

theorem hand_of_closed {q : List SeqItem} (h : runOpen q = false) (e : SeqEntry) : hand q e = q ++ [.one e] := by
  unfold runOpen at h
  unfold hand
  split
  · rename_i n count pass pos es hl
    rw [hl] at h
    exact if_neg (of_decide_eq_false h)
  · rfl

theorem hand_of_open {n : Nat} {es : List SeqEntry} (h : es.length < n) (before : List SeqItem) (count pass pos : Nat)
    (e : SeqEntry) :
    hand (before ++ [.run n count pass pos es]) e = before ++ [.run n count pass pos (es ++ [e])] := by
  simp [hand, h]

theorem dropEmptyRun_append (q r : List SeqItem) : dropEmptyRun (q ++ r) = dropEmptyRun q ++ dropEmptyRun r :=
  List.filter_append ..

@[simp] theorem dropEmptyRun_one (e : SeqEntry) : dropEmptyRun [.one e] = [.one e] := rfl

/-- A run stays as long as it has a pass to run or an entry to come. -/
theorem dropEmptyRun_run {n count pass pos : Nat} {es : List SeqEntry} (h : count ≠ 0 ∨ es.length < n) :
    dropEmptyRun [.run n count pass pos es] = [.run n count pass pos es] := by
  cases count with
  | zero => simpa [dropEmptyRun] using h
  | succ count => rfl

theorem dropEmptyRun_run_nil {n pass pos : Nat} {es : List SeqEntry} (h : n ≤ es.length) :
    dropEmptyRun [.run n 0 pass pos es] = [] := by
  simpa [dropEmptyRun] using h

/-! ## An instruction handed -/

/-- An instruction enters the sequencer of the current slot with its scalars, after every entry before it or into the run that is
being handed; `owes` says that it writes a scalar. -/
def Enters (s : State) (i : Instr) (x y : Word) (owes : Bool) : Prop :=
  let e : SeqEntry := ⟨i, x, y, false, [], none, s.cc⟩
  let put (q : List SeqItem) : Host.Outcome State Fault Refusal := .next (s.modCur fun t =>
    { t with seq := q, seqReply := owes || t.seqReply, st := if owes then .reply else t.st })
  (runOpen s.cur.seq = false → dropEmptyRun s.cur.seq = s.cur.seq → exec i s = put (s.cur.seq ++ [.one e])) ∧
  ∀ before n count es, owes = false → s.cur.seq = before ++ [.run n count 0 0 es] → es.length < n →
    dropEmptyRun before = before →
    (count ≠ 0 ∨ es.length + 1 < n → exec i s = put (before ++ [.run n count 0 0 (es ++ [e])])) ∧
    (count = 0 → es.length + 1 = n → exec i s = put before)

/-- The sequencer of the current slot replaced. -/
theorem handEntry_eq {s : State} {g : PredIx} {i : Instr} {x y : Word} {q : List SeqItem} (hg : s.guard g = true)
    (hq : dropEmptyRun (hand s.cur.seq ⟨i, x, y, false, [], none, s.cc⟩) = q) :
    handEntry g i x y s = .next (s.modCur fun t =>
      { t with seq := q, seqReply := false || t.seqReply, st := if false then .reply else t.st }) := by
  rw [handEntry_true hg]
  refine congrArg _ (State.modCur_congr ?_)
  simp only [hq]
  rfl

theorem enters_of_handEntry {s : State} {g : PredIx} {i : Instr} {x y : Word} (hg : s.guard g = true)
    (h : exec i s = handEntry g i x y s) : Enters s i x y false := by
  refine ⟨fun hr hd => ?_, fun before n count es _ hs hes hb => ⟨fun hc => ?_, fun hc hn => ?_⟩⟩
  · rw [h, handEntry_eq hg]
    rw [hand_of_closed hr, dropEmptyRun_append, hd, dropEmptyRun_one]
  · rw [h, handEntry_eq hg]
    rw [hs, hand_of_open hes, dropEmptyRun_append, hb, dropEmptyRun_run (by simpa using hc)]
  · rw [h, handEntry_eq hg]
    rw [hs, hand_of_open hes, dropEmptyRun_append, hb, hc, dropEmptyRun_run_nil (by simp [hn]), List.append_nil]

theorem enters_of_handScalar {s : State} {g : PredIx} {i : Instr} {x y : Word} (hg : s.guard g = true)
    (h : exec i s = handScalar g i x y s) : Enters s i x y true := by
  refine ⟨fun hr _ => ?_, fun _ _ _ _ ho => absurd ho (by decide)⟩
  rw [h, handScalar_true hg]
  refine congrArg _ (State.modCur_congr ?_)
  simp only [hand_of_closed hr]
  rfl

/-- VLOOP outside a run and with a count of 32 bits marks the run. -/
theorem markRun_ok {s : State} {a : Reg} (hr : runOpen s.cur.seq = false) (ha : uns s a < 2 ^ 32) (n : BitVec 4) :
    s.markRun a n = .ok (s.modCur fun x => { x with seq := x.seq ++ [.run (n.toNat + 1) (uns s a) 0 0 []] }) := by
  have hf : fld (s.src a) 32 32 = 0 := by
    simp only [uns] at ha
    simp only [fld, BitVec.extractLsb'_toNat, Nat.shiftRight_eq_div_pow]
    omega
  simp [State.markRun, hr, hf, need]
  rfl

theorem markRun_ill {s : State} {a : Reg} (h : runOpen s.cur.seq = true ∨ 2 ^ 32 ≤ uns s a) (n : BitVec 4) :
    s.markRun a n = .error (.trap clsIll 0) := by
  have hn : (!runOpen s.cur.seq && fld (s.src a) 32 32 == 0) = false := by
    obtain h | h := h
    · simp [h]
    · have hf : fld (s.src a) 32 32 ≠ 0 := by
        have := (s.src a).isLt
        simp only [uns] at h
        simp only [fld, BitVec.extractLsb'_toNat, Nat.shiftRight_eq_div_pow]
        omega
      simp [hf]
  simp only [State.markRun, hn]
  rfl

end Sys2Proof.Machine
end

section
/-!
Vector instructions at issue: O40.
-/
namespace Sys2Proof.Proofs

open Sys2Proof Sys2Proof.Machine

/-- Settles O40: each instruction is handed with the scalars it names, and a step stops at the first of the two traps of decode. -/
theorem vectorInstructionsAreHanded : Obligations.VectorInstructionsAreHanded := by
  unfold Obligations.VectorInstructionsAreHanded
  refine ⟨fun s o c r z hg => ⟨fun i hi => ?_, enters_of_handEntry hg rfl, fun i hi => ?_, enters_of_handEntry hg rfl,
    enters_of_handEntry hg rfl, fun i hi => ?_, enters_of_handScalar hg rfl, enters_of_handScalar hg rfl⟩,
    fun s u w c i hb hi hf hc ha hd => ⟨fun hbar hr hguard hne => ?_, fun k hill hk => ?_⟩,
    fun s a n g hg => ⟨fun hr ha => ?_, fun h => ?_⟩⟩
  · refine enters_of_handEntry hg ?_
    simp only [List.mem_cons, List.not_mem_nil, or_false] at hi
    rcases hi with rfl | rfl | rfl | rfl | rfl | rfl | rfl | rfl | rfl | rfl | rfl | rfl | rfl <;> rfl
  · refine enters_of_handEntry hg ?_
    simp only [List.mem_cons, List.not_mem_nil, or_false] at hi
    rcases hi with rfl | rfl <;> rfl
  · refine enters_of_handScalar hg ?_
    simp only [List.mem_cons, List.not_mem_nil, or_false] at hi
    rcases hi with rfl | rfl | rfl <;> rfl
  · obtain ⟨g, hgo, hg⟩ := hguard
    have hill := illAtIssue_barred (s := u.latchWords w) hbar hr hgo hg hne
    rw [step_fetched hb hi hf hc, runWords_ill hd (by rw [openA_of_open ha]; exact hill)]
    rfl
  · obtain ⟨hmem, hle⟩ := overAllot_some hk
    refine ⟨hmem, hle, ?_⟩
    rw [step_fetched hb hi hf hc, runWords_overAllot hd (by rw [openA_of_open ha]; exact hill) (by rw [openA_of_open ha]; exact hk)]
    rfl
  · exact (guarded_true hg _).trans (by rw [markRun_ok hr ha]; rfl)
  · exact (guarded_true hg _).trans (by rw [markRun_ill h]; rfl)

end Sys2Proof.Proofs
end

section
/-!
SUPPORT. The line of an aligned word as the L2 delivers it, and the accesses through the L2, which draw no free choice.
-/
namespace Sys2Proof.Machine

open Sys2Proof

theorem touched_of_aligned {a : Nat} (h : a % 8 = 0) : touched a 8 = [a / 8] := by
  have hn : (a + 8 + 7) / 8 - a / 8 = 1 := by omega
  simp [touched, hn]

/-- The place of an aligned word in its line. -/
theorem word_of_aligned {pa : Nat} (h : pa % 8 = 0) : pa / 128 * 128 + 8 * (pa % 128 / 8) = pa := by omega

theorem lineAt_word (s : State) (ro : Bool) {pa : Nat} (h : pa % 8 = 0) :
    (s.lineAt pa ro).words.getD (pa % 128 / 8) 0 = BitVec.ofNat 64 (natOfBytes (s.mem.rdBytes pa 8)) := by
  have hi : pa % 128 / 8 < 16 := by omega
  simp [State.lineAt, hi, word_of_aligned h]

/-- An aligned word of a line is delivered poisoned when the word carries poison. -/
theorem lineAt_poisoned (s : State) (ro : Bool) {pa : Nat} (h : pa % 8 = 0) (tree : Bool) (cls key : Nat) :
    (s.lineAt pa ro).poisoned (pa % 128) 8 = s.poisonedAt (.mem pa tree cls key) 8 := by
  have hi : pa % 128 / 8 < 16 := by omega
  have hw : pa / 128 * 128 / 8 + pa % 128 / 8 = pa / 8 := by omega
  simp [CacheLine.poisoned, State.poisonedAt, touched_of_aligned h, touched_of_aligned (a := pa % 128) (by omega), State.lineAt,
    hi, hw, List.contains_eq_mem]

/-- The eight bytes of an aligned word of a line. -/
theorem take_drop_flatMap_bytes (ws : List (BitVec 64)) (i : Nat) (h : i < ws.length) :
    ((ws.flatMap fun w => bytesOfNat 8 w.toNat).drop (8 * i)).take 8 = bytesOfNat 8 ws[i].toNat := by
  induction ws generalizing i with
  | nil => simp at h
  | cons w ws ih =>
    have hl : (bytesOfNat 8 w.toNat).length = 8 := by simp [bytesOfNat]
    cases i with
    | zero => simp [hl]
    | succ i =>
      have hd : (bytesOfNat 8 w.toNat).drop (8 * i + 8) = [] := List.drop_eq_nil_of_le (by omega)
      simpa [List.drop_append, hl, hd, Nat.mul_succ] using ih i (by simpa using h)

/-- The word that eight aligned bytes of a line make. -/
theorem lineAt_bytes (s : State) (ro : Bool) {pa : Nat} (h : pa % 8 = 0) :
    BitVec.ofNat 64 (natOfBytes ((s.lineAt pa ro).bytes (pa % 128) 8)) = BitVec.ofNat 64 (natOfBytes (s.mem.rdBytes pa 8)) := by
  have hl : pa % 128 / 8 < (s.lineAt pa ro).words.length := by simp [State.lineAt]; omega
  have ho : pa % 128 = 8 * (pa % 128 / 8) := by omega
  have hw := lineAt_word s ro h
  rw [List.getD_eq_getElem _ _ hl] at hw
  rw [CacheLine.bytes]
  conv_lhs => rw [ho]
  rw [take_drop_flatMap_bytes _ _ hl, hw, natOfBytes_bytesOfNat]
  exact BitVec.eq_of_toNat_eq (by simp)

/-! ## Accesses through the L2 -/

/-- The state after `n` more free choices have been drawn. -/
def State.withTick (s : State) (n : Nat) : State := { s with tick := n }

theorem foldl_withTick {α : Type} (n : Nat) (f : State → α → State) (h : ∀ s x, f (s.withTick n) x = (f s x).withTick n)
    (xs : List α) (s : State) : xs.foldl f (s.withTick n) = (xs.foldl f s).withTick n := by
  induction xs generalizing s with
  | nil => rfl
  | cons x xs ih => rw [List.foldl_cons, h, ih, List.foldl_cons]

/-- An access through the L2 draws no free choice and asks for none. -/
theorem l2Access_withTick (s : State) (n core : Nat) (launch : Option Nat) (l : Loc) (len : Nat) (w : Bool) (bs : List Byte)
    (pasid : Option (BitVec 20)) :
    (s.withTick n).l2Access core launch l len w bs pasid = (s.l2Access core launch l len w bs pasid).withTick n := by
  cases l with
  | mem pa tree cls key =>
    refine foldl_withTick n _ (fun s p => ?_) _ s
    cases launch <;> rfl
  | _ => rfl

/-- A change of a core that is not one of its slots or its local memory leaves every slot and all of memory. -/
theorem State.slot_modCore_keep (s : State) (n : Nat) (f : Core → Core) (h : ∀ c, (f c).slots = c.slots) (core k : Nat) :
    (s.modCore n f).slot core k = s.slot core k := by
  by_cases hn : n = core
  · subst hn
    simp [State.slot, Core.slot, h]
  · simp [State.slot, State.core_modCore_other _ f hn]

theorem State.cur_modCore_keep (s : State) (n : Nat) (f : Core → Core) (h : ∀ c, (f c).slots = c.slots) : (s.modCore n f).cur = s.cur :=
  State.slot_modCore_keep s n f h s.curCore s.curSlot

theorem sameMemory_modCore (s : State) (n : Nat) (f : Core → Core) (h : ∀ c, (f c).lm = c.lm) : SameMemory s (s.modCore n f) :=
  sameMemory_of_mem_lm rfl fun m => by
    by_cases hn : n = m
    · subst hn
      simp [h]
    · rw [State.core_modCore_other _ f hn]

theorem l2Access_sameMemory (s : State) (core : Nat) (launch : Option Nat) (l : Loc) (n : Nat) (w : Bool) (bs : List Byte)
    (pasid : Option (BitVec 20)) : SameMemory s (s.l2Access core launch l n w bs pasid) :=
  sameMemory_of_mem_lm (by simp) fun n => by simp [State.core]

/-- What an access through the L2 leaves as it is. -/
theorem l2Access_keeps (s : State) (core : Nat) (launch : Option Nat) (l : Loc) (n : Nat) (w : Bool) (bs : List Byte)
    (pasid : Option (BitVec 20)) : (s.l2Access core launch l n w bs pasid).cur = s.cur ∧
      (s.l2Access core launch l n w bs pasid).lat = s.lat ∧
      (s.l2Access core launch l n w bs pasid).breakpoints = s.breakpoints ∧
      (s.l2Access core launch l n w bs pasid).curSlot = s.curSlot := by
  obtain ⟨h, p, q, ls, e⟩ := l2Access_frame s core launch l n w bs pasid
  rw [e]
  exact ⟨rfl, rfl, rfl, rfl⟩

/-- The line of a place as the L2 delivers it, one free choice later. -/
def State.throughL2 (s : State) (pa : Nat) (tree : Bool) (cls key : Nat) : State :=
  (s.withTick (s.tick + 1)).l2Access s.curCore s.cur.launch (.mem (pa / 128 * 128) tree cls key) 128 false

theorem throughL2_eq (s : State) (pa : Nat) (tree : Bool) (cls key : Nat) : s.throughL2 pa tree cls key =
    (s.l2Access s.curCore s.cur.launch (.mem (pa / 128 * 128) tree cls key) 128 false).withTick (s.tick + 1) :=
  l2Access_withTick ..

theorem throughL2_withTick (s : State) (n pa : Nat) (tree : Bool) (cls key : Nat) : (s.withTick n).throughL2 pa tree cls key =
    (s.l2Access s.curCore s.cur.launch (.mem (pa / 128 * 128) tree cls key) 128 false).withTick (n + 1) :=
  l2Access_withTick s (n + 1) ..

@[simp] theorem throughL2_mem (s : State) (pa : Nat) (tree : Bool) (cls key : Nat) : (s.throughL2 pa tree cls key).mem = s.mem := by
  rw [State.throughL2, l2Access_mem]
  rfl

theorem throughL2_poisonedAt (s : State) (pa : Nat) (tree : Bool) (cls key : Nat) (l : Loc) (n : Nat) :
    (s.throughL2 pa tree cls key).poisonedAt l n =
      (s.l2Access s.curCore s.cur.launch (.mem (pa / 128 * 128) tree cls key) 128 false).poisonedAt l n := by
  rw [throughL2_eq]
  rfl

theorem throughL2_keeps (s : State) (pa : Nat) (tree : Bool) (cls key : Nat) : (s.throughL2 pa tree cls key).cur = s.cur ∧
    (s.throughL2 pa tree cls key).lat = s.lat ∧ (s.throughL2 pa tree cls key).breakpoints = s.breakpoints ∧
    (s.throughL2 pa tree cls key).curSlot = s.curSlot := by
  obtain ⟨hcur, hlat, hbp, hslot⟩ := l2Access_keeps s s.curCore s.cur.launch (.mem (pa / 128 * 128) tree cls key) 128 false []
    (s.pasidOf s.cur.launch)
  rw [throughL2_eq]
  exact ⟨hcur, hlat, hbp, hslot⟩

theorem throughL2_sameMemory (s : State) (pa : Nat) (tree : Bool) (cls key : Nat) : SameMemory s (s.throughL2 pa tree cls key) := by
  have h := l2Access_sameMemory s s.curCore s.cur.launch (.mem (pa / 128 * 128) tree cls key) 128 false []
    (s.pasidOf s.cur.launch)
  rw [throughL2_eq]
  exact h

end Sys2Proof.Machine
end

section
/-!
Fetch: O5.
-/
namespace Sys2Proof.Machine

open Sys2Proof

/-- A line of code kept in a core's instruction cache. -/
def Core.keepCode (c : Core) (t pa : Nat) (line : CacheLine) : Core :=
  { c with icache := fillCache icacheLines (Config.choose t) (pa / 128) line c.icache }

def State.keepCode (s : State) (t pa : Nat) (line : CacheLine) : State := s.modHere (·.keepCode t pa line)

theorem keepCode_keeps (s : State) (t pa : Nat) (line : CacheLine) : (s.keepCode t pa line).cur = s.cur ∧
    (s.keepCode t pa line).lat = s.lat ∧ (s.keepCode t pa line).breakpoints = s.breakpoints ∧
    SameMemory s (s.keepCode t pa line) :=
  ⟨State.cur_modCore_keep s s.curCore (·.keepCode t pa line) (fun _ => rfl), rfl, rfl,
    sameMemory_modCore _ _ _ fun _ => rfl⟩

theorem readCode_of_empty {s : State} {pa cls key : Nat} {tree : Bool} (hi : s.here.icache = []) :
    s.readCode (.mem pa tree cls key) =
      ((s.throughL2 pa tree cls key).keepCode s.tick pa ((s.throughL2 pa tree cls key).lineAt pa true),
        ((s.throughL2 pa tree cls key).lineAt pa true).words.getD (pa % 128 / 8) 0,
        ((s.throughL2 pa tree cls key).lineAt pa true).poisoned (pa % 128) 8) := by
  have hi' : s.fresh.2.here.icache = [] := hi
  unfold State.readCode
  simp only [hi', List.find?_nil]
  rfl

/-- A group that no copy of the core holds is read at the home, and neither registers nor memory change. -/
theorem readCode_uncached {s : State} {pa cls key : Nat} {tree : Bool} (hi : s.here.icache = []) (ha : pa % 8 = 0)
    (hp : (s.l2Access s.curCore s.cur.launch (.mem (pa / 128 * 128) tree cls key) 128 false).poisonedAt (.mem pa tree cls key) 8 = false) :
    ∃ u, s.readCode (.mem pa tree cls key) = (u, BitVec.ofNat 64 (natOfBytes (s.mem.rdBytes pa 8)), false) ∧
      u.cur = s.cur ∧ u.lat = s.lat ∧ u.breakpoints = s.breakpoints ∧ SameMemory s u := by
  have hclean := (throughL2_poisonedAt s pa tree cls key (.mem pa tree cls key) 8).trans hp
  obtain ⟨hcur, hlat, hbp, -⟩ := throughL2_keeps s pa tree cls key
  obtain ⟨hcur', hlat', hbp', hkeep⟩ := keepCode_keeps (s.throughL2 pa tree cls key) s.tick pa
    ((s.throughL2 pa tree cls key).lineAt pa true)
  refine ⟨_, ?_, hcur'.trans hcur, hlat'.trans hlat, hbp'.trans hbp, SameMemory.trans (throughL2_sameMemory s pa tree cls key) hkeep⟩
  rw [readCode_of_empty hi, lineAt_word _ _ ha, lineAt_poisoned _ _ ha tree cls key, hclean, throughL2_mem]

/-- A group kept in the fetch buffer of the current slot. -/
def State.bufferGroup (s : State) (dva : Nat) (g : BitVec 64) : State := s.modCur fun x =>
  { x with fbuf := ((dva, g) :: x.fbuf.filter fun (kv : Nat × BitVec 64) => kv.1 != dva).take 4, grants := [] }

theorem State.bufferGroup_pc (s : State) (dva : Nat) (g : BitVec 64) : (s.bufferGroup dva g).cur.pc = s.cur.pc := by
  refine s.cur_modCur_keeps _ Slot.pc ?_
  exact fun _ => rfl

/-- A group that no buffer and no cache of the slot holds comes from where its DVA leads. -/
theorem fetch_unbuffered {s u : State} {dva pa cls key : Nat} {tree : Bool} {g : BitVec 64} (hd : s.fetchDva = .ok dva)
    (hp : s.cur.poisoned = false) (hc : s.cur.regPoison.contains 40 = false) (hb : s.cur.fbuf = [])
    (hl : s.fetchLoc dva = .ok (.mem pa tree cls key)) (hr : s.readCode (.mem pa tree cls key) = (u, g, false)) :
    s.fetch = (u.bufferGroup dva g, .ok (g, (u.bufferGroup dva g).breakAt dva)) := by
  have hbuf : s.fromBuffer dva = (s, none) := by simp [State.fromBuffer, hb]
  unfold State.fetch
  rw [hd]
  dsimp only
  rw [hp, hc, hbuf]
  dsimp only [Bool.false_eq_true, if_false]
  rw [hl]
  dsimp only
  rw [hr]
  rfl

/-- The DVA of an aligned pc in an executable c0. -/
theorem fetchDva_ok {s : State} (hx : (s.cap 0).x = true) (ha : s.lat.pc.toNat % 8 = 0)
    (hl : s.lat.pc.toNat + 8 ≤ (s.cap 0).limit) (hd : (s.cap 0).base + s.lat.pc.toNat < 2 ^ 56)
    (hw : isWindow ((s.cap 0).base + s.lat.pc.toNat) = false) :
    s.fetchDva = .ok ((s.cap 0).base + s.lat.pc.toNat) := by
  have hn : ((s.cap 0).x && s.lat.pc.toNat % 8 == 0 && decide (s.lat.pc.toNat + 8 ≤ (s.cap 0).limit ∧
      (s.cap 0).base + s.lat.pc.toNat < 2 ^ 56) && !isWindow ((s.cap 0).base + s.lat.pc.toNat)) = true := by
    rw [hx, hw, decide_eq_true ⟨hl, hd⟩, beq_iff_eq.mpr ha]
    rfl
  exact congrArg (· >>= fun _ => _) (congrArg (need · _) hn)

/-- A page that the port maps executable is fetched from. -/
theorem fetchLoc_ok {s : State} {dva : Nat} {e : TlbEntry} (hw : s.cur.walkFailed (s.asidOf s.cur) dva .fetch = none)
    (he : s.tlbFind s.curCore s.cur (s.asidOf s.cur) dva = some e) (hx : e.pte.getLsbD 46 = true) :
    s.fetchLoc dva = .ok (e.loc dva) := by
  simp only [State.fetchLoc, xlate_ok hw he rfl, he, hx]
  rfl

end Sys2Proof.Machine

namespace Sys2Proof.Proofs

open Sys2Proof Sys2Proof.Machine

/-- Settles O5: the checks of the pc give the page's place, and no copy stands before the line that the L2 delivers. -/
theorem fetchReadsTheGroupAtThePc : Obligations.FetchReadsTheGroupAtThePc := by
  unfold Obligations.FetchReadsTheGroupAtThePc
  intro s e pa cls key t hs pc k dva hx hal hlim hdva hwin hpois h40 hfbuf hic hbrk hwalk htlb hexec hloc hpa hclean
  have hcont : s.cur.regPoison.contains 40 = false := by simpa using h40
  obtain ⟨u, hread, hcur, hlat, hbp, hmem⟩ := readCode_uncached hic hpa hclean
  refine ⟨u.bufferGroup dva (BitVec.ofNat 64 (natOfBytes (s.mem.rdBytes pa 8))), ?_, ?_, hlat, SameMemory.trans hmem (sameMemory_modCur u _)⟩
  · rw [fetch_unbuffered (fetchDva_ok hx hal hlim hdva hwin) hpois hcont hfbuf (fetchLoc_ok hwalk htlb hexec |>.trans (by rw [hloc])) hread]
    simp only [State.breakAt, State.bufferGroup, State.modCur_breakpoints, hbp, hbrk]
    rfl
  · exact (u.bufferGroup_pc _ _).trans (by rw [hcur])

end Sys2Proof.Proofs
end

section
/-!
SUPPORT. A strand whose own accesses have all been performed: no row waits, no drain is queued, the core's path is empty and no STG is
in flight. What comes before an access of such a strand does nothing.
-/
namespace Sys2Proof.Machine

open Sys2Proof

/-! ## Rows and drains -/

/-- No row of a slot waits for its elements. -/
def Slot.RowsIn (x : Slot) : Prop := ∀ q, q < 4 → x.waitingRow q = none

theorem Slot.not_waiting_of_rowsIn {x : Slot} (h : x.RowsIn) {q : Nat} (hq : q < 4) {r : LqRow} (hr : r ∈ x.lq[q]?.getD []) :
    ∃ vs, r = .arrived vs := by
  cases r with
  | arrived vs => exact ⟨vs, rfl⟩
  | waiting kind elems sage at' =>
    exfalso
    have hw := h q hq
    unfold Slot.waitingRow at hw
    dsimp only at hw
    split at hw
    · next hf => simpa using List.findIdx?_eq_none_iff.mp hf _ hr
    · next i hf =>
      obtain ⟨hi, hp, -⟩ := List.findIdx?_eq_some_iff_getElem.mp hf
      have hg : (x.lq[q]?.getD [])[i]? = some (x.lq[q]?.getD [])[i] := List.getElem?_eq_getElem hi
      cases hv : (x.lq[q]?.getD [])[i] with
      | arrived vs => simp [hv] at hp
      | waiting kind elems sage at' =>
        rw [hv] at hg
        rw [hg] at hw
        cases hw

theorem Slot.rowsAll_of_rowsIn {x : Slot} (h : x.RowsIn) (p : RowWait → Bool) : x.rowsAll p = true := by
  unfold Slot.rowsAll
  simp only [List.all_eq_true, List.mem_range]
  intro q hq r hr
  obtain ⟨vs, rfl⟩ := x.not_waiting_of_rowsIn h hq hr
  rfl

theorem Slot.rowsOn_of_rowsIn {x : Slot} (h : x.RowsIn) (l : Loc) (n : Nat) : x.rowsOn l n = false := by
  simp [Slot.rowsOn, x.rowsAll_of_rowsIn h]

theorem Slot.oldestRow_of_rowsIn {x : Slot} (h : x.RowsIn) : x.oldestRow = none := by
  simp [Slot.oldestRow, List.range, List.range.loop, h 0, h 1, h 2, h 3]

theorem fillRows_of_rowsIn {s : State} {core slot : Nat} (h : (s.slot core slot).RowsIn) : s.fillRows core slot = (s, none) := by
  have hf : ∀ xs : List Nat, xs.foldl (fun (r : State × Option Nat) _ => match r with
      | (s, none) => s.fillOldest core slot false
      | r => r) (s, none) = (s, none) := by
    intro xs
    induction xs with
    | nil => rfl
    | cons x xs ih => simpa [State.fillOldest, Slot.oldestRow_of_rowsIn h] using ih
  exact hf _

theorem rowsIn_quiet {s : State} (h : s.cur.RowsIn) : s.rowsIn = .ok s := by
  have hr : s.rowsReady s.curCore s.curSlot = true := Slot.rowsAll_of_rowsIn h _
  have hf : s.fillRows s.curCore s.curSlot = (s, none) := fillRows_of_rowsIn h
  simp only [State.rowsIn, hr, hf]
  rfl

theorem Slot.drainsOn_of_none {x : Slot} (h : x.drainsQueued = 0) (before : Nat) (l : Loc) (n : Nat) :
    x.drainsOn before l n = false := by
  have he : ∀ ds ∈ x.drains.toList, ds = [] := by
    simpa [Slot.drainsQueued, List.sum_eq_zero_iff] using h
  simp only [Slot.drainsOn, List.any_eq_false]
  intro ds hds
  simp [he ds hds]

/-! ## What comes before an access -/

theorem drainsOff_quiet {s : State} (h : s.cur.drainsQueued = 0) (l : Loc) (n : Nat) : s.drainsOff l n = .ok () := by
  simp [State.drainsOff, Slot.drainsOn_of_none h]

theorem flushOwner_nil {s : State} (h : s.stgs = []) (o : StgOwner) (p : Loc → Bool) : s.flushOwner o p = s := by
  simp [State.flushOwner, h]

theorem flushTo_quiet {s : State} {core : Nat} (hp : (s.core core).path = []) (hs : s.stgs = []) (slot : Nat) (l : Loc) (n : Nat) :
    s.flushTo core slot l n = s := by
  simp [State.flushTo, State.flushStgs, hp, pathPrefix, State.performPath, flushOwner_nil hs]

theorem ownFirst_quiet {s : State} (h : StoresIn s) (l : Loc) (n : Nat) : s.ownFirst l n = .ok s := by
  obtain ⟨hp, hs, hd, hr⟩ := h
  have hfree : s.pathFree s.curCore l n = true := by
    have hp' : (s.core s.curCore).path = [] := hp
    simp [State.pathFree, prefixFree, hp']
  have hout : s.stgOut s.curCore s.curSlot l n = false := by simp [State.stgOut, hs]
  simp only [State.ownFirst, drainsOff_quiet hd, hfree, hout, rowsIn_quiet hr]
  exact congrArg Except.ok (flushTo_quiet hp hs _ _ _)

theorem release_quiet {s : State} (h : StoresIn s) : s.release = .ok s := by
  obtain ⟨hp, hs, hd, hr⟩ := h
  have hp' : (s.core s.curCore).path = [] := hp
  have hout : s.pathOut s.curCore s.curSlot s.waitsSince = false := by simp [State.pathOut, hp']
  have hdr : s.drainsIn = .ok () := by simp [State.drainsIn, hd]
  simp only [State.release, hdr, hout, rowsIn_quiet hr]
  refine congrArg Except.ok ?_
  simp [State.drainStores, hp', State.performPath]

/-- An access of no capability with S is not checked (R131). -/
theorem sage_unchecked (s : State) (core slot : Nat) (l : Loc) (dva : Nat) (w : Bool) (scope : Nat) (canTrap : Bool) :
    s.sage core slot false l dva w scope canTrap = .ok s := by
  cases l <;> rfl

/-! ## Answers -/

/-- An answer that is in, of an access that has changed nothing of the strand. -/
theorem repliesWith_served {s u : State} (hk : u.curSlot < 16) (h : SameStrand s u) (ws : List (Nat × Word)) :
    RepliesWith s (served (u.replyWith ws)) ws ∧ SameMemory u (served (u.replyWith ws)) := by
  obtain ⟨hs, hp, hc, hpc, hst⟩ := h
  have hv : (u.replyWith ws).cur = { u.cur with st := .reply, reply := some ⟨.now, ws, false⟩, out := none } :=
    State.cur_modCur u _ hk
  have ht : (served (u.replyWith ws)).cur = { (u.replyWith ws).cur with grants := [], since := none, walk := none, inl := none } :=
    State.cur_modCur (u.replyWith ws) _ hk
  refine ⟨⟨?_, ?_, ?_, ?_, ?_, ?_, ?_⟩, SameMemory.trans (sameMemory_modCur u _) (sameMemory_modCur _ _)⟩ <;> rw [ht, hv]
  exacts [hs, hp, hc, hpc, hst]

end Sys2Proof.Machine
end

section
/-!
Loads: O27.
-/
namespace Sys2Proof.Machine

open Sys2Proof

/-- A line kept in a core's L1 by a load, under the stores of the core's path. -/
def Core.keepLoad (c : Core) (t pa : Nat) (line : CacheLine) : Core :=
  { c with l1 := fillCache l1Lines (Config.choose t) (pa / 128) (line.laid (pa / 128) c.path) c.l1 }

/-- A plain read that no L1 line serves (R123). -/
theorem readHome_plain (s : State) (pa : Nat) (tree : Bool) (cls key n : Nat) (ro : Bool) :
    s.readHome s.curCore s.curSlot (.mem pa tree cls key) n false true ro =
      ((s.throughL2 pa tree cls key).modCore s.curCore (·.keepLoad s.tick pa ((s.throughL2 pa tree cls key).lineAt pa ro)),
        ((s.throughL2 pa tree cls key).lineAt pa ro).bytes (pa % 128) n,
        ((s.throughL2 pa tree cls key).lineAt pa ro).poisoned (pa % 128) n) := rfl

theorem l1Hit_of_empty {s : State} (h : s.here.l1 = []) (pa : Nat) (tree : Bool) (cls key : Nat) (checked : Bool) :
    s.l1Hit s.curCore (.mem pa tree cls key) checked = (s.withTick (s.tick + 1), none) := by
  have hl : (s.fresh.2.core s.curCore).l1 = [] := h
  unfold State.l1Hit
  simp only [hl, List.find?_nil]
  rfl

/-- The state in which the L2 has delivered the line of a load that looked into the L1 first. -/
def State.fetchLine (s : State) (pa : Nat) (tree : Bool) (cls key : Nat) : State :=
  (s.withTick (s.tick + 1)).throughL2 pa tree cls key

/-- A load of a word whose strand has no store on its way and whose core holds no line takes it from the line that is delivered. -/
theorem plainLoad_uncached {s : State} (hs : StoresIn s) (hl : s.here.l1 = []) (pa : Nat) (tree : Bool) (cls key : Nat) (ro : Bool) :
    s.plainLoad (.mem pa tree cls key) 8 false ro = .ok
      ((s.fetchLine pa tree cls key).modCore s.curCore (·.keepLoad (s.tick + 1) pa ((s.fetchLine pa tree cls key).lineAt pa ro)),
        ((s.fetchLine pa tree cls key).lineAt pa ro).bytes (pa % 128) 8,
        ((s.fetchLine pa tree cls key).lineAt pa ro).poisoned (pa % 128) 8) := by
  obtain ⟨hp, hg, hd, hr⟩ := hs
  have hs' : StoresIn (s.withTick (s.tick + 1)) := ⟨hp, hg, hd, hr⟩
  have hrows : s.cur.rowsOn (.mem pa tree cls key) 8 = false := Slot.rowsOn_of_rowsIn hr _ _
  unfold State.plainLoad
  simp only [drainsOff_quiet hd, hrows, Bool.false_eq_true, if_false, l1Hit_of_empty hl, ownFirst_quiet hs']
  rfl

/-- LD of a word that is not delivered poisoned. -/
theorem load_uncached {s : State} {c : CapIx} {off : Word} {d : Reg} {pa cls key dva : Nat} {tree : Bool} (hs : StoresIn s)
    (hl : s.here.l1 = []) (hk : (s.cap c).s = false) (ha : pa % 8 = 0)
    (hp : (s.l2Access s.curCore s.cur.launch (.mem (pa / 128 * 128) tree cls key) 128 false).poisonedAt (.mem pa tree cls key) 8 = false)
    (hg : s.globalLoc c off 8 true false .read .other = .ok (.mem pa tree cls key, dva)) :
    ∃ u, s.load c off d = .ok (u.replyReg d (BitVec.ofNat 64 (natOfBytes (s.mem.rdBytes pa 8)))) ∧ u.curSlot = s.curSlot ∧
      u.cur = s.cur ∧ SameMemory s u := by
  have hclean : ((s.fetchLine pa tree cls key).lineAt pa ((s.cap c).q || s.pageQ dva)).poisoned (pa % 128) 8 = false := by
    rw [lineAt_poisoned _ _ ha tree cls key, State.fetchLine, throughL2_withTick]
    exact hp
  have hword := lineAt_bytes (s.fetchLine pa tree cls key) ((s.cap c).q || s.pageQ dva) ha
  rw [show (s.fetchLine pa tree cls key).mem = s.mem from throughL2_mem ..] at hword
  obtain ⟨hcur, -, -, hslot⟩ := throughL2_keeps (s.withTick (s.tick + 1)) pa tree cls key
  have hmem := throughL2_sameMemory (s.withTick (s.tick + 1)) pa tree cls key
  refine ⟨(s.fetchLine pa tree cls key).modCore s.curCore (·.keepLoad (s.tick + 1) pa
    ((s.fetchLine pa tree cls key).lineAt pa ((s.cap c).q || s.pageQ dva))), ?_, hslot, ?_, ?_⟩
  · unfold State.load
    simp only [hg, hk, Bool.false_eq_true, if_false, partition]
    simp only [bind, Except.bind, sage_unchecked, plainLoad_uncached hs hl, hclean, hword, Bool.false_eq_true, if_false]
  · exact (State.cur_modCore_keep (s.fetchLine pa tree cls key) s.curCore (·.keepLoad (s.tick + 1) pa _) fun _ => rfl).trans hcur
  · exact SameMemory.trans (r := s) hmem (sameMemory_modCore (s.fetchLine pa tree cls key) s.curCore (·.keepLoad (s.tick + 1) pa _)
      fun _ => rfl)

/-- LD of a word that is not delivered poisoned answers it and changes no memory. -/
theorem exec_load {s : State} {i : Instr} {c : CapIx} {off : Word} {d : Reg} {pa cls key dva : Nat} {tree : Bool}
    (hi : exec i s = finish s (s.load c off d)) (hk : SlotOk s) (hs : StoresIn s) (hl : s.here.l1 = []) (hc : (s.cap c).s = false)
    (ha : pa % 8 = 0)
    (hp : (s.l2Access s.curCore s.cur.launch (.mem (pa / 128 * 128) tree cls key) 128 false).poisonedAt (.mem pa tree cls key) 8 = false)
    (hg : s.globalLoc c off 8 true false .read .other = .ok (.mem pa tree cls key, dva)) :
    ∃ t, exec i s = .next t ∧ RepliesWith s t [(d.toNat, BitVec.ofNat 64 (natOfBytes (s.mem.rdBytes pa 8)))] ∧ SameMemory s t := by
  obtain ⟨u, hu, hslot, hcur, hmem⟩ := load_uncached (d := d) hs hl hc ha hp hg
  have hsame : SameStrand s u := by simp only [SameStrand, hcur, and_self]
  obtain ⟨hr, hm⟩ := repliesWith_served (hslot ▸ hk : u.curSlot < 16) hsame
    [(d.toNat, BitVec.ofNat 64 (natOfBytes (s.mem.rdBytes pa 8)))]
  exact ⟨_, by rw [hi, hu]; rfl, hr, SameMemory.trans hmem hm⟩

/-! ## Replies written (R49) -/

theorem Slot.setCodes_seqReply (x : Slot) (ws : List (Nat × Word)) : (x.setCodes ws).seqReply = x.seqReply := by
  induction ws generalizing x with
  | nil => rfl
  | cons w ws ih => exact (ih _).trans (by simp)

@[simp] theorem Slot.setCodes_coupled (x : Slot) (ws : List (Nat × Word)) : (x.setCodes ws).coupled = x.coupled := by
  induction ws generalizing x with
  | nil => rfl
  | cons w ws ih => exact (ih _).trans (by simp)

/-- A slot that goes on without a scalar owed to it by its sequencer is READY. -/
theorem State.slot_wake {s : State} {core slot : Nat} (hk : slot < 16) (hq : (s.slot core slot).seqReply = false)
    (ws : List (Nat × Word)) :
    (s.wake core slot ws).slot core slot = { (s.slot core slot).setCodes ws with st := .ready, park := none, reply := none } := by
  simp [State.wake, hk, Slot.goOn, Slot.setCodes_seqReply, hq]

theorem sameMemory_wake (s : State) (core slot : Nat) (ws : List (Nat × Word)) : SameMemory s (s.wake core slot ws) :=
  sameMemory_of_mem_lm rfl fun n => State.lm_modSlot s _ _ _ n

/-- A reply that has come wakes a slot that is not coupled. -/
theorem writeReply_now {s : State} {core slot : Nat} {ws : List (Nat × Word)} (hk : slot < 16)
    (hc : (s.slot core slot).coupled = false) (hst : (s.slot core slot).st = .reply)
    (hr : (s.slot core slot).reply = some ⟨.now, ws, false⟩) : s.writeReply core slot [] = s.wake core slot ws := by
  have hw : ((s.wake core slot ws).slot core slot).coupled = false := by
    simp [State.wake, hk, Slot.goOn, hc]
  simp [State.writeReply, hr, hst, State.replyDue, State.coupledReply, hw]

end Sys2Proof.Machine

namespace Sys2Proof.Proofs

open Sys2Proof Sys2Proof.Machine

/-- Settles O27: with nothing of the word on its way or held, LD takes the line that the L2 delivers. -/
theorem loadsAnswer : Obligations.LoadsAnswer := by
  unfold Obligations.LoadsAnswer
  refine ⟨fun s d a c imm ext pa dva cl key tr hk hs hl hc hp => ⟨fun ha hg => ?_, fun ha hg => ?_⟩,
    fun s core slot ws hk hc => ⟨fun hst hr hq => ?_, fun b hr => ?_⟩⟩
  · exact exec_load rfl hk hs hl hc ha hp hg
  · exact exec_load rfl hk hs hl hc ha hp hg
  · have hw := State.slot_wake hk hq ws
    refine ⟨_, congrArg Host.Outcome.next (writeReply_now hk hc hst hr), ?_, ?_, hw, sameMemory_wake s core slot ws⟩ <;> rw [hw]
  · show Host.Outcome.next _ = _
    rw [hr]

end Sys2Proof.Proofs
end

section
/-!
SUPPORT. What the home of a word does for an access leaves the strand that makes it as it is: the line served, bytes written, the
issuer's L1 copy following, an acquire, and the service of waiters where none waits.
-/
namespace Sys2Proof.Machine

open Sys2Proof

/-- A change of memory and caches alone: the current strand, the wait lists and the launches are as they were. -/
structure Undisturbed (s t : State) : Prop where
  slot : t.curSlot = s.curSlot
  strand : SameStrand s t
  waiters : t.waiters = s.waiters
  coreWaiters : ∀ n, (t.core n).waiters = (s.core n).waiters
  launches : t.launches = s.launches

theorem sameStrand_of_cur {s t : State} (h : t.cur = s.cur) : SameStrand s t := by
  simp only [SameStrand, h, and_self]

theorem SameStrand.trans {r s t : State} (h : SameStrand r s) (h' : SameStrand s t) : SameStrand r t := by
  obtain ⟨a, b, c, d, e⟩ := h
  obtain ⟨a', b', c', d', e'⟩ := h'
  exact ⟨a'.trans a, b'.trans b, c'.trans c, d'.trans d, e'.trans e⟩

theorem Undisturbed.refl (s : State) : Undisturbed s s := ⟨rfl, sameStrand_of_cur rfl, rfl, fun _ => rfl, rfl⟩

theorem Undisturbed.trans {r s t : State} (h : Undisturbed r s) (h' : Undisturbed s t) : Undisturbed r t :=
  ⟨h'.slot.trans h.slot, SameStrand.trans h.strand h'.strand, h'.waiters.trans h.waiters,
    fun n => (h'.coreWaiters n).trans (h.coreWaiters n), h'.launches.trans h.launches⟩

theorem Undisturbed.noWaiters {s t : State} (h : Undisturbed s t) (hw : NoWaiters s) : NoWaiters t :=
  ⟨h.waiters.trans hw.1, fun n => (h.coreWaiters n).trans (hw.2 n)⟩

/-- A change of a core that is neither a slot nor the wait list of it. -/
theorem undisturbed_modCore (s : State) (n : Nat) (f : Core → Core) (hs : ∀ c, (f c).slots = c.slots)
    (hw : ∀ c, (f c).waiters = c.waiters) : Undisturbed s (s.modCore n f) := by
  refine ⟨rfl, sameStrand_of_cur (State.cur_modCore_keep s n f hs), rfl, fun m => ?_, rfl⟩
  by_cases hn : n = m
  · subst hn
    simp [hw]
  · rw [State.core_modCore_other _ f hn]

/-! ## The line served -/

theorem touch_undisturbed (s : State) (l : Loc) (w : Bool) (cl : Nat) (bs : List Byte) (pasid : Option (BitVec 20)) (inval : Bool) :
    Undisturbed s (s.touch l w cl bs pasid inval) := by
  obtain ⟨h, p, q, e⟩ := touch_frame s l w cl bs pasid inval
  rw [e]
  exact ⟨rfl, sameStrand_of_cur rfl, rfl, fun _ => rfl, rfl⟩

theorem touch_sameMemory (s : State) (l : Loc) (w : Bool) (cl : Nat) (bs : List Byte) (pasid : Option (BitVec 20)) (inval : Bool) :
    SameMemory s (s.touch l w cl bs pasid inval) := by
  obtain ⟨h, p, q, e⟩ := touch_frame s l w cl bs pasid inval
  rw [e]
  exact sameMemory_refl s

theorem serveMe_undisturbed (s : State) (l : Loc) (w inval : Bool) : Undisturbed s (s.serveMe l w inval) := touch_undisturbed ..

theorem serveMe_sameMemory (s : State) (l : Loc) (w inval : Bool) : SameMemory s (s.serveMe l w inval) := touch_sameMemory ..

theorem touchLines_undisturbed (s : State) (l : Loc) (n : Nat) (w : Bool) (cl : Nat) (bs : List Byte) (pasid : Option (BitVec 20))
    (inval : Bool) : Undisturbed s (s.touchLines l n w cl bs pasid inval) := by
  obtain ⟨h, p, q, e⟩ := touchLines_frame s l n w cl bs pasid inval
  rw [e]
  exact ⟨rfl, sameStrand_of_cur rfl, rfl, fun _ => rfl, rfl⟩

theorem touchLines_sameMemory (s : State) (l : Loc) (n : Nat) (w : Bool) (cl : Nat) (bs : List Byte) (pasid : Option (BitVec 20))
    (inval : Bool) : SameMemory s (s.touchLines l n w cl bs pasid inval) := by
  obtain ⟨h, p, q, e⟩ := touchLines_frame s l n w cl bs pasid inval
  rw [e]
  exact sameMemory_refl s

/-! ## Bytes written -/

theorem wrLoc_undisturbed (s : State) (l : Loc) (bs : List Byte) (p : Bool) : Undisturbed s (s.wrLoc l bs p) := by
  cases l with
  | mem pa t c k => exact ⟨rfl, sameStrand_of_cur rfl, rfl, fun _ => rfl, rfl⟩
  | lm core off =>
    unfold State.wrLoc
    apply undisturbed_modCore <;> exact fun _ => rfl
  | _ => exact .refl s

theorem refreshL1_undisturbed (s : State) (core : Nat) (l : Loc) (bs : List Byte) (p : Bool) : Undisturbed s (s.refreshL1 core l bs p) := by
  cases l with
  | mem pa t c k =>
    unfold State.refreshL1
    apply undisturbed_modCore <;> intro <;> rfl
  | _ => exact .refl s

theorem refreshL1_sameMemory (s : State) (core : Nat) (l : Loc) (bs : List Byte) (p : Bool) : SameMemory s (s.refreshL1 core l bs p) := by
  cases l with
  | mem pa t c k => exact sameMemory_modCore s core _ fun _ => rfl
  | _ => exact sameMemory_refl s

theorem rdBytes_congr {m m' : Memory} {n a : Nat} (h : ∀ j, a ≤ j → j < a + n → m.rd j = m'.rd j) :
    m.rdBytes a n = m'.rdBytes a n := by
  induction n generalizing a with
  | zero => rfl
  | succ n ih =>
    rw [Memory.rdBytes, Memory.rdBytes, h a (by omega) (by omega), ih fun j hj hj' => h j (by omega) (by omega)]

/-- What is read at a place is what memory holds there. -/
theorem rdLoc_of_sameMemory {s t : State} (h : SameMemory s t) (l : Loc) (n : Nat) : t.rdLoc l n = s.rdLoc l n := by
  obtain ⟨hm, hl⟩ := h
  cases l with
  | mem pa t c k => exact rdBytes_congr fun a _ _ => hm a
  | lm core off => exact rdBytes_congr fun a _ _ => hl core a
  | _ => rfl

/-- A write at a place leaves every byte outside it. -/
theorem sameOutside_wrLoc (s : State) (l : Loc) (bs : List Byte) (p : Bool) : SameOutside s (s.wrLoc l bs p) l bs.length := by
  refine ⟨fun a h => ?_, fun core a h => ?_⟩
  · cases l with
    | mem pa t c k => exact byteAt_wrLoc_other pa t c k bs p a (h pa t c k rfl)
    | _ => rfl
  · cases l with
    | lm n off =>
      by_cases hn : n = core
      · subst hn
        simp only [localByteAt, State.wrLoc, State.core_modCore_same]
        exact Memory.rd_wrBytes_other bs _ off a (h off rfl)
      · simp only [localByteAt, State.wrLoc, State.core_modCore_other _ _ hn]
    | _ => rfl

theorem sameOutside_of_sameMemory {s t : State} (h : SameMemory s t) (l : Loc) (n : Nat) : SameOutside s t l n :=
  ⟨fun a _ => h.1 a, fun core a _ => h.2 core a⟩

theorem sameOutside_trans {r s t : State} {l : Loc} {n : Nat} (h : SameOutside r s l n) (h' : SameOutside s t l n) :
    SameOutside r t l n :=
  ⟨fun a ha => (h'.1 a ha).trans (h.1 a ha), fun core a ha => (h'.2 core a ha).trans (h.2 core a ha)⟩

/-! ## Waiters and the acquire -/

theorem serve_quiet {s : State} (h : NoWaiters s) (l : Loc) : s.serve l = s := by
  have hl : s.waitList l = [] := by
    cases l with
    | lm core off => exact h.2 core
    | _ => exact h.1
  simp [State.serve, hl, State.serveLoop, State.servePass]

theorem serveAll_quiet {s : State} (h : NoWaiters s) (l : Loc) (n : Nat) : s.serveAll l n = s := by
  unfold State.serveAll
  generalize List.range ((l.addr % 8 + n + 7) / 8) = xs
  induction xs with
  | nil => rfl
  | cons x xs ih => rw [List.foldl_cons, serve_quiet h, ih]

theorem selfInvalidate_slot (s : State) (n core k : Nat) :
    ∃ b, (s.selfInvalidate n).slot core k = { s.slot core k with fbuf := b } := by
  by_cases hn : n = core
  · subst hn
    by_cases hk : k < 16
    · exact ⟨[], by simp [State.selfInvalidate, State.slot, Core.slot, hk]⟩
    · exact ⟨Slot.reset.fbuf, by simp [State.selfInvalidate, State.slot, Core.slot, hk]⟩
  · exact ⟨(s.slot core k).fbuf, by simp [State.selfInvalidate, State.slot, State.core_modCore_other _ _ hn]⟩

theorem selfInvalidate_undisturbed (s : State) (n : Nat) : Undisturbed s (s.selfInvalidate n) := by
  obtain ⟨b, hb⟩ := selfInvalidate_slot s n s.curCore s.curSlot
  have hcur : (s.selfInvalidate n).cur = { s.cur with fbuf := b } := hb
  refine ⟨rfl, by simp only [SameStrand, hcur, and_self], rfl, fun m => ?_, rfl⟩
  by_cases hn : n = m
  · subst hn
    simp [State.selfInvalidate]
  · rw [State.selfInvalidate, State.core_modCore_other _ _ hn]

theorem selfInvalidate_sameMemory (s : State) (n : Nat) : SameMemory s (s.selfInvalidate n) :=
  sameMemory_modCore s n _ fun _ => rfl

end Sys2Proof.Machine
end

section
/-!
Atomics: O30.
-/
namespace Sys2Proof.Machine

open Sys2Proof

/-! ## The operations (R271) -/

/-- The signed reading of a value of `n` bytes. -/
theorem signed_eq_toInt {n : Nat} (hn : 0 < n) (x : BitVec (8 * n)) :
    (if x.toNat < 2 ^ (8 * n) / 2 then (x.toNat : Int) else (x.toNat : Int) - (2 ^ (8 * n) : Nat)) = x.toInt := by
  have h2 : 2 ^ (8 * n) = 2 * 2 ^ (8 * n - 1) := by rw [← Nat.pow_succ']; congr 1; omega
  rw [BitVec.toInt_eq_toNat_cond]
  split <;> split <;> omega

theorem atomOp_smin {n : Nat} (hn : 0 < n) (x y : BitVec (8 * n)) :
    atomOp 4 n x.toNat y.toNat = (if x.sle y then x else y).toNat := by
  show (if (if x.toNat < 2 ^ (8 * n) / 2 then (x.toNat : Int) else (x.toNat : Int) - (2 ^ (8 * n) : Nat)) ≤
    (if y.toNat < 2 ^ (8 * n) / 2 then (y.toNat : Int) else (y.toNat : Int) - (2 ^ (8 * n) : Nat)) then x.toNat else y.toNat) = _
  rw [signed_eq_toInt hn, signed_eq_toInt hn, apply_ite BitVec.toNat]
  simp only [BitVec.sle_iff_toInt_le]

theorem atomOp_smax {n : Nat} (hn : 0 < n) (x y : BitVec (8 * n)) :
    atomOp 5 n x.toNat y.toNat = (if x.sle y then y else x).toNat := by
  show (if (if x.toNat < 2 ^ (8 * n) / 2 then (x.toNat : Int) else (x.toNat : Int) - (2 ^ (8 * n) : Nat)) ≤
    (if y.toNat < 2 ^ (8 * n) / 2 then (y.toNat : Int) else (y.toNat : Int) - (2 ^ (8 * n) : Nat)) then y.toNat else x.toNat) = _
  rw [signed_eq_toInt hn, signed_eq_toInt hn, apply_ite BitVec.toNat]
  simp only [BitVec.sle_iff_toInt_le]

theorem atomOp_umin (n : Nat) (x y : BitVec (8 * n)) : atomOp 6 n x.toNat y.toNat = (if x.ule y then x else y).toNat := by
  show min x.toNat y.toNat = _
  rw [apply_ite BitVec.toNat, Nat.min_def]
  simp only [BitVec.ule_iff_toNat_le]

theorem atomOp_umax (n : Nat) (x y : BitVec (8 * n)) : atomOp 7 n x.toNat y.toNat = (if x.ule y then y else x).toNat := by
  show max x.toNat y.toNat = _
  rw [apply_ite BitVec.toNat, Nat.max_def]
  simp only [BitVec.ule_iff_toNat_le]

/-! ## An operation at the home -/

/-- Bytes written at the home of their place, where the issuer's L1 copy follows. -/
def State.putHome (s : State) (l : Loc) (bs : List Byte) : State :=
  ((s.touch l true s.cl bs).wrLoc l bs false).refreshL1 s.curCore l bs false

/-- The acquire of an access that asks for one (R120). -/
def State.acquired (s : State) (acquire : Bool) : State := if acquire then s.selfInvalidate s.curCore else s

/-- What an atomic does after it has read its word: the new value written if there is one, the service of waiters, the acquire. -/
def State.afterRmw (s : State) (l : Loc) (n : Nat) (acquire : Bool) (new : Option Nat) : State :=
  let s := match new with
    | some v => s.putHome l (bytesOfNat n v)
    | none => s.refresh l n
  (if new.isSome then s.serveAll l n else s).acquired acquire

theorem partition_of_onHome {l : Loc} (h : OnHome l) : partition l = .ok () := by
  obtain ⟨pa, tr, cl, k, rfl⟩ | ⟨core, off, rfl, -⟩ := h <;> rfl

/-- No plain store of the host comes between where the outside has none to make. -/
theorem proxyRace_of_noInputs {s : State} (h : s.inputs = []) (l : Loc) (op : Instr) : s.proxyRace l op = s := by
  unfold State.proxyRace
  rw [h]
  cases l <;> rfl

theorem serveMe_inputs (s : State) (l : Loc) (w inval : Bool) : (s.serveMe l w inval).inputs = s.inputs := by
  obtain ⟨h, p, q, e⟩ := touch_frame s l w s.cl [] (s.pasidOf s.cur.launch) inval
  rw [State.serveMe, e]

/-- The words of an answer: 64 bits of the old value to each register. -/
def rmwAnswer (regs : List Reg) (old : Nat) : List (Nat × Word) :=
  (List.range regs.length).map fun i => ((regs.getD i 0).toNat, BitVec.ofNat 64 (old / 2 ^ (64 * i)))

theorem rmw_ok {s : State} {c : CapIx} {off : Word} {n dva : Nat} {ord : BitVec 2} {op : Instr} {args : List Word} {regs : List Reg}
    {f : Nat → Option Nat} {l : Loc} (hs : StoresIn s) (hl : OnHome l) (hi : s.inputs = [])
    (hg : s.globalLoc c off n true true .atomic .other = .ok (l, dva)) (hp : (s.serveMe l false true).poisonedAt l n = false) :
    s.rmw c off n ord op args regs f = .ok (((s.serveMe l false true).afterRmw l n (ord.getLsbD 0)
      (f (natOfBytes ((s.serveMe l false true).rdLoc l n)))).replyWith (rmwAnswer regs (natOfBytes ((s.serveMe l false true).rdLoc l n)))) := by
  have hr := proxyRace_of_noInputs ((serveMe_inputs s l false true).trans hi) l op
  unfold State.rmw
  simp only [hg, bind, Except.bind, partition_of_onHome hl, release_quiet hs, ownFirst_quiet hs, ite_self]
  obtain ⟨pa, tr, cl, k, rfl⟩ | ⟨core, off, rfl, -⟩ := hl <;>
  · simp only [hp, hr, Bool.false_eq_true, if_false]
    rfl

theorem acquired_undisturbed (s : State) (acquire : Bool) : Undisturbed s (s.acquired acquire) := by
  cases acquire
  · exact .refl s
  · exact selfInvalidate_undisturbed s _

theorem acquired_sameMemory (s : State) (acquire : Bool) : SameMemory s (s.acquired acquire) := by
  cases acquire
  · exact sameMemory_refl s
  · exact selfInvalidate_sameMemory s _

theorem putHome_undisturbed (s : State) (l : Loc) (bs : List Byte) : Undisturbed s (s.putHome l bs) :=
  ((touch_undisturbed s l true s.cl bs none true).trans (wrLoc_undisturbed _ l bs false)).trans (refreshL1_undisturbed _ _ l bs false)

theorem putHome_rdLoc (s : State) {l : Loc} (hl : OnHome l) (bs : List Byte) : (s.putHome l bs).rdLoc l bs.length = bs := by
  refine (rdLoc_of_sameMemory (refreshL1_sameMemory _ _ l bs false) l bs.length).trans ?_
  obtain ⟨pa, tr, cl, k, rfl⟩ | ⟨core, off, rfl, -⟩ := hl <;> exact rdLoc_wrLoc _ _ _ nofun nofun nofun

theorem putHome_sameOutside (s : State) (l : Loc) (bs : List Byte) : SameOutside s (s.putHome l bs) l bs.length :=
  sameOutside_trans (sameOutside_trans (sameOutside_of_sameMemory (touch_sameMemory s l true s.cl bs none true) l _)
    (sameOutside_wrLoc _ l bs false)) (sameOutside_of_sameMemory (refreshL1_sameMemory _ _ l bs false) l _)

/-- An atomic that writes nothing changes no memory. -/
theorem afterRmw_none (s : State) (l : Loc) (n : Nat) (acquire : Bool) :
    Undisturbed s (s.afterRmw l n acquire none) ∧ SameMemory s (s.afterRmw l n acquire none) :=
  ⟨(refreshL1_undisturbed s s.curCore l _ false).trans (acquired_undisturbed _ acquire),
    SameMemory.trans (refreshL1_sameMemory s s.curCore l _ false) (acquired_sameMemory _ acquire)⟩

/-- An atomic that writes puts its value at the place alone. -/
theorem afterRmw_some {s : State} {l : Loc} (hl : OnHome l) (hw : NoWaiters s) (n v : Nat) (acquire : Bool) :
    Undisturbed s (s.afterRmw l n acquire (some v)) ∧ (s.afterRmw l n acquire (some v)).rdLoc l n = bytesOfNat n v ∧
      SameOutside s (s.afterRmw l n acquire (some v)) l n := by
  have hu := putHome_undisturbed s l (bytesOfNat n v)
  have hafter : s.afterRmw l n acquire (some v) = (s.putHome l (bytesOfNat n v)).acquired acquire := by
    simp only [State.afterRmw, Option.isSome_some, if_true, serveAll_quiet (hu.noWaiters hw)]
  have hm := acquired_sameMemory (s.putHome l (bytesOfNat n v)) acquire
  have hread := putHome_rdLoc s hl (bytesOfNat n v)
  have hout := putHome_sameOutside s l (bytesOfNat n v)
  rw [length_bytesOfNat] at hread hout
  rw [hafter]
  exact ⟨hu.trans (acquired_undisturbed _ acquire), (rdLoc_of_sameMemory hm l n).trans hread,
    sameOutside_trans hout (sameOutside_of_sameMemory hm l n)⟩

/-- ATOM and CAS at the home of their word: the old value answers, and memory is as `f` says. -/
theorem exec_rmw {s : State} {i op : Instr} {c : CapIx} {off : Word} {n dva : Nat} {ord : BitVec 2} {args : List Word} {regs : List Reg}
    {f : Nat → Option Nat} {l : Loc} (hexec : exec i s = finish s (s.rmw c off n ord op args regs f)) (hk : SlotOk s)
    (hs : StoresIn s) (hl : OnHome l) (hw : NoWaiters s) (hi : s.inputs = [])
    (hg : s.globalLoc c off n true true .atomic .other = .ok (l, dva)) (hp : (s.serveMe l false true).poisonedAt l n = false) :
    ∃ t, exec i s = .next t ∧ RepliesWith s t (rmwAnswer regs (natOfBytes (s.rdLoc l n))) ∧ SameOutside s t l n ∧
      (∀ v, f (natOfBytes (s.rdLoc l n)) = some v → t.rdLoc l n = bytesOfNat n v) ∧
      (f (natOfBytes (s.rdLoc l n)) = none → t.rdLoc l n = s.rdLoc l n) := by
  have hu := serveMe_undisturbed s l false true
  have hm := serveMe_sameMemory s l false true
  have hold : (s.serveMe l false true).rdLoc l n = s.rdLoc l n := rdLoc_of_sameMemory hm l n
  have hr := rmw_ok (op := op) (args := args) (regs := regs) (f := f) (ord := ord) hs hl hi hg hp
  rw [hold] at hr
  have hdone : exec i s = .next (served (((s.serveMe l false true).afterRmw l n (ord.getLsbD 0)
      (f (natOfBytes (s.rdLoc l n)))).replyWith (rmwAnswer regs (natOfBytes (s.rdLoc l n))))) := by
    rw [hexec, hr]
    rfl
  cases hf : f (natOfBytes (s.rdLoc l n)) with
  | none =>
    rw [hf] at hdone
    obtain ⟨hau, ham⟩ := afterRmw_none (s.serveMe l false true) l n (ord.getLsbD 0)
    obtain ⟨hrep, hrm⟩ := repliesWith_served ((hu.trans hau).slot ▸ hk) (hu.trans hau).strand
      (rmwAnswer regs (natOfBytes (s.rdLoc l n)))
    have hall := SameMemory.trans (SameMemory.trans hm ham) hrm
    exact ⟨_, hdone, hrep, sameOutside_of_sameMemory hall l n, nofun, fun _ => rdLoc_of_sameMemory hall l n⟩
  | some v =>
    rw [hf] at hdone
    obtain ⟨hau, har, hao⟩ := afterRmw_some (s := s.serveMe l false true) hl (hu.noWaiters hw) n v (ord.getLsbD 0)
    obtain ⟨hrep, hrm⟩ := repliesWith_served ((hu.trans hau).slot ▸ hk) (hu.trans hau).strand
      (rmwAnswer regs (natOfBytes (s.rdLoc l n)))
    refine ⟨_, hdone, hrep, sameOutside_trans (sameOutside_trans (sameOutside_of_sameMemory hm l n) hao) (sameOutside_of_sameMemory hrm l n), ?_, nofun⟩
    rintro v' ⟨⟩
    exact (rdLoc_of_sameMemory hrm l n).trans har

end Sys2Proof.Machine

namespace Sys2Proof.Proofs

open Sys2Proof Sys2Proof.Machine

theorem atomOp_law {n : Nat} (hn : 0 < n) (x y : BitVec (8 * n)) :
    atomOp 0 n x.toNat y.toNat = (x + y).toNat ∧ atomOp 1 n x.toNat y.toNat = (x &&& y).toNat ∧
    atomOp 2 n x.toNat y.toNat = (x ||| y).toNat ∧ atomOp 3 n x.toNat y.toNat = (x ^^^ y).toNat ∧
    atomOp 4 n x.toNat y.toNat = (if x.sle y then x else y).toNat ∧ atomOp 5 n x.toNat y.toNat = (if x.sle y then y else x).toNat ∧
    atomOp 6 n x.toNat y.toNat = (if x.ule y then x else y).toNat ∧ atomOp 7 n x.toNat y.toNat = (if x.ule y then y else x).toNat ∧
    atomOp 8 n x.toNat y.toNat = y.toNat :=
  ⟨(BitVec.toNat_add x y).symm, (BitVec.toNat_and ..).symm, (BitVec.toNat_or ..).symm, (BitVec.toNat_xor ..).symm, atomOp_smin hn x y,
    atomOp_smax hn x y, atomOp_umin n x y, atomOp_umax n x y, rfl⟩

/-- Settles O30: the operations are those of bit vectors, and an atomic of a quiet strand reads and writes its word at the home. -/
theorem atomicsReadModifyWrite : Obligations.AtomicsReadModifyWrite := by
  unfold Obligations.AtomicsReadModifyWrite
  refine ⟨⟨fun x y => atomOp_law (by decide) x y, fun x y => atomOp_law (by decide) x y⟩,
    fun s d a b c ord size op l dva hk hs hl hw hi => ⟨fun _ hg hp => ?_, fun hg hp => ?_, fun hg hp => ?_⟩⟩
  · obtain ⟨t, ht, hr, ho, hv, -⟩ := exec_rmw (i := .atom d a b c ord size op) rfl hk hs hl hw hi hg hp
    refine ⟨t, ht, ?_, hv _ rfl, ho⟩
    simpa [rmwAnswer] using hr
  · obtain ⟨t, ht, hr, ho, hv, hn⟩ := exec_rmw (i := .cas d a b c ord 0) rfl hk hs hl hw hi hg hp
    refine ⟨t, ht, ?_, ho, fun he => hv _ (if_pos he), fun he => hn (if_neg he)⟩
    simpa [rmwAnswer] using hr
  · obtain ⟨t, ht, hr, ho, hv, hn⟩ := exec_rmw (i := .cas d a b c ord 1) rfl hk hs hl hw hi hg hp
    refine ⟨t, ht, ?_, ho, fun he => hv _ (if_pos he), fun he => hn (if_neg he)⟩
    simpa [rmwAnswer, List.range, List.range.loop, next1] using hr

end Sys2Proof.Proofs
end

section
/-!
Capabilities: O33.
-/
namespace Sys2Proof.Machine

open Sys2Proof
open BitVec (extractLsb'_append_eq_of_le extractLsb'_append_eq_of_add_le extractLsb'_eq_self)

/-! ## The fields of a capability (R56) -/

section Fields

variable (base limit : Nat) (rights : BitVec 6) (gen : BitVec 16) (index : BitVec 8)

theorem Cap.extract_make (start len : Nat) : (Cap.make base limit rights gen index).extractLsb' start len =
    @BitVec.extractLsb' (104 + 8 + 16 + 10 + 6 + 56 + 56) start len
      (0#104 ++ index ++ gen ++ 0#10 ++ rights ++ BitVec.ofNat 56 limit ++ BitVec.ofNat 56 base) := rfl

theorem Cap.base_make : (Cap.make base limit rights gen index).base = base % 2 ^ 56 := by
  rw [Cap.base, Cap.extract_make, extractLsb'_append_eq_of_add_le (by decide), extractLsb'_eq_self, BitVec.toNat_ofNat]

theorem Cap.limit_make : (Cap.make base limit rights gen index).limit = limit % 2 ^ 56 := by
  rw [Cap.limit, Cap.extract_make, extractLsb'_append_eq_of_le (by decide), extractLsb'_append_eq_of_add_le (by decide),
    extractLsb'_eq_self, BitVec.toNat_ofNat]

@[simp] theorem Cap.rights_make : (Cap.make base limit rights gen index).rights = rights := by
  rw [Cap.rights, Cap.extract_make, extractLsb'_append_eq_of_le (by decide), extractLsb'_append_eq_of_le (by decide),
    extractLsb'_append_eq_of_add_le (by decide), extractLsb'_eq_self]

@[simp] theorem Cap.gen_make : (Cap.make base limit rights gen index).gen = gen := by
  rw [Cap.gen, Cap.extract_make, extractLsb'_append_eq_of_le (by decide), extractLsb'_append_eq_of_le (by decide),
    extractLsb'_append_eq_of_le (by decide), extractLsb'_append_eq_of_le (by decide),
    extractLsb'_append_eq_of_add_le (by decide), extractLsb'_eq_self]

@[simp] theorem Cap.index_make : (Cap.make base limit rights gen index).index = index.toNat := by
  rw [Cap.index, Cap.extract_make, extractLsb'_append_eq_of_le (by decide), extractLsb'_append_eq_of_le (by decide),
    extractLsb'_append_eq_of_le (by decide), extractLsb'_append_eq_of_le (by decide), extractLsb'_append_eq_of_le (by decide),
    extractLsb'_append_eq_of_add_le (by decide), extractLsb'_eq_self]

end Fields

theorem Cap.base_lt (k : Cap) : k.base < 2 ^ 56 := BitVec.isLt _

theorem Cap.limit_lt (k : Cap) : k.limit < 2 ^ 56 := BitVec.isLt _

theorem Cap.index_lt (k : Cap) : k.index < 256 := BitVec.isLt _

/-! ## A capability register written -/

theorem Slot.setCap_c (x : Slot) (r : CapIx) (v : Cap) : (x.setCap r v).c = x.c.set r.toNat v := by simp [Slot.setCap]

@[simp] theorem Slot.setCap_s (x : Slot) (r : CapIx) (v : Cap) : (x.setCap r v).s = x.s := by simp [Slot.setCap]

/-- A capability register written reads as written; every other one as before. -/
theorem Slot.c_setCap (x : Slot) (r : CapIx) (v : Cap) :
    (x.setCap r v).c[r.toNat] = v ∧ ∀ j : Fin 8, j.val ≠ r.toNat → (x.setCap r v).c[j] = x.c[j] := by
  rw [Slot.setCap_c]
  refine ⟨by simp, fun j hj => ?_⟩
  exact Vector.getElem_set_ne _ _ (Ne.symm hj)

/-- The current slot after an instruction that has written a capability register and is served. -/
theorem cur_served_setCap {s : State} (hk : SlotOk s) (r : CapIx) (v : Cap) :
    (served (s.modCur fun x => x.setCap r v)).cur =
      { s.cur.setCap r v with grants := [], since := none, walk := none, inl := none } := by
  have h : (s.modCur fun x => x.setCap r v).cur = s.cur.setCap r v := State.cur_modCur s _ hk
  have h' := State.cur_modCur (s.modCur fun x => x.setCap r v)
    (fun x => { x with grants := [], since := none, walk := none, inl := none }) hk
  rw [h] at h'
  exact h'

theorem caps_served_setCap {s : State} (hk : SlotOk s) (r : CapIx) (v : Cap) :
    (served (s.modCur fun x => x.setCap r v)).cur.c[r.toNat] = v ∧
      ∀ j : Fin 8, j.val ≠ r.toNat → (served (s.modCur fun x => x.setCap r v)).cur.c[j] = s.cur.c[j] := by
  rw [cur_served_setCap hk]
  exact s.cur.c_setCap r v

theorem sameMemory_served_setCap (s : State) (r : CapIx) (v : Cap) : SameMemory s (served (s.modCur fun x => x.setCap r v)) :=
  SameMemory.trans (sameMemory_modCur s _) (sameMemory_modCur _ _)

/-! ## CNAR (R280) -/

/-- What CNAR writes: a part of the capability, with the rights that s[d] keeps. -/
def narrowed (s : State) (d a b : Reg) (c : CapIx) : Cap :=
  Cap.make ((s.cap c).base + uns s a) (uns s b) ((s.cap c).rights &&& ((s.src d).extractLsb' 0 6 ||| 0x10#6)) (s.cap c).gen
    (BitVec.ofNat 8 (s.cap c).index)

theorem cnar_ok {s : State} {d a b : Reg} {c : CapIx} (hc : c ≠ 0) (ha : (s.cap c).any = true)
    (hl : uns s a + uns s b ≤ (s.cap c).limit) : s.cnar d a b c = .ok (s.modCur fun x => x.setCap c (narrowed s d a b c)) := by
  have hn : (c != 0#3 && (s.cap c).any && decide (uns s a ≤ (s.cap c).limit ∧ uns s a + uns s b ≤ (s.cap c).limit)) = true := by
    have hc' : (c != 0#3) = true := bne_iff_ne.mpr hc
    rw [ha, decide_eq_true ⟨by omega, hl⟩, hc']
    rfl
  exact congrArg (· >>= fun _ => _) (congrArg (need · _) hn)

theorem cnar_seg {s : State} {d a b : Reg} {c : CapIx} (h : c = 0 ∨ (s.cap c).any = false ∨ (s.cap c).limit < uns s a + uns s b) :
    s.cnar d a b c = .error (.trap clsSeg (uns s a)) := by
  have hn : (c != 0#3 && (s.cap c).any && decide (uns s a ≤ (s.cap c).limit ∧ uns s a + uns s b ≤ (s.cap c).limit)) = false := by
    obtain rfl | h | h := h
    · rfl
    · simp [h]
    · simp
      omega
  exact congrArg (· >>= fun _ => _) (congrArg (need · _) hn)

/-! ## Writes at a home -/

theorem homeWrite_quiet {s : State} (hw : NoWaiters s) (cl : Nat) (l : Loc) (bs : List Byte) :
    Undisturbed s (s.homeWrite cl l bs false) ∧ SameOutside s (s.homeWrite cl l bs false) l bs.length ∧
      (OnHome l → (s.homeWrite cl l bs false).rdLoc l bs.length = bs) := by
  have hu := (touchLines_undisturbed s l bs.length true cl bs none true).trans (wrLoc_undisturbed _ l bs false)
  rw [State.homeWrite, serveAll_quiet (hu.noWaiters hw)]
  refine ⟨hu, sameOutside_trans (sameOutside_of_sameMemory (touchLines_sameMemory s l bs.length true cl bs none true) l _)
    (sameOutside_wrLoc _ l bs false), fun hl => ?_⟩
  obtain ⟨pa, tr, cl, k, rfl⟩ | ⟨core, off, rfl, -⟩ := hl <;> exact rdLoc_wrLoc _ _ _ nofun nofun nofun

/-! ## The capability table (R99) -/

/-- The current strand's launch is found by its number. -/
theorem launchById_of_myLaunch {s : State} {l : Launch} (h : s.myLaunch = some l) : s.launchById l.id = some l := by
  obtain ⟨id, -, hid⟩ := Option.bind_eq_some_iff.mp h
  have hl : l.id = id := by simpa using List.find?_some hid
  rw [hl, hid]

/-- The generation that a write of an entry gives it. -/
def State.nextGen (s : State) (id index : Nat) : BitVec 16 := Sparse.get 0 (((s.launchById id).map (·.gens)).getD []) index + 1

theorem nextGen_of_launch {s : State} {id : Nat} {u : Launch} (h : s.launchById id = some u) (index : Nat) :
    s.nextGen id index = u.gen index + 1 := by
  rw [State.nextGen, h]
  rfl

/-- A launch with the generation of one of its entries set. -/
def Launch.setGen (l : Launch) (index : Nat) (gen : BitVec 16) : Launch := { l with gens := l.gens.put index gen }

theorem Launch.gen_setGen (l : Launch) (index : Nat) (gen : BitVec 16) :
    (l.setGen index gen).gen index = gen ∧ ∀ x, x ≠ index → (l.setGen index gen).gen x = l.gen x :=
  ⟨Sparse.get_put_same .., fun _ hx => Sparse.get_put_other _ _ _ (Ne.symm hx)⟩

theorem launchById_modLaunch {s : State} {id : Nat} {u : Launch} (h : s.launchById id = some u) (f : Launch → Launch)
    (hf : ∀ l, (f l).id = l.id) : (s.modLaunch id f).launchById id = some (f u) := by
  have hid : u.id = id := by simpa using List.find?_some h
  have hp : ((fun l : Launch => l.id == id) ∘ fun l => if l.id = id then f l else l) = fun l => l.id == id := by
    funext l
    by_cases hl : l.id = id <;> simp [hl, hf]
  rw [State.launchById, State.modLaunch, List.find?_map, hp]
  rw [State.launchById] at h
  simp [h, hid]

/-- The state in which the generation of an entry has moved on. -/
def State.ageEntry (s : State) (id index : Nat) : State := s.modLaunch id fun l => l.setGen index (s.nextGen id index)

theorem writeEntry_eq (s : State) (l : Launch) (index : Nat) (place : Loc) (base limit : Nat) (rights : BitVec 6) :
    s.writeEntry l index place base limit rights = (s.ageEntry l.id index).homeWrite s.cl place
      (bytesOfNat 32 (Cap.make base limit rights (s.nextGen l.id index) 0).toNat) false := rfl

/-- The capability that the bytes of an entry hold. -/
def State.entryAt (s : State) (place : Loc) : Cap := BitVec.ofNat 256 (natOfBytes (s.rdLoc place 32))

section Entry

variable {s : State} (hw : NoWaiters s) (l : Launch) (index : Nat) (place : Loc) (base limit : Nat) (rights : BitVec 6)

include hw

theorem writeEntry_kept : (s.writeEntry l index place base limit rights).curSlot = s.curSlot ∧
    SameStrand s (s.writeEntry l index place base limit rights) ∧ NoWaiters (s.writeEntry l index place base limit rights) ∧
    SameOutside s (s.writeEntry l index place base limit rights) place 32 := by
  have hw' : NoWaiters (s.ageEntry l.id index) := hw
  obtain ⟨hu, ho, -⟩ := homeWrite_quiet hw' s.cl place (bytesOfNat 32 (Cap.make base limit rights (s.nextGen l.id index) 0).toNat)
  rw [length_bytesOfNat] at ho
  exact ⟨hu.slot, hu.strand, hu.noWaiters hw', ho⟩

theorem writeEntry_entryAt (hp : OnHome place) : (s.writeEntry l index place base limit rights).entryAt place =
    Cap.make base limit rights (s.nextGen l.id index) 0 := by
  have hw' : NoWaiters (s.ageEntry l.id index) := hw
  obtain ⟨-, -, hr⟩ := homeWrite_quiet hw' s.cl place (bytesOfNat 32 (Cap.make base limit rights (s.nextGen l.id index) 0).toNat)
  rw [length_bytesOfNat] at hr
  rw [State.entryAt, writeEntry_eq, hr hp, natOfBytes_bytesOfNat]
  rw [show 256 ^ 32 = 2 ^ 256 by norm_num, Nat.mod_eq_of_lt (BitVec.isLt _), BitVec.ofNat_toNat, BitVec.setWidth_eq]

/-- A write of an entry makes its older copies outdated, and no other entry's. -/
theorem launchById_writeEntry {u : Launch} (h : s.launchById l.id = some u) :
    (s.writeEntry l index place base limit rights).launchById l.id = some (u.setGen index (u.gen index + 1)) := by
  have hw' : NoWaiters (s.ageEntry l.id index) := hw
  obtain ⟨hu, -, -⟩ := homeWrite_quiet hw' s.cl place (bytesOfNat 32 (Cap.make base limit rights (s.nextGen l.id index) 0).toNat)
  rw [writeEntry_eq, State.launchById, hu.launches, ← nextGen_of_launch h]
  exact launchById_modLaunch h _ fun _ => rfl

end Entry

/-! ## CLD, CST, CGIVE (R101, R102) -/

theorem serveMe_myLaunch (s : State) (l : Loc) (w inval : Bool) : (s.serveMe l w inval).myLaunch = s.myLaunch := by
  obtain ⟨h, p, q, e⟩ := touch_frame s l w s.cl [] (s.pasidOf s.cur.launch) inval
  rw [State.serveMe, e]
  rfl

theorem tableCap_serveMe (s : State) (l : Launch) (index : Nat) (place p : Loc) (w inval : Bool) :
    (s.serveMe p w inval).tableCap l index place = s.tableCap l index place := by
  simp only [State.tableCap, rdLoc_of_sameMemory (serveMe_sameMemory s p w inval)]

theorem cld_ok {s : State} {a : Reg} {c : CapIx} {l : Launch} {place : Loc} (hl : s.myLaunch = some l) (hc : c ≠ 0)
    (hi : uns s a < 256) (hp : s.entryLoc (uns s a) = .ok place) (hs : StoresIn s)
    (hclean : (s.serveMe place false false).poisonedAt place 32 = false) :
    s.cld a c = .ok ((s.serveMe place false false).modCur fun x => x.setCap c (s.tableCap l (uns s a) place)) := by
  have hm := (serveMe_myLaunch s place false false).trans hl
  have hc' : bne (α := CapIx) c 0#3 = true := bne_iff_ne.mpr hc
  simp only [uns] at hi hp ⊢
  simp [State.cld, hc', hi, hp, bind, Except.bind, State.atHome, ownFirst_quiet hs, hm, hclean, tableCap_serveMe]

theorem cld_seg {s : State} {a : Reg} {c : CapIx} (h : c = 0 ∨ 256 ≤ uns s a) : s.cld a c = .error (.trap clsSeg (uns s a)) := by
  have hn : (c != 0#3 && decide (uns s a < 256)) = false := by
    obtain rfl | h := h
    · rfl
    · simp [h]
  exact congrArg (· >>= fun _ => _) (congrArg (need · _) hn)

theorem ownCheck_ok {s : State} {c : CapIx} {i : Nat} (h2 : 2 ≤ i) (hi : i < 256) (ho : (s.cap c).o = true)
    (hg : s.genCurrent s.cur (s.cap c) = true) : s.ownCheck c i = .ok () := by
  have h0 : (i != 0) = true := bne_iff_ne.mpr (by omega)
  have h1 : (i != 1) = true := bne_iff_ne.mpr (by omega)
  simp only [State.ownCheck, decide_eq_true hi, ho, hg, h0, h1, Bool.and_self, need_true]

theorem ownCheck_seg {s : State} {c : CapIx} {i : Nat}
    (h : 256 ≤ i ∨ (s.cap c).o = false ∨ s.genCurrent s.cur (s.cap c) = false ∨ i = 0 ∨ i = 1) :
    s.ownCheck c i = .error (.trap clsSeg i) := by
  have hn : (decide (i < 256) && (s.cap c).o && s.genCurrent s.cur (s.cap c) && i != 0 && i != 1) = false := by
    obtain h | h | h | rfl | rfl := h
    · rw [decide_eq_false (by omega)]
      rfl
    · simp [h]
    · simp [h]
    · simp
    · simp
  simp only [State.ownCheck, hn, need_false]

theorem cst_ok {s : State} {a : Reg} {c : CapIx} {l : Launch} {place : Loc} (hl : s.myLaunch = some l)
    (hown : s.ownCheck c (uns s a) = .ok ()) (hp : s.entryLoc (uns s a) = .ok place) :
    s.cst a c = .ok ((s.writeEntry l (uns s a) place (s.cap c).base (s.cap c).limit (s.cap c).rights).replyWith []) := by
  unfold State.cst
  simp only [uns] at hown hp ⊢
  simp only [hown, hp, hl, bind, Except.bind]

/-- What CGIVE writes: the entry given, and the capability's own without W and O. -/
def State.given (s : State) (l : Launch) (i : Nat) (place home : Loc) (k : Cap) : State :=
  (s.writeEntry l i place k.base k.limit k.rights).writeEntry l k.index home (s.entryAt home).base (s.entryAt home).limit
    ((s.entryAt home).rights &&& 0b110101)

/-- The L1 of the current core swept of the lines that may overlap a capability's range (R102). -/
def State.sweep (s : State) (l : Launch) (k : Cap) : State := s.modHere fun h =>
  { h with l1 := h.l1.filter fun x => s.lineOutside s.curCore l.asid x.1 k.base k.limit }

theorem sweep_of_empty {s : State} (h : s.here.l1 = []) (l : Launch) (k : Cap) : s.sweep l k = s.modHere fun h => { h with l1 := [] } := by
  have h' : (s.core s.curCore).l1 = [] := h
  refine congrArg (s.setCore s.curCore) ?_
  simp only [h', List.filter_nil]

theorem cgive_ok {s : State} {a : Reg} {c : CapIx} {l : Launch} {place home : Loc} (hl : s.myLaunch = some l)
    (hown : s.ownCheck c (uns s a) = .ok ()) (hne : uns s a ≠ (s.cap c).index) (hp : s.entryLoc (uns s a) = .ok place)
    (hh : s.entryLoc (s.cap c).index = .ok home) (hs : StoresIn s) :
    s.cgive a c = .ok (((s.sweep l (s.cap c)).given l (uns s a) place home (s.cap c)).replyWith []) := by
  have hne' : (uns s a != (s.cap c).index) = true := bne_iff_ne.mpr hne
  unfold State.cgive
  simp only [uns] at hown hp hne' ⊢
  simp only [hown, hne', hp, hh, hl, need_true, bind, Except.bind, release_quiet hs]
  rfl

theorem entryAt_of_sameMemory {s t : State} (h : SameMemory s t) (p : Loc) : t.entryAt p = s.entryAt p := by
  rw [State.entryAt, rdLoc_of_sameMemory h, State.entryAt]

/-- An entry is as it was after a write of another. -/
theorem entryAt_of_sameOutside {s t : State} {p q : Nat} {pt qt : Bool} {pc qc pk qk : Nat} (h : SameOutside s t (.mem q qt qc qk) 32)
    (hd : p + 32 ≤ q ∨ q + 32 ≤ p) : t.entryAt (.mem p pt pc pk) = s.entryAt (.mem p pt pc pk) := by
  have hb : t.rdLoc (.mem p pt pc pk) 32 = s.rdLoc (.mem p pt pc pk) 32 := by
    refine rdBytes_congr fun j hj hj' => h.1 j ?_
    rintro p' tr cl k ⟨⟩
    omega
  rw [State.entryAt, hb, State.entryAt]

theorem sweep_sameMemory (s : State) (l : Launch) (k : Cap) : SameMemory s (s.sweep l k) :=
  sameMemory_modCore s s.curCore _ fun _ => rfl

theorem sweep_undisturbed (s : State) (l : Launch) (k : Cap) : Undisturbed s (s.sweep l k) := by
  unfold State.sweep State.modHere
  apply undisturbed_modCore <;> intro <;> rfl

theorem cst_seg {s : State} {a : Reg} {c : CapIx}
    (h : 256 ≤ uns s a ∨ (s.cap c).o = false ∨ s.genCurrent s.cur (s.cap c) = false ∨ uns s a = 0 ∨ uns s a = 1) :
    s.cst a c = .error (.trap clsSeg (uns s a)) :=
  congrArg (· >>= fun _ => _) (ownCheck_seg h)

theorem cgive_seg {s : State} {a : Reg} {c : CapIx}
    (h : 256 ≤ uns s a ∨ (s.cap c).o = false ∨ s.genCurrent s.cur (s.cap c) = false ∨ uns s a = 0 ∨ uns s a = 1) :
    s.cgive a c = .error (.trap clsSeg (uns s a)) :=
  congrArg (· >>= fun _ => _) (ownCheck_seg h)

/-! ## What they leave -/

/-- A capability of these fields. -/
def HasFields (k : Cap) (base limit : Nat) (rights : BitVec 6) (gen : BitVec 16) (index : Nat) : Prop :=
  k.base = base ∧ k.limit = limit ∧ k.rights = rights ∧ k.gen = gen ∧ k.index = index

theorem hasFields_make {base limit : Nat} (hb : base < 2 ^ 56) (hl : limit < 2 ^ 56) (rights : BitVec 6) (gen : BitVec 16)
    (index : BitVec 8) : HasFields (Cap.make base limit rights gen index) base limit rights gen index.toNat :=
  ⟨by rw [Cap.base_make, Nat.mod_eq_of_lt hb], by rw [Cap.limit_make, Nat.mod_eq_of_lt hl], Cap.rights_make .., Cap.gen_make ..,
    Cap.index_make ..⟩

/-- What CNAR writes lies within what it read. -/
theorem narrowed_within {s : State} {d a b : Reg} {c : CapIx} (hl : uns s a + uns s b ≤ (s.cap c).limit)
    (hb : (s.cap c).base + uns s a < 2 ^ 56) :
    (narrowed s d a b c).base = (s.cap c).base + uns s a ∧ (narrowed s d a b c).limit = uns s b ∧
      (s.cap c).base ≤ (narrowed s d a b c).base ∧
      (narrowed s d a b c).base + (narrowed s d a b c).limit ≤ (s.cap c).base + (s.cap c).limit ∧
      (narrowed s d a b c).rights &&& ~~~(s.cap c).rights = 0 ∧ (narrowed s d a b c).gen = (s.cap c).gen ∧
      (narrowed s d a b c).index = (s.cap c).index := by
  have hlim := (s.cap c).limit_lt
  have hbase : (narrowed s d a b c).base = (s.cap c).base + uns s a := by rw [narrowed, Cap.base_make, Nat.mod_eq_of_lt hb]
  have hsize : (narrowed s d a b c).limit = uns s b := by rw [narrowed, Cap.limit_make, Nat.mod_eq_of_lt (by omega)]
  have hright : ∀ r keep : BitVec 6, r &&& keep &&& ~~~r = 0 := fun r keep => by
    ext j hj
    simp only [BitVec.getElem_and, BitVec.getElem_not]
    cases r[j] <;> simp
  refine ⟨hbase, hsize, by omega, by omega, ?_, Cap.gen_make .., ?_⟩
  · rw [narrowed, Cap.rights_make]
    exact hright _ _
  · rw [narrowed, Cap.index_make, BitVec.toNat_ofNat, Nat.mod_eq_of_lt (s.cap c).index_lt]

/-- The capability register that CLD has loaded. -/
theorem hasFields_tableCap (s : State) (l : Launch) {i : Nat} (hi : i < 256) (place : Loc) : HasFields (s.tableCap l i place)
    (s.entryAt place).base (s.entryAt place).limit (s.entryAt place).rights (l.gen i) i := by
  have h := hasFields_make (s.entryAt place).base_lt (s.entryAt place).limit_lt (s.entryAt place).rights (l.gen i) (BitVec.ofNat 8 i)
  rwa [BitVec.toNat_ofNat, Nat.mod_eq_of_lt hi] at h

/-- The entry that CST and CGIVE write through a capability. -/
theorem hasFields_writeEntry {s : State} (hw : NoWaiters s) {l : Launch} (hl : s.launchById l.id = some l) (i : Nat) {place : Loc}
    (hp : OnHome place) {k : Cap} (rights : BitVec 6) :
    HasFields ((s.writeEntry l i place k.base k.limit rights).entryAt place) k.base k.limit rights (l.gen i + 1) 0 := by
  rw [writeEntry_entryAt hw l i place k.base k.limit rights hp, nextGen_of_launch hl]
  exact hasFields_make k.base_lt k.limit_lt _ _ 0

section Given

variable {s : State} (hw : NoWaiters s) {l : Launch} (hl : s.launchById l.id = some l) {i : Nat} {k : Cap} (hne : i ≠ k.index)
  {p q : Nat} (pt qt : Bool) (pc qc pk qk : Nat) (hd : p + 32 ≤ q ∨ q + 32 ≤ p)

include hw

theorem given_kept : (s.given l i (.mem p pt pc pk) (.mem q qt qc qk) k).curSlot = s.curSlot ∧
    SameStrand s (s.given l i (.mem p pt pc pk) (.mem q qt qc qk) k) ∧
    (∀ b, (b < p ∨ p + 32 ≤ b) → (b < q ∨ q + 32 ≤ b) → byteAt (s.given l i (.mem p pt pc pk) (.mem q qt qc qk) k) b = byteAt s b) ∧
    ∀ core off, localByteAt (s.given l i (.mem p pt pc pk) (.mem q qt qc qk) k) core off = localByteAt s core off := by
  obtain ⟨hs1, hst1, hw1, ho1, hol1⟩ := writeEntry_kept hw l i (.mem p pt pc pk) k.base k.limit k.rights
  obtain ⟨hs2, hst2, -, ho2, hol2⟩ := writeEntry_kept hw1 l k.index (.mem q qt qc qk) (s.entryAt (.mem q qt qc qk)).base
    (s.entryAt (.mem q qt qc qk)).limit ((s.entryAt (.mem q qt qc qk)).rights &&& 0b110101)
  refine ⟨hs2.trans hs1, SameStrand.trans hst1 hst2, fun b hb hb' => (ho2 b ?_).trans (ho1 b ?_), fun core off =>
    (hol2 core off nofun).trans (hol1 core off nofun)⟩
  · rintro q' tr cl k' ⟨⟩
    exact hb'
  · rintro p' tr cl k' ⟨⟩
    exact hb

include hl hd in
theorem hasFields_given : HasFields ((s.given l i (.mem p pt pc pk) (.mem q qt qc qk) k).entryAt (.mem p pt pc pk)) k.base k.limit
    k.rights (l.gen i + 1) 0 := by
  obtain ⟨-, -, hw1, -⟩ := writeEntry_kept hw l i (.mem p pt pc pk) k.base k.limit k.rights
  obtain ⟨-, -, -, ho⟩ := writeEntry_kept hw1 l k.index (.mem q qt qc qk) (s.entryAt (.mem q qt qc qk)).base
    (s.entryAt (.mem q qt qc qk)).limit ((s.entryAt (.mem q qt qc qk)).rights &&& 0b110101)
  rw [State.given, entryAt_of_sameOutside ho hd]
  exact hasFields_writeEntry hw hl i (.inl ⟨p, pt, pc, pk, rfl⟩) k.rights

include hl hne in
theorem hasFields_given_home : HasFields ((s.given l i (.mem p pt pc pk) (.mem q qt qc qk) k).entryAt (.mem q qt qc qk))
    (s.entryAt (.mem q qt qc qk)).base (s.entryAt (.mem q qt qc qk)).limit ((s.entryAt (.mem q qt qc qk)).rights &&& 0b110101)
    (l.gen k.index + 1) 0 := by
  obtain ⟨-, -, hw1, -⟩ := writeEntry_kept hw l i (.mem p pt pc pk) k.base k.limit k.rights
  rw [State.given, writeEntry_entryAt hw1 l k.index _ _ _ _ (.inl ⟨q, qt, qc, qk, rfl⟩),
    nextGen_of_launch (launchById_writeEntry hw l i _ _ _ _ hl), (Launch.gen_setGen l i _).2 _ (Ne.symm hne)]
  exact hasFields_make (Cap.base_lt _) (Cap.limit_lt _) _ _ 0

end Given

end Sys2Proof.Machine
end

section
/-!
Capabilities: O33.
-/
namespace Sys2Proof.Proofs

open Sys2Proof Sys2Proof.Machine

/-- Settles O33: the checks decide between a trap and the effect, and what is written is read back by its fields. -/
theorem capabilitiesNarrowAndMove : Obligations.CapabilitiesNarrowAndMove := by
  unfold Obligations.CapabilitiesNarrowAndMove
  refine ⟨fun s d a b c g hk hg => ⟨fun h => ?_, fun hc ha hl hb => ?_⟩, fun s a c g l place home hg hl => ?_⟩
  · exact (guarded_true hg _).trans (by rw [cnar_seg h]; rfl)
  · obtain ⟨hset, hother⟩ := caps_served_setCap hk c (narrowed s d a b c)
    refine ⟨_, (guarded_true hg _).trans (by rw [cnar_ok hc ha hl]; rfl), ?_, sameMemory_served_setCap s c (narrowed s d a b c), ?_,
      hother⟩
    · exact (congrArg Slot.s (cur_served_setCap hk c _)).trans (Slot.setCap_s ..)
    · rw [hset]
      exact narrowed_within hl hb
  · have hid := launchById_of_myLaunch hl
    refine ⟨fun hc hi hp hs hclean => ?_, fun h => ?_, fun h => ⟨?_, ?_⟩, fun h2 hi ho hgen hp => ?_,
      fun h2 hi ho hgen hne hp hh hs hl1 => ?_, fun hk hhome => ⟨fun hc hi hp hs hclean => ?_, fun h2 hi ho hgen hp hw => ?_,
        fun h2 hi ho hgen hne hp hh hs hw p q pt qt pc qc pk qk ep eq hd => ?_⟩, fun u hu hw j b n r => ?_⟩
    · exact (guarded_true hg _).trans (by rw [cld_ok hl hc hi hp hs hclean]; rfl)
    · exact (guarded_true hg _).trans (by rw [cld_seg h]; rfl)
    · exact (guarded_true hg _).trans (by rw [cst_seg h]; rfl)
    · exact (guarded_true hg _).trans (by rw [cgive_seg h]; rfl)
    · exact (guarded_true hg _).trans (by rw [cst_ok hl (ownCheck_ok h2 hi ho hgen) hp]; rfl)
    · refine ⟨_, (guarded_true hg _).trans (by rw [cgive_ok hl (ownCheck_ok h2 hi ho hgen) hne hp hh hs]; rfl), ?_⟩
      rw [State.given, entryAt_of_sameMemory (sweep_sameMemory s l _), sweep_of_empty hl1]
      rfl
    · have hu := serveMe_undisturbed s place false false
      have hm := serveMe_sameMemory s place false false
      obtain ⟨-, -, hcaps, -⟩ := hu.strand
      have hk' : SlotOk (s.serveMe place false false) := lt_of_eq_of_lt hu.slot hk
      obtain ⟨hset, hother⟩ := caps_served_setCap hk' c (s.tableCap l (uns s a) place)
      refine ⟨_, (guarded_true hg _).trans (by rw [cld_ok hl hc hi hp hs hclean]; rfl),
        SameMemory.trans hm (sameMemory_served_setCap _ _ _), fun j hj => (hother j hj).trans ?_, ?_⟩
      · exact congrArg (·[j]) hcaps
      · have hf := hasFields_tableCap s l hi place
        rw [← hset] at hf
        exact hf
    · obtain ⟨hslot, hstrand, -, hout⟩ := writeEntry_kept hw l (uns s a) place (s.cap c).base (s.cap c).limit (s.cap c).rights
      obtain ⟨hrep, hmem⟩ := repliesWith_served (hslot ▸ hk) hstrand []
      refine ⟨_, (guarded_true hg _).trans (by rw [cst_ok hl (ownCheck_ok h2 hi ho hgen) hp]; rfl), hrep,
        sameOutside_trans hout (sameOutside_of_sameMemory hmem _ _), ?_⟩
      have hf := hasFields_writeEntry hw hid (uns s a) hhome (k := s.cap c) (s.cap c).rights
      rwa [← entryAt_of_sameMemory hmem] at hf
    · subst ep eq
      have hu := sweep_undisturbed s l (s.cap c)
      have hm := sweep_sameMemory s l (s.cap c)
      have hw' := hu.noWaiters hw
      have hid' : (s.sweep l (s.cap c)).launchById l.id = some l := hid
      obtain ⟨hslot, hstrand, hbytes, hlocal⟩ := given_kept (l := l) (i := uns s a) (k := s.cap c) hw' (p := p) (q := q) pt qt pc qc pk qk
      obtain ⟨hrep, hmem⟩ := repliesWith_served ((hslot.trans hu.slot) ▸ hk) (SameStrand.trans hu.strand hstrand) []
      have hplace := hasFields_given (i := uns s a) (k := s.cap c) hw' hid' pt qt pc qc pk qk hd
      have hhome := hasFields_given_home (k := s.cap c) hw' hid' hne (p := p) (q := q) pt qt pc qc pk qk
      rw [← entryAt_of_sameMemory hmem] at hplace hhome
      rw [entryAt_of_sameMemory hm] at hhome
      exact ⟨_, (guarded_true hg _).trans (by rw [cgive_ok hl (ownCheck_ok h2 hi ho hgen) hne hp hh hs]; rfl), hrep, hplace, hhome,
        fun b hb hb' => (hmem.1 b).trans ((hbytes b hb hb').trans (hm.1 b)),
        fun core off => (hmem.2 core off).trans ((hlocal core off).trans (hm.2 core off))⟩
    · exact ⟨_, launchById_writeEntry hw l j place b n r hu, (Launch.gen_setGen u j _).1, (Launch.gen_setGen u j _).2⟩

end Sys2Proof.Proofs
end

section
/-!
SUPPORT. Reads of lines that are resident: what they do to the cache hierarchy, and the lines they leave in an L1 (R111, R112, R254).
-/
namespace Sys2Proof.Machine

open Sys2Proof

/-! ## The entries of a table -/

theorem Sparse.mem_of_look {α : Type} {m : Sparse α} {k : Nat} {v : α} (h : m.look k = some v) : (k, v) ∈ m := by
  obtain ⟨⟨k', v'⟩, hf, rfl⟩ := Option.map_eq_some_iff.mp h
  have hk : k' = k := by simpa using List.find?_some hf
  exact hk ▸ List.mem_of_find?_eq_some hf

theorem Sparse.look_isSome_iff {α : Type} {m : Sparse α} {k : Nat} : (m.look k).isSome = true ↔ ∃ v, (k, v) ∈ m := by
  simp [Sparse.look, List.find?_isSome]

/-- A table keeps its keys when a value is put. -/
theorem Sparse.look_put_isSome {α : Type} {m : Sparse α} {j : Nat} (h : (m.look j).isSome = true) (k : Nat) (v : α) :
    ((m.put k v).look j).isSome = true := by
  rw [Sparse.look_isSome_iff] at h ⊢
  obtain ⟨w, hw⟩ := h
  induction m with
  | nil => cases hw
  | cons y m ih =>
    obtain ⟨k', v'⟩ := y
    unfold Sparse.put
    split
    · obtain hw | hw := List.mem_cons.mp hw
      · exact ⟨v', by simp_all⟩
      · obtain ⟨u, hu⟩ := ih hw
        exact ⟨u, List.mem_cons_of_mem _ hu⟩
    · split
      · obtain hw | hw := List.mem_cons.mp hw
        · exact ⟨v, by simp_all⟩
        · exact ⟨w, List.mem_cons_of_mem _ hw⟩
      · exact ⟨w, List.mem_cons_of_mem _ hw⟩

/-! ## The hierarchy -/

/-- No sector waits for its poison, every L2 copy is clean, and the lines of a set are in the LLC. -/
structure Hier.Calm (h : Hier) (lines : Nat → Prop) : Prop where
  failed : h.failed = []
  clean : ∀ x ∈ h.l2, x.2.dirty = 0
  held : ∀ n, lines n → (h.llc.look n).isSome = true

variable {lines : Nat → Prop}

theorem Hier.Calm.dirty {h : Hier} (hc : h.Calm lines) {line die : Nat} {t : L2Line} (ht : h.l2Line line die = some t) : t.dirty = 0 :=
  hc.clean _ (Sparse.mem_of_look ht)

/-- Clean copies have nothing to bring home. -/
theorem Hier.Calm.recall {h : Hier} (hc : h.Calm lines) (e : Env) (line : Nat) (but : Option Nat) : h.recall e line but false = h := by
  have hclean : ∀ d, h.l2Clean e line d = h := fun d => by
    unfold Hier.l2Clean
    split
    · rfl
    · next t ht => exact if_pos (hc.dirty ht)
  unfold Hier.recall
  generalize List.range 8 = ds
  induction ds with
  | nil => rfl
  | cons d ds ih => simpa [hclean] using ih

/-- A resident line is read at its home and does not fail its MAC. -/
theorem Hier.Calm.atHome {h : Hier} (hc : h.Calm lines) (e : Env) (cluster : Nat) (a : Attr) {line : Nat} (hl : lines line) :
    (h.atHome e cluster a line false).1.Calm lines ∧ (h.atHome e cluster a line false).2 = false := by
  obtain ⟨t, ht⟩ := Option.isSome_iff_exists.mp (hc.held line hl)
  refine ⟨?_, by simp [Hier.atHome, ht]⟩
  simp only [Hier.atHome, ht, Option.isSome_some, if_true, Hier.llcUse]
  exact ⟨hc.failed, hc.clean, fun n hn => Sparse.look_put_isSome (hc.held n hn) ..⟩

theorem Hier.Calm.share {h : Hier} (hc : h.Calm lines) (line die : Nat) (on : Bool) : (h.share line die on).Calm lines :=
  ⟨hc.failed, hc.clean, hc.held⟩

/-- A clean copy leaves an L2 without a write. -/
theorem Hier.Calm.l2Drop {h : Hier} (hc : h.Calm lines) (e : Env) (line die : Nat) : (h.l2Drop e line die).Calm lines := by
  unfold Hier.l2Drop
  split
  · exact hc
  · next t ht =>
    simp only [hc.dirty ht, if_true]
    exact Hier.Calm.share (h := { h with l2 := h.l2.erase (l2Key line die) })
      ⟨hc.failed, fun x hx => hc.clean x (Sparse.mem_erase hx), hc.held⟩ line die false

/-- A clean line put into an L2. -/
theorem Hier.Calm.putL2 {h : Hier} (hc : h.Calm lines) (key : Nat) {t : L2Line} (ht : t.dirty = 0) (n line die : Nat) :
    ({ h with l2 := h.l2.put key t, uses := n }.share line die true).Calm lines := by
  refine ⟨hc.failed, fun x hx => ?_, hc.held⟩
  obtain rfl | hx := Sparse.mem_put hx
  · exact ht
  · exact hc.clean x hx

/-- What a read brings into an L2 is clean. -/
theorem Hier.Calm.l2Keep {h : Hier} (hc : h.Calm lines) (e : Env) (a : Attr) (line die : Nat) (need : BitVec 4) :
    (h.l2Keep e a line die need false).Calm lines := by
  unfold Hier.l2Keep
  simp only [Bool.false_eq_true, if_false]
  split
  · next t ht =>
    refine ⟨hc.failed, fun x hx => ?_, hc.held⟩
    obtain rfl | hx := Sparse.mem_put hx
    · simp [hc.dirty ht]
    · exact hc.clean x hx
  · split
    · exact hc
    · next w victim _ =>
      cases victim with
      | none => exact hc.putL2 _ rfl _ _ _
      | some v => exact (hc.l2Drop e (v / 8) die).putL2 _ rfl _ _ _

/-- A read of a resident line through an L2. -/
theorem Hier.Calm.l2Use {h : Hier} (hc : h.Calm lines) (e : Env) (core : Nat) (a : Attr) {line : Nat} (hl : lines line) (off n : Nat) :
    (h.l2Use e core a line off n false).1.Calm lines ∧ (h.l2Use e core a line off n false).2.1 = false := by
  have hread : ∀ missing : BitVec 4, (if missing = 0 then (h, false) else h.atHome e (core / 8) a line false).1.Calm lines ∧
      (if missing = 0 then (h, false) else h.atHome e (core / 8) a line false).2 = false := fun missing => by
    split
    · exact ⟨hc, rfl⟩
    · exact hc.atHome e (core / 8) a hl
  unfold Hier.l2Use
  simp only [hc.recall]
  exact ⟨(hread _).1.l2Keep .., (hread _).2⟩

/-! ## Accesses of the package -/

theorem lineParts_line (n : Nat) : lineParts (n * 128) 128 = [(n * 128, n * 128 + 128)] := by
  have h : (n * 128 % 128 + 128 + 127) / 128 = 1 := by omega
  have h' : (n * 128 / 128 + 1) * 128 = n * 128 + 128 := by omega
  rw [lineParts, h]
  simp
  omega

/-- A read of a resident line brings no poison. -/
theorem l2Access_calm {s : State} {n : Nat} (hc : s.hier.Calm lines) (hp : s.memPoison = []) (hl : lines n) (core : Nat)
    (launch : Option Nat) (tree : Bool) (cls key : Nat) (pasid : Option (BitVec 20)) :
    (s.l2Access core launch (.mem (n * 128) tree cls key) 128 false [] pasid).hier.Calm lines ∧
      (s.l2Access core launch (.mem (n * 128) tree cls key) 128 false [] pasid).memPoison = [] := by
  have hn : n * 128 / 128 = n := by omega
  obtain ⟨hcalm, hbad⟩ := hc.l2Use (s.env (n * 128) []) core ⟨tree, cls, key⟩ hl (n * 128 % 128) 128
  have hl2 : s.l2Access core launch (.mem (n * 128) tree cls key) 128 false [] pasid =
      s.l2Line core launch (s.env (n * 128) []) (n * 128) 128 ⟨tree, cls, key⟩ false pasid := by
    simp only [State.l2Access, lineParts_line, List.foldl_cons, List.foldl_nil, Nat.add_sub_cancel_left]
  have hpois : ∀ failed, failed = [] → s.poisonLine (n * 128 / 128) false failed = [] := by
    rintro _ rfl
    simp [State.poisonLine, hp]
  rw [hl2, State.l2Line, hn, hbad]
  cases launch <;> exact ⟨⟨rfl, hcalm.clean, hcalm.held⟩, hpois _ hcalm.failed⟩

/-! ## Lines and bytes -/

theorem rdBytes_append (m : Memory) (a i j : Nat) : m.rdBytes a (i + j) = m.rdBytes a i ++ m.rdBytes (a + i) j := by
  induction i generalizing a with
  | zero => simp [Memory.rdBytes]
  | succ i ih => rw [Nat.succ_add, Memory.rdBytes, Memory.rdBytes, ih, List.cons_append, Nat.add_right_comm a 1 i, Nat.add_assoc a i 1]

theorem take_drop_rdBytes (m : Memory) (a : Nat) {off n len : Nat} (h : off + n ≤ len) :
    ((m.rdBytes a len).drop off).take n = m.rdBytes (a + off) n := by
  obtain ⟨r, rfl⟩ := Nat.exists_eq_add_of_le h
  rw [Nat.add_assoc, rdBytes_append, List.drop_left' (length_rdBytes ..), rdBytes_append, List.take_left' (length_rdBytes ..)]

theorem natOfBytes_lt (bs : List Byte) : natOfBytes bs < 256 ^ bs.length := by
  induction bs with
  | nil => simp [natOfBytes]
  | cons b bs ih =>
    have hb := b.isLt
    have : natOfBytes (b :: bs) = b.toNat + 256 * natOfBytes bs := rfl
    rw [this, List.length_cons, Nat.pow_succ]
    omega

theorem bytesOfNat_natOfBytes (bs : List Byte) : bytesOfNat bs.length (natOfBytes bs) = bs := by
  induction bs with
  | nil => rfl
  | cons b bs ih =>
    have hb := b.isLt
    have hn : natOfBytes (b :: bs) = b.toNat + 256 * natOfBytes bs := rfl
    have hq : (b.toNat + 256 * natOfBytes bs) / 256 = natOfBytes bs := by omega
    rw [hn, List.length_cons, bytesOfNat, hq, ih]
    refine congrArg (· :: bs) (BitVec.eq_of_toNat_eq ?_)
    rw [BitVec.toNat_ofNat]
    omega

/-- The bytes of the word that eight bytes of memory make. -/
theorem bytesOfNat_word (m : Memory) (a : Nat) : bytesOfNat 8 (BitVec.ofNat 64 (natOfBytes (m.rdBytes a 8))).toNat = m.rdBytes a 8 := by
  have hlt := natOfBytes_lt (m.rdBytes a 8)
  have h := bytesOfNat_natOfBytes (m.rdBytes a 8)
  rw [length_rdBytes] at hlt h
  rw [BitVec.toNat_ofNat, show 2 ^ 64 = 256 ^ 8 by norm_num, Nat.mod_eq_of_lt hlt, h]

theorem flatMap_rdBytes (m : Memory) (a k : Nat) : ((List.range k).flatMap fun i => m.rdBytes (a + 8 * i) 8) = m.rdBytes a (8 * k) := by
  induction k with
  | zero => rfl
  | succ k ih => rw [List.range_succ, List.flatMap_append, ih, Nat.mul_succ, rdBytes_append]; simp

/-- A line that holds what memory holds at its number, without poison. -/
def CopyOf (m : Memory) (x : Nat × CacheLine) : Prop :=
  (x.2.words.flatMap fun w => bytesOfNat 8 w.toNat) = m.rdBytes (x.1 * 128) 128 ∧ x.2.poison = []

theorem copyOf_lineAt {s : State} (hp : s.memPoison = []) (pa : Nat) (ro : Bool) : CopyOf s.mem (pa / 128, s.lineAt pa ro) := by
  refine ⟨?_, by simp [State.lineAt, hp]⟩
  simp only [State.lineAt, List.flatMap_map, bytesOfNat_word]
  exact flatMap_rdBytes s.mem (pa / 128 * 128) 16

/-- What a clean copy delivers of bytes that lie in its line. -/
theorem CopyOf.read {m : Memory} {pa : Nat} {line : CacheLine} (h : CopyOf m (pa / 128, line)) {n : Nat} (hn : pa % 128 + n ≤ 128) :
    line.bytes (pa % 128) n = m.rdBytes pa n ∧ line.poisoned (pa % 128) n = false := by
  obtain ⟨hw, hp⟩ := h
  refine ⟨?_, by simp only [CacheLine.poisoned, show line.poison = [] from hp]; simp⟩
  have ha : pa / 128 * 128 + pa % 128 = pa := by omega
  rw [CacheLine.bytes, show (line.words.flatMap fun w => bytesOfNat 8 w.toNat) = _ from hw, take_drop_rdBytes _ _ hn, ha]

theorem mem_fillCache {size pick n : Nat} {line : CacheLine} {m : Sparse CacheLine} {x : Nat × CacheLine}
    (h : x ∈ fillCache size pick n line m) : x = (n, line) ∨ x ∈ m := by
  unfold fillCache at h
  dsimp only at h
  obtain h | h := Sparse.mem_put h
  · exact .inl h
  · refine .inr ?_
    split at h
    · exact Sparse.mem_erase h
    · split at h
      · exact Sparse.mem_erase (Sparse.mem_erase h)
      · exact Sparse.mem_erase h

end Sys2Proof.Machine
end

section
/-!
SUPPORT. Rows of a load queue that are read: from local memory, and from lines of device memory that are resident (R160).
-/
namespace Sys2Proof.Machine

open Sys2Proof

theorem lqSize_pos (k : BitVec 4) : lqSize k = 1 ∨ lqSize k = 2 ∨ lqSize k = 4 := by
  unfold lqSize
  split
  · exact .inl rfl
  · split
    · exact .inr (.inr rfl)
    · exact .inr (.inl rfl)

/-! ## One element -/

/-- A state in which reads of resident lines deliver what memory holds: no store is on its way, and every line that is held is a copy of
memory. -/
structure Reading (s : State) (core : Nat) (lines : Nat → Prop) : Prop where
  calm : s.hier.Calm lines
  unpoisoned : s.memPoison = []
  path : (s.core core).path = []
  stgs : s.stgs = []
  copies : ∀ x ∈ (s.core core).l1, CopyOf s.mem x

/-- A read changes caches alone. -/
structure OnlyCaches (s t : State) : Prop where
  mem : t.mem = s.mem
  lm : ∀ n, (t.core n).lm = (s.core n).lm
  slots : ∀ n k, t.slot n k = s.slot n k

theorem OnlyCaches.refl (s : State) : OnlyCaches s s := ⟨rfl, fun _ => rfl, fun _ _ => rfl⟩

theorem OnlyCaches.trans {r s t : State} (h : OnlyCaches r s) (h' : OnlyCaches s t) : OnlyCaches r t :=
  ⟨h'.mem.trans h.mem, fun n => (h'.lm n).trans (h.lm n), fun n k => (h'.slots n k).trans (h.slots n k)⟩

theorem OnlyCaches.sameMemory {s t : State} (h : OnlyCaches s t) : SameMemory s t := sameMemory_of_mem_lm h.mem h.lm

variable {lines : Nat → Prop} {s : State} {core : Nat}

/-- The state in which the L2 has delivered a line for a row of a slot. -/
def State.rowLine (s : State) (core slot pa : Nat) (tree : Bool) (cls key : Nat) : State :=
  (s.withTick (s.tick + 1)).l2Access core (s.slot core slot).launch (.mem (pa / 128 * 128) tree cls key) 128 false

/-- The L1 of a core after a plain read that has left it. -/
def Core.afterRead (c : Core) (alloc : Bool) (t pa : Nat) (line : CacheLine) : Core :=
  { c with l1 := if alloc then fillCache l1Lines (Config.choose t) (pa / 128) (line.laid (pa / 128) c.path) c.l1
      else c.l1.erase (pa / 128) }

theorem readHome_row (s : State) (core slot pa : Nat) (tree : Bool) (cls key n : Nat) (alloc ro : Bool) :
    s.readHome core slot (.mem pa tree cls key) n false alloc ro =
      ((s.rowLine core slot pa tree cls key).modCore core
          (·.afterRead alloc s.tick pa ((s.rowLine core slot pa tree cls key).lineAt pa ro)),
        ((s.rowLine core slot pa tree cls key).lineAt pa ro).bytes (pa % 128) n,
        ((s.rowLine core slot pa tree cls key).lineAt pa ro).poisoned (pa % 128) n) := by
  cases alloc <;> rfl

theorem rowLine_reading (hr : Reading s core lines) {pa : Nat} (hl : lines (pa / 128)) (slot : Nat) (tree : Bool) (cls key : Nat) :
    Reading (s.rowLine core slot pa tree cls key) core lines ∧ OnlyCaches s (s.rowLine core slot pa tree cls key) := by
  obtain ⟨hcalm, hpois⟩ := l2Access_calm (s := s.withTick (s.tick + 1)) hr.calm hr.unpoisoned hl core (s.slot core slot).launch tree cls
    key ((s.withTick (s.tick + 1)).pasidOf (s.slot core slot).launch)
  have hf := l2Access_frame (s.withTick (s.tick + 1)) core (s.slot core slot).launch (.mem (pa / 128 * 128) tree cls key) 128 false []
    ((s.withTick (s.tick + 1)).pasidOf (s.slot core slot).launch)
  obtain ⟨h, p, q, ls, e⟩ := hf
  have e' : s.rowLine core slot pa tree cls key = _ := e
  refine ⟨⟨hcalm, hpois, ?_, ?_, ?_⟩, ?_, fun _ => ?_, fun _ _ => ?_⟩ <;> rw [e']
  exacts [hr.path, hr.stgs, hr.copies, rfl, rfl, rfl]

/-- A change of a core that is not one of its slots or its local memory. -/
theorem modCore_onlyCaches (s : State) (n : Nat) (f : Core → Core) (hs : ∀ c, (f c).slots = c.slots) (hl : ∀ c, (f c).lm = c.lm) :
    OnlyCaches s (s.modCore n f) := by
  refine ⟨rfl, fun m => ?_, s.slot_modCore_keep n f hs⟩
  by_cases hn : n = m
  · subst hn
    simp [hl]
  · rw [State.core_modCore_other _ f hn]

/-- A change of the L1 of a core to copies of memory. -/
theorem modCore_reading (hr : Reading s core lines) (f : Core → Core) (hp : ∀ c, (f c).path = c.path)
    (hl : ∀ x ∈ (f (s.core core)).l1, CopyOf s.mem x) : Reading (s.modCore core f) core lines :=
  ⟨hr.calm, hr.unpoisoned, by rw [State.core_modCore_same, hp, hr.path], hr.stgs, by rw [State.core_modCore_same]; exact hl⟩

theorem laid_nil (x : CacheLine) (n : Nat) : x.laid n [] = x := rfl

/-- A read that leaves the core delivers what memory holds. -/
theorem readHome_reading (hr : Reading s core lines) {pa n : Nat} (hl : lines (pa / 128)) (hn : pa % 128 + n ≤ 128) (slot : Nat)
    (tree : Bool) (cls key : Nat) (alloc ro : Bool) :
    ∃ t, s.readHome core slot (.mem pa tree cls key) n false alloc ro = (t, s.mem.rdBytes pa n, false) ∧ Reading t core lines ∧
      OnlyCaches s t := by
  obtain ⟨hr', ho⟩ := rowLine_reading hr hl slot tree cls key
  have hcopy := copyOf_lineAt hr'.unpoisoned pa ro
  obtain ⟨hb, hp⟩ := hcopy.read hn
  refine ⟨(s.rowLine core slot pa tree cls key).modCore core
      (·.afterRead alloc s.tick pa ((s.rowLine core slot pa tree cls key).lineAt pa ro)),
    by rw [readHome_row, hb, hp, ho.mem], modCore_reading hr' _ (fun _ => rfl) fun x hx => ?_,
    ho.trans (modCore_onlyCaches _ core _ (fun _ => rfl) fun _ => rfl)⟩
  rw [Core.afterRead, hr'.path, laid_nil] at hx
  cases alloc with
  | true =>
    obtain rfl | hx := mem_fillCache hx
    · exact hcopy
    · exact hr'.copies x hx
  | false => exact hr'.copies x (Sparse.mem_erase hx)

theorem withTick_reading (hr : Reading s core lines) (n : Nat) : Reading (s.withTick n) core lines :=
  ⟨hr.calm, hr.unpoisoned, hr.path, hr.stgs, hr.copies⟩

/-- A plain read of bytes of a resident line delivers what memory holds, from the L1 or not. -/
theorem readPlain_reading (hr : Reading s core lines) {pa n : Nat} (hl : lines (pa / 128)) (hn : pa % 128 + n ≤ 128) (slot : Nat)
    (tree : Bool) (cls key : Nat) (alloc ro : Bool) :
    ∃ t, s.readPlain core slot (.mem pa tree cls key) n false alloc ro false = (t, s.mem.rdBytes pa n, false) ∧
      Reading t core lines ∧ OnlyCaches s t := by
  have hr' := withTick_reading hr (s.tick + 1)
  have hhit : (∃ line, s.l1Hit core (.mem pa tree cls key) false = (s.withTick (s.tick + 1), some line) ∧ CopyOf s.mem (pa / 128, line)) ∨
      s.l1Hit core (.mem pa tree cls key) false = (s.withTick (s.tick + 1), none) := by
    unfold State.l1Hit
    dsimp only [State.fresh]
    split
    · next n line hf _ =>
      have hmem := List.mem_of_find?_eq_some hf
      have hkey : n = pa / 128 := by simpa using List.find?_some hf
      subst hkey
      exact .inl ⟨line, rfl, hr.copies _ hmem⟩
    · exact .inr rfl
  obtain ⟨line, hhit, hcopy⟩ | hhit := hhit
  · obtain ⟨hb, hp⟩ := hcopy.read hn
    refine ⟨s.withTick (s.tick + 1), ?_, hr', rfl, fun _ => rfl, fun _ _ => rfl⟩
    simp only [State.readPlain, Bool.false_eq_true, if_false, hhit, Loc.addr, hb, hp]
  · obtain ⟨t, ht, hrt, ho⟩ := readHome_reading hr' hl hn slot tree cls key alloc ro
    refine ⟨t, ?_, hrt, ho.mem, ho.lm, ho.slots⟩
    simp only [State.readPlain, Bool.false_eq_true, if_false, hhit, ht]
    rfl

/-! ## Rows -/

theorem ownLater_nil (slot before : Nat) (l : Loc) (n : Nat) : ownLater [] slot before l n = false := rfl

/-- The lanes of a row whose elements are resident. -/
theorem readRow_resident (slot : Nat) (k : BitVec 4) (alloc canTrap : Bool) (at' : Nat) (tree : Bool) (cls key : Nat)
    (es : List (Nat × Nat × Bool)) (hr : Reading s core lines)
    (he : ∀ e ∈ es, lines (e.1 / 128) ∧ e.1 % 128 + lqSize k ≤ 128) :
    ∃ t, s.readRow core slot k false alloc canTrap at' (es.map fun e => (.mem e.1 tree cls key, e.2)) =
      (t, .ok (es.map fun e => lqWiden k (natOfBytes (s.mem.rdBytes e.1 (lqSize k))))) ∧ OnlyCaches s t := by
  induction es generalizing s with
  | nil => exact ⟨s, rfl, .refl s⟩
  | cons e es ih =>
    obtain ⟨hl, hn⟩ := he e (by simp)
    obtain ⟨t, ht, hrt, ho⟩ := readPlain_reading hr hl hn slot tree cls key alloc e.2.2
    obtain ⟨u, hu, hou⟩ := ih hrt fun x hx => he x (by simp [hx])
    refine ⟨u, ?_, ho.trans hou⟩
    simp only [List.map_cons, State.readRow, sage_unchecked, State.flushStgs, flushOwner_nil hr.stgs, hr.path, ownLater_nil, ht, hu,
      ho.mem, Bool.false_eq_true, if_false]

/-- The lanes of a row of local memory. -/
theorem readRow_local (hp : (s.core core).path = []) (hs : s.stgs = []) (hq : (s.core core).lmPoison = []) (slot : Nat) (k : BitVec 4)
    (alloc canTrap : Bool) (at' : Nat) (offs : List Nat) :
    s.readRow core slot k false alloc canTrap at' (offs.map fun o => (.lm core o, o, false)) =
      (s, .ok (offs.map fun o => lqWiden k (natOfBytes ((s.core core).lm.rdBytes o (lqSize k))))) := by
  have hread : ∀ o, s.readPlain core slot (.lm core o) (lqSize k) false alloc false false =
      (s, (s.core core).lm.rdBytes o (lqSize k), false) := fun o => by
    simp [State.readPlain, State.l1Hit, State.readHome, State.rdLoc, State.poisonedAt, hq]
  induction offs with
  | nil => rfl
  | cons o offs ih =>
    simp only [List.map_cons, State.readRow, sage_unchecked, State.flushStgs, flushOwner_nil hs, hp, ownLater_nil, hread, ih,
      Bool.false_eq_true, if_false]

end Sys2Proof.Machine
end

section
/-!
Queue rows: O31.
-/
namespace Sys2Proof.Machine

open Sys2Proof

/-! ## The elements of a row (R160) -/

/-- A check or a translation that goes on has succeeded. -/
theorem bind_ok {α β : Type} {x : Except Stop α} {f : α → Except Stop β} {b : β} (h : (x >>= f) = .ok b) :
    ∃ a, x = .ok a ∧ f a = .ok b := by
  cases x with
  | error e => cases h
  | ok a => exact ⟨a, rfl, h⟩

theorem capDva_eq {s : State} {c : CapIx} {off : Word} {size dva : Nat} {read write : Bool} (h : s.capDva c off size read write = .ok dva) :
    dva = (s.cap c).base + off.toNat := by
  obtain ⟨-, -, h⟩ := bind_ok h
  obtain ⟨-, -, h⟩ := bind_ok h
  obtain ⟨-, -, h⟩ := bind_ok h
  cases h
  rfl

/-- An element that has passed its checks, and the offset it is at. -/
def Checked (s : State) (c : CapIx) (size : Nat) (off : Word) (dva : Nat) : Prop :=
  dva = (s.cap c).base + off.toNat ∧ (isWindow dva = false → dva % size = 0)

theorem checkRow_checked {s : State} {c : CapIx} {size : Nat} {write : Bool} {offs : List Word} {dvas : List Nat}
    (h : s.checkRow c size write offs = .ok dvas) : List.Forall₂ (Checked s c size) offs dvas := by
  induction offs generalizing dvas with
  | nil =>
    cases h
    exact .nil
  | cons off offs ih =>
    obtain ⟨dva, hd, h⟩ := bind_ok h
    have hfacts : ∃ ds, s.checkRow c size write offs = .ok ds ∧ dvas = dva :: ds ∧ (isWindow dva = false → dva % size = 0) := by
      cases hw : isWindow dva with
      | true =>
        simp only [hw, if_true] at h
        obtain ⟨-, -, h⟩ := bind_ok h
        obtain ⟨ds, hds, h⟩ := bind_ok h
        cases h
        exact ⟨ds, hds, rfl, nofun⟩
      | false =>
        simp only [hw, Bool.false_eq_true, if_false] at h
        obtain ⟨_, hn, h⟩ := bind_ok h
        obtain ⟨ds, hds, h⟩ := bind_ok h
        cases h
        exact ⟨ds, hds, rfl, fun _ => by simpa using need_ok hn⟩
    obtain ⟨ds, hds, rfl, ha⟩ := hfacts
    exact .cons ⟨capDva_eq hd, ha⟩ (ih hds)

/-- An element that has been translated. -/
def Placed (s : State) (write : Bool) (dva : Nat) (e : Loc × Nat) : Prop :=
  e.2 = dva ∧ (isWindow dva = false → s.xlate dva (if write then .write else .read) = .ok e.1)

theorem placeRow_placed {s : State} {size : Nat} {write : Bool} {dvas : List Nat} {elems : List (Loc × Nat)}
    (h : s.placeRow size write dvas = .ok elems) : List.Forall₂ (Placed s write) dvas elems := by
  induction dvas generalizing elems with
  | nil =>
    cases h
    exact .nil
  | cons dva dvas ih =>
    have hfacts : ∃ l ls, elems = (l, dva) :: ls ∧ s.placeRow size write dvas = .ok ls ∧
        (isWindow dva = false → s.xlate dva (if write then .write else .read) = .ok l) := by
      unfold State.placeRow at h
      split at h
      · next hw =>
        obtain ⟨l, -, h⟩ := bind_ok h
        obtain ⟨-, -, h⟩ := bind_ok h
        obtain ⟨ls, hls, h⟩ := bind_ok h
        cases h
        exact ⟨l, ls, rfl, hls, fun hw' => absurd hw (by simp [hw'])⟩
      · obtain ⟨l, hl, h⟩ := bind_ok h
        obtain ⟨-, -, h⟩ := bind_ok h
        obtain ⟨ls, hls, h⟩ := bind_ok h
        cases h
        exact ⟨l, ls, rfl, hls, fun _ => hl⟩
    obtain ⟨l, ls, rfl, hls, hl⟩ := hfacts
    exact .cons ⟨rfl, hl⟩ (ih hls)

theorem getElem_rowOffsets (start stride : Word) {n l : Nat} (h : l < n) :
    (rowOffsets start stride n)[l]? = some (start + BitVec.ofNat 64 l * stride) := by
  simp [rowOffsets, h]

/-- The elements of a row: one for each lane, at its offset, checked and translated. -/
theorem row_elements {s : State} {c : CapIx} {a b : Reg} {size : Nat} {write : Bool} {row : List (Loc × Nat)}
    (h : s.row c a b size write = .ok row) : row.length = s.here.vlen s.curSlot ∧ ∀ l, l < s.here.vlen s.curSlot →
      ∃ e, row[l]? = some e ∧
        e.2 = (s.cap c).base + (s.src a + BitVec.ofNat 64 l * (if b = 0 then BitVec.ofNat 64 size else s.src b)).toNat ∧
        (isWindow e.2 = false → e.2 % size = 0 ∧ s.xlate e.2 (if write then .write else .read) = .ok e.1) := by
  obtain ⟨dvas, hd, h⟩ := bind_ok h
  have hc := checkRow_checked hd
  have hp := placeRow_placed h
  have hlen : (rowOffsets (s.src a) (if b = 0 then BitVec.ofNat 64 size else s.src b) (s.here.vlen s.curSlot)).length =
      s.here.vlen s.curSlot := by simp [rowOffsets]
  have hdl : dvas.length = s.here.vlen s.curSlot := hc.length_eq.symm.trans hlen
  have hrl : row.length = s.here.vlen s.curSlot := hp.length_eq.symm.trans hdl
  refine ⟨hrl, fun l hl => ⟨row[l], List.getElem?_eq_getElem _, ?_⟩⟩
  obtain ⟨he, hx⟩ := hp.get (by omega : l < dvas.length) (by omega)
  obtain ⟨hd, ha⟩ := hc.get (hlen.symm ▸ hl) (by omega : l < dvas.length)
  simp only [List.get_eq_getElem] at he hx hd ha
  rw [he]
  refine ⟨hd.trans ?_, fun hw => ⟨ha hw, hx hw⟩⟩
  simp [rowOffsets]

/-! ## LQ and SQ -/

/-- The elements of an LQ row, each with whether its line is read-only. -/
def State.lqElems (s : State) (c : CapIx) (elems : List (Loc × Nat)) : List (Loc × Nat × Bool) :=
  elems.map fun e => (e.1, e.2, (s.cap c).q || s.pageQ e.2)

/-- A row put into a queue. -/
def State.pushRow (s : State) (q : Nat) (r : LqRow) : State :=
  s.modCur fun x => { x with lq := x.lq.setIfInBounds q ((x.lq[q]?.getD []) ++ [r]) }

/-- A drain put into a queue, and the rows that meet it. -/
def State.pushDrain (s : State) (q : Nat) (k : BitVec 4) (elems : List (Loc × Nat)) (checked : Bool) : State :=
  (s.modCur fun x => { x with
    drains := x.drains.setIfInBounds q ((x.drains[q]?.getD []) ++ [⟨k, elems, checked, s.cc, s.waitsSince⟩]) }).modHere
    fun h => h.drainRows s.curSlot

section Issue

variable {s : State} {d a b : Reg} {c : CapIx} {k : BitVec 4} {elems : List (Loc × Nat)}

theorem lqRow_noLanes (h : s.here.vlen s.curSlot = 0) : s.lqRow d a b c k = .ok s := if_pos h

theorem sqRow_noLanes (h : s.here.vlen s.curSlot = 0) : s.sqRow d a b c k = .ok s := if_pos h

theorem lqRow_waiting (hv : s.here.vlen s.curSlot ≠ 0) (he : s.row c a b (lqSize k) false = .ok elems)
    (hq : (s.cur.lq[d.toNat]?.getD []).length < 16) (hn : ((s.cap c).s && s.sageTraps s.cur) = false) :
    s.lqRow d a b c k = .ok (s.pushRow d.toNat (.waiting k (s.lqElems c elems) (s.cap c).s s.cc)) := by
  unfold State.lqRow
  simp only [hv, if_false, he, bind, Except.bind, hq, decide_true, need_true, hn, Bool.false_eq_true]
  rfl

theorem lqRow_arrived {v u : State} {lanes : List Half} (hv : s.here.vlen s.curSlot ≠ 0) (he : s.row c a b (lqSize k) false = .ok elems)
    (hq : (s.cur.lq[d.toNat]?.getD []).length < 16) (hn : ((s.cap c).s && s.sageTraps s.cur) = true)
    (hf : s.ownFirstAll (lqSize k) ((s.lqElems c elems).map (·.1)) = .ok v)
    (hr : v.readRow v.curCore v.curSlot k true false true v.cc (s.lqElems c elems) = (u, .ok lanes)) :
    s.lqRow d a b c k = .ok (u.pushRow d.toNat (.arrived lanes)) := by
  unfold State.lqRow
  unfold State.lqElems at hf hr
  simp only [hv, if_false, he, bind, Except.bind, hq, decide_true, need_true, hn, if_true, hf, hr]
  rfl

theorem sqRow_unchecked (hv : s.here.vlen s.curSlot ≠ 0) (he : s.row c a b (sqSize k) true = .ok elems)
    (hq : (s.cur.drains[d.toNat]?.getD []).length < 8) (hn : ((s.cap c).s && s.sageTraps s.cur) = false) :
    s.sqRow d a b c k = .ok (s.pushDrain d.toNat k elems (s.cap c).s) := by
  unfold State.sqRow
  simp only [hv, if_false, he, bind, Except.bind, hq, decide_true, need_true, hn, Bool.false_eq_true, Bool.not_false, Bool.and_true]
  rfl

theorem sqRow_checked {u : State} (hv : s.here.vlen s.curSlot ≠ 0) (he : s.row c a b (sqSize k) true = .ok elems)
    (hq : (s.cur.drains[d.toNat]?.getD []).length < 8) (hn : ((s.cap c).s && s.sageTraps s.cur) = true)
    (hu : s.sqChecks elems = .ok u) : s.sqRow d a b c k = .ok (u.pushDrain d.toNat k elems false) := by
  unfold State.sqRow
  simp only [hv, if_false, he, bind, Except.bind, hq, decide_true, need_true, hn, if_true, hu, Bool.not_true, Bool.and_false]
  rfl

end Issue

/-! ## LOAD_QUEUE_ROW_FILL -/

/-- The row at the head of a queue, if it waits. -/
theorem waitingRow_head {x : Slot} {q : Nat} {k : BitVec 4} {elems : List (Loc × Nat × Bool)} {sage : Bool} {at' : Nat}
    {rest : List LqRow} (h : x.lq[q]?.getD [] = .waiting k elems sage at' :: rest) :
    x.waitingRow q = some ⟨q, 0, k, elems, sage, at'⟩ := by
  simp [Slot.waitingRow, h, List.findIdx?_cons]

theorem waitingRow_queue {x : Slot} {q : Nat} {r : RowWait} (h : x.waitingRow q = some r) : r.q = q := by
  unfold Slot.waitingRow at h
  dsimp only at h
  split at h
  · cases h
  · split at h
    · cases h
      rfl
    · cases h

/-- The older of two rows, the first where both are as old. -/
def olderRow : Option RowWait → Option RowWait → Option RowWait
  | some b, some r => if r.at' < b.at' then some r else some b
  | none, r => r
  | b, none => b

theorem oldestRow_eq (x : Slot) : x.oldestRow = (List.range 4).foldl (fun best q => olderRow best (x.waitingRow q)) none := rfl

theorem olderRow_eq (b r : Option RowWait) : olderRow b r = b ∨ olderRow b r = r := by
  cases b with
  | none => exact .inr (by cases r <;> rfl)
  | some b =>
    cases r with
    | none => exact .inl rfl
    | some r =>
      by_cases h : r.at' < b.at'
      · exact .inr (if_pos h)
      · exact .inl (if_neg h)

/-- The oldest waiting row is the first one of its queue. -/
theorem oldestRow_queue {x : Slot} {r : RowWait} (h : x.oldestRow = some r) : x.waitingRow r.q = some r := by
  have hfold : ∀ (qs : List Nat) (best : Option RowWait), (∀ r, best = some r → x.waitingRow r.q = some r) →
      ∀ r, qs.foldl (fun best q => olderRow best (x.waitingRow q)) best = some r → x.waitingRow r.q = some r := by
    intro qs
    induction qs with
    | nil => exact fun best hb => hb
    | cons q qs ih =>
      refine fun best hb => ih _ fun r hr => ?_
      obtain hb' | hq := olderRow_eq best (x.waitingRow q)
      · exact hb r (hb'.symm.trans hr)
      · have hr' := hq.symm.trans hr
        rw [waitingRow_queue hr', hr']
  exact hfold (List.range 4) none nofun r h

/-- A slot whose waiting row has arrived. -/
def Slot.arrive (x : Slot) (q i : Nat) (lanes : List Half) : Slot :=
  { x with lq := x.lq.setIfInBounds q ((x.lq[q]?.getD []).set i (.arrived lanes)) }

theorem sameMemory_modSlot (s : State) (core slot : Nat) (f : Slot → Slot) : SameMemory s (s.modSlot core slot f) :=
  sameMemory_of_mem_lm rfl fun n => State.lm_modSlot s core slot f n

section Fill

variable {s : State} {core slot : Nat} {r : RowWait} (hp : (s.core core).path = [])

include hp

theorem flushRow_quiet (r : RowWait) : s.flushRow core slot r = s := by
  unfold State.flushRow
  generalize r.elems = es
  induction es with
  | nil => rfl
  | cons e es ih =>
    have h : s.performPath core (pathPrefix (beforeRow (s.core core).path slot r.at') e.1 (lqSize r.kind)) = s := by
      rw [hp]
      rfl
    rw [List.foldl_cons, h]
    exact ih

theorem fillOldest_quiet (hd : (s.slot core slot).drainsQueued = 0) (ho : (s.slot core slot).oldestRow = some r) (alloc : Bool) :
    s.fillOldest core slot alloc = s.fillRow core slot r alloc := by
  have hready : s.rowReady core slot r = true := by
    simp only [State.rowReady, State.rowFree, hp, Slot.drainsOn_of_none hd]
    simp [beforeRow, prefixFree]
  simp only [State.fillOldest, ho, hready, if_true, flushRow_quiet hp]

/-- The oldest waiting row arrives: its queue holds its lanes where it waited, and memory is as it was. -/
theorem exec_rowFill {q at' : Nat} {k : BitVec 4} {elems : List (Loc × Nat × Bool)} {rest : List LqRow} {t : State}
    {lanes : List Half} (hk : slot < 16) (hq : q < 4) (hst : (s.slot core slot).st ≠ .saved)
    (ho : (s.slot core slot).oldestRow.any (·.q == q) = true) (hd : (s.slot core slot).drainsQueued = 0)
    (hl : (s.slot core slot).lq[q]?.getD [] = .waiting k elems false at' :: rest)
    (hr : s.readRow core slot k false true false at' elems = (t, .ok lanes)) (ht : OnlyCaches s t) :
    ∃ u, exec (.loadQueueRowFill core slot q) s = .next u ∧ SameMemory s u ∧
      (u.slot core slot).lq[q]?.getD [] = .arrived lanes :: rest := by
  have hold : (s.slot core slot).oldestRow = some ⟨q, 0, k, elems, false, at'⟩ := by
    cases hold : (s.slot core slot).oldestRow with
    | none => simp [hold] at ho
    | some r =>
      have hrq : r.q = q := by simpa [hold] using ho
      have hw := oldestRow_queue hold
      rw [hrq, waitingRow_head hl] at hw
      exact hw.symm
  have hfill : s.fillOldest core slot true = (t.modSlot core slot (·.arrive q 0 lanes), none) := by
    rw [fillOldest_quiet hp hd hold, State.fillRow, hr]
    rfl
  have hslot : (t.modSlot core slot (·.arrive q 0 lanes)).slot core slot = (s.slot core slot).arrive q 0 lanes := by
    rw [State.slot_modSlot_same _ _ _ _ hk, ht.slots]
  have hst' : ((s.slot core slot).arrive q 0 lanes).st ≠ .saved := hst
  refine ⟨t.modSlot core slot (·.arrive q 0 lanes), ?_, SameMemory.trans ht.sameMemory (sameMemory_modSlot t core slot _), ?_⟩
  · show Host.Outcome.next _ = _
    rw [if_pos ho, State.rowArrives, hfill]
    simp only [State.orKilled, hslot, hst', if_false]
  · rw [hslot, Slot.arrive, hl]
    simp [hq]

end Fill

/-- The lines that the elements of a row lie in. -/
def linesOf (es : List (Nat × Nat × Bool)) (n : Nat) : Prop := ∃ e ∈ es, e.1 / 128 = n

/-- A row of resident lines may be read where no cache holds anything. -/
theorem reading_of_resident {s : State} {core : Nat} {es : List (Nat × Nat × Bool)} {k : BitVec 4} (hne : es ≠ [])
    (he : ∀ e ∈ es, e.1 % lqSize k = 0 ∧ Resident s e.1 (lqSize k)) (hp : (s.core core).path = []) (hs : s.stgs = [])
    (hm : s.memPoison = []) (hl2 : s.hier.l2 = []) (hl1 : (s.core core).l1 = []) : Reading s core (linesOf es) := by
  obtain ⟨e, hmem⟩ := List.exists_mem_of_ne_nil es hne
  refine ⟨⟨(he e hmem).2.1, by simp [hl2], ?_⟩, hm, hp, hs, by simp [hl1]⟩
  rintro n ⟨x, hx, rfl⟩
  have hpos : 0 < lqSize k := by obtain h | h | h := lqSize_pos k <;> omega
  exact (he x hx).2.2 x.1 (Nat.le_refl _) (by omega)

theorem element_in_line {a : Nat} {k : BitVec 4} (h : a % lqSize k = 0) : a % 128 + lqSize k ≤ 128 := by
  obtain hk | hk | hk := lqSize_pos k <;> rw [hk] at h ⊢ <;> omega

end Sys2Proof.Machine

namespace Sys2Proof.Proofs

open Sys2Proof Sys2Proof.Machine

/-- Settles O31: LQ and SQ queue what their checks give, and the oldest waiting row is read as memory holds it. -/
theorem queueRows : Obligations.QueueRows := by
  unfold Obligations.QueueRows
  refine ⟨fun s d a b c g k elems hg => ⟨fun hv => ⟨?_, ?_⟩, fun hv _ he hq => ⟨fun hn => ?_, fun v u lanes hn hf hr => ?_⟩,
      fun size write row h => row_elements h, fun hv _ he hq => ⟨fun hn => ?_, fun u hn hu => ?_⟩,
      fun start stride n l h => getElem_rowOffsets start stride h⟩,
    fun s core slot q at' k rest hk hq hst ho hp hs hd => ⟨fun offs hl hpois => ?_, fun es tr cl key hl he hm hl2 hl1 => ?_⟩⟩
  · exact (guarded_true hg _).trans (by rw [lqRow_noLanes hv]; rfl)
  · exact (guarded_true hg _).trans (by rw [sqRow_noLanes hv]; rfl)
  · exact (guarded_true hg _).trans (by rw [lqRow_waiting hv he hq hn]; rfl)
  · exact (guarded_true hg _).trans (by rw [lqRow_arrived hv he hq hn hf hr]; rfl)
  · exact (guarded_true hg _).trans (by rw [sqRow_unchecked hv he hq hn]; rfl)
  · exact (guarded_true hg _).trans (by rw [sqRow_checked hv he hq hn hu]; rfl)
  · obtain ⟨u, hu, hmem, hlq⟩ := exec_rowFill hp hk hq hst ho hd hl (readRow_local hp hs hpois slot k true false at' offs) (.refl s)
    refine ⟨u, hu, hmem, ?_⟩
    rw [hlq, List.map_map]
    rfl
  · obtain rfl | hne := eq_or_ne es []
    · obtain ⟨u, hu, hmem, hlq⟩ := exec_rowFill hp hk hq hst ho hd hl rfl (.refl s)
      exact ⟨u, hu, hmem, hlq⟩
    · have hread := reading_of_resident hne he hp hs hm hl2 hl1
      obtain ⟨t, ht, hot⟩ := readRow_resident slot k true false at' tr cl key es hread
        fun e hmem => ⟨⟨e, hmem, rfl⟩, element_in_line (he e hmem).1⟩
      obtain ⟨u, hu, hmem, hlq⟩ := exec_rowFill hp hk hq hst ho hd hl ht hot
      refine ⟨u, hu, hmem, ?_⟩
      rw [hlq, List.map_map]
      rfl

end Sys2Proof.Proofs
end

section
/-!
SUPPORT. What rounding gives (R137, R141, R144): the finite patterns of a format in the order of their magnitudes, and the pattern that
an exact magnitude lies at or above.
-/
namespace Sys2Proof.Machine

open Sys2Proof

/-! ## Magnitudes -/

/-- A rational with a sign. -/
def signedRat (neg : Bool) (x : Rat) : Rat := if neg then -x else x

theorem ratOf_fin (neg : Bool) (m : Nat) (e : Int) : ratOf (.fin neg m e) = some (signedRat neg (m * 2 ^ e)) := by
  have h : ((m * 2 ^ e.toNat : Nat) : Rat) / ((2 ^ (-e).toNat : Nat) : Rat) = m * 2 ^ e := by
    obtain ⟨n, rfl | rfl⟩ := e.eq_nat_or_neg
    · simp
    · simp [div_eq_mul_inv]
  simp only [ratOf, h, signedRat]

variable (k : Fmt)

/-- The magnitude of a pattern without its sign, in units of the last place of a subnormal; patterns beyond the finite ones go on in the
same way. -/
def Fmt.mag (b : Nat) : Nat := if b / 2 ^ k.f = 0 then b else (2 ^ k.f + b % 2 ^ k.f) * 2 ^ (b / 2 ^ k.f - 1)

/-- The magnitude of a pattern. -/
def Fmt.val (b : Nat) : Rat := k.mag b * 2 ^ k.emin

/-- The pattern of infinity without its sign: the first that is not finite. -/
def Fmt.top : Nat := k.expMax * 2 ^ k.f

theorem Fmt.two_pow_f_pos : 0 < 2 ^ k.f := Nat.two_pow_pos _

variable {k}

/-- The magnitude of a pattern by its exponent and fraction. -/
theorem Fmt.mag_normal {h r : Nat} (hr : r < 2 ^ k.f) : k.mag ((h + 1) * 2 ^ k.f + r) = (2 ^ k.f + r) * 2 ^ h := by
  have hdiv : ((h + 1) * 2 ^ k.f + r) / 2 ^ k.f = h + 1 := by
    rw [Nat.add_comm, Nat.add_mul_div_right _ _ k.two_pow_f_pos, Nat.div_eq_of_lt hr, Nat.zero_add]
  have hmod : ((h + 1) * 2 ^ k.f + r) % 2 ^ k.f = r := by
    rw [Nat.add_comm, Nat.add_mul_mod_self_right, Nat.mod_eq_of_lt hr]
  simp [Fmt.mag, hdiv, hmod]

theorem Fmt.mag_low {b : Nat} (hb : b < 2 ^ k.f) : k.mag b = b := by simp [Fmt.mag, Nat.div_eq_of_lt hb]

@[simp] theorem Fmt.mag_zero : k.mag 0 = 0 := Fmt.mag_low k.two_pow_f_pos

/-- A pattern is a subnormal or has an exponent and a fraction. -/
theorem Fmt.pattern_cases (b : Nat) : b < 2 ^ k.f ∨ ∃ h r, r < 2 ^ k.f ∧ b = (h + 1) * 2 ^ k.f + r := by
  by_cases hb : b < 2 ^ k.f
  · exact .inl hb
  · have hpos : 0 < b / 2 ^ k.f := Nat.div_pos (Nat.le_of_not_lt hb) k.two_pow_f_pos
    refine .inr ⟨b / 2 ^ k.f - 1, b % 2 ^ k.f, Nat.mod_lt _ k.two_pow_f_pos, ?_⟩
    rw [Nat.sub_add_cancel hpos, Nat.mul_comm, Nat.div_add_mod]

/-- The pattern of a significand at a height above the subnormals. -/
def Fmt.pattern (k : Fmt) (m h : Nat) : Nat := if m < 2 ^ k.f then m else h * 2 ^ k.f + m

theorem Fmt.mag_pattern {m h : Nat} (hm : m ≤ 2 ^ (k.f + 1)) (hh : m < 2 ^ k.f → h = 0) : k.mag (k.pattern m h) = m * 2 ^ h := by
  rw [Nat.pow_succ] at hm
  rw [Fmt.pattern]
  split
  · next hlow => rw [Fmt.mag_low hlow, hh hlow, Nat.pow_zero, Nat.mul_one]
  · next hlow =>
    obtain ⟨r, rfl⟩ := Nat.exists_eq_add_of_le (Nat.le_of_not_lt hlow)
    obtain hr | hr := Nat.lt_or_ge r (2 ^ k.f)
    · rw [show h * 2 ^ k.f + (2 ^ k.f + r) = (h + 1) * 2 ^ k.f + r by ring, Fmt.mag_normal hr]
    · have hr' : r = 2 ^ k.f := by omega
      rw [hr', show h * 2 ^ k.f + (2 ^ k.f + 2 ^ k.f) = (h + 1 + 1) * 2 ^ k.f + 0 by ring, Fmt.mag_normal k.two_pow_f_pos]
      ring

/-- The next pattern is that of the next significand. -/
theorem Fmt.pattern_succ {m h : Nat} (hh : m < 2 ^ k.f → h = 0) : k.pattern (m + 1) h = k.pattern m h + 1 := by
  unfold Fmt.pattern
  split
  · rw [if_pos (by omega)]
  · split
    · next hlow => rw [hh hlow]; omega
    · omega

theorem Fmt.mag_lt_succ (b : Nat) : k.mag b < k.mag (b + 1) := by
  obtain hb | ⟨h, r, hr, rfl⟩ := Fmt.pattern_cases (k := k) b
  · have hs := Fmt.mag_pattern (k := k) (m := b + 1) (h := 0) (by rw [Nat.pow_succ]; omega) fun _ => rfl
    have hp : k.pattern (b + 1) 0 = b + 1 := by simp [Fmt.pattern]
    rw [Fmt.mag_low hb, ← hp, hs]
    omega
  · have hp := Fmt.mag_pattern (k := k) (m := 2 ^ k.f + r + 1) (h := h) (by rw [Nat.pow_succ]; omega) (by omega)
    have hpat : k.pattern (2 ^ k.f + r + 1) h = (h + 1) * 2 ^ k.f + r + 1 := by
      rw [Fmt.pattern, if_neg (by omega)]
      ring
    rw [Fmt.mag_normal hr, ← hpat, hp]
    exact Nat.mul_lt_mul_of_pos_right (Nat.lt_succ_self _) (Nat.two_pow_pos _)

theorem Fmt.mag_strictMono : StrictMono k.mag := strictMono_nat_of_lt_succ Fmt.mag_lt_succ

theorem Fmt.val_strictMono : StrictMono k.val := fun a b h => by
  have hm : (k.mag a : Rat) < k.mag b := by exact_mod_cast Fmt.mag_strictMono h
  exact mul_lt_mul_of_pos_right hm (by positivity)

theorem Fmt.val_nonneg (b : Nat) : 0 ≤ k.val b := by
  unfold Fmt.val
  positivity

@[simp] theorem Fmt.val_zero : k.val 0 = 0 := by simp [Fmt.val]

end Sys2Proof.Machine
end

section
/-!
SUPPORT. Rounding a finite value (R141): the pattern that its magnitude lies at or above, and whether the one above is taken.
-/
namespace Sys2Proof.Machine

open Sys2Proof

/-- A mode takes the pattern above: `lo` and `hi` are the magnitudes of pattern `b` and of the one above, `x` is between them. -/
def Rnd.GoesUp (r : Rnd) (neg : Bool) (b : Nat) (lo x hi : Rat) : Prop :=
  match r with
  | .rne => hi - x < x - lo ∨ (hi - x = x - lo ∧ b % 2 = 1)
  | .rtz => False
  | .rup => neg = false ∧ x ≠ lo
  | .rdn => neg = true ∧ x ≠ lo

/-- A mode takes infinity where the result lies beyond the finite values. -/
def Rnd.toInf (r : Rnd) (neg : Bool) : Bool :=
  match r with
  | .rne => true
  | .rtz => false
  | .rup => !neg
  | .rdn => neg

/-- The result of a rounding whose magnitude has the pattern `b`, with the remainder that it drops. -/
def Fmt.close (k : Fmt) (r : Rnd) (neg : Bool) (b rest : Nat) : Nat × RFlags :=
  if k.top ≤ b then (if r.toInf neg then k.inf neg else k.maxFinite neg, ⟨false, true, false, true⟩)
  else ((if neg then 2 ^ (k.e + k.f) else 0) + b, ⟨false, false, decide (b ≠ 0 ∧ b < 2 ^ k.f ∧ rest ≠ 0), rest != 0⟩)

/-- The mode's decision on a significand `m` with a remainder is that on the magnitudes, in units of the remainder's last place. -/
theorem Rnd.up_iff (r : Rnd) (neg : Bool) {m rem sh b : Nat} {u : Rat} (hu : 0 < u) (hb : b % 2 = m % 2) :
    r.up neg m rem sh = true ↔
      r.GoesUp neg b ((m * 2 ^ sh : Nat) * u) ((m * 2 ^ sh + rem : Nat) * u) (((m + 1) * 2 ^ sh : Nat) * u) := by
  have hhi : (((m + 1) * 2 ^ sh : Nat) * u) - ((m * 2 ^ sh + rem : Nat) * u) = (2 ^ sh - rem) * u := by push_cast; ring
  have hlo : ((m * 2 ^ sh + rem : Nat) * u) - ((m * 2 ^ sh : Nat) * u) = rem * u := by push_cast; ring
  have hne : ((m * 2 ^ sh + rem : Nat) : Rat) * u ≠ (m * 2 ^ sh : Nat) * u ↔ rem ≠ 0 := by
    rw [Ne, mul_left_inj' hu.ne']
    norm_cast
    omega
  cases r with
  | rne =>
    have h1 : (2 ^ sh - rem : Rat) * u < rem * u ↔ 2 ^ sh < 2 * rem := by
      rw [mul_lt_mul_iff_left₀ hu, sub_lt_iff_lt_add, ← two_mul]
      norm_cast
    have h2 : (2 ^ sh - rem : Rat) * u = rem * u ↔ 2 * rem = 2 ^ sh := by
      rw [mul_left_inj' hu.ne', sub_eq_iff_eq_add, ← two_mul, eq_comm]
      norm_cast
    simp only [Rnd.up, Rnd.GoesUp, hhi, hlo, h1, h2, hb, Bool.or_eq_true, Bool.and_eq_true, decide_eq_true_eq, beq_iff_eq]
  | rtz => simp [Rnd.up, Rnd.GoesUp]
  | rup => simp only [Rnd.up, Rnd.GoesUp, hne]; simp
  | rdn => simp only [Rnd.up, Rnd.GoesUp, hne]; simp

/-! ## The significand of a magnitude -/

variable {k : Fmt}

/-- The place to which a magnitude is rounded, as a power of two. -/
def Fmt.place (k : Fmt) (m : Nat) (e : Int) : Int := max (e + ((Nat.log2 m : Int) + 1) - (k.f + 1)) k.emin

/-- The places that a rounding drops, the significand before it, the remainder, and the significand's height above the subnormals. -/
def Fmt.dropped (k : Fmt) (m : Nat) (e : Int) : Nat := (k.place m e - e).toNat
def Fmt.kept (k : Fmt) (m : Nat) (e : Int) : Nat :=
  if k.place m e ≤ e then m * 2 ^ (e - k.place m e).toNat else m / 2 ^ k.dropped m e
def Fmt.rest (k : Fmt) (m : Nat) (e : Int) : Nat := if k.place m e ≤ e then 0 else m % 2 ^ k.dropped m e
def Fmt.height (k : Fmt) (m : Nat) (e : Int) : Nat := (k.place m e - k.emin).toNat

theorem Fmt.kept_lt (m : Nat) (e : Int) : k.kept m e < 2 ^ (k.f + 1) := by
  have hlt : m < 2 ^ (Nat.log2 m + 1) := Nat.lt_log2_self
  have hq : e + ((Nat.log2 m : Int) + 1) - (k.f + 1) ≤ k.place m e := le_max_left _ _
  unfold Fmt.kept
  split
  · next hle =>
    have hexp : Nat.log2 m + 1 + (e - k.place m e).toNat ≤ k.f + 1 := by omega
    calc m * 2 ^ (e - k.place m e).toNat < 2 ^ (Nat.log2 m + 1) * 2 ^ (e - k.place m e).toNat :=
          Nat.mul_lt_mul_of_pos_right hlt (Nat.two_pow_pos _)
      _ = 2 ^ (Nat.log2 m + 1 + (e - k.place m e).toNat) := (Nat.pow_add ..).symm
      _ ≤ 2 ^ (k.f + 1) := Nat.pow_le_pow_right (by decide) hexp
  · next hle =>
    have hexp : Nat.log2 m + 1 ≤ k.f + 1 + k.dropped m e := by unfold Fmt.dropped; omega
    rw [Nat.div_lt_iff_lt_mul (Nat.two_pow_pos _), ← Nat.pow_add]
    exact Nat.lt_of_lt_of_le hlt (Nat.pow_le_pow_right (by decide) hexp)

theorem Fmt.height_of_low {m : Nat} (hm : m ≠ 0) {e : Int} (hlow : k.kept m e < 2 ^ k.f) : k.height m e = 0 := by
  by_contra hh
  have hge : 2 ^ Nat.log2 m ≤ m := Nat.log2_self_le hm
  have hq : k.place m e = e + ((Nat.log2 m : Int) + 1) - (k.f + 1) := by
    unfold Fmt.height at hh
    unfold Fmt.place at hh ⊢
    omega
  refine absurd hlow (Nat.not_lt.mpr ?_)
  unfold Fmt.kept
  split
  · next hle =>
    have hexp : k.f ≤ Nat.log2 m + (e - k.place m e).toNat := by omega
    calc 2 ^ k.f ≤ 2 ^ (Nat.log2 m + (e - k.place m e).toNat) := Nat.pow_le_pow_right (by decide) hexp
      _ = 2 ^ Nat.log2 m * 2 ^ (e - k.place m e).toNat := Nat.pow_add ..
      _ ≤ m * 2 ^ (e - k.place m e).toNat := Nat.mul_le_mul_right _ hge
  · next hle =>
    have hexp : k.f + k.dropped m e ≤ Nat.log2 m := by unfold Fmt.dropped; omega
    rw [Nat.le_div_iff_mul_le (Nat.two_pow_pos _), ← Nat.pow_add]
    exact Nat.le_trans (Nat.pow_le_pow_right (by decide) hexp) hge

/-- A magnitude in units of the last place of its remainder. -/
theorem Fmt.split_magnitude (m : Nat) (e : Int) : ∃ u : Rat, 0 < u ∧
    (m : Rat) * 2 ^ e = (k.kept m e * 2 ^ k.dropped m e + k.rest m e : Nat) * u ∧ (2 : Rat) ^ k.dropped m e * u = 2 ^ k.place m e := by
  by_cases hle : k.place m e ≤ e
  · have hd : k.dropped m e = 0 := by unfold Fmt.dropped; omega
    refine ⟨2 ^ k.place m e, by positivity, ?_, by simp [hd]⟩
    have he : (2 : Rat) ^ e = 2 ^ (e - k.place m e).toNat * 2 ^ k.place m e := by
      rw [← zpow_natCast, ← zpow_add₀ (by norm_num)]
      congr 1
      omega
    simp only [hd, Fmt.kept, Fmt.rest, hle, if_true, he]
    push_cast
    ring
  · refine ⟨2 ^ e, by positivity, ?_, ?_⟩
    · have hm : k.kept m e * 2 ^ k.dropped m e + k.rest m e = m := by
        simp only [Fmt.kept, Fmt.rest, hle, if_false]
        rw [Nat.mul_comm, Nat.div_add_mod]
      rw [hm]
    · rw [← zpow_natCast, ← zpow_add₀ (by norm_num)]
      congr 1
      unfold Fmt.dropped
      omega

theorem Fmt.place_eq (m : Nat) (e : Int) : k.place m e = k.height m e + k.emin := by
  have h : k.emin ≤ k.place m e := le_max_right _ _
  unfold Fmt.height
  omega

theorem Fmt.val_pattern {m h : Nat} (hm : m ≤ 2 ^ (k.f + 1)) (hh : m < 2 ^ k.f → h = 0) :
    k.val (k.pattern m h) = m * 2 ^ ((h : Int) + k.emin) := by
  rw [Fmt.val, Fmt.mag_pattern hm hh, zpow_add₀ (by norm_num), zpow_natCast]
  push_cast
  ring

/-- The pattern of a significand before it is rounded has what the significand is worth. -/
theorem Fmt.val_kept {m : Nat} (hm : m ≠ 0) (e : Int) :
    k.val (k.pattern (k.kept m e) (k.height m e)) = k.kept m e * 2 ^ k.place m e := by
  rw [Fmt.val_pattern (Fmt.kept_lt m e).le (Fmt.height_of_low hm), ← Fmt.place_eq]

theorem Fmt.pattern_mod_two (hf : 0 < k.f) (m h : Nat) : k.pattern m h % 2 = m % 2 := by
  obtain ⟨f, hf⟩ := Nat.exists_eq_succ_of_ne_zero hf.ne'
  unfold Fmt.pattern
  split
  · rfl
  · rw [hf, Nat.pow_succ, ← Nat.mul_assoc, Nat.mul_add_mod_self_right]

theorem Fmt.roundFin_zero (he : 0 < k.e) (r : Rnd) (neg : Bool) (e : Int) : k.roundFin r neg 0 e = k.close r neg 0 0 := by
  have htop : ¬ k.top ≤ 0 := by
    have h2 : 2 ≤ 2 ^ k.e := Nat.le_self_pow he.ne' 2
    have : 0 < (2 ^ k.e - 1) * 2 ^ k.f := Nat.mul_pos (by omega) k.two_pow_f_pos
    unfold Fmt.top Fmt.expMax
    omega
  simp [Fmt.roundFin, Fmt.close, htop, RFlags.none]

theorem Fmt.roundFin_eq (r : Rnd) (neg : Bool) {m : Nat} (hm : m ≠ 0) (e : Int) : k.roundFin r neg m e =
    k.close r neg (k.pattern (if r.up neg (k.kept m e) (k.rest m e) (k.dropped m e) then k.kept m e + 1 else k.kept m e) (k.height m e))
      (k.rest m e) := by
  unfold Fmt.roundFin
  rw [if_neg hm]
  cases r <;> rfl

/-- Rounding a finite value: its magnitude lies at a pattern or above it, below the next one, and the mode takes one of the two. -/
theorem Fmt.roundFin_spec (he : 0 < k.e) (hf : 0 < k.f) (r : Rnd) (neg : Bool) (m : Nat) (e : Int) : ∃ b b' rest : Nat,
    k.val b ≤ m * 2 ^ e ∧ (m : Rat) * 2 ^ e < k.val (b + 1) ∧ (rest = 0 ↔ (m : Rat) * 2 ^ e = k.val b) ∧
      ((r.GoesUp neg b (k.val b) (m * 2 ^ e) (k.val (b + 1)) ∧ b' = b + 1) ∨
        (¬ r.GoesUp neg b (k.val b) (m * 2 ^ e) (k.val (b + 1)) ∧ b' = b)) ∧
      k.roundFin r neg m e = k.close r neg b' rest := by
  obtain rfl | hm := eq_or_ne m 0
  · have hpos : 0 < k.val 1 := k.val_zero ▸ Fmt.val_strictMono (by decide : 0 < 1)
    refine ⟨0, 0, 0, by simp, by simpa using hpos, by simp, .inr ⟨?_, rfl⟩, Fmt.roundFin_zero he r neg e⟩
    cases r <;> simp [Rnd.GoesUp]
    exact hpos.le
  · obtain ⟨u, hu, hx, hq⟩ := Fmt.split_magnitude (k := k) m e
    have hlt := Fmt.kept_lt (k := k) m e
    have hlow : k.kept m e < 2 ^ k.f → k.height m e = 0 := Fmt.height_of_low hm
    have hval : k.val (k.pattern (k.kept m e) (k.height m e)) = (k.kept m e * 2 ^ k.dropped m e : Nat) * u := by
      rw [Fmt.val_kept hm, ← hq]
      push_cast
      ring
    have hsucc : k.val (k.pattern (k.kept m e) (k.height m e) + 1) = ((k.kept m e + 1) * 2 ^ k.dropped m e : Nat) * u := by
      rw [← Fmt.pattern_succ hlow, Fmt.val_pattern hlt fun h => hlow (by omega), ← Fmt.place_eq, ← hq]
      push_cast
      ring
    have hrest : k.rest m e < 2 ^ k.dropped m e := by
      unfold Fmt.rest
      split
      · exact Nat.two_pow_pos _
      · exact Nat.mod_lt _ (Nat.two_pow_pos _)
    have hup := Rnd.up_iff r neg (m := k.kept m e) (rem := k.rest m e) (sh := k.dropped m e) hu
      (Fmt.pattern_mod_two hf (k.kept m e) (k.height m e))
    rw [← hval, ← hsucc, ← hx] at hup
    refine ⟨k.pattern (k.kept m e) (k.height m e), _, k.rest m e, ?_, ?_, ?_, ?_, Fmt.roundFin_eq r neg hm e⟩
    · rw [hval, hx]
      exact mul_le_mul_of_nonneg_right (by exact_mod_cast Nat.le_add_right _ _) hu.le
    · rw [hsucc, hx]
      refine mul_lt_mul_of_pos_right ?_ hu
      have : k.kept m e * 2 ^ k.dropped m e + k.rest m e < (k.kept m e + 1) * 2 ^ k.dropped m e := by rw [Nat.succ_mul]; omega
      exact_mod_cast this
    · rw [hval, hx, mul_left_inj' hu.ne']
      norm_cast
      omega
    · cases h : r.up neg (k.kept m e) (k.rest m e) (k.dropped m e) with
      | true => exact .inl ⟨hup.mp h, by rw [if_pos rfl, Fmt.pattern_succ hlow]⟩
      | false => exact .inr ⟨fun hg => Bool.false_ne_true (h.symm.trans (hup.mpr hg)), by rw [if_neg Bool.false_ne_true]⟩

end Sys2Proof.Machine
end

section
/-!
SUPPORT. The values of patterns, and rounding by magnitudes carried over to signed values (R137, R141, R144).
-/
namespace Sys2Proof.Machine

open Sys2Proof

variable {k : Fmt}

/-! ## Patterns -/

/-- The sign of a pattern, and the pattern without it. -/
def Fmt.sign (k : Fmt) (w : Nat) : Bool := w / 2 ^ (k.e + k.f) % 2 == 1
def Fmt.unsign (k : Fmt) (w : Nat) : Nat := w % 2 ^ (k.e + k.f)

/-- A pattern with a sign. -/
def Fmt.withSign (k : Fmt) (neg : Bool) (b : Nat) : Nat := (if neg then 2 ^ (k.e + k.f) else 0) + b

theorem Fmt.top_lt : k.top < 2 ^ (k.e + k.f) := by
  have h : k.expMax < 2 ^ k.e := Nat.sub_lt (Nat.two_pow_pos _) (by decide)
  rw [Fmt.top, Nat.pow_add]
  exact Nat.mul_lt_mul_of_pos_right h k.two_pow_f_pos

theorem Fmt.sign_withSign (neg : Bool) {b : Nat} (hb : b < 2 ^ (k.e + k.f)) : k.sign (k.withSign neg b) = neg := by
  cases neg with
  | false => simp [Fmt.sign, Fmt.withSign, Nat.div_eq_of_lt hb]
  | true =>
    have h : (2 ^ (k.e + k.f) + b) / 2 ^ (k.e + k.f) = 1 := by
      rw [Nat.add_comm, Nat.add_div_right _ (Nat.two_pow_pos _), Nat.div_eq_of_lt hb]
    simp [Fmt.sign, Fmt.withSign, h]

theorem Fmt.unsign_withSign (neg : Bool) {b : Nat} (hb : b < 2 ^ (k.e + k.f)) : k.unsign (k.withSign neg b) = b := by
  cases neg <;> simp [Fmt.unsign, Fmt.withSign, Nat.mod_eq_of_lt hb]

theorem Fmt.exponent_unsign (w : Nat) : k.unsign w / 2 ^ k.f = w / 2 ^ k.f % 2 ^ k.e := by
  rw [Fmt.unsign, Nat.pow_add, Nat.mul_comm, Nat.mod_mul_right_div_self]

theorem Fmt.fraction_unsign (w : Nat) : k.unsign w % 2 ^ k.f = w % 2 ^ k.f :=
  Nat.mod_mod_of_dvd _ (Nat.pow_dvd_pow 2 (Nat.le_add_left ..))

/-- The value of a pattern, by the pattern without its sign. -/
theorem Fmt.value_eq (w : Nat) : k.value w =
    if k.unsign w / 2 ^ k.f = k.expMax then (if k.unsign w % 2 ^ k.f = 0 then .inf (k.sign w) else .nan)
    else if k.unsign w / 2 ^ k.f = 0 then .fin (k.sign w) (k.unsign w % 2 ^ k.f) k.emin
    else .fin (k.sign w) (2 ^ k.f + k.unsign w % 2 ^ k.f) (k.emin + (k.unsign w / 2 ^ k.f : Nat) - 1) := by
  simp only [Fmt.exponent_unsign, Fmt.fraction_unsign]
  rfl

theorem Fmt.exponent_lt_iff {c : Nat} : c / 2 ^ k.f < k.expMax ↔ c < k.top := Nat.div_lt_iff_lt_mul k.two_pow_f_pos

/-- A pattern below that of infinity has a finite value, of its magnitude. -/
theorem Fmt.value_of_lt {w : Nat} (h : k.unsign w < k.top) :
    ∃ m e, k.value w = .fin (k.sign w) m e ∧ (m : Rat) * 2 ^ e = k.val (k.unsign w) := by
  have hne : k.unsign w / 2 ^ k.f ≠ k.expMax := (Fmt.exponent_lt_iff.mpr h).ne
  rw [Fmt.value_eq, if_neg hne]
  by_cases h0 : k.unsign w / 2 ^ k.f = 0
  · rw [if_pos h0]
    refine ⟨_, _, rfl, ?_⟩
    have hlow : k.unsign w < 2 ^ k.f := (Nat.div_eq_zero_iff_lt k.two_pow_f_pos).mp h0
    rw [Nat.mod_eq_of_lt hlow, Fmt.val, Fmt.mag_low hlow]
  · rw [if_neg h0]
    refine ⟨_, _, rfl, ?_⟩
    obtain ⟨n, hn⟩ := Nat.exists_eq_succ_of_ne_zero h0
    rw [Fmt.val, Fmt.mag, if_neg h0, hn, show k.emin + ((n.succ : Nat) : Int) - 1 = n + k.emin by push_cast; ring,
      zpow_add₀ (by norm_num), zpow_natCast, Nat.succ_sub_one]
    push_cast
    ring

theorem Fmt.value_of_eq_top {w : Nat} (h : k.unsign w = k.top) : k.value w = .inf (k.sign w) := by
  rw [Fmt.value_eq, h, Fmt.top, Nat.mul_div_cancel _ k.two_pow_f_pos, Nat.mul_mod_left, if_pos rfl, if_pos rfl]

/-- Only patterns below that of infinity have a finite value. -/
theorem Fmt.unsign_lt_of_ratOf {w : Nat} {z : Rat} (h : ratOf (k.value w) = some z) : k.unsign w < k.top := by
  by_contra hge
  have hle : k.expMax ≤ k.unsign w / 2 ^ k.f := Nat.not_lt.mp fun hlt => hge (Fmt.exponent_lt_iff.mp hlt)
  have hlt : k.unsign w / 2 ^ k.f < 2 ^ k.e := by
    rw [Fmt.exponent_unsign]
    exact Nat.mod_lt _ (Nat.two_pow_pos _)
  have heq : k.unsign w / 2 ^ k.f = k.expMax := by
    unfold Fmt.expMax at hle ⊢
    omega
  rw [Fmt.value_eq, if_pos heq] at h
  split at h <;> cases h

/-- A finite value is the magnitude of its pattern, with its sign. -/
theorem Fmt.ratOf_value {w : Nat} (h : k.unsign w < k.top) : ratOf (k.value w) = some (signedRat (k.sign w) (k.val (k.unsign w))) := by
  obtain ⟨m, e, hv, hm⟩ := Fmt.value_of_lt h
  rw [hv, ratOf_fin, hm]

theorem Fmt.value_withSign_ratOf (neg : Bool) {b : Nat} (h : b < k.top) :
    ratOf (k.value (k.withSign neg b)) = some (signedRat neg (k.val b)) := by
  have hb := h.trans k.top_lt
  have hu := Fmt.unsign_withSign neg hb
  rw [Fmt.ratOf_value (hu.symm ▸ h), hu, Fmt.sign_withSign neg hb]

theorem Fmt.value_inf (neg : Bool) : k.value (k.inf neg) = .inf neg := by
  have hinf : k.inf neg = k.withSign neg k.top := rfl
  rw [hinf, Fmt.value_of_eq_top (Fmt.unsign_withSign neg k.top_lt), Fmt.sign_withSign neg k.top_lt]

end Sys2Proof.Machine
end

section
/-!
SUPPORT. Rounding on magnitudes carried over to signed values, and what a narrowing gives (R141, R144).
-/
namespace Sys2Proof.Machine

open Sys2Proof

/-! ## Rationals with a sign -/

theorem abs_signedRat (neg : Bool) {x : Rat} (hx : 0 ≤ x) : |signedRat neg x| = x := by
  cases neg <;> simp [signedRat, hx]

theorem signedRat_inj {neg : Bool} {x y : Rat} : signedRat neg x = signedRat neg y ↔ x = y := by
  cases neg <;> simp [signedRat]

theorem signedRat_eq_zero {neg : Bool} {x : Rat} : signedRat neg x = 0 ↔ x = 0 := by
  cases neg <;> simp [signedRat]

theorem decide_signedRat_lt (neg : Bool) {x : Rat} (hx : 0 < x) : decide (signedRat neg x < 0) = neg := by
  cases neg <;> simp [signedRat, hx, hx.le]

theorem signedRat_sub (neg : Bool) (x y : Rat) : |signedRat neg x - signedRat neg y| = |x - y| := by
  cases neg
  · rfl
  · rw [signedRat, signedRat, if_pos rfl, if_pos rfl, neg_sub_neg, abs_sub_comm]

/-- A magnitude is no farther from another than any two values that have them. -/
theorem abs_sub_abs_signedRat (neg : Bool) {x : Rat} (hx : 0 ≤ x) (z : Rat) : |x - (|z|)| ≤ |signedRat neg x - z| := by
  have h := abs_abs_sub_abs_le (signedRat neg x) z
  rwa [abs_signedRat neg hx] at h

/-- Values of unlike signs are apart by the sum of their magnitudes. -/
theorem abs_sub_of_opposite {neg : Bool} {x y z : Rat} (hx : 0 ≤ x) (hy : 0 ≤ y) (hz : |z| = y) (hne : z ≠ signedRat neg y) :
    |signedRat neg x - z| = x + y := by
  have hopp : z = -signedRat neg y := by
    obtain h | h := abs_eq_abs.mp (hz.trans (abs_signedRat neg hy).symm)
    · exact absurd h hne
    · exact h
  rw [hopp, sub_neg_eq_add]
  cases neg
  · exact abs_of_nonneg (add_nonneg hx hy)
  · rw [signedRat, signedRat, if_pos rfl, if_pos rfl, ← neg_add, abs_neg, abs_of_nonneg (add_nonneg hx hy)]

variable {k : Fmt}

theorem Fmt.top_pos (he : 0 < k.e) : 0 < k.top := by
  have h2 : 2 ≤ 2 ^ k.e := Nat.le_self_pow he.ne' 2
  refine Nat.mul_pos ?_ k.two_pow_f_pos
  unfold Fmt.expMax
  omega

theorem Fmt.val_inj {a b : Nat} : k.val a = k.val b ↔ a = b := Fmt.val_strictMono.injective.eq_iff

theorem Fmt.val_eq_zero {b : Nat} : k.val b = 0 ↔ b = 0 := by rw [← Fmt.val_zero (k := k), Fmt.val_inj]

/-- Every finite value of a format has the magnitude of a finite pattern. -/
theorem Fmt.abs_ratOf_value {w : Nat} {z : Rat} (h : ratOf (k.value w) = some z) : ∃ c < k.top, |z| = k.val c := by
  have hlt := Fmt.unsign_lt_of_ratOf h
  refine ⟨k.unsign w, hlt, ?_⟩
  rw [Fmt.ratOf_value hlt] at h
  rw [← Option.some.inj h, abs_signedRat _ (Fmt.val_nonneg _)]

/-! ## The magnitude that a mode gives -/

/-- The pattern that a mode gives for a magnitude `x`: the one that it lies at or above, `b`, or the next. -/
def Fmt.Picks (k : Fmt) (r : Rnd) (neg : Bool) (x : Rat) (b b' : Nat) : Prop :=
  k.val b ≤ x ∧ x < k.val (b + 1) ∧
    ((r.GoesUp neg b (k.val b) x (k.val (b + 1)) ∧ b' = b + 1) ∨ (¬ r.GoesUp neg b (k.val b) x (k.val (b + 1)) ∧ b' = b))

/-- R141 on magnitudes: on the side that the mode says with no finite magnitude between; for nearest, none is nearer, and the pattern is
even where one is as near. -/
def Fmt.Nearby (k : Fmt) (r : Rnd) (neg : Bool) (x : Rat) (b : Nat) : Prop :=
  (r.toInf neg = false → k.val b ≤ x ∧ ∀ c < k.top, k.val c < x → k.val c ≤ k.val b) ∧
  (r ≠ .rne → r.toInf neg = true → x ≤ k.val b ∧ ∀ c, x < k.val c → k.val b ≤ k.val c) ∧
  (r = .rne → ∀ c, |x - k.val b| ≤ |x - k.val c| ∧ (|x - k.val b| = |x - k.val c| → k.val c ≠ k.val b → b % 2 = 0))

/-- A mode that stays below infinity drops the remainder. -/
theorem Rnd.not_goesUp {r : Rnd} {neg : Bool} {b : Nat} {lo x hi : Rat} (h : r.toInf neg = false) : ¬ r.GoesUp neg b lo x hi := by
  cases r <;> cases neg <;> simp_all [Rnd.toInf, Rnd.GoesUp]

/-- A directed mode that reaches infinity goes up from everything but a pattern's own value. -/
theorem Rnd.goesUp_iff {r : Rnd} {neg : Bool} {b : Nat} {lo x hi : Rat} (hr : r ≠ .rne) (h : r.toInf neg = true) :
    r.GoesUp neg b lo x hi ↔ x ≠ lo := by
  cases r <;> cases neg <;> simp_all [Rnd.toInf, Rnd.GoesUp]

/-- No mode goes up from a pattern's own value. -/
theorem Rnd.GoesUp.ne {r : Rnd} {neg : Bool} {b : Nat} {lo x hi : Rat} (h : r.GoesUp neg b lo x hi) (hx : x < hi) : x ≠ lo := by
  rintro rfl
  cases r with
  | rne =>
    obtain h | ⟨h, -⟩ := h <;> linarith
  | rtz => exact h
  | rup => exact h.2 rfl
  | rdn => exact h.2 rfl

theorem Fmt.val_le_or_ge (b c : Nat) : k.val c ≤ k.val b ∨ k.val (b + 1) ≤ k.val c := by
  obtain h | h := Nat.lt_or_ge b c
  · exact .inr (Fmt.val_strictMono.monotone h)
  · exact .inl (Fmt.val_strictMono.monotone h)

theorem Fmt.Picks.toward {r : Rnd} {neg : Bool} {x : Rat} {b b' : Nat} (h : k.Picks r neg x b b') (hr : r.toInf neg = false) : b' = b := by
  obtain ⟨-, -, ⟨hup, -⟩ | ⟨-, hb⟩⟩ := h
  · exact absurd hup (Rnd.not_goesUp hr)
  · exact hb

theorem Fmt.Picks.nearest {neg : Bool} {x : Rat} {b b' : Nat} (h : k.Picks .rne neg x b b') (c : Nat) :
    |x - k.val b'| ≤ |x - k.val c| ∧ (|x - k.val b'| = |x - k.val c| → k.val c ≠ k.val b' → b' % 2 = 0) := by
  obtain ⟨hlo, hhi, ⟨hup, rfl⟩ | ⟨hup, rfl⟩⟩ := h
  · have hle : k.val (b + 1) - x ≤ x - k.val b := hup.elim le_of_lt fun h => h.1.le
    rw [abs_of_neg (sub_neg.mpr hhi)]
    obtain hc | hc := Fmt.val_le_or_ge (k := k) b c
    · rw [abs_of_nonneg (by linarith : 0 ≤ x - k.val c)]
      refine ⟨by linarith, fun heq _ => ?_⟩
      obtain h | ⟨-, h⟩ := hup
      · linarith
      · omega
    · rw [abs_of_neg (by linarith : x - k.val c < 0)]
      exact ⟨by linarith, fun heq hne => absurd (by linarith : k.val c = k.val (b + 1)) hne⟩
  · have hle : x - k.val b' ≤ k.val (b' + 1) - x := not_lt.mp fun h => hup (.inl h)
    rw [abs_of_nonneg (sub_nonneg.mpr hlo)]
    obtain hc | hc := Fmt.val_le_or_ge (k := k) b' c
    · rw [abs_of_nonneg (by linarith : 0 ≤ x - k.val c)]
      exact ⟨by linarith, fun heq hne => absurd (by linarith : k.val c = k.val b') hne⟩
    · rw [abs_of_neg (by linarith : x - k.val c < 0)]
      refine ⟨by linarith, fun heq _ => ?_⟩
      have hodd : ¬ b' % 2 = 1 := fun h => hup (.inr ⟨by linarith, h⟩)
      omega

theorem Fmt.Picks.nearby {r : Rnd} {neg : Bool} {x : Rat} {b b' : Nat} (h : k.Picks r neg x b b') : k.Nearby r neg x b' := by
  refine ⟨fun hr => ?_, fun hne hr => ?_, fun hr => ?_⟩
  · obtain rfl := h.toward hr
    obtain ⟨hlo, hhi, -⟩ := h
    refine ⟨hlo, fun c _ hc => ?_⟩
    obtain hle | hge := Fmt.val_le_or_ge (k := k) b' c
    · exact hle
    · linarith
  · obtain ⟨hlo, hhi, hup⟩ := h
    rw [Rnd.goesUp_iff hne hr] at hup
    obtain ⟨-, rfl⟩ | ⟨hx, rfl⟩ := hup
    · refine ⟨hhi.le, fun c hc => ?_⟩
      obtain hle | hge := Fmt.val_le_or_ge (k := k) b c
      · linarith
      · exact hge
    · exact ⟨(not_not.mp hx).le, fun c hc => (not_not.mp hx) ▸ hc.le⟩
  · subst hr
    exact h.nearest

/-! ## Signed values -/

theorem Fmt.withSign_mod_two (he : 0 < k.e) (neg : Bool) (b : Nat) : k.withSign neg b % 2 = b % 2 := by
  obtain ⟨n, hn⟩ := Nat.exists_eq_succ_of_ne_zero (show k.e + k.f ≠ 0 by omega)
  cases neg <;> simp [Fmt.withSign, hn, Nat.pow_succ, Nat.add_mod]

/-- A directed mode that stays below infinity gives the value next to `x` toward zero. -/
theorem no_value_toward (neg : Bool) {x y z : Rat} (hy : 0 ≤ y) (hyx : y ≤ x) (hz : |z| < x → |z| ≤ y) :
    ¬ (signedRat neg x < z ∧ z < signedRat neg y) ∧ ¬ (signedRat neg y < z ∧ z < signedRat neg x) := by
  have h1 := le_abs_self z
  have h2 := neg_abs_le z
  have h3 := abs_lt (a := z) (b := x)
  cases neg <;> simp only [signedRat, if_true, if_false, Bool.false_eq_true]
  · refine ⟨fun h => by linarith [h.1, h.2], fun h => ?_⟩
    linarith [h.1, hz (h3.mpr ⟨by linarith [h.1], h.2⟩)]
  · refine ⟨fun h => ?_, fun h => by linarith [h.1, h.2]⟩
    linarith [h.2, hz (h3.mpr ⟨h.1, by linarith [h.2]⟩)]

/-- A directed mode that reaches infinity gives the value next to `x` away from zero. -/
theorem no_value_away (neg : Bool) {x y z : Rat} (hx : 0 ≤ x) (hxy : x ≤ y) (hz : x < |z| → y ≤ |z|) :
    ¬ (signedRat neg x < z ∧ z < signedRat neg y) ∧ ¬ (signedRat neg y < z ∧ z < signedRat neg x) := by
  have h1 := le_abs_self z
  have h2 := neg_le_abs z
  have h3 := abs_lt (a := z) (b := y)
  cases neg <;> simp only [signedRat, if_true, if_false, Bool.false_eq_true]
  · refine ⟨fun h => ?_, fun h => by linarith [h.1, h.2]⟩
    have := hz (by linarith [h.1])
    linarith [(h3.mpr ⟨by linarith [h.1, h.2], h.2⟩)]
  · refine ⟨fun h => by linarith [h.1, h.2], fun h => ?_⟩
    have := hz (by linarith [h.2])
    linarith [(h3.mpr ⟨h.1, by linarith [h.1, h.2]⟩)]

theorem Fmt.Nearby.roundsTo (he : 0 < k.e) {r : Rnd} {neg : Bool} {x : Rat} {b : Nat} (hx : 0 ≤ x) (hb : b < k.top)
    (h : k.Nearby r neg x b) : RoundsTo k r (signedRat neg x) (k.withSign neg b) := by
  intro y hy
  obtain ⟨htoward, haway, hnear⟩ := h
  rw [Fmt.value_withSign_ratOf neg hb] at hy
  obtain rfl := Option.some.inj hy
  have hb0 := Fmt.val_nonneg (k := k) b
  refine ⟨?_, ?_, ?_, fun n z _ hz => ⟨fun hr => ?_, fun hr => ?_⟩⟩
  · rintro rfl
    cases neg with
    | false => exact (haway (by decide) rfl).1
    | true => exact neg_le_neg (htoward rfl).1
  · rintro rfl
    cases neg with
    | false => exact (htoward rfl).1
    | true => exact neg_le_neg (haway (by decide) rfl).1
  · rintro rfl
    rw [abs_signedRat neg hx, abs_signedRat neg hb0]
    exact (htoward rfl).1
  · obtain ⟨c, hc, hzc⟩ := Fmt.abs_ratOf_value hz
    cases hinf : r.toInf neg with
    | false =>
      obtain ⟨hle, hno⟩ := htoward hinf
      exact no_value_toward neg hb0 hle (hzc ▸ hno c hc)
    | true =>
      obtain ⟨hle, hno⟩ := haway hr hinf
      exact no_value_away neg hx hle (hzc ▸ hno c)
  · obtain ⟨c, -, hzc⟩ := Fmt.abs_ratOf_value hz
    obtain ⟨hle, htie⟩ := hnear hr c
    have hdist := abs_sub_abs_signedRat neg hx z
    rw [signedRat_sub, Fmt.withSign_mod_two he]
    rw [← hzc] at hle htie
    refine ⟨hle.trans hdist, fun heq hne => ?_⟩
    by_cases hmag : |z| = k.val b
    · have hfar := abs_sub_of_opposite hx hb0 hmag hne
      have hzero := (hnear hr 0).1
      rw [Fmt.val_zero, sub_zero, abs_of_nonneg hx] at hzero
      have hb : b = 0 := Fmt.val_eq_zero.mp (le_antisymm (by linarith) hb0)
      rw [hb]
    · exact htie (le_antisymm hle (heq ▸ hdist)) hmag

end Sys2Proof.Machine
end

section
/-!
SUPPORT. Narrowing to a format (R141, R143, R144): the value of the rounded pattern and what the rounding reports.
-/
namespace Sys2Proof.Machine

open Sys2Proof

variable {k : Fmt}

theorem Fmt.ratOf_inf (neg : Bool) : ratOf (k.value (k.inf neg)) = none := by rw [Fmt.value_inf]; rfl

/-- The largest finite pattern is the one below infinity. -/
theorem Fmt.maxFinite_eq (he : 0 < k.e) (neg : Bool) : k.maxFinite neg = k.withSign neg (k.top - 1) :=
  Nat.add_sub_assoc (Fmt.top_pos he) _

theorem Fmt.inf_eq (neg : Bool) : k.inf neg = k.withSign neg k.top := rfl

/-- A mode that reaches infinity, by the value that it rounds. -/
theorem Rnd.toInf_cases {r : Rnd} {neg : Bool} (h : r.toInf neg = true) {x : Rat} (hx : 0 < x) :
    r = .rne ∨ (r = .rup ∧ 0 < signedRat neg x) ∨ (r = .rdn ∧ signedRat neg x < 0) := by
  cases r <;> cases neg <;> simp_all [Rnd.toInf, signedRat]

/-- A magnitude that is rounded to infinity's pattern or beyond is above every finite one, unless the mode stays below infinity. -/
theorem Fmt.Picks.finite_lt {r : Rnd} {neg : Bool} {x : Rat} {b b' c : Nat} (h : k.Picks r neg x b b') (hb : k.top ≤ b') (hc : c < k.top) :
    k.val c < x := by
  obtain ⟨hlo, hhi, ⟨hup, rfl⟩ | ⟨-, rfl⟩⟩ := h
  · have hle : k.val c ≤ k.val b := Fmt.val_strictMono.monotone (by omega)
    exact lt_of_le_of_lt hle (lt_of_le_of_ne hlo (hup.ne hhi).symm)
  · exact lt_of_lt_of_le (Fmt.val_strictMono (by omega)) hlo

/-- What a narrowing promises of a finite value: the third clause of `NarrowsTo`. -/
def NarrowsFinite (k : Fmt) (m : Rnd) (x : Rat) (bits : Nat) (f : RFlags) : Prop :=
  RoundsTo k m x bits ∧ f.inv = false ∧ bits % 2 ^ (k.e + k.f) ≤ k.inf false ∧
    (∀ n, k.value bits = .inf n → f.ovf = true ∧ f.inx = true ∧ n = decide (x < 0) ∧
      (m = .rne ∨ (m = .rup ∧ 0 < x) ∨ (m = .rdn ∧ x < 0)) ∧
      ∀ (w : Nat) (z : Rat), w < 2 ^ k.width → ratOf (k.value w) = some z → |z| < |x|) ∧
    (f.ovf = true → k.value bits = .inf (decide (x < 0)) ∨ bits = k.maxFinite (decide (x < 0))) ∧
    ∀ y, ratOf (k.value bits) = some y → f.ovf = false → (f.inx = false ↔ y = x) ∧
      (f.unf = true ↔ y ≠ 0 ∧ y ≠ x ∧ bits % 2 ^ (k.e + k.f) < 2 ^ k.f)

theorem narrowsTo_iff {m : Rnd} {v : FVal} {bits : Nat} {f : RFlags} : NarrowsTo k m v bits f ↔
    (v = .nan → bits = k.nan ∧ f = .none) ∧ (∀ n, v = .inf n → bits = k.inf n ∧ f = .none) ∧
      ∀ x, ratOf v = some x → NarrowsFinite k m x bits f := Iff.rfl

/-- Overflow to infinity. -/
theorem narrowsFinite_inf {r : Rnd} {neg : Bool} {x : Rat} (hinf : r.toInf neg = true) (hx : 0 < x) (hbig : ∀ c < k.top, k.val c < x) :
    NarrowsFinite k r (signedRat neg x) (k.inf neg) ⟨false, true, false, true⟩ := by
  have hnone {y : Rat} : ratOf (k.value (k.inf neg)) ≠ some y := by rw [Fmt.ratOf_inf]; nofun
  refine ⟨fun y hy => absurd hy hnone, rfl, ?_, fun n hn => ⟨rfl, rfl, ?_, Rnd.toInf_cases hinf hx, fun w z _ hz => ?_⟩, fun _ => .inl ?_,
    fun y hy => absurd hy hnone⟩
  · exact (Fmt.unsign_withSign neg k.top_lt).trans_le (Nat.le_add_left ..)
  · rw [decide_signedRat_lt neg hx]
    rw [Fmt.value_inf] at hn
    exact (FVal.inf.inj hn).symm
  · obtain ⟨c, hc, hzc⟩ := Fmt.abs_ratOf_value hz
    rw [hzc, abs_signedRat neg hx.le]
    exact hbig c hc
  · rw [Fmt.value_inf, decide_signedRat_lt neg hx]

theorem Fmt.value_withSign_ne_inf {neg n : Bool} {b : Nat} (hb : b < k.top) : k.value (k.withSign neg b) ≠ .inf n := by
  intro h
  have hr := Fmt.value_withSign_ratOf neg hb
  rw [h] at hr
  cases hr

theorem Fmt.withSign_mod_lt {neg : Bool} {b : Nat} (hb : b < k.top) : k.withSign neg b % 2 ^ (k.e + k.f) ≤ k.inf false := by
  refine (Fmt.unsign_withSign neg (hb.trans k.top_lt)).trans_le ?_
  rw [Fmt.inf_eq]
  simpa [Fmt.withSign] using hb.le

/-- Overflow where the mode stays below infinity. -/
theorem narrowsFinite_max (he : 0 < k.e) {r : Rnd} {neg : Bool} {x : Rat} (hinf : r.toInf neg = false) (hx : 0 < x)
    (hbig : ∀ c < k.top, k.val c < x) : NarrowsFinite k r (signedRat neg x) (k.maxFinite neg) ⟨false, true, false, true⟩ := by
  have hpos := Fmt.top_pos he
  have htop : k.top - 1 < k.top := Nat.sub_lt hpos (by decide)
  have hnear : k.Nearby r neg x (k.top - 1) := by
    refine ⟨fun _ => ⟨(hbig _ htop).le, fun c hc _ => Fmt.val_strictMono.monotone (Nat.le_sub_one_of_lt hc)⟩, fun _ h => ?_, ?_⟩
    · exact absurd (hinf.symm.trans h) Bool.false_ne_true
    · rintro rfl
      cases hinf
  rw [Fmt.maxFinite_eq he]
  refine ⟨hnear.roundsTo he hx.le htop, rfl, Fmt.withSign_mod_lt htop, fun n hn => absurd hn (Fmt.value_withSign_ne_inf htop),
    fun _ => .inr ?_, fun y _ h => Bool.noConfusion h⟩
  rw [decide_signedRat_lt neg hx, Fmt.maxFinite_eq he]

/-- No overflow. -/
theorem narrowsFinite_pattern (he : 0 < k.e) {r : Rnd} {neg : Bool} {x : Rat} {b rest : Nat} (hx : 0 ≤ x) (hnear : k.Nearby r neg x b)
    (hb : b < k.top) (hrest : rest = 0 ↔ x = k.val b) :
    NarrowsFinite k r (signedRat neg x) (k.withSign neg b) ⟨false, false, decide (b ≠ 0 ∧ b < 2 ^ k.f ∧ rest ≠ 0), rest != 0⟩ := by
  refine ⟨hnear.roundsTo he hx hb, rfl, Fmt.withSign_mod_lt hb, fun n hn => absurd hn (Fmt.value_withSign_ne_inf hb),
    fun h => Bool.noConfusion h, fun y hy _ => ?_⟩
  rw [Fmt.value_withSign_ratOf neg hb] at hy
  obtain rfl := Option.some.inj hy
  have hlow : k.withSign neg b % 2 ^ (k.e + k.f) = b := Fmt.unsign_withSign neg (hb.trans k.top_lt)
  have hy0 : signedRat neg (k.val b) ≠ 0 ↔ b ≠ 0 := by rw [Ne, signedRat_eq_zero, Fmt.val_eq_zero]
  have hyx : signedRat neg (k.val b) = signedRat neg x ↔ rest = 0 := by rw [signedRat_inj, hrest, eq_comm]
  have hne : signedRat neg (k.val b) ≠ signedRat neg x ↔ rest ≠ 0 := not_congr hyx
  rw [hlow, hy0, hyx, hne]
  constructor
  · simp
  · simp only [decide_eq_true_eq]
    tauto

/-- The dropped remainder is nothing exactly when the value is the pattern's own, whichever of the two patterns the mode takes. -/
theorem Fmt.Picks.exact_iff {r : Rnd} {neg : Bool} {x : Rat} {b b' : Nat} (h : k.Picks r neg x b b') : x = k.val b ↔ x = k.val b' := by
  obtain ⟨-, hhi, ⟨hup, rfl⟩ | ⟨-, rfl⟩⟩ := h
  · exact ⟨fun h => absurd h (hup.ne hhi), fun h => absurd h hhi.ne⟩
  · rfl

theorem Fmt.close_narrows (he : 0 < k.e) {r : Rnd} {neg : Bool} {x : Rat} {b b' rest : Nat} (hx : 0 ≤ x) (h : k.Picks r neg x b b')
    (hrest : rest = 0 ↔ x = k.val b) :
    NarrowsFinite k r (signedRat neg x) (k.close r neg b' rest).1 (k.close r neg b' rest).2 := by
  by_cases hb : k.top ≤ b'
  · have hbig : ∀ c < k.top, k.val c < x := fun c hc => h.finite_lt hb hc
    have hpos : 0 < x := (Fmt.val_nonneg _).trans_lt (hbig 0 (Fmt.top_pos he))
    rw [Fmt.close, if_pos hb]
    cases hinf : r.toInf neg with
    | true => exact narrowsFinite_inf hinf hpos hbig
    | false => exact narrowsFinite_max he hinf hpos hbig
  · rw [Fmt.close, if_neg hb]
    exact narrowsFinite_pattern he hx h.nearby (Nat.lt_of_not_le hb) (hrest.trans h.exact_iff)

/-- Rounding a value to a format narrows it. -/
theorem Fmt.round_narrows (he : 0 < k.e) (hf : 0 < k.f) (r : Rnd) (v : FVal) : NarrowsTo k r v (k.round r v).1 (k.round r v).2 := by
  cases v with
  | nan => exact ⟨fun _ => ⟨rfl, rfl⟩, nofun, nofun⟩
  | inf n => exact ⟨nofun, fun n' h => FVal.inf.inj h ▸ ⟨rfl, rfl⟩, nofun⟩
  | fin neg m e =>
    rw [narrowsTo_iff]
    refine ⟨nofun, nofun, fun x hx => ?_⟩
    rw [ratOf_fin] at hx
    obtain rfl := Option.some.inj hx
    obtain ⟨b, b', rest, hlo, hhi, hrest, hup, heq⟩ := Fmt.roundFin_spec he hf r neg m e
    rw [Fmt.round, heq]
    exact Fmt.close_narrows he (by positivity) ⟨hlo, hhi, hup⟩ hrest

end Sys2Proof.Machine
end

section
/-!
SUPPORT. Values that a format holds are rounded to themselves; widening (R65) and the pick of one of two values (R145).
-/
namespace Sys2Proof.Machine

open Sys2Proof

variable {k k' : Fmt}

/-- The magnitude of a finite pattern is rounded to that pattern, with nothing to report. -/
theorem Fmt.roundFin_exact (he : 0 < k.e) (hf : 0 < k.f) (r : Rnd) (neg : Bool) {m b : Nat} {e : Int} (hx : (m : Rat) * 2 ^ e = k.val b)
    (hb : b < k.top) : k.roundFin r neg m e = (k.withSign neg b, .none) := by
  obtain ⟨c, c', rest, hlo, hhi, hrest, hup, heq⟩ := Fmt.roundFin_spec he hf r neg m e
  rw [hx] at hlo hhi hrest hup
  have hc : c = b := by
    have h1 := Fmt.val_strictMono.le_iff_le.mp hlo
    have h2 := Fmt.val_strictMono.lt_iff_lt.mp hhi
    omega
  subst hc
  obtain rfl := hrest.mpr rfl
  obtain ⟨hup, -⟩ | ⟨-, rfl⟩ := hup
  · exact absurd rfl (hup.ne hhi)
  · rw [heq, Fmt.close, if_neg (Nat.not_le.mpr hb)]
    simp [Fmt.withSign, RFlags.none]

/-- The significand and the power of two of a pattern's value. -/
theorem Fmt.value_fin_bounds {w : Nat} {neg : Bool} {m : Nat} {e : Int} (h : k.value w = .fin neg m e) :
    m < 2 ^ (k.f + 1) ∧ k.emin ≤ e := by
  have hfr : k.unsign w % 2 ^ k.f < 2 ^ k.f := Nat.mod_lt _ k.two_pow_f_pos
  rw [Nat.pow_succ]
  rw [Fmt.value_eq] at h
  split at h
  · split at h <;> cases h
  · split at h
    · cases h
      exact ⟨by omega, le_rfl⟩
    · next hex =>
      cases h
      have hpos : (1 : Int) ≤ (k.unsign w / 2 ^ k.f : Nat) := by exact_mod_cast Nat.pos_of_ne_zero hex
      exact ⟨by omega, by linarith⟩

theorem Fmt.val_top (he : 0 < k.e) : k.val k.top = 2 ^ ((k.f : Int) + (k.expMax - 1) + k.emin) := by
  have hpos : 0 < k.expMax := Nat.pos_of_mul_pos_right (Fmt.top_pos he)
  have hmag := Fmt.mag_normal (k := k) (h := k.expMax - 1) k.two_pow_f_pos
  rw [Nat.sub_add_cancel hpos, Nat.add_zero, Nat.add_zero] at hmag
  rw [Fmt.val, Fmt.top, hmag, zpow_add₀ (by norm_num), zpow_add₀ (by norm_num), zpow_natCast, ← Nat.cast_pred hpos, zpow_natCast]
  push_cast
  rfl

/-- A significand that fits, at or above the last place of a subnormal, is the magnitude of a pattern. -/
theorem Fmt.exists_val_eq {m : Nat} {e : Int} (hm : m < 2 ^ (k.f + 1)) (he : k.emin ≤ e) : ∃ b, k.val b = m * 2 ^ e := by
  obtain rfl | hm0 := eq_or_ne m 0
  · exact ⟨0, by simp⟩
  · have hlen : Nat.log2 m < k.f + 1 := (Nat.log2_lt hm0).mpr hm
    have hle : k.place m e ≤ e := max_le (by omega) he
    obtain ⟨u, -, hx, hq⟩ := Fmt.split_magnitude (k := k) m e
    have hrest : k.rest m e = 0 := if_pos hle
    refine ⟨k.pattern (k.kept m e) (k.height m e), ?_⟩
    rw [Fmt.val_kept hm0, ← hq, hx, hrest]
    push_cast
    ring

/-- Every finite value of `k'` is one of `k`. -/
def Fmt.Within (k' k : Fmt) : Prop :=
  k'.f ≤ k.f ∧ k.emin ≤ k'.emin ∧ (k'.f : Int) + (k'.expMax - 1) + k'.emin ≤ (k.f : Int) + (k.expMax - 1) + k.emin

theorem Fmt.Within.exists_val_eq (h : k'.Within k) (he : 0 < k.e) (he' : 0 < k'.e) {w : Nat} {neg : Bool} {m : Nat} {e : Int}
    (hw : k'.value w = .fin neg m e) : ∃ b < k.top, k.val b = m * 2 ^ e := by
  obtain ⟨hf, hemin, hmax⟩ := h
  obtain ⟨hm, hle⟩ := Fmt.value_fin_bounds hw
  obtain ⟨b, hb⟩ := Fmt.exists_val_eq (k := k) (hm.trans_le (Nat.pow_le_pow_right (by decide) (by omega))) (hemin.trans hle)
  refine ⟨b, (Fmt.val_strictMono (k := k)).lt_iff_lt.mp ?_, hb⟩
  have hlt : k'.unsign w < k'.top := Fmt.unsign_lt_of_ratOf (by rw [hw, ratOf_fin])
  obtain ⟨m', e', hw', hval⟩ := Fmt.value_of_lt hlt
  obtain ⟨-, rfl, rfl⟩ := FVal.fin.inj (hw.symm.trans hw')
  calc k.val b = k'.val (k'.unsign w) := hb.trans hval
    _ < k'.val k'.top := Fmt.val_strictMono hlt
    _ = 2 ^ ((k'.f : Int) + (k'.expMax - 1) + k'.emin) := Fmt.val_top he'
    _ ≤ 2 ^ ((k.f : Int) + (k.expMax - 1) + k.emin) := zpow_le_zpow_right₀ (by norm_num) hmax
    _ = k.val k.top := (Fmt.val_top he).symm

/-- Rounding to FP32 a value of a format within it widens it. -/
theorem Fmt.Within.widens (h : k'.Within fp32) (he' : 0 < k'.e) (w : Nat) :
    WidensTo (k'.value w) (fp32.round .rne (k'.value w)).1 ∧ (fp32.round .rne (k'.value w)).2 = .none := by
  cases hv : k'.value w with
  | nan => exact ⟨⟨fun _ => rfl, nofun, nofun⟩, rfl⟩
  | inf n => exact ⟨⟨nofun, fun n' h => FVal.inf.inj h ▸ rfl, nofun⟩, rfl⟩
  | fin neg m e =>
    obtain ⟨b, hb, hval⟩ := h.exists_val_eq (by decide) he' hv
    rw [Fmt.round, Fmt.roundFin_exact (by decide) (by decide) .rne neg hval.symm hb]
    refine ⟨⟨nofun, nofun, fun x hx => ?_⟩, rfl⟩
    rw [ratOf_fin, ← hval] at hx
    have hu := Fmt.unsign_withSign neg (hb.trans fp32.top_lt)
    obtain ⟨m', e', hv', -⟩ := Fmt.value_of_lt (hu.symm ▸ hb : fp32.unsign (fp32.withSign neg b) < fp32.top)
    refine ⟨(Fmt.value_withSign_ratOf neg hb).trans hx, ?_⟩
    rw [hv']
    exact Fmt.sign_withSign neg (hb.trans fp32.top_lt)

/-! ## The pick of one of two values -/

/-- Rounding to FP32 the value of an FP32 pattern keeps it. -/
theorem fp32_value_bits (w : Nat) : fp32.value (fp32.bits .rne (fp32.value w)) = fp32.value w := by
  cases hv : fp32.value w with
  | nan => decide
  | inf n => exact Fmt.value_inf n
  | fin neg m e =>
    have hlt : fp32.unsign w < fp32.top := Fmt.unsign_lt_of_ratOf (by rw [hv, ratOf_fin])
    obtain ⟨m', e', hv', hval⟩ := Fmt.value_of_lt hlt
    obtain ⟨rfl, rfl, rfl⟩ := FVal.fin.inj (hv.symm.trans hv')
    have hlt' := hlt.trans fp32.top_lt
    rw [Fmt.bits, Fmt.round, Fmt.roundFin_exact (by decide) (by decide) .rne _ hval hlt, ← hv, Fmt.value_eq, Fmt.value_eq w,
      Fmt.unsign_withSign _ hlt', Fmt.sign_withSign _ hlt']

theorem FVal.pick_eq_or (max : Bool) (a b : FVal) : FVal.pick max a b = a ∨ FVal.pick max a b = b := by
  unfold FVal.pick
  split
  · exact .inr rfl
  · exact .inl rfl
  · dsimp only
    split_ifs <;> simp

theorem fp32_value_pick (max : Bool) (w w' : Nat) :
    fp32.value (fp32.bits .rne (FVal.pick max (fp32.value w) (fp32.value w'))) = FVal.pick max (fp32.value w) (fp32.value w') := by
  obtain h | h := FVal.pick_eq_or max (fp32.value w) (fp32.value w') <;> rw [h, fp32_value_bits]

end Sys2Proof.Machine
end

section
/-!
SUPPORT. Rounding to an integer (R141, R143): the integers on both sides of a value, and the one that a mode takes.
-/
namespace Sys2Proof.Machine

open Sys2Proof

theorem intOf_intCast (r : Rnd) (n : Int) : intOf r n = n := by
  cases r <;> simp [intOf]

theorem ceil_eq_floor_add_one {x : Rat} {q : Int} (hlo : (q : Rat) < x) (hhi : x < q + 1) : ⌈x⌉ = q + 1 :=
  Int.ceil_eq_iff.mpr ⟨by push_cast; linarith, by push_cast; exact hhi.le⟩

/-- Rounding to the nearest by the distances from a value's two neighbours. -/
theorem intOf_rne {x : Rat} {n : Int} (hlo : (n : Rat) ≤ x) (hhi : x < n + 1) : intOf .rne x =
    if n + 1 - x < x - n ∨ (n + 1 - x = x - n ∧ n % 2 = 1) then n + 1 else n := by
  have hfloor : ⌊x⌋ = n := Int.floor_eq_iff.mpr ⟨hlo, hhi⟩
  have hlt : (n : Rat) + 1 - x < x - n ↔ 1 / 2 < x - n := by constructor <;> intro h <;> linarith
  have heq : (n : Rat) + 1 - x = x - n ↔ x - n = 1 / 2 := by constructor <;> intro h <;> linarith
  simp only [intOf, hfloor, hlt, heq]
  obtain h | h | h := lt_trichotomy (x - n) (1 / 2)
  · simp only [h, h.not_gt, h.ne, if_true, if_false, false_and, or_false]
  · have hodd : n % 2 = 1 ↔ ¬ n % 2 = 0 := by omega
    simp only [h, lt_irrefl, if_false, false_or, true_and, hodd, ite_not]
  · simp only [h, h.not_gt, if_true, if_false, true_or]

/-- Rounding a negated value to the nearest: the neighbours change places, and so do even and odd. -/
theorem intOf_rne_neg {x : Rat} {n : Int} (hlo : (n : Rat) < x) (hhi : x < n + 1) : intOf .rne (-x) =
    if n + 1 - x < x - n ∨ (n + 1 - x = x - n ∧ n % 2 = 1) then -(n + 1) else -n := by
  rw [intOf_rne (x := -x) (n := -(n + 1)) (by push_cast; linarith) (by push_cast; linarith)]
  push_cast
  have hlt : -((n : Rat) + 1) + 1 - -x < -x - -(n + 1) ↔ x - n < n + 1 - x := by constructor <;> intro h <;> linarith
  have heq : -((n : Rat) + 1) + 1 - -x = -x - -(n + 1) ↔ x - n = n + 1 - x := by constructor <;> intro h <;> linarith
  have hodd : -(n + 1) % 2 = 1 ↔ ¬ n % 2 = 1 := by omega
  have hneg : -(n + 1) + 1 = -n := by ring
  simp only [hlt, heq, hodd, hneg]
  obtain h | h | h := lt_trichotomy (x - n) (n + 1 - x)
  · simp only [h, h.not_gt, h.ne', if_true, if_false, true_or, false_and, or_false]
  · simp only [h, lt_irrefl, true_and, false_or, ite_not]
  · simp only [h, h.not_gt, h.ne', if_true, if_false, true_or, false_and, or_false]

/-- A value between two neighbours is rounded to the one that the mode takes. -/
theorem intOf_signedRat (r : Rnd) (neg : Bool) {q : Nat} {x : Rat} (hlo : (q : Rat) ≤ x) (hhi : x < q + 1) :
    (r.GoesUp neg q q x (q + 1) → intOf r (signedRat neg x) = signed neg (q + 1)) ∧
      (¬ r.GoesUp neg q q x (q + 1) → intOf r (signedRat neg x) = signed neg q) := by
  have hfloor : ⌊x⌋ = q := Int.floor_eq_iff.mpr ⟨hlo, hhi⟩
  have hceil (h : x ≠ q) : ⌈x⌉ = q + 1 := ceil_eq_floor_add_one (lt_of_le_of_ne hlo h.symm) hhi
  have hx0 : 0 ≤ x := (Nat.cast_nonneg q).trans hlo
  cases r with
  | rne =>
    have hodd : (q : Int) % 2 = 1 ↔ q % 2 = 1 := by omega
    cases neg with
    | false =>
      have h := intOf_rne (x := x) (n := q) hlo hhi
      simp only [Int.cast_natCast, hodd] at h
      exact ⟨fun hup => h.trans (if_pos hup), fun hup => h.trans (if_neg hup)⟩
    | true =>
      obtain rfl | hlt := hlo.eq_or_lt
      · refine ⟨fun hup => absurd rfl (hup.ne hhi), fun _ => ?_⟩
        simpa [signedRat, signed] using intOf_intCast .rne (-q)
      · have h := intOf_rne_neg (n := q) hlt hhi
        simp only [Int.cast_natCast, hodd] at h
        exact ⟨fun hup => h.trans (if_pos hup), fun hup => h.trans (if_neg hup)⟩
  | rtz =>
    refine ⟨False.elim, fun _ => ?_⟩
    cases neg with
    | false => simp [intOf, signedRat, signed, hx0.not_gt, hfloor]
    | true =>
      obtain rfl | hpos := hx0.eq_or_lt
      · have hq : q = 0 := by exact_mod_cast le_antisymm hlo (Nat.cast_nonneg q)
        simp [intOf, signedRat, signed, hq]
      · simp [intOf, signedRat, signed, hpos, Int.ceil_neg, hfloor]
  | rup =>
    cases neg with
    | false =>
      refine ⟨fun h => by simpa [intOf, signedRat, signed] using hceil h.2, fun h => ?_⟩
      have hx : x = q := not_not.mp fun hne => h ⟨rfl, hne⟩
      simp [intOf, signedRat, signed, hx]
    | true => exact ⟨fun h => Bool.noConfusion h.1, fun _ => by simp [intOf, signedRat, signed, Int.ceil_neg, hfloor]⟩
  | rdn =>
    cases neg with
    | false => exact ⟨fun h => Bool.noConfusion h.1, fun _ => by simp [intOf, signedRat, signed, hfloor]⟩
    | true =>
      refine ⟨fun h => by simp [intOf, signedRat, signed, Int.floor_neg, hceil h.2], fun h => ?_⟩
      have hx : x = q := not_not.mp fun hne => h ⟨rfl, hne⟩
      simp [intOf, signedRat, signed, hx, Int.floor_neg]

theorem cast_signed (neg : Bool) (n : Nat) : ((signed neg n : Int) : Rat) = signedRat neg n := by
  cases neg <;> simp [signed, signedRat]

theorem natCast_mul_two_pow_mul_zpow_neg (n sh : Nat) : ((n * 2 ^ sh : Nat) : Rat) * 2 ^ (-(sh : Int)) = n := by
  push_cast
  rw [zpow_neg, zpow_natCast, mul_inv_cancel_right₀ (by positivity)]

/-- A magnitude lies at the integer of its quotient or above, below the next one; it is that integer when no remainder is left. -/
theorem quotient_bounds (m sh : Nat) : ((m / 2 ^ sh : Nat) : Rat) ≤ m * 2 ^ (-(sh : Int)) ∧
    (m : Rat) * 2 ^ (-(sh : Int)) < (m / 2 ^ sh : Nat) + 1 ∧ (m % 2 ^ sh = 0 ↔ (m : Rat) * 2 ^ (-(sh : Int)) = (m / 2 ^ sh : Nat)) := by
  have hu : (0 : Rat) < 2 ^ (-(sh : Int)) := by positivity
  rw [← natCast_mul_two_pow_mul_zpow_neg (m / 2 ^ sh) sh]
  refine ⟨mul_le_mul_of_nonneg_right (by exact_mod_cast Nat.div_mul_le_self m _) hu.le, ?_, ?_⟩
  · rw [natCast_mul_two_pow_mul_zpow_neg, ← Nat.cast_succ,
      ← natCast_mul_two_pow_mul_zpow_neg (m / 2 ^ sh).succ sh]
    refine mul_lt_mul_of_pos_right ?_ hu
    exact_mod_cast Nat.lt_mul_of_div_lt (Nat.lt_succ_self _) (Nat.two_pow_pos _)
  · rw [mul_left_inj' hu.ne', Nat.cast_inj]
    have hsplit := Nat.div_add_mod' m (2 ^ sh)
    omega

/-- Rounding a finite value to an integer is rounding its rational, and it is exact when nothing changed. -/
theorem roundInt_eq (r : Rnd) (neg : Bool) (m : Nat) (e : Int) : (roundInt r neg m e).1 = intOf r (signedRat neg (m * 2 ^ e)) ∧
    ((roundInt r neg m e).2 = true ↔ ((roundInt r neg m e).1 : Rat) = signedRat neg (m * 2 ^ e)) := by
  by_cases he : 0 ≤ e
  · obtain ⟨n, rfl⟩ := Int.eq_ofNat_of_zero_le he
    have hval : signedRat neg (m * 2 ^ (n : Int)) = (signed neg (m * 2 ^ n) : Int) := by
      rw [cast_signed, zpow_natCast]
      push_cast
      rfl
    have hround : roundInt r neg m n = (signed neg (m * 2 ^ n), true) := if_pos he
    rw [hval, intOf_intCast, hround]
    exact ⟨rfl, by simp⟩
  · obtain ⟨sh, rfl⟩ : ∃ n : Nat, e = -n := ⟨(-e).toNat, by omega⟩
    obtain ⟨hlo, hhi, hrem⟩ := quotient_bounds m sh
    have hround : roundInt r neg m (-(sh : Int)) =
        (signed neg (if r.up neg (m / 2 ^ sh) (m % 2 ^ sh) sh then m / 2 ^ sh + 1 else m / 2 ^ sh), m % 2 ^ sh == 0) := by
      rw [roundInt, if_neg he, neg_neg, Int.toNat_natCast]
    have hup := Rnd.up_iff r neg (m := m / 2 ^ sh) (rem := m % 2 ^ sh) (sh := sh) (b := m / 2 ^ sh) (u := 2 ^ (-(sh : Int)))
      (by positivity) rfl
    rw [natCast_mul_two_pow_mul_zpow_neg, natCast_mul_two_pow_mul_zpow_neg, Nat.div_add_mod', Nat.cast_succ] at hup
    obtain ⟨hyes, hno⟩ := intOf_signedRat r neg hlo hhi
    rw [hround]
    cases h : r.up neg (m / 2 ^ sh) (m % 2 ^ sh) sh with
    | true =>
      have hg := hup.mp h
      rw [if_pos rfl, hyes hg, cast_signed, signedRat_inj, beq_iff_eq, hrem]
      exact ⟨rfl, fun heq => absurd heq (hg.ne hhi), fun heq => absurd heq (by push_cast; exact hhi.ne')⟩
    | false =>
      rw [if_neg Bool.false_ne_true, hno fun hg => Bool.false_ne_true (h.symm.trans (hup.mpr hg)), cast_signed, signedRat_inj, beq_iff_eq,
        hrem]
      exact ⟨rfl, eq_comm⟩

theorem FVal.toInt_fin (r : Rnd) (neg : Bool) (m : Nat) (e lo hi : Int) : (FVal.fin neg m e).toInt r lo hi =
    if (roundInt r neg m e).1 < lo then (lo, .invalid) else if hi < (roundInt r neg m e).1 then (hi, .invalid)
    else ((roundInt r neg m e).1, ⟨false, false, false, !(roundInt r neg m e).2⟩) := rfl

/-- The conversion to an integer between two bounds, and what it reports (R143, R144). -/
def ConvertsTo (v : FVal) (m : Rnd) (lo hi : Int) (t : Int × RFlags) : Prop :=
  IntFrom v m lo hi t.1 ∧ t.2.ovf = false ∧ t.2.unf = false ∧
    (t.2.inv = true ↔ ∀ x, ratOf v = some x → intOf m x < lo ∨ hi < intOf m x) ∧
    (t.2.inx = true ↔ ∃ x, ratOf v = some x ∧ ¬ (intOf m x < lo ∨ hi < intOf m x) ∧ (t.1 : Rat) ≠ x)

theorem ConvertsTo.of_fin {neg : Bool} {m : Nat} {e : Int} {r : Rnd} {lo hi : Int} {t : Int × RFlags} {x : Rat}
    (hx : signedRat neg (m * 2 ^ e) = x) (ht : t.1 = max lo (min hi (intOf r x))) (hovf : t.2.ovf = false) (hunf : t.2.unf = false)
    (hinv : t.2.inv = true ↔ intOf r x < lo ∨ hi < intOf r x)
    (hinx : t.2.inx = true ↔ ¬ (intOf r x < lo ∨ hi < intOf r x) ∧ (t.1 : Rat) ≠ x) : ConvertsTo (.fin neg m e) r lo hi t := by
  have hr (y : Rat) : ratOf (.fin neg m e) = some y ↔ y = x := by rw [ratOf_fin, hx, Option.some_inj, eq_comm]
  refine ⟨⟨nofun, nofun, fun y hy => (hr y).mp hy ▸ ht⟩, hovf, hunf, ?_, ?_⟩
  · simp only [hr, forall_eq, hinv]
  · simp only [hr, exists_eq_left, hinx]

theorem FVal.toInt_converts (v : FVal) (r : Rnd) {lo hi : Int} (h : lo ≤ hi) : ConvertsTo v r lo hi (v.toInt r lo hi) := by
  cases v with
  | nan => exact ⟨⟨fun _ => rfl, nofun, nofun⟩, rfl, rfl, ⟨fun _ => nofun, fun _ => rfl⟩, nofun, nofun⟩
  | inf n =>
    exact ⟨⟨nofun, fun n' hn => FVal.inf.inj hn ▸ rfl, nofun⟩, rfl, rfl, ⟨fun _ => nofun, fun _ => rfl⟩, nofun, nofun⟩
  | fin neg m e =>
    obtain ⟨hval, hexact⟩ := roundInt_eq r neg m e
    rw [FVal.toInt_fin]
    rw [hval] at hexact ⊢
    split
    · next hlt => exact .of_fin rfl (by omega) rfl rfl (by simp [RFlags.invalid, hlt]) (by simp [RFlags.invalid, hlt])
    · next hge =>
      split
      · next hgt => exact .of_fin rfl (by omega) rfl rfl (by simp [RFlags.invalid, hgt]) (by simp [RFlags.invalid, hgt])
      · next hle =>
        refine .of_fin rfl (by omega) rfl rfl (by simp [hge, hle]) ?_
        rw [Ne, ← hexact]
        simp [hge, hle]

end Sys2Proof.Machine
end

section
/-!
Floating point of the A-slot: the exact result rounded once, comparison and conversion (R65, R141–R145).
-/
namespace Sys2Proof.Machine

open Sys2Proof

theorem fld_zero (w : Word) (len : Nat) : fld w 0 len = w.toNat % 2 ^ len := by simp [fld]

theorem fpOf_src (s : State) (a : Reg) : fpOf (s.src a) = fp32.value (uns s a % 2 ^ 32) := by rw [fpOf, fld_zero, uns]

/-- An arithmetic instruction of scalar FP32 writes its exact result rounded once; NaN is invalid. -/
theorem fpIf_arith {g : PredIx} {s : State} (h : s.guard g = true) (d : Reg) (v : FVal) : fpIf g d (arith v) s = .next
    (if v = .nan then (s.setReg d (BitVec.ofNat 64 0x7FC00000)).raise .invalid
      else (s.setReg d (BitVec.ofNat 64 (fp32.round .rne v).1)).raise (fp32.round .rne v).2) := by
  rw [fpIf_true h]
  cases v with
  | nan => rfl
  | inf n => rfl
  | fin n m e => rfl

/-- FMIN and FMAX write the pick of their operands. -/
theorem fminmax_eq (max : Bool) (w w' : Nat) : ∃ v, fminmax max (fp32.value w) (fp32.value w') =
      (v, if fp32.value w = .nan ∨ fp32.value w' = .nan then .invalid else .none) ∧
    fp32.value v = FVal.pick max (fp32.value w) (fp32.value w') :=
  ⟨_, by simp [fminmax], fp32_value_pick max w w'⟩

theorem FVal.cmp_eq_none {a b : FVal} : a.cmp b = none ↔ a = .nan ∨ b = .nan := by
  cases a <;> cases b <;> simp [FVal.cmp]

/-- The relations of FCMP by the order of the values. -/
theorem fcmpOp_iff (x : BitVec 2) (a b : FVal) : fcmpOp x a b = true ↔
    (x = 0 ∧ a.cmp b = some .eq) ∨ (x = 1 ∧ a.cmp b = some .lt) ∨ (x = 2 ∧ (a.cmp b = some .lt ∨ a.cmp b = some .eq)) ∨
      (x = 3 ∧ a.cmp b = none) := by
  have hx : x = 0 ∨ x = 1 ∨ x = 2 ∨ x = 3 := by revert x; decide
  rw [FVal.cmp_eq_none]
  obtain rfl | rfl | rfl | rfl := hx <;> simp [fcmpOp, FVal.eq, FVal.lt, FVal.le]

end Sys2Proof.Machine

namespace Sys2Proof.Proofs

open Sys2Proof Sys2Proof.Machine

/-- FCVT by minor and mode (R65, R298). -/
theorem fcvtOp_converts (s : State) (a : Reg) (k : BitVec 3) (m : Rnd) :
    let A := fp32.value (uns s a % 2 ^ 32)
    let v := fcvtOp k m (s.src a)
    (k = 0 → ∃ z : Int, v.1 = (BitVec.ofInt 64 z).toNat ∧ ConvertsTo A m (-(2 ^ 63)) (2 ^ 63 - 1) (z, v.2)) ∧
    (k = 1 → NarrowsTo fp32 m (.ofInt (sgn s a) 0 false) v.1 v.2) ∧
    (k = 2 → NarrowsTo bf16 m A v.1 v.2) ∧ (k = 4 → NarrowsTo fp16 m A v.1 v.2) ∧ (k = 6 → NarrowsTo e8m10 m A v.1 v.2) ∧
    (k = 3 → WidensTo (bf16.value (uns s a % 2 ^ 16)) v.1 ∧ v.2 = .none) ∧
    (k = 5 → WidensTo (fp16.value (uns s a % 2 ^ 16)) v.1 ∧ v.2 = .none) ∧
    (k = 7 → WidensTo (e8m10.value (uns s a % 2 ^ 19)) v.1 ∧ v.2 = .none) := by
  dsimp only
  rw [← fpOf_src]
  refine ⟨?_, ?_, ?_, ?_, ?_, ?_, ?_, ?_⟩ <;> rintro rfl
  · exact ⟨_, rfl, FVal.toInt_converts (fpOf (s.src a)) m (by decide)⟩
  · exact Fmt.round_narrows (k := fp32) (by decide) (by decide) m _
  · exact Fmt.round_narrows (k := bf16) (by decide) (by decide) m _
  · exact Fmt.round_narrows (k := fp16) (by decide) (by decide) m _
  · exact Fmt.round_narrows (k := e8m10) (by decide) (by decide) m _
  · rw [uns, ← fld_zero]
    exact Fmt.Within.widens (k' := bf16) ⟨by decide, by decide, by decide⟩ (by decide) _
  · rw [uns, ← fld_zero]
    exact Fmt.Within.widens (k' := fp16) ⟨by decide, by decide, by decide⟩ (by decide) _
  · rw [uns, ← fld_zero]
    exact Fmt.Within.widens (k' := e8m10) ⟨by decide, by decide, by decide⟩ (by decide) _

/-- Settles O14: rounding takes one of the two patterns around the exact magnitude, on the side that the mode says. -/
theorem floatInstructionsRoundTheExactResult : Obligations.FloatInstructionsRoundTheExactResult := by
  intro s d a b e p g x k r h A B E put rounded
  have hA : fpOf (s.src a) = A := fpOf_src s a
  have hB : fpOf (s.src b) = B := fpOf_src s b
  have hE : fpOf (s.src e) = E := fpOf_src s e
  have hrounded (v : FVal) : fpIf g d (arith v) s = .next (rounded v) := fpIf_arith h d v
  have hpick (max : Bool) : ∃ v, fpIf g d (fminmax max A B) s =
      .next (put (v, if A = .nan ∨ B = .nan then .invalid else .none)) ∧ fp32.value v = FVal.pick max A B := by
    obtain ⟨v, hv, hval⟩ := fminmax_eq max (uns s a % 2 ^ 32) (uns s b % 2 ^ 32)
    exact ⟨v, (fpIf_true h d _).trans (by rw [hv]), hval⟩
  refine ⟨?_, ?_, ?_, ?_, ?_, ?_, ?_, ⟨fcmpOp x A B, ?_, fcmpOp_iff x A B⟩, ?_⟩
  · rw [← hrounded, ← hA, ← hB]; rfl
  · rw [← hrounded, ← hA, ← hB]; rfl
  · rw [← hrounded, ← hA, ← hB]; rfl
  · rw [← hrounded, ← hA, ← hB, ← hE]; rfl
  · rw [← hrounded, ← hA, ← hB, ← hE]; rfl
  · have := hpick false
    rw [← hA, ← hB] at this ⊢
    exact this
  · have := hpick true
    rw [← hA, ← hB] at this ⊢
    exact this
  · rw [← hA, ← hB]
    exact congrArg Host.Outcome.next (if_pos h)
  · intro m v out
    obtain ⟨hint, hrest⟩ := fcvtOp_converts s a k m
    exact ⟨fpIf_true h d _, hint, hrest⟩

end Sys2Proof.Proofs
end

section
/-!
What the statements about strands share: how a guarded instruction ends once its checks are known, what a cascade of checks comes to, and
tables that are changed value by value.
-/
namespace Sys2Proof.Machine

open Sys2Proof

/-! ## How a guarded instruction ends -/

/-- A guarded instruction whose checks all hold. -/
theorem exec_served {i : Instr} {g : PredIx} {s u : State} {r : Except Stop State} (hi : exec i s = guarded g s r) (hg : s.guard g = true)
    (hr : r = .ok u) : exec i s = .next (served u) := by
  rw [hi, guarded_true hg, hr]
  rfl

/-- A guarded instruction that stops. -/
theorem exec_stops {i : Instr} {g : PredIx} {s : State} {r : Except Stop State} {e : Stop} (hi : exec i s = guarded g s r)
    (hg : s.guard g = true) (hr : r = .error e) : exec i s = .next (s.stop e) := by
  rw [hi, guarded_true hg, hr]
  rfl

/-! ## What an instruction leaves in its slot -/

@[simp] theorem served_curCore (s : State) : (served s).curCore = s.curCore := rfl
@[simp] theorem served_curSlot (s : State) : (served s).curSlot = s.curSlot := rfl
@[simp] theorem replyWith_curCore (s : State) (ws : List (Nat × Word)) : (s.replyWith ws).curCore = s.curCore := rfl
@[simp] theorem replyWith_curSlot (s : State) (ws : List (Nat × Word)) : (s.replyWith ws).curSlot = s.curSlot := rfl
@[simp] theorem modCur_curCore (s : State) (f : Slot → Slot) : (s.modCur f).curCore = s.curCore := rfl
@[simp] theorem modCur_curSlot (s : State) (f : Slot → Slot) : (s.modCur f).curSlot = s.curSlot := rfl

theorem cur_served {s : State} (h : SlotOk s) :
    (served s).cur = { s.cur with grants := [], since := none, walk := none, inl := none } := State.cur_modCur s _ h

theorem cur_replyWith {s : State} (h : SlotOk s) (ws : List (Nat × Word)) :
    (s.replyWith ws).cur = { s.cur with st := .reply, reply := some ⟨.now, ws, false⟩, out := none } := State.cur_modCur s _ h

theorem cur_parkCur {s : State} (h : SlotOk s) (p : Park) : (s.parkCur p).cur = { s.cur with st := .parked, park := some p } :=
  State.cur_modCur s _ h

/-- What the end of an instruction leaves as it is in its slot. -/
theorem served_keeps {α : Type} (s : State) (p : Slot → α)
    (h : ∀ x : Slot, p { x with grants := [], since := none, walk := none, inl := none } = p x) : p (served s).cur = p s.cur :=
  State.cur_modCur_keeps s _ p h

theorem replyWith_keeps {α : Type} (s : State) (ws : List (Nat × Word)) (p : Slot → α)
    (h : ∀ x : Slot, p { x with st := .reply, reply := some ⟨.now, ws, false⟩, out := none } = p x) :
    p (s.replyWith ws).cur = p s.cur := State.cur_modCur_keeps s _ p h

theorem slot_served_other {s : State} {core k : Nat} (h : (core, k) ≠ (s.curCore, s.curSlot)) :
    (served s).slot core k = s.slot core k := State.slot_modCur_other s _ h

theorem slot_replyWith_other {s : State} {core k : Nat} (h : (core, k) ≠ (s.curCore, s.curSlot)) (ws : List (Nat × Word)) :
    (s.replyWith ws).slot core k = s.slot core k := State.slot_modCur_other s _ h

theorem sameMemory_served (s : State) : SameMemory s (served s) := sameMemory_modCur s _

theorem sameMemory_replyWith (s : State) (ws : List (Nat × Word)) : SameMemory s (s.replyWith ws) := sameMemory_modCur s _

theorem sameMemory_parkCur (s : State) (p : Park) : SameMemory s (s.parkCur p) := sameMemory_modCur s _

/-! ## Cascades of checks -/

@[simp] theorem ok_bind {ε α β : Type} (a : α) (f : α → Except ε β) : (Except.ok a >>= f) = f a := rfl

@[simp] theorem error_bind {ε α β : Type} (e : ε) (f : α → Except ε β) : ((.error e : Except ε α) >>= f) = .error e := rfl

theorem need_of_true {b : Bool} (h : b = true) (e : Stop) : need b e = .ok () := h ▸ rfl

theorem need_of_false {b : Bool} (h : b = false) (e : Stop) : need b e = .error e := h ▸ rfl

theorem notCoupled_ok {s : State} (h : s.cur.coupled = false) : s.notCoupled = .ok () := by rw [State.notCoupled, h]; rfl

theorem seqEmpty_ok {s : State} (h : s.cur.seq = []) : s.seqEmpty = .ok () := by rw [State.seqEmpty, h]; rfl

theorem seqEmpty_waits {s : State} (h : s.cur.seq ≠ []) : s.seqEmpty = .error (.reissue .seqEmpty) := by
  rw [State.seqEmpty, need_of_false (by simpa using h)]

/-- A wait of a strand outside the handler slot, with no packet open (R87, R89). -/
theorem mayPark_ok {s : State} (hk : s.curSlot ≠ 14) (hp : s.cur.packet = none) (cop : Nat) (answer : Bool) :
    s.mayPark cop answer = .ok () := by
  simp [State.mayPark, need_of_true (show (s.curSlot != 14) = true by simpa using hk), hp]

theorem fld_eq (w : Word) (lo len : Nat) : fld w lo len = w.toNat / 2 ^ lo % 2 ^ len := by
  simp [fld, BitVec.extractLsb'_toNat, Nat.shiftRight_eq_div_pow]

/-! ## Tables changed value by value -/

/-- A table whose values are all changed in one way reads the changed value, where the default is one that does not change. -/
theorem Sparse.get_map {α : Type} (d : α) (f : Nat → α → α) (m : Sparse α) (k : Nat) (hd : f k d = d) :
    Sparse.get d (m.map fun kv => (kv.1, f kv.1 kv.2)) k = f k (Sparse.get d m k) := by
  induction m with
  | nil => exact hd.symm
  | cons kv m ih =>
    rw [List.map_cons, Sparse.get, Sparse.get]
    split
    · next h => subst h; rfl
    · exact ih

end Sys2Proof.Machine
end

section
/-!
YIELD, translation flushes and WAKE: O23.
-/
namespace Sys2Proof.Machine

open Sys2Proof

/-! ## YIELD -/

theorem yieldTurn_ok {s : State} (h : s.cur.packet = none) :
    s.yieldTurn = .ok (s.modCur fun x => { x with fromCc := nextBoundary s.cc }) := by
  rw [State.yieldTurn, h]
  rfl

theorem yieldTurn_pkt {s : State} (h : s.cur.packet ≠ none) : s.yieldTurn = .error (.trap clsPkt 4) := by
  rw [State.yieldTurn, need_of_false (by simpa [Option.isSome_iff_ne_none] using h)]
  rfl

/-! ## Translation flushes (R108) -/

/-- A slot after the flush of an ASID, which is its strand's own if `own` says so. -/
def Slot.flushed (x : Slot) (asid : Nat) (own : Bool) : Slot :=
  { x with
    walk := x.walk.map fun w => if w.asid = asid then { w with install := false } else w
    grants := if own then [] else x.grants }

/-- A core whose slots have all seen the flush. -/
def State.flushedCore (s : State) (asid : Nat) (c : Core) : Core :=
  { c with slots := c.slots.map fun x => x.flushed asid (decide (s.asidOf x = asid)) }

theorem flushed_reset (asid : Nat) (own : Bool) : Slot.reset.flushed asid own = Slot.reset := by cases own <;> rfl

theorem core_flushAsid (s : State) (asid n : Nat) : (s.flushAsid asid).core n = s.flushedCore asid (s.core n) := by
  have hreset : s.flushedCore asid Core.reset = Core.reset := by
    simp only [State.flushedCore, Core.reset, Vector.map_replicate, flushed_reset]
  have hcores : (s.flushAsid asid).cores = s.cores.map fun kc => (kc.1, s.flushedCore asid kc.2) := by
    simp only [State.flushAsid, State.flushedCore, Slot.flushed, decide_eq_true_eq]
  rw [State.core, hcores]
  exact Sparse.get_map Core.reset (fun _ => s.flushedCore asid) s.cores n hreset

theorem slot_flushAsid (s : State) (asid core k : Nat) :
    (s.flushAsid asid).slot core k = (s.slot core k).flushed asid (decide (s.asidOf (s.slot core k) = asid)) := by
  rw [State.slot, core_flushAsid, Core.slot, State.flushedCore, Vector.getElem?_map, State.slot, Core.slot]
  cases (s.core core).slots[k]? with
  | none => exact (flushed_reset ..).symm
  | some x => rfl

theorem tlb_flushAsid (s : State) (asid n : Nat) :
    ((s.flushAsid asid).cluster n).tlb = (s.cluster n).tlb.filter (·.asid != asid) := by
  have h := Sparse.get_map Cluster.reset (fun _ c => { c with tlb := c.tlb.filter (·.asid != asid) }) s.clusters n rfl
  exact congrArg Cluster.tlb h

theorem sameMemory_flushAsid (s : State) (asid : Nat) : SameMemory s (s.flushAsid asid) :=
  sameMemory_of_mem_lm rfl fun n => by rw [core_flushAsid]; rfl

/-- What ASFL leaves: the flush done, and its cc noted for the slot's ASBAR. -/
def State.afterAsfl (s : State) (asid : Nat) : State :=
  ((s.flushAsid asid).modCur fun x => { x with flushAt := some s.cc }).replyWith []

theorem asFlush_ok {s : State} (h : s.cur.supervisor = true) (a : Reg) : s.asFlush a = .ok (s.afterAsfl (uns s a % 4096)) := by
  rw [State.asFlush, supervisor_true h, ok_bind, fld_eq, pow_zero, Nat.div_one]
  rfl

/-- A walk that a slot waits for after ASFL is one it waited for before, and installs no entry of the ASID. -/
theorem walk_afterAsfl {s : State} (hk : SlotOk s) (asid core k : Nat) (w : Walk)
    (h : ((served (s.afterAsfl asid)).slot core k).walk = some w) (ha : w.asid = asid) : w.install = false := by
  by_cases hc : (core, k) = (s.curCore, s.curSlot)
  · obtain ⟨rfl, rfl⟩ := Prod.mk.inj hc
    have hn : (served (s.afterAsfl asid)).cur.walk = none := congrArg Slot.walk (cur_served (s := s.afterAsfl asid) hk)
    exact absurd (hn.symm.trans h) nofun
  · rw [slot_served_other (s := s.afterAsfl asid) hc, State.afterAsfl,
      slot_replyWith_other (s := (s.flushAsid asid).modCur fun x => { x with flushAt := some s.cc }) hc,
      State.slot_modCur_other (s.flushAsid asid) _ hc, slot_flushAsid] at h
    obtain ⟨v, -, rfl⟩ := Option.map_eq_some_iff.mp h
    split at ha
    · next hv => rw [if_pos hv]
    · next hv => exact absurd ha hv

theorem asbar_free {s : State} (h : s.cur.supervisor = true) (hf : (s.cur.flushAt.all fun t => !s.translatedBefore t) = true) :
    s.asBarrier = .ok s := by
  rw [State.asBarrier, supervisor_true h, ok_bind]
  cases hat : s.cur.flushAt with
  | none => rfl
  | some t =>
    rw [hat] at hf
    have ht : s.translatedBefore t = false := by simpa using hf
    simp [ht]

theorem asbar_parks {s : State} (h : s.cur.supervisor = true) {t : Nat} (hat : s.cur.flushAt = some t)
    (ht : s.translatedBefore t = true) (hk : s.curSlot ≠ 14) (hp : s.cur.packet = none) : s.asBarrier = .ok (s.parkCur .asbar) := by
  rw [State.asBarrier, supervisor_true h, ok_bind, hat]
  simp [ht, mayPark_ok hk hp]

/-! ## WAKE (R107) -/

/-- A WAKE's mark on a faulted context. -/
def State.woken (s : State) (core slot tag : Nat) : State :=
  s.modSlot core slot fun x => { x with wakes := x.wakes ++ [tag], wakeCc := s.cc }

/-- The tag names a faulted context of the slot, which is not woken yet. -/
def Slot.marks (x : Slot) (tag : Nat) : Prop := tag ≠ 0 ∧ (x.faultTag = tag ∨ x.lentTag = tag) ∧ tag ∉ x.wakes

theorem markWoken_of_marks {s : State} {core slot tag : Nat} (h : (s.slot core slot).marks tag) :
    s.markWoken core slot tag = s.woken core slot tag := by
  obtain ⟨h0, ht, hw⟩ := h
  exact if_pos (by simp [h0, ht, hw])

theorem markWoken_of_not_marks {s : State} {core slot tag : Nat} (h : ¬ (s.slot core slot).marks tag) :
    s.markWoken core slot tag = s :=
  if_neg fun hb => h (by simpa [Slot.marks, and_assoc] using hb)

/-- A context of a tag is one of the contexts that a slot holds. -/
theorem holdsFault_any {s : State} {core slot : Nat} {launch : Option Nat} {tag : Nat} (h : s.holdsFault core slot launch tag = true) :
    s.holdsFault core slot launch 0 = true := by
  simp only [State.holdsFault, Bool.or_eq_true, Bool.and_eq_true] at h ⊢
  obtain ⟨h, -⟩ | ⟨h, -⟩ := h
  · exact .inl ⟨h, by simp⟩
  · exact .inr ⟨h, by simp⟩

/-- The end of a WAKE in this package: one for another core waits for its reply. -/
def State.wakeEnds (s u : State) (core : Nat) : State := if core = s.curCore then u else u.replyWith []

section Wake

variable {s : State} {a : Reg} {core slot tag : Nat}

theorem wake_seg (h : uns s a / 2 ^ 38 % 2 ^ 26 ≠ 0) : s.wakeContext a = .error (.trap clsSeg (uns s a)) := by
  have h' : (fld (s.src a) 38 26 == 0) = false := by rw [fld_eq]; simpa [uns] using h
  rw [State.wakeContext, need_of_false h', error_bind]
  rfl

theorem wake_foreign (h : uns s a / 2 ^ 38 % 2 ^ 26 = 0) (hs : uns s a % 16 = slot) (hc : uns s a / 16 % 1024 = core)
    (hu : s.cur.supervisor = false) (hb : s.belongs core slot (s.cur.launch.getD 0) = false)
    (hf : s.holdsFault core slot s.cur.launch 0 = false) : s.wakeContext a = .error (.trap clsSys 0x13) := by
  have h' : (fld (s.src a) 38 26 == 0) = true := by rw [fld_eq]; simpa [uns] using h
  have hs' : fld (s.src a) 0 4 = slot := by rw [fld_eq]; simpa [uns] using hs
  have hc' : fld (s.src a) 4 10 = core := by rw [fld_eq]; simpa [uns] using hc
  rw [State.wakeContext, need_of_true h', ok_bind, hs', hc', hu]
  simp [hb, hf]

/-- A WAKE of a slot of this package that the strand may wake marks a context that it may mark. -/
theorem wake_here (h : uns s a / 2 ^ 38 % 2 ^ 26 = 0) (hd : uns s a / 2 ^ 14 % 256 = s.device) (hs : uns s a % 16 = slot)
    (hc : uns s a / 16 % 1024 = core) (ht : uns s a / 2 ^ 22 % 65536 = tag)
    (hu : s.cur.supervisor = true ∨ s.belongs core slot (s.cur.launch.getD 0) = true ∨ s.holdsFault core slot s.cur.launch 0 = true) :
    s.wakeContext a = .ok (s.wakeEnds (if s.cur.supervisor || s.holdsFault core slot s.cur.launch tag then s.markWoken core slot tag
      else s) core) := by
  have h' : (fld (s.src a) 38 26 == 0) = true := by rw [fld_eq]; simpa [uns] using h
  have hs' : fld (s.src a) 0 4 = slot := by rw [fld_eq]; simpa [uns] using hs
  have hc' : fld (s.src a) 4 10 = core := by rw [fld_eq]; simpa [uns] using hc
  have hd' : fld (s.src a) 14 8 = s.device := by rw [fld_eq]; simpa [uns] using hd
  have ht' : fld (s.src a) 22 16 = tag := by rw [fld_eq]; simpa [uns] using ht
  have hok : (s.cur.supervisor || (true && (s.belongs core slot (s.cur.launch.getD 0) ||
      s.holdsFault core slot s.cur.launch 0))) = true := by simpa using hu
  rw [State.wakeContext, need_of_true h', ok_bind, hs', hc', hd', ht']
  simp only [beq_self_eq_true, hok, need_true, ok_bind, if_true]
  have hcur : ∀ b : Bool, (if b then s.markWoken core slot tag else s).curCore = s.curCore := by
    intro b
    cases b
    · rfl
    · simp only [if_true, State.markWoken]
      split <;> rfl
  simp only [hcur]
  rfl

end Wake

end Sys2Proof.Machine

namespace Sys2Proof.Proofs

open Sys2Proof Sys2Proof.Machine

/-- Settles O23: each instruction's checks decide between its trap and its effect, and a flush changes every slot and port alike. -/
theorem yieldFlushAndWake : Obligations.YieldFlushAndWake := by
  unfold Obligations.YieldFlushAndWake
  refine ⟨fun s g hg => ⟨fun hp => exec_served rfl hg (yieldTurn_ok hp), fun hp => exec_stops rfl hg (yieldTurn_pkt hp)⟩,
    fun s a g hg => ⟨fun hu => ⟨exec_stops rfl hg ?_, exec_stops rfl hg ?_⟩, fun hu hk => ⟨?_, ?_, ?_⟩⟩, fun s a g hg => ?_⟩
  · rw [State.asFlush, supervisor_false hu, error_bind]
  · rw [State.asBarrier, supervisor_false hu, error_bind]
  · refine ⟨_, exec_served rfl hg (asFlush_ok hu a), ?_, ?_, fun n e he => ?_, fun n e he hne => ?_,
      fun core k _ w hw ha => walk_afterAsfl hk _ core k w hw ha⟩
    · calc (served (s.afterAsfl _)).cur.flushAt
          _ = (s.afterAsfl _).cur.flushAt := served_keeps _ _ fun _ => rfl
          _ = ((s.flushAsid _).modCur fun x => { x with flushAt := some s.cc }).cur.flushAt := replyWith_keeps _ _ _ fun _ => rfl
          _ = some s.cc := congrArg Slot.flushAt (State.cur_modCur (s.flushAsid _) _ hk)
    · exact SameMemory.trans (sameMemory_flushAsid s _) (SameMemory.trans (sameMemory_modCur _ _)
        (SameMemory.trans (sameMemory_replyWith _ _) (sameMemory_served _)))
    · have he' : e ∈ ((s.flushAsid (uns s a % 4096)).cluster n).tlb := he
      rw [tlb_flushAsid] at he'
      simpa using (List.mem_filter.mp he').2
    · show e ∈ ((s.flushAsid (uns s a % 4096)).cluster n).tlb
      rw [tlb_flushAsid]
      exact List.mem_filter.mpr ⟨he, by simpa using hne⟩
  · exact fun hf => exec_served rfl hg (asbar_free hu hf)
  · exact fun t hat ht hk14 hp => exec_served rfl hg (asbar_parks hu hat ht hk14 hp)
  · refine ⟨fun h => exec_stops rfl hg (wake_seg h), fun h hu hb hf => exec_stops rfl hg (wake_foreign h rfl rfl hu hb hf),
      fun ⟨h, hd⟩ hmay hm => ?_, fun ⟨h, hd⟩ hu hn => ?_⟩
    · have hu : s.cur.supervisor = true ∨ s.belongs (uns s a / 16 % 1024) (uns s a % 16) (s.cur.launch.getD 0) = true ∨
          s.holdsFault (uns s a / 16 % 1024) (uns s a % 16) s.cur.launch 0 = true :=
        hmay.imp_right fun hf => .inr (holdsFault_any hf)
      have hw := exec_served (i := .wake a g) rfl hg (wake_here h hd rfl rfl rfl hu)
      rw [if_pos (by simpa using hmay), markWoken_of_marks hm] at hw
      exact ⟨fun hc => hw.trans (by rw [State.wakeEnds, if_neg hc]; rfl), fun hc => hw.trans (by rw [State.wakeEnds, if_pos hc]; rfl)⟩
    · have hw := exec_served (i := .wake a g) rfl hg (wake_here h hd rfl rfl rfl hu)
      have hs : (if s.cur.supervisor || s.holdsFault (uns s a / 16 % 1024) (uns s a % 16) s.cur.launch (uns s a / 2 ^ 22 % 65536) then
          s.markWoken (uns s a / 16 % 1024) (uns s a % 16) (uns s a / 2 ^ 22 % 65536) else s) = s := by
        split
        · next hmay => exact markWoken_of_not_marks fun hm => hn ⟨by simpa using hmay, hm⟩
        · rfl
      rw [hs] at hw
      exact ⟨fun hc => hw.trans (by rw [State.wakeEnds, if_neg hc]), fun hc => hw.trans (by rw [State.wakeEnds, if_pos hc])⟩

end Sys2Proof.Proofs
end

section
/-!
Two statements that fail: O37 and O54, each with a state that meets the hypotheses of a clause and not what it says.
-/
namespace Sys2Proof.Proofs

open Sys2Proof Sys2Proof.Machine

/-! ## A frame of a launch that is being aborted is not stolen (R86, R263) -/

/-- A seat on core 0 whose deque holds one frame. -/
def seatWithFrame : Seat := ⟨0, 0, 0x9000, 0x1000, 0, 0, 1, [0], 0, 0, 0, 0, 0⟩

/-- A launch on core 0 alone, with a place on it. -/
def launchOn (p : Seat) (closing : Bool) : Launch := { placedLaunch with seats := [p], closing := closing }

/-- The only launch is being aborted, with a frame still in its deque. -/
def closingState : State := { State.reset with launches := [launchOn seatWithFrame true] }

theorem steal_closingState : exec (.steal 0 0) closingState = .next closingState := rfl

/-- Refutes O37: its last clause does not ask that the launch be open, and STEAL takes no frame of a launch that is being aborted. -/
theorem not_workMoves : ¬ Obligations.WorkMoves := by
  unfold Obligations.WorkMoves
  rintro ⟨-, -, -, hsteal⟩
  obtain ⟨t, q, ht, hq, hframes, -⟩ := hsteal closingState 0 0 0 [] (launchOn seatWithFrame true) seatWithFrame (by decide) rfl rfl rfl
    rfl rfl rfl rfl rfl rfl
  obtain rfl : closingState = t := Host.Outcome.next.inj (steal_closingState.symm.trans ht)
  obtain rfl : seatWithFrame = q := Option.some.inj hq
  exact absurd hframes nofun

/-! ## A kill of a strand that waits in DTWR lets stores into the path (R147, R263) -/

/-- A strand of launch 0 that waits in DTWR s6, s7, issued at cc 0. -/
def waitsInDtwr : Slot :=
  { Slot.reset with st := .reply, launch := some 0, since := some 0, begun := (0x62031C01, 0), reply := some ⟨.tableIdle 0, [], true⟩ }

/-- A strand of launch 0 whose written row of code8 is held back by that DTWR: its store goes to the launch's partition. -/
def holdsDrain : Slot :=
  { Slot.reset with
    st := .ready, launch := some 0, sqRows := #v[[[0]], []], drains := #v[[⟨7, [(.lm 0 0x9000, 0)], false, 1, 1⟩], []] }

/-- Both strands run on core 0, and no copy or store of their launch is under way. -/
def dtwrState : State :=
  { State.reset with
    launches := [launchOn { seatWithFrame with frames := [] } false]
    cores := [(0, (Core.reset.setSlot 0 waitsInDtwr).setSlot 1 holdsDrain)] }

theorem abort_dtwrState : (dtwrState.abort 0).launches.isEmpty = false := by decide +kernel

theorem noWaiters_dtwrState : NoWaiters dtwrState :=
  ⟨rfl, fun core => by
    have h : dtwrState.core core = if core = 0 then (Core.reset.setSlot 0 waitsInDtwr).setSlot 1 holdsDrain else Core.reset := by
      simp only [State.core, dtwrState, Sparse.get, eq_comm]
    rw [h]
    split <;> rfl⟩

/-- Refutes O54: an abort kills a strand that waits in DTWR, the code8 drains that waited for it enter the path, and the launch stays until
these stores are performed. -/
theorem not_launchesEndOrAreAborted : ¬ Obligations.LaunchesEndOrAreAborted := by
  unfold Obligations.LaunchesEndOrAreAborted
  rintro ⟨-, habort, -⟩
  obtain ⟨t, ht, -, -, hends, -⟩ := habort dtwrState (launchOn { seatWithFrame with frames := [] } false) { seatWithFrame with frames := [] }
    rfl rfl noWaiters_dtwrState
  obtain rfl : dtwrState.abort 0 = t := Host.Outcome.next.inj ht
  have hgone := abort_dtwrState
  rw [hends (by decide +kernel) (by decide +kernel)] at hgone
  exact absurd hgone nofun

end Sys2Proof.Proofs
end

section
/-!
The Almanac and the decode table: O24.
-/
namespace Sys2Proof.Machine

open Sys2Proof

/-! ## ALMR and ALMW (R267) -/

theorem almRead_ok {s : State} (d a : Reg) (h : uns s a < 16) :
    s.almRead d a = .ok (s.setReg d ((s.here.alm[uns s a]).setWidth 64)) := by
  have hget : s.here.alm[uns s a]? = some (s.here.alm[uns s a]) := Vector.getElem?_eq_getElem h
  unfold uns at h hget
  rw [State.almRead, need_of_true (decide_eq_true h), ok_bind, hget]
  rfl

theorem almRead_seg {s : State} (d a : Reg) (h : 16 ≤ uns s a) : s.almRead d a = .error (.trap clsSeg (uns s a)) := by
  have h' : ¬ (s.src a).toNat < 16 := Nat.not_lt.mpr h
  rw [State.almRead, need_of_false (decide_eq_false h')]
  rfl

/-- The table with the entry that an ALMW notes. -/
def State.almWith (s : State) (a b : Reg) : List (BitVec 9) := s.here.almPending.set (uns s a) ((s.src b).extractLsb' 0 9)

theorem almWrite_ok {s : State} {a b : Reg} {old new : BitVec 9} (hold : s.here.almPending.getD (uns s a) 0 = old)
    (hnew : (s.src b).extractLsb' 0 9 = new) (hk : uns s a < 16) (hb : uns s b < 512)
    (hoi : almIv old = true → s.ownsSlot (almIssue old) = true) (hos : s.ownsSlot (almStep old) = true)
    (hns : s.ownsSlot (almStep new) = true) (hni : almIv new = true → s.ownsSlot (almIssue new) = true)
    (hsp : almSpaced (s.almWith a b) = true) (hga : s.gangsAdjacent s.curCore (s.almWith a b) = true) :
    s.almWrite a b = .ok (s.modHere fun c => { c with almNext := c.almNext.filter (·.1 != uns s a) ++ [(uns s a, new)] }) := by
  have himp : ∀ {p q : Bool}, (p = true → q = true) → (!p || q) = true := by decide
  have hfld : (fld (s.src b) 9 55 == 0) = true := by
    rw [fld_eq]
    unfold uns at hb
    simp
    omega
  have howns : ((!almIv old || s.ownsSlot (almIssue old)) && s.ownsSlot (almStep old) && s.ownsSlot (almStep new)
      && (!almIv new || s.ownsSlot (almIssue new))) = true := by
    rw [himp hoi, himp hni, hos, hns]
    rfl
  subst hnew hold
  unfold State.almWith uns at *
  dsimp only [State.almWrite]
  rw [need_of_true (decide_eq_true hk), ok_bind, need_of_true hfld, ok_bind, need_of_true howns, ok_bind,
    need_of_true hsp, ok_bind, need_of_true hga, ok_bind]

/-! ## The rotation boundary (R76, R79) -/

/-- A core over which a rotation boundary has passed. -/
def Core.turned (c : Core) : Core := c.applyAlmanac.startGangs.countTimers

theorem foldl_modCore (f : Core → Core) (cs : List Nat) (hn : cs.Nodup) (s : State) (n : Nat) :
    (cs.foldl (fun (s : State) c => s.modCore c f) s).core n = if n ∈ cs then f (s.core n) else s.core n := by
  induction cs generalizing s with
  | nil => simp
  | cons c cs ih =>
    obtain ⟨hc, hcs⟩ := List.nodup_cons.mp hn
    rw [List.foldl_cons, ih hcs]
    by_cases hnc : c = n
    · subst hnc
      simp [hc]
    · rw [State.core_modCore_other _ _ hnc]
      simp [Ne.symm hnc]

/-- A fold whose steps all leave the state as it is. -/
theorem foldl_eq_self {α β : Type} (f : β → α → β) (b : β) (xs : List α) (h : ∀ x ∈ xs, f b x = b) : xs.foldl f b = b := by
  induction xs with
  | nil => rfl
  | cons x xs ih => rw [List.foldl_cons, h x List.mem_cons_self, ih fun y hy => h y (List.mem_cons_of_mem x hy)]

/-- What a change of some slots alone leaves of a core. -/
theorem foldl_setSlot_keeps {α β : Type} (p : Core → β) (hp : ∀ c k x, p (Core.setSlot c k x) = p c) (f : Core → α → Core)
    (hf : ∀ c i, f c i = c ∨ ∃ k x, f c i = c.setSlot k x) (xs : List α) (c : Core) : p (xs.foldl f c) = p c := by
  induction xs generalizing c with
  | nil => rfl
  | cons i xs ih =>
    rw [List.foldl_cons, ih]
    obtain h | ⟨k, x, h⟩ := hf c i
    · rw [h]
    · rw [h, hp]

theorem startGangs_keeps {β : Type} (p : Core → β) (hp : ∀ c k x, p (Core.setSlot c k x) = p c) (c : Core) : p c.startGangs = p c :=
  foldl_setSlot_keeps p hp _ (fun c i => by
    split
    · exact .inr ⟨_, _, rfl⟩
    · exact .inl rfl) _ c

/-- A rotation boundary changes of a slot only whether it is ganged, and its timer. -/
theorem slot_turned_keeps {β : Type} (p : Slot → β) (hg : ∀ x : Slot, p { x with gang := true } = p x)
    (ht : ∀ (x : Slot) t, p { x with timer := t } = p x) (c : Core) (k : Nat) : p (c.turned.slot k) = p (c.slot k) := by
  have htimers : ∀ c : Core, p (c.countTimers.slot k) = p (c.slot k) := fun c => by
    simp only [Core.countTimers, Core.slot, Vector.getElem?_map]
    cases c.slots[k]? with
    | none => rfl
    | some x =>
      simp only [Option.map_some, Option.getD_some]
      split
      · exact ht ..
      · rfl
  have hgangs : ∀ (xs : List Nat) (c : Core), p ((xs.foldl (fun (c : Core) i =>
      if (c.slot (2 * i + 1)).st = .ganged ∧ !(c.slot (2 * i)).lentVec.any (·.gang) then
        c.setSlot (2 * i) { c.slot (2 * i) with gang := true }
      else c) c).slot k) = p (c.slot k) := by
    intro xs
    induction xs with
    | nil => exact fun _ => rfl
    | cons i xs ih =>
      intro c
      rw [List.foldl_cons, ih]
      split
      · rw [Core.slot_setSlot]
        split
        · next h => rw [← h.1]; exact hg _
        · rfl
      · rfl
  exact (htimers _).trans (hgangs _ _)

theorem turned_almNext (c : Core) : c.turned.almNext = [] := by
  have h : c.applyAlmanac.startGangs.almNext = c.applyAlmanac.almNext := startGangs_keeps _ Core.setSlot_almNext _
  rw [Core.turned, Core.countTimers, h]
  rfl

theorem turned_alm (c : Core) : c.turned.alm = c.almNext.foldl
    (fun (v : Vector (BitVec 9) 16) (w : Nat × BitVec 9) => v.setIfInBounds w.1 w.2) c.alm := by
  have h : c.applyAlmanac.startGangs.alm = c.applyAlmanac.alm := startGangs_keeps _ Core.setSlot_alm _
  rw [Core.turned, Core.countTimers, h]
  rfl

theorem restoreWoken_of_no_wakes {s : State} {core slot : Nat} (h : (s.slot core slot).wakes = []) : s.restoreWoken core slot = s := by
  simp [State.restoreWoken, Slot.ownWork, h]

theorem startCouple_of_not_coupling {s : State} {leader slot : Nat} (h : (s.slot leader slot).coupling = false) :
    s.startCouple leader slot = s := by
  simp [State.startCouple, h]

/-- At a boundary where no context is woken and no strand couples, every core turns and nothing else happens to it. -/
theorem core_boundary {s : State} (hkeys : s.cores.keys.Pairwise (· < ·))
    (hquiet : ∀ c ∈ s.cores.keys, ∀ k < 16, (s.slot c k).wakes = [] ∧ (s.slot c k).coupling = false) {core : Nat}
    (hcore : core ∈ s.cores.keys) : s.boundary.core core = (s.core core).turned := by
  have hturn := foldl_modCore Core.turned s.cores.keys (hkeys.imp Nat.ne_of_lt) s
  set u := s.cores.keys.foldl (fun (s : State) c => s.modCore c Core.turned) s with hu
  have hslot : ∀ c ∈ s.cores.keys, ∀ k < 16, (u.slot c k).wakes = [] ∧ (u.slot c k).coupling = false := by
    intro c hc k hk
    obtain ⟨hw, hn⟩ := hquiet c hc k hk
    rw [State.slot, hturn, if_pos hc]
    exact ⟨(slot_turned_keeps Slot.wakes (fun _ => rfl) (fun _ _ => rfl) _ k).trans hw,
      (slot_turned_keeps Slot.coupling (fun _ => rfl) (fun _ _ => rfl) _ k).trans hn⟩
  have hwoken : s.cores.keys.foldl (fun (s : State) c => (List.range 16).foldl (fun (s : State) k => s.restoreWoken c k) s) u = u :=
    foldl_eq_self _ _ _ fun c hc => foldl_eq_self _ _ _ fun k hk =>
      restoreWoken_of_no_wakes (hslot c hc k (List.mem_range.mp hk)).1
  have hcouples : s.cores.keys.foldl (fun (s : State) c =>
      if isLeader c then (List.range 14).foldl (fun (s : State) k => s.startCouple c k) s else s) u = u :=
    foldl_eq_self _ _ _ fun c hc => by
      split
      · exact foldl_eq_self _ _ _ fun k hk =>
          startCouple_of_not_coupling (hslot c hc k ((List.mem_range.mp hk).trans (by decide))).2
      · rfl
  have hb : s.boundary.cores = u.cores := by
    show (s.cores.keys.foldl (fun (s : State) c =>
      if isLeader c then (List.range 14).foldl (fun (s : State) k => s.startCouple c k) s else s)
        (s.cores.keys.foldl (fun (s : State) c => (List.range 16).foldl (fun (s : State) k => s.restoreWoken c k) s) u)).cores = _
    rw [hwoken, hcouples]
  rw [State.core, hb, ← State.core, hturn, if_pos hcore]

/-! ## DTRD and DTWR (R147, R288) -/

section Table

variable {s : State} {a : Reg}

theorem tableRead_seg (d : Reg) (h : 256 ≤ uns s a) : s.tableRead d a = .error (.trap clsSeg (uns s a)) := by
  have h' : ¬ (s.src a).toNat < 256 := Nat.not_lt.mpr h
  dsimp only [State.tableRead]
  rw [need_of_false (decide_eq_false h')]
  rfl

theorem tableRead_waits (d : Reg) (h : uns s a < 256) (hw : s.here.tableWaiter ≠ none) :
    s.tableRead d a = .error (.reissue .tableWritten) := by
  unfold uns at h
  dsimp only [State.tableRead]
  rw [need_of_true (decide_eq_true h), ok_bind, need_of_false (by simpa [Option.isSome_iff_ne_none] using hw)]
  rfl

theorem tableRead_ok (d : Reg) (h : uns s a < 256) (hw : s.here.tableWaiter = none) :
    s.tableRead d a = .ok (s.setReg d (BitVec.ofNat 64 ((Sparse.get 0 s.here.dtab (uns s a)).toNat % 2 ^ 19))) := by
  have hval : ∀ x : Half, (x.extractLsb' 0 19).setWidth 64 = BitVec.ofNat 64 (x.toNat % 2 ^ 19) := fun x =>
    BitVec.eq_of_toNat_eq (by simp)
  unfold uns at h
  dsimp only [State.tableRead]
  rw [need_of_true (decide_eq_true h), ok_bind, hw]
  simp only [Option.isNone_none, need_true, ok_bind, hval]
  rfl

theorem tableWrite_seg (b : Reg) (h : 256 ≤ uns s a) : s.tableWrite a b = .error (.trap clsSeg (uns s a)) := by
  have h' : ¬ (s.src a).toNat < 256 := Nat.not_lt.mpr h
  dsimp only [State.tableWrite]
  rw [need_of_false (decide_eq_false h')]
  rfl

theorem tableWrite_ok (b : Reg) (h : uns s a < 256)
    (ho : ∀ k < 16, (s.slot s.curCore k).launch = none ∨ (s.slot s.curCore k).launch = s.cur.launch)
    (hb : s.here.tableBusy s.waitsSince = false) :
    s.tableWrite a b = .ok ((s.modCur fun x => { x with since := none }).modHere fun c =>
      Core.drainAll { c with dtab := c.dtab.put (uns s a) (BitVec.ofNat 32 (uns s b % 2 ^ 19)), dtag := 0 }) := by
  have hval : ∀ x : Word, (x.extractLsb' 0 19).setWidth 32 = BitVec.ofNat 32 (x.toNat % 2 ^ 19) := fun x =>
    BitVec.eq_of_toNat_eq (by simp)
  have hothers : ((List.range 16).any fun k => (s.slot s.curCore k).st != .free && (s.slot s.curCore k).st != .ganged &&
      (s.slot s.curCore k).launch.any fun l => some l != s.cur.launch) = false := by
    rw [List.any_eq_false]
    intro k hk
    obtain hn | hs := ho k (List.mem_range.mp hk)
    · simp [hn]
    · rw [hs]
      cases s.cur.launch <;> simp
  unfold uns at h
  dsimp only [State.tableWrite]
  rw [need_of_true (decide_eq_true h), ok_bind, hothers, hb, hval]
  rfl

end Table

end Sys2Proof.Machine

namespace Sys2Proof.Proofs

open Sys2Proof Sys2Proof.Machine

/-- Settles O24: the checks of the four instructions decide, and a boundary turns every core once. -/
theorem almanacAndDecodeTable : Obligations.AlmanacAndDecodeTable := by
  unfold Obligations.AlmanacAndDecodeTable
  refine ⟨⟨fun s d a g hg => ⟨fun h => exec_served rfl hg (almRead_ok d a h), fun h => exec_stops rfl hg (almRead_seg d a h)⟩,
    fun s a b g hg hk hb hoi hos hns hni hsp hga => exec_served rfl hg (almWrite_ok rfl rfl hk hb hoi hos hns hni hsp hga),
    fun s core hcore hkeys hquiet => ?_⟩, fun s d a b g hg => ⟨fun h => ?_, fun h => ⟨fun hw => ?_, fun hw => ?_, fun ho hb => ?_⟩⟩⟩
  · have hc := core_boundary hkeys hquiet hcore
    exact ⟨s.boundary, rfl, hc ▸ turned_almNext _, hc ▸ turned_alm _⟩
  · exact ⟨exec_stops rfl hg (tableRead_seg d h), exec_stops rfl hg (tableWrite_seg b h)⟩
  · exact exec_stops rfl hg (tableRead_waits d h hw)
  · exact exec_served rfl hg (tableRead_ok d h hw)
  · exact exec_served rfl hg (tableWrite_ok b h ho hb)

end Sys2Proof.Proofs
end

section
/-!
Full/empty bits: what an access at a word's home leaves of them, the CF accesses at their home, and the service of one waiter (R91).
-/
namespace Sys2Proof.Machine

open Sys2Proof

/-! ## Sets of words -/

theorem mem_setInsert {l : List Nat} {k j : Nat} : j ∈ setInsert l k ↔ j = k ∨ j ∈ l := by
  induction l with
  | nil => simp [setInsert]
  | cons x l ih =>
    unfold setInsert
    split
    · simp only [List.mem_cons, ih]
      tauto
    · split
      · next h => subst h; simp
      · simp

theorem mem_setErase {l : List Nat} {k j : Nat} : j ∈ setErase l k ↔ j ∈ l ∧ j ≠ k := by simp [setErase]

/-! ## Full/empty bits -/

/-- Every word is full in one state exactly when it is in another. -/
def SameBits (s t : State) : Prop := ∀ l, t.full l = s.full l

theorem sameBits_of_empty {s t : State} (hm : t.memEmpty = s.memEmpty) (hl : ∀ n, (t.core n).lmEmpty = (s.core n).lmEmpty) :
    SameBits s t := by
  intro l
  cases l with
  | mem pa tr cl k => simp [State.full, hm]
  | lm core off => simp [State.full, hl]
  | _ => rfl

theorem SameBits.refl (s : State) : SameBits s s := fun _ => rfl

theorem SameBits.trans {r s t : State} (h : SameBits r s) (h' : SameBits s t) : SameBits r t := fun l => (h' l).trans (h l)

theorem sameBits_modCore (s : State) (n : Nat) (f : Core → Core) (h : ∀ c, (f c).lmEmpty = c.lmEmpty) : SameBits s (s.modCore n f) :=
  sameBits_of_empty rfl fun m => by
    by_cases hn : n = m
    · subst hn
      simp [h]
    · rw [State.core_modCore_other _ f hn]

theorem sameBits_modSlot (s : State) (core k : Nat) (f : Slot → Slot) : SameBits s (s.modSlot core k f) :=
  sameBits_modCore s core (fun c => c.setSlot k (f (s.slot core k))) fun _ => rfl

theorem sameBits_modCur (s : State) (f : Slot → Slot) : SameBits s (s.modCur f) := sameBits_modSlot s _ _ f

theorem sameBits_touch (s : State) (l : Loc) (w : Bool) (cl : Nat) (bs : List Byte) (pasid : Option (BitVec 20)) (inval : Bool) :
    SameBits s (s.touch l w cl bs pasid inval) := by
  obtain ⟨h, p, q, e⟩ := touch_frame s l w cl bs pasid inval
  rw [e]
  exact sameBits_of_empty rfl fun _ => rfl

theorem sameBits_refreshL1 (s : State) (core : Nat) (l : Loc) (bs : List Byte) (p : Bool) : SameBits s (s.refreshL1 core l bs p) := by
  cases l with
  | mem pa t c k => exact sameBits_modCore s core _ fun _ => rfl
  | _ => exact .refl s

theorem sameBits_selfInvalidate (s : State) (core : Nat) : SameBits s (s.selfInvalidate core) := sameBits_modCore s core _ fun _ => rfl

theorem sameBits_wrLoc (s : State) (l : Loc) (bs : List Byte) (p : Bool) : SameBits s (s.wrLoc l bs p) := by
  cases l with
  | lm core off => exact sameBits_modCore s core _ fun _ => rfl
  | mem => exact sameBits_of_empty rfl fun _ => rfl
  | _ => exact .refl s

/-- A bit set reads as set, and every other word's bit as before. -/
theorem full_setFull (s : State) {l : Loc} (hl : OnHome l) (b : Bool) (k : Loc) :
    (s.setFull l b).full k = if k.sameWord l then b else s.full k := by
  obtain ⟨pa, tr, cl, key, rfl⟩ | ⟨core, off, rfl, -⟩ := hl
  · cases k with
    | mem q =>
      cases b
      · by_cases h : q / 8 = pa / 8 <;> simp [State.full, State.setFull, Loc.sameWord, mem_setInsert, h]
      · by_cases h : q / 8 = pa / 8 <;> simp [State.full, State.setFull, Loc.sameWord, mem_setErase, h]
    | _ => rfl
  · cases k with
    | lm n o =>
      by_cases hn : core = n
      · subst hn
        cases b
        · by_cases h : o / 8 = off / 8 <;> simp [State.full, State.setFull, Loc.sameWord, mem_setInsert, h]
        · by_cases h : o / 8 = off / 8 <;> simp [State.full, State.setFull, Loc.sameWord, mem_setErase, h]
      · simp [State.full, State.setFull, Loc.sameWord, State.core_modCore_other _ _ hn, Ne.symm hn]
    | _ => rfl

theorem sameWord_self {l : Loc} (hl : OnHome l) : l.sameWord l = true := by
  obtain ⟨pa, tr, cl, key, rfl⟩ | ⟨core, off, rfl, -⟩ := hl <;> simp [Loc.sameWord]

theorem full_setFull_self (s : State) {l : Loc} (hl : OnHome l) (b : Bool) : (s.setFull l b).full l = b := by
  rw [full_setFull s hl, sameWord_self hl, if_pos rfl]

theorem full_setFull_other (s : State) {l : Loc} (hl : OnHome l) (b : Bool) {k : Loc} (hk : k.sameWord l = false) :
    (s.setFull l b).full k = s.full k := by
  rw [full_setFull s hl, hk]
  rfl

theorem setFull_undisturbed (s : State) (l : Loc) (b : Bool) : Undisturbed s (s.setFull l b) := by
  cases l with
  | mem => exact ⟨rfl, sameStrand_of_cur rfl, rfl, fun _ => rfl, rfl⟩
  | lm core off =>
    unfold State.setFull
    apply undisturbed_modCore <;> exact fun _ => rfl
  | _ => exact .refl s

theorem setFull_sameMemory (s : State) (l : Loc) (b : Bool) : SameMemory s (s.setFull l b) := by
  cases l with
  | lm core off => exact sameMemory_modCore s core _ fun _ => rfl
  | mem => exact sameMemory_of_mem_lm rfl fun _ => rfl
  | _ => exact sameMemory_refl s

/-! ## A word taken or filled at its home -/

/-- A word's copy in the core's L1 follows, and the acquire if there is one. -/
def State.follow (s : State) (l : Loc) (v : Word) (acquire : Bool) : State :=
  (s.refreshL1 s.curCore l (bytesOfNat 8 v.toNat) false).acquired acquire

theorem taken_eq (s : State) (l : Loc) (d : Reg) (v : Word) (acquire : Bool) :
    s.taken l d v acquire = (s.follow l v acquire).replyWith [(d.toNat, v)] := by
  cases acquire <;> cases l <;> rfl

theorem follow_undisturbed (s : State) (l : Loc) (v : Word) (acquire : Bool) : Undisturbed s (s.follow l v acquire) :=
  (refreshL1_undisturbed s _ l _ false).trans (acquired_undisturbed _ acquire)

theorem follow_sameMemory (s : State) (l : Loc) (v : Word) (acquire : Bool) : SameMemory s (s.follow l v acquire) :=
  SameMemory.trans (refreshL1_sameMemory s _ l _ false) (acquired_sameMemory _ acquire)

theorem sameBits_follow (s : State) (l : Loc) (v : Word) (acquire : Bool) : SameBits s (s.follow l v acquire) := by
  refine (sameBits_refreshL1 s s.curCore l (bytesOfNat 8 v.toNat) false).trans ?_
  cases acquire
  · exact .refl _
  · exact sameBits_selfInvalidate _ _

/-- An answer that is in, of an access that leaves the strand and changes memory and bits no further. -/
theorem answered {s u : State} (hk : SlotOk s) (hu : Undisturbed s u) (ws : List (Nat × Word)) :
    RepliesWith s (served (u.replyWith ws)) ws ∧ SameMemory u (served (u.replyWith ws)) ∧ SameBits u (served (u.replyWith ws)) :=
  have hslot : u.curSlot < 16 := by rw [hu.slot]; exact hk
  have h := repliesWith_served hslot hu.strand ws
  ⟨h.1, h.2, (sameBits_modCur u _).trans (sameBits_modCur _ _)⟩

/-- No word of a launch's partition is a movement request word. -/
theorem countTaken_onHome (s : State) {l : Loc} (hl : OnHome l) : s.countTaken l = s := by
  obtain ⟨pa, tr, cl, key, rfl⟩ | ⟨core, off, rfl, ho⟩ := hl
  · rfl
  · have : ¬ (0x8000 ≤ off ∧ off < 0x8020) := by unfold programArea at ho; omega
    exact if_neg this

theorem takeFull_quiet {s : State} {l : Loc} (hl : OnHome l) (hw : NoWaiters s) (d : Reg) :
    s.takeFull l d = ((s.setFull l false).follow l (s.rdWord l) true).replyWith [(d.toNat, s.rdWord l)] := by
  have hu := (setFull_undisturbed s l false).trans (follow_undisturbed (s.setFull l false) l (s.rdWord l) true)
  have hn : NoWaiters (((s.setFull l false).follow l (s.rdWord l) true).replyWith [(d.toNat, s.rdWord l)]) :=
    ⟨(hu.noWaiters hw).1, fun n => by
      rw [State.replyWith, State.await, State.modCur, State.modSlot, State.setSlot, State.core_setCore]
      split
      · next h => subst h; exact (hu.noWaiters hw).2 _
      · exact (hu.noWaiters hw).2 n⟩
  rw [State.takeFull, taken_eq, countTaken_onHome _ hl, serve_quiet hn]

/-- A word filled where nobody waits. -/
theorem fill_quiet {s : State} {l : Loc} (hl : OnHome l) (hw : NoWaiters s) (v : Word) :
    Undisturbed s (s.fill s.cl l v) ∧ (s.fill s.cl l v).rdLoc l 8 = bytesOfNat 8 v.toNat ∧ SameOutside s (s.fill s.cl l v) l 8 ∧
      (s.fill s.cl l v).full l = true ∧ ∀ k, k.sameWord l = false → (s.fill s.cl l v).full k = s.full k := by
  have ht := touch_undisturbed s l true s.cl (bytesOfNat 8 v.toNat) none true
  set u := (s.touch l true s.cl (bytesOfNat 8 v.toNat) none true).wrLoc l (bytesOfNat 8 v.toNat) false with hu
  have hdist : Undisturbed s (u.setFull l true) := (ht.trans (wrLoc_undisturbed _ l _ false)).trans (setFull_undisturbed u l true)
  have hfill : s.fill s.cl l v = u.setFull l true := serve_quiet (hdist.noWaiters hw) l
  have hbits : SameBits s u := (sameBits_touch s l true s.cl _ none true).trans (sameBits_wrLoc _ l _ false)
  have hread : u.rdLoc l (bytesOfNat 8 v.toNat).length = bytesOfNat 8 v.toNat := by
    obtain ⟨pa, tr, cl, k, rfl⟩ | ⟨core, off, rfl, -⟩ := hl <;> exact rdLoc_wrLoc _ _ _ nofun nofun nofun
  have hout : SameOutside s u l (bytesOfNat 8 v.toNat).length :=
    sameOutside_trans (sameOutside_of_sameMemory (touch_sameMemory s l true s.cl _ none true) l _) (sameOutside_wrLoc _ l _ false)
  rw [length_bytesOfNat] at hread hout
  rw [hfill]
  exact ⟨hdist, (rdLoc_of_sameMemory (setFull_sameMemory u l true) l 8).trans hread,
    sameOutside_trans hout (sameOutside_of_sameMemory (setFull_sameMemory u l true) l 8), full_setFull_self u hl true,
    fun k hk => (full_setFull_other u hl true hk).trans (hbits k)⟩

/-! ## Waiters (R91) -/

/-- A waiter put last into the wait list of its word's home. -/
def State.enlist (s : State) (l : Loc) (w : Waiter) : State :=
  match l with
  | .lm core _ => s.modCore core fun c => { c with waiters := c.waiters ++ [w] }
  | _ => { s with waiters := s.waiters ++ [w] }

/-- The current slot as a waiter. -/
def State.meWaiting (s : State) (l : Loc) (dva : Nat) (kind : WaitKind) : Waiter := ⟨.slot s.curCore s.curSlot, l, dva, kind, s.cc⟩

theorem mayWait_iff (s : State) : s.mayWait = true ↔ s.curSlot ≠ 14 ∧ s.cur.packet = none := by
  simp [State.mayWait]

theorem waitOn_ok {s : State} {l : Loc} (hm : s.mayWait = true) (hr : s.waitRoom l = true) (dva : Nat) (kind : WaitKind) (cop : Nat)
    (global : Bool) : s.waitOn l dva kind cop global = .ok ((s.parkCur .fullEmpty).enlist l (s.meWaiting l dva kind)) := by
  obtain ⟨hk, hp⟩ := (mayWait_iff s).mp hm
  rw [State.waitOn, mayPark_ok hk hp, ok_bind, need_of_true hr, ok_bind]
  rfl

theorem waitOn_busy {s : State} {l : Loc} (hm : s.mayWait = true) (hr : s.waitRoom l = false) (dva : Nat) (kind : WaitKind) (cop : Nat)
    (global : Bool) : s.waitOn l dva kind cop global = .error (.reissue .busy) := by
  obtain ⟨hk, hp⟩ := (mayWait_iff s).mp hm
  rw [State.waitOn, mayPark_ok hk hp, ok_bind, need_of_false hr]
  rfl

theorem enlist_keeps (s : State) (l : Loc) (w : Waiter) :
    (s.enlist l w).cur = s.cur ∧ (s.enlist l w).curSlot = s.curSlot ∧ SameMemory s (s.enlist l w) ∧ SameBits s (s.enlist l w) := by
  cases l with
  | lm core off =>
    exact ⟨State.cur_modCore_keep s core _ fun _ => rfl, rfl, sameMemory_modCore s core _ fun _ => rfl,
      sameBits_modCore s core _ fun _ => rfl⟩
  | _ => exact ⟨rfl, rfl, sameMemory_of_mem_lm rfl fun _ => rfl, sameBits_of_empty rfl fun _ => rfl⟩

theorem waitList_enlist (s : State) (l : Loc) (w : Waiter) : (s.enlist l w).waitList l = s.waitList l ++ [w] := by
  cases l <;> simp [State.enlist, State.waitList]

theorem waitList_modCur (s : State) (f : Slot → Slot) (l : Loc) : (s.modCur f).waitList l = s.waitList l := by
  cases l with
  | lm core off =>
    show ((s.modCur f).core core).waiters = (s.core core).waiters
    rw [State.modCur, State.modSlot, State.setSlot, State.core_setCore]
    split
    · next h => subst h; rfl
    · rfl
  | _ => rfl

/-- A slot parked on the wait list of a word's home, last. -/
theorem parked_last {s u : State} {l : Loc} {w : Waiter} (hk : SlotOk s) (hslot : u.curSlot = s.curSlot) (hm : SameMemory s u)
    (hb : SameBits s u) (hl : u.waitList l = s.waitList l) :
    (served ((u.parkCur .fullEmpty).enlist l w)).cur.st = .parked ∧
      (served ((u.parkCur .fullEmpty).enlist l w)).cur.park = some .fullEmpty ∧
      (served ((u.parkCur .fullEmpty).enlist l w)).waitList l = s.waitList l ++ [w] ∧
      SameMemory s (served ((u.parkCur .fullEmpty).enlist l w)) ∧ SameBits s (served ((u.parkCur .fullEmpty).enlist l w)) := by
  have hku : SlotOk u := by rw [SlotOk, hslot]; exact hk
  obtain ⟨hcur, -, hmem, hbits⟩ := enlist_keeps (u.parkCur .fullEmpty) l w
  have hpark := cur_parkCur hku .fullEmpty
  refine ⟨?_, ?_, ?_, ?_, ?_⟩
  · rw [served_keeps _ Slot.st fun _ => rfl, hcur, hpark]
  · rw [served_keeps _ Slot.park fun _ => rfl, hcur, hpark]
  · rw [served, waitList_modCur, waitList_enlist, State.parkCur, waitList_modCur, hl]
  · exact SameMemory.trans hm (SameMemory.trans (sameMemory_parkCur u _) (SameMemory.trans hmem (sameMemory_served _)))
  · exact hb.trans ((sameBits_modCur u _).trans (hbits.trans (sameBits_modCur _ _)))

end Sys2Proof.Machine
end

section
/-!
Full and empty words: O29.
-/
namespace Sys2Proof.Machine

open Sys2Proof

/-! ## The CF accesses of a quiet strand at their home -/

section Cf

variable {s : State} {c : CapIx} {m : BitVec 1} {off : Word} {l : Loc} {dva : Nat}

theorem cfFirst_quiet (hs : StoresIn s) (m : BitVec 1) (l : Loc) : s.cfFirst m l = .ok s := by
  unfold State.cfFirst
  split
  · exact ownFirst_quiet hs l 8
  · rfl

theorem cfHome_quiet (hs : StoresIn s) (m : BitVec 1) (l : Loc) (w : Bool) : s.cfHome m l w = .ok (s.serveMe l w w) := by
  rw [State.cfHome, cfFirst_quiet hs]
  rfl

theorem serveMe_rdWord (s : State) (l : Loc) (w inval : Bool) : (s.serveMe l w inval).rdWord l = s.rdWord l := by
  rw [State.rdWord, rdLoc_of_sameMemory (serveMe_sameMemory s l w inval), State.rdWord]

theorem serveMe_full (s : State) (l : Loc) (w inval : Bool) : SameBits s (s.serveMe l w inval) :=
  fun k => sameBits_touch s l w s.cl [] (s.pasidOf s.cur.launch) inval k

theorem serveMe_waitOn (s : State) (l : Loc) (w inval : Bool) :
    (s.serveMe l w inval).mayWait = s.mayWait ∧ (s.serveMe l w inval).waitRoom l = s.waitRoom l ∧
      (s.serveMe l w inval).waitList l = s.waitList l ∧ ∀ dva kind, (s.serveMe l w inval).meWaiting l dva kind = s.meWaiting l dva kind := by
  obtain ⟨h, p, q, e⟩ := touch_frame s l w s.cl [] (s.pasidOf s.cur.launch) inval
  rw [State.serveMe, e]
  cases l <;> exact ⟨rfl, rfl, rfl, fun _ _ => rfl⟩

variable (hs : StoresIn s) (hl : OnHome l)

include hs hl

theorem ldh_home (d : Reg) (hloc : s.cfLoc c m off true false .read .ldh = .ok (l, dva))
    (hp : (s.serveMe l false false).poisonedAt l 8 = false) :
    s.ldh c m off d = .ok (((s.serveMe l false false).follow l (s.rdWord l) false).replyWith [(d.toNat, s.rdWord l)]) := by
  rw [State.ldh, hloc, ok_bind]
  obtain ⟨pa, tr, cl, k, rfl⟩ | ⟨core, o, rfl, -⟩ := hl <;>
    simp only [cfHome_quiet hs, ok_bind, hp, taken_eq, serveMe_rdWord, Bool.false_eq_true, if_false]

theorem ldf_home (d : Reg) (hloc : s.cfLoc c m off true false .read .other = .ok (l, dva)) :
    s.ldf c m off d =
      if (s.serveMe l false false).full l then
        if (s.serveMe l false false).poisonedAt l 8 then .error (.kill dva)
        else .ok (((s.serveMe l false false).follow l (s.rdWord l) true).replyWith [(d.toNat, s.rdWord l)])
      else (s.serveMe l false false).waitOn l dva (.ldf d) 6 (m == 0#1) := by
  rw [State.ldf, hloc, ok_bind]
  obtain ⟨pa, tr, cl, k, rfl⟩ | ⟨core, o, rfl, -⟩ := hl <;>
    simp only [cfHome_quiet hs, ok_bind, taken_eq, serveMe_rdWord]

theorem ldx_home (d : Reg) (hloc : s.cfLoc c m off true true .atomic .ldx = .ok (l, dva)) :
    s.ldx c m off d =
      if (s.serveMe l true true).full l then
        if (s.serveMe l true true).poisonedAt l 8 then .error (.kill dva) else .ok ((s.serveMe l true true).takeFull l d)
      else (s.serveMe l true true).waitOn l dva (.ldx d) 6 (m == 0#1) := by
  rw [State.ldx, hloc, ok_bind]
  obtain ⟨pa, tr, cl, k, rfl⟩ | ⟨core, o, rfl, ho⟩ := hl
  · simp only [cfHome_quiet hs, ok_bind]
  · have hmb : o ≠ 0x8000 := by unfold programArea at ho; omega
    simp only [cfHome_quiet hs, ok_bind]
    split
    · next h => exact absurd h nofun
    · next h => exact absurd (Loc.lm.inj h).2 hmb
    · rfl

theorem stf_home (data : Word) (hloc : s.cfLoc c m off false true .write .stf = .ok (l, dva)) :
    s.stf c m off data = if s.full l then s.waitOn l dva (.stf data) 7 (m == 0#1) else .ok (s.filled l data) := by
  rw [State.stf, hloc, ok_bind]
  obtain ⟨pa, tr, cl, k, rfl⟩ | ⟨core, o, rfl, -⟩ := hl <;> simp only [release_quiet hs, cfFirst_quiet hs, ok_bind]

theorem stfa_home (data : Word) (hloc : s.cfLoc c m off false true .write .stfa = .ok (l, dva)) :
    s.stfa c m off data = .ok (s.filled l data) := by
  rw [State.stfa, hloc, ok_bind]
  obtain ⟨pa, tr, cl, k, rfl⟩ | ⟨core, o, rfl, -⟩ := hl <;> simp only [release_quiet hs, cfFirst_quiet hs, ok_bind]

theorem feclr_home (hloc : s.cfLoc c m off false true .write .other = .ok (l, dva)) (hw : NoWaiters s) :
    s.feclr c m off = .ok (((s.serveMe l true true).setFull l false).replyWith []) := by
  have hn := ((serveMe_undisturbed s l true true).trans (setFull_undisturbed _ l false)).noWaiters hw
  rw [State.feclr, hloc, ok_bind]
  obtain ⟨pa, tr, cl, k, rfl⟩ | ⟨core, o, rfl, -⟩ := hl <;> simp only [cfFirst_quiet hs, ok_bind, serve_quiet hn]

end Cf

/-! ## What they leave -/

/-- A word read at its home and left full or as it was answers, and no byte changes. -/
theorem answers_read {s u : State} {l : Loc} {d : Reg} (hk : SlotOk s) (hu : Undisturbed s u) (hm : SameMemory s u) (hb : SameBits s u)
    (acquire : Bool) : RepliesWith s (served ((u.follow l (s.rdWord l) acquire).replyWith [(d.toNat, s.rdWord l)]))
        [(d.toNat, s.rdWord l)] ∧
      SameMemory s (served ((u.follow l (s.rdWord l) acquire).replyWith [(d.toNat, s.rdWord l)])) ∧
      SameBits s (served ((u.follow l (s.rdWord l) acquire).replyWith [(d.toNat, s.rdWord l)])) := by
  obtain ⟨hr, hm', hb'⟩ := answered hk (hu.trans (follow_undisturbed u l (s.rdWord l) acquire)) [(d.toNat, s.rdWord l)]
  exact ⟨hr, SameMemory.trans hm (SameMemory.trans (follow_sameMemory u l _ acquire) hm'),
    hb.trans ((sameBits_follow u l _ acquire).trans hb')⟩

/-- A word stored and filled at its home answers, and every byte and bit outside it is as it was. -/
theorem filled_leaves {s : State} {l : Loc} (hk : SlotOk s) (hl : OnHome l) (hw : NoWaiters s) (v : Word) :
    RepliesWith s (served (s.filled l v)) [] ∧ (served (s.filled l v)).rdLoc l 8 = bytesOfNat 8 v.toNat ∧
      SameOutside s (served (s.filled l v)) l 8 ∧ (served (s.filled l v)).full l = true ∧
      ∀ k, k.sameWord l = false → (served (s.filled l v)).full k = s.full k := by
  obtain ⟨hu, hread, hout, hfull, hother⟩ := fill_quiet hl hw v
  have hr := refreshL1_undisturbed (s.fill s.cl l v) s.curCore l (bytesOfNat 8 v.toNat) false
  obtain ⟨hrep, hm, hb⟩ := answered hk (hu.trans hr) []
  have hmem := SameMemory.trans (refreshL1_sameMemory (s.fill s.cl l v) s.curCore l (bytesOfNat 8 v.toNat) false) hm
  have hbits := (sameBits_refreshL1 (s.fill s.cl l v) s.curCore l (bytesOfNat 8 v.toNat) false).trans hb
  exact ⟨hrep, (rdLoc_of_sameMemory hmem l 8).trans hread, sameOutside_trans hout (sameOutside_of_sameMemory hmem l 8),
    (hbits l).trans hfull, fun k hk => (hbits k).trans (hother k hk)⟩

/-! ## Service of a waiter (R91) -/

/-- A pass over waiters that hear nothing of a word serves none. -/
theorem servePass_skip {l : Loc} {ws : List Waiter} (h : ∀ u ∈ ws, u.hears l = false) (rest : List Waiter) (s : State) :
    s.servePass l (ws ++ rest) = s.servePass l rest := by
  induction ws with
  | nil => rfl
  | cons w ws ih =>
    rw [List.cons_append, State.servePass, h w List.mem_cons_self]
    simpa using ih fun u hu => h u (List.mem_cons_of_mem w hu)

/-- Waiters of an empty word that wait for a full one are passed over. -/
theorem servePass_empty {s : State} {core off : Nat} (hempty : s.full (.lm core off) = false) {ws : List Waiter}
    (h : ∀ u ∈ ws, u.hears (.lm core off) = true → (∃ e, u.kind = .ldf e) ∨ ∃ e, u.kind = .ldx e) :
    s.servePass (.lm core off) ws = (s, false) := by
  induction ws with
  | nil => rfl
  | cons w ws ih =>
    have hrest := ih fun u hu => h u (List.mem_cons_of_mem w hu)
    rw [State.servePass]
    split
    · next hw =>
      have hhears : w.hears (.lm core off) = true := (Bool.and_eq_true_iff.mp hw).1
      have hkind := h w List.mem_cons_self hhears
      have hword : w.loc.sameWord (.lm core off) = true := by
        obtain ⟨e, he⟩ | ⟨e, he⟩ := hkind <;> simpa [Waiter.hears, he] using hhears
      have hfull : (s.dropWaiter w).full w.loc = false := by
        cases hloc : w.loc with
        | lm n o =>
          rw [hloc] at hword
          obtain ⟨rfl, ho⟩ : n = core ∧ o / 8 = off / 8 := by simpa [Loc.sameWord] using hword
          have hb : SameBits s (s.dropWaiter w) := by
            rw [State.dropWaiter, hloc]
            exact sameBits_modCore s n _ fun _ => rfl
          rw [hb, ← hempty]
          simp only [State.full, ho]
        | _ => rw [hloc] at hword; exact absurd hword nofun
      have hnone : (s.dropWaiter w).serveOne w = none := by
        obtain ⟨e, he⟩ | ⟨e, he⟩ := hkind <;> simp [State.serveOne, he, hfull]
      rw [hnone]
      exact hrest
    · exact hrest

/-- A parked LDX of a full word, served: the word's waiters without it, the bit, and its slot. -/
theorem serveOne_ldx {s : State} {core off slot : Nat} {d : Reg} {dva at' : Nat} (hslot : slot < 16) (ho : programArea ≤ off)
    (hfull : s.full (.lm core off) = true) (hp : s.poisonedAt (.lm core off) 8 = false) (hq : (s.slot core slot).seqReply = false) :
    ∃ t, s.serveOne ⟨.slot core slot, .lm core off, dva, .ldx d, at'⟩ = some t ∧ (t.core core).waiters = (s.core core).waiters ∧
      t.full (.lm core off) = false ∧ (t.slot core slot).st = .ready ∧ (d ≠ 0 → (t.slot core slot).reg d = s.rdWord (.lm core off)) := by
  have hl : OnHome (.lm core off) := .inr ⟨core, off, rfl, ho⟩
  set v := s.rdWord (.lm core off) with hv
  set u := s.setFull (.lm core off) false with hu
  have huslot : u.slot core slot = s.slot core slot := by
    simp [hu, State.setFull, State.slot]
    rfl
  have hwake := State.slot_wake (s := u) hslot (by rw [huslot]; exact hq) [(d.toNat, v)]
  obtain ⟨b, hb⟩ := selfInvalidate_slot (u.wake core slot [(d.toNat, v)]) core core slot
  have hserve : s.serveOne ⟨.slot core slot, .lm core off, dva, .ldx d, at'⟩ =
      some ((u.wake core slot [(d.toNat, v)]).selfInvalidate core) := by
    rw [State.serveOne]
    simp only [hfull, hp, Bool.not_true, Bool.false_eq_true, if_false, countTaken_onHome _ hl]
    rfl
  refine ⟨_, hserve, ?_, ?_, ?_, fun hd => ?_⟩
  · simp [State.selfInvalidate, State.wake, State.core_modSlot, Core.setSlot, hu, State.setFull]
  · rw [sameBits_selfInvalidate, State.wake, sameBits_modSlot, full_setFull_self s hl]
  · rw [hb, hwake]
  · have hreg : ∀ x : Slot, x.setCodes [(d.toNat, v)] = x.setReg d v := fun x => by
      simp [Slot.setCodes, BitVec.ofNat_toNat]
    rw [hb, hwake, hreg]
    show ((u.slot core slot).setReg d v).reg d = v
    rw [Slot.reg_setReg, if_neg (show ¬ d = 0#5 from hd), if_pos rfl]

theorem hears_self {who : Who} {core off dva at' : Nat} {kind : WaitKind} :
    Waiter.hears ⟨who, .lm core off, dva, kind, at'⟩ (.lm core off) = true := by simp [Waiter.hears, Loc.sameWord]

/-- The word of a fill, before its waiters are served: its data, its bit and no poison; the slots and waiters as they were. -/
theorem filled_word (s : State) {core off : Nat} (v : Word) (hoff : off % 8 = 0) (ho : programArea ≤ off) (slot : Nat) :
    let u := (s.wrLoc (.lm core off) (bytesOfNat 8 v.toNat) false).setFull (.lm core off) true
    u.rdWord (.lm core off) = v ∧ u.full (.lm core off) = true ∧ u.poisonedAt (.lm core off) 8 = false ∧
      (u.core core).waiters = (s.core core).waiters ∧ u.slot core slot = s.slot core slot := by
  intro u
  have hbytes : u.rdLoc (.lm core off) 8 = bytesOfNat 8 v.toNat := by
    rw [rdLoc_of_sameMemory (setFull_sameMemory _ _ true)]
    simpa using rdLoc_wrLoc (s := s) (.lm core off) (bytesOfNat 8 v.toNat) false nofun nofun nofun
  refine ⟨?_, full_setFull_self _ (.inr ⟨core, off, rfl, ho⟩) true, ?_, ?_, ?_⟩
  · rw [State.rdWord, hbytes, natOfBytes_bytesOfNat]
    exact BitVec.eq_of_toNat_eq (by simpa using v.isLt)
  · have hc : covered off 8 = [off / 8] := by
      rw [covered, touched_of_aligned hoff, List.filter_cons_of_pos (by simp; omega)]
      rfl
    simp [u, State.poisonedAt, State.setFull, State.wrLoc, touched_of_aligned hoff, hc, setErase]
  · simp [u, State.setFull, State.wrLoc]
  · simp [u, State.setFull, State.wrLoc, State.slot]
    rfl

/-- A pass that serves a parked LDX ahead of others that want the full word, and behind waiters for other words. -/
theorem servePass_ldx {s t : State} {core off : Nat} {w : Waiter} {pre post : List Waiter}
    (hws : (s.core core).waiters = pre ++ w :: post) (hw : w.loc = .lm core off)
    (hpre : ∀ u ∈ pre, u.hears (.lm core off) = false)
    (hpost : ∀ u ∈ post, u.hears (.lm core off) = true → (∃ e, u.kind = .ldf e) ∨ ∃ e, u.kind = .ldx e)
    (hserve : (s.dropWaiter w).serveOne w = some t) (hempty : t.full (.lm core off) = false) :
    s.servePass (.lm core off) (s.waitList (.lm core off)) = (t, true) := by
  have hhears : w.hears (.lm core off) = true := by simp [Waiter.hears, hw, Loc.sameWord]
  have hin : (s.waitList (.lm core off)).contains w = true := by
    simp [State.waitList, hws]
  rw [show s.waitList (.lm core off) = pre ++ w :: post from hws] at hin ⊢
  rw [servePass_skip hpre, State.servePass, hhears, show s.waitList (.lm core off) = pre ++ w :: post from hws, hin]
  simp only [Bool.and_self, if_true, hserve, servePass_empty hempty hpost]

/-- Service of a filled word whose oldest waiter is a parked LDX. -/
theorem serve_ldx {s t : State} {core off : Nat} {w : Waiter} {pre post : List Waiter}
    (hws : (s.core core).waiters = pre ++ w :: post) (hw : w.loc = .lm core off)
    (hpre : ∀ u ∈ pre, u.hears (.lm core off) = false)
    (hpost : ∀ u ∈ post, u.hears (.lm core off) = true → (∃ e, u.kind = .ldf e) ∨ ∃ e, u.kind = .ldx e)
    (hserve : (s.dropWaiter w).serveOne w = some t) (hempty : t.full (.lm core off) = false)
    (hleft : (t.core core).waiters = pre ++ post) : s.serve (.lm core off) = t := by
  have hlen : (s.waitList (.lm core off)).length + 1 = (pre.length + post.length) + 1 + 1 := by
    simp [State.waitList, hws]; omega
  have hagain : t.servePass (.lm core off) (t.waitList (.lm core off)) = (t, false) := by
    rw [show t.waitList (.lm core off) = pre ++ post from hleft, servePass_skip hpre, servePass_empty hempty hpost]
  rw [State.serve, hlen, State.serveLoop, servePass_ldx hws hw hpre hpost hserve hempty]
  simp only [State.serveLoop, hagain]

theorem erase_oldest {core off dva at' : Nat} {d : Reg} {who : Who} {pre post : List Waiter}
    (hpre : ∀ u ∈ pre, u.hears (.lm core off) = false) :
    (pre ++ (⟨who, .lm core off, dva, .ldx d, at'⟩ : Waiter) :: post).erase ⟨who, .lm core off, dva, .ldx d, at'⟩ = pre ++ post := by
  have hnot : (⟨who, .lm core off, dva, .ldx d, at'⟩ : Waiter) ∉ pre := fun h => by
    have := hpre _ h
    rw [hears_self] at this
    exact absurd this nofun
  rw [List.erase_append_right _ hnot, List.erase_cons_head]

/-- A waiter of a word of local memory taken out of its core's list. -/
theorem dropWaiter_lm (s : State) {w : Waiter} {core off : Nat} (h : w.loc = .lm core off) :
    s.dropWaiter w = s.modCore core fun c => { c with waiters := c.waiters.erase w } := by
  rw [State.dropWaiter, h]

/-- A word filled for a parked LDX. -/
theorem fill_serves_ldx {s : State} {core off slot : Nat} {d : Reg} {v : Word} {dva at' : Nat} {pre post : List Waiter}
    (hslot : slot < 16) (hoff : off % 8 = 0) (ho : programArea ≤ off)
    (hws : (s.core core).waiters = pre ++ ⟨.slot core slot, .lm core off, dva, .ldx d, at'⟩ :: post)
    (hpre : ∀ u ∈ pre, u.hears (.lm core off) = false)
    (hpost : ∀ u ∈ post, u.hears (.lm core off) = true → (∃ e, u.kind = .ldf e) ∨ ∃ e, u.kind = .ldx e)
    (hq : (s.slot core slot).seqReply = false) (cl : Nat) :
    ((s.fill cl (.lm core off) v).core core).waiters = pre ++ post ∧ (s.fill cl (.lm core off) v).full (.lm core off) = false ∧
      ((s.fill cl (.lm core off) v).slot core slot).st = .ready ∧
      (d ≠ 0 → ((s.fill cl (.lm core off) v).slot core slot).reg d = v) := by
  obtain ⟨hword, hfull, hp, hsame, hcell⟩ := filled_word s v hoff ho slot (core := core)
  set u := (s.wrLoc (.lm core off) (bytesOfNat 8 v.toNat) false).setFull (.lm core off) true with hu
  set w : Waiter := ⟨.slot core slot, .lm core off, dva, .ldx d, at'⟩ with hw
  have hdrop : u.dropWaiter w = u.modCore core fun c => { c with waiters := c.waiters.erase w } := dropWaiter_lm u rfl
  have hwaiters : ((u.dropWaiter w).core core).waiters = pre ++ post := by
    rw [hdrop, State.core_modCore_same, hsame, hws, hw, erase_oldest hpre]
  have hdslot : (u.dropWaiter w).slot core slot = s.slot core slot := by
    rw [hdrop, ← hcell]
    exact State.slot_modCore_keep u core (fun c => { c with waiters := c.waiters.erase w }) (fun _ => rfl) core slot
  have hdfull : (u.dropWaiter w).full (.lm core off) = true := by
    rw [hdrop, sameBits_modCore u core (fun c => { c with waiters := c.waiters.erase w }) fun _ => rfl, hfull]
  have hdp : (u.dropWaiter w).poisonedAt (.lm core off) 8 = false := by
    rw [← hp, hdrop]
    simp [State.poisonedAt]
  have hdword : (u.dropWaiter w).rdWord (.lm core off) = v := by
    rw [← hword, hdrop]
    simp [State.rdWord, State.rdLoc]
  obtain ⟨t, hserve, hleft, hempty, hst, hreg⟩ := serveOne_ldx hslot ho hdfull hdp (by rw [hdslot]; exact hq) (d := d) (dva := dva)
    (at' := at')
  have hfill : s.fill cl (.lm core off) v = t :=
    serve_ldx (hsame.trans hws) rfl hpre hpost hserve hempty (hleft.trans hwaiters)
  rw [hfill, hleft, hwaiters]
  exact ⟨rfl, hempty, hst, fun hd => (hreg hd).trans hdword⟩

/-- A word taken at its home: it answers, its bit is empty, and no byte and no other bit changes. -/
theorem answers_taken {s u : State} {l : Loc} {d : Reg} (hk : SlotOk s) (hl : OnHome l) (hw : NoWaiters s) (hu : Undisturbed s u)
    (hm : SameMemory s u) (hb : SameBits s u) (hv : u.rdWord l = s.rdWord l) :
    RepliesWith s (served (u.takeFull l d)) [(d.toNat, s.rdWord l)] ∧ SameMemory s (served (u.takeFull l d)) ∧
      (served (u.takeFull l d)).full l = false ∧ ∀ k, k.sameWord l = false → (served (u.takeFull l d)).full k = s.full k := by
  have hset := (hu.trans (setFull_undisturbed u l false)).trans (follow_undisturbed (u.setFull l false) l (s.rdWord l) true)
  obtain ⟨hr, hm', hb'⟩ := answered hk hset [(d.toNat, s.rdWord l)]
  have hbits := (sameBits_follow (u.setFull l false) l (s.rdWord l) true).trans hb'
  rw [takeFull_quiet hl (hu.noWaiters hw), hv]
  exact ⟨hr, SameMemory.trans hm (SameMemory.trans (setFull_sameMemory u l false) (SameMemory.trans (follow_sameMemory _ l _ true) hm')),
    (hbits l).trans (full_setFull_self u hl false), fun k hk => (hbits k).trans ((full_setFull_other u hl false hk).trans (hb k))⟩

/-- An access that finds its word not as it wants it: the slot parks last of the home's waiters, or issues again. -/
theorem waits_at_home {i : Instr} {s u : State} {l : Loc} {dva cop : Nat} {kind : WaitKind} {g : Bool} (hk : SlotOk s)
    (hi : exec i s = finish s (u.waitOn l dva kind cop g)) (hslot : u.curSlot = s.curSlot) (hm : SameMemory s u) (hb : SameBits s u)
    (hmay : s.mayWait = true) (hu : u.mayWait = s.mayWait ∧ u.waitRoom l = s.waitRoom l ∧ u.waitList l = s.waitList l ∧
      u.meWaiting l dva kind = s.meWaiting l dva kind) :
    (s.waitRoom l = true → ∃ t, exec i s = .next t ∧ t.cur.st = .parked ∧ t.cur.park = some .fullEmpty ∧
      t.waitList l = s.waitList l ++ [s.meWaiting l dva kind] ∧ SameMemory s t ∧ SameBits s t) ∧
    (s.waitRoom l = false → exec i s = .next (s.stop (.reissue .busy))) := by
  obtain ⟨humay, huroom, hulist, hume⟩ := hu
  rw [hi]
  refine ⟨fun hroom => ?_, fun hroom => ?_⟩
  · rw [waitOn_ok (humay.trans hmay) (huroom.trans hroom), hume]
    exact ⟨_, rfl, parked_last hk hslot hm hb hulist⟩
  · rw [waitOn_busy (humay.trans hmay) (huroom.trans hroom)]
    rfl

end Sys2Proof.Machine

namespace Sys2Proof.Proofs

open Sys2Proof Sys2Proof.Machine

/-- Settles O29: at its home an access is one touch of the word's line, then the word, its bit and its waiters; a fill's pass over the
waiters serves the parked LDX, and finds the word empty for the others. -/
theorem fullEmptyWords : Obligations.FullEmptyWords := by
  unfold Obligations.FullEmptyWords
  refine ⟨fun s d a c m imm l dva hk hs hl => ?_, fun s d a c m imm l dva hk hs hl => ?_,
    fun s core off slot d v dva at' w pre post hslot hoff ho hw hws hpre hpost hq => ?_⟩
  · have hu (w : Bool) := serveMe_undisturbed s l w w
    have hm (w : Bool) := serveMe_sameMemory s l w w
    have hb (w : Bool) := serveMe_full s l w w
    refine ⟨fun hloc hclean => ?_, fun hloc hclean hfull => ?_, fun hloc hclean hfull => ?_, fun hloc hfull hmay => ?_,
      fun hloc hfull hmay => ?_⟩
    · obtain ⟨hr, hmem, hbits⟩ := answers_read (d := d) hk (hu false) (hm false) (hb false) false
      exact ⟨_, congrArg (finish s) (ldh_home hs hl d hloc hclean.2), hr, hmem, hbits l, fun k _ => hbits k⟩
    · obtain ⟨hr, hmem, hbits⟩ := answers_read (d := d) hk (hu false) (hm false) (hb false) true
      have hldf := ldf_home hs hl d hloc
      rw [if_pos ((hb false l).trans hfull), hclean.2, if_neg Bool.false_ne_true] at hldf
      exact ⟨_, congrArg (finish s) hldf, hr, hmem, (hbits l).trans hfull, fun k _ => hbits k⟩
    · have hldx := ldx_home hs hl d hloc
      rw [if_pos ((hb true l).trans hfull), hclean.2, if_neg Bool.false_ne_true] at hldx
      exact ⟨_, congrArg (finish s) hldx,
        answers_taken hk hl hclean.1 (hu true) (hm true) (hb true) (serveMe_rdWord s l true true)⟩
    · have hldf := ldf_home hs hl d hloc
      rw [if_neg (by rw [hb false l, hfull]; exact Bool.false_ne_true)] at hldf
      obtain ⟨hmw, hroom, hlist, hme⟩ := serveMe_waitOn s l false false
      obtain ⟨hpark, hbusy⟩ := waits_at_home (i := .ldf d a c m imm) hk (congrArg (finish s) hldf) (hu false).slot (hm false) (hb false)
        hmay ⟨hmw, hroom, hlist, hme dva (.ldf d)⟩
      refine ⟨fun h => ?_, hbusy⟩
      obtain ⟨t, ht, hst, hp, hl', hmem, hbits⟩ := hpark h
      exact ⟨t, ht, hst, hp, hl', hmem, (hbits l).trans hfull⟩
    · have hldx := ldx_home hs hl d hloc
      rw [if_neg (by rw [hb true l, hfull]; exact Bool.false_ne_true)] at hldx
      obtain ⟨hmw, hroom, hlist, hme⟩ := serveMe_waitOn s l true true
      obtain ⟨hpark, hbusy⟩ := waits_at_home (i := .ldx d a c m imm) hk (congrArg (finish s) hldx) (hu true).slot (hm true) (hb true)
        hmay ⟨hmw, hroom, hlist, hme dva (.ldx d)⟩
      refine ⟨fun h => ?_, hbusy⟩
      obtain ⟨t, ht, hst, hp, hl', hmem, hbits⟩ := hpark h
      exact ⟨t, ht, hst, hp, hl', hmem, (hbits l).trans hfull⟩
  · refine ⟨fun hloc hfull hw => ?_, fun hloc hfull hmay => ?_, fun hloc hw => ?_, fun hloc hw => ?_⟩
    · have hstf := stf_home hs hl (s.src d) hloc
      rw [if_neg (by rw [hfull]; exact Bool.false_ne_true)] at hstf
      exact ⟨_, congrArg (finish s) hstf, filled_leaves hk hl hw (s.src d)⟩
    · have hstf := stf_home hs hl (s.src d) hloc
      rw [if_pos hfull] at hstf
      obtain ⟨hpark, hbusy⟩ := waits_at_home (i := .stf d a c m imm) hk (congrArg (finish s) hstf) rfl (sameMemory_refl s) (.refl s)
        hmay ⟨rfl, rfl, rfl, rfl⟩
      refine ⟨fun h => ?_, hbusy⟩
      obtain ⟨t, ht, hst, -, hl', hmem, -⟩ := hpark h
      exact ⟨t, ht, hst, hl', hmem⟩
    · exact ⟨_, congrArg (finish s) (stfa_home hs hl (s.src d) hloc), filled_leaves hk hl hw (s.src d)⟩
    · have hset := (serveMe_undisturbed s l true true).trans (setFull_undisturbed (s.serveMe l true true) l false)
      obtain ⟨hr, hmem, hbits⟩ := answered hk hset []
      refine ⟨_, congrArg (finish s) (feclr_home hs hl hloc hw), hr, ?_, (hbits l).trans (full_setFull_self _ hl false), fun k hk' => ?_⟩
      · exact SameMemory.trans (serveMe_sameMemory s l true true) (SameMemory.trans (setFull_sameMemory _ l false) hmem)
      · exact (hbits k).trans ((full_setFull_other _ hl false hk').trans (serveMe_full s l true true k))
  · subst hw
    exact fill_serves_ldx hslot hoff ho hws hpre hpost hq (clusterOf core)

end Sys2Proof.Proofs
end

section
/-!
AWAIT: O35.
-/
namespace Sys2Proof.Machine

open Sys2Proof

/-! ## A renegotiation point and an acquire -/

/-- A change of one slot leaves in every core what is not a slot. -/
theorem State.core_modSlot_keeps {α : Type} (s : State) (core k : Nat) (f : Slot → Slot) (p : Core → α)
    (h : ∀ c slots, p { c with slots := slots } = p c) (n : Nat) : p ((s.modSlot core k f).core n) = p (s.core n) := by
  rw [State.modSlot, State.setSlot, State.core_setCore]
  split
  · next hn => subst hn; exact h _ _
  · rfl

/-- The service of an access at its home is a change of the memory's hierarchy alone. -/
theorem serveMe_frame (s : State) (l : Loc) (w inval : Bool) :
    ∃ h p q, s.serveMe l w inval = { s with hier := h, memPoison := p, ports := q } :=
  touch_frame s l w s.cl [] (s.pasidOf s.cur.launch) inval

/-- A change of one slot that keeps what a strand is leaves the strand, the waiters and the launches. -/
theorem undisturbed_modSlot (s : State) (core k : Nat) (f : Slot → Slot)
    (h : ∀ x, (f x).s = x.s ∧ (f x).p = x.p ∧ (f x).c = x.c ∧ (f x).pc = x.pc ∧ (f x).status = x.status) :
    Undisturbed s (s.modSlot core k f) := by
  refine ⟨rfl, ?_, rfl, fun n => ?_, rfl⟩
  · have hcur : (s.modSlot core k f).cur = s.cur ∨ (s.modSlot core k f).cur = f s.cur := by
      show (s.modSlot core k f).slot s.curCore s.curSlot = _ ∨ (s.modSlot core k f).slot s.curCore s.curSlot = _
      rw [State.slot_modSlot]
      split
      · next hk => obtain ⟨rfl, rfl, -⟩ := hk; exact .inr rfl
      · exact .inl rfl
    obtain hc | hc := hcur
    · exact sameStrand_of_cur hc
    · rw [SameStrand, hc]
      exact h s.cur
  · exact s.core_modSlot_keeps core k f Core.waiters (fun _ _ => rfl) n

/-- A grant is left as it is, or reduced in its slot alone (R157). -/
theorem renegotiate_cases (s : State) (core slot : Nat) : s.renegotiate core slot = s ∨
    ∃ groups n, s.renegotiate core slot = ({ s with tick := s.tick + 1 } : State).modSlot core slot fun x => x.keep groups n := by
  unfold State.renegotiate
  dsimp only
  split
  · exact .inl rfl
  · exact .inr ⟨_, _, rfl⟩

theorem renegotiate_undisturbed (s : State) (core slot : Nat) : Undisturbed s (s.renegotiate core slot) := by
  obtain h | ⟨groups, n, h⟩ := renegotiate_cases s core slot <;> rw [h]
  · exact .refl s
  · have hu := undisturbed_modSlot { s with tick := s.tick + 1 } core slot (fun x => x.keep groups n) fun _ => ⟨rfl, rfl, rfl, rfl, rfl⟩
    exact ⟨hu.slot, hu.strand, hu.waiters, hu.coreWaiters, hu.launches⟩

theorem renegotiate_sameMemory (s : State) (core slot : Nat) : SameMemory s (s.renegotiate core slot) := by
  obtain h | ⟨groups, n, h⟩ := renegotiate_cases s core slot <;> rw [h]
  · exact sameMemory_refl s
  · exact sameMemory_modSlot { s with tick := s.tick + 1 } core slot _

/-- What a reduction of a grant leaves as it is in its slot. -/
theorem renegotiate_keeps {α : Type} (s : State) (core slot : Nat) (p : Slot → α) (h : ∀ x groups n, p (Slot.keep x groups n) = p x) :
    p ((s.renegotiate core slot).slot core slot) = p (s.slot core slot) := by
  obtain e | ⟨groups, n, e⟩ := renegotiate_cases s core slot <;> rw [e]
  rw [State.slot_modSlot]
  split
  · exact h _ _ _
  · rfl

theorem closeGroups_of_no_tenants {s : State} (h : s.tenants = []) (x : Slot) (join : Nat) : s.closeGroups x join = s := by
  unfold State.closeGroups
  split
  · rfl
  · rw [h, if_neg (by simp [Sparse.keys])]

/-- An acquire leaves read-only lines alone in the core's L1. -/
theorem selfInvalidate_l1 (s : State) (core : Nat) : ∀ x ∈ ((s.selfInvalidate core).core core).l1, x.2.ro = true := by
  intro x hx
  rw [State.selfInvalidate, State.core_modCore_same] at hx
  exact (List.mem_filter.mp hx).2

/-- A completed AWAIT: the next interval, and an acquire; the strand and memory are as they were. -/
theorem awaitDone_leaves {s : State} (hk : SlotOk s) (ht : s.tenants = []) (join : Nat) :
    Undisturbed s (s.awaitDone s.curCore s.curSlot join) ∧ SameMemory s (s.awaitDone s.curCore s.curSlot join) ∧
      (s.awaitDone s.curCore s.curSlot join).cur.ival = nextIval s.cur.ival ∧
      (∀ x ∈ ((s.awaitDone s.curCore s.curSlot join).core s.curCore).l1, x.2.ro = true) ∧
      (s.awaitDone s.curCore s.curSlot join).curCore = s.curCore := by
  set u := s.modSlot s.curCore s.curSlot fun x => { x with ival := nextIval x.ival } with hu
  have heq : s.awaitDone s.curCore s.curSlot join = (u.renegotiate s.curCore s.curSlot).selfInvalidate s.curCore := by
    have hc : u.closeGroups (u.slot s.curCore s.curSlot) join = u := closeGroups_of_no_tenants (s := u) ht _ _
    unfold State.awaitDone
    dsimp only
    rw [← hu, hc]
  have hun : Undisturbed s u := undisturbed_modSlot s _ _ _ fun _ => ⟨rfl, rfl, rfl, rfl, rfl⟩
  have hival : (u.slot s.curCore s.curSlot).ival = nextIval s.cur.ival := by
    rw [hu, State.slot_modSlot_same _ _ _ _ hk]
    rfl
  obtain ⟨b, hb⟩ := selfInvalidate_slot (u.renegotiate s.curCore s.curSlot) s.curCore s.curCore s.curSlot
  have hcs := ((hun.trans (renegotiate_undisturbed u s.curCore s.curSlot)).trans (selfInvalidate_undisturbed _ s.curCore))
  have hcc : ((u.renegotiate s.curCore s.curSlot).selfInvalidate s.curCore).curCore = s.curCore := by
    obtain h | ⟨groups, n, h⟩ := renegotiate_cases u s.curCore s.curSlot <;> rw [h] <;> rfl
  rw [heq]
  refine ⟨hcs, ?_, ?_, selfInvalidate_l1 _ s.curCore, hcc⟩
  · exact SameMemory.trans (sameMemory_modSlot s _ _ _)
      (SameMemory.trans (renegotiate_sameMemory u _ _) (selfInvalidate_sameMemory _ s.curCore))
  · rw [State.cur, hcc, hcs.slot, hb]
    exact (renegotiate_keeps u _ _ Slot.ival fun _ _ _ => rfl).trans hival

/-! ## AWAIT at the home of its word -/

theorem atHome_quiet {s : State} (hs : StoresIn s) (l : Loc) (w : Bool) : s.atHome l w = .ok (s.serveMe l w w) := by
  rw [State.atHome, ownFirst_quiet hs]
  rfl

theorem awaitJoin_home {s : State} {a : Reg} {c : CapIx} {dva : Nat} {l : Loc} (hs : StoresIn s)
    (hdva : s.deviceDva c (s.src a) true false = .ok dva) (hp : s.cur.packet = none) (hx : s.xlate dva .read = .ok l)
    (hq : s.cur.seq = []) (hclean : (s.serveMe l false false).poisonedAt l 8 = false) :
    s.awaitJoin a c = if s.rdWord l = 0 then
        .ok (((s.serveMe l false false).awaitDone (s.serveMe l false false).curCore (s.serveMe l false false).curSlot dva).replyWith [])
      else (s.serveMe l false false).waitOn l dva .await 0x17 true := by
  rw [State.awaitJoin, hdva, ok_bind, need_of_true (by simp [hp]), ok_bind, hx, ok_bind]
  simp only [hp, Option.isSome_none, Bool.false_eq_true, if_false]
  rw [seqEmpty_ok hq, ok_bind, atHome_quiet hs, ok_bind, hclean, if_neg Bool.false_ne_true, serveMe_rdWord]

theorem waitRoom_of_noWaiters {s : State} (hw : NoWaiters s) (l : Loc) : s.waitRoom l = true := by
  obtain ⟨hmem, hlm⟩ := hw
  cases l <;> simp [State.waitRoom, hmem, hlm]

/-- A wait of the handler slot for an answer of the home (R89). -/
theorem waitOn_handler {s : State} (h : s.curSlot = 14) (l : Loc) (dva : Nat) (kind : WaitKind) (cop : Nat) :
    s.waitOn l dva kind cop true = .error (.answer clsHblk cop) := by
  rw [State.waitOn, State.mayPark, need_of_false (show (s.curSlot != 14) = false by simp [h])]
  rfl

end Sys2Proof.Machine

namespace Sys2Proof.Proofs

open Sys2Proof Sys2Proof.Machine

/-- Settles O35: one touch of the word's line, then the count decides. -/
theorem awaitWaitsForZero : Obligations.AwaitWaitsForZero := by
  unfold Obligations.AwaitWaitsForZero
  intro s a c g dva pa cl key tr hk hg hs hw hdva hp hx hq hclean
  have hhome := awaitJoin_home hs hdva hp hx hq hclean
  have hu := serveMe_undisturbed s (.mem pa tr cl key) false false
  have hm := serveMe_sameMemory s (.mem pa tr cl key) false false
  obtain ⟨hh, pp, qq, hframe⟩ := serveMe_frame s (.mem pa tr cl key) false false
  obtain ⟨hmw, -, hlist, hme⟩ := serveMe_waitOn s (.mem pa tr cl key) false false
  refine ⟨fun h0 ht => ?_, fun h0 h14 => ?_, fun h0 h14 => ?_⟩
  · rw [if_pos h0] at hhome
    set u := s.serveMe (.mem pa tr cl key) false false with hu'
    have hku : SlotOk u := by rw [SlotOk, hu.slot]; exact hk
    have htu : u.tenants = [] := by rw [hframe]; exact ht
    have hcu : u.cur = s.cur ∧ u.curCore = s.curCore := by rw [hframe]; exact ⟨rfl, rfl⟩
    obtain ⟨hud, hmd, hival, hl1, hcc⟩ := awaitDone_leaves hku htu dva
    obtain ⟨hr, hm', -⟩ := answered hk (hu.trans hud) []
    refine ⟨_, exec_served rfl hg hhome, hr, SameMemory.trans hm (SameMemory.trans hmd hm'), ?_, ?_⟩
    · rw [served_keeps _ Slot.ival fun _ => rfl, replyWith_keeps _ _ Slot.ival fun _ => rfl, hival, hcu.1]
    · have hkeep : (served ((u.awaitDone u.curCore u.curSlot dva).replyWith [])).here.l1 =
          ((u.awaitDone u.curCore u.curSlot dva).core u.curCore).l1 := by
        rw [State.here, served_curCore, replyWith_curCore, hcc]
        exact (State.core_modSlot_keeps _ _ _ _ Core.l1 (fun _ _ => rfl) _).trans
          (State.core_modSlot_keeps _ _ _ _ Core.l1 (fun _ _ => rfl) _)
      rw [hkeep]
      exact hl1
  · rw [if_neg h0, waitOn_ok (hmw.trans ((mayWait_iff s).mpr ⟨h14, hp⟩)) (waitRoom_of_noWaiters (hu.noWaiters hw) _), hme] at hhome
    obtain ⟨hst, hpk, hlast, hmem, -⟩ := parked_last (w := s.meWaiting (.mem pa tr cl key) dva .await) hk hu.slot hm
      (serveMe_full s (.mem pa tr cl key) false false) hlist
    exact ⟨_, exec_served rfl hg hhome, hst, hpk, by simpa [State.waitList, hw.1, State.meWaiting] using hlast, hmem⟩
  · rw [if_neg h0, waitOn_handler (hu.slot.trans h14)] at hhome
    exact exec_stops rfl hg hhome

end Sys2Proof.Proofs
end

section
/-!
Gangs and grants: O38.
-/
namespace Sys2Proof.Machine

open Sys2Proof

/-! ## GANG and UNGANG (R80, R81) -/

theorem sameStrand_served (s : State) : SameStrand s (served s) :=
  ⟨served_keeps s Slot.s fun _ => rfl, served_keeps s Slot.p fun _ => rfl, served_keeps s Slot.c fun _ => rfl,
    served_keeps s Slot.pc fun _ => rfl, served_keeps s Slot.status fun _ => rfl⟩

theorem State.slot_modSlot_other (s : State) {core k core' k' : Nat} (f : Slot → Slot) (h : core ≠ core' ∨ k ≠ k') :
    (s.modSlot core k f).slot core' k' = s.slot core' k' := by
  rw [State.slot_modSlot, if_neg]
  rintro ⟨rfl, rfl, -⟩
  exact h.elim (fun e => e rfl) fun e => e rfl

/-- The lane groups that qualify for the next slot with the registers of this one. -/
def State.oddGroups (s : State) : List Nat := (List.range 16).filter fun n => s.groupFree s.curCore (s.curSlot + 1) s.cur.allot n

theorem gangUp_waits {s : State} (hc : s.cur.coupled = false) (hq : s.cur.seq ≠ []) : s.gangUp = .error (.reissue .seqEmpty) := by
  unfold State.gangUp
  dsimp only
  rw [need_of_true (by simp [hc]), ok_bind, notCoupled_ok hc, ok_bind, seqEmpty_waits hq, error_bind]

theorem gangUp_traps {s : State} (hc : s.cur.coupled = false) (hq : s.cur.seq = []) (hk : s.curSlot % 2 = 1 ∨ 14 ≤ s.curSlot) :
    s.gangUp = .error (.trap clsAllot 0) := by
  have hbad : (decide (s.curSlot < 14) && s.curSlot % 2 == 0) = false := by
    obtain h | h := hk
    · simp [h]
    · simp [Nat.not_lt.mpr h]
  unfold State.gangUp
  dsimp only
  rw [need_of_true (by simp [hc]), ok_bind, notCoupled_ok hc, ok_bind, seqEmpty_ok hq, ok_bind, need_of_false (by rw [hbad]; rfl), error_bind]

/-- The next slot GANGED, with as many lane groups. -/
def State.withOdd (s : State) : State :=
  s.modSlot s.curCore (s.curSlot + 1) fun y =>
    { y.vacate .ganged with groups := s.oddGroups.take s.cur.groups.length, allot := s.cur.allot }

theorem gangUp_takes {s : State} {e : Nat} (hc : s.cur.coupled = false) (hk : s.curSlot < 14) (heven : s.curSlot % 2 = 0)
    (hfree : (s.slot s.curCore (s.curSlot + 1)).st = .free) (hq : s.cur.seq = [])
    (hb : s.belongs s.curCore (s.curSlot + 1) (s.cur.launch.getD 0) = true) (hg : s.cur.groups.length ≤ s.oddGroups.length)
    (hmine : issueEntries s.here.alm.toList s.curSlot = [e])
    (hnext : issueEntries s.here.alm.toList (s.curSlot + 1) = [(e + 1) % 16]) :
    s.gangUp = .ok s.withOdd := by
  have hpair : s.pairedOdd s.curCore s.curSlot = false := by simp [State.pairedOdd, hfree]
  have hlen := hg
  unfold State.oddGroups at hlen
  unfold State.gangUp
  dsimp only
  rw [need_of_true (by simp [hc]), ok_bind, notCoupled_ok hc, ok_bind, seqEmpty_ok hq, ok_bind,
    need_of_true (by simp [hk, heven, hfree, hb, hmine, hnext, hlen]), ok_bind, hpair, if_neg Bool.false_ne_true]
  rfl

theorem ungangUp_eq {s : State} (hq : s.cur.seq = []) :
    s.ungangUp = .ok (if s.cur.gang then s.splitGang s.curCore s.curSlot else s) := by
  rw [State.ungangUp, seqEmpty_ok hq, ok_bind]

theorem ungangUp_waits {s : State} (hq : s.cur.seq ≠ []) : s.ungangUp = .error (.reissue .seqEmpty) := by
  rw [State.ungangUp, seqEmpty_waits hq, error_bind]

/-- A gang that ends leaves the strand as it is, and the odd slot FREE. -/
theorem splitGang_leaves {s : State} (hk : s.curSlot < 15) :
    SameStrand s (s.splitGang s.curCore s.curSlot) ∧ (s.splitGang s.curCore s.curSlot).cur.gang = false ∧
      (s.splitGang s.curCore s.curSlot).slot s.curCore (s.curSlot + 1) = (s.slot s.curCore (s.curSlot + 1)).vacate .free := by
  have hcur : (s.splitGang s.curCore s.curSlot).cur = { s.cur with gang := false } := by
    show ((s.freeOdd s.curCore s.curSlot).modSlot _ _ _).slot s.curCore s.curSlot = _
    rw [State.slot_modSlot_same _ _ _ _ (by omega), State.freeOdd, State.slot_modSlot_other _ _ (.inr (by omega))]
    rfl
  refine ⟨by simp only [SameStrand, hcur, and_self], by rw [hcur], ?_⟩
  rw [State.splitGang, State.slot_modSlot_other _ _ (.inr (by omega)), State.freeOdd, State.slot_modSlot_same _ _ _ _ (by omega)]

/-! ## The checks that CLAIM, SHRINK and VALLOT share -/

theorem poolCheck_waits {s : State} (h : s.cur.seq ≠ []) (a : Reg) (fits alone : Bool) :
    s.poolCheck a fits alone = .error (.reissue .seqEmpty) := by rw [State.poolCheck, seqEmpty_waits h, error_bind]

theorem poolCheck_allot {s : State} (h : s.cur.seq = []) {a : Reg} {fits : Bool} (hf : s.cur.gang = true ∨ fits = false) (alone : Bool) :
    s.poolCheck a fits alone = .error (.trap clsAllot (uns s a)) := by
  rw [State.poolCheck, seqEmpty_ok h, ok_bind, need_of_false (by obtain h | h := hf <;> simp [h]), error_bind]
  rfl

theorem poolCheck_sys {s : State} (h : s.cur.seq = []) (hg : s.cur.gang = false) (hc : s.cur.coupled = true) (a : Reg) :
    s.poolCheck a true true = .error (.trap clsSys 0x10) := by
  rw [State.poolCheck, seqEmpty_ok h, ok_bind, need_of_true (by simp [hg]), ok_bind, need_of_false (by simp [hc])]

theorem poolCheck_ok {s : State} (h : s.cur.seq = []) (hg : s.cur.gang = false) {alone : Bool} (hc : alone = true → s.cur.coupled = false)
    (a : Reg) : s.poolCheck a true alone = .ok () := by
  rw [State.poolCheck, seqEmpty_ok h, ok_bind, need_of_true (by simp [hg]), ok_bind,
    need_of_true (by cases alone <;> simp_all)]

/-! ## CLAIM (R156) -/

/-- The held groups and the others that qualify, in the order in which a grant takes them. -/
def State.candidates (s : State) (core slot : Nat) : List Nat :=
  (s.slot core slot).groups ++
    (List.range 16).filter fun g => !(s.slot core slot).groups.contains g && s.groupFree core slot (s.slot core slot).allot g

theorem mem_pickGroups {s : State} {core slot q n : Nat} :
    n ∈ s.pickGroups core slot q ↔ n < 16 ∧ n ∈ (s.candidates core slot).take q := by
  simp [State.pickGroups, State.candidates, List.contains_eq_mem]

theorem pickGroups_sorted (s : State) (core slot q : Nat) : (s.pickGroups core slot q).Pairwise (· < ·) :=
  List.pairwise_lt_range.filter _

theorem pickGroups_nodup (s : State) (core slot q : Nat) : (s.pickGroups core slot q).Nodup := List.nodup_range.filter _

theorem length_pickGroups_le (s : State) (core slot q : Nat) : (s.pickGroups core slot q).length ≤ q :=
  calc (s.pickGroups core slot q).length
      _ ≤ ((s.candidates core slot).take q).length :=
        ((pickGroups_nodup s core slot q).subperm fun _ h => (mem_pickGroups.mp h).2).length_le
      _ ≤ q := by rw [List.length_take]; exact min_le_left ..

theorem groupFree_of_mem_candidates {s : State} {core slot n : Nat} (h : n ∈ s.candidates core slot) :
    n ∈ (s.slot core slot).groups ∨ s.groupFree core slot (s.slot core slot).allot n = true := by
  obtain h | h := List.mem_append.mp h
  · exact .inl h
  · exact .inr (Bool.and_eq_true_iff.mp (List.mem_filter.mp h).2).2

section Candidates

variable {s : State} {core slot : Nat} (hnd : (s.slot core slot).groups.Nodup) (hlt : ∀ n ∈ (s.slot core slot).groups, n < 16)

include hnd in
theorem candidates_nodup : (s.candidates core slot).Nodup := by
  refine List.nodup_append.mpr ⟨hnd, List.nodup_range.filter _, fun x hx y hy hxy => ?_⟩
  subst hxy
  have h := (List.mem_filter.mp hy).2
  simp [hx] at h

include hlt in
theorem candidates_lt {n : Nat} (h : n ∈ s.candidates core slot) : n < 16 := by
  obtain h | h := List.mem_append.mp h
  · exact hlt n h
  · exact List.mem_range.mp (List.mem_filter.mp h).1

include hnd hlt in
/-- The candidates are the groups of the sixteen that qualify. -/
theorem length_candidates :
    (s.candidates core slot).length = (List.range 16).countP fun n => s.groupFree core slot (s.slot core slot).allot n := by
  rw [List.countP_eq_length_filter]
  refine List.Perm.length_eq ((List.perm_ext_iff_of_nodup (candidates_nodup hnd) (List.nodup_range.filter _)).mpr fun n => ?_)
  rw [List.mem_filter, List.mem_range]
  refine ⟨fun h => ⟨candidates_lt hlt h, ?_⟩, fun ⟨h16, hf⟩ => ?_⟩
  · obtain h | h := groupFree_of_mem_candidates h
    · simp [State.groupFree, h]
    · exact h
  · by_cases hin : n ∈ (s.slot core slot).groups
    · exact List.mem_append.mpr (.inl hin)
    · exact List.mem_append.mpr (.inr (List.mem_filter.mpr ⟨List.mem_range.mpr h16, by simp [hin, hf]⟩))

include hnd hlt in
theorem length_pickGroups (q : Nat) : (s.pickGroups core slot q).length =
    min q ((List.range 16).countP fun n => s.groupFree core slot (s.slot core slot).allot n) := by
  have hperm : (s.pickGroups core slot q).Perm ((s.candidates core slot).take q) :=
    (List.perm_ext_iff_of_nodup (pickGroups_nodup s core slot q) ((candidates_nodup hnd).sublist (List.take_sublist ..))).mpr fun n =>
      mem_pickGroups.trans ⟨fun h => h.2, fun h => ⟨candidates_lt hlt (List.mem_of_mem_take h), h⟩⟩
  rw [hperm.length_eq, List.length_take, length_candidates hnd hlt]

include hlt in
theorem held_mem_pickGroups {q n : Nat} (hq : (s.slot core slot).groups.length ≤ q) (hn : n ∈ (s.slot core slot).groups) :
    n ∈ s.pickGroups core slot q := by
  refine mem_pickGroups.mpr ⟨hlt n hn, ?_⟩
  rw [State.candidates, List.take_append]
  exact List.mem_append.mpr (.inl (by rwa [List.take_of_length_le hq]))

end Candidates

/-- The slot of a strand whose grant has changed, and that has read its answer. -/
theorem cur_granted {s : State} (hk : SlotOk s) (f : Slot → Slot) (d : Reg) (v : Word) : (served ((s.modCur f).setReg d v)).cur =
    { (f s.cur).setReg d v with grants := [], since := none, walk := none, inl := none } := by
  rw [cur_served (show SlotOk ((s.modCur f).setReg d v) from hk), State.cur_setReg (show SlotOk (s.modCur f) from hk),
    State.cur_modCur s f hk]

theorem reg_granted {s : State} (hk : SlotOk s) (f : Slot → Slot) {d : Reg} (hd : d ≠ 0) (v : Word) :
    (served ((s.modCur f).setReg d v)).cur.reg d = v := by
  rw [cur_granted hk]
  show ((f s.cur).setReg d v).reg d = v
  rw [Slot.reg_setReg, if_neg (show ¬ d = 0#5 from hd), if_pos rfl]

/-- The slot of a CLAIM with the groups that it is granted. -/
def Slot.claimed (x : Slot) (got : List Nat) (q : Nat) : Slot :=
  { x.keep got (if got.isEmpty then 0 else x.allot) with want := if got.length < q then 16 * q else 0 }

theorem claim_grants {s : State} (hq : s.cur.seq = []) (hg : s.cur.gang = false) (hc : s.cur.coupled = false) (d a : Reg) :
    s.claim d a = .ok ((s.modCur fun x => x.claimed (s.pickGroups s.curCore s.curSlot (min (uns s a) 256 / 16)) (min (uns s a) 256 / 16)).setReg d
      (BitVec.ofNat 64 (16 * (s.pickGroups s.curCore s.curSlot (min (uns s a) 256 / 16)).length))) := by
  rw [State.claim, poolCheck_ok hq hg (fun _ => hc)]
  rfl

/-! ## SHRINK and VALLOT (R155, R279) -/

theorem shrink_keeps {s : State} (hq : s.cur.seq = []) (hg : s.cur.gang = false) (a : Reg) :
    s.shrink a = .ok (s.modCur fun x => x.keep x.groups (x.allot - min (uns s a) x.allot)) := by
  rw [State.shrink, poolCheck_ok hq hg (alone := false) (fun h => absurd h Bool.false_ne_true)]
  rfl

/-- A table cut to some keys reads the same at each of them. -/
theorem Sparse.get_filter {α : Type} (d : α) (p : Nat → Bool) (m : Sparse α) {k : Nat} (h : p k = true) :
    Sparse.get d (m.filter fun kv => p kv.1) k = Sparse.get d m k := by
  induction m with
  | nil => rfl
  | cons kv m ih =>
    by_cases hk : kv.1 = k
    · rw [List.filter_cons_of_pos (by rw [hk, h]), Sparse.get, Sparse.get, if_pos hk, if_pos hk]
    · by_cases hp : p kv.1 = true
      · rw [List.filter_cons_of_pos (p := fun kv : Nat × α => p kv.1) hp, Sparse.get, Sparse.get, if_neg hk, if_neg hk, ih]
      · rw [List.filter_cons_of_neg (p := fun kv : Nat × α => p kv.1) hp, ih, Sparse.get, if_neg hk]

theorem Slot.vrf_keep (x : Slot) {groups : List Nat} {n g r : Nat} (hg : g ∈ groups) (hr : r < n) (h32 : r < 32) :
    Sparse.get zeros16 (x.keep groups n).vrf (32 * g + r) = Sparse.get zeros16 x.vrf (32 * g + r) := by
  have hdiv : (32 * g + r) / 32 = g := by omega
  have hmod : (32 * g + r) % 32 = r := by omega
  exact Sparse.get_filter zeros16 (fun k => groups.contains (k / 32) && decide (k % 32 < n)) x.vrf (by simp [hdiv, hmod, hg, hr])

/-- The register count that VALLOT comes to: the greatest up to the one asked for that the rows allow. -/
def State.raised (s : State) (want : Nat) : Nat :=
  if want ≤ s.cur.allot then s.cur.allot
  else (List.range (want + 1)).foldl (fun m v => if s.cur.allot < v ∧ s.rowsFor v then v else m) s.cur.allot

/-- A value kept while a list is searched is the first one, or one of the list that meets the condition. -/
theorem foldl_last_of (p : Nat → Prop) [DecidablePred p] (l : List Nat) (m : Nat) :
    l.foldl (fun m v => if p v then v else m) m = m ∨
      l.foldl (fun m v => if p v then v else m) m ∈ l ∧ p (l.foldl (fun m v => if p v then v else m) m) := by
  induction l generalizing m with
  | nil => exact .inl rfl
  | cons v l ih =>
    rw [List.foldl_cons]
    obtain h | ⟨hin, hp⟩ := ih (if p v then v else m)
    · rw [h]
      by_cases hv : p v
      · rw [if_pos hv]
        exact .inr ⟨List.mem_cons_self, hv⟩
      · rw [if_neg hv]
        exact .inl rfl
    · exact .inr ⟨List.mem_cons_of_mem v hin, hp⟩

theorem raised_bounds (s : State) (want : Nat) : s.cur.allot ≤ s.raised want ∧ s.raised want ≤ max s.cur.allot want := by
  unfold State.raised
  split
  · exact ⟨le_refl _, le_max_left ..⟩
  · obtain h | ⟨hin, hlt, -⟩ := foldl_last_of (fun v => s.cur.allot < v ∧ s.rowsFor v = true) (List.range (want + 1)) s.cur.allot
    · rw [h]
      exact ⟨le_refl _, le_max_left ..⟩
    · exact ⟨le_of_lt hlt, le_trans (Nat.le_of_lt_succ (List.mem_range.mp hin)) (le_max_right ..)⟩

theorem raised_of_rows {s : State} {want : Nat} (h : s.cur.allot < want) (hr : s.rowsFor want = true) : s.raised want = want := by
  rw [State.raised, if_neg (Nat.not_le.mpr h), List.range_succ, List.foldl_append]
  exact if_pos ⟨h, hr⟩

/-- The slot of a VALLOT with the register count that it comes to. -/
def Slot.raisedTo (x : Slot) (n old : Nat) : Slot := { x with allot := n, regPoison := x.regPoison.filter (· < 64 + old) }

theorem vallot_raises {s : State} (hq : s.cur.seq = []) (hg : s.cur.gang = false) (hc : s.cur.coupled = false) {a : Reg}
    (h32 : uns s a ≤ 32) (d : Reg) :
    s.vallot d a = .ok ((s.modCur fun x => x.raisedTo (s.raised (uns s a)) s.cur.allot).setReg d (BitVec.ofNat 64 (s.raised (uns s a)))) := by
  have hfit : decide ((s.src a).toNat ≤ 32) = true := by simpa [uns] using h32
  rw [State.vallot, hfit, poolCheck_ok hq hg (fun _ => hc)]
  rfl

end Sys2Proof.Machine

namespace Sys2Proof.Proofs

open Sys2Proof Sys2Proof.Machine

/-- Settles O38: the checks in their order, then a grant is a sublist of the sixteen groups, and a raise the last register count of a
search that fits. -/
theorem gangsAndGrants : Obligations.GangsAndGrants := by
  unfold Obligations.GangsAndGrants
  refine ⟨fun s g hk hg => ⟨?_, ?_, ?_, ?_, ?_, ?_⟩, fun s d a g hk hg => ⟨?_, ?_, ?_, ?_, fun hq hgang => ⟨?_, ?_, ?_⟩⟩⟩
  · exact fun hc hq => exec_stops rfl hg (gangUp_waits hc hq)
  · exact fun hq => exec_stops rfl hg (ungangUp_waits hq)
  · exact fun hc hq hodd => exec_stops rfl hg (gangUp_traps hc hq hodd)
  · intro hc hlt heven hfree hq hb hlen ⟨e, hmine, hnext⟩
    have hne : (s.curCore, s.curSlot + 1) ≠ (s.curCore, s.curSlot) := by simp
    have hodd : (served s.withOdd).slot s.curCore (s.curSlot + 1) = _ :=
      (slot_served_other (s := s.withOdd) hne).trans (State.slot_modSlot_same _ _ _ _ (by omega))
    have hcur : s.withOdd.cur = s.cur := State.slot_modSlot_other s _ (.inr (Nat.succ_ne_self _))
    refine ⟨_, exec_served rfl hg (gangUp_takes hc hlt heven hfree hq hb hlen hmine hnext), ?_, ?_,
      SameStrand.trans (sameStrand_of_cur hcur) (sameStrand_served _)⟩ <;> rw [hodd] <;> rfl
  · exact fun hgang hq => exec_served rfl hg ((ungangUp_eq hq).trans (by rw [if_neg (by simp [hgang])]))
  · intro hgang hq heven
    have h15 : s.curSlot < 15 := by unfold SlotOk at hk; omega
    obtain ⟨hsame, hoff, hodd⟩ := splitGang_leaves h15
    have hne : (s.curCore, s.curSlot + 1) ≠ (s.curCore, s.curSlot) := by simp
    have hodd' : (served (s.splitGang s.curCore s.curSlot)).slot s.curCore (s.curSlot + 1) =
      (s.slot s.curCore (s.curSlot + 1)).vacate .free := (slot_served_other (s := s.splitGang s.curCore s.curSlot) hne).trans hodd
    refine ⟨_, exec_served rfl hg ((ungangUp_eq hq).trans (by rw [if_pos hgang])), ?_, ?_, ?_, SameStrand.trans hsame (sameStrand_served _)⟩
    · exact (served_keeps _ Slot.gang fun _ => rfl).trans hoff
    · rw [hodd']
      rfl
    · rw [hodd']
      rfl
  · intro hq
    exact ⟨exec_stops rfl hg (by rw [State.claim, poolCheck_waits hq, error_bind]),
      exec_stops rfl hg (by rw [State.shrink, poolCheck_waits hq, error_bind]),
      exec_stops rfl hg (by rw [State.vallot, poolCheck_waits hq, error_bind])⟩
  · intro hq hgang
    exact ⟨exec_stops rfl hg (by rw [State.claim, poolCheck_allot hq (.inl hgang), error_bind]),
      exec_stops rfl hg (by rw [State.shrink, poolCheck_allot hq (.inl hgang), error_bind]),
      exec_stops rfl hg (by rw [State.vallot, poolCheck_allot hq (.inl hgang), error_bind])⟩
  · intro hq h32
    exact exec_stops rfl hg (by rw [State.vallot, poolCheck_allot hq (.inr (by simpa [uns] using h32)), error_bind])
  · intro hq hgang hc
    refine ⟨exec_stops rfl hg (by rw [State.claim, poolCheck_sys hq hgang hc, error_bind]), fun h32 => exec_stops rfl hg ?_⟩
    rw [State.vallot, show decide ((s.src a).toNat ≤ 32) = true by simpa [uns] using h32, poolCheck_sys hq hgang hc, error_bind]
  · intro hc
    set q := min (uns s a) 256 / 16 with hqq
    have hcur := cur_granted hk (fun x => x.claimed (s.pickGroups s.curCore s.curSlot q) q) d
      (BitVec.ofNat 64 (16 * (s.pickGroups s.curCore s.curSlot q).length))
    set got := s.pickGroups s.curCore s.curSlot q with hgot
    set t := served ((s.modCur fun x => x.claimed got q).setReg d (BitVec.ofNat 64 (16 * got.length))) with ht
    have hgroups : t.cur.groups = got := by rw [hcur]; exact Slot.setReg_groups ..
    have hallot : t.cur.allot = if got.isEmpty then 0 else s.cur.allot := by rw [hcur]; exact Slot.setReg_allot ..
    have hwant : t.cur.want = if got.length < q then 16 * q else 0 := by rw [hcur]; exact Slot.setReg_want ..
    refine ⟨t, exec_served rfl hg (claim_grants hq hgang hc d a), fun hd => ?_, ?_, ?_, ?_, fun hnd hlt => ⟨?_, fun hle n hn => ?_⟩,
      fun hnil => ?_, fun hnil => ?_, ?_⟩
    · rw [hgroups]
      exact reg_granted hk _ hd _
    · rw [hgroups]
      exact length_pickGroups_le ..
    · rw [hgroups]
      exact pickGroups_sorted ..
    · rw [hgroups]
      exact fun n hn => groupFree_of_mem_candidates (List.mem_of_mem_take (mem_pickGroups.mp hn).2)
    · rw [hgroups]
      exact length_pickGroups hnd hlt q
    · rw [hgroups]
      exact held_mem_pickGroups hlt hle hn
    · rw [hallot, ← hgroups, hnil]
      rfl
    · rw [hallot, ← hgroups, if_neg (by simpa using hnil)]
    · rw [hwant, hgroups]
  · refine ⟨_, exec_served rfl hg (shrink_keeps hq hgang a), ?_⟩
    rw [cur_served (s := s.modCur _) hk, State.cur_modCur s _ hk]
    refine ⟨?_, rfl, fun r hr h32 n hn => Slot.vrf_keep _ hn hr h32⟩
    show s.cur.allot - min (uns s a) s.cur.allot = s.cur.allot - uns s a
    omega
  · intro hc h32
    have hallot : (served ((s.modCur fun x => x.raisedTo (s.raised (uns s a)) s.cur.allot).setReg d (BitVec.ofNat 64 (s.raised (uns s a))))).cur.allot =
        s.raised (uns s a) := by
      rw [cur_granted hk]
      exact Slot.setReg_allot ..
    refine ⟨_, exec_served rfl hg (vallot_raises hq hgang hc h32 d), ?_⟩
    rw [hallot]
    exact ⟨fun hd => reg_granted hk _ hd _, (raised_bounds s _).1, (raised_bounds s _).2, fun hlt hr => raised_of_rows hlt hr⟩

end Sys2Proof.Proofs
end

section
/-!
What the hardware's own work leaves alone: walks at once, drains that meet their rows, posted stores that change their owner, and a kill.
-/
namespace Sys2Proof.Machine

open Sys2Proof

/-! ## Walks at once (R103) -/

/-- A change of the memory's hierarchy, the poison that it finds, the links to the host and the clusters' ports alone. -/
def ByWalk (s t : State) : Prop := ∃ h p q c, t = { s with hier := h, memPoison := p, ports := q, clusters := c }

theorem ByWalk.refl (s : State) : ByWalk s s := ⟨_, _, _, _, rfl⟩

theorem ByWalk.trans {r s t : State} (h : ByWalk r s) (h' : ByWalk s t) : ByWalk r t := by
  obtain ⟨_, _, _, _, rfl⟩ := h
  obtain ⟨_, _, _, _, rfl⟩ := h'
  exact ⟨_, _, _, _, rfl⟩

theorem ByWalk.cores {s t : State} (h : ByWalk s t) : t.cores = s.cores := by
  obtain ⟨_, _, _, _, rfl⟩ := h
  rfl

theorem touch_byWalk (s : State) (l : Loc) (w : Bool) (cl : Nat) (bs : List Byte) (pasid : Option (BitVec 20)) (inval : Bool) :
    ByWalk s (s.touch l w cl bs pasid inval) := by
  obtain ⟨h, p, q, e⟩ := touch_frame s l w cl bs pasid inval
  exact ⟨h, p, q, s.clusters, e⟩

theorem touchLines_byWalk (s : State) (l : Loc) (n : Nat) (w : Bool) (cl : Nat) (bs : List Byte) (pasid : Option (BitVec 20))
    (inval : Bool) : ByWalk s (s.touchLines l n w cl bs pasid inval) := by
  obtain ⟨h, p, q, e⟩ := touchLines_frame s l n w cl bs pasid inval
  exact ⟨h, p, q, s.clusters, e⟩

theorem walkFrom_byWalk (s : State) (cl asid dva table level fuel : Nat) : ByWalk s (s.walkFrom cl asid dva table level fuel).1 := by
  induction fuel generalizing s table level with
  | zero => exact .refl s
  | succ fuel ih =>
    have ht := touch_byWalk s (pteLoc table (walkIndex level dva)) false cl [] none false
    unfold State.walkFrom
    dsimp only
    split
    · exact ht
    split
    · exact ht
    split
    · exact ht
    split
    · split <;> exact ht
    split
    · exact ht
    · exact ht.trans (ih _ _ _)

theorem walk_byWalk (s : State) (core asid dva : Nat) : ByWalk s (s.walk core asid dva).1 := by
  unfold State.walk
  split
  · exact .refl s
  · exact walkFrom_byWalk s ..

theorem install_byWalk (s : State) (core : Nat) (e : TlbEntry) : ByWalk s (s.install core e) := ⟨_, _, _, _, rfl⟩

theorem xlateNow_byWalk (s : State) (core asid dva : Nat) (read write : Bool) : ByWalk s (s.xlateNow core asid dva read write).1 := by
  have hw := walk_byWalk s core asid dva
  unfold State.xlateNow
  dsimp only
  split
  · split <;> exact .refl s
  · split
    · next t e h =>
      rw [h] at hw
      split <;> exact hw.trans (install_byWalk t core e)
    · next h => rw [h] at hw; exact hw
    · next h => rw [h] at hw; exact hw

theorem loadCaps_byWalk (s : State) (core : Nat) (l : Launch) (is : List Nat) : ByWalk s (s.loadCaps core l is).1 := by
  induction is generalizing s with
  | nil => exact .refl s
  | cons i is ih =>
    have hx := xlateNow_byWalk s core l.asid (l.entryDva i) true false
    unfold State.loadCaps
    split
    · next t place h =>
      rw [h] at hx
      exact hx.trans ((touchLines_byWalk t place 32 false (clusterOf core) [] _ false).trans (ih _))
    · next t cause h =>
      rw [h] at hx
      exact hx.trans (ih _)

/-! ## Drains that meet their rows (R160) -/

/-- A change of a core's store path, its L1, and its slots' drains and rows alone. -/
structure Drained (c d : Core) : Prop where
  rest : ∃ path l1 slots, d = { c with path := path, l1 := l1, slots := slots }
  slot : ∀ k, ∃ drains rows, d.slot k = { c.slot k with drains := drains, sqRows := rows }

theorem Drained.refl (c : Core) : Drained c c := ⟨⟨_, _, _, rfl⟩, fun _ => ⟨_, _, rfl⟩⟩

theorem Drained.trans {b c d : Core} (h : Drained b c) (h' : Drained c d) : Drained b d := by
  refine ⟨?_, fun k => ?_⟩
  · obtain ⟨_, _, _, e⟩ := h.rest
    obtain ⟨_, _, _, e'⟩ := h'.rest
    rw [e', e]
    exact ⟨_, _, _, rfl⟩
  · obtain ⟨_, _, e⟩ := h.slot k
    obtain ⟨_, _, e'⟩ := h'.slot k
    rw [e', e]
    exact ⟨_, _, rfl⟩

theorem enter_drained (c : Core) (p : PathStore) : Drained c (c.enter p) := by
  unfold Core.enter Core.refreshL1
  split <;> exact ⟨⟨_, _, _, rfl⟩, fun _ => ⟨_, _, rfl⟩⟩

theorem foldl_drained {α : Type} (f : Core → α → Core) (h : ∀ c x, Drained c (f c x)) (xs : List α) (c : Core) :
    Drained c (xs.foldl f c) := by
  induction xs generalizing c with
  | nil => exact .refl c
  | cons x xs ih => exact (h c x).trans (ih (f c x))

theorem setSlot_drained {c : Core} {k : Nat} {x : Slot} (h : c.slot k = x) (drains : Vector (List Drain) 2)
    (rows : Vector (List (List Half)) 2) : Drained c (c.setSlot k { x with drains := drains, sqRows := rows }) := by
  subst h
  refine ⟨⟨_, _, _, rfl⟩, fun j => ?_⟩
  rw [Core.slot_setSlot]
  split
  · next h => obtain ⟨rfl, -⟩ := h; exact ⟨_, _, rfl⟩
  · exact ⟨_, _, rfl⟩

theorem enter_slots (c : Core) (p : PathStore) : (c.enter p).slots = c.slots := by
  unfold Core.enter Core.refreshL1
  split <;> rfl

theorem foldl_enter_slot (ps : List PathStore) (c : Core) (k : Nat) : (ps.foldl Core.enter c).slot k = c.slot k := by
  have h : (ps.foldl Core.enter c).slots = c.slots := by
    induction ps generalizing c with
    | nil => rfl
    | cons p ps ih => exact (ih (c.enter p)).trans (enter_slots c p)
  rw [Core.slot, h, Core.slot]

theorem drainOne_drained {c d : Core} {k q : Nat} (h : c.drainOne k q = some d) : Drained c d := by
  unfold Core.drainOne at h
  dsimp only at h
  split at h
  · split at h
    · exact absurd h nofun
    · cases h
      exact (foldl_drained Core.enter enter_drained _ c).trans (setSlot_drained (foldl_enter_slot _ c k) _ _)
  · exact absurd h nofun

theorem drainRows_drained (c : Core) (k : Nat) : Drained c (c.drainRows k) := by
  have hgo : ∀ (n : Nat) (c : Core), Drained c (Core.drainRows.go k c n) := by
    intro n
    induction n with
    | zero => exact fun c => .refl c
    | succ n ih =>
      intro c
      unfold Core.drainRows.go
      split
      · next d h => exact (drainOne_drained h).trans (ih d)
      · exact .refl c
  exact hgo 17 c

theorem drainAll_drained (c : Core) : Drained c c.drainAll :=
  foldl_drained _ (fun c k => by
    split
    · exact .refl c
    · exact drainRows_drained c k) _ c

/-! ## The owners of posted stores (R116, R127) -/

/-- A change of a slot's count of STGs. -/
theorem countStgs_slot (s : State) (o : StgOwner) (core k : Nat) :
    ∃ n, (s.countStgs o).slot core k = { s.slot core k with stgs := n } := by
  unfold State.countStgs
  split
  · rw [State.slot_modSlot]
    split
    · next h => obtain ⟨rfl, rfl, -⟩ := h; exact ⟨_, rfl⟩
    · exact ⟨_, rfl⟩
  · exact ⟨_, rfl⟩

theorem countStgs_core {α : Type} (s : State) (o : StgOwner) (p : Core → α) (h : ∀ c slots, p { c with slots := slots } = p c) (n : Nat) :
    p ((s.countStgs o).core n) = p (s.core n) := by
  unfold State.countStgs
  split
  · exact State.core_modSlot_keeps s _ _ _ p h n
  · rfl

/-- The posted stores and the stores of every path with a new owner. -/
def State.reowned (s : State) (a b : StgOwner) : State :=
  { s with
    stgs := s.stgs.map fun (g : Stg) => if g.owner = a then { g with owner := b } else g,
    cores := s.cores.map fun (kc : Nat × Core) => (kc.1, { kc.2 with path := kc.2.path.map (PathStore.move kc.1 a b) }) }

theorem core_reowned (s : State) (a b : StgOwner) (n : Nat) :
    (s.reowned a b).core n = { s.core n with path := (s.core n).path.map (PathStore.move n a b) } :=
  Sparse.get_map Core.reset (fun n (c : Core) => { c with path := c.path.map (PathStore.move n a b) }) s.cores n rfl

/-- A change of owner is a change of a slot's count of STGs alone. -/
theorem moveStgs_slot (s : State) (a b : StgOwner) (core k : Nat) :
    ∃ n, (s.moveStgs a b).slot core k = { s.slot core k with stgs := n } := by
  obtain ⟨n, hn⟩ := countStgs_slot (s.reowned a b) a core k
  obtain ⟨m, hm⟩ := countStgs_slot ((s.reowned a b).countStgs a) b core k
  have h0 : (s.reowned a b).slot core k = s.slot core k := by
    rw [State.slot, core_reowned]
    rfl
  exact ⟨m, hm.trans (by rw [hn, h0])⟩

/-- A change of owner leaves in every core what is neither a slot nor the store path. -/
theorem moveStgs_core {α : Type} (s : State) (a b : StgOwner) (p : Core → α)
    (h : ∀ c slots, p { c with slots := slots } = p c) (h' : ∀ c path, p { c with path := path } = p c) (n : Nat) :
    p ((s.moveStgs a b).core n) = p (s.core n) :=
  calc p ((s.moveStgs a b).core n)
      _ = p (((s.reowned a b).countStgs a).core n) := countStgs_core _ b p h n
      _ = p ((s.reowned a b).core n) := countStgs_core _ a p h n
      _ = p (s.core n) := by rw [core_reowned, h']

/-! ## A kill (R186) -/

theorem sendTo_cores (s : State) (dev : Nat) (m : LinkMsg) : (s.sendTo dev m).cores = s.cores := by
  unfold State.sendTo
  split <;> rfl

theorem withdraw_cores (s : State) (core slot : Nat) : (s.withdraw core slot).cores = s.cores := by
  unfold State.withdraw
  dsimp only
  split
  · split
    · exact sendTo_cores ..
    · rfl
  · rfl

theorem unsend_cores (s : State) (core slot : Nat) (r : ArrivalRecord) : (s.unsend core slot r).cores = s.cores := by
  unfold State.unsend
  dsimp only
  split <;> rfl

/-- A slot's waits taken back leave in every core what is no wait list. -/
theorem dropWaiters_core {α : Type} (s : State) (core slot : Nat) (p : Core → α)
    (h : ∀ c w m l, p { c with waiters := w, msgWait := m, lzWait := l } = p c) (n : Nat) :
    p ((s.dropWaiters core slot).core n) = p (s.core n) := by
  have hcores : ∀ (rs : List ArrivalRecord) (s : State), (rs.foldl (fun s r => s.unsend core slot r) s).cores = s.cores := by
    intro rs
    induction rs with
    | nil => exact fun _ => rfl
    | cons r rs ih => exact fun s => (ih _).trans (unsend_cores s core slot r)
  unfold State.dropWaiters State.core
  dsimp only
  rw [hcores, withdraw_cores]
  exact (congrArg p (Sparse.get_map Core.reset (fun m (c : Core) => { c with
    waiters := c.waiters.filter fun w => !w.who == .slot core slot
    msgWait := if m = core then c.msgWait.filter (· != slot) else c.msgWait
    lzWait := c.lzWait.filter fun w => w.who != .slot core slot }) s.cores n (by split <;> rfl))).trans (h _ _ _ _)

/-- The slot of a killed strand. -/
def Slot.killed (x : Slot) : Slot :=
  { x.vacate .killed with
    s := Vector.replicate 32 0, p := 0, c := Vector.replicate 8 0, ticket := 0
    matQ := x.matQ.filter (·.comp.lent), copyQ := x.copyQ.filter (·.comp.lent), matRes := [], copyRes := []
    mmaeOut := [], since := none }

/-- The state of a kill once its slot is left. -/
def State.leaving (s : State) (core slot : Nat) : State :=
  let t := (s.dropWaiters core slot).killSfu core slot
  ((if t.pairedOdd core slot then t.freeOdd core slot else t).modSlot core slot Slot.killed).moveStgs (.slot core slot) .ended

/-- The work of a killed strand taken out of its core, whose drains wait for it no more. -/
def Core.without (x : Slot) (slot : Nat) (c : Core) : Core :=
  (if x.dtwrSince.isSome then Core.drainAll else id)
    { c with
      path := c.path.map fun (p : PathStore) => if p.slot = slot then { p with await := false } else p
      copyOrd := keepFirst slot ((x.copyQ.filter (·.comp.lent)).length) c.copyOrd
      copyRun := c.copyRun.map fun r => if r.slot = slot ∧ !r.cmd.comp.lent then { r with killed := true } else r
      ended := c.ended.filter fun e => e.slot != slot || e.comp.kind != 0 || e.comp.lent }

theorem killSlot_eq {s : State} {core slot : Nat} (hc : (s.slot core slot).coupled = false) (dva : Nat) :
    ∃ bytes, s.killSlot core slot dva =
      (((s.leaving core slot).modCore core (Core.without (s.slot core slot) slot)).wrLm core (saveArea slot + 0x3C0) bytes).abortTicket
        core slot (s.asidOf (s.slot core slot)) (s.slot core slot).ticket.toNat true := by
  unfold State.killSlot
  dsimp only
  rw [hc, if_neg Bool.false_ne_true]
  exact ⟨_, rfl⟩

theorem without_keeps (x : Slot) (slot : Nat) (c : Core) (k : Nat) :
    ((Core.without x slot c).slot k).st = (c.slot k).st ∧ (Core.without x slot c).msgs = c.msgs := by
  unfold Core.without
  split
  · set d : Core := { c with
      path := c.path.map fun (p : PathStore) => if p.slot = slot then { p with await := false } else p
      copyOrd := keepFirst slot ((x.copyQ.filter (·.comp.lent)).length) c.copyOrd
      copyRun := c.copyRun.map fun r => if r.slot = slot ∧ !r.cmd.comp.lent then { r with killed := true } else r
      ended := c.ended.filter fun e => e.slot != slot || e.comp.kind != 0 || e.comp.lent }
    obtain ⟨_, _, hk⟩ := (drainAll_drained d).slot k
    obtain ⟨_, _, _, he⟩ := (drainAll_drained d).rest
    exact ⟨by rw [hk]; rfl, by rw [he]⟩
  · exact ⟨rfl, rfl⟩

theorem killSlot_kills {s : State} {core slot : Nat} (hk : slot < 16) (hc : (s.slot core slot).coupled = false)
    (ht : (s.slot core slot).ticket = 0) (dva : Nat) :
    ((s.killSlot core slot dva).slot core slot).st = .killed ∧ ((s.killSlot core slot dva).core core).msgs = (s.core core).msgs := by
  have hst : ((s.leaving core slot).slot core slot).st = .killed := by
    obtain ⟨n, hn⟩ := moveStgs_slot ((if ((s.dropWaiters core slot).killSfu core slot).pairedOdd core slot then
      ((s.dropWaiters core slot).killSfu core slot).freeOdd core slot else (s.dropWaiters core slot).killSfu core slot).modSlot core slot
      Slot.killed) (.slot core slot) .ended core slot
    rw [State.leaving, hn, State.slot_modSlot_same _ _ _ _ hk]
    rfl
  have hmsgs : ((s.leaving core slot).core core).msgs = (s.core core).msgs := by
    rw [State.leaving, moveStgs_core _ _ _ Core.msgs (fun _ _ => rfl) (fun _ _ => rfl), State.core_modSlot_keeps _ _ _ _ Core.msgs fun _ _ => rfl]
    have hsfu : (((s.dropWaiters core slot).killSfu core slot).core core).msgs = (s.core core).msgs :=
      dropWaiters_core s core slot Core.msgs (fun _ _ _ _ => rfl) core
    split
    · rw [State.freeOdd, State.core_modSlot_keeps _ _ _ _ Core.msgs fun _ _ => rfl, hsfu]
    · exact hsfu
  obtain ⟨bytes, he⟩ := killSlot_eq hc dva
  have hwithout := without_keeps (s.slot core slot) slot ((s.leaving core slot).core core) slot
  rw [he, ht]
  refine ⟨?_, ?_⟩
  · show ((((s.leaving core slot).modCore core (Core.without (s.slot core slot) slot)).wrLm core _ bytes).slot core slot).st = _
    rw [State.wrLm, State.wrLoc, State.slot, State.core_modCore_same, State.core_modCore_same]
    exact hwithout.1.trans hst
  · show ((((s.leaving core slot).modCore core (Core.without (s.slot core slot) slot)).wrLm core _ bytes).core core).msgs = _
    rw [State.wrLm, State.wrLoc, State.core_modCore_same, State.core_modCore_same]
    exact hwithout.2.trans hmsgs

end Sys2Proof.Machine
end

section
/-!
Messages and waking: O39.
-/
namespace Sys2Proof.Machine

open Sys2Proof

/-! ## SEND and SENDE (R87, R335, R336) -/

/-- The address of a core through the window, in its good form. -/
def State.CoreForm (s : State) (v : Word) : Prop :=
  v.toNat / 2 ^ 48 % 256 = 0xFE ∧ v.toNat % 2 ^ 30 = 0 ∧ s.windowForm (v.toNat % 2 ^ 56) = true

theorem coreAddress_ok {s : State} {v : Word} (h : s.CoreForm v) : s.coreAddress v = .ok () := by
  obtain ⟨hm, hz, hw⟩ := h
  refine need_of_true ?_ _
  have hm' : v.toNat / 2 ^ 48 % 2 ^ 8 = 0xFE := hm
  rw [fld_eq, fld_eq, hm', show v.toNat / 2 ^ 0 % 2 ^ 30 = 0 by rw [pow_zero, Nat.div_one, hz], hw]
  rfl

theorem coreAddress_seg {s : State} {v : Word} (h : ¬ s.CoreForm v) : s.coreAddress v = .error (.trap clsSeg v.toNat) := by
  refine need_of_false ?_ _
  by_contra hc
  rw [Bool.not_eq_false, Bool.and_eq_true, Bool.and_eq_true, fld_eq, fld_eq, beq_iff_eq, beq_iff_eq] at hc
  obtain ⟨⟨hm, hz⟩, hw⟩ := hc
  exact h ⟨hm, by simpa using hz, hw⟩

/-- The low 56 bits of two words agree exactly when the addresses in them do. -/
theorem lowWord_beq (v w : Word) : (v.extractLsb' 0 56 == w.extractLsb' 0 56) = decide (v.toNat % 2 ^ 56 = w.toNat % 2 ^ 56) := by
  rw [Bool.beq_eq_decide_eq]
  exact decide_eq_decide.mpr ⟨fun h => by simpa using congrArg BitVec.toNat h, fun h => BitVec.eq_of_toNat_eq (by simpa using h)⟩

section Append

variable {s : State} {a : Reg} (b : Reg) {ch : BitVec 2} {h : BitVec 1} (hform : s.CoreForm (s.src a))

include hform

theorem appendWord_first (hp : s.cur.packet = none) (hl : s.holdsLaunch s.cur ((s.src a).toNat % 2 ^ 56) = true) :
    s.appendWord a b ch h = .ok ⟨s.src a, ch, h == 1#1, [s.src b]⟩ := by
  unfold State.appendWord
  dsimp only
  rw [coreAddress_ok hform, ok_bind, hp]
  dsimp only
  rw [need_of_true hl, ok_bind]

theorem appendWord_nowhere (hp : s.cur.packet = none) (hl : s.holdsLaunch s.cur ((s.src a).toNat % 2 ^ 56) = false) :
    s.appendWord a b ch h = .error (.trap clsPkt 3) := by
  unfold State.appendWord
  dsimp only
  rw [coreAddress_ok hform, ok_bind, hp]
  dsimp only
  rw [need_of_false hl, error_bind]

variable {p : OpenPacket} (hp : s.cur.packet = some p)

include hp

theorem appendWord_next (hn : p.words.length < 8) (ht : p.target.toNat % 2 ^ 56 = (s.src a).toNat % 2 ^ 56) (hc : p.ch = ch)
    (hh : p.handler = (h == 1#1)) : s.appendWord a b ch h = .ok { p with words := p.words ++ [s.src b] } := by
  unfold State.appendWord
  dsimp only
  rw [coreAddress_ok hform, ok_bind, hp]
  dsimp only
  rw [need_of_true (decide_eq_true hn), ok_bind, need_of_true (by rw [lowWord_beq, hc, hh]; simpa using ht), ok_bind]

theorem appendWord_ninth (hn : 8 ≤ p.words.length) : s.appendWord a b ch h = .error (.trap clsPkt 1) := by
  unfold State.appendWord
  dsimp only
  rw [coreAddress_ok hform, ok_bind, hp]
  dsimp only
  rw [need_of_false (decide_eq_false (Nat.not_lt.mpr hn)), error_bind]

theorem appendWord_other (hn : p.words.length < 8)
    (ht : p.target.toNat % 2 ^ 56 ≠ (s.src a).toNat % 2 ^ 56 ∨ p.ch ≠ ch ∨ p.handler ≠ (h == 1#1)) :
    s.appendWord a b ch h = .error (.trap clsPkt 2) := by
  unfold State.appendWord
  dsimp only
  rw [coreAddress_ok hform, ok_bind, hp]
  dsimp only
  rw [need_of_true (decide_eq_true hn), ok_bind, need_of_false ?_, error_bind]
  rw [lowWord_beq, Bool.and_eq_false_iff, Bool.and_eq_false_iff, decide_eq_false_iff_not]
  obtain h | h | h := ht
  · exact .inl (.inl h)
  · exact .inl (.inr (by simpa using h))
  · exact .inr (by simpa using h)

end Append

theorem State.core_of_cores {s t : State} (h : t.cores = s.cores) (n : Nat) : t.core n = s.core n := by
  rw [State.core, h, State.core]

theorem State.cur_of_cores {s t : State} (h : t.cores = s.cores) (hc : t.curCore = s.curCore) (hk : t.curSlot = s.curSlot) :
    t.cur = s.cur := by rw [State.cur, State.slot, State.core, h, hc, hk]; rfl

/-- A packet for a core of this package joins those in the network. -/
theorem post_here (s : State) (core launch : Nat) {dva : Nat} (h : winDev dva = s.device) (ch : BitVec 2) (handler : Bool)
    (words : List Word) : s.post core launch dva ch handler words = { s.countSent launch core with
      packets := s.packets ++ [⟨s.coreloc core, s.device, winCore dva, launch, ch, handler, words, 0⟩] } := by
  unfold State.post
  dsimp only
  rw [h]
  exact if_pos rfl

/-- A packet closed and sent. -/
def State.closed (s : State) (p : OpenPacket) : State :=
  ((s.modCur fun x => { x with packet := none }).post s.curCore (s.cur.launch.getD 0) (p.target.toNat % 2 ^ 56) p.ch p.handler
    p.words).replyWith []

theorem sendLast_ok {s : State} {a b : Reg} {ch : BitVec 2} {h : BitVec 1} {p : OpenPacket} (hs : StoresIn s)
    (happ : s.appendWord a b ch h = .ok p) : s.sendLast a b ch h = .ok (s.closed p) := by
  have hl : (s.modCur fun x => { x with packet := none }).cur.launch = s.cur.launch := State.cur_modCur_keeps s _ Slot.launch fun _ => rfl
  rw [State.sendLast, happ, ok_bind, release_quiet hs, ok_bind]
  dsimp only
  rw [hl]
  rfl

/-- A packet for a core of this package joins the network's; the strand is as it was, with no packet open. -/
theorem closed_here {s : State} {l : Launch} {p : OpenPacket} (hk : SlotOk s) (hdev : winDev (p.target.toNat % 2 ^ 56) = s.device)
    (hl : s.launchOf s.cur = some l) :
    RepliesWith s (served (s.closed p)) [] ∧ (served (s.closed p)).cur.packet = none ∧ (served (s.closed p)).packets = s.packets ++
      [⟨s.coreloc s.curCore, s.device, winCore (p.target.toNat % 2 ^ 56), l.id, p.ch, p.handler, p.words, 0⟩] := by
  have hid : s.cur.launch.getD 0 = l.id := by
    obtain ⟨id, hid, hfind⟩ := Option.bind_eq_some_iff.mp hl
    have hl : l.id = id := by simpa using List.find?_some hfind
    rw [hid, hl]
    rfl
  have hpost := post_here (s.modCur fun x => { x with packet := none }) s.curCore (s.cur.launch.getD 0) hdev p.ch p.handler p.words
  set u := (s.modCur fun x => { x with packet := none }).post s.curCore (s.cur.launch.getD 0) (p.target.toNat % 2 ^ 56) p.ch p.handler
    p.words with hu
  have hcur : u.cur = { s.cur with packet := none } := by
    rw [hpost]
    exact (State.cur_of_cores (s := s.modCur fun x => { x with packet := none }) rfl rfl rfl).trans (State.cur_modCur s _ hk)
  have hslot : u.curSlot < 16 := by rw [hpost]; exact hk
  refine ⟨(repliesWith_served hslot (by simp only [SameStrand, hcur, and_self]) []).1, ?_, ?_⟩
  · rw [served_keeps _ Slot.packet fun _ => rfl]
    exact (replyWith_keeps u [] Slot.packet fun _ => rfl).trans (by rw [hcur])
  · show u.packets = _
    rw [hpost, ← hid]
    rfl

/-! ## POPM and WAITM (R88) -/

theorem plainOf_iff {p : Packet} {id : Nat} : p.plainOf (some id) = true ↔ p.handler = false ∧ p.launch = id := by
  simp [Packet.plainOf]

/-- Registers written in a row read what was written, and the others as before. -/
theorem reg_setCodes_row (x : Slot) (base n : Nat) (v : Nat → Word) (h0 : 1 ≤ base) (hn : base + n ≤ 32) (r : Reg) :
    (x.setCodes ((List.range n).map fun i => (base + i, v i))).reg r =
      if base ≤ r.toNat ∧ r.toNat < base + n then v (r.toNat - base) else x.reg r := by
  induction n with
  | zero => rw [if_neg (by omega)]; rfl
  | succ n ih =>
    have hcode : (BitVec.ofNat 5 (base + n)).toNat = base + n := by rw [BitVec.toNat_ofNat]; omega
    rw [List.range_succ, List.map_append, Slot.setCodes, List.foldl_append]
    show (((x.setCodes _).setReg (BitVec.ofNat 5 (base + n)) (v n)).reg r) = _
    rw [Slot.reg_setReg, ih (by omega)]
    by_cases hr : r = BitVec.ofNat 5 (base + n)
    · subst hr
      have hne : ¬ BitVec.ofNat 5 (base + n) = 0#5 := fun h => by
        have := congrArg BitVec.toNat h
        rw [hcode] at this
        simp at this
        omega
      rw [if_neg hne, if_pos rfl, hcode, if_pos (by omega), Nat.add_sub_cancel_left]
    · have hr' : r.toNat ≠ base + n := fun h => hr (BitVec.eq_of_toNat_eq (by rw [hcode, h]))
      rw [if_neg hr]
      by_cases h00 : r = 0#5
      · subst h00
        rw [if_pos rfl, if_neg (by simp; omega)]
        rfl
      · rw [if_neg h00]
        by_cases hin : base ≤ r.toNat ∧ r.toNat < base + n
        · rw [if_pos hin, if_pos (by omega)]
        · rw [if_neg hin, if_neg (by omega)]

/-- A packet taken out of a core's queue. -/
def Core.unqueue (p : Packet) (c : Core) : Core := { c with msgs := c.msgs.erase p }

/-- The state of a POPM that takes a packet. -/
def State.popped (s : State) (p : Packet) (d : Reg) : State :=
  ((s.modCore s.curCore (Core.unqueue p)).modSlot s.curCore s.curSlot
    fun x => x.setCodes (popWrites d p.words)).selfInvalidate s.curCore

theorem popMessage_takes {s : State} {p : Packet} {rest : List Packet} {id : Nat} (d : Reg) (hl : s.cur.launch = some id)
    (hm : s.here.msgs = p :: rest) (hp : p.handler = false) (hid : p.launch = id) : s.popMessage d = .ok (s.popped p d) := by
  have hfind : s.here.msgs.find? (·.plainOf s.cur.launch) = some p := by
    rw [hm, hl]
    exact List.find?_cons_of_pos (p := fun q : Packet => q.plainOf (some id)) (plainOf_iff.mpr ⟨hp, hid⟩)
  have htake : s.takePacket s.curCore s.curSlot d = some (s.popped p d) := by
    unfold State.takePacket
    rw [show ((s.core s.curCore).msgs.find? fun q => q.plainOf (s.slot s.curCore s.curSlot).launch) = some p from hfind]
    rfl
  rw [State.popMessage, htake]

theorem popped_leaves {s : State} (hk : SlotOk s) {p : Packet} {rest : List Packet} (hm : s.here.msgs = p :: rest) (d : Reg) :
    (s.popped p d).here.msgs = rest ∧ SameMemory s (s.popped p d) ∧
      ∃ b, (s.popped p d).cur = { s.cur.setCodes (popWrites d p.words) with fbuf := b } := by
  set u := s.modCore s.curCore (Core.unqueue p) with hu
  set t := u.modSlot s.curCore s.curSlot fun x => x.setCodes (popWrites d p.words) with ht
  obtain ⟨b, hb⟩ := selfInvalidate_slot t s.curCore s.curCore s.curSlot
  refine ⟨?_, ?_, b, hb.trans ?_⟩
  · calc (s.popped p d).here.msgs
        _ = ((t.selfInvalidate s.curCore).core s.curCore).msgs := rfl
        _ = (t.core s.curCore).msgs := by rw [State.selfInvalidate, State.core_modCore_same]
        _ = (u.core s.curCore).msgs := State.core_modSlot_keeps u _ _ _ Core.msgs (fun _ _ => rfl) _
        _ = rest := by rw [hu, State.core_modCore_same, Core.unqueue, show (s.core s.curCore).msgs = p :: rest from hm, List.erase_cons_head]
  · exact SameMemory.trans (sameMemory_modCore s _ (Core.unqueue p) fun _ => rfl)
      (SameMemory.trans (sameMemory_modSlot u _ _ _) (selfInvalidate_sameMemory t _))
  · rw [ht, State.slot_modSlot_same _ _ _ _ hk, hu, State.slot_modCore_keep s _ (Core.unqueue p) fun _ => rfl]
    rfl

theorem waitMessage_goes {s : State} {p : Packet} {rest : List Packet} {id : Nat} (hl : s.cur.launch = some id)
    (hm : s.here.msgs = p :: rest) (hp : p.handler = false) (hid : p.launch = id) : s.waitMessage = .ok s := by
  rw [State.waitMessage, hm, hl, List.any_cons, plainOf_iff.mpr ⟨hp, hid⟩]
  rfl

section NoMessage

variable {s : State} {id : Nat} (hl : s.cur.launch = some id) (hnone : ∀ p ∈ s.here.msgs, p.handler = true ∨ p.launch ≠ id)

include hl hnone

theorem plainOf_none : ∀ p ∈ s.here.msgs, p.plainOf s.cur.launch = false := by
  intro p hp
  rw [hl, ← Bool.not_eq_true, plainOf_iff]
  rintro ⟨h, hid⟩
  exact (hnone p hp).elim (fun e => by rw [h] at e; exact absurd e nofun) fun e => e hid

theorem popMessage_parks (d : Reg) : s.popMessage d = s.parkMessage (some d) := by
  have hfind : ((s.core s.curCore).msgs.find? fun q => q.plainOf (s.slot s.curCore s.curSlot).launch) = none :=
    List.find?_eq_none.mpr fun p hp => by rw [Bool.not_eq_true]; exact plainOf_none hl hnone p hp
  rw [State.popMessage, State.takePacket, hfind]

theorem waitMessage_parks : s.waitMessage = s.parkMessage none := by
  rw [State.waitMessage, if_neg]
  rw [Bool.not_eq_true, List.any_eq_false]
  exact fun p hp => by rw [Bool.not_eq_true]; exact plainOf_none hl hnone p hp

end NoMessage

/-- The current slot parked at its core's message queue, last. -/
def State.atQueue (s : State) (d : Option Reg) : State :=
  (s.parkCur (.message d)).modHere fun c => { c with msgWait := c.msgWait ++ [s.curSlot] }

theorem parkMessage_ok {s : State} (hk : s.curSlot ≠ 14) (hp : s.cur.packet = none) (d : Option Reg) :
    s.parkMessage d = .ok (s.atQueue d) := by
  rw [State.parkMessage, mayPark_ok hk hp, ok_bind]
  rfl

theorem parkMessage_handler {s : State} (hk : s.curSlot = 14) (d : Option Reg) : s.parkMessage d = .error (.trap clsHblk 0x1B) := by
  rw [State.parkMessage, State.mayPark, need_of_false (show (s.curSlot != 14) = false by simp [hk])]
  rfl

theorem atQueue_leaves {s : State} (hk : SlotOk s) (d : Option Reg) : (served (s.atQueue d)).cur.st = .parked ∧
    (served (s.atQueue d)).cur.park = some (.message d) ∧ (served (s.atQueue d)).here.msgWait = s.here.msgWait ++ [s.curSlot] := by
  have hcur : (s.atQueue d).cur = { s.cur with st := .parked, park := some (.message d) } :=
    (State.cur_modCore_keep (s.parkCur (.message d)) _ (fun c => { c with msgWait := c.msgWait ++ [s.curSlot] }) fun _ => rfl).trans
      (cur_parkCur hk _)
  refine ⟨?_, ?_, ?_⟩
  · rw [served_keeps _ Slot.st fun _ => rfl, hcur]
  · rw [served_keeps _ Slot.park fun _ => rfl, hcur]
  · calc (served (s.atQueue d)).here.msgWait
        _ = (s.atQueue d).here.msgWait := State.core_modSlot_keeps _ _ _ _ Core.msgWait (fun _ _ => rfl) _
        _ = (s.parkCur (.message d)).here.msgWait ++ [s.curSlot] := by rw [State.here, State.atQueue, State.modHere]; simp; rfl
        _ = s.here.msgWait ++ [s.curSlot] := by
          rw [State.here, State.parkCur, State.modCur]
          exact congrArg (· ++ [s.curSlot]) (State.core_modSlot_keeps _ _ _ _ Core.msgWait (fun _ _ => rfl) _)

/-! ## Delivery (R88, R97) -/

/-- A packet in its destination's queue and in a place of the message-queue row. -/
def State.delivered (s : State) (p : Packet) (place : Nat) : State :=
  ((s.wrLm p.dest (0x7000 + 64 * place) p.bytes).modCore p.dest fun c => { c with msgs := c.msgs ++ [{ p with place := place }] }).countRecv
    p.launch p.dest

theorem isGone_of_open {s : State} {id : Nat} {l : Launch} (hl : s.launchById id = some l) (hc : l.closing = false) :
    s.isGone id = false := by
  rw [State.isGone, hl]
  exact hc

theorem serveMessages_of_none {s : State} {core : Nat} (h : (s.core core).msgWait = []) : s.serveMessages core = s := by
  rw [State.serveMessages, h]
  rfl

theorem delivered_core (s : State) (p : Packet) (place : Nat) : (s.delivered p place).core p.dest =
    { (s.wrLm p.dest (0x7000 + 64 * place) p.bytes).core p.dest with
      msgs := ((s.wrLm p.dest (0x7000 + 64 * place) p.bytes).core p.dest).msgs ++ [{ p with place := place }] } :=
  State.core_modCore_same (s.wrLm p.dest (0x7000 + 64 * place) p.bytes) p.dest fun c => { c with msgs := c.msgs ++ [{ p with place := place }] }

theorem deliver_room {s : State} {p : Packet} {l : Launch} (hl : s.launchById p.launch = some l) (hc : l.closing = false)
    (hroom : (s.core p.dest).msgs.length < 64) (hw : (s.core p.dest).msgWait = []) :
    s.deliver p = some (s.delivered p ((freePlace 64 ((s.core p.dest).msgs.map (·.place))).getD 0)) := by
  have hwait (place : Nat) : ((s.delivered p place).core p.dest).msgWait = [] := by
    rw [delivered_core, State.wrLm, State.wrLoc, State.core_modCore_same]
    exact hw
  unfold State.deliver
  rw [isGone_of_open hl hc, if_neg Bool.false_ne_true, if_pos hroom]
  exact congrArg some (serveMessages_of_none (hwait _))

theorem deliver_full {s : State} {p : Packet} {l : Launch} (hl : s.launchById p.launch = some l) (hc : l.closing = false)
    (hroom : 64 ≤ (s.core p.dest).msgs.length) : s.deliver p = none := by
  unfold State.deliver
  rw [isGone_of_open hl hc, if_neg Bool.false_ne_true, if_neg (Nat.not_lt.mpr hroom)]

theorem samePath_comm (p q : Packet) : p.samePath q = q.samePath p := by
  simp only [Packet.samePath, Bool.beq_comm]

theorem length_packet_bytes (p : Packet) : p.bytes.length = 64 := by
  simp [Packet.bytes, bytesOfWords, Function.comp_def]

theorem delivered_memory (s : State) (p : Packet) (place : Nat) :
    ((s.delivered p place).core p.dest).lm.rdBytes (0x7000 + 64 * place) 64 = p.bytes ∧
      SameOutside s (s.delivered p place) (.lm p.dest (0x7000 + 64 * place)) 64 := by
  have hlen := length_packet_bytes p
  constructor
  · rw [delivered_core, State.wrLm, State.wrLoc, State.core_modCore_same, ← hlen]
    exact Memory.rdBytes_wrBytes p.bytes _ _
  · have hout := sameOutside_wrLoc s (.lm p.dest (0x7000 + 64 * place)) p.bytes false
    rw [hlen] at hout
    refine sameOutside_trans hout (sameOutside_of_sameMemory ?_ _ _)
    exact sameMemory_modCore (s.wrLm p.dest (0x7000 + 64 * place) p.bytes) p.dest
      (fun c => { c with msgs := c.msgs ++ [{ p with place := place }] }) fun _ => rfl

/-! ## Handler start (R89) -/

/-- What a write of scalar registers leaves of a slot. -/
theorem setCodes_keeps {α : Type} (p : Slot → α) (h : ∀ x r v, p (Slot.setReg x r v) = p x) (ws : List (Nat × Word)) (x : Slot) :
    p (x.setCodes ws) = p x := by
  induction ws generalizing x with
  | nil => rfl
  | cons w ws ih => exact (ih _).trans (h x _ _)

/-- The slot of a strand that starts. -/
def Slot.started (x : Slot) (l : Launch) (pc : Word) (at' : Nat) (caps : List Cap) : Slot :=
  { x.startCsrs l l.steal with
    pc := pc, st := .ready, fromCc := at', strand := l.strands, group := 0, ival := 0
    c := Vector.ofFn fun (i : Fin 8) => caps.getD i.val 0 }

/-- A strand that starts has its pc and the registers of its slot, and is in checked pairing if that is. (STATUS is generalised first:
the kernel would evaluate its field.) -/
theorem Slot.started_reads (x : Slot) (l : Launch) (pc : Word) (at' : Nat) (caps : List Cap) :
    (x.started l pc at' caps).st = .ready ∧ (x.started l pc at' caps).pc = pc ∧ (x.started l pc at' caps).ticket = 0 ∧
      (x.started l pc at' caps).coupled = x.coupled ∧ (x.started l pc at' caps).s = x.s := by
  unfold Slot.started Slot.startCsrs
  generalize setFld 0 33 7 l.dqcap = w
  exact ⟨rfl, rfl, rfl, rfl, rfl⟩

theorem Slot.reg_of_s {x y : Slot} (h : x.s = y.s) (r : Reg) : x.reg r = y.reg r := by rw [Slot.reg, Slot.reg, h]

/-- What the start of a strand does to its slot. -/
def Starts (f : Slot → Slot) (pc : Word) : Prop :=
  ∀ x, (f x).st = .ready ∧ (f x).pc = pc ∧ (f x).ticket = 0 ∧ (f x).coupled = x.coupled ∧ (f x).s = x.s

theorem startStrand_eq (s : State) (core slot : Nat) (l : Launch) (pc : Word) : ∃ u n f, ByWalk s u ∧ Starts f pc ∧
    (s.startStrand core slot l pc).1 = ((u.modLaunch n (·.nextStrand)).modSlot core slot f).selfInvalidate core := by
  have hw := loadCaps_byWalk s core l (List.range 8)
  unfold State.startStrand
  split
  next u caps bad h =>
    rw [h] at hw
    exact ⟨u, _, fun x => x.started ((u.launchById l.id).getD l) pc (nextBoundary u.cc) caps, hw, fun x => x.started_reads _ pc _ caps, rfl⟩

/-- A strand that starts in a slot: its pc, and of what was in the slot the registers; the core's message queue is as it was. -/
theorem startStrand_leaves (s : State) {core slot : Nat} (hk : slot < 16) (l : Launch) (pc : Word) {t : State}
    (ht : (s.startStrand core slot l pc).1 = t) : (t.slot core slot).st = .ready ∧ (t.slot core slot).pc = pc ∧
      (t.slot core slot).ticket = 0 ∧ (t.slot core slot).coupled = (s.slot core slot).coupled ∧
      (∀ r, (t.slot core slot).reg r = (s.slot core slot).reg r) ∧ (t.core core).msgs = (s.core core).msgs := by
  obtain ⟨u, n, f, hu, hf, he⟩ := startStrand_eq s core slot l pc
  set v := u.modLaunch n (·.nextStrand) with hv
  have hcores (k : Nat) : v.core k = s.core k := State.core_of_cores hu.cores k
  obtain ⟨b, hb⟩ := selfInvalidate_slot (v.modSlot core slot f) core core slot
  have hslot : t.slot core slot = { f (s.slot core slot) with fbuf := b } := by
    have hs : v.slot core slot = s.slot core slot := by rw [State.slot, hcores, State.slot]
    rw [← ht, he, hb, State.slot_modSlot_same _ _ _ _ hk, hs]
  have hmsgs : (t.core core).msgs = (s.core core).msgs := by
    rw [← ht, he, State.selfInvalidate, State.core_modCore_same, ← hcores core]
    exact State.core_modSlot_keeps v core slot f Core.msgs (fun _ _ => rfl) core
  obtain ⟨hst, hpc, hticket, hcoupled, hreg⟩ := hf (s.slot core slot)
  rw [hslot]
  exact ⟨hst, hpc, hticket, hcoupled, Slot.reg_of_s hreg, hmsgs⟩

/-- The registers that a handler starts with. -/
def handlerRegs (p : Packet) : List (Nat × Word) :=
  ((List.range 7).map fun i => (3 + i, p.words.getD (i + 1) 0)) ++ [(10, BitVec.ofNat 64 p.words.length)]

theorem reg_handlerRegs (x : Slot) (p : Packet) (r : Reg) : (x.setCodes (handlerRegs p)).reg r =
    if r = 10#5 then BitVec.ofNat 64 p.words.length
    else if 3 ≤ r.toNat ∧ r.toNat < 10 then p.words.getD (r.toNat - 3 + 1) 0 else x.reg r := by
  rw [handlerRegs, Slot.setCodes, List.foldl_append]
  show ((x.setCodes ((List.range 7).map fun i => (3 + i, p.words.getD (i + 1) 0))).setReg 10#5 (BitVec.ofNat 64 p.words.length)).reg r = _
  rw [Slot.reg_setReg, reg_setCodes_row x 3 7 (fun i => p.words.getD (i + 1) 0) (by omega) (by omega)]
  by_cases h0 : r = 0#5
  · subst h0
    rfl
  · rw [if_neg h0]

theorem handlerStart_leaves {s : State} {core : Nat} {p : Packet} {rest : List Packet} {l : Launch} (hfree : (s.slot core 14).st = .free)
    (hc : (s.slot core 14).coupled = false) (hm : (s.core core).msgs = p :: rest) (hp : p.handler = true)
    (hl : s.launchById p.launch = some l) :
    ∃ t, exec (.handlerStart core) s = .next t ∧ (t.core core).msgs = rest ∧ ((t.slot core 14).st = .killed ∨
      (t.slot core 14).st = .ready ∧ (t.slot core 14).pc = p.words.getD 0 0 ∧
        ∀ r, (t.slot core 14).reg r = ((s.slot core 14).setCodes (handlerRegs p)).reg r) := by
  set u := s.modCore core (Core.unqueue p) with hu
  obtain ⟨hst, hpc, hticket, hcoupled, hreg, hmsgs⟩ := startStrand_leaves u (core := core) (slot := 14) (by omega) l (p.words.getD 0 0) rfl
  set v := (u.startStrand core 14 l (p.words.getD 0 0)).1 with hv
  set w := v.modSlot core 14 fun x => x.setCodes (handlerRegs p) with hw
  have hexec : exec (.handlerStart core) s =
      .next (if (u.startStrand core 14 l (p.words.getD 0 0)).2.isSome then
        w.killSlot core 14 ((u.startStrand core 14 l (p.words.getD 0 0)).2.getD 0) else w) := by
    have hfind : (s.core core).msgs.find? (·.handler) = some p := by
      rw [hm]
      exact List.find?_cons_of_pos (p := fun q : Packet => q.handler) hp
    show execHandlerStart core s = _
    unfold execHandlerStart
    rw [if_neg (by simp [hfree]), hfind]
    dsimp only
    rw [hl]
    rfl
  have huslot : u.slot core 14 = s.slot core 14 := State.slot_modCore_keep s core (Core.unqueue p) (fun _ => rfl) core 14
  have hwslot : w.slot core 14 = (v.slot core 14).setCodes (handlerRegs p) := State.slot_modSlot_same v core 14 _ (by omega)
  have hrest : (w.core core).msgs = rest := by
    rw [hw, State.core_modSlot_keeps v _ _ _ Core.msgs fun _ _ => rfl, hmsgs, hu, State.core_modCore_same, Core.unqueue, hm,
      List.erase_cons_head]
  rw [hexec]
  split
  · obtain ⟨hkill, hkmsgs⟩ := killSlot_kills (s := w) (core := core) (slot := 14) (by omega)
      (by rw [hwslot, Slot.setCodes_coupled, hcoupled, huslot, hc])
      (by rw [hwslot, setCodes_keeps Slot.ticket fun _ _ _ => by simp, hticket]) ((u.startStrand core 14 l (p.words.getD 0 0)).2.getD 0)
    exact ⟨_, rfl, hkmsgs.trans hrest, .inl hkill⟩
  · refine ⟨_, rfl, hrest, .inr ⟨?_, ?_, fun r => ?_⟩⟩
    · rw [hwslot, setCodes_keeps Slot.st fun _ _ _ => by simp, hst]
    · rw [hwslot, setCodes_keeps Slot.pc fun _ _ _ => by simp, hpc]
    · rw [hwslot, reg_handlerRegs, reg_handlerRegs, hreg, huslot]

/-! ## A woken context restored (R106, R107) -/

theorem poisonedAt_of_none {s : State} {core : Nat} (h : (s.core core).lmPoison = []) (off n : Nat) :
    s.poisonedAt (.lm core off) n = false := by
  simp [State.poisonedAt, h]

theorem savedBad_of_none {s : State} {core : Nat} (h : (s.core core).lmPoison = []) (off : Nat) : s.savedBad (.lm core off) = false := by
  simp only [State.savedBad, Loc.plus, poisonedAt_of_none h, Bool.or_false]

/-- The slot of a faulted context that is restored from its save area. -/
def Slot.recovered (x : Slot) (bytes : List Byte) (poison : List Nat) : Slot :=
  { x.restore bytes with
    matRes := x.matRes, copyRes := x.copyRes, wakes := x.wakes.erase x.faultTag, faultTag := 0, mmaFault := false
    regPoison := poison ++ x.regPoison.filter (64 ≤ ·), st := .ready }

theorem restoreWoken_ready {s : State} {core slot : Nat} (hst : (s.slot core slot).st = .faulted)
    (htag : (s.slot core slot).faultTag ≠ 0) (hwake : (s.slot core slot).faultTag ∈ (s.slot core slot).wakes)
    (hcc : ((s.slot core slot).wakeCc / 16 + 1) * 16 ≤ s.cc) (hmma : (s.slot core slot).mmaFault = false)
    (hq : (s.slot core slot).seqReply = false) (hlent : (s.slot core slot).lentTag = 0) (hp : (s.core core).lmPoison = []) :
    ∃ f, s.restoreWoken core slot = s.modSlot core slot f ∧ f (s.slot core slot) =
      (s.slot core slot).recovered ((s.core core).lm.rdBytes (saveArea slot) 0x400) (s.savedPoison (.lm core (saveArea slot))) := by
  have hdue : (s.slot core slot).wakeDue s.cc = true := decide_eq_true hcc
  unfold State.restoreWoken
  dsimp only
  rw [if_pos ⟨hst, htag, by simpa using hwake, hdue⟩, if_neg (fun h => h.1 hlent)]
  unfold State.restoreFault
  dsimp only
  rw [savedBad_of_none hp, if_neg Bool.false_ne_true]
  refine ⟨_, rfl, ?_⟩
  rw [if_neg (by simp [hmma]), if_neg (show ¬ (s.slot core slot).seqReply = true by simp [hq])]
  rfl

end Sys2Proof.Machine

namespace Sys2Proof.Proofs

open Sys2Proof Sys2Proof.Machine

/-- Settles O39: a packet is checked and appended, then posted; a pop is a find in the queue; a delivery one write and one append; a handler
starts as any strand; a woken context is its save area read back. -/
theorem messagesAndWaking : Obligations.MessagesAndWaking := by
  unfold Obligations.MessagesAndWaking
  refine ⟨fun s a b g ch h hk hg => ?_, fun s d g id hk hg hl => ⟨?_, ?_, ?_⟩, ⟨?_, ?_, ?_⟩, ?_⟩
  · have sends {e : Stop} (happ : s.appendWord a b ch h = .error e) : exec (.send a b g ch h) s = .next (s.stop e) :=
      exec_stops rfl hg (by rw [State.sendWord, happ, error_bind])
    refine ⟨fun hform => ?_, fun hform hp hl => ?_, fun hform hp hl => sends (appendWord_nowhere b hform hp hl), fun p hform hp hn ht hc hh => ?_,
      fun p hform hp hn => sends (appendWord_ninth b hform hp hn), fun p hform hp hn ht => sends (appendWord_other b hform hp hn ht),
      fun l hform hp hl hs hdev hla => ?_, fun l p hform hp hn ht hc hh hs hdev hla => ?_⟩
    · have happ : s.appendWord a b ch h = .error (.trap clsSeg (uns s a)) := by
        rw [State.appendWord, coreAddress_seg hform, error_bind]
        rfl
      exact ⟨sends happ, exec_stops rfl hg (by rw [State.sendLast, happ, error_bind])⟩
    · exact exec_served rfl hg (by rw [State.sendWord, appendWord_first b hform hp hl, ok_bind]; rfl)
    · exact exec_served rfl hg (by rw [State.sendWord, appendWord_next b hform hp hn ht hc hh, ok_bind])
    · obtain ⟨hr, hpk, hps⟩ := closed_here (p := ⟨s.src a, ch, h == 1#1, [s.src b]⟩) hk hdev hla
      exact ⟨_, exec_served rfl hg (sendLast_ok hs (appendWord_first b hform hp hl)), hr, hpk, hps⟩
    · have hdev' : winDev (p.target.toNat % 2 ^ 56) = s.device := (congrArg winDev ht).trans hdev
      obtain ⟨-, hpk, hps⟩ := closed_here (p := { p with words := p.words ++ [s.src b] }) hk hdev' hla
      refine ⟨_, exec_served rfl hg (sendLast_ok hs (appendWord_next b hform hp hn ht hc hh)), hpk, ?_⟩
      rw [hps, show p.target.toNat % 2 ^ 56 = uns s a % 2 ^ 56 from ht, hc, hh]
  · intro p rest hm hp hid h1 h24
    obtain ⟨hmsgs, hmem, b, hcur⟩ := popped_leaves hk hm d
    have hreg (r : Reg) : (served (s.popped p d)).cur.reg r = (s.cur.setCodes (popWrites d p.words)).reg r := by
      rw [Slot.reg_of_s (served_keeps (s.popped p d) Slot.s fun _ => rfl) r, hcur]
      exact Slot.reg_of_s rfl r
    have hrow := reg_setCodes_row s.cur d.toNat 8 (fun i => p.words.getD i 0) h1 (by omega)
    refine ⟨⟨_, exec_served rfl hg (popMessage_takes d hl hm hp hid), ?_, SameMemory.trans hmem (sameMemory_served _), fun i hi => ?_,
      fun r hr => ?_⟩, exec_served rfl hg (waitMessage_goes hl hm hp hid)⟩
    · exact (State.core_modSlot_keeps _ _ _ _ Core.msgs (fun _ _ => rfl) _).trans hmsgs
    · have hcode : (BitVec.ofNat 5 (d.toNat + i)).toNat = d.toNat + i := by rw [BitVec.toNat_ofNat]; omega
      rw [hreg, popWrites, hrow, hcode, if_pos (by omega), Nat.add_sub_cancel_left]
    · rw [hreg, popWrites, hrow, if_neg (by omega)]
  · intro hnone hk14 hp
    have hpop := atQueue_leaves hk (some d)
    have hwait := atQueue_leaves hk none
    exact ⟨⟨_, exec_served rfl hg ((popMessage_parks hl hnone d).trans (parkMessage_ok hk14 hp _)), hpop⟩,
      ⟨_, exec_served rfl hg ((waitMessage_parks hl hnone).trans (parkMessage_ok hk14 hp _)), hwait⟩⟩
  · intro hnone hk14
    exact ⟨exec_stops rfl hg ((popMessage_parks hl hnone d).trans (parkMessage_handler hk14 _)),
      exec_stops rfl hg ((waitMessage_parks hl hnone).trans (parkMessage_handler hk14 _))⟩
  · intro s p rest l hps hl hc
    have hexec (o : Option State) (hd : ({ s with packets := rest } : State).deliver p = o) :
        exec (.packetDelivery 0) s = .next (o.getD s) := by
      show execPacketDelivery 0 s = _
      unfold execPacketDelivery
      rw [hps]
      show Host.Outcome.next (match ({ s with packets := rest } : State).deliver p with
        | some s' => s'
        | none => s) = _
      rw [hd]
      cases o <;> rfl
    refine ⟨fun hroom hw => ?_, fun hroom => ?_⟩
    · obtain ⟨hread, hout⟩ := delivered_memory { s with packets := rest } p
        ((freePlace 64 ((s.core p.dest).msgs.map (·.place))).getD 0)
      refine ⟨_, hexec _ (deliver_room (s := { s with packets := rest }) hl hc hroom hw), rfl, ?_, hread, hout⟩
      show (((({ s with packets := rest } : State).delivered p _).core p.dest).msgs) = _
      rw [delivered_core, State.wrLm, State.wrLoc, State.core_modCore_same]
      rfl
    · exact hexec none (deliver_full (s := { s with packets := rest }) hl hc hroom)
  · intro s p q mid hps hpath
    have hget : s.packets[mid.length + 1]? = some q := by rw [hps]; simp
    have hany : (s.packets.take (mid.length + 1)).any q.samePath = true := by
      have hqp : q.samePath p = true := hpath.elim (fun h => (samePath_comm q p).trans h) id
      rw [hps, List.take_succ_cons, List.any_cons, hqp, Bool.true_or]
    show execPacketDelivery (mid.length + 1) s = _
    unfold execPacketDelivery
    rw [hget]
    dsimp only
    rw [if_pos hany]
  · intro s core p rest l hfree hc hm hp hl
    obtain ⟨t, ht, hmsgs, hrun⟩ := handlerStart_leaves hfree hc hm hp hl
    refine ⟨t, ht, hmsgs, hrun.imp_right fun ⟨hst, hpc, hreg⟩ => ⟨hst, hpc, fun i hi => ?_, ?_, fun r hr => ?_⟩⟩
    · have hcode : (BitVec.ofNat 5 (3 + i)).toNat = 3 + i := by rw [BitVec.toNat_ofNat]; omega
      have hne : ¬ BitVec.ofNat 5 (3 + i) = 10#5 := fun h => by
        have := congrArg BitVec.toNat h
        rw [hcode] at this
        simp at this
        omega
      rw [hreg, reg_handlerRegs, if_neg hne, hcode, if_pos (by omega), Nat.add_sub_cancel_left]
    · exact (hreg 10).trans ((reg_handlerRegs _ p 10).trans (if_pos rfl))
    · have hne : ¬ r = 10#5 := fun h => by subst h; simp at hr
      rw [hreg, reg_handlerRegs, if_neg hne, if_neg (by omega)]
  · intro s core slot hk hst htag hwake hcc hmma hq hlent hp
    obtain ⟨f, hf, hx⟩ := restoreWoken_ready hst htag hwake hcc hmma hq hlent hp
    have hslot : (s.restoreWoken core slot).slot core slot = f (s.slot core slot) := by
      rw [hf, State.slot_modSlot_same _ _ _ _ hk]
    rw [hx] at hslot
    refine ⟨_, rfl, by rw [hslot]; rfl, by rw [hslot]; rfl, ?_, by rw [hf]; exact sameMemory_modSlot s core slot f⟩
    rw [hslot]
    show savedWord ((s.core core).lm.rdBytes (saveArea slot) 0x400) 0x200 = _
    rw [savedWord, take_drop_rdBytes _ _ (by omega)]

end Sys2Proof.Proofs
end

section
/-!
SPAWN: O34.
-/
namespace Sys2Proof.Machine

open Sys2Proof

/-! ## A word of device memory counted at its home -/

/-- A change of device memory, its hierarchy and poison, and the links to the host alone. -/
def ByMemory (s t : State) : Prop := ∃ h p q m, t = { s with hier := h, memPoison := p, ports := q, mem := m }

theorem ByMemory.refl (s : State) : ByMemory s s := ⟨_, _, _, _, rfl⟩

theorem ByMemory.trans {r s t : State} (h : ByMemory r s) (h' : ByMemory s t) : ByMemory r t := by
  obtain ⟨_, _, _, _, rfl⟩ := h
  obtain ⟨_, _, _, _, rfl⟩ := h'
  exact ⟨_, _, _, _, rfl⟩

/-- What a change of device memory leaves. -/
theorem ByMemory.leaves {s t : State} (h : ByMemory s t) : t.cores = s.cores ∧ t.curCore = s.curCore ∧ t.curSlot = s.curSlot ∧
    t.lat = s.lat ∧ t.launches = s.launches ∧ t.tenants = s.tenants ∧ t.waiters = s.waiters ∧ t.stgs = s.stgs := by
  obtain ⟨_, _, _, _, rfl⟩ := h
  exact ⟨rfl, rfl, rfl, rfl, rfl, rfl, rfl, rfl⟩

theorem ByMemory.noWaiters {s t : State} (h : ByMemory s t) (hw : NoWaiters s) : NoWaiters t := by
  obtain ⟨_, _, _, _, rfl⟩ := h
  exact hw

theorem serveMe_byMemory (s : State) (l : Loc) (w inval : Bool) : ByMemory s (s.serveMe l w inval) := by
  obtain ⟨h, p, q, e⟩ := serveMe_frame s l w inval
  exact ⟨h, p, q, s.mem, e⟩

theorem homeWrite_byMemory {s : State} (hw : NoWaiters s) (cl pa : Nat) (tr : Bool) (cls key : Nat) (bs : List Byte) :
    ByMemory s (s.homeWrite cl (.mem pa tr cls key) bs false) := by
  obtain ⟨h, p, q, e⟩ := touchLines_frame s (.mem pa tr cls key) bs.length true cl bs none true
  have hu := (touchLines_undisturbed s (.mem pa tr cls key) bs.length true cl bs none true).trans
    (wrLoc_undisturbed _ (.mem pa tr cls key) bs false)
  rw [State.homeWrite, serveAll_quiet (hu.noWaiters hw), e]
  exact ⟨_, _, _, _, rfl⟩

/-- A count at the home of its word: the new value there, and the core's L1 follows. -/
theorem addAt_home {s : State} (hw : NoWaiters s) (pa : Nat) (tr : Bool) (cls key : Nat) (n : Word) :
    ∃ u bs, ByMemory s u ∧ s.addAt (.mem pa tr cls key) n = u.refreshL1 u.curCore (.mem pa tr cls key) bs false ∧
      u.rdWord (.mem pa tr cls key) = s.rdWord (.mem pa tr cls key) + n ∧ SameOutside s u (.mem pa tr cls key) 8 := by
  obtain ⟨-, hout, hread⟩ := homeWrite_quiet hw s.cl (.mem pa tr cls key) (bytesOfNat 8 (s.rdWord (.mem pa tr cls key) + n).toNat)
  have hby := homeWrite_byMemory hw s.cl pa tr cls key (bytesOfNat 8 (s.rdWord (.mem pa tr cls key) + n).toNat)
  rw [length_bytesOfNat] at hread hout
  refine ⟨_, bytesOfNat 8 (s.rdWord (.mem pa tr cls key) + n).toNat, hby, ?_, ?_, hout⟩
  · rw [State.addAt, hby.leaves.2.1]
  · rw [State.rdWord, hread (.inl ⟨pa, tr, cls, key, rfl⟩), natOfBytes_bytesOfNat]
    exact BitVec.eq_of_toNat_eq (by simp)

/-! ## The decision to inline changes nothing that a check reads -/

section Decide

variable (s : State)

theorem cur_decideInl_keeps {α : Type} (p : Slot → α) (h : ∀ (x : Slot) i, p { x with inl := i } = p x) : p s.decideInl.cur = p s.cur :=
  State.cur_modCur_keeps s _ p fun x => h x _

theorem inl_decideInl {s : State} (hk : SlotOk s) (h : s.cur.inl = none) : s.decideInl.cur.inl = some (s.dequeFull s.cur s.curCore) := by
  rw [State.decideInl, State.cur_modCur s _ hk, h]
  rfl

theorem launchOf_congr {s t : State} {x y : Slot} (hx : x.launch = y.launch) (hl : t.launches = s.launches) : t.launchOf x = s.launchOf y := by
  rw [State.launchOf, State.launchOf, hx]
  have : t.launchById = s.launchById := by funext id; rw [State.launchById, State.launchById, hl]
  rw [this]

theorem launchOf_decideInl : s.decideInl.launchOf s.decideInl.cur = s.launchOf s.cur :=
  launchOf_congr (cur_decideInl_keeps s Slot.launch fun _ _ => rfl) rfl

theorem capDva_decideInl (c : CapIx) (off : Word) (n : Nat) (r w : Bool) : s.decideInl.capDva c off n r w = s.capDva c off n r w := by
  have hc : s.decideInl.cap c = s.cap c := by
    rw [State.cap, State.cap]
    exact congrArg (·[c.toNat]) (cur_decideInl_keeps s Slot.c fun _ _ => rfl)
  have hg (k : Cap) : s.decideInl.genCurrent s.decideInl.cur k = s.genCurrent s.cur k := by
    rw [State.genCurrent, State.genCurrent, launchOf_decideInl]
  unfold State.capDva
  rw [hc]
  dsimp only
  rw [hg]

theorem xlate_decideInl (dva : Nat) (kind : Access) : s.decideInl.xlate dva kind = s.xlate dva kind := by
  have hl : s.decideInl.asidOf s.decideInl.cur = s.asidOf s.cur := by
    rw [State.asidOf, State.asidOf, launchOf_decideInl]
  have hw : s.decideInl.cur.walkFailed = s.cur.walkFailed := by
    funext asid dva kind
    rw [Slot.walkFailed, Slot.walkFailed, cur_decideInl_keeps s Slot.walk fun _ _ => rfl]
  have ht : s.decideInl.tlbFind s.decideInl.curCore s.decideInl.cur = s.tlbFind s.curCore s.cur := by
    funext asid dva
    rw [State.tlbFind, State.tlbFind, cur_decideInl_keeps s Slot.grants fun _ _ => rfl]
    rfl
  unfold State.xlate
  dsimp only
  rw [hl, hw, ht]

theorem storesIn_decideInl {s : State} (h : StoresIn s) : StoresIn s.decideInl := by
  obtain ⟨hp, hs, hd, hr⟩ := h
  refine ⟨?_, hs, (cur_decideInl_keeps s Slot.drainsQueued fun _ _ => rfl).trans hd, fun q hq => ?_⟩
  · exact (State.core_modSlot_keeps s _ _ _ Core.path (fun _ _ => rfl) _).trans hp
  · exact (cur_decideInl_keeps s (fun x => x.waitingRow q) fun _ _ => rfl).trans (hr q hq)

theorem noWaiters_decideInl {s : State} (h : NoWaiters s) : NoWaiters s.decideInl :=
  ⟨h.1, fun n => (State.core_modSlot_keeps s _ _ _ Core.waiters (fun _ _ => rfl) n).trans (h.2 n)⟩

/-- The service of an access at its home reads no slot but for its launch. -/
theorem serveMe_decideInl (pa : Nat) (tr : Bool) (cls key : Nat) (w inval : Bool) :
    (s.decideInl.serveMe (.mem pa tr cls key) w inval).memPoison = (s.serveMe (.mem pa tr cls key) w inval).memPoison := by
  rw [State.serveMe, State.serveMe, cur_decideInl_keeps s Slot.launch fun _ _ => rfl]
  rfl

end Decide

/-! ## The frame of the parent (R82, R83) -/

theorem length_frame_bytes {f : Frame} (hc : f.carry.length = 8) (hi : f.capidx.length = 8) : f.bytes.length = 96 := by
  simp [Frame.bytes, bytesOfWords, Function.comp_def, hc, hi]

/-- A seat changed within its core is found as it was. -/
theorem Launch.seat_modSeat {l : Launch} {core : Nat} {p : Seat} (h : l.seat core = some p) (f : Seat → Seat)
    (hf : ∀ x, (f x).core = x.core) : (l.modSeat core f).seat core = some (f p) := by
  have hp : p.core = core := by simpa using List.find?_some h
  have hcomp : ((fun x : Seat => x.core == core) ∘ fun x => if x.core = core then f x else x) = fun x => x.core == core := by
    funext x
    by_cases hx : x.core = core <;> simp [hx, hf]
  rw [Launch.seat, Launch.modSeat, List.find?_map, hcomp]
  show ((l.seat core).map fun x => if x.core = core then f x else x) = _
  rw [h, Option.map_some, if_pos hp]

theorem groupAddr_of_no_tenants {s : State} (h : s.tenants = []) (l : Launch) (gid : Nat) : s.groupAddr l gid = none := by
  rw [State.groupAddr, h, if_neg (by simp [Sparse.keys])]

theorem openGroup_of_no_tenants {s : State} {x : Slot} {l : Launch} (ht : s.tenants = []) (hl : s.launchOf x = some l) (join : Nat) :
    s.openGroup x join = (l.groups, l.strands, s.modLaunch l.id fun l => l.nextStrand.nextGroup) := by
  have hw (r : GroupRec) : (s.modLaunch l.id fun l => l.nextStrand.nextGroup).writeGroup l r =
      s.modLaunch l.id fun l => l.nextStrand.nextGroup := by
    rw [State.writeGroup, groupAddr_of_no_tenants (s := s.modLaunch l.id fun l => l.nextStrand.nextGroup) ht]
  rw [State.openGroup, hl]
  dsimp only
  rw [hw]

/-- The frame of a strand that spawns. -/
def State.parentFrame (s : State) (x : Slot) (gid : BitVec 24) : Frame :=
  { pc := s.lat.pc + 8, carry := s.carry, capidx := x.capidx, join := x.join, group := gid, retpos := x.retpos
    ret := x.ret, origin := s.curSlot, arrival := false, domain := x.stealdom }

/-- The slot of a child that runs in its parent's slot. -/
def Slot.child (x : Slot) (pos : BitVec 16) (join : Nat) (target : Word) (child gid : BitVec 24) : Slot :=
  { x with ret := .deque, retpos := pos, join := join, pc := target, strand := child, group := gid, ival := 0 }

/-- The frame put into its place of the deque, at the bottom. -/
def State.pushFrame (s : State) (launch at' place : Nat) (f : Frame) : State :=
  ((s.wrLm s.curCore place f.bytes).moveStgs (.slot s.curCore s.curSlot) (.frame s.curCore place)).modSeat launch s.curCore fun p =>
    { p with frames := p.frames ++ [at'], bottom := p.bottom + 1 }

section Spawn

variable {s : State} {a : Reg} {c : CapIx} {target : Word} {reg : Bool}

theorem spawn_pkt (hp : s.cur.packet ≠ none) : s.spawn a c target reg = .error (.trap clsPkt 4) := by
  unfold State.spawn
  dsimp only
  rw [need_of_false (by simpa [Option.isSome_iff_ne_none] using hp), error_bind]

theorem spawn_hblk (hp : s.cur.packet = none) (hk : s.curSlot = 14) : s.spawn a c target reg = .error (.trap clsHblk 0x16) := by
  unfold State.spawn
  dsimp only
  rw [need_of_true (by simp [hp]), ok_bind, need_of_false (by simp [hk]), error_bind]

variable {join pa cls key : Nat} {tr : Bool} {l : Launch} {p : Seat} (hp : s.cur.packet = none) (hk : s.curSlot ≠ 14)
  (hc : s.cur.coupled = false) (hinl : s.cur.inl = some false) (hdva : s.capDva c (s.src a) 8 true true = .ok join)
  (hwin : isWindow join = false) (haln : join % 8 = 0) (hx : s.xlate join .atomic = .ok (.mem pa tr cls key)) (hs : StoresIn s)
  (hw : NoWaiters s) (ht : s.tenants = []) (hclean : (s.serveMe (.mem pa tr cls key) true true).poisonedAt (.mem pa tr cls key) 8 = false)
  (hl : s.launchOf s.cur = some l) (hseat : l.seat s.curCore = some p)

include hp hk hc hinl hdva hwin haln hx hs hw ht hclean hl hseat

/-- A spawn that pushes: the join word counted, a group opened, the frame pushed, and the child in the slot. -/
theorem spawn_pushes (htarget : reg = true → target.toNat % 8 = 0) :
    ∃ u bs, ByMemory s u ∧ u.rdWord (.mem pa tr cls key) = s.rdWord (.mem pa tr cls key) + 1 ∧
      s.spawn a c target reg = .ok (((((u.refreshL1 u.curCore (.mem pa tr cls key) bs false).modLaunch l.id fun l =>
        l.nextStrand.nextGroup).pushFrame (s.cur.launch.getD 0) ((freePlace s.cur.dqcap p.frames).getD 0)
          (p.framePlace ((freePlace s.cur.dqcap p.frames).getD 0)) (s.parentFrame s.cur l.groups)).replyWith []).modCur fun x =>
            x.child p.bottom join target l.strands l.groups) := by
  set place : Loc := .mem pa tr cls key with hplace
  have hby := serveMe_byMemory s place true true
  obtain ⟨u, bs, huby, hadd, hword, -⟩ := addAt_home (hby.noWaiters hw) pa tr cls key 1
  refine ⟨u, bs, hby.trans huby, by rw [hword, serveMe_rdWord], ?_⟩
  set v := u.refreshL1 u.curCore place bs false with hv
  obtain ⟨hla, hte, hlat, hcc, hcs⟩ : v.launches = s.launches ∧ v.tenants = [] ∧ v.lat = s.lat ∧ v.curCore = s.curCore ∧ v.curSlot = s.curSlot := by
    obtain ⟨-, hcc, hcs, hlat, hla, hte, -, -⟩ := (hby.trans huby).leaves
    exact ⟨hla, hte.trans ht, hlat, hcc, hcs⟩
  have hlv : v.launchOf s.cur = some l := (launchOf_congr rfl hla).trans hl
  have hgroup := openGroup_of_no_tenants hte hlv join
  set w := v.modLaunch l.id fun l => l.nextStrand.nextGroup with hw'
  have hfind : (w.launchOf s.cur).bind (·.seat w.curCore) = some p := by
    obtain ⟨id, hid, hlid⟩ := Option.bind_eq_some_iff.mp hlv
    have hli : l.id = id := by simpa using List.find?_some hlid
    rw [State.launchOf, hid, Option.bind_some, hw', hli, launchById_modLaunch hlid (fun l => l.nextStrand.nextGroup) fun _ => rfl, Option.bind_some]
    exact (congrArg l.seat hcc).trans hseat
  have hframe : w.parentFrame s.cur l.groups = s.parentFrame s.cur l.groups := by
    have hsrc : w.src = s.src := by
      funext r
      rw [State.src, State.src, show w.lat = s.lat from hlat]
    rw [State.parentFrame, State.parentFrame, State.carry, State.carry, hsrc, show w.lat = s.lat from hlat, show w.curSlot = s.curSlot from hcs]
  unfold State.spawn
  dsimp only
  rw [need_of_true (by simp [hp]), ok_bind, need_of_true (by simpa using hk), ok_bind, notCoupled_ok hc, ok_bind, hdva, ok_bind,
    need_of_true (by simp [hwin]), ok_bind, need_of_true (by simp [haln]), ok_bind, need_of_true ?_, ok_bind, hinl]
  · simp only [Option.getD_some, Bool.false_eq_true, if_false]
    rw [hx, ok_bind, release_quiet hs, ok_bind, atHome_quiet hs, ok_bind, hclean, if_neg Bool.false_ne_true, hadd, hgroup]
    dsimp only
    rw [hfind]
    dsimp only
    rw [← hframe]
    rfl
  · cases reg
    · rfl
    · rw [Bool.not_true, Bool.false_or, beq_iff_eq]
      refine BitVec.eq_of_toNat_eq ?_
      simpa using htarget rfl

end Spawn

theorem parentFrame_decideInl (s : State) (gid : BitVec 24) :
    s.decideInl.parentFrame s.decideInl.cur gid = s.parentFrame s.cur gid := by
  have hk {α : Type} (p : Slot → α) (h : ∀ (x : Slot) i, p { x with inl := i } = p x) := cur_decideInl_keeps s p h
  rw [State.parentFrame, State.parentFrame, hk Slot.capidx fun _ _ => rfl, hk Slot.join fun _ _ => rfl, hk Slot.retpos fun _ _ => rfl,
    hk Slot.ret fun _ _ => rfl, hk Slot.stealdom fun _ _ => rfl]
  rfl

/-! ## What a pushed frame leaves -/

theorem rdWord_of_mem {s t : State} {pa cls key : Nat} {tr : Bool} (h : t.mem = s.mem) :
    t.rdWord (.mem pa tr cls key) = s.rdWord (.mem pa tr cls key) := by
  rw [State.rdWord, State.rdWord, State.rdLoc, State.rdLoc, h]

/-- A frame that is pushed changes its slot's count of STGs alone, and stands in its place. -/
theorem pushFrame_leaves (s : State) (launch at' place : Nat) (f : Frame) :
    (∃ n, (s.pushFrame launch at' place f).cur = { s.cur with stgs := n }) ∧ (s.pushFrame launch at' place f).mem = s.mem ∧
      (s.pushFrame launch at' place f).here.lm.rdBytes place f.bytes.length = f.bytes := by
  refine ⟨?_, rfl, ?_⟩
  · obtain ⟨n, hn⟩ := moveStgs_slot (s.wrLm s.curCore place f.bytes) (.slot s.curCore s.curSlot) (.frame s.curCore place) s.curCore s.curSlot
    have hcur : (s.wrLm s.curCore place f.bytes).slot s.curCore s.curSlot = s.cur := by
      rw [State.wrLm, State.wrLoc]
      exact State.slot_modCore_keep s s.curCore (fun c => { c with
        lm := c.lm.wrBytes place f.bytes
        lmPoison := if false then (touched place f.bytes.length).foldl setInsert c.lmPoison
          else (covered place f.bytes.length).foldl setErase c.lmPoison }) (fun _ => rfl) _ _
    exact ⟨n, hn.trans (by rw [hcur])⟩
  · have hlm : (s.pushFrame launch at' place f).here.lm = ((s.wrLm s.curCore place f.bytes).core s.curCore).lm :=
      moveStgs_core (s.wrLm s.curCore place f.bytes) _ _ Core.lm (fun _ _ => rfl) (fun _ _ => rfl) s.curCore
    rw [hlm, State.wrLm, State.wrLoc, State.core_modCore_same]
    exact Memory.rdBytes_wrBytes f.bytes _ _

theorem pushFrame_seat {s : State} {launch : Nat} {l : Launch} {p : Seat} (hl : s.launchById launch = some l)
    (hseat : l.seat s.curCore = some p) (at' place : Nat) (f : Frame) :
    ((s.pushFrame launch at' place f).launchById launch).bind (·.seat s.curCore) =
      some { p with frames := p.frames ++ [at'], bottom := p.bottom + 1 } := by
  set g : Seat → Seat := fun p => { p with frames := p.frames ++ [at'], bottom := p.bottom + 1 } with hg
  have hfind : (s.pushFrame launch at' place f).launchById launch = some (l.modSeat s.curCore g) :=
    launchById_modLaunch (s := (s.wrLm s.curCore place f.bytes).moveStgs (.slot s.curCore s.curSlot) (.frame s.curCore place)) hl
      (·.modSeat s.curCore g) fun _ => rfl
  rw [hfind, Option.bind_some, Launch.seat_modSeat hseat g fun _ => rfl]

/-- The child in its slot, once the parent's frame is pushed. -/
theorem child_leaves {s : State} (hk : SlotOk s) (pos : BitVec 16) (join : Nat) (target : Word) (child gid : BitVec 24) {t : State}
    (ht : served ((s.replyWith []).modCur fun x => x.child pos join target child gid) = t) :
    t.cur.pc = target ∧ t.cur.join = join ∧ t.cur.ret = .deque ∧ t.cur.retpos = pos ∧ t.cur.st = .reply ∧ t.cur.s = s.cur.s ∧
      t.cur.p = s.cur.p ∧ t.cur.c = s.cur.c ∧ t.cur.launch = s.cur.launch ∧ t.here.lm = s.here.lm ∧ t.mem = s.mem ∧
      t.launches = s.launches ∧ t.curCore = s.curCore := by
  have hcur : t.cur = { ({ s.cur with st := .reply, reply := some ⟨.now, [], false⟩, out := none } : Slot).child pos join target child gid with
      grants := [], since := none, walk := none, inl := none } := by
    rw [← ht, cur_served (s := (s.replyWith []).modCur _) hk, State.cur_modCur (s.replyWith []) _ hk, cur_replyWith hk]
  have hlm : t.here.lm = s.here.lm := by
    rw [← ht]
    exact (State.core_modSlot_keeps _ _ _ _ Core.lm (fun _ _ => rfl) _).trans ((State.core_modSlot_keeps _ _ _ _ Core.lm (fun _ _ => rfl) _).trans
      (State.core_modSlot_keeps _ _ _ _ Core.lm (fun _ _ => rfl) _))
  subst ht
  rw [hcur, hlm]
  exact ⟨rfl, rfl, rfl, rfl, rfl, rfl, rfl, rfl, rfl, rfl, rfl, rfl, rfl⟩

end Sys2Proof.Machine

namespace Sys2Proof.Proofs

open Sys2Proof Sys2Proof.Machine

/-- Settles O34: the checks read nothing that the decision to inline changes; then a count at the home, a group, a pushed frame and the
child. -/
theorem spawnPushesTheParent : Obligations.SpawnPushesTheParent := by
  unfold Obligations.SpawnPushesTheParent
  intro s a b c g ext join pa cl key tr l p hk hg
  have hexec : exec (.spawn a b c g) s = finish s.decideInl (s.decideInl.spawn a c (s.src b) true) := if_pos hg
  have hlone : exec (.spawnLone a c ext) s = finish s.decideInl (s.decideInl.spawn a c (s.lat.pc + ext.signExtend 64 * 8) false) := rfl
  have hpacket := cur_decideInl_keeps s Slot.packet fun _ _ => rfl
  refine ⟨fun hp => ?_, fun hp h14 => ?_, fun hp h14 hc hinl hdva hwin haln hx hs hw ht hclean hl hseat hroom => ?_⟩
  · have hp' : s.decideInl.cur.packet ≠ none := by rw [hpacket]; exact hp
    exact ⟨by rw [hexec, spawn_pkt hp']; rfl, by rw [hlone, spawn_pkt hp']; rfl⟩
  · exact ⟨by rw [hexec, spawn_hblk (hpacket.trans hp) h14]; rfl, by rw [hlone, spawn_hblk (hpacket.trans hp) h14]; rfl⟩
  · intro place free f spawns
    have hfull : s.dequeFull s.cur s.curCore = false := by
      rw [State.dequeFull, hl, Option.bind_some, hseat]
      exact decide_eq_false (Nat.not_le.mpr hroom)
    have hframe : s.decideInl.parentFrame s.decideInl.cur l.groups = f := parentFrame_decideInl s l.groups
    have hdq := cur_decideInl_keeps s Slot.dqcap fun _ _ => rfl
    have hla := cur_decideInl_keeps s Slot.launch fun _ _ => rfl
    have hspawn (i : Instr) (target : Word) (reg : Bool) (hi : exec i s = finish s.decideInl (s.decideInl.spawn a c target reg))
        (htarget : reg = true → target.toNat % 8 = 0) : spawns i target := by
      obtain ⟨u, bs, hby, hword, hsp⟩ := spawn_pushes (s := s.decideInl) (c := c) (a := a) (target := target) (reg := reg)
        (hpacket.trans hp) h14 ((cur_decideInl_keeps s Slot.coupled fun _ _ => rfl).trans hc)
        ((inl_decideInl hk hinl).trans (congrArg some hfull)) ((capDva_decideInl s c _ 8 true true).trans hdva) hwin haln
        ((xlate_decideInl s join .atomic).trans hx) (storesIn_decideInl hs) (noWaiters_decideInl hw) ht
        (by rw [State.poisonedAt, serveMe_decideInl]; exact hclean) ((launchOf_decideInl s).trans hl) hseat htarget
      rw [hdq, hla, hframe] at hsp
      set w := (u.refreshL1 u.curCore place bs false).modLaunch l.id fun l => l.nextStrand.nextGroup with hw'
      set v := w.pushFrame (s.cur.launch.getD 0) free (p.framePlace free) f with hv
      obtain ⟨hcores, hcc, hcs, -, hlas, -, -, -⟩ := hby.leaves
      have hwcur : w.cur = s.decideInl.cur :=
        (State.cur_modCore_keep u _ (fun c => c.refreshL1 place bs false) fun _ => rfl).trans (State.cur_of_cores hcores hcc hcs)
      obtain ⟨⟨n, hvcur⟩, hvmem, hvlm⟩ := pushFrame_leaves w (s.cur.launch.getD 0) free (p.framePlace free) f
      have hvk : SlotOk v := by rw [SlotOk, show v.curSlot = s.curSlot from hcs]; exact hk
      have hvcc : v.curCore = s.curCore := hcc
      have hwcc : w.curCore = s.curCore := hcc
      obtain ⟨hpc, hjoin, hret, hpos, hst, hs', hp', hc', hlaunch, hlm, hmem, hlaunches, htcc⟩ :=
        child_leaves hvk p.bottom join target l.strands l.groups rfl
      set t := served ((v.replyWith []).modCur fun x => x.child p.bottom join target l.strands l.groups)
      obtain ⟨id, hid, hlid⟩ := Option.bind_eq_some_iff.mp hl
      have hli : l.id = id := by simpa using List.find?_some hlid
      have hwl : w.launchById id = some l.nextStrand.nextGroup := by
        rw [hw', hli]
        refine launchById_modLaunch (s := u.refreshL1 u.curCore place bs false) ?_ (fun l => l.nextStrand.nextGroup) fun _ => rfl
        rw [State.launchById, show (u.refreshL1 u.curCore place bs false).launches = s.launches from hlas]
        exact hlid
      have hpush := pushFrame_seat hwl ((congrArg l.seat hwcc).trans hseat) free (p.framePlace free) f
      rw [show s.cur.launch.getD 0 = id by rw [hid]; rfl] at hv
      refine ⟨t, { p with frames := p.frames ++ [free], bottom := p.bottom + 1 }, by rw [hi, hsp]; rfl, ?_, hpc, hjoin, hret, hpos, hst, ?_,
        ?_, ?_, ?_, rfl, rfl, ?_⟩
      · exact (rdWord_of_mem (hmem.trans hvmem)).trans hword
      · rw [hs', hvcur, hwcur]
        exact cur_decideInl_keeps s Slot.s fun _ _ => rfl
      · rw [hp', hvcur, hwcur]
        exact cur_decideInl_keeps s Slot.p fun _ _ => rfl
      · rw [hc', hvcur, hwcur]
        exact cur_decideInl_keeps s Slot.c fun _ _ => rfl
      · have htl : t.cur.launch = some id := by rw [hlaunch, hvcur, hwcur]; exact hla.trans hid
        rw [State.launchOf, htl, Option.bind_some, State.launchById, hlaunches, hv, ← hwcc]
        exact hpush
      · rw [hlm, ← hvlm, length_frame_bytes]
        · simp [f]
        · simp [f]
    refine ⟨fun hb => hspawn _ _ true hexec fun _ => hb, hspawn _ _ false hlone nofun⟩

end Sys2Proof.Proofs
end

section
/-!
DONE: O36.
-/
namespace Sys2Proof.Machine

open Sys2Proof

/-! ## A slot that is left -/

/-- What the end of an instruction leaves as it is in every slot. -/
theorem served_slot_keeps {α : Type} (s : State) (p : Slot → α)
    (h : ∀ x : Slot, p { x with grants := [], since := none, walk := none, inl := none } = p x) (core k : Nat) :
    p ((served s).slot core k) = p (s.slot core k) := by
  rw [served, State.modCur, State.slot_modSlot]
  split
  · next hk => obtain ⟨rfl, rfl, -⟩ := hk; exact h _
  · rfl

theorem abortTicket_of_none (s : State) (core slot asid : Nat) : s.abortTicket core slot asid 0 false = s := by
  rw [State.abortTicket, if_pos (.inl rfl), State.reachTicket, if_pos (.inl rfl)]
  rfl

/-- A slot whose strand has ended, without a walk and not in a gang. -/
theorem freeSlot_leaves {s : State} {core slot : Nat} (hk : slot < 16) (ht : (s.slot core slot).ticket = 0)
    (ho : s.pairedOdd core slot = false) : ((s.freeSlot core slot).slot core slot).st = .free ∧
      ((s.freeSlot core slot).slot core slot).launch = none ∧ ((s.freeSlot core slot).slot core slot).groups = [] ∧
      SameMemory s (s.freeSlot core slot) ∧ (s.freeSlot core slot).curCore = s.curCore ∧ (s.freeSlot core slot).curSlot = s.curSlot := by
  have he : s.freeSlot core slot =
      (s.modSlot core slot fun x => { x.vacate .free with ticket := 0 }).moveStgs (.slot core slot) .ended := by
    unfold State.freeSlot
    dsimp only
    rw [show (s.slot core slot).ticket.toNat = 0 by rw [ht]; rfl, abortTicket_of_none, ho, if_neg Bool.false_ne_true]
  obtain ⟨n, hn⟩ := moveStgs_slot (s.modSlot core slot fun x => { x.vacate .free with ticket := 0 }) (.slot core slot) .ended core slot
  rw [State.slot_modSlot_same _ _ _ _ hk] at hn
  rw [he, hn]
  refine ⟨rfl, rfl, rfl, sameMemory_of_mem_lm rfl fun m => ?_, rfl, rfl⟩
  exact (moveStgs_core _ _ _ Core.lm (fun _ _ => rfl) (fun _ _ => rfl) m).trans (State.core_modSlot_keeps s _ _ _ Core.lm (fun _ _ => rfl) m)

theorem ByWalk.curs {s t : State} (h : ByWalk s t) : t.curCore = s.curCore ∧ t.curSlot = s.curSlot := by
  obtain ⟨_, _, _, _, rfl⟩ := h
  exact ⟨rfl, rfl⟩

/-! ## A kill leaves the slot that issues -/

theorem sendTo_cur (s : State) (dev : Nat) (m : LinkMsg) : (s.sendTo dev m).curCore = s.curCore ∧ (s.sendTo dev m).curSlot = s.curSlot := by
  unfold State.sendTo
  split <;> exact ⟨rfl, rfl⟩

theorem withdraw_cur (s : State) (core slot : Nat) :
    (s.withdraw core slot).curCore = s.curCore ∧ (s.withdraw core slot).curSlot = s.curSlot := by
  unfold State.withdraw
  dsimp only
  split
  · split
    · exact sendTo_cur ..
    · exact ⟨rfl, rfl⟩
  · exact ⟨rfl, rfl⟩

theorem unsend_cur (s : State) (core slot : Nat) (r : ArrivalRecord) :
    (s.unsend core slot r).curCore = s.curCore ∧ (s.unsend core slot r).curSlot = s.curSlot := by
  unfold State.unsend
  dsimp only
  split <;> exact ⟨rfl, rfl⟩

theorem dropWaiters_cur (s : State) (core slot : Nat) :
    (s.dropWaiters core slot).curCore = s.curCore ∧ (s.dropWaiters core slot).curSlot = s.curSlot := by
  have hfold : ∀ (rs : List ArrivalRecord) (s : State),
      (rs.foldl (fun s r => s.unsend core slot r) s).curCore = s.curCore ∧
        (rs.foldl (fun s r => s.unsend core slot r) s).curSlot = s.curSlot := by
    intro rs
    induction rs with
    | nil => exact fun _ => ⟨rfl, rfl⟩
    | cons r rs ih => exact fun s => ⟨(ih _).1.trans (unsend_cur s core slot r).1, (ih _).2.trans (unsend_cur s core slot r).2⟩
  unfold State.dropWaiters
  dsimp only
  rw [(hfold _ _).1, (hfold _ _).2]
  exact withdraw_cur s core slot

theorem killSlot_cur {s : State} {core slot : Nat} (hc : (s.slot core slot).coupled = false) (ht : (s.slot core slot).ticket = 0)
    (dva : Nat) : (s.killSlot core slot dva).curCore = s.curCore ∧ (s.killSlot core slot dva).curSlot = s.curSlot := by
  obtain ⟨bytes, he⟩ := killSlot_eq hc dva
  have hl : (s.leaving core slot).curCore = (s.dropWaiters core slot).curCore ∧
      (s.leaving core slot).curSlot = (s.dropWaiters core slot).curSlot := by
    unfold State.leaving
    dsimp only
    split <;> exact ⟨rfl, rfl⟩
  rw [he, ht]
  exact ⟨hl.1.trans (dropWaiters_cur s core slot).1, hl.2.trans (dropWaiters_cur s core slot).2⟩

/-! ## A frame resumed in place (R82, R84) -/

/-- What a resumption in place does to its slot. -/
def Resumes (f : Slot → Slot) (fr : Frame) : Prop :=
  ∀ x, (f x).st = .ready ∧ (f x).pc = fr.pc ∧ (f x).join = fr.join ∧ (f x).ticket = x.ticket ∧ (f x).coupled = x.coupled ∧
    (f x).reg 2 = x.reg 2 ∧ ∀ i, i < 8 → (f x).reg (BitVec.ofNat 5 (24 + i)) = fr.carry.getD i 0

/-- The registers that a resumption in place leaves undefined, of a slot. -/
def Slot.scrambled (x : Slot) (t : Nat) : Slot :=
  { x with
    s := Vector.ofFn fun (i : Fin 32) =>
      if i.val = 0 ∨ 24 ≤ i.val ∨ (i.val = 2 ∧ !false) then x.s[i] else Config.freeWord (t + i.val)
    p := if false then (Config.freeWord (t + 32)).extractLsb' 0 8 ||| 1 else x.p }

/-- What a frame puts into its slot. -/
def Slot.fromFrame (x : Slot) (fr : Frame) (strand group : BitVec 24) (ival : BitVec 16) (caps : List Cap) : Slot :=
  { x with
    pc := fr.pc, join := fr.join, strand := strand, group := group, ival := ival, st := .ready, adone := false
    s := Vector.ofFn fun (i : Fin 32) => if i.val < 24 then x.s[i] else fr.carry.getD (i.val - 24) 0
    c := Vector.ofFn fun (i : Fin 8) => caps.getD i.val 0 }

/-! The registers are generalised first: the kernel would evaluate them. -/

theorem Slot.scrambled_ticket (x : Slot) (t : Nat) : (x.scrambled t).ticket = x.ticket := by
  unfold Slot.scrambled
  generalize Vector.ofFn _ = v
  rfl

theorem Slot.scrambled_coupled (x : Slot) (t : Nat) : (x.scrambled t).coupled = x.coupled := by
  unfold Slot.scrambled
  generalize Vector.ofFn _ = v
  rfl

theorem Slot.reg_two (x : Slot) : x.reg 2 = x.s[2] := rfl

theorem Slot.fromFrame_reads (x : Slot) (fr : Frame) (strand group : BitVec 24) (ival : BitVec 16) (caps : List Cap) :
    (x.fromFrame fr strand group ival caps).st = .ready ∧ (x.fromFrame fr strand group ival caps).pc = fr.pc ∧
      (x.fromFrame fr strand group ival caps).join = fr.join ∧ (x.fromFrame fr strand group ival caps).ticket = x.ticket ∧
      (x.fromFrame fr strand group ival caps).coupled = x.coupled := ⟨rfl, rfl, rfl, rfl, rfl⟩

theorem resumes_fromFrame (fr : Frame) (t : Nat) (strand group : BitVec 24) (ival : BitVec 16) (caps : List Cap) :
    Resumes (fun x => (x.scrambled t).fromFrame fr strand group ival caps) fr := by
  intro x
  beta_reduce
  obtain ⟨hst, hpc, hjoin, hticket, hcoupled⟩ := (x.scrambled t).fromFrame_reads fr strand group ival caps
  rw [x.scrambled_ticket] at hticket
  rw [x.scrambled_coupled] at hcoupled
  refine ⟨hst, hpc, hjoin, hticket, hcoupled, ?_, fun i hi => ?_⟩
  · rw [Slot.reg_two, Slot.reg_two, Slot.fromFrame, Slot.scrambled]
    simp
  · have hcode : (BitVec.ofNat 5 (24 + i)).toNat = 24 + i := by rw [BitVec.toNat_ofNat]; omega
    have hne : ¬ BitVec.ofNat 5 (24 + i) = 0#5 := fun h => by
      have := congrArg BitVec.toNat h
      rw [hcode] at this
      simp at this
    rw [Slot.reg, if_neg hne, Slot.fromFrame]
    simp only [hcode, Vector.getElem_ofFn]
    rw [if_neg (by omega), Nat.add_sub_cancel_left]

theorem frameStrand_leaves (s : State) (l : Launch) (gid : Nat) : (s.frameStrand l gid).1.cores = s.cores ∧
    (s.frameStrand l gid).1.curCore = s.curCore ∧ (s.frameStrand l gid).1.curSlot = s.curSlot := by
  unfold State.frameStrand
  split <;> exact ⟨rfl, rfl, rfl⟩

theorem resume_leaves (s : State) {core slot : Nat} (hk : slot < 16) (l : Launch) (fr : Frame) {t : State}
    (ht : (s.resume core slot l fr false).1 = t) :
    (∃ f, Resumes f fr ∧ t.slot core slot = f (s.slot core slot)) ∧ t.curCore = s.curCore ∧ t.curSlot = s.curSlot := by
  have hw := loadCaps_byWalk s core l fr.capidx
  unfold State.resume at ht
  split at ht
  next u caps bad hu =>
    rw [hu] at hw
    dsimp only at ht
    obtain ⟨hcores, hcc, hcs⟩ := frameStrand_leaves (u.scramble core slot false) l fr.group.toNat
    generalize (u.scramble core slot false).frameStrand l fr.group.toNat = r at ht hcores hcc hcs
    obtain ⟨v, strand, group, ival⟩ := r
    have hslot : v.slot core slot = (s.slot core slot).scrambled u.tick := by
      rw [State.slot, State.core_of_cores hcores]
      refine (State.slot_modSlot_same ({ u with tick := u.tick + 33 } : State) core slot (fun x => x.scrambled u.tick) hk).trans ?_
      rw [State.slot, State.core_of_cores (s := s) (t := { u with tick := u.tick + 33 }) hw.cores, State.slot]
    refine ⟨⟨_, resumes_fromFrame fr u.tick strand group ival caps, ?_⟩, ?_, ?_⟩
    · rw [← ht, ← hslot]
      exact State.slot_modSlot_same v core slot (fun x => x.fromFrame fr strand group ival caps) hk
    · rw [← ht]
      exact hcc.trans hw.curs.1
    · rw [← ht]
      exact hcs.trans hw.curs.2

/-- The state in which a frame at an offset of local memory is resumed: its STGs are the slot's. -/
def State.takingOver (s : State) (off : Nat) : State :=
  (s.moveStgs (.slot s.curCore s.curSlot) .ended).moveStgs (Loc.lm s.curCore off).owner (.slot s.curCore s.curSlot)

theorem takingOver_leaves (s : State) (off : Nat) : (∃ n, (s.takingOver off).cur = { s.cur with stgs := n }) ∧
    ((s.takingOver off).core s.curCore).lmPoison = (s.core s.curCore).lmPoison := by
  obtain ⟨n, hn⟩ := moveStgs_slot s (.slot s.curCore s.curSlot) .ended s.curCore s.curSlot
  obtain ⟨m, hm⟩ := moveStgs_slot (s.moveStgs (.slot s.curCore s.curSlot) .ended) (Loc.lm s.curCore off).owner (.slot s.curCore s.curSlot)
    s.curCore s.curSlot
  refine ⟨⟨m, hm.trans (by rw [hn]; rfl)⟩, ?_⟩
  exact (moveStgs_core _ _ _ Core.lmPoison (fun _ _ => rfl) (fun _ _ => rfl) _).trans
    (moveStgs_core _ _ _ Core.lmPoison (fun _ _ => rfl) (fun _ _ => rfl) _)

/-- The strand of a frame that a resumption in place has put into the current slot. -/
theorem resumed_replies {r : State} {f : Slot → Slot} {x : Slot} {fr : Frame} (hk : SlotOk r) (hf : Resumes f fr) (hcur : r.cur = f x)
    {t : State} (ht : ((r.replyWith []).modCur fun x => { x with ret := fr.ret, retpos := fr.retpos }) = t) :
    Resumed (served t) r.curCore r.curSlot fr ∧ (served t).cur.reg 2 = x.reg 2 := by
  obtain ⟨-, hpc, hjoin, -, -, htwo, hcarry⟩ := hf x
  have htcur : t.cur = { f x with st := .reply, reply := some ⟨.now, [], false⟩, out := none, ret := fr.ret, retpos := fr.retpos } := by
    rw [← ht, State.cur_modCur (r.replyWith []) _ hk, cur_replyWith hk, hcur]
  have hreg (q : Reg) : (served t).cur.reg q = (f x).reg q := by
    refine Slot.reg_of_s ?_ q
    rw [served_keeps t Slot.s fun _ => rfl, htcur]
  have hsame : (served t).slot r.curCore r.curSlot = (served t).cur := by subst ht; rfl
  refine ⟨.inr ?_, (hreg 2).trans htwo⟩
  rw [hsame]
  refine ⟨?_, ?_, ?_, fun i hi => (hreg _).trans (hcarry i hi)⟩
  · rw [served_keeps t Slot.st fun _ => rfl, htcur]
    exact nofun
  · rw [served_keeps t Slot.pc fun _ => rfl, htcur]
    exact hpc
  · rw [served_keeps t Slot.join fun _ => rfl, htcur]
    exact hjoin

theorem resumed_killed {r : State} (hk : SlotOk r) (hc : r.cur.coupled = false) (ht : r.cur.ticket = 0) (dva : Nat) (fr : Frame) :
    Resumed (served (r.killSlot r.curCore r.curSlot dva)) r.curCore r.curSlot fr ∧
      (served (r.killSlot r.curCore r.curSlot dva)).cur.st = .killed := by
  obtain ⟨hkill, -⟩ := killSlot_kills hk hc ht dva
  obtain ⟨hkc, hks⟩ := killSlot_cur hc ht dva
  refine ⟨.inl ((served_slot_keeps _ Slot.st (fun _ => rfl) _ _).trans hkill), ?_⟩
  rw [served_keeps _ Slot.st fun _ => rfl, State.cur, hkc, hks]
  exact hkill

/-- A frame of local memory resumed in place: the frame's strand runs, or was killed by poison in the capability table. -/
theorem resumeHere_leaves {s : State} (hk : SlotOk s) (hc : s.cur.coupled = false) (ht : s.cur.ticket = 0) (hp : s.here.lmPoison = [])
    (l : Launch) (off dva : Nat) : ∃ t, s.resumeHere l (.lm s.curCore off) dva = .ok t ∧
      Resumed (served t) s.curCore s.curSlot (Frame.ofBytes (s.here.lm.rdBytes off 96)) ∧
      ((served t).cur.st = .killed ∨ (served t).cur.reg 2 = s.cur.reg 2) := by
  obtain ⟨⟨n, hcur⟩, hpoison⟩ := takingOver_leaves s off
  have hclean : (s.takingOver off).poisonedAt (.lm s.curCore off) 96 = false := poisonedAt_of_none (hpoison.trans hp) off 96
  have hres : s.resumeHere l (.lm s.curCore off) dva =
      match (s.takingOver off).resume s.curCore s.curSlot l (Frame.ofBytes (s.here.lm.rdBytes off 96)) false with
      | (u, bad) =>
        if bad.isSome then .ok (u.killSlot u.curCore u.curSlot (bad.getD 0))
        else .ok ((u.replyWith []).modCur fun x => { x with ret := (Frame.ofBytes (s.here.lm.rdBytes off 96)).ret
                                                            retpos := (Frame.ofBytes (s.here.lm.rdBytes off 96)).retpos }) :=
    if_neg (by rw [Bool.not_eq_true]; exact hclean)
  rw [hres]
  generalize Frame.ofBytes (s.here.lm.rdBytes off 96) = fr
  obtain ⟨⟨f, hf, hslot⟩, hcc, hcs⟩ := resume_leaves (s.takingOver off) (core := s.curCore) (slot := s.curSlot) hk l fr rfl
  have hmcc : (s.takingOver off).curCore = s.curCore ∧ (s.takingOver off).curSlot = s.curSlot := ⟨rfl, rfl⟩
  generalize s.takingOver off = m at *
  obtain ⟨hmcc, hmcs⟩ := hmcc
  generalize m.resume s.curCore s.curSlot l fr false = r at *
  obtain ⟨u, bad⟩ := r
  replace hcc : u.curCore = s.curCore := hcc.trans hmcc
  replace hcs : u.curSlot = s.curSlot := hcs.trans hmcs
  have hku : SlotOk u := by rw [SlotOk, hcs]; exact hk
  have hmslot : m.slot s.curCore s.curSlot = { s.cur with stgs := n } := by rw [← hmcc, ← hmcs]; exact hcur
  have hucur : u.cur = f { s.cur with stgs := n } := by
    rw [State.cur, hcc, hcs, ← hmslot]
    exact hslot
  obtain ⟨-, -, -, hticket, hcoupled, -, -⟩ := hf { s.cur with stgs := n }
  rw [← hcc, ← hcs]
  by_cases hb : bad.isSome = true
  · obtain ⟨hres, hst⟩ := resumed_killed hku (by rw [hucur, hcoupled]; exact hc) (by rw [hucur, hticket]; exact ht) (bad.getD 0) fr
    exact ⟨_, if_pos hb, hres, .inl hst⟩
  · obtain ⟨hres, htwo⟩ := resumed_replies hku hf hucur rfl
    exact ⟨_, if_neg hb, hres, .inr htwo⟩

/-! ## The checks of DONE (R286, R287) -/

/-- A command or result of the strand that DONE may not leave. -/
def Completion.Mine (c : Completion) : Prop := c.kind = 0 ∧ c.ctx = 0

theorem popped_of_mine {c : Completion} (h : c.Mine) : c.popped = true := by
  obtain ⟨hk, hc⟩ := h
  simp [Completion.popped, Completion.own, Completion.lent, hk, hc]

theorem owes_of_command {c : Core} {k : Nat} (h : (∃ m ∈ (c.slot k).matQ, m.sync = false ∧ m.comp.Mine) ∨ (∃ m ∈ (c.slot k).copyQ, m.comp.Mine) ∨
    (∃ r, c.copyRun = some r ∧ r.slot = k ∧ r.killed = false ∧ r.cmd.comp.Mine) ∨ ∃ e ∈ c.ended, e.slot = k ∧ e.comp.Mine) :
    c.owes k false = true ∨ c.owes k true = true := by
  obtain ⟨m, hm, hsync, hmine⟩ | ⟨m, hm, hmine⟩ | ⟨r, hr, hslot, hlive, hmine⟩ | ⟨e, he, hslot, hmine⟩ := h
  · exact .inl (Bool.or_eq_true_iff.mpr (.inl (List.any_eq_true.mpr ⟨m, hm, by simp [hsync, popped_of_mine hmine]⟩)))
  · exact .inr (Bool.or_eq_true_iff.mpr (.inl (Bool.or_eq_true_iff.mpr (.inl (List.any_eq_true.mpr ⟨m, hm, popped_of_mine hmine⟩)))))
  · exact .inr (Bool.or_eq_true_iff.mpr (.inl (Bool.or_eq_true_iff.mpr (.inr (by simp [hr, hslot, hlive, popped_of_mine hmine])))))
  · have hin (copy : Bool) (hc : e.copy = copy) : (c.ended.any fun e => e.slot == k && e.copy == copy && e.comp.popped) = true :=
      List.any_eq_true.mpr ⟨e, he, by simp [hslot, hc, popped_of_mine hmine]⟩
    cases hc : e.copy
    · exact .inl (Bool.or_eq_true_iff.mpr (.inr (hin false hc)))
    · exact .inr (Bool.or_eq_true_iff.mpr (.inr (hin true hc)))

theorem done_pkt {s : State} (hp : s.cur.packet ≠ none) : s.done = .error (.trap clsPkt 4) := by
  unfold State.done
  dsimp only
  rw [need_of_false (by simpa [Option.isSome_iff_ne_none] using hp), error_bind]

theorem done_eng {s : State} (hp : s.cur.packet = none) (hc : s.cur.coupled = false)
    (h : (!s.here.owes s.curSlot false && !s.here.owes s.curSlot true && s.cur.matRes.isEmpty && s.cur.copyRes.isEmpty) = false) :
    s.done = .error (.trap clsEng 0xFFFF) := by
  unfold State.done
  dsimp only
  rw [need_of_true (by simp [hp]), ok_bind, notCoupled_ok hc, ok_bind, need_of_false h, error_bind]

/-- Nothing holds the strand back: no packet, no engine work, no walk, no gang, an empty sequencer, its stores performed. -/
structure MayEnd (s : State) : Prop where
  packet : s.cur.packet = none
  coupled : s.cur.coupled = false
  mat : s.here.owes s.curSlot false = false
  copy : s.here.owes s.curSlot true = false
  matRes : s.cur.matRes = []
  copyRes : s.cur.copyRes = []
  ticket : s.cur.ticket = 0
  seq : s.cur.seq = []
  stores : StoresIn s
  odd : s.pairedOdd s.curCore s.curSlot = false

/-- The access to the join word before the strand ends. -/
def State.atJoin (s : State) (join : Option Loc) : State :=
  match join with
  | some l => s.serveMe l true true
  | none => s

theorem done_ends {s : State} (h : MayEnd s) (hstack : s.cur.ret = .inline → s.stackCheck (s.src 2).toNat ((s.src 2).toNat + 96) = .ok ())
    {join : Option Loc} (hj : (if s.cur.join = 0 ∨ s.curSlot = 14 then .ok none else some <$> s.xlate s.cur.join .atomic) = Except.ok join) :
    s.done = if s.curSlot = 14 then .ok ((s.atJoin join).freeSlot (s.atJoin join).curCore (s.atJoin join).curSlot)
      else (s.atJoin join).endStrand join := by
  obtain ⟨hp, hc, hm, hcp, hmr, hcr, ht, hq, hs, -⟩ := h
  have htick : ¬ ((s.cur.ticket != 0) = true ∧ s.cur.ret ≠ .inline) := fun h => by simp [ht] at h
  have hcheck (e : Except Stop State) :
      (if s.cur.ret = .inline then s.stackCheck (s.src 2).toNat ((s.src 2).toNat + 96) >>= fun _ => e else e) = e := by
    split
    · next hi => rw [hstack hi, ok_bind]
    · rfl
  unfold State.done
  dsimp only
  rw [need_of_true (by simp [hp]), ok_bind, notCoupled_ok hc, ok_bind, need_of_true (by simp [hm, hcp, hmr, hcr]), ok_bind, if_neg htick, hcheck]
  by_cases hn : s.cur.join = 0 ∨ s.curSlot = 14
  · rw [if_pos hn] at hj ⊢
    cases hj
    rw [ok_bind, seqEmpty_ok hq, ok_bind, release_quiet hs, ok_bind]
    rfl
  · rw [if_neg hn] at hj ⊢
    rw [hj, ok_bind, seqEmpty_ok hq, ok_bind, release_quiet hs, ok_bind]
    obtain ⟨l, rfl⟩ : ∃ l, join = some l := by
      cases hx : s.xlate s.cur.join .atomic with
      | ok l => rw [hx] at hj; exact ⟨l, (Except.ok.inj hj).symm⟩
      | error e => rw [hx] at hj; exact absurd hj nofun
    have hcs : (s.serveMe l true true).curSlot = s.curSlot := (serveMe_byMemory s l true true).leaves.2.2.1
    unfold State.atJoin
    dsimp only
    rw [atHome_quiet hs, ok_bind, hcs]

/-! ## How a strand ends (R84) -/

theorem endStrand_free {s : State} (hr : s.cur.ret = .none) : s.endStrand none = .ok (s.freeSlot s.curCore s.curSlot) := by
  unfold State.endStrand
  dsimp only
  rw [if_neg Bool.false_ne_true, hr]

theorem endStrand_join {s : State} {l : Loc} (hclean : s.poisonedAt l 8 = false) (hr : s.cur.ret = .none) :
    s.endStrand (some l) = .ok ((s.addAt l (-1)).freeSlot (s.addAt l (-1)).curCore (s.addAt l (-1)).curSlot) := by
  unfold State.endStrand
  dsimp only
  rw [hclean, if_neg Bool.false_ne_true, hr]

/-- The deque of a launch on a core without its bottom frame. -/
def State.popFrame (s : State) (launch : Nat) : State :=
  s.modSeat launch s.curCore fun p => { p with frames := p.frames.dropLast, bottom := p.bottom - 1 }

theorem endStrand_deque {s : State} {l : Launch} {p : Seat} {rest : List Nat} {last : Nat} (hr : s.cur.ret = .deque)
    (hl : s.launchOf s.cur = some l) (hseat : l.seat s.curCore = some p) (hf : p.frames = rest ++ [last])
    (hb : p.bottom - 1 = s.cur.retpos) : ∃ dva, s.endStrand none = (s.popFrame l.id).resumeHere l (.lm s.curCore (p.framePlace last)) dva := by
  refine ⟨gwin s.device s.curCore (p.framePlace last), ?_⟩
  unfold State.endStrand
  dsimp only
  rw [if_neg Bool.false_ne_true, hr, hl, Option.bind_some, hseat]
  dsimp only
  rw [hf, List.getLast?_concat]
  dsimp only
  rw [if_pos hb]
  rfl

theorem endStrand_inline {s : State} {l : Launch} {off : Nat} (hr : s.cur.ret = .inline) (hl : s.launchOf s.cur = some l)
    (hp : s.place s.cur.launch s.curCore (s.src 2).toNat = some off) : ∃ dva, s.endStrand none =
      (s.setReg 2 (BitVec.ofNat 64 ((s.src 2).toNat + 96))).resumeHere l (.lm s.curCore off) dva := by
  refine ⟨s.ownDva (s.src 2), ?_⟩
  unfold State.endStrand
  dsimp only
  rw [if_neg Bool.false_ne_true, hr, hl]
  dsimp only
  rw [hp]

/-- A strand that ends at its join word: the count falls by one, and its slot is FREE. -/
theorem joined_leaves {s : State} (hk : SlotOk s) (h : MayEnd s) (hw : NoWaiters s) (pa : Nat) (tr : Bool) (cl key : Nat) :
    let u := (s.serveMe (.mem pa tr cl key) true true).addAt (.mem pa tr cl key) (-1)
    (served (u.freeSlot u.curCore u.curSlot)).cur.st = .free ∧ (served (u.freeSlot u.curCore u.curSlot)).rdWord (.mem pa tr cl key) =
      s.rdWord (.mem pa tr cl key) - 1 ∧ SameOutside s (served (u.freeSlot u.curCore u.curSlot)) (.mem pa tr cl key) 8 := by
  intro u
  have hby := serveMe_byMemory s (.mem pa tr cl key) true true
  obtain ⟨v, bs, hv, hadd, hword, hout⟩ := addAt_home (hby.noWaiters hw) pa tr cl key (-1)
  obtain ⟨hcores, hcc, hcs, -, -, -, -, -⟩ := (hby.trans hv).leaves
  have hu : u = v.modCore v.curCore fun c => c.refreshL1 (.mem pa tr cl key) bs false := hadd
  have hslot (k : Nat) : u.slot s.curCore k = s.slot s.curCore k := by
    rw [hu, State.slot_modCore_keep v _ (fun c => c.refreshL1 (.mem pa tr cl key) bs false) (fun _ => rfl), State.slot,
      State.core_of_cores hcores, State.slot]
  have hucc : u.curCore = s.curCore := by rw [hu]; exact hcc
  have hucs : u.curSlot = s.curSlot := by rw [hu]; exact hcs
  rw [hucc, hucs]
  obtain ⟨hst, -, -, hmem, hfc, hfs⟩ := freeSlot_leaves (s := u) (core := s.curCore) (slot := s.curSlot) hk (by rw [hslot]; exact h.ticket)
    (by rw [State.pairedOdd, hslot, hslot]; exact h.odd)
  have hsame : SameMemory v (served (u.freeSlot s.curCore s.curSlot)) := by
    have hvu : SameMemory v u := by
      rw [hu]
      exact sameMemory_modCore v _ (fun c => c.refreshL1 (.mem pa tr cl key) bs false) fun _ => rfl
    exact SameMemory.trans hvu (SameMemory.trans hmem (sameMemory_served _))
  refine ⟨?_, ?_, ?_⟩
  · rw [served_keeps _ Slot.st fun _ => rfl, State.cur, hfc, hfs, hucc, hucs]
    exact hst
  · rw [State.rdWord, rdLoc_of_sameMemory hsame]
    exact hword.trans (by rw [serveMe_rdWord]; exact (sub_eq_add_neg _ _).symm)
  · exact sameOutside_trans (sameOutside_of_sameMemory (serveMe_sameMemory s _ true true) _ _)
      (sameOutside_trans hout (sameOutside_of_sameMemory hsame _ _))

end Sys2Proof.Machine

namespace Sys2Proof.Proofs

open Sys2Proof Sys2Proof.Machine

/-- Settles O36: the checks in their order; then the slot is left, or one frame is resumed in place, of the deque or of the stack. -/
theorem doneEndsTheStrand : Obligations.DoneEndsTheStrand := by
  unfold Obligations.DoneEndsTheStrand
  intro s g hk hg
  refine ⟨fun hp => exec_stops rfl hg (done_pkt hp), fun hp hc hres => exec_stops rfl hg (done_eng hp hc ?_), fun hp hc hres =>
    exec_stops rfl hg (done_eng hp hc ?_), fun hp hc hm hcp hmr hcr ht hq hs hw ho => ?_⟩
  · obtain h | h := hres <;> simp [h]
  · obtain h | h := owes_of_command hres
    · rw [show s.here.owes s.curSlot false = true from h]
      rfl
    · rw [show s.here.owes s.curSlot true = true from h]
      simp
  · have h : MayEnd s := ⟨hp, hc, hm, hcp, hmr, hcr, ht, hq, hs, ho⟩
    have hnone {e : Except Stop Loc} (h0 : s.cur.join = 0 ∨ s.curSlot = 14) :
        (if s.cur.join = 0 ∨ s.curSlot = 14 then .ok none else some <$> e) = (Except.ok none : Except Stop (Option Loc)) := if_pos h0
    obtain ⟨hst, hla, hgr, hmem, hfc, hfs⟩ := freeSlot_leaves (s := s) (core := s.curCore) (slot := s.curSlot) hk ht ho
    have hfree : (s.freeSlot s.curCore s.curSlot).cur = (s.freeSlot s.curCore s.curSlot).slot s.curCore s.curSlot := by
      rw [State.cur, hfc, hfs]
    have hfreed : (served (s.freeSlot s.curCore s.curSlot)).cur.st = .free ∧ (served (s.freeSlot s.curCore s.curSlot)).cur.launch = none ∧
        (served (s.freeSlot s.curCore s.curSlot)).cur.groups = [] ∧ SameMemory s (served (s.freeSlot s.curCore s.curSlot)) := by
      rw [served_keeps _ Slot.st fun _ => rfl, served_keeps _ Slot.launch fun _ => rfl, served_keeps _ Slot.groups fun _ => rfl, hfree]
      exact ⟨hst, hla, hgr, SameMemory.trans hmem (sameMemory_served _)⟩
    obtain ⟨hf1, hf2, hf3, hf4⟩ := hfreed
    refine ⟨fun h14 hr => ?_, fun h14 hr hj => ?_, fun pa tr cl key h14 hr hj hx hclean => ?_,
      fun l p rest last h14 hr hj hl hseat hfr hb hpoison => ?_, fun l o h14 hr hj hl hpoison haln hlo hhi hplace => ?_⟩
    · have hd := done_ends h (fun hi => absurd hi hr) (hnone (.inr h14))
      rw [if_pos h14] at hd
      exact ⟨_, exec_served rfl hg hd, hf1, hf4⟩
    · have hd := done_ends h (fun hi => by rw [hr] at hi; exact absurd hi nofun) (hnone (.inl hj))
      rw [if_neg h14] at hd
      exact ⟨_, exec_served rfl hg (hd.trans (endStrand_free hr)), hf1, hf2, hf3, hf4⟩
    · have hd := done_ends h (fun hi => by rw [hr] at hi; exact absurd hi nofun) (join := some (.mem pa tr cl key))
        (by rw [if_neg (by simp [hj, h14]), hx]; rfl)
      rw [if_neg h14] at hd
      have hr' : (s.serveMe (.mem pa tr cl key) true true).cur.ret = .none := by
        obtain ⟨hcores, hcc, hcs, -⟩ := (serveMe_byMemory s (.mem pa tr cl key) true true).leaves
        rw [State.cur_of_cores hcores hcc hcs, hr]
      exact ⟨_, exec_served rfl hg (hd.trans (endStrand_join hclean hr')), joined_leaves hk h hw pa tr cl key⟩
    · have hd := done_ends h (fun hi => by rw [hr] at hi; exact absurd hi nofun) (hnone (.inl hj))
      rw [if_neg h14] at hd
      obtain ⟨dva, he⟩ := endStrand_deque hr hl hseat hfr hb
      obtain ⟨t, hres, hresumed, -⟩ := resumeHere_leaves (s := s.popFrame l.id) hk hc ht hpoison l (p.framePlace last) dva
      exact ⟨_, exec_served rfl hg (hd.trans (he.trans hres)), hresumed⟩
    · have hstack : s.stackCheck (s.src 2).toNat ((s.src 2).toNat + 96) = .ok () := by
        unfold uns at haln hlo hhi
        rw [State.stackCheck, need_of_true (decide_eq_true ⟨by omega, by omega⟩), ok_bind, need_of_true (beq_iff_eq.mpr haln)]
      have hd := done_ends h (fun _ => hstack) (hnone (.inl hj))
      rw [if_neg h14] at hd
      obtain ⟨dva, he⟩ := endStrand_inline hr hl hplace
      set u := s.setReg 2 (BitVec.ofNat 64 ((s.src 2).toNat + 96)) with hu
      have hucur : u.cur = s.cur.setReg 2 (BitVec.ofNat 64 ((s.src 2).toNat + 96)) := State.cur_setReg hk _ _
      have hulm : u.here.lm = s.here.lm := State.core_modSlot_keeps s _ _ _ Core.lm (fun _ _ => rfl) _
      have hup : u.here.lmPoison = [] := (State.core_modSlot_keeps s _ _ _ Core.lmPoison (fun _ _ => rfl) _).trans hpoison
      obtain ⟨t, hres, hresumed, hlast⟩ := resumeHere_leaves (s := u) hk (by rw [hucur, Slot.setReg_coupled]; exact hc)
        (by rw [hucur, Slot.setReg_ticket]; exact ht) hup l o dva
      rw [hulm] at hresumed
      refine ⟨_, exec_served rfl hg (hd.trans (he.trans hres)), hresumed, hlast.imp_right fun h2 => ?_⟩
      rw [h2, hucur, Slot.reg_setReg, if_neg (by decide), if_pos rfl]
      rfl

end Sys2Proof.Proofs
end

section
/-!
Requests, walks and turns, of O52.
-/
namespace Sys2Proof.Machine

open Sys2Proof

/-! ## Requests and timers (R181, R187) -/

/-- A slot that may be pre-empted. -/
def SlotState.Live (st : SlotState) : Prop := st = .ready ∨ st = .reply ∨ st = .parked ∨ st = .faulted

theorem SlotState.Live.holds {st : SlotState} (h : st.Live) : st.holdsStrand = true := by
  obtain rfl | rfl | rfl | rfl := h <;> rfl

theorem strandSlot_of_live {s : State} {core slot : Nat} (h : (s.slot core slot).st.Live) : s.strandSlot core slot = slot := by
  refine if_neg fun hg => ?_
  have hst : (s.slot core slot).st = .ganged := hg.1
  rw [hst] at h
  obtain h | h | h | h := h <;> exact absurd h nofun

theorem requestPreempt_raises {s : State} {core slot : Nat} (h14 : slot ≠ 14) (h : (s.slot core slot).st.Live) :
    s.requestPreempt core slot = s.modSlot core slot fun x => { x with preReq := x.preReq <|> some s.cc } := by
  unfold State.requestPreempt
  rw [strandSlot_of_live h]
  exact if_neg (by simp [h14, h.holds])

theorem requestPreempt_dropped (s : State) (core : Nat) : s.requestPreempt core 14 = s := by
  have hk : s.strandSlot core 14 = 14 := if_neg (by simp)
  unfold State.requestPreempt
  rw [hk]
  exact if_pos (.inl rfl)

/-- A timer that stands at 1 expires, and raises a request. -/
theorem timerExpires_raises {s : State} {core slot : Nat} (hk : slot < 16) (h14 : slot ≠ 14)
    (h : (s.slot core slot).st = .ready ∨ (s.slot core slot).st = .reply ∨ (s.slot core slot).st = .parked)
    (ht : (s.slot core slot).timer = 1) : ((s.timerExpires core slot).slot core slot).timer = 0 ∧
      ((s.timerExpires core slot).slot core slot).preReq = ((s.slot core slot).preReq <|> some s.cc) ∧
      SameMemory s (s.timerExpires core slot) := by
  set u := s.modSlot core slot fun x => { x with timer := 0 } with hu
  have huslot : u.slot core slot = { s.slot core slot with timer := 0 } := State.slot_modSlot_same s core slot _ hk
  have hlive : (u.slot core slot).st.Live := by
    rw [huslot]
    obtain h | h | h := h
    · exact .inl h
    · exact .inr (.inl h)
    · exact .inr (.inr (.inl h))
  have hexp : s.timerExpires core slot = u.requestPreempt core slot :=
    if_pos (by obtain h | h | h := h <;> simp [Slot.timed, h, ht])
  rw [hexp, requestPreempt_raises h14 hlive, State.slot_modSlot_same _ _ _ _ hk, huslot]
  exact ⟨rfl, rfl, SameMemory.trans (sameMemory_modSlot s core slot _) (sameMemory_modSlot u core slot _)⟩

theorem holdTimeout_traps {s : State} {core slot since : Nat} (hst : (s.slot core slot).st = .ready) (hs : (s.slot core slot).since = none)
    (hc : (s.slot core slot).coupled = false) (hp : (s.slot core slot).packet.isSome = true) (hr : (s.slot core slot).preReq = some since)
    (hcc : since + 65536 ≤ s.cc) (hw : s.trapWaits core slot = false) : s.holdTimeout core slot =
      s.takeTrap core slot clsPkt 6 (s.slot core slot).pc 0 (s.slot core slot).adone false := by
  have hdue : s.holdDue core slot = true := by simp [State.holdDue, hst, hs, hp, hr, hcc, hw]
  unfold State.holdTimeout
  rw [hdue, hc]
  rfl

/-! ## Walks (R103–R105) -/

theorem ByWalk.sameMemory {s t : State} (h : ByWalk s t) : SameMemory s t := by
  obtain ⟨_, _, _, _, rfl⟩ := h
  exact ⟨fun _ => rfl, fun _ _ => rfl⟩

theorem ByWalk.slot {s t : State} (h : ByWalk s t) (core k : Nat) : t.slot core k = s.slot core k := by
  rw [State.slot, State.core_of_cores h.cores, State.slot]

theorem cluster_modCluster (s : State) (n : Nat) (f : Cluster → Cluster) : (s.modCluster n f).cluster n = f (s.cluster n) := by
  rw [State.cluster, State.modCluster, Sparse.get_put, if_pos rfl]

theorem install_head (s : State) (core : Nat) (e : TlbEntry) : ((s.install core e).cluster (core / 8)).tlb.head? = some e := by
  rw [State.install]
  exact congrArg (fun c : Cluster => c.tlb.head?) (cluster_modCluster s (clusterOf core) _)

section Walks

variable {s u : State} {core slot : Nat} {w : Walk} (hk : slot < 16) (hw : (s.slot core slot).walk = some w)
  (hst : (s.slot core slot).st = .reply) (hq : (s.slot core slot).seqReply = false)

include hw in
theorem finishWalk_waits (h : s.faultWaits core w.asid = true) : s.finishWalk core slot = s := by
  unfold State.finishWalk
  dsimp only
  rw [hw]
  exact if_pos (.inr h)

include hk hw hst hq

/-- A walk that ends in a leaf with the rights. -/
theorem finishWalk_leaf {e : TlbEntry} (hf : s.faultWaits core w.asid = false) (hwalk : s.walk core w.asid w.dva = (u, .leaf e))
    (hl : leafCause e.pte w.kind.reads w.kind.writes = none) (hi : w.install = true) :
    ((s.finishWalk core slot).slot core slot).st = .ready ∧ ((s.finishWalk core slot).slot core slot).walk = none ∧
      ((s.finishWalk core slot).cluster (core / 8)).tlb.head? = some e ∧ SameMemory s (s.finishWalk core slot) := by
  have hu : ByWalk s u := by
    have := walk_byWalk s core w.asid w.dva
    rwa [hwalk] at this
  have hv : ByWalk s (u.install core e) := hu.trans (install_byWalk u core e)
  have hfin : s.finishWalk core slot = (u.install core e).modSlot core slot fun x => { x.goOn with walk := none, grants := x.grants } := by
    unfold State.finishWalk
    dsimp only
    rw [hw]
    dsimp only
    rw [if_neg (by simp [hst, hf]), hwalk]
    dsimp only
    rw [hl, hi]
    rfl
  rw [hfin, State.slot_modSlot_same _ _ _ _ hk, hv.slot]
  refine ⟨?_, rfl, install_head u core e, SameMemory.trans hv.sameMemory (sameMemory_modSlot _ _ _ _)⟩
  show (if (s.slot core slot).seqReply then SlotState.reply else .ready) = .ready
  rw [hq]
  rfl

/-- A walk that fails. -/
theorem finishWalk_fails {cause : Nat} (hf : s.faultWaits core w.asid = false) (hwalk : s.walk core w.asid w.dva = (u, .fail cause)) :
    ((s.finishWalk core slot).slot core slot).st = .ready ∧
      ((s.finishWalk core slot).slot core slot).walk = some { w with failed := some cause } ∧ SameMemory s (s.finishWalk core slot) := by
  have hu : ByWalk s u := by
    have := walk_byWalk s core w.asid w.dva
    rwa [hwalk] at this
  have hfin : s.finishWalk core slot = u.modSlot core slot fun x => { x.goOn with walk := some { w with failed := some cause } } := by
    unfold State.finishWalk
    dsimp only
    rw [hw]
    dsimp only
    rw [if_neg (by simp [hst, hf]), hwalk]
  rw [hfin, State.slot_modSlot_same _ _ _ _ hk, hu.slot]
  refine ⟨?_, rfl, SameMemory.trans hu.sameMemory (sameMemory_modSlot _ _ _ _)⟩
  show (if (s.slot core slot).seqReply then SlotState.reply else .ready) = .ready
  rw [hq]
  rfl

end Walks

/-! ## Turns (R75, R76) -/

theorem issueTurn_owner {s : State} {core slot : Nat} (hk : slot < 15) (ho : (s.core core).owner (s.cc % 16) = some slot)
    (hh : s.holdDue core slot = false) (hp : s.preemptDue core slot = false) (hm : s.mayIssue core slot = true)
    (hst : (s.slot core slot).st ≠ .ganged) : s.issueTurn core = { s with curCore := core, curSlot := slot, issuing := true } := by
  have hsettle : s.settleOwner core = s := by
    rw [State.settleOwner, ho]
    show (s.holdTimeout core slot).takePreempt core slot = s
    rw [State.holdTimeout, hh, State.takePreempt]
    show (if !s.preemptDue core slot then s else _) = s
    rw [hp]
    rfl
  have hturn : s.turnOf core = some slot := by
    have hst' : ((s.core core).slot slot).st ≠ .ganged := hst
    unfold State.turnOf
    dsimp only
    rw [ho]
    dsimp only
    rw [if_neg (by simp [hst']), if_pos hm]
  have h15 : (some slot == some 15) = false := by simp; omega
  unfold State.issueTurn
  dsimp only
  rw [hsettle, ho, h15, hturn]
  rfl

end Sys2Proof.Machine
end

section
/-!
What a save area holds, read back (R183), of O52.
-/
namespace Sys2Proof.Machine

open Sys2Proof

/-! ## Chunks of one length -/

theorem length_flatMap_chunks {α : Type} {f : α → List Byte} {n : Nat} (hf : ∀ x, (f x).length = n) (xs : List α) :
    (xs.flatMap f).length = n * xs.length := by
  induction xs with
  | nil => rfl
  | cons x xs ih => rw [List.flatMap_cons, List.length_append, hf, ih, List.length_cons, Nat.mul_succ, Nat.add_comm]

theorem chunk_flatMap {α : Type} {f : α → List Byte} {n : Nat} (hf : ∀ x, (f x).length = n) (rest : List Byte) :
    ∀ (xs : List α) (i : Nat) (h : i < xs.length), ((xs.flatMap f ++ rest).drop (n * i)).take n = f xs[i]
  | x :: xs, 0, _ => by
    rw [Nat.mul_zero, List.drop_zero, List.flatMap_cons, List.append_assoc, List.take_left' (hf x)]
    rfl
  | x :: xs, i + 1, h => by
    rw [Nat.mul_succ, Nat.add_comm, ← List.drop_drop, List.flatMap_cons, List.append_assoc, List.drop_left' (hf x),
      chunk_flatMap hf rest xs i (Nat.lt_of_succ_lt_succ h), List.getElem_cons_succ]

@[simp] theorem length_bytesOfWords (ws : List Nat) : (bytesOfWords ws).length = 8 * ws.length :=
  length_flatMap_chunks (length_bytesOfNat 8) ws

theorem length_capBytes (cs : Vector Cap 8) : (cs.toList.flatMap fun (c : Cap) => bytesOfNat 32 c.toNat).length = 0x100 := by
  rw [length_flatMap_chunks fun (c : Cap) => length_bytesOfNat 32 c.toNat, Vector.length_toList]

/-! ## Words of a saved context -/

theorem savedWord_after {pre bs : List Byte} {n : Nat} (h : pre.length = n) (off : Nat) :
    savedWord (pre ++ bs) (n + off) = savedWord bs off := by
  rw [savedWord, ← List.drop_drop, List.drop_left' h, savedWord]

theorem savedWord_words (ws : List Nat) (rest : List Byte) {i : Nat} (h : i < ws.length) :
    savedWord (bytesOfWords ws ++ rest) (8 * i) = BitVec.ofNat 64 ws[i] := by
  rw [savedWord, bytesOfWords, chunk_flatMap (length_bytesOfNat 8) rest ws i h, natOfBytes_bytesOfNat]
  exact BitVec.eq_of_toNat_eq (by rw [BitVec.toNat_ofNat, BitVec.toNat_ofNat]; exact Nat.mod_mod _ _)

/-! ## The words of R183 -/

/-- The words of a save area from 0x200 on. -/
def lowWords (x : Slot) (vlen vecDva : Nat) : List Nat :=
  [x.pc.toNat, x.statusWord.toNat,
    (x.p ||| 1).toNat + x.ret.code * 2 ^ 8 + bit x.gang 10 + bit x.adone 11 + x.retpos.toNat * 2 ^ 12, x.join,
    x.strand.toNat * 2 ^ 40 + x.group.toNat * 2 ^ 16 + x.ival.toNat, x.trapvec.toNat, x.traprec.toNat, x.ticket.toNat,
    x.stealdom.toNat, x.dtnan.toNat, x.timer.toNat, vlen, x.allot, vecDva,
    x.stgs % 65536 + x.lqWaiting % 65536 * 2 ^ 16 + x.drainsQueued % 65536 * 2 ^ 32]

/-- Four result words, those not in use 0. -/
def fourWords (l : List Word) : List Nat := ((l.map BitVec.toNat) ++ List.replicate 4 0).take 4

theorem length_fourWords (l : List Word) : (fourWords l).length = 4 := by simp [fourWords]

theorem fourWords_get {l : List Word} {i : Nat} (h4 : i < 4) (h : i < l.length) :
    (fourWords l)[i]'((length_fourWords l).symm ▸ h4) = (l[i]).toNat := by
  simp [fourWords, List.getElem_append_left, h]

theorem saveLow_eq (x : Slot) (vlen dva : Nat) : saveLow x vlen dva =
    bytesOfWords (x.s.toList.map BitVec.toNat) ++ (x.c.toList.flatMap fun (c : Cap) => bytesOfNat 32 c.toNat) ++
      bytesOfWords (lowWords x vlen dva) := rfl

theorem saveHigh_eq (x : Slot) : saveHigh x =
    bytesOfWords (fourWords x.matRes ++ fourWords x.copyRes ++ [x.matRes.length + x.copyRes.length * 2 ^ 32]) := rfl

theorem length_saveLow (x : Slot) (vlen dva : Nat) : (saveLow x vlen dva).length = 0x278 := by
  rw [saveLow_eq, List.length_append, List.length_append, length_bytesOfWords, length_capBytes, length_bytesOfWords, List.length_map,
    Vector.length_toList]
  rfl

theorem length_saveHigh (x : Slot) : (saveHigh x).length = 0x48 := by
  rw [saveHigh_eq, length_bytesOfWords]
  simp [length_fourWords]

section Area

variable (x : Slot) (vlen dva : Nat) (rest : List Byte)

/-- A scalar register's word. -/
theorem savedWord_reg (i : Fin 32) : savedWord (saveLow x vlen dva ++ rest) (8 * i.val) = x.s[i] := by
  have hi : i.val < (x.s.toList.map BitVec.toNat).length := by simp
  rw [saveLow_eq, List.append_assoc, List.append_assoc, savedWord_words _ _ hi]
  simp

/-- A capability register's bytes. -/
theorem saved_cap (i : Fin 8) :
    BitVec.ofNat 256 (natOfBytes (((saveLow x vlen dva ++ rest).drop (0x100 + 32 * i.val)).take 32)) = x.c[i] := by
  have hi : i.val < x.c.toList.length := by simp
  rw [saveLow_eq, List.append_assoc, List.append_assoc, ← List.drop_drop, List.drop_left' (by simp),
    chunk_flatMap (fun (c : Cap) => length_bytesOfNat 32 c.toNat) _ _ _ hi, natOfBytes_bytesOfNat]
  exact BitVec.eq_of_toNat_eq (by
    rw [BitVec.toNat_ofNat, show (256 : Nat) ^ 32 = 2 ^ 256 by norm_num, Nat.mod_mod, Nat.mod_eq_of_lt (BitVec.isLt _)]
    simp)

/-- A word from 0x200 on. -/
theorem savedWord_low {i : Nat} (h : i < 15) :
    savedWord (saveLow x vlen dva ++ rest) (0x200 + 8 * i) = BitVec.ofNat 64 ((lowWords x vlen dva)[i]'h) := by
  rw [saveLow_eq, List.append_assoc, savedWord_after (n := 0x200) (by rw [List.length_append, length_capBytes]; simp)]
  exact savedWord_words _ _ h

end Area

section High

variable {x : Slot} {low gap rest : List Byte} (hl : low.length = 0x278) (hg : gap.length = 0x88)

include hl hg

/-- A word from 0x300 on. -/
theorem savedWord_high {i : Nat} (h : i < 9) :
    savedWord (low ++ (gap ++ (saveHigh x ++ rest))) (0x300 + 8 * i) =
      BitVec.ofNat 64 ((fourWords x.matRes ++ fourWords x.copyRes ++ [x.matRes.length + x.copyRes.length * 2 ^ 32])[i]'(by
        simp [length_fourWords]; omega)) := by
  rw [show 0x300 + 8 * i = 0x278 + (0x88 + 8 * i) by omega, savedWord_after hl, savedWord_after hg, saveHigh_eq]
  exact savedWord_words _ _ _

theorem savedWord_matRes {i : Nat} (h4 : i < 4) (h : i < x.matRes.length) :
    savedWord (low ++ (gap ++ (saveHigh x ++ rest))) (0x300 + 8 * i) = x.matRes[i] := by
  rw [savedWord_high hl hg (by omega), List.getElem_append_left (by simp [length_fourWords]; omega),
    List.getElem_append_left (by rw [length_fourWords]; exact h4), fourWords_get h4 h, BitVec.ofNat_toNat, BitVec.setWidth_eq]

theorem savedWord_copyRes {i : Nat} (h4 : i < 4) (h : i < x.copyRes.length) :
    savedWord (low ++ (gap ++ (saveHigh x ++ rest))) (0x320 + 8 * i) = x.copyRes[i] := by
  have hi : 4 + i - 4 = i := by omega
  rw [show 0x320 + 8 * i = 0x300 + 8 * (4 + i) by omega, savedWord_high hl hg (by omega),
    List.getElem_append_left (by simp [length_fourWords]; omega), List.getElem_append_right (by simp [length_fourWords])]
  simp only [length_fourWords, hi, fourWords_get h4 h, BitVec.ofNat_toNat, BitVec.setWidth_eq]

theorem savedWord_counts : savedWord (low ++ (gap ++ (saveHigh x ++ rest))) 0x340 =
    BitVec.ofNat 64 (x.matRes.length + x.copyRes.length * 2 ^ 32) := by
  rw [show 0x340 = 0x300 + 8 * 8 by rfl, savedWord_high hl hg (by omega), List.getElem_append_right (by simp [length_fourWords])]
  simp [length_fourWords]

end High

/-! ## Fields of words -/

theorem extractLsb'_ofNat (n lo len : Nat) (h : lo + len ≤ 64) :
    (BitVec.ofNat 64 n).extractLsb' lo len = BitVec.ofNat len (n / 2 ^ lo) := by
  refine BitVec.eq_of_toNat_eq ?_
  rw [BitVec.extractLsb'_toNat, BitVec.toNat_ofNat, BitVec.toNat_ofNat, Nat.shiftRight_eq_div_pow]
  obtain ⟨k, hk⟩ := Nat.exists_eq_add_of_le h
  rw [hk, Nat.add_assoc, Nat.pow_add, Nat.mod_mul_right_div_self, Nat.pow_add, Nat.mod_mul_right_mod]

end Sys2Proof.Machine
end

section
/-!
A strand pre-empted and resumed (R182, R183, R185): its context comes back from the save area, of O52.
-/
namespace Sys2Proof.Machine

open Sys2Proof

/-! ## The fields of the words of R183 -/

/-- The word at 0x210 of a slot that is in no gang. -/
def miscWord (x : Slot) : Nat := (x.p ||| 1).toNat + x.ret.code * 2 ^ 8 + bit x.adone 11 + x.retpos.toNat * 2 ^ 12

theorem bit_eleven (b : Bool) : bit b 11 = b.toNat * 2 ^ 11 := by cases b <;> rfl

theorem RetKind.code_lt (r : RetKind) : r.code < 4 := by cases r <;> decide

theorem RetKind.ofCode_code (r : RetKind) : RetKind.ofCode r.code = r := by cases r <;> rfl

theorem pred_or_one {p : BitVec 8} (h : p.getLsbD 0 = true) : p ||| 1 = p := by
  refine BitVec.eq_of_getLsbD_eq fun i hi => ?_
  rw [BitVec.getLsbD_or]
  obtain rfl | hne := Nat.eq_zero_or_pos i
  · rw [h]; rfl
  · have : (1 : BitVec 8).getLsbD i = false := by
      show (1#8).getLsbD i = false
      rw [BitVec.getLsbD_one]
      simp; omega
    rw [this, Bool.or_false]

theorem misc_p {x : Slot} (h : x.p.getLsbD 0 = true) : (BitVec.ofNat 64 (miscWord x)).extractLsb' 0 8 ||| 1 = x.p := by
  have hlt := x.p.isLt
  have hm : (BitVec.ofNat 64 (miscWord x)).extractLsb' 0 8 = x.p := by
    rw [extractLsb'_ofNat _ _ _ (by decide)]
    refine BitVec.eq_of_toNat_eq ?_
    rw [BitVec.toNat_ofNat, miscWord, pred_or_one h, bit_eleven]
    omega
  rw [hm, pred_or_one h]

theorem misc_ret (x : Slot) : RetKind.ofCode (fld (BitVec.ofNat 64 (miscWord x)) 8 2) = x.ret := by
  have hp := (x.p ||| 1).isLt
  have hc := x.ret.code_lt
  have : fld (BitVec.ofNat 64 (miscWord x)) 8 2 = x.ret.code := by
    rw [fld, extractLsb'_ofNat _ _ _ (by decide), BitVec.toNat_ofNat, miscWord, bit_eleven]
    omega
  rw [this, RetKind.ofCode_code]

theorem misc_adone (x : Slot) : (BitVec.ofNat 64 (miscWord x)).getLsbD 11 = x.adone := by
  have hp := (x.p ||| 1).isLt
  have hc := x.ret.code_lt
  have : miscWord x / 2 ^ 11 % 2 = x.adone.toNat := by
    have := x.adone.toNat_lt
    rw [miscWord, bit_eleven]
    omega
  rw [BitVec.getLsbD_ofNat, Nat.testBit_eq_decide_div_mod_eq, this]
  cases x.adone <;> rfl

theorem misc_retpos (x : Slot) : (BitVec.ofNat 64 (miscWord x)).extractLsb' 12 16 = x.retpos := by
  have hp := (x.p ||| 1).isLt
  have hc := x.ret.code_lt
  have hb := x.adone.toNat_lt
  have hr := x.retpos.isLt
  rw [extractLsb'_ofNat _ _ _ (by decide)]
  refine BitVec.eq_of_toNat_eq ?_
  rw [BitVec.toNat_ofNat, miscWord, bit_eleven]
  omega

/-- The strand, its group and its interval, as the word at 0x220 has them. -/
theorem names_fields (a b : BitVec 24) (c : BitVec 16) :
    (BitVec.ofNat 64 (a.toNat * 2 ^ 40 + b.toNat * 2 ^ 16 + c.toNat)).extractLsb' 40 24 = a ∧
    (BitVec.ofNat 64 (a.toNat * 2 ^ 40 + b.toNat * 2 ^ 16 + c.toNat)).extractLsb' 16 24 = b ∧
    (BitVec.ofNat 64 (a.toNat * 2 ^ 40 + b.toNat * 2 ^ 16 + c.toNat)).extractLsb' 0 16 = c := by
  have ha := a.isLt
  have hb := b.isLt
  have hc := c.isLt
  refine ⟨?_, ?_, ?_⟩ <;>
  · rw [extractLsb'_ofNat _ _ _ (by decide)]
    refine BitVec.eq_of_toNat_eq ?_
    rw [BitVec.toNat_ofNat]
    omega

/-- A field of at most 64 bits in a word of its own. -/
theorem extractLsb'_ownWord {n : Nat} (v : BitVec n) (h : n ≤ 64) : (BitVec.ofNat 64 v.toNat).extractLsb' 0 n = v := by
  rw [extractLsb'_ofNat _ _ _ (by omega), Nat.pow_zero, Nat.div_one, BitVec.ofNat_toNat, BitVec.setWidth_eq]

theorem counts_fields {a b : Nat} (ha : a ≤ 4) (hb : b ≤ 4) :
    min 4 (fld (BitVec.ofNat 64 (a + b * 2 ^ 32)) 0 32) = a ∧ min 4 (fld (BitVec.ofNat 64 (a + b * 2 ^ 32)) 32 32) = b := by
  constructor <;>
  · rw [fld, extractLsb'_ofNat _ _ _ (by decide), BitVec.toNat_ofNat]
    omega

theorem ofNat_toNat_word (w : Word) : BitVec.ofNat 64 w.toNat = w := by rw [BitVec.ofNat_toNat, BitVec.setWidth_eq]

/-! ## A context restored -/

/-- Two slots have one saved context: what the save area of R183 holds of a strand without lanes. -/
structure SameContext (x y : Slot) : Prop where
  s : y.s = x.s
  p : y.p = x.p
  c : y.c = x.c
  pc : y.pc = x.pc
  status : y.status = x.status
  trapvec : y.trapvec = x.trapvec
  traprec : y.traprec = x.traprec
  ticket : y.ticket = x.ticket
  join : y.join = x.join
  ret : y.ret = x.ret
  retpos : y.retpos = x.retpos
  strand : y.strand = x.strand
  group : y.group = x.group
  ival : y.ival = x.ival
  adone : y.adone = x.adone
  stealdom : y.stealdom = x.stealdom
  dtnan : y.dtnan = x.dtnan
  timer : y.timer = x.timer
  matRes : y.matRes = x.matRes
  copyRes : y.copyRes = x.copyRes

/-- A context that its save area holds whole: of no gang, with no packet and uncoupled, its fields within the widths of R183. -/
structure Savable (x : Slot) : Prop where
  gang : x.gang = false
  st : x.st = .ready
  packet : x.packet = none
  coupled : x.coupled = false
  join : x.join < 2 ^ 64
  matRes : x.matRes.length ≤ 4
  copyRes : x.copyRes.length ≤ 4
  p : x.p.getLsbD 0 = true
  status : statusStored x.status = x.status
  c : ∀ c ∈ x.c, capStored c = c

theorem Savable.statusWord {x : Slot} (h : Savable x) : x.statusWord = x.status := by
  rw [Slot.statusWord, h.gang, h.st, h.packet, h.coupled]
  rfl

theorem Savable.lowWords {x : Slot} (h : Savable x) (vlen dva : Nat) : lowWords x vlen dva =
    [x.pc.toNat, x.status.toNat, miscWord x, x.join, x.strand.toNat * 2 ^ 40 + x.group.toNat * 2 ^ 16 + x.ival.toNat, x.trapvec.toNat,
      x.traprec.toNat, x.ticket.toNat, x.stealdom.toNat, x.dtnan.toNat, x.timer.toNat, vlen, x.allot, dva,
      x.stgs % 65536 + x.lqWaiting % 65536 * 2 ^ 16 + x.drainsQueued % 65536 * 2 ^ 32] := by
  rw [Machine.lowWords, h.statusWord, h.gang]
  rfl

theorem ofFn_eq {α : Type} {n : Nat} {v : Vector α n} {f : Fin n → α} (h : ∀ i, f i = v[i]) : Vector.ofFn f = v :=
  Vector.ext fun i hi => by rw [Vector.getElem_ofFn]; exact h ⟨i, hi⟩

theorem rangeMap_eq {α : Type} {xs : List α} {n : Nat} {f : Nat → α} (hn : n = xs.length) (h : ∀ i (hi : i < xs.length), f i = xs[i]) :
    (List.range n).map f = xs := by
  subst hn
  exact List.ext_getElem (by simp) fun i _ hi => by rw [List.getElem_map, List.getElem_range]; exact h i hi

/-- A context is restored from the bytes that were saved of it. -/
theorem restore_sameContext {x : Slot} (h : Savable x) (z : Slot) (vlen dva : Nat) {gap : List Byte} (hg : gap.length = 0x88)
    (rest : List Byte) : SameContext x (z.restore (saveLow x vlen dva ++ (gap ++ (saveHigh x ++ rest)))) := by
  have hl := length_saveLow x vlen dva
  have hw : ∀ {i : Nat} (hi : i < 15), savedWord (saveLow x vlen dva ++ (gap ++ (saveHigh x ++ rest))) (0x200 + 8 * i) =
      BitVec.ofNat 64 ((lowWords x vlen dva)[i]'hi) := fun hi => savedWord_low x vlen dva _ hi
  simp only [h.lowWords] at hw
  have hmisc := hw (i := 2) (by decide)
  have hnames := hw (i := 4) (by decide)
  have hcounts := savedWord_counts (x := x) (rest := rest) hl hg
  obtain ⟨hcm, hcc⟩ := counts_fields h.matRes h.copyRes
  obtain ⟨hstrand, hgroup, hival⟩ := names_fields x.strand x.group x.ival
  exact {
    s := ofFn_eq fun i => savedWord_reg x vlen dva _ i
    c := ofFn_eq fun i => (congrArg capStored (saved_cap x vlen dva _ i)).trans (h.c _ (Vector.getElem_mem i.isLt))
    p := (congrArg (fun w : Word => w.extractLsb' 0 8 ||| 1) hmisc).trans (misc_p h.p)
    pc := (hw (i := 0) (by decide)).trans (ofNat_toNat_word _)
    status := (congrArg statusStored ((hw (i := 1) (by decide)).trans (ofNat_toNat_word _))).trans h.status
    trapvec := (hw (i := 5) (by decide)).trans (ofNat_toNat_word _)
    traprec := (hw (i := 6) (by decide)).trans (ofNat_toNat_word _)
    ticket := (hw (i := 7) (by decide)).trans (ofNat_toNat_word _)
    join := (congrArg BitVec.toNat (hw (i := 3) (by decide))).trans (Nat.mod_eq_of_lt h.join)
    ret := (congrArg (fun w => RetKind.ofCode (fld w 8 2)) hmisc).trans (misc_ret x)
    retpos := (congrArg (fun w : Word => w.extractLsb' 12 16) hmisc).trans (misc_retpos x)
    strand := (congrArg (fun w : Word => w.extractLsb' 40 24) hnames).trans hstrand
    group := (congrArg (fun w : Word => w.extractLsb' 16 24) hnames).trans hgroup
    ival := (congrArg (fun w : Word => w.extractLsb' 0 16) hnames).trans hival
    adone := (congrArg (fun w : Word => w.getLsbD 11) hmisc).trans (misc_adone x)
    stealdom := (congrArg (fun w : Word => w.extractLsb' 0 2) (hw (i := 8) (by decide))).trans (extractLsb'_ownWord _ (by decide))
    dtnan := (congrArg (fun w : Word => w.extractLsb' 0 8) (hw (i := 9) (by decide))).trans (extractLsb'_ownWord _ (by decide))
    timer := (congrArg (fun w : Word => w.extractLsb' 0 32) (hw (i := 10) (by decide))).trans (extractLsb'_ownWord _ (by decide))
    matRes := rangeMap_eq ((congrArg (fun w => min 4 (fld w 0 32)) hcounts).trans hcm) fun i hi =>
      savedWord_matRes hl hg (Nat.lt_of_lt_of_le hi h.matRes) hi
    copyRes := rangeMap_eq ((congrArg (fun w => min 4 (fld w 32 32)) hcounts).trans hcc) fun i hi =>
      savedWord_copyRes hl hg (Nat.lt_of_lt_of_le hi h.copyRes) hi }

end Sys2Proof.Machine
end

section
/-!
Pre-emption and resumption of a strand without lanes (R182, R183, R185), of O52.
-/
namespace Sys2Proof.Machine

open Sys2Proof

/-! ## Words and poison -/

theorem mem_touched {a n w : Nat} : w ∈ touched a n ↔ a / 8 ≤ w ∧ w < (a + n + 7) / 8 := by
  rw [touched, List.mem_map]
  constructor
  · rintro ⟨i, hi, rfl⟩
    rw [List.mem_range] at hi
    omega
  · intro h
    exact ⟨w - a / 8, List.mem_range.mpr (by omega), by omega⟩

theorem mem_covered {a n w : Nat} : w ∈ covered a n ↔ a ≤ 8 * w ∧ 8 * w + 8 ≤ a + n := by
  rw [covered, List.mem_filter, mem_touched, Bool.and_eq_true, decide_eq_true_eq, decide_eq_true_eq]
  omega

theorem mem_foldl_setErase {ws l : List Nat} {w : Nat} : w ∈ ws.foldl setErase l ↔ w ∈ l ∧ w ∉ ws := by
  induction ws generalizing l with
  | nil => simp
  | cons v ws ih => rw [List.foldl_cons, ih, mem_setErase, List.mem_cons, not_or, and_assoc]

theorem rd_wrBytes_rdBytes {m m' : Memory} (h : ∀ j, m'.rd j = m.rd j) (a n j : Nat) : (m'.wrBytes a (m.rdBytes a n)).rd j = m.rd j := by
  induction n generalizing m' a with
  | zero => exact h j
  | succ n ih =>
    refine ih (m' := m'.wr a (m.rd a)) (fun j => ?_) (a + 1)
    rw [Memory.rd_wr]
    split
    · next e => rw [e]
    · exact h j

/-! ## The save area written -/

/-- A change of one core's local memory and its poison alone. -/
structure LmOnly (core : Nat) (s t : State) : Prop where
  slot : ∀ c k, t.slot c k = s.slot c k
  mem : ∀ pa, byteAt t pa = byteAt s pa
  cc : t.cc = s.cc

theorem LmOnly.trans {core : Nat} {s t u : State} (h : LmOnly core s t) (h' : LmOnly core t u) : LmOnly core s u :=
  ⟨fun c k => (h'.slot c k).trans (h.slot c k), fun pa => (h'.mem pa).trans (h.mem pa), h'.cc.trans h.cc⟩

theorem wrLoc_lmOnly (s : State) (core off : Nat) (bs : List Byte) (p : Bool) : LmOnly core s (s.wrLoc (.lm core off) bs p) :=
  ⟨fun c k => State.slot_modCore_keep s core (fun c => { c with
      lm := c.lm.wrBytes off bs
      lmPoison := if p then (touched off bs.length).foldl setInsert c.lmPoison else (covered off bs.length).foldl setErase c.lmPoison })
    (fun _ => rfl) c k, fun _ => rfl, rfl⟩

theorem lm_wrLm (s : State) (core off : Nat) (bs : List Byte) : ((s.wrLm core off bs).core core).lm = (s.core core).lm.wrBytes off bs := by
  rw [State.wrLm, State.wrLoc, State.core_modCore_same]

theorem lmPoison_wrLm (s : State) (core off : Nat) (bs : List Byte) :
    ((s.wrLm core off bs).core core).lmPoison = (covered off bs.length).foldl setErase (s.core core).lmPoison := by
  rw [State.wrLm, State.wrLoc, State.core_modCore_same]
  rfl

theorem saveArea_aligned (slot : Nat) : saveArea slot % 8 = 0 := by unfold saveArea; omega

/-- A word of a save area that is no register. -/
def ContextWord (area w : Nat) : Prop :=
  (area + 0x200 ≤ 8 * w ∧ 8 * w < area + 0x210) ∨ (area + 0x218 ≤ 8 * w ∧ 8 * w < area + 0x278) ∨
    (area + 0x300 ≤ 8 * w ∧ 8 * w < area + 0x348)

/-- A save area that holds these bytes of a context, with no poison in a word that is no register. -/
structure HoldsContext (s : State) (core area : Nat) (low high : List Byte) : Prop where
  low : (s.core core).lm.rdBytes area 0x278 = low
  high : (s.core core).lm.rdBytes (area + 0x300) 0x48 = high
  clean : ∀ w, ContextWord area w → w ∉ (s.core core).lmPoison

theorem HoldsContext.savedBad {s : State} {core area : Nat} {low high : List Byte} (h : HoldsContext s core area low high)
    (ha : area % 8 = 0) : s.savedBad (.lm core area) = false := by
  have hpart : ∀ off n, (∀ w, w ∈ touched (area + off) n → ContextWord area w) → s.poisonedAt ((Loc.lm core area).plus off) n = false := by
    intro off n hw
    refine List.any_eq_false.mpr fun w hmem => ?_
    rw [List.contains_iff_mem]
    exact h.clean w (hw w hmem)
  rw [State.savedBad, hpart, hpart, hpart]
  · rfl
  all_goals
    intro w hw
    rw [mem_touched] at hw
    unfold ContextWord
    omega

/-- The bytes of a save area, in the parts of R183. -/
theorem HoldsContext.area {s : State} {core area : Nat} {low high : List Byte} (h : HoldsContext s core area low high) :
    ∃ gap rest : List Byte, gap.length = 0x88 ∧ s.rdLoc (.lm core area) 0x400 = low ++ (gap ++ (high ++ rest)) := by
  refine ⟨(s.core core).lm.rdBytes (area + 0x278) 0x88, (s.core core).lm.rdBytes (area + 0x348) 0xB8, length_rdBytes .., ?_⟩
  rw [← h.low, ← h.high]
  show (s.core core).lm.rdBytes area (0x278 + (0x88 + (0x48 + 0xB8))) = _
  rw [rdBytes_append, rdBytes_append, rdBytes_append]

/-- Both parts of a context written. -/
theorem holdsContext_written (s : State) (core : Nat) {area : Nat} (ha : area % 8 = 0) {low high : List Byte} (hl : low.length = 0x278)
    (hh : high.length = 0x48) :
    HoldsContext ((s.wrLm core area low).wrLm core (area + 0x300) high) core area low high := by
  refine ⟨?_, ?_, fun w hw hmem => ?_⟩
  · rw [lm_wrLm, lm_wrLm, ← hl, rdBytes_congr (m' := (s.core core).lm.wrBytes area low), Memory.rdBytes_wrBytes]
    exact fun j _ hj => Memory.rd_wrBytes_other _ _ _ _ (.inl (by omega))
  · rw [lm_wrLm, ← hh, Memory.rdBytes_wrBytes]
  · rw [lmPoison_wrLm, lmPoison_wrLm, mem_foldl_setErase, mem_foldl_setErase, mem_covered, mem_covered, hl, hh] at hmem
    unfold ContextWord at hw
    omega

/-- A word of a register's code poisoned. -/
theorem HoldsContext.taint {s : State} {core area : Nat} {low high : List Byte} (h : HoldsContext s core area low high) {off : Nat}
    (ha : (area + off) % 8 = 0) (ho : ∀ w, ContextWord area w → 8 * w ≠ area + off) :
    HoldsContext (s.taint (.lm core (area + off))) core area low high := by
  have hcore : (s.taint (.lm core (area + off))).core core = { s.core core with
      lm := (s.core core).lm.wrBytes (area + off) ((s.core core).lm.rdBytes (area + off) 8)
      lmPoison := setInsert (s.core core).lmPoison ((area + off) / 8) } := by
    rw [State.taint, State.wrLoc, State.core_modCore_same]
    simp only [if_true, State.rdLoc, length_rdBytes, touched_of_aligned ha, List.foldl_cons, List.foldl_nil]
  have hlm : ∀ j, ((s.taint (.lm core (area + off))).core core).lm.rd j = (s.core core).lm.rd j := by
    rw [hcore]
    exact rd_wrBytes_rdBytes (fun _ => rfl) _ _
  refine ⟨(rdBytes_congr fun j _ _ => hlm j).trans h.low, (rdBytes_congr fun j _ _ => hlm j).trans h.high, fun w hw hmem => ?_⟩
  rw [hcore, mem_setInsert] at hmem
  obtain rfl | hmem := hmem
  · exact ho _ hw (by omega)
  · exact h.clean w hw hmem

/-- The places of a register's code: the words of s, p and c. -/
theorem mem_savedPlaces {code off : Nat} (h : off ∈ savedPlaces code) : off % 8 = 0 ∧ (off < 0x200 ∨ off = 0x210) := by
  unfold savedPlaces at h
  split at h
  · rw [List.mem_singleton] at h
    omega
  split at h
  · rw [List.mem_singleton] at h
    omega
  split at h
  · obtain ⟨i, hi, rfl⟩ := List.mem_map.mp h
    rw [List.mem_range] at hi
    omega
  · exact absurd h List.not_mem_nil

theorem taints_hold {core area : Nat} {low high : List Byte} (ha : area % 8 = 0) (offs : List Nat)
    (ho : ∀ off ∈ offs, off % 8 = 0 ∧ (off < 0x200 ∨ off = 0x210)) {s : State} (h : HoldsContext s core area low high) :
    HoldsContext (offs.foldl (fun s o => s.taint (.lm core (area + o))) s) core area low high ∧
      LmOnly core s (offs.foldl (fun s o => s.taint (.lm core (area + o))) s) := by
  induction offs generalizing s with
  | nil => exact ⟨h, fun _ _ => rfl, fun _ => rfl, rfl⟩
  | cons o offs ih =>
    have hoff := ho o List.mem_cons_self
    have ht := h.taint (off := o) (by omega) fun w hw => by unfold ContextWord at hw; omega
    obtain ⟨hholds, honly⟩ := ih (fun off hmem => ho off (List.mem_cons_of_mem _ hmem)) ht
    exact ⟨hholds, LmOnly.trans (wrLoc_lmOnly s core _ _ _) honly⟩

/-- A context saved. -/
theorem saveContext_holds (s : State) (core slot dva : Nat) : ∃ vlen, HoldsContext (s.saveContext core slot dva) core (saveArea slot)
    (saveLow (s.slot core slot) vlen dva) (saveHigh (s.slot core slot)) ∧ LmOnly core s (s.saveContext core slot dva) := by
  have hwritten := holdsContext_written s core (saveArea_aligned slot)
    (length_saveLow (s.slot core slot) ((s.core core).vlen slot) dva) (length_saveHigh (s.slot core slot))
  obtain ⟨hholds, honly⟩ := taints_hold (saveArea_aligned slot) ((s.slot core slot).regPoison.flatMap savedPlaces) (fun off hmem => by
    obtain ⟨code, -, hoff⟩ := List.mem_flatMap.mp hmem
    exact mem_savedPlaces hoff) hwritten
  exact ⟨_, hholds, LmOnly.trans (wrLoc_lmOnly s core _ _ _) (LmOnly.trans (wrLoc_lmOnly _ core _ _ _) honly)⟩

/-! ## A strand without lanes pre-empted (R182) -/

/-- A slot once its strand, without lanes, is pre-empted. -/
def Slot.preempted (x : Slot) : Slot := { x with st := .saved, preReq := none, reply := none, park := none, walk := none }

theorem vlen_of_noLanes {s : State} {core slot : Nat} (hg : (s.slot core slot).gang = false) (hl : (s.slot core slot).groups = [])
    (hv : (s.slot core slot).svGroups = []) : (s.core core).vlen slot = 0 := by
  rw [State.slot] at hg hl hv
  simp [Core.vlen, Core.laneGroups, hg, hl, hv]

theorem takePreempt_saves {s : State} {core slot : Nat} (hk : slot < 16) (hdue : s.preemptDue core slot = true)
    (hg : (s.slot core slot).gang = false) (hc : (s.slot core slot).coupled = false) (hl : (s.slot core slot).groups = [])
    (hv : (s.slot core slot).svGroups = []) : ∃ vlen,
    (s.takePreempt core slot).slot core slot = (s.slot core slot).preempted ∧ (s.takePreempt core slot).cc = s.cc ∧
      (∀ pa, byteAt (s.takePreempt core slot) pa = byteAt s pa) ∧
      HoldsContext (s.takePreempt core slot) core (saveArea slot) (saveLow (s.slot core slot) vlen 0) (saveHigh (s.slot core slot)) := by
  have hvlen := vlen_of_noLanes hg hl hv
  obtain ⟨vlen, hholds, honly⟩ := saveContext_holds s core slot 0
  set t := s.saveContext core slot 0 with ht
  have htake : s.takePreempt core slot = t.modSlot core slot fun x =>
      { x.saveVector with st := .saved, preReq := none, reply := none, park := none, walk := none } := by
    have hsv : s.saveVregs core slot = s := if_pos hvlen
    unfold State.takePreempt
    rw [hdue, hc]
    show s.preempt core slot = _
    unfold State.preempt
    dsimp only
    rw [hsv, if_pos hvlen, ← ht, honly.slot, hg]
    rfl
  have hvec : (s.slot core slot).saveVector = s.slot core slot := by
    rw [Slot.saveVector, hl]
    rfl
  refine ⟨vlen, ?_, ?_, ?_, ?_⟩
  · rw [htake, State.slot_modSlot_same _ _ _ _ hk, honly.slot, hvec]
    rfl
  · rw [htake]
    exact honly.cc
  · rw [htake]
    exact honly.mem
  · rw [htake]
    have hlm := State.core_modSlot_keeps t core slot
      (fun x => { x.saveVector with st := .saved, preReq := none, reply := none, park := none, walk := none }) Core.lm (fun _ _ => rfl) core
    have hpoison := State.core_modSlot_keeps t core slot
      (fun x => { x.saveVector with st := .saved, preReq := none, reply := none, park := none, walk := none })
      Core.lmPoison (fun _ _ => rfl) core
    exact ⟨by rw [hlm, hholds.low], by rw [hlm, hholds.high], fun w hw => by rw [hpoison]; exact hholds.clean w hw⟩

/-! ## A strand without lanes resumed (R185) -/

/-- A slot whose context is restored from a save area. -/
def Slot.resumed (x : Slot) (bs : List Byte) (cc : Nat) (poison : List Nat) : Slot :=
  { x.restore bs with
    st := .ready, fromCc := nextBoundary cc, reply := none, park := none, resuming := false
    regPoison := poison ++ x.regPoison.filter (64 ≤ ·)
    seq := x.seq.map (·.handedAt cc), drains := x.drains.map fun ds => ds.map fun d => { d with since := cc } }

theorem SameContext.resumed {x z : Slot} {bs : List Byte} (h : SameContext x (z.restore bs)) (cc : Nat) (poison : List Nat) :
    SameContext x (z.resumed bs cc poison) := by
  unfold Slot.resumed
  generalize z.restore bs = y at h ⊢
  cases h
  constructor <;> assumption

theorem SameContext.drained {x y : Slot} (h : SameContext x y) (drains : Vector (List Drain) 2) (rows : Vector (List (List Half)) 2) :
    SameContext x { y with drains := drains, sqRows := rows } := by
  cases h
  constructor <;> assumption

theorem regrant_none (s : State) (core slot n : Nat) : s.regrant core slot [] n = some [] := by
  unfold State.regrant
  dsimp only
  rw [List.length_nil, if_pos (Nat.zero_le _), List.take_zero]

theorem resumeSaved_restores {s : State} {core slot : Nat} (hk : slot < 16) (hst : (s.slot core slot).st = .saved)
    (hg : (s.slot core slot).gang = false) (hv : (s.slot core slot).svGroups = []) (hbad : s.savedBad (.lm core (saveArea slot)) = false) :
    ∃ drains rows poison, (s.resumeSaved core slot).slot core slot =
        { ((s.slot core slot).restoreVector []).resumed (s.rdLoc (.lm core (saveArea slot)) 0x400) s.cc poison with
          drains := drains, sqRows := rows } ∧
      ∀ pa, byteAt (s.resumeSaved core slot) pa = byteAt s pa := by
  set t := s.modSlot core slot (·.restoreVector []) with ht
  have htslot : t.slot core slot = (s.slot core slot).restoreVector [] := State.slot_modSlot_same _ _ _ _ hk
  have hgrant : s.regrantSaved core slot = some t := by
    unfold State.regrantSaved
    dsimp only
    rw [hv, regrant_none, hg]
    rfl
  have hlive : (t.slot core slot).st ≠ .killed := by
    rw [htslot]
    show (s.slot core slot).st ≠ .killed
    rw [hst]
    exact nofun
  set u := t.modSlot core slot fun x => x.resumed (s.rdLoc (.lm core (saveArea slot)) 0x400) s.cc (s.savedPoison (.lm core (saveArea slot)))
    with hu
  have hres : s.resumeSaved core slot = u.modCore core (·.drainRows slot) := by
    unfold State.resumeSaved
    dsimp only
    rw [if_neg (not_not.mpr hst), hgrant]
    dsimp only
    rw [hv, hg, List.length_nil, Nat.mul_zero, if_pos rfl, if_neg hlive, hbad]
    rfl
  have huslot : u.slot core slot = ((s.slot core slot).restoreVector []).resumed (s.rdLoc (.lm core (saveArea slot)) 0x400) s.cc
      (s.savedPoison (.lm core (saveArea slot))) := by
    rw [hu, State.slot_modSlot_same _ _ _ _ hk, htslot]
  obtain ⟨drains, rows, hdrained⟩ := (drainRows_drained (u.core core) slot).slot slot
  refine ⟨drains, rows, s.savedPoison (.lm core (saveArea slot)), ?_, fun pa => ?_⟩
  · rw [hres, State.slot, State.core_modCore_same, hdrained, ← huslot]
    rfl
  · rw [hres]
    rfl

/-- A strand without lanes comes back from its save area as it was. -/
theorem preempted_resumes {s : State} {core slot : Nat} (hk : slot < 16) (hdue : s.preemptDue core slot = true)
    (hx : Savable (s.slot core slot)) (hl : (s.slot core slot).groups = []) (hv : (s.slot core slot).svGroups = []) :
    ((s.takePreempt core slot).slot core slot).st = .saved ∧ ((s.takePreempt core slot).slot core slot).groups = [] ∧
      SameContext (s.slot core slot) (((s.takePreempt core slot).resumeSaved core slot).slot core slot) ∧
      (((s.takePreempt core slot).resumeSaved core slot).slot core slot).st = .ready ∧
      (((s.takePreempt core slot).resumeSaved core slot).slot core slot).fromCc = nextBoundary s.cc ∧
      ∀ pa, byteAt ((s.takePreempt core slot).resumeSaved core slot) pa = byteAt s pa := by
  obtain ⟨vlen, hslot, hcc, hmem, hholds⟩ := takePreempt_saves hk hdue hx.gang hx.coupled hl hv
  set t := s.takePreempt core slot
  have hst : (t.slot core slot).st = .saved := congrArg Slot.st hslot
  obtain ⟨drains, rows, poison, hres, hback⟩ := resumeSaved_restores hk hst ((congrArg Slot.gang hslot).trans hx.gang)
    ((congrArg Slot.svGroups hslot).trans hv) (hholds.savedBad (saveArea_aligned slot))
  obtain ⟨gap, rest, hgap, harea⟩ := hholds.area
  have hsame := restore_sameContext hx ((t.slot core slot).restoreVector []) vlen 0 hgap rest
  rw [← harea] at hsame
  rw [hres]
  exact ⟨hst, (congrArg Slot.groups hslot).trans hl, (hsame.resumed t.cc poison).drained drains rows, rfl,
    congrArg nextBoundary hcc, fun pa => (hback pa).trans (hmem pa)⟩

/-- A request is due in a READY slot with no packet open. -/
theorem savable_of_due {s : State} {core slot : Nat} (hdue : s.preemptDue core slot = true) :
    (s.slot core slot).st = .ready ∧ (s.slot core slot).packet = none := by
  simp only [State.preemptDue, Bool.and_eq_true, beq_iff_eq, Option.isNone_iff_eq_none] at hdue
  obtain ⟨⟨⟨⟨-, hst⟩, -⟩, hp⟩, -⟩ := hdue
  exact ⟨hst, hp⟩

/-- Outcomes of one state. -/
theorem outcome_eq {s t : State} (h : s = t) : (.next s : Out) = .next t := h ▸ rfl

/-! ## Errors injected and killed slots (R181, R186, R187) -/

theorem injectEcc_poisons {s : State} {core slot : Nat} (hk : slot < 16) (h : (s.slot core slot).st.Live) :
    ∃ t, exec (.injectEcc core slot) s = .next t ∧ (t.slot core slot).poisoned = true ∧ SameMemory s t := by
  refine ⟨_, rfl, ?_, sameMemory_modSlot s core _ _⟩
  rw [strandSlot_of_live h, State.slot_modSlot_same _ _ _ _ hk]
  show ((s.slot core slot).st.holdsStrand || _) = true
  rw [h.holds, Bool.true_or]

theorem releaseKilled_frees {s : State} {core slot : Nat} (hk : slot < 16) (h : (s.slot core slot).st = .killed) :
    ∃ t, exec (.releaseKilledSlot core slot) s = .next t ∧ (t.slot core slot).st = .free ∧ SameMemory s t ∧
      ∀ c k, k < 16 → (c, k) ≠ (core, slot) → t.slot c k = s.slot c k := by
  refine ⟨s.modSlot core slot fun x => { x with st := .free }, ?_, ?_, sameMemory_modSlot s core slot _, fun c k _ hne => ?_⟩
  · exact outcome_eq (if_pos h)
  · rw [State.slot_modSlot_same _ _ _ _ hk]
  · refine State.slot_modSlot_other s _ ?_
    rw [Ne, Prod.mk.injEq, not_and_or] at hne
    exact hne.imp Ne.symm Ne.symm

end Sys2Proof.Machine
namespace Sys2Proof.Proofs

open Sys2Proof Sys2Proof.Machine

/-- Settles O52: the words of a save area, written and read back; a request raised where the strand may be pre-empted; a walk's end; the
turn of an entry's owner. -/
theorem preemptionRequestsWalksAndTurns : Obligations.PreemptionRequestsWalksAndTurns := by
  unfold Obligations.PreemptionRequestsWalksAndTurns
  refine ⟨?_, ?_, ?_, ?_⟩
  · intro s core slot hk hdue x hgang hcoupled hgroups hsv hjoin hmat hcopy hp hstatus hc
    obtain ⟨hst, hpacket⟩ := savable_of_due hdue
    obtain ⟨hsaved, hlanes, hsame, hready, hfrom, hmem⟩ := preempted_resumes hk hdue
      ⟨hgang, hst, hpacket, hcoupled, hjoin, hmat, hcopy, hp, hstatus, hc⟩ hgroups hsv
    exact ⟨_, _, rfl, hsaved, hlanes, rfl, hready, hsame.s, hsame.p, hsame.c, hsame.pc, hsame.status, hsame.trapvec, hsame.traprec,
      hsame.ticket, hsame.join, hsame.ret, hsame.retpos, hsame.strand, hsame.group, hsame.ival, hsame.adone, hsame.stealdom, hsame.dtnan,
      hsame.timer, hsame.matRes, hsame.copyRes, hfrom, hmem⟩
  · intro s core slot hk x asks live
    refine ⟨fun h14 hlive => ?_, ?_, fun h14 hst ht => ?_, fun since hst hs hc hp hr hcc hw => ?_, fun hlive => injectEcc_poisons hk hlive,
      fun hkilled => releaseKilled_frees hk hkilled, fun _ _ => rfl, fun _ => rfl⟩
    · have hraise := outcome_eq (requestPreempt_raises h14 hlive)
      exact ⟨hraise, hraise⟩
    · rintro rfl
      have hdrop := outcome_eq (requestPreempt_dropped s core)
      exact ⟨hdrop, hdrop⟩
    · exact ⟨_, rfl, timerExpires_raises hk h14 hst ht⟩
    · exact outcome_eq (holdTimeout_traps hst hs hc hp hr hcc hw)
  · intro s u core slot w hk hw hst hq
    exact ⟨fun hf => outcome_eq (finishWalk_waits hw hf),
      fun e hf hwalk hl hi => ⟨_, rfl, finishWalk_leaf hk hw hst hq hf hwalk hl hi⟩,
      fun cause hwalk hf => ⟨_, rfl, finishWalk_fails hk hw hst hq hf hwalk⟩⟩
  · intro s core slot hk ho hh hp hm hst
    exact outcome_eq (issueTurn_owner hk ho hh hp hm hst)

end Sys2Proof.Proofs
end

section
/-!
Management: the settings of R114, R245, R246, R247, R256 and R259 as tables written at one key, the power cap's clock (R261) and the
summary words of the ageing monitors (R260).
-/
namespace Sys2Proof.Machine

open Sys2Proof

/-! ## Tables written at one key -/

theorem Sparse.find?_put {α : Type} (m : Sparse α) (k : Nat) (v : α) : (m.put k v).find? (·.1 == k) = some (k, v) := by
  induction m with
  | nil => simp [Sparse.put]
  | cons x rest ih =>
    obtain ⟨k', v'⟩ := x
    unfold Sparse.put
    split
    case isTrue h => rw [List.find?_cons_of_neg (by simpa using Nat.ne_of_lt h), ih]
    case isFalse h => split <;> simp

theorem Sparse.find?_erase {α : Type} (m : Sparse α) (k : Nat) : (m.erase k).find? (·.1 == k) = none := by
  simp [Sparse.erase, List.find?_eq_none]

/-- A setting of a class is written, and every other class reads as before. -/
theorem classCfg_modClass {s : State} {n : Nat} (h : n < 64) (f : ClassCfg → ClassCfg) (k : Nat) :
    (s.modClass n f).classCfg k = if n = k then f (s.classCfg n) else s.classCfg k := by
  simp [State.modClass, Nat.not_le.2 h, State.classCfg, Sparse.get_put]

theorem sameMemory_modClass (s : State) (n : Nat) (f : ClassCfg → ClassCfg) : SameMemory s (s.modClass n f) := by
  unfold State.modClass
  split
  · exact sameMemory_refl s
  · exact sameMemory_of_mem_lm rfl fun _ => rfl

/-- A setting that changes one class: what it leaves of the others and of memory. -/
theorem modClass_sets {s : State} {n : Nat} (h : n < 64) (f : ClassCfg → ClassCfg) :
    (s.modClass n f).classCfg n = f (s.classCfg n) ∧ (∀ k, k ≠ n → (s.modClass n f).classCfg k = s.classCfg k) ∧
      SameMemory s (s.modClass n f) :=
  ⟨by simp [classCfg_modClass h], fun k hk => by simp [classCfg_modClass h, hk.symm], sameMemory_modClass s n f⟩

theorem exec_writeKeySlot {s : State} {n : Nat} (h1 : 1 ≤ n) (h255 : n ≤ 255) (key : Nat) :
    exec (.writeKeySlot n key) s = .next { s with keys := s.keys.put n ⟨key, (s.keySlot n).version + 1⟩ } :=
  congrArg Host.Outcome.next (if_neg (by omega))

/-- Key slots 1–255 are all there are to write (R256). -/
theorem exec_writeKeySlot_absent {s : State} {n : Nat} (h : n = 0 ∨ 255 < n) (key : Nat) : exec (.writeKeySlot n key) s = .next s :=
  congrArg Host.Outcome.next (if_pos h)

theorem tenant_setAreas {s : State} {n : Nat} (h : n < 4096) (areas : TenantAreas) (k : Nat) :
    (s.setAreas n areas).tenant k = if n = k then { Tenant.reset with areas := areas } else s.tenant k := by
  simp [State.setAreas, Nat.not_le.2 h, State.tenant, Sparse.get_put]

/-- The formula slots of an address space are empty once its areas are set; those of the others stay (R200, R245). -/
theorem formula_setAreas {s : State} {n : Nat} (h : n < 4096) (areas : TenantAreas) (k : Nat) {f : Nat} (hf : f < 16) :
    (s.setAreas n areas).formula k f = if n = k then none else s.formula k f := by
  have hkey : (16 * k + f) / 16 = k := by omega
  simp only [State.setAreas, Nat.not_le.2 h, if_false, State.formula, List.find?_filter]
  split
  case isTrue hn =>
    rw [Option.map_eq_none_iff, List.find?_eq_none]
    rintro ⟨key, v⟩ -
    by_cases hk : key = 16 * k + f <;> simp [hk, hkey, hn]
  case isFalse hn =>
    congr 2
    funext ⟨key, v⟩
    by_cases hk : key = 16 * k + f <;> simp [hk, hkey, Ne.symm hn]

theorem exec_setAsidRoot {n : Nat} (h : n < 4096) (root : Option Nat) (s : State) :
    exec (.setAsidRoot n root) s = .next { s with roots := match root with
      | some r => s.roots.put n r
      | none => s.roots.erase n } := by
  refine congrArg Host.Outcome.next ?_
  cases root <;> exact if_neg (Nat.not_le.2 h)

/-! ## Power (R261) -/

theorem exec_powerSample_early {s : State} (h : s.samples.length + 1 < 10) (watts : Nat) :
    exec (.powerSample watts) s = .next { s with samples := s.samples ++ [watts] } :=
  congrArg Host.Outcome.next (if_pos (by simpa using h))

/-- The tenth sample starts a new millisecond and moves the clock; a step down is notified besides. -/
theorem exec_powerSample_tenth {s : State} (h : s.samples.length = 9) (watts : Nat) : ∃ t, exec (.powerSample watts) s = .next t ∧
    t.samples = [] ∧ SameMemory s t ∧ t.clock = powerStep s.powerCap s.clock (s.samples.sum + watts) := by
  have hsum : (s.samples ++ [watts]).sum = s.samples.sum + watts := by simp
  refine ⟨_, rfl, ?_⟩
  rw [if_neg (by simp [h]), hsum]
  dsimp only
  split <;> exact ⟨rfl, sameMemory_of_mem_lm rfl fun _ => rfl, rfl⟩

/-! ## Ageing (R260) -/

theorem ageingWord_toNat {worst : Nat} (h : worst < 64) (eolh : Nat) (warn : Bool) :
    (ageingWord eolh worst warn).toNat = min eolh 0xFFFFFF * 2 ^ 40 + worst * 2 ^ 32 + warn.toNat := by
  have hm : min eolh 0xFFFFFF < 2 ^ 24 := by omega
  have hbit : (0#31 ++ (if warn then 1#1 else 0#1)).toNat = warn.toNat := by cases warn <;> rfl
  unfold ageingWord
  rw [BitVec.toNat_append, BitVec.toNat_append, hbit, BitVec.toNat_ofNat, BitVec.toNat_ofNat, Nat.mod_eq_of_lt hm,
    Nat.mod_eq_of_lt (by omega), ← Nat.shiftLeft_add_eq_or_of_lt (by omega),
    ← Nat.shiftLeft_add_eq_or_of_lt (by have := Bool.toNat_lt warn; omega), Nat.shiftLeft_eq, Nat.shiftLeft_eq]
  omega

theorem ageingWord_fields {worst : Nat} (h : worst < 64) (eolh : Nat) (warn : Bool) :
    fld (ageingWord eolh worst warn) 40 24 = min eolh 0xFFFFFF ∧ fld (ageingWord eolh worst warn) 32 8 = worst ∧
      fld (ageingWord eolh worst warn) 1 31 = 0 ∧ (ageingWord eolh worst warn).getLsbD 0 = warn := by
  have hm : min eolh 0xFFFFFF < 2 ^ 24 := by omega
  have hw : warn.toNat < 2 := Bool.toNat_lt warn
  simp only [fld_eq, BitVec.getLsbD, ageingWord_toNat h]
  generalize min eolh 0xFFFFFF = m at hm
  refine ⟨by omega, by omega, by omega, ?_⟩
  rw [Nat.testBit_zero]
  cases warn <;> simp <;> omega

/-- Clearing bit 0 by a written 1 leaves the bits above it. -/
theorem getLsbD_clear_low (w data : Word) {b : Nat} (hb : 0 < b) : (w &&& ~~~(data &&& 1#64)).getLsbD b = w.getLsbD b := by
  have hone : (1#64).getLsbD b = false := by simp; omega
  rw [BitVec.getLsbD_and, BitVec.getLsbD_not, BitVec.getLsbD_and, hone, Bool.and_false]
  by_cases h : b < 64
  · simp [h]
  · simp [BitVec.getLsbD_of_ge _ b (Nat.not_lt.1 h)]

/-- The word of a die after an update of one of its sensors. -/
theorem ageing_update (s : State) (die : Fin 12) (eolh : Nat) {worst : Nat} (h : worst < 64) :
    ∃ t, exec (.ageingSensorUpdate die eolh worst) s = .next t ∧ t.ageing[die] = ageingWord eolh worst
      (s.ageing[die].getLsbD 0 || (decide (eolh < s.eolhMin) && decide (s.eolhMin ≤ fld s.ageing[die] 40 24))) := by
  have hdie : ¬ (12 ≤ die.val ∨ 64 ≤ worst) := by omega
  refine ⟨_, rfl, ?_⟩
  rw [if_neg hdie]
  split <;> simp [State.notify, State.notifyWith]

theorem ageing_cleared (s : State) (die : Fin 12) (data : Word) :
    ∃ t, exec (.ageingWarnClear die data) s = .next t ∧ t.ageing[die] = s.ageing[die] &&& ~~~(data &&& 1#64) :=
  ⟨_, rfl, by simp⟩

end Sys2Proof.Machine

namespace Sys2Proof.Proofs

open Sys2Proof Sys2Proof.Machine

/-- Settles O57: each command writes its table at one key, the tenth sample moves the clock by `powerStep`, and a summary word is built
field by field. -/
theorem settingsPowerAndAgeing : Obligations.SettingsPowerAndAgeing := by
  unfold Obligations.SettingsPowerAndAgeing
  refine ⟨fun s n => ⟨fun llc l2 hn => ⟨_, rfl, modClass_sets hn _⟩, fun cap hn => ⟨_, rfl, modClass_sets hn _⟩, fun w0 w2 w4 w3 hn => ?_,
      exec_writeKeySlot_absent (.inl rfl) n, fun key hn => exec_writeKeySlot_absent (.inr hn) key, fun key h1 h255 => ?_,
      fun areas hn => ?_, fun root hn => ⟨_, exec_setAsidRoot hn (some root) s, Sparse.find?_put .., sameMemory_of_mem_lm rfl fun _ => rfl⟩,
      fun hn => ⟨_, exec_setAsidRoot hn none s, Sparse.find?_erase .., sameMemory_of_mem_lm rfl fun _ => rfl⟩,
      fun hlo hhi => congrArg Host.Outcome.next (if_pos ⟨hlo, hhi⟩), fun hn => congrArg Host.Outcome.next (if_neg (by omega)), rfl,
      ⟨_, rfl, rfl, sameMemory_of_mem_lm rfl fun _ => rfl⟩⟩,
    fun s watts => ⟨fun h => exec_powerSample_early h watts, fun h => ?_⟩, fun s die eolh worst data hw => ⟨?_, ?_⟩⟩
  · obtain ⟨hset, hkeep, -⟩ := modClass_sets (s := s) hn fun c => { c with weights := [w0, w2, w4, w3] }
    exact ⟨_, rfl, hset, hkeep⟩
  · refine ⟨_, exec_writeKeySlot h1 h255 key, Sparse.get_put_same .., fun k hk => Sparse.get_put_other _ _ _ hk.symm,
      sameMemory_of_mem_lm rfl fun _ => rfl⟩
  · refine ⟨_, rfl, by simp [tenant_setAreas hn], fun k hk => by simp [tenant_setAreas hn, hk.symm], fun f hf => ⟨?_, fun k hk => ?_⟩⟩
    · simp [formula_setAreas hn areas n hf]
    · simp [formula_setAreas hn areas k hf, hk.symm]
  · obtain ⟨t, ht, hempty, hmem, hclock⟩ := exec_powerSample_tenth h watts
    refine ⟨t, ht, hempty, hmem, fun hover => ?_, fun hunder => ?_, fun hover hunder => ?_⟩
    · rw [hclock, powerStep, if_pos hover]
    · rw [hclock, powerStep, if_neg (by omega), if_pos hunder]
    · rw [hclock, powerStep, if_neg (by omega), if_neg (by omega)]
  · obtain ⟨t, ht, hword⟩ := ageing_update s die eolh hw
    obtain ⟨heolh, hworst, hzero, hwarn⟩ := ageingWord_fields hw eolh
      (s.ageing[die].getLsbD 0 || (decide (eolh < s.eolhMin) && decide (s.eolhMin ≤ fld s.ageing[die] 40 24)))
    rw [← hword] at heolh hworst hzero hwarn
    exact ⟨t, ht, heolh, hworst, hzero, by rw [hwarn]; simp⟩
  · obtain ⟨t, ht, hword⟩ := ageing_cleared s die data
    refine ⟨t, ht, by simp [hword], fun b hb => ?_⟩
    dsimp only
    rw [hword, getLsbD_clear_low _ _ hb]

end Sys2Proof.Proofs
end

section
/-!
Local accesses (R97, R98, R311, R342): the checks of an offset in their order, and where the partition of a launch puts it.
-/
namespace Sys2Proof.Machine

open Sys2Proof

/-! ## The checks of a local offset -/

section
variable {s : State} {off : Word} {size : Nat} {use : LocalUse}

theorem localLoc_seg (h : s.lmend s.curCore s.cur ≤ off.toNat) : s.localLoc off size use = .error (.trap clsSeg off.toNat) := by
  simp [State.localLoc, need_of_false (decide_eq_false (Nat.not_lt.2 h))]

theorem localLoc_aln (hend : off.toNat < s.lmend s.curCore s.cur) (h : off.toNat % size ≠ 0) :
    s.localLoc off size use = .error (.trap clsAln off.toNat) := by
  simp [State.localLoc, need_of_true (decide_eq_true hend), need_of_false (beq_false_of_ne h)]

theorem localLoc_sys (hend : off.toNat < s.lmend s.curCore s.cur) (haln : off.toNat % size = 0)
    (h : localAllowed s.cur.supervisor s.curSlot use off.toNat = false) :
    s.localLoc off size use = .error (.trap clsSys off.toNat) := by
  simp [State.localLoc, need_of_true (decide_eq_true hend), haln, h]

/-- Below the program area a strand that is not the supervisor's has the movement request words alone, and those only to read (R97). -/
theorem localAllowed_low {slot o : Nat} (ho : o < 0x9000) (huse : use ≠ .ldx) (h : use = .other ∨ o < 0x8000 ∨ 0x8020 ≤ o) :
    localAllowed false slot use o = false := by
  have hmb : use = .other ∨ inMb o = false := h.imp_right fun h => by simp [inMb]; omega
  have hprog : decide (programArea ≤ o) = false := decide_eq_false (Nat.not_le.2 ho)
  obtain rfl | hmb := hmb <;> simp [localAllowed, *]

/-- The program area is every strand's, to the end of its partition (R97). -/
theorem localAllowed_program {sup : Bool} {slot o : Nat} (ho : programArea ≤ o) (use : LocalUse) :
    localAllowed sup slot use o = true := by
  have hmb : inMb o = false := by simp [inMb, programArea] at ho ⊢; omega
  simp [localAllowed, hmb, ho]

/-- An offset of the program area that a launch's partition holds (R98). -/
theorem localLoc_partition {l : Launch} {t : Seat} (hl : s.launchOf s.cur = some l) (ht : l.seat s.curCore = some t)
    (hlo : programArea ≤ off.toNat) (hhi : off.toNat < programArea + t.lmsize) (haln : off.toNat % size = 0) :
    s.localLoc off size use = .ok (.lm s.curCore (t.pbase + (off.toNat - programArea))) := by
  have hend : s.lmend s.curCore s.cur = programArea + t.lmsize := by simp [State.lmend, hl, Launch.lmend, ht]
  have hplace : s.place s.cur.launch s.curCore off.toNat = some (t.pbase + (off.toNat - programArea)) := by
    have hl' : s.cur.launch.bind s.launchById = some l := hl
    simp [State.place, hl', ht, Nat.not_lt.2 hlo, hhi]
  simp [State.localLoc, hend, hhi, haln, localAllowed_program hlo, hplace]

end

/-! ## LDL and STL -/

theorem loadLocal_stops {s : State} {off : Word} {e : Stop} (h : s.localLoc off 8 .ldl = .error e) (d : Reg) :
    s.loadLocal off d = .error e := by
  simp [State.loadLocal, h]

theorem storeLocal_stops {s : State} {off : Word} {e : Stop} (h : s.localLoc off 8 .other = .error e) (data : Word) :
    s.storeLocal off data = .error e := by
  simp [State.storeLocal, h]

theorem loadLocal_ok {s : State} {off : Word} {l : Loc} (h : s.localLoc off 8 .ldl = .ok l) (hp : s.poisonedAt l 8 = false) (d : Reg) :
    s.loadLocal off d = .ok (s.setReg d (s.rdWord l)) := by
  simp [State.loadLocal, h, hp]

theorem storeLocal_ok {s : State} {off : Word} {l : Loc} (h : s.localLoc off 8 .other = .ok l) (hs : StoresIn s) (data : Word) :
    s.storeLocal off data = .ok (s.homeWrite s.cl l (bytesOfNat 8 data.toNat) false) := by
  obtain ⟨-, -, hdrains, hrows⟩ := hs
  have hd : s.drainsIn = .ok () := by simp [State.drainsIn, hdrains]
  simp [State.storeLocal, h, hd, rowsIn_quiet hrows]

/-- Bytes written to a local memory on which nothing waits. -/
theorem homeWrite_lm {s : State} {core : Nat} (hw : (s.core core).waiters = []) (cl off : Nat) (bs : List Byte) :
    s.homeWrite cl (.lm core off) bs false = s.wrLoc (.lm core off) bs false := by
  have hw' : ((s.wrLoc (.lm core off) bs false).core core).waiters = [] := by simp [State.wrLoc, hw]
  have hserve (i : Nat) : (s.wrLoc (.lm core off) bs false).serve (.lm core i) = s.wrLoc (.lm core off) bs false := by
    simp [State.serve, State.waitList, hw', State.serveLoop, State.servePass]
  exact foldl_eq_self _ _ _ fun i _ => hserve _

/-- The checks of LDL and STL in their order: SEG, ALN, SYS (R97, R98). -/
theorem exec_local_checks {i : Instr} {s : State} {off : Word} {use : LocalUse} {mayRead : Bool} (huse : use ≠ .ldx)
    (hread : mayRead = false → use = .other) (hi : ∀ e, s.localLoc off 8 use = .error e → exec i s = .next (s.stop e)) :
    (s.lmend s.curCore s.cur ≤ off.toNat → exec i s = .next (s.stop (.trap clsSeg off.toNat))) ∧
      (off.toNat < s.lmend s.curCore s.cur → off.toNat % 8 ≠ 0 → exec i s = .next (s.stop (.trap clsAln off.toNat))) ∧
      (off.toNat < s.lmend s.curCore s.cur → off.toNat % 8 = 0 → s.cur.supervisor = false → off.toNat < 0x9000 →
        (mayRead = false ∨ off.toNat < 0x8000 ∨ 0x8020 ≤ off.toNat) → exec i s = .next (s.stop (.trap clsSys off.toNat))) :=
  ⟨fun h => hi _ (localLoc_seg h), fun hend h => hi _ (localLoc_aln hend h), fun hend haln hsup hlow h => hi _ (localLoc_sys hend haln
    (hsup ▸ localAllowed_low hlow huse (h.imp_left hread)))⟩

/-- LDL of an offset that the partition holds: the word there goes to s[d] (R311). -/
theorem exec_load_local {i : Instr} {s : State} {off : Word} {d : Reg} {p : Nat} (hi : exec i s = finish s (s.loadLocal off d))
    (hl : s.localLoc off 8 .ldl = .ok (.lm s.curCore p)) (hp : s.poisonedAt (.lm s.curCore p) 8 = false) :
    exec i s = .next (served (s.setReg d (BitVec.ofNat 64 (natOfBytes (s.here.lm.rdBytes p 8))))) := by
  rw [hi, loadLocal_ok hl hp]
  rfl

/-- STL of an offset that the partition holds: its eight bytes are written, and nothing else (R342). -/
theorem exec_store_local {i : Instr} {s : State} {off : Word} {d : Reg} {p : Nat}
    (hi : exec i s = finish s (s.storeLocal off (s.src d))) (hl : s.localLoc off 8 .other = .ok (.lm s.curCore p)) (hs : StoresIn s)
    (hw : s.here.waiters = []) :
    ∃ u, exec i s = .next u ∧ u.here.lm.rdBytes p 8 = bytesOfNat 8 (uns s d) ∧ SameOutside s u (.lm s.curCore p) 8 ∧ SameStrand s u := by
  have hlen : (bytesOfNat 8 (uns s d)).length = 8 := length_bytesOfNat ..
  refine ⟨_, by rw [hi, storeLocal_ok hl hs, homeWrite_lm hw]; rfl, ?_, ?_, ?_⟩
  · have hread := rdLoc_wrLoc (s := s) (.lm s.curCore p) (bytesOfNat 8 (uns s d)) false nofun nofun nofun
    rw [hlen] at hread
    rw [← hread]
    exact congrArg (Memory.rdBytes · p 8) (State.lm_modSlot ..)
  · have hout := sameOutside_wrLoc s (.lm s.curCore p) (bytesOfNat 8 (uns s d)) false
    rw [hlen] at hout
    exact sameOutside_trans hout (sameOutside_of_sameMemory (sameMemory_served _) _ _)
  · exact SameStrand.trans (wrLoc_undisturbed s (.lm s.curCore p) (bytesOfNat 8 (uns s d)) false).strand (sameStrand_served _)

end Sys2Proof.Machine

namespace Sys2Proof.Proofs

open Sys2Proof Sys2Proof.Machine

/-- Settles O25: the checks stop in the order of `State.localLoc`, and an offset of the program area within LMEND is the byte as far into
the launch's partition. -/
theorem localAccesses : Obligations.LocalAccesses := by
  unfold Obligations.LocalAccesses
  refine ⟨fun s d a imm ext => ⟨?_, ?_, ?_, ?_⟩, fun s d a imm ext l t o hk hl ht hlo hhi haln => ⟨?_, ?_, ?_, ?_⟩⟩
  · exact exec_local_checks (use := .ldl) nofun nofun fun e h => congrArg (finish s) (loadLocal_stops h d)
  · exact exec_local_checks (use := .other) nofun (fun _ => rfl) fun e h => congrArg (finish s) (storeLocal_stops h _)
  · exact exec_local_checks (use := .ldl) nofun nofun fun e h => congrArg (finish s) (loadLocal_stops h d)
  · exact exec_local_checks (use := .other) nofun (fun _ => rfl) fun e h => congrArg (finish s) (storeLocal_stops h _)
  · rintro rfl hp
    exact exec_load_local (i := .ldl d a imm) rfl (localLoc_partition hl ht hlo hhi haln) hp
  · rintro rfl hp
    exact exec_load_local (i := .ldlLone d a ext) rfl (localLoc_partition hl ht hlo hhi haln) hp
  · rintro rfl hs hw
    exact exec_store_local (i := .stl d a imm) rfl (localLoc_partition hl ht hlo hhi haln) hs hw
  · rintro rfl hs hw
    exact exec_store_local (i := .stlLone d a ext) rfl (localLoc_partition hl ht hlo hhi haln) hs hw

end Sys2Proof.Proofs
end

section
/-!
Global accesses (R100, R103–R105, R183): the checks of a capability, where a granted address goes, and a slot that waits for a walk or is
FAULTED with its context saved.
-/
namespace Sys2Proof.Machine

open Sys2Proof

/-! ## The checks of a capability (R100) -/

/-- A check with a reason to stop, before another that stops for the same. -/
theorem need_bind_error {α : Type} {b : Bool} {e : Stop} {r : Except Stop α} (h : b = false ∨ r = .error e) :
    (need b e >>= fun _ => r) = .error e := by
  cases b with
  | false => rfl
  | true => exact h.resolve_left Bool.true_eq_false.mp

section
variable {s : State} {c : CapIx} {off : Word} {size : Nat} {read write : Bool}

/-- What R100 asks of a capability for an access of `size` bytes at an offset. -/
def State.Grants (s : State) (c : CapIx) (off : Word) (size : Nat) (read write : Bool) : Prop :=
  (read = true → (s.cap c).r = true) ∧ (write = true → (s.cap c).w = true) ∧ (s.cap c).any = true ∧
    (off.toNat + size ≤ (s.cap c).limit ∧ (s.cap c).base + off.toNat < 2 ^ 56) ∧
    (write = true → (s.cap c).q = false ∧ s.genCurrent s.cur (s.cap c) = true)

theorem grants_iff : s.Grants c off size read write ↔
    ((s.cap c).any && (!read || (s.cap c).r) && (!write || (s.cap c).w)) = true ∧
      decide (off.toNat + size ≤ (s.cap c).limit ∧ (s.cap c).base + off.toNat < 2 ^ 56) = true ∧
      (!write || (!(s.cap c).q && s.genCurrent s.cur (s.cap c))) = true := by
  rw [decide_eq_true_iff, State.Grants]
  generalize (off.toNat + size ≤ (s.cap c).limit ∧ (s.cap c).base + off.toNat < 2 ^ 56) = within
  generalize (s.cap c).any = any, (s.cap c).r = r, (s.cap c).w = w, (s.cap c).q = q, s.genCurrent s.cur (s.cap c) = current
  cases read <;> cases write <;> simp <;> tauto

theorem capDva_ok (h : s.Grants c off size read write) : s.capDva c off size read write = .ok ((s.cap c).base + off.toNat) := by
  obtain ⟨hright, hwithin, hcurrent⟩ := grants_iff.1 h
  simp only [State.capDva, need_of_true hright, need_of_true hwithin, need_of_true hcurrent, ok_bind]

/-- Whatever of R100 an access lacks, it traps SEG with its offset. -/
theorem capDva_seg (h : ¬ s.Grants c off size read write) : s.capDva c off size read write = .error (.trap clsSeg off.toNat) := by
  simp only [grants_iff, not_and_or, Bool.not_eq_true] at h
  exact need_bind_error (h.imp_right fun h => need_bind_error (h.imp_right fun h => need_bind_error (.inl h)))

variable {kind : Access} {use : LocalUse}

theorem globalLoc_seg (h : ¬ s.Grants c off size read write) :
    s.globalLoc c off size read write kind use = .error (.trap clsSeg off.toNat) := by
  simp only [State.globalLoc, State.globalDva, capDva_seg h, error_bind]

/-- A granted access to device memory is aligned, and INFO of its trap is the address. -/
theorem globalLoc_aln (h : s.Grants c off size read write) (hw : isWindow ((s.cap c).base + off.toNat) = false)
    (ha : ((s.cap c).base + off.toNat) % size ≠ 0) :
    s.globalLoc c off size read write kind use = .error (.trap clsAln ((s.cap c).base + off.toNat)) := by
  simp [State.globalLoc, State.globalDva, capDva_ok h, hw, need_of_false (beq_false_of_ne ha)]

/-- A granted, aligned access to device memory goes where its address translates. -/
theorem globalLoc_device {l : Loc} (h : s.Grants c off size read write) (hw : isWindow ((s.cap c).base + off.toNat) = false)
    (ha : ((s.cap c).base + off.toNat) % size = 0) (hl : s.xlate ((s.cap c).base + off.toNat) kind = .ok l) :
    s.globalLoc c off size read write kind use = .ok (l, (s.cap c).base + off.toNat) := by
  simp [State.globalLoc, State.globalDva, State.dvaLoc, capDva_ok h, hw, ha, hl]

end

theorem any_of_r {k : Cap} (h : k.r = true) : k.any = true := by simp [Cap.any, h]
theorem any_of_w {k : Cap} (h : k.w = true) : k.any = true := by simp [Cap.any, h]

/-- A reading access, as R100 has it. -/
theorem grants_read_iff {s : State} {c : CapIx} {off : Word} {size : Nat} : s.Grants c off size true false ↔
    (s.cap c).r = true ∧ off.toNat + size ≤ (s.cap c).limit ∧ (s.cap c).base + off.toNat < 2 ^ 56 :=
  ⟨fun ⟨hr, _, _, hwithin, _⟩ => ⟨hr rfl, hwithin⟩, fun ⟨hr, hwithin⟩ => ⟨fun _ => hr, nofun, any_of_r hr, hwithin, nofun⟩⟩

/-- A writing access, as R100 has it. -/
theorem grants_write_iff {s : State} {c : CapIx} {off : Word} {size : Nat} : s.Grants c off size false true ↔
    (s.cap c).w = true ∧ (off.toNat + size ≤ (s.cap c).limit ∧ (s.cap c).base + off.toNat < 2 ^ 56) ∧ (s.cap c).q = false ∧
      s.genCurrent s.cur (s.cap c) = true :=
  ⟨fun ⟨_, hw, _, hwithin, hcurrent⟩ => ⟨hw rfl, hwithin, hcurrent rfl⟩, fun ⟨hw, hwithin, hcurrent⟩ =>
    ⟨nofun, fun _ => hw, any_of_w hw, hwithin, fun _ => hcurrent⟩⟩

/-! LD, ST and STG stop as their address does. -/

section
variable {s : State} {c : CapIx} {off : Word} {e : Stop}

theorem load_stops (h : s.globalLoc c off 8 true false .read .other = .error e) (d : Reg) : s.load c off d = .error e := by
  simp only [State.load, h, error_bind]

theorem store_stops (h : s.globalLoc c off 8 false true .write .other = .error e) (data : Word) : s.store c off data = .error e := by
  simp only [State.store, h, error_bind]

theorem postedStore_stops (h : s.globalLoc c off 8 false true .write .other = .error e) (data : Word) :
    s.postedStore c off data = .error e := by
  simp only [State.postedStore, h, error_bind]

theorem exec_ld_stops {a : Reg} {imm : BitVec 12} (h : s.globalLoc c (s.offset a imm) 8 true false .read .other = .error e) (d : Reg) :
    exec (.ld d a c imm) s = .next (s.stop e) := congrArg (finish s) (load_stops h d)

theorem exec_st_stops {a : Reg} {imm : BitVec 12} (h : s.globalLoc c (s.offset a imm) 8 false true .write .other = .error e) (d : Reg) :
    exec (.st d a c imm) s = .next (s.stop e) := congrArg (finish s) (store_stops h _)

theorem exec_stg_stops {a : Reg} {imm : BitVec 12} (h : s.globalLoc c (s.offset a imm) 8 false true .write .other = .error e) (d : Reg) :
    exec (.stg d a c imm) s = .next (s.stop e) := congrArg (finish s) (postedStore_stops h _)

end

/-! ## Translation by the port (R103–R105) -/

theorem leafCause_none {pte : Word} {read write : Bool} (hr : read = true → pte.getLsbD 44 = true)
    (hw : write = true → pte.getLsbD 45 = true ∧ pte.getLsbD 47 = false) : leafCause pte read write = none := by
  cases read <;> cases write <;> simp_all [leafCause]

theorem leafCause_read {pte : Word} (write : Bool) (h : pte.getLsbD 44 = false) : leafCause pte true write = some 2 := by
  rw [leafCause, h]
  rfl

theorem leafCause_write {pte : Word} {read : Bool} (hr : read = true → pte.getLsbD 44 = true)
    (h : pte.getLsbD 45 = false ∨ pte.getLsbD 47 = true) : leafCause pte read true = some 3 := by
  cases read <;> obtain h | h := h <;> simp_all [leafCause]

theorem walkFailed_of_none {x : Slot} (h : x.walk = none) (asid dva : Nat) (kind : Access) : x.walkFailed asid dva kind = none := by
  simp [Slot.walkFailed, h]

/-- An entry without a right that the access needs is a page fault of its cause. -/
theorem xlate_fault {s : State} {dva cause : Nat} {kind : Access} {e : TlbEntry}
    (hw : s.cur.walkFailed (s.asidOf s.cur) dva kind = none) (he : s.tlbFind s.curCore s.cur (s.asidOf s.cur) dva = some e)
    (hr : leafCause e.pte kind.reads kind.writes = some cause) : s.xlate dva kind = .error (.fault dva cause kind) := by
  simp [State.xlate, hw, he, hr]

/-- A slot that waits for a walk, its C-slot to issue again. -/
def Slot.walking (s : State) (asid dva : Nat) (kind : Access) (x : Slot) : Slot :=
  { x with
    pc := s.lat.pc, adone := true, held := some s.sources, st := .reply, reply := some ⟨.walked, [], true⟩, out := none
    walk := some ⟨asid, dva, kind, true, none⟩, since := some (x.since.getD s.cc), begun := (s.lat.w0, s.lat.w1) }

theorem stop_walk_eq {s : State} (hk : SlotOk s) (asid dva : Nat) (kind : Access) :
    s.stop (.walk asid dva kind) = s.modCur (Slot.walking s asid dva kind) := by
  simp only [State.stop, State.begins, State.awaitWalk, State.await, State.again]
  rw [State.modCur_modCur s _ _ hk, State.modCur_modCur s _ _ hk, State.modCur_modCur s _ _ hk]
  rfl

/-- A slot that waits for a walk issues its C-slot again (R103). -/
theorem stop_walk {s : State} (hk : SlotOk s) (asid dva : Nat) (kind : Access) :
    let t := s.stop (.walk asid dva kind)
    t.cur.st = .reply ∧ t.cur.pc = s.lat.pc ∧ t.cur.adone = true ∧ t.cur.walk = some ⟨asid, dva, kind, true, none⟩ ∧ SameMemory s t := by
  dsimp only
  rw [stop_walk_eq hk, State.cur_modCur s _ hk]
  exact ⟨rfl, rfl, rfl, rfl, sameMemory_modCur s _⟩

/-! ## A fault record is written beside the cores (R105) -/

/-- The cores, and the slot that issues, are as they were. -/
def SameCores (s t : State) : Prop := t.cores = s.cores ∧ t.curCore = s.curCore ∧ t.curSlot = s.curSlot

theorem SameCores.trans {r s t : State} (h : SameCores r s) (h' : SameCores s t) : SameCores r t :=
  ⟨h'.1.trans h.1, h'.2.1.trans h.2.1, h'.2.2.trans h.2.2⟩

theorem unitWrite_cores (s : State) (pa : Nat) (bs : List Byte) : SameCores s (s.unitWrite pa bs) := by
  obtain ⟨_, _, _, e⟩ := touchLines_frame s (.mem pa false 0 0) bs.length true 128 bs none true
  rw [State.unitWrite, e]
  exact ⟨rfl, rfl, rfl⟩

theorem flushFaults_cores (asid : Nat) (rs : List (Nat × List Byte)) (s : State) : SameCores s (s.flushFaults asid rs) := by
  induction rs generalizing s with
  | nil => exact ⟨rfl, rfl, rfl⟩
  | cons r rest ih =>
    rw [State.flushFaults]
    dsimp only
    split
    · exact ⟨rfl, rfl, rfl⟩
    · refine SameCores.trans ?_ (ih _)
      exact SameCores.trans (s := { s with tenants := _ }) ⟨rfl, rfl, rfl⟩ (unitWrite_cores _ _ _)

theorem faultRecord_cores (s : State) (core slot asid dva cause : Nat) (kind : Access) (tag : Nat) :
    SameCores s (s.faultRecord core slot asid dva cause kind tag) := by
  unfold State.faultRecord
  dsimp only
  split
  · exact SameCores.trans ⟨rfl, rfl, rfl⟩ (flushFaults_cores _ _ (s.notify 5 (s.slotid core slot)))
  · exact flushFaults_cores ..

theorem SameCores.cur {s t : State} (h : SameCores s t) : t.cur = s.cur := by
  obtain ⟨hc, hn, hk⟩ := h
  simp only [State.cur, State.slot, State.core, hc, hn, hk]

theorem SameCores.here {s t : State} (h : SameCores s t) : t.here = s.here := by
  obtain ⟨hc, hn, -⟩ := h
  simp only [State.here, State.core, hc, hn]

/-! ## The context of a FAULTED slot (R183) -/

theorem HoldsContext.regs {s : State} {core area vlen dva : Nat} {x : Slot} {high : List Byte}
    (h : HoldsContext s core area (saveLow x vlen dva) high) :
    (s.core core).lm.rdBytes area 256 = bytesOfWords (x.s.toList.map BitVec.toNat) := by
  have hlen : (bytesOfWords (x.s.toList.map BitVec.toNat)).length = 256 := by simp
  have hread := take_drop_rdBytes (s.core core).lm area (off := 0) (n := 256) (len := 0x278) (by decide)
  rw [h.low, saveLow_eq, List.append_assoc, List.drop_zero, List.take_left' hlen] at hread
  exact hread.symm

theorem HoldsContext.pc {s : State} {core area vlen dva : Nat} {x : Slot} {high : List Byte}
    (h : HoldsContext s core area (saveLow x vlen dva) high) :
    (s.core core).lm.rdBytes (area + 0x200) 8 = bytesOfNat 8 x.pc.toNat := by
  have hlen : (bytesOfWords (x.s.toList.map BitVec.toNat) ++ x.c.toList.flatMap fun (c : Cap) => bytesOfNat 32 c.toNat).length = 0x200 := by
    rw [List.length_append, length_capBytes]
    simp
  have hread := take_drop_rdBytes (s.core core).lm area (off := 0x200) (n := 8) (len := 0x278) (by decide)
  rw [h.low, saveLow_eq, List.drop_left' hlen, lowWords, bytesOfWords, List.flatMap_cons,
    List.take_left' (length_bytesOfNat 8 _)] at hread
  exact hread.symm

/-- A slot FAULTED, to run its C-slot again. -/
def Slot.faulting (s : State) (x : Slot) : Slot :=
  { x with
    pc := s.lat.pc, adone := true, held := some s.sources, st := .faulted, faults := nextTag x.faults, faultTag := nextTag x.faults
    mmaFault := false, walk := none, since := none, inl := none, grants := [], reply := none, park := none }

theorem again_faulting {s : State} (hk : SlotOk s) : s.again.modSlot s.curCore s.curSlot (fun x => { x with
      pc := s.lat.pc, adone := true, held := if true then x.held else none, st := .faulted
      faults := nextTag (s.again.slot s.curCore s.curSlot).faults, faultTag := nextTag (s.again.slot s.curCore s.curSlot).faults
      mmaFault := false, walk := none, since := none, inl := none, grants := [], reply := none
      park := if false then x.park else none }) = s.modCur (Slot.faulting s) := by
  have hfaults : (s.again.slot s.curCore s.curSlot).faults = s.cur.faults := State.cur_modCur_keeps s _ Slot.faults fun _ => rfl
  rw [hfaults]
  exact (State.modCur_modCur s _ _ hk).trans (State.modCur_congr rfl)

/-- A failed translation that need not wait: its slot is FAULTED, saved, and recorded (R105). -/
theorem stop_fault_eq {s : State} (hk : SlotOk s) (hf : s.faultWaits s.curCore (s.asidOf s.cur) = false) (dva cause : Nat) (kind : Access) :
    ∃ asid tag, s.stop (.fault dva cause kind) =
      ((s.modCur (Slot.faulting s)).saveContext s.curCore s.curSlot 0).faultRecord s.curCore s.curSlot asid dva cause kind tag := by
  have hstop : s.stop (.fault dva cause kind) = s.again.faultSlot s.curCore s.curSlot dva cause kind s.lat.pc true false :=
    if_neg (Bool.not_eq_true _ ▸ hf)
  rw [hstop, ← again_faulting hk]
  exact ⟨_, _, rfl⟩

/-- A context saved leaves which slot issues. -/
theorem saveContext_issuer (s : State) (core slot vec : Nat) :
    (s.saveContext core slot vec).curCore = s.curCore ∧ (s.saveContext core slot vec).curSlot = s.curSlot :=
  foldl_frame (P := fun s t => t.curCore = s.curCore ∧ t.curSlot = s.curSlot) (fun _ => ⟨rfl, rfl⟩)
    (fun h h' => ⟨h'.1.trans h.1, h'.2.trans h.2⟩) (fun s o => s.taint (.lm core (saveArea slot + o))) (fun _ _ => ⟨rfl, rfl⟩)
    ((s.slot core slot).regPoison.flatMap savedPlaces) ((s.wrLm core (saveArea slot) _).wrLm core (saveArea slot + 0x300) _)

/-- A page fault of the C-slot: the slot is FAULTED, to run its C-slot again, and its save area holds its registers and pc (R105, R183). -/
theorem stop_fault {s : State} (hk : SlotOk s) (hf : s.faultWaits s.curCore (s.asidOf s.cur) = false) (dva cause : Nat) (kind : Access) :
    let t := s.stop (.fault dva cause kind)
    t.cur.st = .faulted ∧ t.cur.pc = s.lat.pc ∧ t.cur.adone = true ∧
      t.here.lm.rdBytes (saveArea s.curSlot) 256 = bytesOfWords (s.cur.s.toList.map BitVec.toNat) ∧
      t.here.lm.rdBytes (saveArea s.curSlot + 0x200) 8 = bytesOfNat 8 s.lat.pc.toNat := by
  obtain ⟨asid, tag, e⟩ := stop_fault_eq hk hf dva cause kind
  obtain ⟨vlen, hsaved, honly⟩ := saveContext_holds (s.modCur (Slot.faulting s)) s.curCore s.curSlot 0
  have hrecord := faultRecord_cores ((s.modCur (Slot.faulting s)).saveContext s.curCore s.curSlot 0) s.curCore s.curSlot asid dva cause
    kind tag
  obtain ⟨hcore, hissuer⟩ : _ = s.curCore ∧ _ = s.curSlot := saveContext_issuer (s.modCur (Slot.faulting s)) s.curCore s.curSlot 0
  have hslot : (s.modCur (Slot.faulting s)).slot s.curCore s.curSlot = Slot.faulting s s.cur := State.cur_modCur s _ hk
  have hcur : (s.stop (.fault dva cause kind)).cur = Slot.faulting s s.cur := by
    rw [e, hrecord.cur, State.cur, hcore, hissuer, honly.slot, hslot]
  have hhere : (s.stop (.fault dva cause kind)).here = ((s.modCur (Slot.faulting s)).saveContext s.curCore s.curSlot 0).core s.curCore := by
    rw [e, hrecord.here, State.here, hcore]
  rw [hslot] at hsaved
  dsimp only
  rw [hcur, hhere]
  exact ⟨rfl, rfl, rfl, hsaved.regs, hsaved.pc⟩

end Sys2Proof.Machine

namespace Sys2Proof.Proofs

open Sys2Proof Sys2Proof.Machine

/-- Settles O26: `State.Grants` is what R100 asks, the port's entry decides the rest, and a fault saves the slot as `saveContext` does. -/
theorem globalAccessesAreCheckedAndTranslated : Obligations.GlobalAccessesAreCheckedAndTranslated := by
  unfold Obligations.GlobalAccessesAreCheckedAndTranslated
  refine ⟨fun s d a c imm => ?_, fun s dva kind hw => ?_⟩
  · dsimp only
    have hread : s.Grants c (s.offset a imm) 8 true false ↔ _ := grants_read_iff
    have hwrite : s.Grants c (s.offset a imm) 8 false true ↔ _ := grants_write_iff
    refine ⟨fun h => exec_ld_stops (globalLoc_seg fun hg => ?_) d, fun hr hin hwin ha => exec_ld_stops (globalLoc_aln (hread.2 ⟨hr, hin⟩) hwin ha) d,
      fun h => ?_, fun hr hin hq hgen hwin ha => exec_st_stops (globalLoc_aln (hwrite.2 ⟨hr, hin, hq, hgen⟩) hwin ha) d,
      fun l hr hin hwin ha hl => globalLoc_device (hread.2 ⟨hr, hin⟩) hwin ha hl,
      fun l hr hin hq hgen hwin ha hl => globalLoc_device (hwrite.2 ⟨hr, hin, hq, hgen⟩) hwin ha hl⟩
    · obtain ⟨hr, hin⟩ := hread.1 hg
      exact h.elim (fun h => Bool.noConfusion (h.symm.trans hr)) (· hin)
    · have hno : ¬ s.Grants c (s.offset a imm) 8 false true := fun hg => by
        obtain ⟨hr, hin, hq, hgen⟩ := hwrite.1 hg
        obtain h | h | h | h := h
        · exact Bool.noConfusion (h.symm.trans hr)
        · exact h hin
        · exact Bool.noConfusion (h.symm.trans hq)
        · exact Bool.noConfusion (h.symm.trans hgen)
      exact ⟨exec_st_stops (globalLoc_seg hno) d, exec_stg_stops (globalLoc_seg hno) d⟩
  · have hf := walkFailed_of_none hw (s.asidOf s.cur) dva kind
    refine ⟨fun e he hr hwr => xlate_ok hf he (leafCause_none hr hwr), xlate_miss hf, fun e he hr h => xlate_fault hf he ?_,
      fun e he hr hwr h => xlate_fault hf he ?_, fun hk => stop_walk hk _ dva kind, fun cause hk hwaits => stop_fault hk hwaits dva cause kind⟩
    · rw [hr]
      exact leafCause_read _ h
    · rw [hwr]
      exact leafCause_write hr h

end Sys2Proof.Proofs
end

section
/-!
A statement that fails: O59, with a state that meets the hypotheses of a clause and not what it says.
-/
namespace Sys2Proof.Proofs

open Sys2Proof Sys2Proof.Machine

/-- A clean line 0 in the LLC, in way 0. -/
def cleanTag : LlcLine := ⟨false, 0, 0, ⟨false, 0, 0⟩⟩

/-- The LLC holds the clean line 0, and a sector of a line that failed its MAC has not been poisoned yet. -/
def failedSectorState : State := { State.reset with hier := { Hier.reset with llc := [(0, cleanTag)], failed := [(0, 1#4)] } }

/-- The eviction marks the words of the failed sector as poison (R254), and none is left to mark. -/
theorem evict_failedSectorState : ∃ t, exec (.llcEviction 0) failedSectorState = .next t ∧ t.hier.failed = [] := ⟨_, rfl, rfl⟩

/-- Refutes O59: its clause on a clean line says that the eviction changes nothing of the hierarchy but the LLC, and does not ask that
no failed sector awaits its poison; the eviction also takes up the sectors that failed their MAC. -/
theorem not_evictionsAndInvalidations : ¬ Obligations.EvictionsAndInvalidations := by
  unfold Obligations.EvictionsAndInvalidations
  rintro ⟨hevict, -, -⟩
  obtain ⟨t, ht, -, -, hclean, -⟩ := hevict failedSectorState 0 cleanTag rfl (by decide)
  obtain ⟨u, hu, hfailed⟩ := evict_failedSectorState
  obtain rfl : u = t := Host.Outcome.next.inj (hu.symm.trans ht)
  have hkept : u.hier.failed = [(0, 1#4)] := by rw [hclean rfl]; rfl
  exact absurd (hfailed.symm.trans hkept) nofun

end Sys2Proof.Proofs
end

section
/-!
FENCE, RFLUSH and RINV, and the cluster's walker (R115, R119, R126, R302, R331).
-/
namespace Sys2Proof.Machine

open Sys2Proof

/-! ## A release and FENCE (R119, R126) -/

theorem release_drains {s : State} (h : s.cur.drainsQueued ≠ 0) : s.release = .error (.reissue .drainsIn) := by
  simp [State.release, State.drainsIn, need_of_false (beq_false_of_ne h)]

theorem release_pathOut {s : State} (hd : s.cur.drainsQueued = 0) (h : s.pathOut s.curCore s.curSlot s.waitsSince = true) :
    s.release = .error (.reissue (.pathIn s.waitsSince)) := by
  simp [State.release, State.drainsIn, hd, h]

theorem release_drained {s u : State} (hd : s.cur.drainsQueued = 0) (hp : s.pathOut s.curCore s.curSlot s.waitsSince = false)
    (hr : s.rowsIn = .ok u) : s.release = .ok (u.drainStores u.curCore) := by
  simp [State.release, State.drainsIn, hd, hp, hr]

/-- STGs to the core that issues. -/
def Loc.inCore (core : Nat) : Loc → Bool
  | .lm c _ => c == core
  | _ => false

/-- What FENCE leaves once the release is made and no STG is to be waited for. -/
def State.fenced (t : State) (f : BitVec 2) : State :=
  if f.getLsbD 1 then t.flushStgs t.curCore t.curSlot (Loc.inCore t.curCore) else t

theorem fence_stops {s : State} {e : Stop} (h : s.release = .error e) (f : BitVec 2) : s.fence f = .error e := by
  simp only [State.fence, h, error_bind]

theorem fence_waits {s t : State} (ht : s.release = .ok t) {f : BitVec 2} (hf : f.getLsbD 0 = true) (hg : t.cur.stgs ≠ 0) :
    s.fence f = .error (.reissue .stgAcked) := by
  have hneed : (f.getLsbD 0 == false || t.cur.stgs == 0) = false := by simp [hf, hg]
  simp only [State.fence, ht, ok_bind, need_of_false hneed, error_bind]

theorem fence_ok {s t : State} (ht : s.release = .ok t) {f : BitVec 2} (hf : f.getLsbD 0 = true → t.cur.stgs = 0) :
    s.fence f = .ok (t.fenced f) := by
  have hneed : (f.getLsbD 0 == false || t.cur.stgs == 0) = true := by cases h : f.getLsbD 0 <;> simp_all
  simp only [State.fence, ht, ok_bind, need_of_true hneed]
  rfl

theorem fenced_quiet {s : State} (h : s.stgs = []) (f : BitVec 2) : s.fenced f = s := by
  simp [State.fenced, State.flushStgs, flushOwner_nil h]

/-! ## RFLUSH and RINV (R331) -/

section
variable {s : State} {d a b : Reg} {c : CapIx}

/-- What RFLUSH and RINV ask of their capability, their range and their barrier word. -/
structure State.RangeOk (s : State) (d a b : Reg) (c : CapIx) : Prop where
  r : (s.cap c).r = true
  w : (s.cap c).w = true
  q : (s.cap c).q = false
  current : s.genCurrent s.cur (s.cap c) = true
  range : uns s a + uns s b ≤ (s.cap c).limit ∧ (s.cap c).base + uns s a + uns s b ≤ 2 ^ 56
  start : isWindow ((s.cap c).base + uns s a) = false
  lines : ∀ l ∈ rangeLines ((s.cap c).base + uns s a) (uns s b), isWindow (128 * l) = false
  barrier : uns s d + 8 ≤ (s.cap c).limit ∧ (s.cap c).base + uns s d < 2 ^ 56
  device : isWindow ((s.cap c).base + uns s d) = false
  aligned : ((s.cap c).base + uns s d) % 8 = 0

theorem State.RangeOk.checks (h : s.RangeOk d a b c) :
    ((s.cap c).any && (s.cap c).r && decide ((s.src a).toNat + (s.src b).toNat ≤ (s.cap c).limit ∧
        (s.cap c).base + (s.src a).toNat + (s.src b).toNat ≤ 2 ^ 56) && !isWindow ((s.cap c).base + (s.src a).toNat) &&
      !(rangeLines ((s.cap c).base + (s.src a).toNat) (s.src b).toNat).any fun l => isWindow (128 * l)) = true ∧
    ((s.cap c).w && decide ((s.src d).toNat + 8 ≤ (s.cap c).limit ∧ (s.cap c).base + (s.src d).toNat < 2 ^ 56) && !(s.cap c).q &&
      s.genCurrent s.cur (s.cap c) && !isWindow ((s.cap c).base + (s.src d).toNat)) = true := by
  have hlines : ((rangeLines ((s.cap c).base + (s.src a).toNat) (s.src b).toNat).any fun l => isWindow (128 * l)) = false :=
    List.any_eq_false.2 fun l hl => Bool.not_eq_true _ ▸ h.lines l hl
  have hany : (s.cap c).any = true := by simp [Cap.any, h.r]
  have hstart : isWindow ((s.cap c).base + (s.src a).toNat) = false := h.start
  have hdevice : isWindow ((s.cap c).base + (s.src d).toNat) = false := h.device
  have hrange : (s.src a).toNat + (s.src b).toNat ≤ (s.cap c).limit ∧ (s.cap c).base + (s.src a).toNat + (s.src b).toNat ≤ 2 ^ 56 := h.range
  have hbarrier : (s.src d).toNat + 8 ≤ (s.cap c).limit ∧ (s.cap c).base + (s.src d).toNat < 2 ^ 56 := h.barrier
  rw [hany, h.r, h.w, h.q, h.current, hlines, hstart, hdevice, decide_eq_true hrange, decide_eq_true hbarrier]
  exact ⟨rfl, rfl⟩

/-- A range whose checks hold goes to the walker with its barrier word; an empty one fills the word at once. -/
theorem rangeOp_ok {barrier : Loc} {lines : List Nat} (h : s.RangeOk d a b c) (hs : StoresIn s) (hroom : (s.cluster s.cl).walker.length < 8)
    (hb : s.xlate ((s.cap c).base + uns s d) .write = .ok barrier)
    (hl : s.physLines (rangeLines ((s.cap c).base + uns s a) (uns s b)) = .ok lines) (inv : Bool) :
    s.rangeOp d a b c inv = .ok (if uns s b = 0 then s.fill s.cl barrier 0 (s.pasidOf s.cur.launch) else s.modCluster s.cl fun w =>
      { w with walker := w.walker ++ [⟨inv, lines, barrier, s.cur.launch.getD 0, s.cc⟩] }) := by
  obtain ⟨hrange, hbarrier⟩ := h.checks
  have halign : (((s.cap c).base + (s.src d).toNat) % 8 == 0) = true := beq_iff_eq.2 h.aligned
  have hwalker : ¬ (((s.src b).toNat != 0) = true ∧ (s.cluster s.cl).walker.length ≥ 8) := fun hfull => by omega
  have hb' : s.xlate ((s.cap c).base + (s.src d).toNat) .write = .ok barrier := hb
  have hl' : s.physLines (rangeLines ((s.cap c).base + (s.src a).toNat) (s.src b).toNat) = .ok lines := hl
  by_cases hlen : uns s b = 0
  · have hlen' : (s.src b).toNat = 0 := hlen
    simp only [State.rangeOp, need_of_true hrange, need_of_true hbarrier, need_of_true halign, ok_bind, if_neg hwalker, hb', hl',
      release_quiet hs, if_pos hlen, if_pos hlen']
  · have hlen' : ¬ (s.src b).toNat = 0 := hlen
    simp only [State.rangeOp, need_of_true hrange, need_of_true hbarrier, need_of_true halign, ok_bind, if_neg hwalker, hb', hl',
      release_quiet hs, if_neg hlen, if_neg hlen']

end

/-! ## The walker's range (R115) -/

/-- A change of a core that drops cached lines alone, but for its slots. -/
structure Core.Trims (c d : Core) : Prop where
  lm : d.lm = c.lm
  waiters : d.waiters = c.waiters
  l1 : ∀ x, x ∈ d.l1 → x ∈ c.l1
  icache : ∀ x, x ∈ d.icache → x ∈ c.icache

theorem Core.Trims.refl (c : Core) : Core.Trims c c := ⟨rfl, rfl, fun _ h => h, fun _ h => h⟩

theorem Core.Trims.trans {b c d : Core} (h : Core.Trims b c) (h' : Core.Trims c d) : Core.Trims b d :=
  ⟨h'.lm.trans h.lm, h'.waiters.trans h.waiters, fun x hx => h.l1 x (h'.l1 x hx), fun x hx => h.icache x (h'.icache x hx)⟩

/-- A change of caches and of the memory's hierarchy that drops lines alone, but for slots. -/
structure Trims (s t : State) : Prop where
  mem : t.mem = s.mem
  memEmpty : t.memEmpty = s.memEmpty
  waiters : t.waiters = s.waiters
  clusters : t.clusters = s.clusters
  core : ∀ n, Core.Trims (s.core n) (t.core n)

theorem Trims.of_cores {s t : State} (hm : t.mem = s.mem) (he : t.memEmpty = s.memEmpty) (hw : t.waiters = s.waiters)
    (hcl : t.clusters = s.clusters) (hc : t.cores = s.cores) : Trims s t :=
  ⟨hm, he, hw, hcl, fun n => State.core_of_cores hc n ▸ .refl _⟩

theorem Trims.refl (s : State) : Trims s s := .of_cores rfl rfl rfl rfl rfl

theorem Trims.trans {r s t : State} (h : Trims r s) (h' : Trims s t) : Trims r t :=
  ⟨h'.mem.trans h.mem, h'.memEmpty.trans h.memEmpty, h'.waiters.trans h.waiters, h'.clusters.trans h.clusters,
    fun n => (h.core n).trans (h'.core n)⟩

theorem Trims.noWaiters {s t : State} (h : Trims s t) (hw : NoWaiters s) : NoWaiters t :=
  ⟨h.waiters.trans hw.1, fun n => (h.core n).waiters.trans (hw.2 n)⟩

theorem Trims.sameMemory {s t : State} (h : Trims s t) : SameMemory s t := sameMemory_of_mem_lm h.mem fun n => (h.core n).lm

theorem foldl_trims {α : Type} (f : State → α → State) (h : ∀ s x, Trims s (f s x)) (xs : List α) (s : State) : Trims s (xs.foldl f s) :=
  foldl_frame Trims.refl Trims.trans f h xs s

theorem trims_modCore (s : State) (n : Nat) {f : Core → Core} (h : ∀ c, Core.Trims c (f c)) : Trims s (s.modCore n f) := by
  refine ⟨rfl, rfl, rfl, rfl, fun m => ?_⟩
  by_cases hn : n = m
  · subst hn
    rw [State.core_modCore_same]
    exact h _
  · rw [State.core_modCore_other _ _ hn]
    exact .refl _

/-! The steps of a walk. -/

theorem trims_withHier (s : State) (pa : Nat) (h : Hier) (bad : Bool) (pasid : Option (BitVec 20)) : Trims s (s.withHier pa h bad pasid) :=
  .of_cores rfl rfl rfl rfl rfl

theorem trims_recallLine (s : State) (line : Nat) : Trims s (s.recallLine line) := trims_withHier ..

theorem trims_cleanLine (s : State) (line : Nat) : Trims s (s.cleanLine line) := by
  unfold State.cleanLine
  split
  · split
    · exact trims_withHier ..
    · exact .refl s
  · exact .refl s

theorem trims_wakeWalker (s : State) (cl : Nat) : Trims s (s.wakeWalker cl) :=
  foldl_trims _ (fun s ck => by
    split
    · exact trims_modCore s ck.1 (f := fun c => c.setSlot ck.2 _) fun c => ⟨rfl, rfl, fun _ h => h, fun _ h => h⟩
    · exact .refl s) (clusterSlots cl) s

/-- The lines of a range taken out of an L1. -/
def Core.dropL1 (lines : List Nat) (c : Core) : Core := { c with l1 := c.l1.filter fun l => !lines.contains l.1 }

/-- The lines of a range taken out of an instruction cache. -/
def Core.dropCode (lines : List Nat) (c : Core) : Core := { c with icache := c.icache.filter fun l => !lines.contains l.1 }

theorem not_mem_of_mem_dropped {lines : List Nat} {m : Sparse CacheLine} {x : Nat × CacheLine}
    (h : x ∈ m.filter fun l => !lines.contains l.1) : x.1 ∉ lines := by simpa using (List.mem_filter.1 h).2

/-- A range's lines leave the L1s of a cluster. -/
def State.dropL1s (s : State) (cl : Nat) (lines : List Nat) : State :=
  (List.range 8).foldl (fun s i => s.modCore (8 * cl + i) (Core.dropL1 lines)) s

/-- A range's lines leave every instruction cache. -/
def State.dropCodes (s : State) (lines : List Nat) : State :=
  { s with cores := s.cores.map fun kc => (kc.1, Core.dropCode lines kc.2) }

theorem trims_dropL1s (s : State) (cl : Nat) (lines : List Nat) : Trims s (s.dropL1s cl lines) :=
  foldl_trims _ (fun s i => trims_modCore s (8 * cl + i) (f := Core.dropL1 lines) fun _ =>
    ⟨rfl, rfl, fun _ => List.mem_of_mem_filter, fun _ h => h⟩) _ s

theorem core_dropL1s (s : State) (cl : Nat) (lines : List Nat) {i : Nat} (hi : i < 8) :
    (s.dropL1s cl lines).core (8 * cl + i) = Core.dropL1 lines (s.core (8 * cl + i)) := by
  have hfold : s.dropL1s cl lines = ((List.range 8).map (8 * cl + ·)).foldl (fun s n => s.modCore n (Core.dropL1 lines)) s :=
    (List.foldl_map (f := (8 * cl + ·)) (g := fun (s : State) n => s.modCore n (Core.dropL1 lines)) (l := List.range 8) (init := s)).symm
  have hnodup : ((List.range 8).map (8 * cl + ·)).Nodup := List.nodup_range.map fun _ _ h => Nat.add_left_cancel h
  rw [hfold, foldl_modCore _ _ hnodup, if_pos (List.mem_map.2 ⟨i, List.mem_range.2 hi, rfl⟩)]

theorem core_dropCodes (s : State) (lines : List Nat) (n : Nat) : (s.dropCodes lines).core n = Core.dropCode lines (s.core n) :=
  Sparse.get_map Core.reset (fun _ => Core.dropCode lines) s.cores n rfl

theorem trims_dropCodes (s : State) (lines : List Nat) : Trims s (s.dropCodes lines) :=
  ⟨rfl, rfl, rfl, rfl, fun n => core_dropCodes s lines n ▸ ⟨rfl, rfl, fun _ h => h, fun _ => List.mem_of_mem_filter⟩⟩

/-- What a walk does before it fills the barrier word. -/
def State.walkedRange (s : State) (cl : Nat) (r : WalkRange) : State :=
  let t := s.dropL1s cl r.lines
  let t := if r.inv then t.dropCodes r.lines else t
  let t := r.lines.foldl State.recallLine t
  if r.inv then t else r.lines.foldl State.cleanLine t

theorem exec_cacheWalk {s : State} {cl : Nat} {r : WalkRange} {rest : List WalkRange} (h : (s.cluster cl).walker = r :: rest) :
    ∃ pasid : Option (BitVec 20), exec (.cacheWalk cl) s = .next
      ((((s.modCluster cl fun c => { c with walker := rest }).walkedRange cl r).fill cl r.barrier 0 pasid).wakeWalker cl) := by
  refine ⟨((s.modCluster cl fun c => { c with walker := rest }).walkedRange cl r).pasidOf (some r.launch), congrArg Host.Outcome.next ?_⟩
  rw [h]
  rfl

/-- The caches of a walked range hold none of its lines. -/
theorem walkedRange_trims (s : State) (cl : Nat) (r : WalkRange) : Trims s (s.walkedRange cl r) ∧
    (∀ i x, i < 8 → x ∈ ((s.walkedRange cl r).core (8 * cl + i)).l1 → x.1 ∉ r.lines) ∧
    (r.inv = true → ∀ n x, x ∈ ((s.walkedRange cl r).core n).icache → x.1 ∉ r.lines) := by
  have hl1 := trims_dropL1s s cl r.lines
  have hcode : Trims (s.dropL1s cl r.lines) (if r.inv then (s.dropL1s cl r.lines).dropCodes r.lines else s.dropL1s cl r.lines) := by
    split
    · exact trims_dropCodes ..
    · exact .refl _
  have hhome : Trims (if r.inv then (s.dropL1s cl r.lines).dropCodes r.lines else s.dropL1s cl r.lines) (s.walkedRange cl r) := by
    refine (foldl_trims _ trims_recallLine r.lines _).trans ?_
    unfold State.walkedRange
    split
    · exact .refl _
    · exact foldl_trims _ trims_cleanLine r.lines _
  refine ⟨(hl1.trans hcode).trans hhome, fun i x hi hx => ?_, fun hinv n x hx => ?_⟩
  · have hdropped := ((hcode.trans hhome).core _).l1 x hx
    rw [core_dropL1s s cl r.lines hi] at hdropped
    exact not_mem_of_mem_dropped hdropped
  · have hdropped := (hhome.core n).icache x hx
    rw [if_pos hinv, core_dropCodes] at hdropped
    exact not_mem_of_mem_dropped hdropped

/-- A word of device memory filled where nobody waits. -/
theorem fill_mem {s : State} (hw : NoWaiters s) (cl pa : Nat) (tr : Bool) (cls key : Nat) (v : Word) (pasid : Option (BitVec 20)) :
    ∃ h p q, s.fill cl (.mem pa tr cls key) v pasid = { s with
      hier := h, memPoison := p, ports := q, mem := s.mem.wrBytes pa (bytesOfNat 8 v.toNat), memEmpty := setErase s.memEmpty (pa / 8) } := by
  obtain ⟨h, p, q, e⟩ := touch_frame s (.mem pa tr cls key) true cl (bytesOfNat 8 v.toNat) pasid true
  rw [State.fill, e, serve_quiet]
  · exact ⟨_, _, _, rfl⟩
  · exact hw

/-- CACHE_WALK ends the oldest range of a cluster's walker (R115). -/
theorem walk_ends {s : State} (hw : NoWaiters s) {cl pa cls key : Nat} {tr : Bool} {r : WalkRange} {rest : List WalkRange}
    (h : (s.cluster cl).walker = r :: rest) (hb : r.barrier = .mem pa tr cls key) :
    ∃ t, exec (.cacheWalk cl) s = .next t ∧ (t.cluster cl).walker = rest ∧ t.full r.barrier = true ∧
      t.mem.rdBytes pa 8 = bytesOfNat 8 0 ∧ SameOutside s t r.barrier 8 ∧
      (∀ i x, i < 8 → x ∈ (t.core (8 * cl + i)).l1 → x.1 ∉ r.lines) ∧
      (r.inv = true → ∀ n x, x ∈ (t.core n).icache → x.1 ∉ r.lines) := by
  obtain ⟨pasid, hexec⟩ := exec_cacheWalk h
  obtain ⟨htrims, hl1, hcode⟩ := walkedRange_trims (s.modCluster cl fun c => { c with walker := rest }) cl r
  set u := (s.modCluster cl fun c => { c with walker := rest }).walkedRange cl r with hu
  have hwake := trims_wakeWalker (u.fill cl r.barrier 0 pasid) cl
  obtain ⟨_, _, _, hfill⟩ := fill_mem (s := u) (htrims.noWaiters hw) cl pa tr cls key 0 pasid
  rw [hb, hfill] at hwake
  rw [hb, hfill] at hexec
  refine ⟨_, hexec, ?_, ?_, ?_, ?_, fun i x hi hx => hl1 i x hi ((hwake.core _).l1 x hx), fun hinv n x hx => hcode hinv n x ((hwake.core n).icache x hx)⟩
  · rw [State.cluster, hwake.clusters, htrims.clusters]
    exact congrArg Cluster.walker (cluster_modCluster s cl _)
  · rw [hb, State.full, hwake.memEmpty]
    simp [mem_setErase]
  · rw [hwake.mem]
    exact Memory.rdBytes_wrBytes (bytesOfNat 8 0) u.mem pa
  · have hbefore : SameMemory s u := htrims.sameMemory
    have hafter := hwake.sameMemory
    have hout : SameOutside u (u.wrLoc (.mem pa tr cls key) (bytesOfNat 8 0) false) (.mem pa tr cls key) 8 := sameOutside_wrLoc u _ _ false
    rw [hb]
    exact sameOutside_trans (sameOutside_of_sameMemory hbefore _ _) (sameOutside_trans hout (sameOutside_of_sameMemory hafter _ _))

end Sys2Proof.Machine

namespace Sys2Proof.Proofs

open Sys2Proof Sys2Proof.Machine

/-- Settles O32: FENCE is `State.release` and `State.fenced`; a range whose checks hold is the walker's, whose walk only drops cached
lines before it fills the barrier word. -/
theorem fencesAndRanges : Obligations.FencesAndRanges := by
  unfold Obligations.FencesAndRanges
  refine ⟨fun s g f hg => ⟨fun hd => exec_stops rfl hg (fence_stops (release_drains hd) f),
      fun hd hp => exec_stops rfl hg (fence_stops (release_pathOut hd hp) f), fun t ht => ⟨fun hf hstgs => exec_stops rfl hg (fence_waits ht hf hstgs),
        fun hf => ?_⟩, fun u hd hp hr => release_drained hd hp hr, fun hs hstgs => ?_⟩, ⟨?_, fun s cl pa r rest tr cls key hw h hb => walk_ends hw h hb⟩⟩
  · exact (exec_served rfl hg (fence_ok ht hf)).trans rfl
  · have hfence := fence_ok (f := f) (release_quiet hs) fun _ => hstgs
    rw [fenced_quiet hs.2.1] at hfence
    exact exec_served rfl hg hfence
  · intro s d a b c g barrier lines hg hs k off len o hr hw hq hgen hlimit hend hstart hlines hblimit hbend hbdev halign hroom hbarrier hphys
    have hok : s.RangeOk d a b c := ⟨hr, hw, hq, hgen, ⟨hlimit, hend⟩, hstart, hlines, ⟨hblimit, hbend⟩, hbdev, halign⟩
    have hrange := rangeOp_ok hok hs hroom hbarrier hphys
    refine ⟨fun hlen => ?_, fun hlen inv => ?_⟩
    · simp only [if_pos (show uns s b = 0 from hlen)] at hrange
      exact ⟨exec_served rfl hg (hrange false), exec_served rfl hg (hrange true)⟩
    · simp only [if_neg (show uns s b ≠ 0 from hlen)] at hrange
      cases inv
      · exact exec_served rfl hg (hrange false)
      · exact exec_served rfl hg (hrange true)

end Sys2Proof.Proofs
end


section
/-!
Every step keeps the memories of the package canonical (R94, R97, R122, R123). MemWf looks at device memory and at the local memory of each
core alone, and these change only where bytes are written (`Memory.wrBytes`) or addresses are left out (a filter). Here: the predicate
on parts of a state, results that hold a state, folds; then, file by file, that what the machine does keeps it.
-/
namespace Sys2Proof.Machine

open Sys2Proof

/-! ## The predicate on the parts of a state -/

/-- A memory and the local memories of a table of cores are in canonical form. -/
def MemAt (m : Memory) (cs : Sparse Core) : Bool := Memory.wf m && cs.all fun (kc : Nat × Core) => Memory.wf kc.2.lm

@[simp] theorem memAt_fields (s : State) : MemAt s.mem s.cores = MemWf s := rfl

/-- Of a state written out, MemWf looks at memory and cores; the other fields are whatever they are. -/
@[simp] theorem memWf_mk {a0 a1 a2 a3 a4 a5 a6 a7 a8 cs a9 m a10 a11 a12 a13 a14 a15 a16 a17 a18 a19 a20 a21 a22 a23 a24 a25 a26 a27 a28
    a29 a30 a31 a32 a33 a34 a35 a36 a37 a38 a39 a40 a41 a42 a43 a44 a45 a46 a47 a48 a49 a50 a51 a52 a53} :
    MemWf (State.mk a0 a1 a2 a3 a4 a5 a6 a7 a8 cs a9 m a10 a11 a12 a13 a14 a15 a16 a17 a18 a19 a20 a21 a22 a23 a24 a25 a26 a27 a28 a29 a30
      a31 a32 a33 a34 a35 a36 a37 a38 a39 a40 a41 a42 a43 a44 a45 a46 a47 a48 a49 a50 a51 a52 a53) = MemAt m cs := rfl

/-- A state changed in other fields than its memory and its cores. -/
theorem memWf_upd {s : State} (h : MemWf s = true) {a0 a1 a2 a3 a4 a5 a6 a7 a8 a9 a10 a11 a12 a13 a14 a15 a16 a17 a18 a19 a20 a21 a22 a23
    a24 a25 a26 a27 a28 a29 a30 a31 a32 a33 a34 a35 a36 a37 a38 a39 a40 a41 a42 a43 a44 a45 a46 a47 a48 a49 a50 a51 a52 a53} :
    MemWf (State.mk a0 a1 a2 a3 a4 a5 a6 a7 a8 s.cores a9 s.mem a10 a11 a12 a13 a14 a15 a16 a17 a18 a19 a20 a21 a22 a23 a24 a25 a26 a27 a28
      a29 a30 a31 a32 a33 a34 a35 a36 a37 a38 a39 a40 a41 a42 a43 a44 a45 a46 a47 a48 a49 a50 a51 a52 a53) = true := h

theorem memAt_iff (m : Memory) (cs : Sparse Core) : MemAt m cs = true ↔ Memory.wf m = true ∧ ∀ kc ∈ cs, Memory.wf kc.2.lm = true := by
  simp [MemAt, List.all_eq_true]

/-- Cores changed one by one, their local memories left alone. -/
@[simp] theorem memAt_map {m : Memory} {cs : Sparse Core} {f : Nat × Core → Core} (h : MemAt m cs = true)
    (hf : ∀ kc : Nat × Core, (f kc).lm = kc.2.lm) : MemAt m (cs.map fun kc => (kc.1, f kc)) = true := by
  rw [memAt_iff] at h ⊢
  refine ⟨h.1, fun kc hkc => ?_⟩
  obtain ⟨old, hold, rfl⟩ := List.mem_map.1 hkc
  rw [hf]
  exact h.2 old hold

@[simp] theorem wf_core_lm {s : State} (h : MemWf s = true) (n : Nat) : Memory.wf (s.core n).lm = true := memWf_lm h n

@[simp] theorem wf_here_lm {s : State} (h : MemWf s = true) : Memory.wf s.here.lm = true := memWf_lm h _

@[simp] theorem wf_mem {s : State} (h : MemWf s = true) : Memory.wf s.mem = true := memWf_mem h

@[simp] theorem wf_written {m : Memory} (h : Memory.wf m = true) (a : Nat) (bs : List Byte) : Memory.wf (m.wrBytes a bs) = true :=
  Memory.wf_wrBytes bs a h

theorem wf_lm_eq {c d : Core} (e : d.lm = c.lm) (h : Memory.wf c.lm = true) : Memory.wf d.lm = true := by
  rw [e]
  exact h

/-- A core changed keeps the memories canonical if its local memory still is. -/
@[simp] theorem memWf_modCore_at {s : State} (n : Nat) {f : Core → Core} (h : MemWf s = true) (hf : Memory.wf (f (s.core n)).lm = true) :
    MemWf (s.modCore n f) = true := memWf_setCore n h hf

@[simp] theorem memWf_setCore_at {s : State} (n : Nat) {c : Core} (h : MemWf s = true) (hc : Memory.wf c.lm = true) :
    MemWf (s.setCore n c) = true := memWf_setCore n h hc

@[simp] theorem memWf_ite {s t : State} (c : Prop) [Decidable c] : MemWf (if c then s else t) = if c then MemWf s else MemWf t :=
  apply_ite MemWf c s t

/-! ## Results that hold a state -/

/-- A result that did not stop meets a test. -/
def okAll {α : Type} (p : α → Bool) : Except Stop α → Bool
  | .ok a => p a
  | .error _ => true

@[simp] theorem okAll_ok {α : Type} (p : α → Bool) (a : α) : okAll p (.ok a) = p a := rfl

@[simp] theorem okAll_error {α : Type} (p : α → Bool) (e : Stop) : okAll p (.error e) = true := rfl

@[simp] theorem okAll_pure {α : Type} (p : α → Bool) (a : α) : okAll p (pure a) = p a := rfl

theorem okAll_bind {α β : Type} {p : α → Bool} {q : β → Bool} {x : Except Stop α} {f : α → Except Stop β} (hx : okAll p x = true)
    (hf : ∀ a, p a = true → okAll q (f a) = true) :
    okAll q (x >>= f) = true := by
  cases x with
  | ok a => exact hf a hx
  | error e => rfl

theorem okAll_bind_state {β : Type} {q : β → Bool} {x : Except Stop State} {f : State → Except Stop β} (hx : okAll MemWf x = true)
    (hf : ∀ t, MemWf t = true → okAll q (f t) = true) : okAll q (x >>= f) = true := okAll_bind hx hf

theorem okAll_bind_pair {α β : Type} {q : β → Bool} {x : Except Stop (State × α)} {f : State × α → Except Stop β}
    (hx : okAll (MemWf ·.1) x = true) (hf : ∀ r, MemWf r.1 = true → okAll q (f r) = true) : okAll q (x >>= f) = true := okAll_bind hx hf

/-- A check, or a result of which nothing is to be known, goes before. -/
theorem okAll_bind_any {α β : Type} {q : β → Bool} {x : Except Stop α} {f : α → Except Stop β} (hf : ∀ a, okAll q (f a) = true) :
    okAll q (x >>= f) = true := by
  cases x with
  | ok a => exact hf a
  | error e => rfl

theorem okAll_ite {α : Type} (p : α → Bool) (c : Prop) [Decidable c] (x y : Except Stop α) :
    okAll p (if c then x else y) = if c then okAll p x else okAll p y := apply_ite (okAll p) c x y

theorem okAll_of_eq {α : Type} {p : α → Bool} {x : Except Stop α} {a : α} (h : okAll p x = true) (e : x = .ok a) : p a = true := by
  rw [e] at h
  exact h

theorem all_of_some {α : Type} {p : α → Bool} {x : Option α} {a : α} (h : x.all p = true) (e : x = some a) : p a = true := by
  rw [e] at h
  exact h

theorem memWf_of_some {x : Option State} {t : State} (h : x.all MemWf = true) (e : x = some t) : MemWf t = true := all_of_some h e

theorem memWf_of_ok {x : Except Stop State} {t : State} (h : okAll MemWf x = true) (e : x = .ok t) : MemWf t = true := okAll_of_eq h e

theorem memWf_getD {x : Option State} {s : State} (hx : x.all MemWf = true) (h : MemWf s = true) : MemWf (x.getD s) = true := by
  cases x with
  | none => exact h
  | some t => exact hx

theorem all_map_state {α : Type} {q : α → Bool} {x : Option State} {f : State → α} (hx : x.all MemWf = true)
    (hf : ∀ t, MemWf t = true → q (f t) = true) :
    (x.map f).all q = true := by
  cases x with
  | none => rfl
  | some t => exact hf t hx

theorem all_map_core {α : Type} {q : α → Bool} {x : Option Core} {f : Core → α} (hx : x.all (Memory.wf ·.lm) = true)
    (hf : ∀ c : Core, Memory.wf c.lm = true → q (f c) = true) :
    (x.map f).all q = true := by
  cases x with
  | none => rfl
  | some c => exact hf c hx

theorem memWf_of_eq_fst {α : Type} {p : State × α} {t : State} {a : α} (h : MemWf p.1 = true) (e : p = (t, a)) : MemWf t = true := by
  rw [e] at h
  exact h

theorem memWf_of_some_fst {α : Type} {x : Option (State × α)} {t : State} {a : α} (h : x.all (MemWf ·.1) = true) (e : x = some (t, a)) :
    MemWf t = true := by
  rw [e] at h
  exact h

theorem memWf_of_ok_fst {α : Type} {x : Except Stop (State × α)} {t : State} {a : α} (h : okAll (MemWf ·.1) x = true) (e : x = .ok (t, a)) :
    MemWf t = true := by
  rw [e] at h
  exact h

/-- The next state of an outcome, if it has one, has its memories in canonical form. -/
def nextAll (r : Out) : Bool :=
  match r with
  | .next t => MemWf t
  | _ => true

@[simp] theorem nextAll_next (t : State) : nextAll (.next t) = MemWf t := rfl

theorem memWf_of_next {r : Out} {t : State} (h : nextAll r = true) (e : r = .next t) : MemWf t = true := by
  rw [e] at h
  exact h

/-- A fold whose steps keep the memories canonical. -/
theorem memWf_foldl {α : Type} {f : State → α → State} (hf : ∀ s x, MemWf s = true → MemWf (f s x) = true) {s : State} (h : MemWf s = true)
    (xs : List α) : MemWf (xs.foldl f s) = true := by
  induction xs generalizing s with
  | nil => exact h
  | cons x xs ih => exact ih (hf s x h)

theorem okAll_foldlM {α : Type} {f : State → α → Except Stop State} (hf : ∀ s x, MemWf s = true → okAll MemWf (f s x) = true) {s : State}
    (h : MemWf s = true) (xs : List α) :
    okAll MemWf (xs.foldlM f s) = true := by
  induction xs generalizing s with
  | nil => exact h
  | cons x xs ih => exact okAll_bind (hf s x h) fun _ ht => ih ht

/-- A fold over states with a value beside them. -/
theorem memWf_foldl_fst {α β : Type} {f : State × α → β → State × α} (hf : ∀ r x, MemWf r.1 = true → MemWf (f r x).1 = true)
    {r : State × α} (h : MemWf r.1 = true) (xs : List β) : MemWf (xs.foldl f r).1 = true := by
  induction xs generalizing r with
  | nil => exact h
  | cons x xs ih => exact ih (hf r x h)

end Sys2Proof.Machine
end

section
/-! The local memory of a core, as its instructions and its sequencer change the core. -/
namespace Sys2Proof.Machine

open Sys2Proof

/-! ## Changes that leave a local memory alone -/

theorem Drained.lm {c d : Core} (h : Drained c d) : d.lm = c.lm := by
  obtain ⟨path, l1, slots, rfl⟩ := h.rest
  rfl

@[simp] theorem lm_setSlot (c : Core) (k : Nat) (x : Slot) : (c.setSlot k x).lm = c.lm := rfl

@[simp] theorem lm_enter (c : Core) (p : PathStore) : (c.enter p).lm = c.lm := (enter_drained c p).lm

@[simp] theorem lm_refreshL1 (c : Core) (l : Loc) (bs : List Byte) (poison : Bool) : (c.refreshL1 l bs poison).lm = c.lm := by
  unfold Core.refreshL1
  split <;> rfl

@[simp] theorem lm_drainRows (c : Core) (k : Nat) : (c.drainRows k).lm = c.lm := (drainRows_drained c k).lm

@[simp] theorem lm_drainAll (c : Core) : c.drainAll.lm = c.lm := (drainAll_drained c).lm

@[simp] theorem lm_setVreg (c : Core) (k r : Nat) (lanes : List Half) : (c.setVreg k r lanes).lm = c.lm := by
  have hgo (gs : List (Nat × Nat)) : ∀ (c : Core) lanes, (Core.setVreg.go r c gs lanes).lm = c.lm := by
    induction gs with
    | nil => exact fun _ _ => rfl
    | cons g gs ih => exact fun _ _ => ih _ _
  exact hgo _ c lanes

@[simp] theorem lm_popHeads (c : Core) (k : Nat) (o : VOp) (useB : Bool) : (c.popHeads k o useB).lm = c.lm := by
  unfold Core.popHeads
  split <;> rfl

@[simp] theorem lm_keepRow (c : Core) (k : Nat) (o : VOp) (row : List Half) : (c.keepRow k o row).lm = c.lm := by
  unfold Core.keepRow
  repeat' split
  · rfl
  · exact lm_setVreg ..
  · rfl

@[simp] theorem lm_putRow (c : Core) (k : Nat) (o : VOp) (row : List Half) : (c.putRow k o row).lm = c.lm := by
  unfold Core.putRow
  split <;> simp

@[simp] theorem lm_putEntries (c : Core) (k r : Nat) (es : List Entry) : (c.putEntries k r es).lm = c.lm := by simp [Core.putEntries]

@[simp] theorem lm_setRing (c : Core) (n : Nat) (r : BitVec 128) : (c.setRing n r).lm = c.lm := rfl

@[simp] theorem lm_setAcc (c : Core) (t : Nat) (vs : List Half) : (c.setAcc t vs).lm = c.lm := rfl

@[simp] theorem lm_pushRows (rows : List (List Half)) (c : Core) (k q : Nat) : (c.pushRows k q rows).lm = c.lm := by
  induction rows generalizing c with
  | nil => rfl
  | cons row rest ih =>
    unfold Core.pushRows
    split
    · simp [ih]
    · rfl

@[simp] theorem lm_setZone (c : Core) (z : Nat) (v : Option Zone) : (c.setZone z v).lm = c.lm := rfl

@[simp] theorem lm_setLz (c : Core) (z k : Nat) (x : LzSlot) : (c.setLz z k x).lm = c.lm := by
  unfold Core.setLz
  split <;> rfl

@[simp] theorem lm_forgetPeer (c : Core) (link : Nat) : (c.forgetPeer link).lm = c.lm := rfl

@[simp] theorem lm_applyAlmanac (c : Core) : c.applyAlmanac.lm = c.lm := rfl

@[simp] theorem lm_countTimers (c : Core) : c.countTimers.lm = c.lm := rfl

theorem lm_foldl {α : Type} {f : Core → α → Core} (hf : ∀ c x, (f c x).lm = c.lm) (xs : List α) (c : Core) : (xs.foldl f c).lm = c.lm := by
  induction xs generalizing c with
  | nil => rfl
  | cons x xs ih => exact (ih _).trans (hf c x)

@[simp] theorem lm_startGangs (c : Core) : c.startGangs.lm = c.lm :=
  lm_foldl (fun c i => by split <;> rfl) _ c

/-! ## Changes that keep it canonical -/

section
variable {c : Core} (h : Memory.wf c.lm = true)
include h

theorem wf_clearPart (base n : Nat) : Memory.wf (c.clearPart base n).lm = true := Memory.wf_filter _ h

@[simp] theorem wf_scalarDone (k : Nat) (d : Reg) (v : Word) : Memory.wf (c.scalarDone k d v).lm = true := by
  unfold Core.scalarDone
  dsimp only
  split
  · exact Memory.wf_wrBytes _ _ h
  · exact h

end

/-- The core that a turn of a sequencer entry leaves has its local memory in canonical form. -/
def SeqResult.wf : SeqResult → Bool
  | .wait => true
  | .more c _ => Memory.wf c.lm
  | .done c => Memory.wf c.lm

@[simp] theorem SeqResult.wf_wait : SeqResult.wait.wf = true := rfl

@[simp] theorem SeqResult.wf_more (c : Core) (e : SeqEntry) : (SeqResult.more c e).wf = Memory.wf c.lm := rfl

@[simp] theorem SeqResult.wf_done (c : Core) : (SeqResult.done c).wf = Memory.wf c.lm := rfl

section
variable {c : Core} (h : Memory.wf c.lm = true)
include h

theorem wf_lanewise (k : Nat) (o : VOp) (useB : Bool) (f : Half → Half → Half → Nat → Half) : (c.lanewise k o useB f).wf = true := by
  unfold Core.lanewise
  split
  · split <;> simp [h]
  · rfl

theorem wf_generate (k : Nat) (o : VOp) (f : Nat → Half) : (c.generate k o f).wf = true := by
  unfold Core.generate
  split <;> simp [h]

theorem wf_vksel (k : Nat) (small : Bool) (o : VOp) (e : SeqEntry) : (c.vksel k small o e).wf = true := by
  unfold Core.vksel
  dsimp only
  repeat' split
  all_goals simp [h]

theorem wf_runEntry (k : Nat) (e : SeqEntry) : (c.runEntry k e).wf = true := by
  unfold Core.runEntry
  repeat' split
  all_goals simp [h, wf_lanewise, wf_generate, wf_vksel]

theorem wf_stepEntry (k : Nat) : (c.stepEntry k).all (Memory.wf ·.lm) = true := by
  unfold Core.stepEntry
  split
  · rfl
  · next e _ =>
    have hrun := wf_runEntry h k e
    split
    · rfl
    · split <;> simp_all

theorem wf_sfuNow (k : Nat) (e : SeqEntry) : (c.sfuNow k e).all (Memory.wf ·.lm) = true := by
  unfold Core.sfuNow
  cases c.sfuLanes k e with
  | none => rfl
  | some ox => simp [h]

omit h in
theorem wf_runSeq (k n : Nat) {c : Core} (h : Memory.wf c.lm = true) : Memory.wf (c.runSeq k n).lm = true := by
  induction n generalizing c with
  | zero => exact h
  | succ n ih =>
    unfold Core.runSeq
    split
    · exact h
    · next e _ =>
      split
      · exact h
      · have hnext : Option.all (fun d : Core => Memory.wf d.lm)
            (match e.op with | .vsfu _ => c.sfuNow k e | _ => c.stepEntry k) = true := by
          split
          · exact wf_sfuNow h k e
          · exact wf_stepEntry h k
        dsimp only
        split
        · exact h
        · next d hd => exact ih (all_of_some (p := fun d : Core => Memory.wf d.lm) hnext hd)

end

end Sys2Proof.Machine
end

section
/-! Caches, stores posted to other packages, links, translation, fault records and the groups of strands (R103, R110, R116, R133): what
these change of a state leaves its memories canonical. -/
namespace Sys2Proof.Machine

open Sys2Proof

section
variable {s : State} (h : MemWf s = true)
include h

@[simp] theorem memWf_modHere {f : Core → Core} (hf : Memory.wf (f s.here).lm = true) : MemWf (s.modHere f) = true :=
  memWf_modCore_at _ h hf

@[simp] theorem memWf_modSeat (id core : Nat) (f : Seat → Seat) : MemWf (s.modSeat id core f) = true := by
  simp [State.modSeat, h]

@[simp] theorem memWf_fresh : MemWf s.fresh.2 = true := by
  simp [State.fresh, h]

@[simp] theorem memWf_countStgs (o : StgOwner) : MemWf (s.countStgs o) = true := by
  unfold State.countStgs
  split <;> simp [h]

@[simp] theorem memWf_moveStgs (a b : StgOwner) : MemWf (s.moveStgs a b) = true := by
  have hmap := memAt_map (f := fun kc : Nat × Core => { kc.2 with path := kc.2.path.map (PathStore.move kc.1 a b) }) h fun _ => rfl
  simp [State.moveStgs, hmap]

@[simp] theorem memWf_withHier (pa : Nat) (h' : Hier) (bad : Bool) (pasid : Option (BitVec 20)) :
    MemWf (s.withHier pa h' bad pasid) = true := by
  simp [State.withHier, h]

@[simp] theorem memWf_touchLine (e : Env) (a : Attr) (pa : Nat) (write inval : Bool) (cluster : Nat) (pasid : Option (BitVec 20)) :
    MemWf (s.touchLine e a pa write inval cluster pasid) = true := by
  simp [State.touchLine, h]

@[simp] theorem memWf_touchLines (l : Loc) (n : Nat) (write : Bool) (cluster : Nat) (bs : List Byte) (pasid : Option (BitVec 20))
    (inval : Bool) :
    MemWf (s.touchLines l n write cluster bs pasid inval) = true := by
  obtain ⟨_, _, _, e⟩ := touchLines_frame s l n write cluster bs pasid inval
  simp [e, h]

@[simp] theorem memWf_unitWrite (pa : Nat) (bs : List Byte) : MemWf (s.unitWrite pa bs) = true := by
  simp [State.unitWrite, h]

@[simp] theorem memWf_countMiss (launch : Option Nat) (bytes : Nat) : MemWf (s.countMiss launch bytes) = true := by
  unfold State.countMiss
  split <;> simp [h]

@[simp] theorem memWf_l2Line (core : Nat) (launch : Option Nat) (e : Env) (pa n : Nat) (a : Attr) (write : Bool) (pasid : Option
    (BitVec 20)) :
    MemWf (s.l2Line core launch e pa n a write pasid) = true := by
  simp [State.l2Line, h]

@[simp] theorem memWf_l2Access (core : Nat) (launch : Option Nat) (l : Loc) (n : Nat) (write : Bool) (bs : List Byte) (pasid : Option
    (BitVec 20)) :
    MemWf (s.l2Access core launch l n write bs pasid) = true := by
  obtain ⟨_, _, _, _, e⟩ := l2Access_frame s core launch l n write bs pasid
  simp [e, h]

@[simp] theorem memWf_evict (line : Nat) : MemWf (s.evict line) = true := by
  simp [State.evict, h]

@[simp] theorem memWf_renegotiate (core slot : Nat) : MemWf (s.renegotiate core slot) = true := by
  simp [State.renegotiate, h]

@[simp] theorem memWf_modLink (k : Nat) (f : Link → Link) : MemWf (s.modLink k f) = true := by
  simp [State.modLink, h]

@[simp] theorem memWf_sendLink (link : Nat) (m : LinkMsg) : MemWf (s.sendLink link m) = true := by
  simp [State.sendLink, h]

@[simp] theorem memWf_sendTo (dev : Nat) (m : LinkMsg) : MemWf (s.sendTo dev m) = true := by
  unfold State.sendTo
  split <;> simp [h]

@[simp] theorem memWf_tell (core : Nat) (m : LinkMsg) : MemWf (s.tell core m) = true := by
  simp [State.tell, h]

@[simp] theorem memWf_answerId (id : Nat) (ws : List Word) : MemWf (s.answerId id ws) = true := by
  simp [State.answerId, h]

theorem ByWalk.memWf {t : State} (hw : ByWalk s t) : MemWf t = true := by
  obtain ⟨_, _, _, _, rfl⟩ := hw
  exact h

@[simp] theorem memWf_walkFrom (cl asid dva table level fuel : Nat) : MemWf (s.walkFrom cl asid dva table level fuel).1 = true :=
  (walkFrom_byWalk s cl asid dva table level fuel).memWf h

@[simp] theorem memWf_walk (core asid dva : Nat) : MemWf (s.walk core asid dva).1 = true := by
  unfold State.walk
  split <;> simp [h]

theorem memWf_install (core : Nat) (e : TlbEntry) : MemWf (s.install core e) = true := by
  simp [State.install, h]

@[simp] theorem memWf_xlateNow (core asid dva : Nat) (read write : Bool) : MemWf (s.xlateNow core asid dva read write).1 = true :=
  (xlateNow_byWalk s core asid dva read write).memWf h

@[simp] theorem memWf_notifyWith (kind who : Nat) (noAbort : Bool) : MemWf (s.notifyWith kind who noAbort) = true := by
  simp [State.notifyWith, h]

theorem memWf_xlateOr (core asid dva : Nat) (read write : Bool) : (s.xlateOr core asid dva read write).all (MemWf ·.1) = true := by
  unfold State.xlateOr
  repeat' split
  all_goals simp [h]

@[simp] theorem memWf_flushFaults (asid : Nat) (rs : List (Nat × List Byte)) : MemWf (s.flushFaults asid rs) = true := by
  induction rs generalizing s with
  | nil => exact h
  | cons r rest ih =>
    unfold State.flushFaults
    dsimp only
    split
    · exact h
    · exact ih (by simp [h])

@[simp] theorem memWf_freeFaults (asid n : Nat) : MemWf (s.freeFaults asid n) = true := by
  simp [State.freeFaults, h]

@[simp] theorem memWf_faultRecord (core slot asid dva cause : Nat) (kind : Access) (tag : Nat) :
    MemWf (s.faultRecord core slot asid dva cause kind tag) = true := by
  simp [State.faultRecord, h]

@[simp] theorem memWf_writeGroup (l : Launch) (r : GroupRec) : MemWf (s.writeGroup l r) = true := by
  unfold State.writeGroup
  split <;> simp [h]

@[simp] theorem memWf_openGroup (x : Slot) (join : Nat) : MemWf (s.openGroup x join).2.2 = true := by
  unfold State.openGroup
  split <;> simp [h]

@[simp] theorem memWf_migrateGroup (x : Slot) : MemWf (s.migrateGroup x).2 = true := by
  unfold State.migrateGroup
  split <;> simp [h]

@[simp] theorem memWf_closeGroups (x : Slot) (join : Nat) : MemWf (s.closeGroups x join) = true := by
  unfold State.closeGroups
  split
  · exact h
  · next l _ =>
    split
    · refine memWf_foldl (fun s i h => ?_) h _
      repeat' split
      all_goals simp [h]
    · exact h

@[simp] theorem memWf_frameStrand (l : Launch) (gid : Nat) : MemWf (s.frameStrand l gid).1 = true := by
  unfold State.frameStrand
  split <;> simp [h]

end

end Sys2Proof.Machine
end

section
/-! Sage, kills, waits at homes, plain reads, load-queue rows and the store path (R91, R118, R131, R160, R186). -/
namespace Sys2Proof.Machine

open Sys2Proof

section
variable {s : State} (h : MemWf s = true)
include h

@[simp] theorem memWf_raceRecord (asid : Nat) (r : List Byte) : MemWf (s.raceRecord asid r) = true := by
  simp [State.raceRecord, h]

@[simp] theorem memWf_setShadow (launch sector : Nat) (v : BitVec 128) : MemWf (s.setShadow launch sector v) = true := by
  simp [State.setShadow, h]

@[simp] theorem memWf_sageReport (l : Launch) (slotid pa dva : Nat) (trapMode : Bool) (x other : SageWho) (kind : Nat) :
    MemWf (s.sageReport l slotid pa dva trapMode x other kind).1 = true := by
  unfold State.sageReport
  dsimp only
  split
  · exact h
  · split
    · exact h
    · split
      · exact h
      · exact memWf_setShadow (memWf_raceRecord h ..) ..
  · split
    · exact h
    · exact memWf_setShadow (memWf_raceRecord h ..) ..

@[simp] theorem memWf_sageReports (l : Launch) (slotid pa dva : Nat) (trapMode : Bool) (x : SageWho) (write : Bool) :
    MemWf (s.sageReports l slotid pa dva trapMode x write).1 = true := by
  unfold State.sageReports
  dsimp only
  split
  · split
    · split
      · exact memWf_sageReport h ..
      · dsimp only
        split
        · exact memWf_sageReport (memWf_sageReport h ..) ..
        · exact memWf_sageReport h ..
    · split
      · exact memWf_sageReport h ..
      · dsimp only
        split
        · exact memWf_sageReport (memWf_sageReport h ..) ..
        · exact memWf_sageReport h ..
  · dsimp only
    split
    · exact h
    · dsimp only
      split
      · exact memWf_sageReport h ..
      · exact h

@[simp] theorem memWf_sageAccess (l : Launch) (slotid pa dva : Nat) (trapMode : Bool) (x : SageWho) (write : Bool) (scope : Nat) :
    MemWf (s.sageAccess l slotid pa dva trapMode x write scope).1 = true := by
  unfold State.sageAccess
  split
  · next hx => exact memWf_of_eq_fst (memWf_sageReports h ..) hx
  · next hx => exact memWf_setShadow (memWf_of_eq_fst (memWf_sageReports h ..) hx) ..

@[simp] theorem memWf_noteRace (core slot : Nat) (l : Launch) (strand : Nat) : MemWf (s.noteRace core slot l strand) = true := by
  simp [State.noteRace, h]

theorem memWf_sageBy (core slot : Nat) (launch : Option Nat) (who : SageWho) (checked : Bool) (l : Loc) (dva : Nat) (write : Bool)
    (scope : Nat) (canTrap : Bool) :
    okAll MemWf (s.sageBy core slot launch who checked l dva write scope canTrap) = true := by
  unfold State.sageBy
  split
  · next la _ =>
    have ha := memWf_sageAccess h la (s.slotid core slot)
    split
    · split
      · next hx => exact memWf_of_eq_fst (ha ..) hx
      · next hx => exact memWf_noteRace (memWf_of_eq_fst (ha ..) hx) ..
      · rfl
    · exact h
  · exact h

theorem memWf_sage (core slot : Nat) (checked : Bool) (l : Loc) (dva : Nat) (write : Bool) (scope : Nat) (canTrap : Bool) :
    okAll MemWf (s.sage core slot checked l dva write scope canTrap) = true := by
  unfold State.sage
  dsimp only
  exact memWf_sageBy h ..

@[simp] theorem memWf_raceNoted (cs : List (Nat × Nat)) (write : Bool) : MemWf (s.raceNoted cs write) = true := by
  unfold State.raceNoted
  split
  · exact memWf_foldl (fun s _ h => memWf_sageReports h ..) h _
  · exact h

@[simp] theorem memWf_sagePath (core slot : Nat) (l : Loc) (k : Option PathCheck) : MemWf (s.sagePath core slot l k) = true := by
  unfold State.sagePath
  split
  · next k =>
    have hb := memWf_sageBy h core slot (some k.launch) (k.strand.toNat, k.group.toNat, k.ival.toNat) true l k.dva true k.scope false
    split
    · next t ht => exact okAll_of_eq hb ht
    · exact h
  · exact h

@[simp] theorem memWf_freeOdd (core slot : Nat) : MemWf (s.freeOdd core slot) = true := by
  simp [State.freeOdd, h]

@[simp] theorem memWf_withdraw (core slot : Nat) : MemWf (s.withdraw core slot) = true := by
  unfold State.withdraw
  dsimp only
  split
  · split
    · exact memWf_sendTo h ..
    · exact h
  · exact h

@[simp] theorem memWf_unsend (core slot : Nat) (r : ArrivalRecord) : MemWf (s.unsend core slot r) = true := by
  unfold State.unsend
  dsimp only
  split
  · exact memWf_sendLink (memWf_modLink (memWf_modSeat h ..) ..) ..
  · exact memWf_modSeat h ..

@[simp] theorem memWf_dropWaiters (core slot : Nat) : MemWf (s.dropWaiters core slot) = true := by
  have hw := memWf_foldl (f := fun s r => s.unsend core slot r) (fun s r h => memWf_unsend h ..) (memWf_withdraw h core slot)
  exact memAt_map (hw _) fun _ => rfl

@[simp] theorem memWf_killSfu (core slot : Nat) : MemWf (s.killSfu core slot) = true := by
  simp [State.killSfu, h]

theorem memWf_recallFor (core asid : Nat) (l : Loc) : MemWf (s.recallFor core asid l) = true := by
  simp [State.recallFor, h]

@[simp] theorem memWf_touchRecord (core asid : Nat) (r : WalkRec) (n : Nat) : MemWf (s.touchRecord core asid r n) = true :=
  memWf_foldl (fun _ _ ht => memWf_recallFor ht ..) h _

@[simp] theorem memWf_setWalkState (core : Nat) (r : WalkRec) (depth : Nat) (isOpen : Bool) :
    MemWf (s.setWalkState core r depth isOpen) = true := by
  simp [State.setWalkState, h]

@[simp] theorem memWf_acceptAbort (core slot asid : Nat) (ticket : Word) (r : WalkRec) :
    MemWf (s.acceptAbort core slot asid ticket r) = true := by
  unfold State.acceptAbort
  dsimp only
  split
  · exact memWf_setWalkState (memWf_touchRecord (memWf_touchRecord h ..) ..) ..
  · exact memWf_touchRecord h ..

theorem memWf_ticketRecord (core slot asid ticket : Nat) : (s.ticketRecord core slot asid ticket).all (MemWf ·.1) = true := by
  unfold State.ticketRecord
  dsimp only
  split
  · rfl
  · next hx =>
    split
    · exact memWf_of_some_fst (memWf_xlateOr h ..) hx
    · exact memWf_faultRecord (memWf_of_some_fst (memWf_xlateOr h ..) hx) ..
  · next hx =>
    split
    · exact memWf_of_some_fst (memWf_xlateOr h ..) hx
    · split
      · rfl
      · next hx' =>
        split
        · exact memWf_of_some_fst (memWf_xlateOr (memWf_of_some_fst (memWf_xlateOr h ..) hx) ..) hx'
        · exact memWf_faultRecord (memWf_of_some_fst (memWf_xlateOr (memWf_of_some_fst (memWf_xlateOr h ..) hx) ..) hx') ..
      · next hx' => exact memWf_of_some_fst (memWf_xlateOr (memWf_of_some_fst (memWf_xlateOr h ..) hx) ..) hx'

@[simp] theorem memWf_reportKill (core slot : Nat) (kill noAbort : Bool) : MemWf (s.reportKill core slot kill noAbort) = true := by
  simp [State.reportKill, h]

@[simp] theorem memWf_reachTicket (core slot asid ticket : Nat) (kill : Bool) :
    MemWf (s.reachTicket core slot asid ticket kill) = true := by
  unfold State.reachTicket
  split
  · simp [h]
  · have ht := memWf_ticketRecord h core slot asid ticket
    split
    · exact h
    · next hx => exact memWf_reportKill (memWf_of_some_fst ht hx) ..
    · next hx => exact memWf_reportKill (memWf_acceptAbort (memWf_of_some_fst ht hx) ..) ..

@[simp] theorem memWf_abortTicket (core slot asid ticket : Nat) (kill : Bool) :
    MemWf (s.abortTicket core slot asid ticket kill) = true := by
  simp [State.abortTicket, h]

@[simp] theorem memWf_killSlot (core slot dva : Nat) : MemWf (s.killSlot core slot dva) = true := by
  have hd := memWf_dropWaiters h core slot
  unfold State.killSlot
  dsimp only
  split
  · split
    · refine memWf_modSlot _ _ _ (memWf_dropWaiters ?_ ..)
      exact h
    · exact h
  · refine memWf_abortTicket (memWf_wrLm _ _ _ (memWf_modCore_keep _ (memWf_moveStgs (memWf_modSlot _ _ _ ?_) ..) fun _ => ?_)) ..
    · split
      · exact memWf_freeOdd (memWf_killSfu hd ..) ..
      · exact memWf_killSfu hd ..
    · split
      · exact lm_drainAll _
      · rfl

@[simp] theorem memWf_wake (core slot : Nat) (ws : List (Nat × Word)) : MemWf (s.wake core slot ws) = true := by
  simp [State.wake, h]

@[simp] theorem memWf_takeWord (w : Waiter) (d : Reg) (v : Word) : MemWf (s.takeWord w d v) = true := by
  unfold State.takeWord
  split
  · exact memWf_selfInvalidate _ (memWf_refreshL1 _ _ _ _ (memWf_wake h ..))
  · exact memWf_answerId h ..

@[simp] theorem memWf_stored (w : Waiter) (v : Word) : MemWf (s.stored w v) = true := by
  unfold State.stored
  split
  · exact memWf_refreshL1 _ _ _ _ (memWf_wake h ..)
  · exact memWf_answerId h ..

@[simp] theorem memWf_awaitDone (core slot join : Nat) : MemWf (s.awaitDone core slot join) = true := by
  unfold State.awaitDone
  dsimp only
  exact memWf_selfInvalidate _ (memWf_renegotiate (memWf_closeGroups (memWf_modSlot _ _ _ h) ..) ..)

@[simp] theorem memWf_waiterKilled (w : Waiter) : MemWf (s.waiterKilled w) = true := by
  unfold State.waiterKilled
  split
  · exact memWf_killSlot h ..
  · exact memWf_tell h ..

@[simp] theorem memWf_countTake (core off : Nat) : MemWf (s.countTake core off) = true := by
  simp [State.countTake, h]

@[simp] theorem memWf_countTaken (l : Loc) : MemWf (s.countTaken l) = true := by
  unfold State.countTaken
  split
  · exact memWf_countTake h ..
  · exact h

theorem memWf_serveOne (w : Waiter) : (s.serveOne w).all MemWf = true := by
  unfold State.serveOne
  dsimp only
  split
  · split
    · rfl
    · split
      · exact memWf_waiterKilled h _
      · exact memWf_takeWord h ..
  · split
    · rfl
    · split
      · exact memWf_awaitDone (memWf_wake h ..) ..
      · exact memWf_stored h ..
  · split
    · rfl
    · split
      · exact memWf_waiterKilled h _
      · exact memWf_countTaken (memWf_takeWord (memWf_setFull _ _ h) ..) _
  · split
    · rfl
    · exact memWf_stored (memWf_setFull _ _ (memWf_wrLoc _ _ _ h)) ..
  · split
    · split
      · rfl
      · split
        · exact memWf_waiterKilled h _
        · exact memWf_countTake (memWf_takeWord (memWf_setFull _ _ h) ..) ..
    · rfl

@[simp] theorem memWf_dropWaiter (w : Waiter) : MemWf (s.dropWaiter w) = true := by
  unfold State.dropWaiter
  split
  · exact memWf_modCore_keep _ h fun _ => rfl
  · exact memWf_upd h

@[simp] theorem memWf_servePass (l : Loc) (ws : List Waiter) : MemWf (s.servePass l ws).1 = true := by
  induction ws generalizing s with
  | nil => exact h
  | cons w rest ih =>
    unfold State.servePass
    split
    · split
      · next t ht => exact ih (all_of_some (memWf_serveOne (memWf_dropWaiter h w) w) ht)
      · exact ih h
    · exact ih h

@[simp] theorem memWf_serveLoop (l : Loc) (n : Nat) : MemWf (s.serveLoop l n) = true := by
  induction n generalizing s with
  | zero => exact h
  | succ n ih =>
    have hp := memWf_servePass h l (s.waitList l)
    unfold State.serveLoop
    split
    · next hx => exact ih (by simpa [hx] using hp)
    · next hx => simpa [hx] using hp

@[simp] theorem memWf_serve (l : Loc) : MemWf (s.serve l) = true := by
  simp [State.serve, h]

@[simp] theorem memWf_serveAll (l : Loc) (n : Nat) : MemWf (s.serveAll l n) = true := by
  unfold State.serveAll
  exact memWf_foldl (fun _ _ ht => memWf_serve ht _) h _

@[simp] theorem memWf_homeWrite (cl : Nat) (l : Loc) (bs : List Byte) (poison : Bool) (pasid : Option (BitVec 20)) :
    MemWf (s.homeWrite cl l bs poison pasid) = true := by
  unfold State.homeWrite
  exact memWf_serveAll (memWf_wrLoc _ _ _ (memWf_touchLines h ..)) ..

@[simp] theorem memWf_coreWrite (core : Nat) (launch : Option Nat) (l : Loc) (bs : List Byte) (poison : Bool) (pasid : Option (BitVec 20)) :
    MemWf (s.coreWrite core launch l bs poison pasid) = true := by
  unfold State.coreWrite
  exact memWf_serveAll (memWf_wrLoc _ _ _ (memWf_l2Access h ..)) ..

@[simp] theorem memWf_fill (cl : Nat) (l : Loc) (v : Word) (pasid : Option (BitVec 20)) : MemWf (s.fill cl l v pasid) = true := by
  unfold State.fill
  dsimp only
  exact memWf_serve (memWf_setFull _ _ (memWf_wrLoc _ _ _ (memWf_touch _ _ _ _ _ _ h))) _

@[simp] theorem memWf_l1Hit (core : Nat) (l : Loc) (checked : Bool) : MemWf (s.l1Hit core l checked).1 = true := by
  unfold State.l1Hit
  dsimp only
  split
  · split
    · exact memWf_fresh h
    · exact memWf_fresh h
  · exact h

theorem memWf_readHome (core slot : Nat) (l : Loc) (n : Nat) (checked alloc ro : Bool) :
    MemWf (s.readHome core slot l n checked alloc ro).1 = true := by
  unfold State.readHome
  split
  · refine memWf_modCore_keep _ ?_ fun _ => rfl
    split
    · exact memWf_touch (s := s.fresh.2) _ _ _ _ _ _ h
    · exact memWf_l2Access (s := s.fresh.2) h ..
  · exact h
  · exact h

theorem memWf_readPlain (core slot : Nat) (l : Loc) (n : Nat) (checked alloc ro fromHome : Bool) :
    MemWf (s.readPlain core slot l n checked alloc ro fromHome).1 = true := by
  unfold State.readPlain
  split
  · next hx =>
    refine memWf_of_eq_fst ?_ hx
    split
    · exact h
    · exact memWf_l1Hit h ..
  · next hx =>
    refine memWf_readHome (memWf_of_eq_fst ?_ hx) ..
    split
    · exact h
    · exact memWf_l1Hit h ..

@[simp] theorem memWf_ackStg (g : Stg) : MemWf (s.ackStg g) = true := by
  unfold State.ackStg
  dsimp only
  split
  · split
    · exact memWf_wrLm _ _ _ (memWf_countStgs (memWf_upd h) _)
    · exact memWf_countStgs (memWf_upd h) _
  · exact memWf_countStgs (memWf_upd h) _

@[simp] theorem memWf_performStg (g : Stg) : MemWf (s.performStg g) = true := by
  unfold State.performStg
  split
  · exact memWf_homeWrite (memWf_ackStg h _) ..
  · exact memWf_ackStg h _

@[simp] theorem memWf_flushOwner (o : StgOwner) (p : Loc → Bool) : MemWf (s.flushOwner o p) = true := by
  unfold State.flushOwner
  exact memWf_foldl (fun _ _ ht => memWf_performStg ht _) h _

@[simp] theorem memWf_flushStgs (core slot : Nat) (p : Loc → Bool) : MemWf (s.flushStgs core slot p) = true := by
  simp [State.flushStgs, h]

@[simp] theorem memWf_readRow (core slot : Nat) (kind : BitVec 4) (sage alloc canTrap : Bool) (at' : Nat) (es : List (Loc × Nat × Bool)) :
    MemWf (s.readRow core slot kind sage alloc canTrap at' es).1 = true := by
  induction es generalizing s with
  | nil => exact h
  | cons e rest ih =>
    obtain ⟨l, dva, ro⟩ := e
    have hs := memWf_sage h core slot sage l dva false 0 canTrap
    unfold State.readRow
    split
    · exact h
    · next t ht =>
      have hr := memWf_readPlain (memWf_flushStgs (okAll_of_eq hs ht) core slot (·.sameWord l)) core slot l (lqSize kind) sage alloc ro
        (ownLater (t.core core).path slot at' l (lqSize kind))
      dsimp only
      split
      · exact hr
      · split
        · next hx => simpa [hx] using ih hr
        · next hx => simpa [hx] using ih hr

theorem memWf_fillRow (core slot : Nat) (r : RowWait) (alloc : Bool) : MemWf (s.fillRow core slot r alloc).1 = true := by
  unfold State.fillRow
  split
  · next hx => exact memWf_modSlot _ _ _ (memWf_of_eq_fst (memWf_readRow h ..) hx)
  · next hx => exact memWf_of_eq_fst (memWf_readRow h ..) hx
  · next hx => exact memWf_of_eq_fst (memWf_readRow h ..) hx

@[simp] theorem memWf_fillBefore (core slot before : Nat) : MemWf (s.fillBefore core slot before).1 = true := by
  refine memWf_foldl_fst (fun _ _ h => ?_) h _
  split
  · split
    · split
      · exact memWf_fillRow h ..
      · exact h
    · exact h
  · exact h

omit h in
theorem memWf_orKilled {r : State × Option Nat} (h : MemWf r.1 = true) (core slot : Nat) : MemWf (State.orKilled r core slot) = true := by
  unfold State.orKilled
  split
  · exact memWf_killSlot h ..
  · exact h

@[simp] theorem memWf_popPath (core : Nat) : MemWf (s.popPath core) = true := by
  unfold State.popPath
  dsimp only
  split
  · exact h
  · split
    · exact memWf_modSlot _ _ _ (memWf_modCore_keep _ h fun _ => rfl)
    · exact memWf_modCore_keep _ h fun _ => rfl

@[simp] theorem memWf_loseHead (core : Nat) : MemWf (s.loseHead core) = true := by
  unfold State.loseHead
  dsimp only
  split
  · exact h
  · split
    · split
      · exact memWf_killSlot (memWf_modCore_keep _ h fun _ => by rfl) ..
      · exact memWf_modCore_keep _ h fun _ => rfl
    · exact memWf_modCore_keep _ h fun _ => rfl

@[simp] theorem memWf_performHead (core : Nat) : MemWf (s.performHead core) = true := by
  unfold State.performHead
  split
  · exact h
  · next p _ _ =>
    have hf := memWf_flushOwner (memWf_orKilled (memWf_fillBefore h core p.slot p.at') core p.slot) (p.owner core) (·.sameWord p.loc)
    dsimp only
    split
    · split
      · exact hf
      · exact memWf_loseHead hf ..
      · refine memWf_sendTo ?_ ..
        exact memWf_modCore_keep _ (memWf_fresh hf) fun _ => rfl
    · exact memWf_coreWrite (memWf_sagePath (memWf_popPath hf ..) ..) ..

@[simp] theorem memWf_performPath (core n : Nat) : MemWf (s.performPath core n) = true := by
  induction n generalizing s with
  | zero => exact h
  | succ n ih => exact ih (memWf_performHead h core)

@[simp] theorem memWf_drainStores (core : Nat) : MemWf (s.drainStores core) = true := by
  simp [State.drainStores, h]

end

end Sys2Proof.Machine
end

section
/-! The store path performed to a point, saving a context, traps and faults, how an instruction ends, loads and stores (R105, R177, R182,
R309). -/
namespace Sys2Proof.Machine

open Sys2Proof

section
variable {s : State} (h : MemWf s = true)
include h

@[simp] theorem memWf_flushTo (core slot : Nat) (l : Loc) (n : Nat) : MemWf (s.flushTo core slot l n) = true := by
  simp [State.flushTo, h]

@[simp] theorem memWf_flushRow (core slot : Nat) (r : RowWait) : MemWf (s.flushRow core slot r) = true := by
  unfold State.flushRow
  exact memWf_foldl (fun _ _ ht => memWf_performPath ht ..) h _

theorem memWf_fillOldest (core slot : Nat) (alloc : Bool) : MemWf (s.fillOldest core slot alloc).1 = true := by
  unfold State.fillOldest
  split
  · split
    · exact memWf_fillRow (memWf_flushRow h ..) ..
    · exact h
  · exact h

@[simp] theorem memWf_fillRows (core slot : Nat) : MemWf (s.fillRows core slot).1 = true := by
  unfold State.fillRows
  refine memWf_foldl_fst (fun _ _ ht => ?_) h _
  split
  · exact memWf_fillOldest ht ..
  · exact ht

omit h in
theorem nextAll_writeIf (g : PredIx) (d : Reg) (v : Word) {s : State} (h : MemWf s = true) : nextAll (writeIf g d v s) = true := by
  unfold writeIf
  split
  · exact memWf_setReg _ _ h
  · exact h

omit h in
theorem nextAll_predIf (g p : PredIx) (v : Bool) {s : State} (h : MemWf s = true) : nextAll (predIf g p v s) = true := by
  unfold predIf
  split
  · exact memWf_setPred _ _ h
  · exact h

@[simp] theorem memWf_taint (l : Loc) : MemWf (s.taint l) = true := by
  simp [State.taint, h]

@[simp] theorem memWf_saveContext (core slot vec : Nat) : MemWf (s.saveContext core slot vec) = true := by
  unfold State.saveContext
  dsimp only
  exact memWf_foldl (fun _ _ ht => memWf_taint ht _) (memWf_wrLm _ _ _ (memWf_wrLm _ _ _ h)) _

@[simp] theorem memWf_putDva (core asid dva : Nat) (bs : List Byte) (poison : Bool) (n : Nat) :
    MemWf (s.putDva core asid dva bs poison n) = true := by
  induction n generalizing s core asid dva bs poison with
  | zero => exact h
  | succ n ih =>
    unfold State.putDva
    dsimp only
    split
    · exact h
    · split
      · next hx => exact ih (memWf_coreWrite (memWf_of_eq_fst (memWf_xlateNow h ..) hx) ..) ..
      · next hx => exact ih (memWf_of_eq_fst (memWf_xlateNow h ..) hx) ..

@[simp] theorem memWf_getDva (core asid dva len n : Nat) : MemWf (s.getDva core asid dva len n).1 = true := by
  induction n generalizing s core asid dva len with
  | zero => exact h
  | succ n ih =>
    unfold State.getDva
    dsimp only
    split
    · exact h
    · split
      · next hx => exact memWf_of_eq_fst (memWf_xlateNow h ..) hx
      · next hx =>
        split
        · next hx' => exact memWf_of_eq_fst (ih (memWf_l2Access (memWf_of_eq_fst (memWf_xlateNow h ..) hx) ..) ..) hx'
        · next hx' => exact memWf_of_eq_fst (ih (memWf_l2Access (memWf_of_eq_fst (memWf_xlateNow h ..) hx) ..) ..) hx'

@[simp] theorem memWf_saveVreg (core slot r : Nat) : MemWf (s.saveVreg core slot r) = true := by
  simp [State.saveVreg, h]

@[simp] theorem memWf_saveRows (core slot : Nat) : MemWf (s.saveRows core slot) = true := by
  unfold State.saveRows
  dsimp only
  exact memWf_foldl (fun _ _ ht => memWf_putDva ht ..) h _

@[simp] theorem memWf_saveVregs (core slot : Nat) : MemWf (s.saveVregs core slot) = true := by
  unfold State.saveVregs
  dsimp only
  split
  · exact h
  · exact memWf_putDva (memWf_saveRows (memWf_foldl (fun _ _ ht => memWf_saveVreg ht ..) h _) ..) ..

@[simp] theorem memWf_preempt (core slot : Nat) : MemWf (s.preempt core slot) = true := by
  unfold State.preempt
  dsimp only
  refine memWf_modSlot _ _ _ ?_
  split
  · split
    · exact memWf_modSlot _ _ _ (memWf_saveContext (memWf_saveVregs h ..) ..)
    · exact memWf_saveContext (memWf_saveVregs h ..) ..
  · split
    · exact memWf_modSlot _ _ _ (memWf_saveContext (memWf_saveVregs h ..) ..)
    · exact memWf_saveContext (memWf_saveVregs h ..) ..

@[simp] theorem memWf_finishSfu (core slot : Nat) : MemWf (s.finishSfu core slot) = true := by
  unfold State.finishSfu
  dsimp only
  split
  · exact h
  · split
    · refine memWf_modCore_at _ (memWf_modCluster _ _ h) ?_
      split
      · simp [h]
      · simp [h]
    · split
      · refine memWf_saveVreg (memWf_modCore_at _ (memWf_modCluster _ _ h) ?_) ..
        split
        · simp [h]
        · simp [h]
      · refine memWf_saveRows (memWf_modCore_at _ (memWf_modCluster _ _ h) ?_) ..
        split
        · simp [h]
        · simp [h]

@[simp] theorem memWf_settleSeq (core slot n : Nat) : MemWf (s.settleSeq core slot n) = true := by
  induction n generalizing s with
  | zero => exact h
  | succ n ih =>
    have hr := memWf_orKilled (memWf_fillRows h core slot) core slot
    have hs := memWf_modCore_at (f := fun c => c.runSeq slot (seqFuel (c.slot slot).seq)) core hr (wf_runSeq _ _ (wf_core_lm hr core))
    rw [State.settleSeq]
    split
    · exact h
    · dsimp only
      split
      · exact hs
      · exact ih hs

@[simp] theorem memWf_emptySequencer (core slot : Nat) : MemWf (s.emptySequencer core slot).2 = true := by
  unfold State.emptySequencer
  dsimp only
  refine memWf_modSlot _ _ _ ?_
  split
  · exact memWf_killSlot (memWf_settleSeq (memWf_finishSfu h ..) ..) ..
  · exact memWf_settleSeq (memWf_finishSfu h ..) ..

@[simp] theorem memWf_splitGang (core slot : Nat) : MemWf (s.splitGang core slot) = true := by
  simp [State.splitGang, h]

@[simp] theorem memWf_escalate (core slot : Nat) (r : TrapRec) : MemWf (s.escalate core slot r) = true := by
  unfold State.escalate
  dsimp only
  split
  · exact memWf_notify _ _ (memWf_moveStgs (memWf_modSlot _ _ _ (memWf_abortTicket (memWf_wrLm _ _ _ (memWf_saveContext (memWf_modSlot _ _
        _ h) ..)) ..)) ..)
  · exact memWf_notify _ _ (memWf_wrLm _ _ _ (memWf_preempt (memWf_modSlot _ _ _ h) ..))

@[simp] theorem memWf_takeTrap (core slot cls info : Nat) (pc : Word) (pair : Nat) (adone slotk : Bool) :
    MemWf (s.takeTrap core slot cls info pc pair adone slotk) = true := by
  unfold State.takeTrap
  have hq : MemWf (s.emptySequencer core slot).2 = true := memWf_emptySequencer h ..
  generalize s.emptySequencer core slot = q at hq
  obtain ⟨n, t⟩ := q
  dsimp -zeta only
  extract_lets g t₁ pk t₂ x s2 epc r a t₃
  have h₁ : MemWf t₁ = true := by
    unfold t₁
    split
    · exact memWf_modSlot _ _ _ (memWf_splitGang hq ..)
    · exact hq
  have h₂ : MemWf t₂ = true := memWf_modSlot _ _ _ h₁
  have h₃ : MemWf t₃ = true := by
    unfold t₃
    split
    · exact memWf_homeWrite h₂ ..
    · exact h₂
  split
  · exact hq
  · split
    · exact memWf_killSlot hq ..
    · split
      · exact memWf_escalate h₂ ..
      · exact memWf_renegotiate (memWf_modSlot _ _ _ (memWf_wrLm _ _ _ h₃)) ..

@[simp] theorem memWf_trapHere (cls info : Nat) (adone : Bool) : MemWf (s.trapHere cls info adone) = true := by
  simp [State.trapHere, h]

@[simp] theorem memWf_faultSlot (core slot dva cause : Nat) (kind : Access) (pc : Word) (adone mma : Bool) :
    MemWf (s.faultSlot core slot dva cause kind pc adone mma) = true := by
  unfold State.faultSlot
  dsimp only
  exact memWf_faultRecord (memWf_saveContext (memWf_modSlot _ _ _ h) ..) ..

@[simp] theorem memWf_again : MemWf s.again = true := by
  simp [State.again, h]

@[simp] theorem memWf_againWhole : MemWf s.againWhole = true := by
  simp [State.againWhole, h]

@[simp] theorem memWf_await (c : ReplyCond) (ws : List (Nat × Word)) (reissue : Bool) : MemWf (s.await c ws reissue) = true := by
  simp [State.await, h]

@[simp] theorem memWf_parkCur (p : Park) : MemWf (s.parkCur p) = true := by
  simp [State.parkCur, h]

@[simp] theorem memWf_awaitWalk (asid dva : Nat) (kind : Access) : MemWf (s.awaitWalk asid dva kind) = true := by
  simp [State.awaitWalk, h]

@[simp] theorem memWf_begins (t : Nat) : MemWf (s.begins t) = true := by
  simp [State.begins, h]

@[simp] theorem memWf_parkFault (dva cause : Nat) (kind : Access) : MemWf (s.parkFault dva cause kind) = true := by
  simp [State.parkFault, h]

@[simp] theorem memWf_trapAnswer (cls info : Nat) : MemWf (s.trapAnswer cls info) = true := by
  simp [State.trapAnswer, h]

@[simp] theorem memWf_stop (e : Stop) : MemWf (s.stop e) = true := by
  unfold State.stop
  dsimp only
  split
  · split
    · exact memWf_begins (memWf_await (memWf_againWhole h) ..) _
    · exact memWf_upd (memWf_trapHere h ..)
  · split
    · exact memWf_begins (memWf_await (memWf_again h) ..) _
    · exact memWf_trapAnswer h ..
  · split
    · exact memWf_begins (memWf_await (memWf_again h) ..) _
    · exact memWf_trapAnswer (memWf_raceNoted h ..) ..
  · exact memWf_begins (memWf_awaitWalk (memWf_again h) ..) _
  · exact memWf_parkFault h ..
  · refine memWf_begins (memWf_await ?_ ..) _
    split
    · exact memWf_againWhole h
    · exact memWf_again h
  · exact memWf_begins (memWf_parkCur (memWf_again h) _) _
  · exact memWf_killSlot h ..

theorem nextAll_finish {r : Except Stop State} (hr : okAll MemWf r = true) : nextAll (finish s r) = true := by
  unfold finish
  split
  · refine memWf_modCur _ ?_
    simp_all
  · exact memWf_stop h _

theorem nextAll_guarded (g : PredIx) {r : Except Stop State} (hr : okAll MemWf r = true) : nextAll (guarded g s r) = true := by
  unfold guarded
  split
  · exact nextAll_finish h hr
  · exact h

@[simp] theorem memWf_replyWith (ws : List (Nat × Word)) : MemWf (s.replyWith ws) = true := by
  simp [State.replyWith, h]

@[simp] theorem memWf_replyReg (d : Reg) (v : Word) : MemWf (s.replyReg d v) = true := by
  simp [State.replyReg, h]

@[simp] theorem memWf_awaitPeer (dev dva : Nat) (ws : List (Nat × Word)) (o : PeerAccess → PeerAccess) :
    MemWf (s.awaitPeer dev dva ws o) = true := by
  simp [State.awaitPeer, h]

@[simp] theorem memWf_nackTo (core slot : Nat) (why : Nack) : MemWf (s.nackTo core slot why) = true := by
  simp [State.nackTo, h]

theorem memWf_rowsIn : okAll MemWf s.rowsIn = true := by
  unfold State.rowsIn
  refine okAll_bind_any fun _ => ?_
  split
  · next hx => exact memWf_of_eq_fst (memWf_fillRows h ..) hx
  · rfl

theorem memWf_release : okAll MemWf s.release = true := by
  unfold State.release
  exact okAll_bind_any fun _ => okAll_bind_any fun _ => okAll_bind_state (memWf_rowsIn h) fun _ ht => memWf_drainStores ht _

theorem memWf_ownFirst (l : Loc) (n : Nat) : okAll MemWf (s.ownFirst l n) = true := by
  unfold State.ownFirst
  exact okAll_bind_any fun _ => okAll_bind_any fun _ => okAll_bind_any fun _ => okAll_bind_state (memWf_rowsIn h) fun _ ht =>
      memWf_flushTo ht ..

@[simp] theorem memWf_toPeer (dev dva : Nat) (op : Instr) (args : List Word) (regs : List Reg) (acq : Bool) :
    MemWf (s.toPeer dev dva op args regs acq) = true := by
  simp [State.toPeer, h]

@[simp] theorem memWf_refresh (l : Loc) (n : Nat) : MemWf (s.refresh l n) = true := by
  simp [State.refresh, h]

@[simp] theorem memWf_serveMe (l : Loc) (write inval : Bool) : MemWf (s.serveMe l write inval) = true := by
  simp [State.serveMe, h]

theorem memWf_atHome (l : Loc) (write : Bool) : okAll MemWf (s.atHome l write) = true := by
  unfold State.atHome
  exact okAll_bind_state (memWf_ownFirst h ..) fun _ ht => memWf_serveMe ht ..

theorem memWf_plainLoad (l : Loc) (n : Nat) (checked ro : Bool) : okAll (MemWf ·.1) (s.plainLoad l n checked ro) = true := by
  unfold State.plainLoad
  refine okAll_bind_any fun _ => ?_
  split
  · next hx =>
    refine memWf_of_eq_fst ?_ hx
    split
    · exact h
    · exact memWf_l1Hit h ..
  · next hx =>
    refine okAll_bind_state (memWf_ownFirst (memWf_of_eq_fst ?_ hx) ..) fun _ ht => memWf_readHome ht ..
    split
    · exact h
    · exact memWf_l1Hit h ..

theorem memWf_load (c : CapIx) (off : Word) (d : Reg) : okAll MemWf (s.load c off d) = true := by
  unfold State.load
  refine okAll_bind_any fun _ => ?_
  dsimp only
  refine okAll_bind_any fun _ => ?_
  split
  · exact okAll_bind_state (memWf_ownFirst h ..) fun t ht => memWf_toPeer ht ..
  · split
    · refine okAll_bind_state (memWf_ownFirst h ..) fun t ht => okAll_bind_state (memWf_sage ht ..) fun t' ht' => okAll_bind_pair
          (memWf_plainLoad ht' ..) fun _ ht'' => ?_
      split
      · rfl
      · exact memWf_replyReg ht'' ..
    · refine okAll_bind_state h fun t ht => okAll_bind_state (memWf_sage ht ..) fun t' ht' => okAll_bind_pair (memWf_plainLoad ht' ..) fun
          _ ht'' => ?_
      split
      · rfl
      · exact memWf_replyReg ht'' ..

@[simp] theorem memWf_enterPath (l : Loc) (bs : List Byte) (await : Bool) (check : Option PathCheck) :
    MemWf (s.enterPath l bs await check) = true := by
  simp [State.enterPath, h]

theorem memWf_sageStore (c : CapIx) (l : Loc) (dva scope : Nat) : okAll (MemWf ·.1) (s.sageStore c l dva scope) = true := by
  unfold State.sageStore
  dsimp only
  split
  · exact okAll_bind_state (memWf_sage h ..) fun _ ht => ht
  · exact h

theorem memWf_store (c : CapIx) (off data : Word) : okAll MemWf (s.store c off data) = true := by
  unfold State.store
  refine okAll_bind_any fun _ => ?_
  dsimp only
  refine okAll_bind_any fun _ => okAll_bind_any fun _ => okAll_bind_pair (memWf_sageStore h ..) fun _ ht => ?_
  split
  · exact memWf_enterPath ht ..
  · exact memWf_awaitPeer (memWf_enterPath ht ..) ..
  · exact memWf_await (memWf_enterPath ht ..) ..

theorem memWf_loadLocal (off : Word) (d : Reg) : okAll MemWf (s.loadLocal off d) = true := by
  unfold State.loadLocal
  refine okAll_bind_any fun _ => ?_
  split
  · rfl
  · exact memWf_setReg _ _ h

theorem memWf_storeLocal (off data : Word) : okAll MemWf (s.storeLocal off data) = true := by
  unfold State.storeLocal
  exact okAll_bind_any fun _ => okAll_bind_any fun _ => okAll_bind_state (memWf_rowsIn h) fun _ ht => memWf_homeWrite ht ..

theorem memWf_cfFirst (m : BitVec 1) (l : Loc) : okAll MemWf (s.cfFirst m l) = true := by
  unfold State.cfFirst
  split
  · exact memWf_ownFirst h ..
  · exact h

theorem memWf_cfHome (m : BitVec 1) (l : Loc) (write : Bool) : okAll MemWf (s.cfHome m l write) = true := by
  unfold State.cfHome
  exact okAll_bind_state (memWf_cfFirst h ..) fun _ ht => memWf_serveMe ht ..

end

end Sys2Proof.Machine
end

section
/-! Full/empty accesses, atomics, fences, queue rows, capabilities, spawns, frames and migrating strands (R91, R99, R126, R160, R320). -/
namespace Sys2Proof.Machine

open Sys2Proof

section
variable {s : State} (h : MemWf s = true)
include h

theorem memWf_waitOn (l : Loc) (dva : Nat) (kind : WaitKind) (cop : Nat) (global : Bool) :
    okAll MemWf (s.waitOn l dva kind cop global) = true := by
  unfold State.waitOn
  refine okAll_bind_any fun _ => okAll_bind_any fun _ => ?_
  dsimp only
  split
  · exact memWf_modCore_at _ (memWf_parkCur h _) (wf_core_lm (memWf_parkCur h _) _)
  · exact memWf_upd (memWf_parkCur h _)

@[simp] theorem memWf_taken (l : Loc) (d : Reg) (v : Word) (acquire : Bool) : MemWf (s.taken l d v acquire) = true := by
  unfold State.taken
  dsimp only
  refine memWf_replyReg ?_ ..
  split
  · exact memWf_selfInvalidate _ (memWf_refreshL1 _ _ _ _ h)
  · exact memWf_refreshL1 _ _ _ _ h

theorem memWf_ldh (c : CapIx) (m : BitVec 1) (off : Word) (d : Reg) : okAll MemWf (s.ldh c m off d) = true := by
  unfold State.ldh
  refine okAll_bind_any fun _ => ?_
  dsimp only
  split
  · exact okAll_bind_state (memWf_cfFirst h ..) fun t ht => memWf_toPeer ht ..
  · refine okAll_bind_state (memWf_cfHome h ..) fun t ht => ?_
    split
    · rfl
    · exact memWf_taken ht ..

theorem memWf_ldf (c : CapIx) (m : BitVec 1) (off : Word) (d : Reg) : okAll MemWf (s.ldf c m off d) = true := by
  unfold State.ldf
  refine okAll_bind_any fun _ => ?_
  dsimp only
  split
  · exact okAll_bind_state (memWf_cfFirst h ..) fun t ht => memWf_toPeer ht ..
  · refine okAll_bind_state (memWf_cfHome h ..) fun t ht => ?_
    split
    · split
      · rfl
      · exact memWf_taken ht ..
    · exact memWf_waitOn ht ..

@[simp] theorem memWf_takeFull (l : Loc) (d : Reg) : MemWf (s.takeFull l d) = true := by
  unfold State.takeFull
  dsimp only
  exact memWf_serve (memWf_countTaken (memWf_taken (memWf_setFull _ _ h) ..) _) _

theorem memWf_ldx (c : CapIx) (m : BitVec 1) (off : Word) (d : Reg) : okAll MemWf (s.ldx c m off d) = true := by
  unfold State.ldx
  refine okAll_bind_any fun _ => ?_
  dsimp only
  split
  · exact okAll_bind_state (memWf_cfFirst h ..) fun t ht => memWf_toPeer ht ..
  · split
    · split
      · split
        · rfl
        · exact memWf_takeFull h ..
      · exact memWf_waitOn h ..
    · rfl
  · refine okAll_bind_state (memWf_cfHome h ..) fun t ht => ?_
    split
    · split
      · rfl
      · exact memWf_takeFull ht ..
    · exact memWf_waitOn ht ..

@[simp] theorem memWf_filled (l : Loc) (data : Word) : MemWf (s.filled l data) = true := by
  unfold State.filled
  exact memWf_replyWith (memWf_refreshL1 _ _ _ _ (memWf_fill h ..)) _

theorem memWf_stf (c : CapIx) (m : BitVec 1) (off data : Word) : okAll MemWf (s.stf c m off data) = true := by
  unfold State.stf
  refine okAll_bind_any fun _ => ?_
  dsimp only
  refine okAll_bind_state (memWf_release h) fun _ ht => okAll_bind_state (memWf_cfFirst ht ..) fun _ ht' => ?_
  split
  · exact memWf_toPeer ht' ..
  · split
    · exact memWf_waitOn ht' ..
    · exact memWf_filled ht' ..

theorem memWf_stfa (c : CapIx) (m : BitVec 1) (off data : Word) : okAll MemWf (s.stfa c m off data) = true := by
  unfold State.stfa
  refine okAll_bind_any fun _ => ?_
  dsimp only
  refine okAll_bind_state (memWf_release h) fun _ ht => okAll_bind_state (memWf_cfFirst ht ..) fun _ ht' => ?_
  split
  · exact memWf_toPeer ht' ..
  · exact memWf_filled ht' ..

theorem memWf_feclr (c : CapIx) (m : BitVec 1) (off : Word) : okAll MemWf (s.feclr c m off) = true := by
  unfold State.feclr
  refine okAll_bind_any fun _ => ?_
  dsimp only
  refine okAll_bind_state (memWf_cfFirst h ..) fun _ ht => ?_
  split
  · exact memWf_toPeer ht ..
  · exact memWf_replyWith (memWf_serve (memWf_setFull _ _ (memWf_serveMe ht ..)) _) _

@[simp] theorem memWf_proxyRace (l : Loc) (op : Instr) : MemWf (s.proxyRace l op) = true := by
  unfold State.proxyRace
  dsimp only
  split
  · split
    · split
      · split
        · exact memWf_homeWrite (memWf_upd (memWf_fresh h)) ..
        · exact memWf_upd (memWf_fresh h)
      · exact memWf_fresh h
    · exact h
  · exact h

@[simp] theorem memWf_putHome (l : Loc) (bs : List Byte) : MemWf (s.putHome l bs) = true :=
  memWf_refreshL1 _ _ _ _ (memWf_wrLoc _ _ _ (memWf_touch _ _ _ _ _ _ h))

@[simp] theorem memWf_acquired (acquire : Bool) : MemWf (s.acquired acquire) = true := by
  cases acquire
  · exact h
  · exact memWf_selfInvalidate _ h

@[simp] theorem memWf_afterRmw (l : Loc) (n : Nat) (acquire : Bool) (new : Option Nat) :
    MemWf (s.afterRmw l n acquire new) = true := by
  cases new with
  | none => exact memWf_acquired (memWf_refresh h ..) _
  | some v => exact memWf_acquired (memWf_serveAll (memWf_putHome h ..) ..) _

/-- An atomic at its home, once the home has taken the line. -/
theorem memWf_rmwAnswered (l : Loc) (n dva : Nat) (acquire : Bool) (op : Instr) (regs : List Reg) (f : Nat → Option Nat) :
    okAll MemWf (if s.poisonedAt l n then .error (.kill (dva + s.poisonOff l n))
      else .ok (((s.proxyRace l op).afterRmw l n acquire (f (natOfBytes (s.rdLoc l n)))).replyWith
        (rmwAnswer regs (natOfBytes (s.rdLoc l n))))) = true := by
  split
  · rfl
  · exact memWf_replyWith (memWf_afterRmw (memWf_proxyRace h ..) ..) _

theorem memWf_rmw (c : CapIx) (off : Word) (n : Nat) (ord : BitVec 2) (op : Instr) (args : List Word) (regs : List Reg)
    (f : Nat → Option Nat) :
    okAll MemWf (s.rmw c off n ord op args regs f) = true := by
  unfold State.rmw
  refine okAll_bind_any fun (l, dva) => okAll_bind_any fun _ => ?_
  dsimp only
  split
  · refine okAll_bind_state (memWf_release h) fun t ht => okAll_bind_state (memWf_ownFirst ht ..) fun t' ht' => ?_
    split
    · exact memWf_toPeer ht' ..
    · exact memWf_rmwAnswered (memWf_serveMe ht' ..) ..
  · refine okAll_bind_state h fun t ht => okAll_bind_state (memWf_ownFirst ht ..) fun t' ht' => ?_
    split
    · exact memWf_toPeer ht' ..
    · exact memWf_rmwAnswered (memWf_serveMe ht' ..) ..

theorem memWf_postedStore (c : CapIx) (off data : Word) : okAll MemWf (s.postedStore c off data) = true := by
  unfold State.postedStore
  refine okAll_bind_any fun _ => ?_
  dsimp only
  split
  · exact okAll_bind_any fun _ => okAll_bind_pair (memWf_sageStore h ..) fun _ ht => memWf_enterPath ht ..
  · refine okAll_bind_any fun _ => okAll_bind_any fun _ => okAll_bind_any fun _ => okAll_bind_state (memWf_rowsIn h) fun _ ht =>
        memWf_countStgs (memWf_upd ?_) _
    split
    · exact memWf_sendTo (memWf_performPath ht ..) ..
    · exact memWf_performPath ht ..

theorem memWf_fence (f : BitVec 2) : okAll MemWf (s.fence f) = true := by
  unfold State.fence
  refine okAll_bind_state (memWf_release h) fun _ ht => okAll_bind_any fun _ => ?_
  split
  · exact memWf_flushStgs ht ..
  · exact ht

theorem memWf_ownFirstAll (n : Nat) (xs : List Loc) : okAll MemWf (s.ownFirstAll n xs) = true := by
  induction xs generalizing s n with
  | nil => exact h
  | cons x xs ih =>
    unfold State.ownFirstAll
    exact okAll_bind_state (memWf_ownFirst h ..) fun _ ht => ih ht _

theorem memWf_lqRow (d a b : Reg) (c : CapIx) (k : BitVec 4) : okAll MemWf (s.lqRow d a b c k) = true := by
  unfold State.lqRow
  dsimp only
  split
  · exact h
  · refine okAll_bind_any fun _ => okAll_bind_any fun _ => ?_
    split
    · refine okAll_bind_state (memWf_ownFirstAll h ..) fun _ ht => ?_
      split
      · next hx => exact memWf_modCur _ (memWf_of_eq_fst (memWf_readRow ht ..) hx)
      · rfl
    · exact memWf_modCur _ h

theorem memWf_sqChecks (xs : List (Loc × Nat)) : okAll MemWf (s.sqChecks xs) = true := by
  induction xs generalizing s with
  | nil => exact h
  | cons x xs ih =>
    unfold State.sqChecks
    refine okAll_bind_state (memWf_sage h ..) fun _ _ => ?_
    split
    · grind
    · rfl

theorem memWf_sqRow (d a b : Reg) (c : CapIx) (k : BitVec 4) : okAll MemWf (s.sqRow d a b c k) = true := by
  unfold State.sqRow
  dsimp only
  split
  · exact h
  · refine okAll_bind_any fun _ => okAll_bind_any fun _ => ?_
    split
    · refine okAll_bind_state (memWf_sqChecks h _) fun t ht => memWf_modHere (memWf_modCur _ ht) ?_
      simp [ht]
    · refine okAll_bind_state h fun t ht => memWf_modHere (memWf_modCur _ ht) ?_
      simp [ht]

@[simp] theorem memWf_rowArrives (core slot : Nat) : MemWf (s.rowArrives core slot) = true := by
  unfold State.rowArrives
  dsimp only
  split
  · exact memWf_saveRows (memWf_orKilled (memWf_fillOldest h ..) ..) ..
  · exact memWf_orKilled (memWf_fillOldest h ..) ..

theorem memWf_rangeOp (d a b : Reg) (c : CapIx) (inv : Bool) : okAll MemWf (s.rangeOp d a b c inv) = true := by
  unfold State.rangeOp
  dsimp only
  refine okAll_bind_any fun _ => okAll_bind_any fun _ => okAll_bind_any fun _ => ?_
  split
  · refine okAll_bind_any fun _ => okAll_bind_any fun _ => okAll_bind_any fun _ => okAll_bind_any fun _ => okAll_bind_state (memWf_release
        h) fun t ht => ?_
    split
    · exact memWf_fill ht ..
    · exact memWf_modCluster _ _ ht
  · refine okAll_bind_any fun _ => okAll_bind_any fun _ => okAll_bind_state (memWf_release h) fun t ht => ?_
    split
    · exact memWf_fill ht ..
    · exact memWf_modCluster _ _ ht

theorem memWf_recallLine (line : Nat) : MemWf (s.recallLine line) = true := by
  simp [State.recallLine, h]

@[simp] theorem memWf_cleanLine (line : Nat) : MemWf (s.cleanLine line) = true := by
  unfold State.cleanLine
  dsimp only
  split
  · split
    · exact memWf_withHier h ..
    · exact h
  · exact h

@[simp] theorem memWf_wakeWalker (cl : Nat) : MemWf (s.wakeWalker cl) = true := by
  unfold State.wakeWalker
  refine memWf_foldl (fun _ _ ht => ?_) h _
  split
  · exact memWf_wake ht ..
  · exact ht

@[simp] theorem memWf_writeEntry (l : Launch) (index : Nat) (place : Loc) (base limit : Nat) (rights : BitVec 6) :
    MemWf (s.writeEntry l index place base limit rights) = true := by
  simp [State.writeEntry, h]

@[simp] theorem memWf_loadCaps (core : Nat) (l : Launch) (xs : List Nat) : MemWf (s.loadCaps core l xs).1 = true := by
  induction xs generalizing s core l with
  | nil => exact h
  | cons x xs ih =>
    unfold State.loadCaps
    dsimp only
    split
    · next hx => exact ih (memWf_touchLines (memWf_of_eq_fst (memWf_xlateNow h ..) hx) ..) ..
    · next hx => exact ih (memWf_of_eq_fst (memWf_xlateNow h ..) hx) ..

theorem memWf_cld (a : Reg) (c : CapIx) : okAll MemWf (s.cld a c) = true := by
  unfold State.cld
  dsimp only
  refine okAll_bind_any fun _ => okAll_bind_any fun _ => okAll_bind_state (memWf_atHome h ..) fun _ ht => ?_
  split
  · split
    · rfl
    · exact memWf_modCur _ ht
  · exact ht

theorem memWf_cst (a : Reg) (c : CapIx) : okAll MemWf (s.cst a c) = true := by
  unfold State.cst
  dsimp only
  refine okAll_bind_any fun _ => okAll_bind_any fun _ => ?_
  split
  · exact memWf_replyWith (memWf_writeEntry h ..) _
  · exact h

theorem memWf_cnar (d a b : Reg) (c : CapIx) : okAll MemWf (s.cnar d a b c) = true := by
  unfold State.cnar
  dsimp only
  exact okAll_bind_any fun _ => memWf_modCur _ h

theorem memWf_cgive (a : Reg) (c : CapIx) : okAll MemWf (s.cgive a c) = true := by
  unfold State.cgive
  dsimp only
  refine okAll_bind_any fun _ => okAll_bind_any fun _ => okAll_bind_any fun _ => okAll_bind_any fun _ => okAll_bind_state (memWf_release
      h) fun _ ht => ?_
  split
  · exact ht
  · exact memWf_replyWith (memWf_writeEntry (memWf_writeEntry (memWf_modHere ht (wf_here_lm ht)) ..) ..) _

@[simp] theorem memWf_scramble (core slot : Nat) (moved : Bool) : MemWf (s.scramble core slot moved) = true := by
  simp [State.scramble, h]

@[simp] theorem memWf_resume (core slot : Nat) (l : Launch) (f : Frame) (moved : Bool) : MemWf (s.resume core slot l f moved).1 = true := by
  unfold State.resume
  dsimp only
  exact memWf_modSlot _ _ _ (memWf_frameStrand (memWf_scramble (memWf_loadCaps h ..) ..) ..)

@[simp] theorem memWf_addAt (l : Loc) (n : Word) : MemWf (s.addAt l n) = true := by
  simp [State.addAt, h]

@[simp] theorem memWf_decideInl : MemWf s.decideInl = true := by
  simp [State.decideInl, h]

theorem memWf_spawn (a : Reg) (c : CapIx) (target : Word) (reg : Bool) : okAll MemWf (s.spawn a c target reg) = true := by
  unfold State.spawn
  dsimp only
  refine okAll_bind_any fun _ => okAll_bind_any fun _ => okAll_bind_any fun _ => okAll_bind_any fun _ => okAll_bind_any fun _ =>
      okAll_bind_any fun _ => okAll_bind_any fun _ => ?_
  split
  · refine okAll_bind_any fun _ => okAll_bind_any fun _ => okAll_bind_state (memWf_release h) fun t ht => okAll_bind_state (memWf_atHome
        ht ..) fun t' ht' => ?_
    split
    · rfl
    · split
      · refine memWf_modCur _ (memWf_replyWith (memWf_modCur _ (memWf_setReg _ _ ?_)) _)
        split
        · exact memWf_moveStgs (memWf_homeWrite (memWf_openGroup (memWf_addAt ht' ..) ..) ..) ..
        · exact memWf_openGroup (memWf_addAt ht' ..) ..
      · exact memWf_modCur _ (memWf_replyWith (memWf_openGroup (memWf_addAt ht' ..) ..) _)
  · refine okAll_bind_any fun _ => okAll_bind_state (memWf_release h) fun t ht => okAll_bind_state (memWf_atHome ht ..) fun t' ht' => ?_
    split
    · rfl
    · split
      · exact memWf_modCur _ (memWf_replyWith (memWf_modSeat (memWf_moveStgs (memWf_wrLm _ _ _ (memWf_openGroup (memWf_addAt ht' ..) ..))
            ..) ..) _)
      · exact memWf_modCur _ (memWf_replyWith (memWf_openGroup (memWf_addAt ht' ..) ..) _)

theorem memWf_awaitJoin (a : Reg) (c : CapIx) : okAll MemWf (s.awaitJoin a c) = true := by
  unfold State.awaitJoin
  refine okAll_bind_any fun _ => okAll_bind_any fun _ => okAll_bind_any fun _ => ?_
  dsimp only
  split
  · refine okAll_bind_any fun _ => okAll_bind_any fun _ => okAll_bind_any fun _ => okAll_bind_state (memWf_atHome h ..) fun t ht => ?_
    split
    · rfl
    · split
      · exact memWf_replyWith (memWf_awaitDone ht ..) _
      · exact memWf_waitOn ht ..
  · refine okAll_bind_any fun _ => okAll_bind_state (memWf_atHome h ..) fun t ht => ?_
    split
    · rfl
    · split
      · exact memWf_replyWith (memWf_awaitDone ht ..) _
      · exact memWf_waitOn ht ..

@[simp] theorem memWf_freeSlot (core slot : Nat) : MemWf (s.freeSlot core slot) = true := by
  unfold State.freeSlot
  dsimp only
  refine memWf_moveStgs (memWf_modSlot _ _ _ ?_) ..
  split
  · exact memWf_freeOdd (memWf_abortTicket h ..) ..
  · exact memWf_abortTicket h ..

theorem memWf_resumeHere (l : Launch) (place : Loc) (dva : Nat) : okAll MemWf (s.resumeHere l place dva) = true := by
  unfold State.resumeHere
  dsimp only
  split
  · exact memWf_killSlot (memWf_moveStgs (memWf_moveStgs h ..) ..) ..
  · split
    · exact memWf_killSlot (memWf_resume (memWf_moveStgs (memWf_moveStgs h ..) ..) ..) ..
    · exact memWf_modCur _ (memWf_replyWith (memWf_resume (memWf_moveStgs (memWf_moveStgs h ..) ..) ..) _)

theorem memWf_endStrand (join : Option Loc) : okAll MemWf (s.endStrand join) = true := by
  unfold State.endStrand
  extract_lets x poison t
  split
  · rfl
  · have ht : MemWf t = true := by
      cases join with
      | none => exact h
      | some l => exact memWf_addAt h ..
    clear_value t
    split
    · split
      · exact memWf_resumeHere (memWf_setReg _ _ ht) ..
      · exact memWf_freeSlot ht ..
    · split
      · split
        · exact memWf_resumeHere (memWf_modSeat ht ..) ..
        · exact memWf_freeSlot ht ..
      · exact memWf_freeSlot ht ..
    · exact memWf_freeSlot ht ..

/-- The last step of DONE: slot 14 is freed, another strand ends. -/
theorem memWf_freeOrEnd (join : Option Loc) :
    okAll MemWf (if s.curSlot = 14 then .ok (s.freeSlot s.curCore s.curSlot) else s.endStrand join) = true := by
  split
  · exact memWf_freeSlot h ..
  · exact memWf_endStrand h _

/-- DONE once its checks have passed and its join word is translated. -/
theorem memWf_doneChecked (join : Option Loc) :
    okAll MemWf (do
      s.seqEmpty
      let s ← s.release
      let s ← match join with
        | some l => s.atHome l true
        | none => .ok s
      if s.curSlot = 14 then .ok (s.freeSlot s.curCore s.curSlot) else s.endStrand join) = true := by
  refine okAll_bind_any fun _ => okAll_bind_state (memWf_release h) fun t ht => ?_
  cases join with
  | none => exact okAll_bind_state ht fun t' ht' => memWf_freeOrEnd ht' _
  | some l => exact okAll_bind_state (memWf_atHome ht ..) fun t' ht' => memWf_freeOrEnd ht' _

theorem memWf_done : okAll MemWf s.done = true := by
  have joined (c : Prop) [Decidable c] (x y : Except Stop (Option Loc)) {f : Option Loc → Except Stop State}
      (hf : ∀ j, okAll MemWf (f j) = true) : okAll MemWf (if c then x >>= f else y >>= f) = true := by
    split <;> exact okAll_bind_any hf
  unfold State.done
  dsimp only
  refine okAll_bind_any fun _ => okAll_bind_any fun _ => okAll_bind_any fun _ => ?_
  split
  · refine okAll_bind_any fun _ => ?_
    split
    · exact okAll_bind_any fun _ => joined _ _ _ (memWf_doneChecked h)
    · exact joined _ _ _ (memWf_doneChecked h)
  · split
    · exact okAll_bind_any fun _ => joined _ _ _ (memWf_doneChecked h)
    · exact joined _ _ _ (memWf_doneChecked h)

@[simp] theorem memWf_countSent (launch core : Nat) : MemWf (s.countSent launch core) = true := by
  simp [State.countSent, h]

@[simp] theorem memWf_countRecv (launch core : Nat) : MemWf (s.countRecv launch core) = true := by
  simp [State.countRecv, h]

theorem memWf_migrate (a : Reg) : okAll MemWf (s.migrate a) = true := by
  unfold State.migrate
  dsimp only
  refine okAll_bind_any fun _ => okAll_bind_any fun _ => okAll_bind_any fun _ => okAll_bind_any fun _ => okAll_bind_any fun _ =>
      okAll_bind_any fun _ => okAll_bind_any fun _ => okAll_bind_state (memWf_release h) fun _ ht => memWf_parkCur (memWf_moveStgs
      (memWf_upd ?_) ..) _
  split
  · split
    · exact memWf_countSent (memWf_fresh (memWf_migrateGroup (memWf_modCur _ (memWf_splitGang ht ..)) _)) ..
    · exact memWf_sendTo (memWf_countSent (memWf_fresh (memWf_migrateGroup (memWf_modCur _ (memWf_splitGang ht ..)) _)) ..) ..
  · split
    · exact memWf_countSent (memWf_fresh (memWf_migrateGroup (memWf_modCur _ ht) _)) ..
    · exact memWf_sendTo (memWf_countSent (memWf_fresh (memWf_migrateGroup (memWf_modCur _ ht) _)) ..) ..

theorem memWf_gangUp : okAll MemWf s.gangUp = true := by
  unfold State.gangUp
  dsimp only
  refine okAll_bind_any fun _ => okAll_bind_any fun _ => okAll_bind_any fun _ => okAll_bind_any fun _ => ?_
  split
  · exact h
  · exact memWf_modSlot _ _ _ h

theorem memWf_ungangUp : okAll MemWf s.ungangUp = true := by
  unfold State.ungangUp
  refine okAll_bind_any fun _ => ?_
  split
  · exact memWf_splitGang h ..
  · exact h

theorem memWf_sendWord (a b : Reg) (ch : BitVec 2) (h' : BitVec 1) : okAll MemWf (s.sendWord a b ch h') = true := by
  unfold State.sendWord
  exact okAll_bind_any fun _ => memWf_modCur _ h

@[simp] theorem memWf_post (core launch dva : Nat) (ch : BitVec 2) (handler : Bool) (words : List Word) :
    MemWf (s.post core launch dva ch handler words) = true := by
  simp [State.post, h]

theorem memWf_sendLast (a b : Reg) (ch : BitVec 2) (h' : BitVec 1) : okAll MemWf (s.sendLast a b ch h') = true := by
  unfold State.sendLast
  refine okAll_bind_any fun _ => okAll_bind_state (memWf_release h) fun _ ht => ?_
  dsimp only
  exact memWf_replyWith (memWf_post (memWf_modCur _ ht) ..) _

theorem memWf_takePacket (core slot : Nat) (d : Reg) : (s.takePacket core slot d).all MemWf = true := by
  unfold State.takePacket
  dsimp only
  split
  · exact memWf_selfInvalidate _ (memWf_modSlot _ _ _ (memWf_modCore_at _ h (wf_core_lm h _)))
  · rfl

theorem memWf_parkMessage (d : Option Reg) : okAll MemWf (s.parkMessage d) = true := by
  unfold State.parkMessage
  exact okAll_bind_any fun _ => memWf_modHere (memWf_parkCur h _) (wf_here_lm (memWf_parkCur h _))

end

end Sys2Proof.Machine
end

section
/-! Packets, arrivals, contexts that come back, gangs, the decode table and the sequencer (R86, R88, R106, R147, R159). -/
namespace Sys2Proof.Machine

open Sys2Proof

section
variable {s : State} (h : MemWf s = true)
include h

theorem memWf_popMessage (d : Reg) : okAll MemWf (s.popMessage d) = true := by
  unfold State.popMessage
  split
  · next hx => exact memWf_of_some (memWf_takePacket h ..) hx
  · exact memWf_parkMessage h _

theorem memWf_waitMessage : okAll MemWf s.waitMessage = true := by
  unfold State.waitMessage
  split
  · exact h
  · exact memWf_parkMessage h _

@[simp] theorem memWf_serveMessage (core slot : Nat) : MemWf (s.serveMessage core slot) = true := by
  unfold State.serveMessage
  dsimp only
  split
  · split
    · exact memWf_modCore_at _ (memWf_wake h ..) (wf_core_lm (memWf_wake h ..) _)
    · exact h
  · split
    · next hx =>
      exact memWf_modCore_at _ (memWf_wake (all_of_some (memWf_takePacket h ..) hx) ..) (wf_core_lm (memWf_wake (all_of_some
          (memWf_takePacket h ..) hx) ..) _)
    · exact h
  · exact h

@[simp] theorem memWf_serveMessages (core : Nat) : MemWf (s.serveMessages core) = true := by
  unfold State.serveMessages
  dsimp only
  exact memWf_foldl (fun _ _ ht => memWf_serveMessage ht ..) h _

theorem memWf_deliver (p : Packet) : (s.deliver p).all MemWf = true := by
  unfold State.deliver
  dsimp only
  split
  · exact h
  · split
    · exact memWf_serveMessages (memWf_countRecv (memWf_modCore_at _ (memWf_wrLm _ _ _ h) (wf_core_lm (memWf_wrLm _ _ _ h) _)) ..) _
    · rfl

@[simp] theorem memWf_startStrand (core slot : Nat) (l : Launch) (pc : Word) : MemWf (s.startStrand core slot l pc).1 = true := by
  unfold State.startStrand
  dsimp only
  exact memWf_selfInvalidate _ (memWf_modSlot _ _ _ (memWf_modLaunch _ _ (memWf_loadCaps h ..)))

theorem memWf_acceptRecord (r : ArrivalRecord) : (s.acceptRecord r).all MemWf = true := by
  unfold State.acceptRecord
  dsimp only
  split
  · split
    · exact memWf_countRecv (memWf_modCore_at _ (memWf_moveStgs (memWf_wrLoc _ _ _ h) ..) (wf_core_lm (memWf_moveStgs (memWf_wrLoc _ _ _
          h) ..) _)) ..
    · split
      · split
        · next hx =>
          exact memWf_countRecv (memWf_modSeat (memWf_modCore_at _ (memWf_moveStgs (memWf_homeWrite (memWf_of_eq_fst (memWf_xlateNow h ..)
              hx) ..) ..) (wf_core_lm (memWf_moveStgs (memWf_homeWrite (memWf_of_eq_fst (memWf_xlateNow h ..) hx) ..) ..) _)) ..) ..
        · rfl
      · rfl
  · rfl

@[simp] theorem memWf_recordTaken (r : ArrivalRecord) : MemWf (s.recordTaken r) = true := by
  unfold State.recordTaken
  split
  · exact memWf_freeSlot h ..
  · exact h

@[simp] theorem memWf_recordAccepted (core num : Nat) : MemWf (s.recordAccepted core num) = true := by
  unfold State.recordAccepted
  split
  · simp [h]
  · exact h

@[simp] theorem memWf_moveCommands (core slot a b : Nat) : MemWf (s.moveCommands core slot a b) = true := by
  simp [State.moveCommands, h]

@[simp] theorem memWf_lend (core slot : Nat) : MemWf (s.lend core slot) = true := by
  unfold State.lend
  dsimp only
  exact memWf_modSlot _ _ _ (memWf_moveCommands (memWf_moveStgs (memWf_foldl (fun _ _ ht => memWf_taint ht _) (memWf_unitWrite
      (memWf_finishSfu (memWf_fillRows h ..) ..) ..) _) ..) ..)

@[simp] theorem memWf_restoreFault (core slot : Nat) : MemWf (s.restoreFault core slot) = true := by
  simp [State.restoreFault, h]

@[simp] theorem memWf_putContext (was : State) (core slot tag : Nat) (v : VecSave) (launch : Option Nat) (held : Option Sources)
    (place : Loc) (from' : StgOwner) (groups : List Nat) :
    MemWf (s.putContext was core slot tag v launch held place from' groups) = true := by
  unfold State.putContext
  dsimp only
  split
  · refine memWf_killSlot (memWf_moveStgs (memWf_modSlot _ _ _ ?_) ..) ..
    split
    · exact memWf_modSlot _ _ _ (memWf_moveCommands h ..)
    · exact memWf_moveCommands h ..
  · refine memWf_moveStgs (memWf_modSlot _ _ _ ?_) ..
    split
    · exact memWf_modSlot _ _ _ (memWf_moveCommands h ..)
    · exact memWf_moveCommands h ..

theorem memWf_restoreLent (core slot : Nat) : (s.restoreLent core slot).all MemWf = true := by
  unfold State.restoreLent
  dsimp only
  split
  · split
    · rfl
    · exact memWf_putContext (memWf_modSlot _ _ _ (memWf_touchLines h ..)) ..
  · rfl

theorem memWf_exchange (core slot : Nat) : (s.exchange core slot).all MemWf = true := by
  unfold State.exchange
  dsimp only
  split
  · split
    · rfl
    · exact memWf_putContext (memWf_lend (memWf_moveStgs (memWf_touchLines h ..) ..) ..) ..
  · rfl

@[simp] theorem memWf_restoreWoken (core slot : Nat) : MemWf (s.restoreWoken core slot) = true := by
  unfold State.restoreWoken
  dsimp only
  split
  · split
    · exact memWf_getD (memWf_exchange h ..) h
    · exact memWf_restoreFault h ..
  · split
    · exact memWf_getD (memWf_restoreLent h ..) h
    · exact h

@[simp] theorem memWf_takeFrame (core slot : Nat) (l : Launch) (place : Loc) (dva : Nat) :
    MemWf (s.takeFrame core slot l place dva) = true := by
  unfold State.takeFrame
  dsimp only
  split
  · refine memWf_killSlot (memWf_moveStgs (memWf_modSlot _ _ _ ?_) ..) ..
    split
    · exact memWf_lend h ..
    · exact h
  · split
    · split
      · exact memWf_killSlot (memWf_resume (memWf_moveStgs (memWf_modSlot _ _ _ (memWf_lend h ..)) ..) ..) ..
      · exact memWf_selfInvalidate _ (memWf_resume (memWf_moveStgs (memWf_modSlot _ _ _ (memWf_lend h ..)) ..) ..)
    · split
      · exact memWf_killSlot (memWf_resume (memWf_moveStgs (memWf_modSlot _ _ _ h) ..) ..) ..
      · exact memWf_selfInvalidate _ (memWf_resume (memWf_moveStgs (memWf_modSlot _ _ _ h) ..) ..)

@[simp] theorem memWf_takeArrival (core slot : Nat) : MemWf (s.takeArrival core slot) = true := by
  unfold State.takeArrival
  dsimp only
  split
  · exact h
  · split
    · exact h
    · split
      · split
        · split
          · next hx =>
            exact memWf_takeFrame (memWf_touchLines (memWf_modSeat (memWf_modCore_at _ (memWf_of_eq_fst (memWf_xlateNow h ..) hx)
                (wf_core_lm (memWf_of_eq_fst (memWf_xlateNow h ..) hx) _)) ..) ..) ..
          · next hx => exact memWf_of_eq_fst (memWf_xlateNow h ..) hx
        · exact memWf_takeFrame (memWf_modCore_at _ h (wf_core_lm h _)) ..
      · exact h

@[simp] theorem memWf_stealWork (core slot : Nat) : MemWf (s.stealWork core slot) = true := by
  unfold State.stealWork
  dsimp only
  split
  · exact h
  · split
    · exact h
    · split
      · exact h
      · split
        · exact h
        · exact memWf_takeFrame (memWf_modSeat h ..) ..

@[simp] theorem memWf_setPc (v : Word) : MemWf (s.setPc v) = true := by
  simp [State.setPc, h]

@[simp] theorem memWf_branchIf (p : PredIx) (sense : BitVec 1) (target : Word) : MemWf (s.branchIf p sense target) = true := by
  simp [State.branchIf, h]

theorem memWf_jumpReg (d a : Reg) : okAll MemWf (s.jumpReg d a) = true := by
  unfold State.jumpReg
  exact okAll_bind_any fun _ => memWf_setPc (memWf_setReg _ _ h) _

theorem memWf_csrRead (d : Reg) (n : BitVec 10) : okAll MemWf (s.csrRead d n) = true := by
  unfold State.csrRead
  split
  · exact memWf_setReg _ _ h
  · rfl

theorem memWf_writeTicket (v : Word) : okAll MemWf (s.writeTicket v) = true := by
  unfold State.writeTicket
  dsimp only
  split
  · exact memWf_modCur _ h
  · split
    · exact okAll_bind_any fun _ => okAll_bind_any fun _ => okAll_bind_state (memWf_atHome h ..) fun _ ht => memWf_replyWith (memWf_modCur
          _ (memWf_serve (memWf_setFull _ _ (memWf_wrLoc _ _ _ (memWf_wrLoc _ _ _ ht))) _)) _
    · split
      · exact okAll_bind_any fun _ => memWf_modCur _ h
      · rfl

theorem memWf_csrWrite (a : Reg) (n : BitVec 10) : okAll MemWf (s.csrWrite a n) = true := by
  unfold State.csrWrite
  dsimp only
  split
  · exact memWf_modCur _ h
  · exact memWf_modCur _ h
  · exact memWf_writeTicket h _
  · exact memWf_modCur _ h
  · exact okAll_bind_any fun _ => memWf_modLaunch _ _ h
  · exact okAll_bind_any fun _ => memWf_modHere h (wf_here_lm h)
  · exact memWf_modCur _ h
  · exact okAll_bind_any fun _ => memWf_modCur _ h
  · rfl

theorem memWf_trapReturn : okAll MemWf s.trapReturn = true := by
  unfold State.trapReturn
  dsimp only
  refine okAll_bind_any fun _ => okAll_bind_any fun _ => ?_
  split
  · split
    · rfl
    · exact memWf_modCur _ (memWf_setReg _ _ h)
  · rfl

theorem memWf_yieldTurn : okAll MemWf s.yieldTurn = true := by
  unfold State.yieldTurn
  exact okAll_bind_any fun _ => memWf_modCur _ h

@[simp] theorem memWf_flushAsid (asid : Nat) : MemWf (s.flushAsid asid) = true := by
  simp [State.flushAsid, h]

theorem memWf_asFlush (a : Reg) : okAll MemWf (s.asFlush a) = true := by
  unfold State.asFlush
  exact okAll_bind_any fun _ => memWf_replyWith (memWf_modCur _ (memWf_flushAsid h _)) _

theorem memWf_asBarrier : okAll MemWf s.asBarrier = true := by
  unfold State.asBarrier
  refine okAll_bind_any fun _ => ?_
  split
  · exact h
  · split
    · exact okAll_bind_any fun _ => memWf_parkCur h _
    · exact h

@[simp] theorem memWf_barrierMet (core slot : Nat) : MemWf (s.barrierMet core slot) = true := by
  simp [State.barrierMet, h]

@[simp] theorem memWf_markWoken (core slot tag : Nat) : MemWf (s.markWoken core slot tag) = true := by
  simp [State.markWoken, h]

theorem memWf_wakeContext (a : Reg) : okAll MemWf (s.wakeContext a) = true := by
  unfold State.wakeContext
  dsimp only
  refine okAll_bind_any fun _ => okAll_bind_any fun _ => ?_
  split
  · split
    · split
      · exact memWf_markWoken h ..
      · exact memWf_replyWith (memWf_markWoken h ..) _
    · split
      · exact h
      · exact memWf_replyWith h _
  · split
    · exact memWf_replyWith h _
    · exact memWf_awaitPeer (memWf_sendTo h ..) ..

theorem memWf_almRead (d a : Reg) : okAll MemWf (s.almRead d a) = true := by
  unfold State.almRead
  dsimp only
  exact okAll_bind_any fun _ => memWf_setReg _ _ h

theorem memWf_almWrite (a b : Reg) : okAll MemWf (s.almWrite a b) = true := by
  unfold State.almWrite
  dsimp only
  exact okAll_bind_any fun _ => okAll_bind_any fun _ => okAll_bind_any fun _ => okAll_bind_any fun _ => okAll_bind_any fun _ =>
      memWf_modHere h (wf_here_lm h)

theorem memWf_tableRead (d a : Reg) : okAll MemWf (s.tableRead d a) = true := by
  unfold State.tableRead
  dsimp only
  exact okAll_bind_any fun _ => okAll_bind_any fun _ => memWf_setReg _ _ h

theorem memWf_tableWrite (a b : Reg) : okAll MemWf (s.tableWrite a b) = true := by
  unfold State.tableWrite
  dsimp only
  refine okAll_bind_any fun _ => okAll_bind_any fun _ => okAll_bind_any fun _ => memWf_modHere (memWf_modCur _ h) ?_
  simp [h]

omit h in
theorem nextAll_handEntry (g : PredIx) (op : Instr) (x y : Word) {s : State} (h : MemWf s = true) :
    nextAll (handEntry g op x y s) = true := by
  unfold handEntry
  split
  · exact memWf_modCur _ h
  · exact h

omit h in
theorem nextAll_handScalar (g : PredIx) (op : Instr) (x y : Word) {s : State} (h : MemWf s = true) :
    nextAll (handScalar g op x y s) = true := by
  unfold handScalar
  split
  · exact memWf_modCur _ h
  · exact h

theorem memWf_markRun (a : Reg) (n : BitVec 4) : okAll MemWf (s.markRun a n) = true := by
  unfold State.markRun
  exact okAll_bind_any fun _ => memWf_modCur _ h

theorem memWf_claim (d a : Reg) : okAll MemWf (s.claim d a) = true := by
  unfold State.claim
  refine okAll_bind_any fun _ => ?_
  dsimp only
  exact memWf_setReg _ _ (memWf_modCur _ h)

theorem memWf_shrink (a : Reg) : okAll MemWf (s.shrink a) = true := by
  unfold State.shrink
  exact okAll_bind_any fun _ => memWf_modCur _ h

theorem memWf_vallot (d a : Reg) : okAll MemWf (s.vallot d a) = true := by
  unfold State.vallot
  refine okAll_bind_any fun _ => ?_
  dsimp only
  exact memWf_setReg _ _ (memWf_modCur _ h)

@[simp] theorem memWf_countLanes (core slot : Nat) : MemWf (s.countLanes core slot) = true := by
  unfold State.countLanes
  split
  · exact memWf_modLaunch _ _ h
  · exact h

theorem memWf_sendSfu (core slot : Nat) (e : SeqEntry) : (s.sendSfu core slot e).all MemWf = true := by
  unfold State.sendSfu
  dsimp only
  split
  · split
    · refine memWf_modCore_at _ (memWf_modCluster _ _ h) ?_
      simp [h]
    · rfl
  · rfl

theorem memWf_sequencerTurn (core slot : Nat) : (s.sequencerTurn core slot).all MemWf = true := by
  unfold State.sequencerTurn
  dsimp only
  split
  · rfl
  · split
    · exact memWf_killSlot h ..
    · split
      · rfl
      · split
        · split
          · rfl
          · exact all_map_state (memWf_sendSfu h ..) fun _ ht => memWf_countLanes ht ..
        · exact all_map_core (wf_stepEntry (wf_core_lm h _) _) fun _ ht => memWf_renegotiate (memWf_setCore_at _ h ht) ..
        · exact all_map_core (wf_stepEntry (wf_core_lm h _) _) fun _ ht => memWf_countLanes (memWf_setCore_at _ h ht) ..

end

end Sys2Proof.Machine
end

section
/-! Matrix and copy engines, and the formulas of trees (R166, R169, R172, R200). -/
namespace Sys2Proof.Machine

open Sys2Proof

section
variable {s : State} (h : MemWf s = true)
include h

theorem memWf_pushMat (a : Reg) : okAll MemWf (s.pushMat a) = true := by
  unfold State.pushMat
  refine okAll_bind_any fun _ => okAll_bind_any fun _ => okAll_bind_any fun _ => okAll_bind_any fun _ => okAll_bind_any fun _ =>
      okAll_bind_state (memWf_release h) fun _ ht => ?_
  dsimp only
  exact memWf_modCur _ ht

theorem memWf_pushCopy (a : Reg) : okAll MemWf (s.pushCopy a) = true := by
  unfold State.pushCopy
  refine okAll_bind_any fun _ => okAll_bind_any fun _ => ?_
  dsimp only
  split
  · refine okAll_bind_any fun _ => ?_
    split
    · exact okAll_bind_any fun _ => okAll_bind_any fun _ => okAll_bind_any fun _ => okAll_bind_any fun _ => okAll_bind_state
          (memWf_release h) fun t ht => memWf_modHere (memWf_modCur _ ht) (wf_here_lm (memWf_modCur _ ht))
    · split
      · exact okAll_bind_any fun _ => okAll_bind_any fun _ => okAll_bind_any fun _ => okAll_bind_any fun _ => okAll_bind_any fun _ =>
            okAll_bind_state (memWf_release h) fun t ht => memWf_modHere (memWf_modCur _ ht) (wf_here_lm (memWf_modCur _ ht))
      · exact okAll_bind_any fun _ => okAll_bind_any fun _ => okAll_bind_any fun _ => okAll_bind_any fun _ => okAll_bind_state
            (memWf_release h) fun t ht => memWf_modHere (memWf_modCur _ ht) (wf_here_lm (memWf_modCur _ ht))
  · refine okAll_bind_any fun _ => okAll_bind_any fun _ => ?_
    split
    · exact okAll_bind_any fun _ => okAll_bind_any fun _ => okAll_bind_any fun _ => okAll_bind_any fun _ => okAll_bind_state
          (memWf_release h) fun t ht => memWf_modHere (memWf_modCur _ ht) (wf_here_lm (memWf_modCur _ ht))
    · split
      · exact okAll_bind_any fun _ => okAll_bind_any fun _ => okAll_bind_any fun _ => okAll_bind_any fun _ => okAll_bind_any fun _ =>
            okAll_bind_state (memWf_release h) fun t ht => memWf_modHere (memWf_modCur _ ht) (wf_here_lm (memWf_modCur _ ht))
      · exact okAll_bind_any fun _ => okAll_bind_any fun _ => okAll_bind_any fun _ => okAll_bind_any fun _ => okAll_bind_state
            (memWf_release h) fun t ht => memWf_modHere (memWf_modCur _ ht) (wf_here_lm (memWf_modCur _ ht))

theorem memWf_popResult (d : Reg) (copy : Bool) : okAll MemWf (s.popResult d copy) = true := by
  unfold State.popResult
  dsimp only
  split
  · exact memWf_selfInvalidate _ (memWf_setReg _ _ (memWf_modCur _ h))
  · exact okAll_bind_any fun _ => rfl

theorem memWf_ringset (d a b : Reg) (fmt : BitVec 4) : okAll MemWf (s.ringset d a b fmt) = true := by
  unfold State.ringset
  dsimp only
  refine okAll_bind_any fun _ => okAll_bind_any fun _ => ?_
  split
  · rfl
  · refine okAll_bind_any fun _ => okAll_bind_any fun _ => memWf_modHere h ?_
    dsimp only
    split
    · simp [h]
    · simp [h]

theorem memWf_mma (d a b : Reg) (c : CapIx) (z : BitVec 1) : okAll MemWf (s.mma d a b c z) = true := by
  unfold State.mma
  dsimp only
  refine okAll_bind_any fun _ => okAll_bind_any fun _ => okAll_bind_any fun _ => okAll_bind_any fun _ => ?_
  split
  · rfl
  · exact memWf_parkCur (memWf_modCur _ h) _

@[simp] theorem memWf_readBytes (core asid launch : Nat) (xs : List Nat) : MemWf (s.readBytes core asid launch xs).1 = true := by
  induction xs generalizing s core asid launch with
  | nil => exact h
  | cons x xs ih =>
    unfold State.readBytes
    dsimp only
    split
    · exact h
    · next hx => exact memWf_of_some_fst (memWf_xlateOr h ..) hx
    · next hx =>
      split
      · exact memWf_l2Access (memWf_of_some_fst (memWf_xlateOr h ..) hx) ..
      · split
        · next hx' => exact memWf_of_eq_fst (ih (memWf_l2Access (memWf_of_some_fst (memWf_xlateOr h ..) hx) ..) ..) hx'
        · next hx' => exact memWf_of_eq_fst (ih (memWf_l2Access (memWf_of_some_fst (memWf_xlateOr h ..) hx) ..) ..) hx'

@[simp] theorem memWf_setOp (core slot : Nat) (m : Option MatOp) : MemWf (s.setOp core slot m) = true := by
  simp [State.setOp, h]

@[simp] theorem memWf_wakeEngine (core slot : Nat) (copy : Bool) : MemWf (s.wakeEngine core slot copy) = true := by
  simp [State.wakeEngine, h]

@[simp] theorem memWf_endMat (core slot : Nat) (m : MatOp) (status : Nat) : MemWf (s.endMat core slot m status) = true := by
  unfold State.endMat
  dsimp only
  refine memWf_wakeEngine ?_ ..
  split
  · split
    · exact memWf_wake (memWf_setOp h ..) ..
    · exact memWf_setOp h ..
  · exact memWf_modCore_at _ (memWf_setOp h ..) (wf_core_lm (memWf_setOp h ..) _)

@[simp] theorem memWf_commandPoison (core slot launch dva : Nat) : MemWf (s.commandPoison core slot launch dva) = true := by
  simp [State.commandPoison, h]

@[simp] theorem memWf_opPoison (core slot : Nat) (m : MatOp) (dva : Nat) : MemWf (s.opPoison core slot m dva) = true := by
  simp [State.opPoison, h]

@[simp] theorem memWf_readScales (core slot : Nat) (m : MatOp) : MemWf (s.readScales core slot m).1 = true := by
  unfold State.readScales
  dsimp only
  split
  · exact h
  · split
    · next hx => exact memWf_of_eq_fst (memWf_readBytes h ..) hx
    · next hx => exact memWf_of_eq_fst (memWf_readBytes h ..) hx
    · next hx => exact memWf_opPoison (memWf_of_eq_fst (memWf_readBytes h ..) hx) ..
    · next hx =>
      split
      · exact memWf_faultSlot (memWf_of_eq_fst (memWf_readBytes h ..) hx) ..
      · exact memWf_endMat (memWf_faultRecord (memWf_of_eq_fst (memWf_readBytes h ..) hx) ..) ..

@[simp] theorem memWf_matStep (core slot : Nat) : MemWf (s.matStep core slot) = true := by
  unfold State.matStep
  split
  · exact h
  · next m _ _ =>
    have hr := memWf_readScales h core slot m
    split
    · exact h
    · split
      · next hx => exact memWf_of_eq_fst hr hx
      · next hx =>
        have ht := memWf_of_eq_fst hr hx
        dsimp only
        split
        · exact memWf_opPoison ht ..
        · split
          · refine memWf_endMat (memWf_modLaunch _ _ (memWf_setCore_at _ ht ?_)) ..
            split <;> exact wf_core_lm ht core
          · refine memWf_setOp (memWf_modLaunch _ _ (memWf_setCore_at _ ht ?_)) ..
            split <;> exact wf_core_lm ht core

theorem memWf_mmaeBy {put : State → Loc → List Byte → State} (hput : ∀ s l bs, MemWf s = true → MemWf (put s l bs) = true) (d a b : Reg)
    (tmask toSq sqIx : BitVec 1) (o r : BitVec 2) :
    okAll MemWf (State.mmaeBy put s d a b tmask toSq sqIx o r) = true := by
  unfold State.mmaeBy
  dsimp only
  refine okAll_bind_any fun _ => okAll_bind_any fun _ => okAll_bind_any fun _ => ?_
  split
  · refine okAll_bind_any fun _ => ?_
    split
    · split
      · exact memWf_modHere (memWf_modHere h (wf_lm_eq (lm_pushRows ..) (wf_here_lm h))) (wf_lm_eq (lm_setRing ..) (wf_here_lm
            (memWf_modHere h (wf_lm_eq (lm_pushRows ..) (wf_here_lm h)))))
      · exact memWf_await (memWf_modHere h (wf_lm_eq (lm_pushRows ..) (wf_here_lm h))) ..
    · split
      · exact memWf_modHere h (wf_lm_eq (lm_pushRows ..) (wf_here_lm h))
      · exact memWf_await (memWf_modHere h (wf_lm_eq (lm_pushRows ..) (wf_here_lm h))) ..
  · refine okAll_bind_any fun _ => okAll_bind_any fun _ => okAll_bind_state (memWf_rowsIn h) fun _ ht => ?_
    split
    · exact memWf_modHere (hput _ _ _ ht) (wf_lm_eq (lm_setRing ..) (wf_here_lm (hput _ _ _ ht)))
    · exact hput _ _ _ ht

theorem memWf_mmae (d a b : Reg) (tmask toSq sqIx : BitVec 1) (o r : BitVec 2) : okAll MemWf (s.mmae d a b tmask toSq sqIx o r) = true := by
  unfold State.mmae
  exact memWf_mmaeBy h (fun _ _ _ ht => memWf_homeWrite ht ..) ..

@[simp] theorem memWf_engineLoc (core : Nat) (r : CopyRun) (dva : Nat) (write : Bool) : MemWf (s.engineLoc core r dva write).1 = true := by
  unfold State.engineLoc
  dsimp only
  split
  · split
    · split
      · exact h
      · exact h
    · split
      · exact h
      · split
        · exact h
        · exact memWf_fresh h
  · split
    · exact h
    · next hx => exact memWf_of_some_fst (memWf_xlateOr h ..) hx
    · next hx => exact memWf_commandPoison (memWf_of_some_fst (memWf_xlateOr h ..) hx) ..
    · next hx => exact memWf_faultRecord (memWf_of_some_fst (memWf_xlateOr h ..) hx) ..

@[simp] theorem memWf_engineRead (core : Nat) (r : CopyRun) (addr n : Nat) : MemWf (s.engineRead core r addr n).1 = true := by
  unfold State.engineRead
  dsimp only
  split
  · next hx =>
    refine memWf_of_eq_fst ?_ hx
    split
    · exact memWf_engineLoc h ..
    · exact h
  · next hx =>
    refine memWf_fresh (memWf_of_eq_fst ?_ hx)
    split
    · exact memWf_engineLoc h ..
    · exact h
  · next hx =>
    dsimp only
    split
    · refine memWf_commandPoison (memWf_l2Access (memWf_of_eq_fst ?_ hx) ..) ..
      split
      · exact memWf_engineLoc h ..
      · exact h
    · refine memWf_l2Access (memWf_of_eq_fst ?_ hx) ..
      split
      · exact memWf_engineLoc h ..
      · exact h

@[simp] theorem memWf_engineBytes (core : Nat) (r : CopyRun) (addr fuel len : Nat) :
    MemWf (s.engineBytes core r addr fuel len).1 = true := by
  induction fuel generalizing s addr len with
  | zero => exact h
  | succ fuel ih =>
    unfold State.engineBytes
    dsimp only
    split
    · exact h
    · split
      · next hx => exact memWf_of_eq_fst (memWf_engineRead h ..) hx
      · next hx =>
        split
        · next hx' => exact memWf_of_eq_fst (ih (memWf_of_eq_fst (memWf_engineRead h ..) hx) ..) hx'
        · next hx' => exact memWf_of_eq_fst (ih (memWf_of_eq_fst (memWf_engineRead h ..) hx) ..) hx'

@[simp] theorem memWf_modRun (core : Nat) (f : CopyRun → CopyRun) : MemWf (s.modRun core f) = true := by
  simp [State.modRun, h]

@[simp] theorem memWf_engineWrite (core : Nat) (r : CopyRun) (l : Loc) (bs : List Byte) (poison : Bool) :
    MemWf (s.engineWrite core r l bs poison) = true := by
  unfold State.engineWrite
  dsimp only
  split
  · exact memWf_sendTo (memWf_modRun (memWf_fresh h) ..) ..
  · exact memWf_coreWrite h ..

@[simp] theorem memWf_engineDest (core : Nat) (r : CopyRun) (addr : Nat) : MemWf (s.engineDest core r addr).1 = true := by
  unfold State.engineDest
  dsimp only
  split
  · exact memWf_engineLoc h ..
  · split
    · exact h
    · exact h

@[simp] theorem memWf_sendUnit (core : Nat) (token : Word) (off : Nat) (bs : List Byte) (poison : Bool) :
    MemWf (s.sendUnit core token off bs poison) = true := by
  unfold State.sendUnit
  dsimp only
  split
  · exact memWf_modRun (memWf_upd (memWf_fresh h)) ..
  · split
    · exact memWf_sendTo (memWf_modRun (memWf_fresh h) ..) ..
    · exact memWf_modRun (memWf_fresh h) ..

@[simp] theorem memWf_copyPiece (core : Nat) (r : CopyRun) (row pos : Nat) : MemWf (s.copyPiece core r row pos).1 = true := by
  unfold State.copyPiece
  dsimp only
  split
  · split
    · next hx => exact memWf_of_eq_fst (memWf_engineBytes h ..) hx
    · next hx => exact memWf_sendUnit (memWf_of_eq_fst (memWf_engineBytes h ..) hx) ..
  · split
    · next hx => exact memWf_of_eq_fst (memWf_engineBytes h ..) hx
    · next hx =>
      split
      · next hx' => exact memWf_of_eq_fst (memWf_engineDest (memWf_of_eq_fst (memWf_engineBytes h ..) hx) ..) hx'
      · next hx' => exact memWf_engineWrite (memWf_of_eq_fst (memWf_engineDest (memWf_of_eq_fst (memWf_engineBytes h ..) hx) ..) hx') ..

@[simp] theorem memWf_copyFrom (core : Nat) (r : CopyRun) (row pos n : Nat) : MemWf (s.copyFrom core r row pos n).1 = true := by
  induction n generalizing s core r row pos with
  | zero => exact h
  | succ n ih =>
    unfold State.copyFrom
    split
    · exact h
    · split
      · exact ih h ..
      · split
        · next hx => exact memWf_of_eq_fst (memWf_copyPiece h ..) hx
        · next hx => exact memWf_of_eq_fst (memWf_copyPiece h ..) hx
        · next hx => exact memWf_of_eq_fst (memWf_copyPiece h ..) hx
        · next hx => exact ih (memWf_of_eq_fst (memWf_copyPiece h ..) hx) ..

@[simp] theorem memWf_pump (core n : Nat) : MemWf (s.pump core n) = true := by
  induction n generalizing s core with
  | zero => exact h
  | succ n ih =>
    unfold State.pump
    dsimp only
    split
    · exact h
    · split
      · exact h
      · split
        · exact memWf_modRun h ..
        · split
          · next hx => exact memWf_of_eq_fst (memWf_engineBytes h ..) hx
          · next hx => exact memWf_modRun (memWf_of_eq_fst (memWf_engineBytes h ..) hx) ..
          · next hx => exact ih (memWf_modRun (memWf_upd (memWf_of_eq_fst (memWf_engineBytes h ..) hx)) ..) _

@[simp] theorem memWf_goOnCopy (core : Nat) : MemWf (s.goOnCopy core) = true := by
  unfold State.goOnCopy
  dsimp only
  split
  · exact h
  · split
    · exact memWf_pump h ..
    · split
      · exact h
      · split
        · next hx => exact memWf_modRun (memWf_of_eq_fst (memWf_copyFrom h ..) hx) ..
        · next hx => exact memWf_modRun (memWf_of_eq_fst (memWf_copyFrom h ..) hx) ..
        · next hx => exact memWf_modRun (memWf_of_eq_fst (memWf_copyFrom h ..) hx) ..

@[simp] theorem memWf_startCopy (core : Nat) : MemWf (s.startCopy core) = true := by
  unfold State.startCopy
  dsimp only
  split
  · exact memWf_goOnCopy h _
  · split
    · refine memWf_modRun (memWf_wakeEngine (memWf_modCore_at _ h ?_) ..) ..
      dsimp only
      simp [h]
    · refine memWf_goOnCopy (memWf_wakeEngine (memWf_modCore_at _ h ?_) ..) _
      dsimp only
      simp [h]
  · exact h

@[simp] theorem memWf_lentWord (core slot : Nat) (copy : Bool) (w : Word) : MemWf (s.lentWord core slot copy w) = true := by
  simp [State.lentWord, h]

@[simp] theorem memWf_deliverWord (core : Nat) (e : EndedCmd) (killed : Bool) : MemWf (s.deliverWord core e killed) = true := by
  unfold State.deliverWord
  dsimp only
  split
  · split
    · exact h
    · split
      · split
        · exact memWf_lentWord h ..
        · exact h
      · exact memWf_modSlot _ _ _ h
  · exact memWf_post h ..
  · split
    · exact memWf_sendTo h ..
    · exact memWf_fill h ..
    · exact h
  · exact h

@[simp] theorem memWf_complete (core : Nat) : MemWf (s.complete core) = true := by
  unfold State.complete
  dsimp only
  split
  · split
    · exact memWf_wrLm _ _ _ (memWf_deliverWord (memWf_modCore_at _ h (wf_core_lm h _)) ..)
    · exact memWf_deliverWord (memWf_modCore_at _ h (wf_core_lm h _)) ..
  · split
    · exact h
    · split
      · exact h
      · split
        · split
          · refine memWf_wrLm _ _ _ (memWf_deliverWord (memWf_modCore_at _ h ?_) ..)
            simp [h]
          · refine memWf_deliverWord (memWf_modCore_at _ h ?_) ..
            simp [h]
        · split
          · exact memWf_wrLm _ _ _ (memWf_deliverWord (memWf_modCore_at _ h (wf_core_lm h _)) ..)
          · exact memWf_deliverWord (memWf_modCore_at _ h (wf_core_lm h _)) ..

@[simp] theorem memWf_pumpAll : MemWf s.pumpAll = true := by
  unfold State.pumpAll
  refine memWf_foldl (fun _ _ ht => ?_) h _
  split
  · split
    · exact memWf_pump ht ..
    · exact ht
  · exact ht

@[simp] theorem memWf_drainPiece (core : Nat) : MemWf (s.drainPiece core) = true := by
  unfold State.drainPiece
  dsimp only
  split
  · exact h
  · split
    · exact h
    · split
      · refine memWf_pumpAll (memWf_modRun (memWf_upd ?_) ..)
        split
        · exact memWf_homeWrite h ..
        · exact memWf_modRun h ..
      · refine memWf_upd ?_
        split
        · exact memWf_homeWrite h ..
        · exact memWf_modRun h ..

@[simp] theorem memWf_putWord (core : Nat) (l : Loc) (v : Word) : MemWf (s.putWord core l v) = true := by
  simp [State.putWord, h]

@[simp] theorem memWf_putHdr (core : Nat) (l : Loc) (word lo len v : Nat) : MemWf (s.putHdr core l word lo len v) = true := by
  simp [State.putHdr, h]

@[simp] theorem memWf_putEdge (core : Nat) (l : Loc) (e word lo len v : Nat) : MemWf (s.putEdge core l e word lo len v) = true := by
  simp [State.putEdge, h]

@[simp] theorem memWf_touchNode (core : Nat) (l : Loc) : MemWf (s.touchNode core l) = true := by
  unfold State.touchNode
  dsimp only
  exact memWf_touchLines (memWf_recallFor h ..) ..

@[simp] theorem memWf_answerStatus (d : Reg) (st : Nat) : MemWf (s.answerStatus d st) = true := by
  simp [State.answerStatus, h]

theorem memWf_loadFormula (a : Reg) (c : CapIx) (f : BitVec 4) : okAll MemWf (s.loadFormula a c f) = true := by
  unfold State.loadFormula
  dsimp only
  refine okAll_bind_any fun _ => okAll_bind_any fun _ => okAll_bind_any fun _ => okAll_bind_any fun _ => okAll_bind_state (okAll_foldlM
      (fun t _ ht => memWf_atHome ht ..) h _) fun t ht => okAll_bind_any fun _ => ?_
  split
  · rfl
  · exact memWf_replyWith (memWf_upd ht) _

@[simp] theorem memWf_descended (d : Reg) (child : Word) (status : Nat) : MemWf (s.descended d child status) = true := by
  simp [State.descended, h]

@[simp] theorem memWf_chooseEdge (r : Word) (node : Option Loc) (minor : BitVec 4) : MemWf (s.chooseEdge r node minor).1 = true := by
  unfold State.chooseEdge
  dsimp only
  split
  · exact h
  · exact h
  · split
    · exact h
    · split
      · exact h
      · split
        · exact h
        · split
          · exact h
          · split
            · exact h
            · exact memWf_putHdr (memWf_putEdge h ..) ..

theorem memWf_descend (d a : Reg) (minor : BitVec 4) : okAll MemWf (s.descend d a minor) = true := by
  unfold State.descend
  dsimp only
  split
  · exact memWf_descended h ..
  · refine okAll_bind_any fun _ => okAll_bind_any fun _ => okAll_bind_state (memWf_rowsIn h) fun _ ht => okAll_bind_any fun _ => ?_
    split
    · exact memWf_descended (memWf_recallFor ht ..) ..
    · split
      · exact memWf_descended (memWf_recallFor ht ..) ..
      · refine okAll_bind_any fun _ => ?_
        split
        · next hx =>
          refine memWf_descended (memWf_of_eq_fst (memWf_chooseEdge ?_ ..) hx) ..
          split
          · exact memWf_touchNode (memWf_recallFor ht ..) ..
          · exact memWf_recallFor ht ..
        · next hx =>
          refine memWf_descended (memWf_putWord (memWf_putWord (memWf_putWord (memWf_putWord (memWf_of_eq_fst (memWf_chooseEdge ?_ ..) hx)
              ..) ..) ..) ..) ..
          split
          · exact memWf_touchNode (memWf_recallFor ht ..) ..
          · exact memWf_recallFor ht ..

end

end Sys2Proof.Machine
end

section
/-! Tree operations, their jobs and levels, and zones (R205, R213, R220). -/
namespace Sys2Proof.Machine

open Sys2Proof

section
variable {s : State} (h : MemWf s = true)
include h

@[simp] theorem memWf_setXw (core : Nat) (l : Loc) (v : Word) (full : Bool) : MemWf (s.setXw core l v full) = true := by
  unfold State.setXw
  dsimp only
  exact memWf_serve (memWf_setFull _ _ (memWf_wrLoc _ _ _ (memWf_touch _ _ _ _ _ _ h))) _

theorem memWf_ownedNode (r : Word) (words : List Nat) : okAll (MemWf ·.1) (s.ownedNode r words) = true := by
  unfold State.ownedNode
  dsimp only
  split
  · exact h
  · refine okAll_bind_any fun _ => okAll_bind_any fun _ => okAll_bind_state (memWf_rowsIn h) fun _ ht => ?_
    split
    · exact ht
    · refine okAll_bind_any fun _ => ?_
      split
      · exact memWf_recallFor (memWf_recallFor ht ..) ..
      · exact memWf_recallFor (memWf_recallFor ht ..) ..

theorem memWf_expand (d a : Reg) : okAll MemWf (s.expand d a) = true := by
  unfold State.expand
  dsimp only
  refine okAll_bind_pair (memWf_ownedNode h ..) fun _ ht => ?_
  split
  · exact memWf_answerStatus ht ..
  · refine okAll_bind_any fun _ => ?_
    split
    · exact memWf_answerStatus ht ..
    · split
      · exact memWf_answerStatus ht ..
      · split
        · exact memWf_answerStatus ht ..
        · split
          · exact memWf_answerStatus ht ..
          · split
            · exact memWf_answerStatus ht ..
            · exact memWf_answerStatus (memWf_putWord (memWf_setXw (memWf_putHdr ht ..) ..) ..) ..

theorem memWf_fillNode (d a b : Reg) : okAll MemWf (s.fillNode d a b) = true := by
  unfold State.fillNode
  dsimp only
  refine okAll_bind_pair (memWf_ownedNode h ..) fun _ ht => ?_
  split
  · exact memWf_answerStatus ht ..
  · split
    · exact memWf_answerStatus ht ..
    · split
      · exact memWf_answerStatus ht ..
      · refine okAll_bind_any fun _ => ?_
        split
        · exact memWf_answerStatus ht ..
        · split
          · exact memWf_answerStatus ht ..
          · exact okAll_bind_any fun _ => memWf_answerStatus (memWf_putHdr (memWf_putHdr (memWf_homeWrite ht ..) ..) ..) ..

theorem memWf_seal (d a : Reg) : okAll MemWf (s.seal d a) = true := by
  unfold State.seal
  dsimp only
  split
  · refine okAll_bind_any fun _ => okAll_bind_any fun _ => okAll_bind_state (memWf_release h) fun t ht => okAll_bind_pair (memWf_ownedNode
        ht ..) fun _ ht' => ?_
    split
    · exact memWf_answerStatus ht' ..
    · split
      · exact memWf_answerStatus ht' ..
      · exact memWf_answerStatus (memWf_putWord (memWf_setXw (memWf_putHdr ht' ..) ..) ..) ..
  · refine okAll_bind_state (memWf_release h) fun t ht => okAll_bind_pair (memWf_ownedNode ht ..) fun _ ht' => ?_
    split
    · exact memWf_answerStatus ht' ..
    · split
      · exact memWf_answerStatus ht' ..
      · exact memWf_answerStatus (memWf_putWord (memWf_setXw (memWf_putHdr ht' ..) ..) ..) ..

theorem memWf_recycle (d a : Reg) : okAll MemWf (s.recycle d a) = true := by
  unfold State.recycle
  dsimp only
  refine okAll_bind_any fun _ => ?_
  split
  · exact memWf_answerStatus h ..
  · refine okAll_bind_state (memWf_rowsIn h) fun _ ht => okAll_bind_any fun _ => ?_
    split
    · exact memWf_answerStatus (memWf_touchNode ht ..) ..
    · refine okAll_bind_any fun _ => ?_
      split
      · exact memWf_answerStatus (memWf_touchNode ht ..) ..
      · exact memWf_answerStatus (memWf_setXw (memWf_putHdr (memWf_putHdr (memWf_touchNode ht ..) ..) ..) ..) ..

theorem memWf_readRecord (r : WalkRec) (dva : Nat) : okAll MemWf (s.readRecord r dva) = true := by
  unfold State.readRecord
  dsimp only
  refine okAll_bind_any fun _ => ?_
  split
  · exact okAll_bind_any fun _ => memWf_touchRecord (memWf_touchRecord h ..) ..
  · exact memWf_touchRecord h ..

@[simp] theorem memWf_dropTicket (dva : Nat) : MemWf (s.dropTicket dva) = true := by
  simp [State.dropTicket, h]

theorem memWf_backUp (a b : Reg) (c : CapIx) (alt : BitVec 1) : okAll MemWf (s.backUp a b c alt) = true := by
  unfold State.backUp
  refine okAll_bind_any fun _ => ?_
  dsimp only
  refine okAll_bind_state (memWf_release h) fun _ ht => okAll_bind_state (memWf_readRecord ht ..) fun _ ht' => memWf_replyWith
      (memWf_dropTicket ?_ _) _
  split
  · exact memWf_upd (memWf_setWalkState ht' ..)
  · exact ht'

theorem memWf_abortWalk (d a : Reg) (c : CapIx) : okAll MemWf (s.abortWalk d a c) = true := by
  unfold State.abortWalk
  refine okAll_bind_any fun _ => ?_
  dsimp only
  exact okAll_bind_state (memWf_release h) fun _ ht => okAll_bind_state (memWf_readRecord ht ..) fun _ ht' => memWf_answerStatus
      (memWf_dropTicket (memWf_acceptAbort ht' ..) _) ..

@[simp] theorem memWf_setStatusBit (core slot n : Nat) : MemWf (s.setStatusBit core slot n) = true := by
  simp [State.setStatusBit, h]

@[simp] theorem memWf_unmark (core slot : Nat) (l : Loc) (e : Nat) : MemWf (s.unmark core slot l e).1 = true := by
  unfold State.unmark
  dsimp only
  split
  · exact memWf_setStatusBit (memWf_putHdr (memWf_putHdr (memWf_putEdge h ..) ..) ..) ..
  · exact memWf_putHdr (memWf_putEdge h ..) ..

@[simp] theorem memWf_addQ32 (core : Nat) (l : Loc) (x : ℤ) : MemWf (s.addQ32 core l x) = true := by
  simp [State.addQ32, h]

@[simp] theorem memWf_levelNode (j : TreeJob) (r : Word) (e : Option Nat) : MemWf (s.levelNode j r e).1 = true := by
  unfold State.levelNode
  dsimp only
  split
  · exact h
  · split
    · exact h
    · next hx => exact memWf_of_some_fst (memWf_xlateOr h ..) hx
    · next hx => exact memWf_faultRecord (memWf_of_some_fst (memWf_xlateOr h ..) hx) ..
    · next hx =>
      split
      · exact memWf_foldl (fun t _ ht => memWf_recallFor ht ..) (memWf_of_some_fst (memWf_xlateOr h ..) hx) _
      · split
        · split
          · split
            · exact memWf_foldl (fun t _ ht => memWf_recallFor ht ..) (memWf_of_some_fst (memWf_xlateOr h ..) hx) _
            · split
              · exact memWf_foldl (fun t _ ht => memWf_recallFor ht ..) (memWf_of_some_fst (memWf_xlateOr h ..) hx) _
              · exact memWf_foldl (fun t _ ht => memWf_recallFor ht ..) (memWf_of_some_fst (memWf_xlateOr h ..) hx) _
          · split
            · exact memWf_foldl (fun t _ ht => memWf_recallFor ht ..) (memWf_of_some_fst (memWf_xlateOr h ..) hx) _
            · split
              · exact memWf_foldl (fun t _ ht => memWf_recallFor ht ..) (memWf_of_some_fst (memWf_xlateOr h ..) hx) _
              · exact memWf_foldl (fun t _ ht => memWf_recallFor ht ..) (memWf_of_some_fst (memWf_xlateOr h ..) hx) _
        · split
          · exact memWf_foldl (fun t _ ht => memWf_recallFor ht ..) (memWf_of_some_fst (memWf_xlateOr h ..) hx) _
          · split
            · exact memWf_foldl (fun t _ ht => memWf_recallFor ht ..) (memWf_of_some_fst (memWf_xlateOr h ..) hx) _
            · exact memWf_foldl (fun t _ ht => memWf_recallFor ht ..) (memWf_of_some_fst (memWf_xlateOr h ..) hx) _

@[simp] theorem memWf_backLevel (j : TreeJob) (l : Loc) (e : Option Nat) : MemWf (s.backLevel j l e).1 = true := by
  unfold State.backLevel
  dsimp only
  refine memWf_addQ32 (memWf_putHdr ?_ ..) ..
  split
  · exact memWf_unmark (memWf_addQ32 (memWf_putEdge h ..) ..) ..
  · exact h

@[simp] theorem memWf_jobPoison (j : TreeJob) (dva : Nat) : MemWf (s.jobPoison j dva) = true := by
  simp [State.jobPoison, h]

@[simp] theorem memWf_runLevel (j : TreeJob) (r : Word) (e : Option Nat) (rest : List (Word × Option Nat)) :
    MemWf (s.runLevel j r e rest).1 = true := by
  unfold State.runLevel
  dsimp only
  split
  · next hx =>
    dsimp only
    split
    · exact memWf_unmark (memWf_of_eq_fst (memWf_levelNode h ..) hx) ..
    · exact memWf_of_eq_fst (memWf_levelNode h ..) hx
    · exact memWf_backLevel (memWf_of_eq_fst (memWf_levelNode h ..) hx) ..
  · next hx => exact memWf_of_eq_fst (memWf_levelNode h ..) hx
  · next hx => exact memWf_jobPoison (memWf_of_eq_fst (memWf_levelNode h ..) hx) ..
  · next hx => exact memWf_of_eq_fst (memWf_levelNode h ..) hx

@[simp] theorem memWf_fillTicket (j : TreeJob) : MemWf (s.fillTicket j) = true := by
  simp [State.fillTicket, h]

@[simp] theorem memWf_revertNode (j : TreeJob) : MemWf (s.revertNode j).1 = true := by
  unfold State.revertNode
  dsimp only
  split
  · exact memWf_jobPoison (memWf_recallFor h ..) ..
  · split
    · exact memWf_recallFor h ..
    · split
      · exact memWf_recallFor h ..
      · next hx => exact memWf_jobPoison (memWf_of_some_fst (memWf_xlateOr (memWf_recallFor h ..) ..) hx) ..
      · next hx => exact memWf_faultRecord (memWf_of_some_fst (memWf_xlateOr (memWf_recallFor h ..) ..) hx) ..
      · next hx =>
        split
        · exact memWf_jobPoison (memWf_recallFor (memWf_of_some_fst (memWf_xlateOr (memWf_recallFor h ..) ..) hx) ..) ..
        · split
          · exact memWf_setXw (memWf_putHdr (memWf_putHdr (memWf_recallFor (memWf_of_some_fst (memWf_xlateOr (memWf_recallFor h ..) ..)
                hx) ..) ..) ..) ..
          · exact memWf_recallFor (memWf_of_some_fst (memWf_xlateOr (memWf_recallFor h ..) ..) hx) ..

@[simp] theorem memWf_jobReach (n : Nat) (j : TreeJob) : MemWf (s.jobReach n j) = true := by
  simp [State.jobReach, h]

@[simp] theorem memWf_jobStep (n : Nat) (abort : Bool) : MemWf (s.jobStep n abort) = true := by
  unfold State.jobStep
  dsimp only
  split
  · exact h
  · split
    · exact h
    · split
      · exact memWf_jobReach h ..
      · split
        · exact memWf_upd (memWf_runLevel h ..)
        · split
          · next hx =>
            refine memWf_fillTicket (memWf_upd (memWf_of_eq_fst ?_ hx)) _
            split
            · exact memWf_revertNode h _
            · exact h
          · next hx =>
            refine memWf_of_eq_fst ?_ hx
            split
            · exact memWf_revertNode h _
            · exact h

@[simp] theorem memWf_answerTo (w : Who) (d : Reg) (v : Word) : MemWf (s.answerTo w d v) = true := by
  unfold State.answerTo
  split
  · exact memWf_wake h ..
  · exact memWf_answerId h ..

@[simp] theorem memWf_answerWaiters (core : Nat) (p : LzWaiter → Bool) (v : Word) (acquire : Bool) :
    MemWf (s.answerWaiters core p v acquire) = true := by
  unfold State.answerWaiters
  dsimp only
  refine memWf_foldl (fun _ _ ht => ?_) (memWf_modCore_at _ h (wf_core_lm h _)) _
  split
  · exact memWf_selfInvalidate _ (memWf_answerTo ht ..)
  · exact memWf_answerTo ht ..

@[simp] theorem memWf_granted (w : Who) : MemWf (s.granted w) = true := by
  unfold State.granted
  split
  · exact memWf_selfInvalidate _ h
  · exact h

@[simp] theorem memWf_settle (core z k : Nat) (x : LzSlot) : MemWf (s.settle core z k x) = true := by
  unfold State.settle
  dsimp only
  split
  · exact memWf_answerWaiters (memWf_modCore_at _ h (wf_lm_eq (lm_setLz ..) (wf_core_lm h _))) ..
  · exact memWf_modCore_at _ h (wf_lm_eq (lm_setLz ..) (wf_core_lm h _))

@[simp] theorem memWf_reserve (core z k : Nat) (link : Option Nat) : MemWf (s.reserve core z k link).1 = true := by
  simp [State.reserve, h]

@[simp] theorem memWf_serveZone (core z : Nat) : MemWf (s.serveZone core z) = true := by
  unfold State.serveZone
  dsimp only
  split
  · exact memWf_granted (memWf_answerTo (memWf_reserve (memWf_modCore_at _ h (wf_core_lm h _)) ..) ..) _
  · exact h

@[simp] theorem memWf_tryReserve (core z : Nat) (a : LzAsker) (w : Who) (wait : Bool) : MemWf (s.tryReserve core z a w wait).1 = true := by
  unfold State.tryReserve
  dsimp only
  split
  · exact h
  · split
    · exact h
    · split
      · exact memWf_granted (memWf_reserve h ..) _
      · exact h

@[simp] theorem memWf_postAt (core : Nat) (w n : Word) : MemWf (s.postAt core w n).1 = true := by
  unfold State.postAt
  dsimp only
  split
  · exact h
  · split
    · exact h
    · exact memWf_settle h ..

@[simp] theorem memWf_releaseSlot (core z k : Nat) : MemWf (s.releaseSlot core z k) = true := by
  simp [State.releaseSlot, h]

@[simp] theorem memWf_freeAt (core : Nat) (w : Word) : MemWf (s.freeAt core w).1 = true := by
  unfold State.freeAt
  dsimp only
  split
  · exact h
  · exact memWf_serveZone (memWf_answerWaiters (memWf_releaseSlot h ..) ..) ..

@[simp] theorem memWf_answerFrom (core : Nat) (d : Reg) (v : Word) : MemWf (s.answerFrom core d v) = true := by
  simp [State.answerFrom, h]

@[simp] theorem memWf_toZone (dev : Nat) (d : Reg) (op : Instr) (x y noRoute : Word) (o : PeerAccess → PeerAccess) :
    MemWf (s.toZone dev d op x y noRoute o) = true := by
  simp [State.toZone, h]

theorem memWf_lzres (d a : Reg) (wait : Bool) (z : BitVec 2) : okAll MemWf (s.lzres d a wait z) = true := by
  unfold State.lzres
  dsimp only
  refine okAll_bind_any fun _ => ?_
  split
  · exact memWf_toZone h ..
  · split
    · next hx => exact memWf_answerFrom (memWf_of_eq_fst (memWf_tryReserve h ..) hx) ..
    · next hx =>
      exact okAll_bind_any fun _ => memWf_modCore_at _ (memWf_parkCur (memWf_of_eq_fst (memWf_tryReserve h ..) hx) _) (wf_core_lm
          (memWf_parkCur (memWf_of_eq_fst (memWf_tryReserve h ..) hx) _) _)

theorem memWf_lzexp (d a b : Reg) : okAll MemWf (s.lzexp d a b) = true := by
  unfold State.lzexp
  dsimp only
  refine okAll_bind_any fun _ => ?_
  split
  · exact memWf_toZone h ..
  · exact memWf_answerFrom (memWf_postAt h ..) ..

theorem memWf_lzwait (d a : Reg) : okAll MemWf (s.lzwait d a) = true := by
  unfold State.lzwait
  dsimp only
  refine okAll_bind_any fun _ => okAll_bind_any fun _ => ?_
  split
  · exact memWf_setReg _ _ h
  · split
    · exact memWf_selfInvalidate _ (memWf_setReg _ _ h)
    · exact okAll_bind_any fun _ => memWf_modHere (memWf_parkCur h _) (wf_here_lm (memWf_parkCur h _))

theorem memWf_lzfree (d a : Reg) : okAll MemWf (s.lzfree d a) = true := by
  unfold State.lzfree
  dsimp only
  refine okAll_bind_any fun _ => ?_
  split
  · exact memWf_toZone h ..
  · exact memWf_answerFrom (memWf_freeAt h ..) ..

theorem memWf_lzstat (d a : Reg) : okAll MemWf (s.lzstat d a) = true := by
  unfold State.lzstat
  dsimp only
  refine okAll_bind_any fun _ => ?_
  split
  · exact memWf_toZone h ..
  · exact memWf_answerFrom h ..

@[simp] theorem memWf_removeZone (core z : Nat) : MemWf (s.removeZone core z) = true := by
  unfold State.removeZone
  exact memWf_answerWaiters (memWf_modCore_keep _ h fun _ => lm_setZone ..) ..

@[simp] theorem memWf_endZones (core launch : Nat) : MemWf (s.endZones core launch) = true := by
  unfold State.endZones
  refine memWf_foldl (fun _ _ ht => ?_) h _
  dsimp only
  split
  · split
    · refine memWf_removeZone (memWf_foldl (fun _ _ ht' => ?_) ht _) ..
      split
      · exact ht'
      · exact memWf_answerWaiters (memWf_releaseSlot ht' ..) ..
    · exact ht
  · exact ht

theorem memWf_beforeZone : okAll MemWf s.beforeZone = true := by
  unfold State.beforeZone
  exact okAll_bind_state (memWf_release h) fun _ ht => memWf_flushStgs ht ..

theorem memWf_lzcfg (d a : Reg) : okAll MemWf (s.lzcfg d a) = true := by
  unfold State.lzcfg
  dsimp only
  refine okAll_bind_any fun _ => okAll_bind_any fun _ => okAll_bind_any fun _ => ?_
  split
  · refine okAll_bind_state (memWf_beforeZone h) fun t ht => ?_
    split
    · exact memWf_setReg _ _ ht
    · exact memWf_setReg _ _ (memWf_modHere ht (wf_lm_eq (lm_setZone ..) (wf_here_lm ht)))
  · refine okAll_bind_state h fun t ht => ?_
    split
    · exact memWf_setReg _ _ ht
    · exact memWf_setReg _ _ (memWf_removeZone ht ..)

@[simp] theorem memWf_ackUnit (u : LzUnit) (status : Nat) : MemWf (s.ackUnit u status) = true := by
  unfold State.ackUnit
  split
  · exact memWf_modRun h ..
  · exact memWf_tell h ..
  · exact h

@[simp] theorem memWf_dropUnit (core : Nat) : MemWf (s.dropUnit core) = true := by
  simp [State.dropUnit, h]

@[simp] theorem memWf_takeUnit (u : LzUnit) : MemWf (s.takeUnit u) = true := by
  unfold State.takeUnit
  dsimp only
  split
  · exact memWf_ackUnit (memWf_dropUnit h _) ..
  · split
    · exact memWf_ackUnit (memWf_settle (memWf_homeWrite h ..) ..) ..
    · exact memWf_ackUnit (memWf_dropUnit h _) ..

@[simp] theorem memWf_peerZone (link core slot cls hops : Nat) (op : Instr) (x y : Word) (waits : Bool) :
    MemWf (s.peerZone link core slot cls hops op x y waits) = true := by
  unfold State.peerZone
  dsimp only
  split
  · split
    · next hx => exact memWf_answerTo (memWf_of_eq_fst (memWf_tryReserve h ..) hx) ..
    · next hx =>
      split
      · exact memWf_nackTo (memWf_of_eq_fst (memWf_tryReserve h ..) hx) ..
      · exact memWf_tell (memWf_modCore_at _ (memWf_of_eq_fst (memWf_tryReserve h ..) hx) (wf_core_lm (memWf_of_eq_fst (memWf_tryReserve h
            ..) hx) _)) ..
  · exact memWf_answerTo (memWf_postAt h ..) ..
  · exact memWf_answerTo (memWf_freeAt h ..) ..
  · exact memWf_answerTo h ..
  · exact h

@[simp] theorem memWf_modCouple (core slot : Nat) (f : Couple → Couple) : MemWf (s.modCouple core slot f) = true := by
  simp [State.modCouple, h]

@[simp] theorem memWf_absorb (core slot : Nat) : MemWf (s.absorb core slot) = true := by
  simp [State.absorb, h]

theorem memWf_coupleUp : okAll MemWf s.coupleUp = true := by
  unfold State.coupleUp
  dsimp only
  split
  · exact h
  · exact okAll_bind_any fun _ => okAll_bind_any fun _ => memWf_await h ..

@[simp] theorem memWf_startCouple (leader slot : Nat) : MemWf (s.startCouple leader slot) = true := by
  unfold State.startCouple
  dsimp only
  split
  · exact memWf_upd (memWf_modSlot _ _ _ (memWf_modSlot _ _ _ h))
  · exact h

@[simp] theorem memWf_uncoupleUp : MemWf s.uncoupleUp = true := by
  unfold State.uncoupleUp
  dsimp only
  split
  · exact memWf_upd (memWf_modSlot _ _ _ (memWf_modSlot _ _ _ h))
  · exact h

end

end Sys2Proof.Machine
end

section
/-! Coupled strands, links that fail, and the launch unit (R188, R231, R245). -/
namespace Sys2Proof.Machine

open Sys2Proof

section
variable {s : State} (h : MemWf s = true)
include h

@[simp] theorem memWf_toEnd (core slot : Nat) : MemWf (s.toEnd core slot) = true := by
  simp [State.toEnd, h]

@[simp] theorem memWf_settleLead (leader slot : Nat) (trap : Option (Nat × Nat × Bool)) : MemWf (s.settleLead leader slot trap) = true := by
  unfold State.settleLead
  dsimp only
  split
  · exact h
  · split
    · exact memWf_modCouple (memWf_absorb h ..) ..
    · exact h

@[simp] theorem memWf_withBuffer (h' : Half2) : MemWf (s.withBuffer h') = true := by
  unfold State.withBuffer
  refine memWf_foldl (fun _ _ ht => ?_) h _
  split
  · split
    · exact memWf_wrLoc _ _ _ ht
    · exact ht
  · exact ht

@[simp] theorem memWf_overBuffer (h' : Half2) (f : State → State) (hf : ∀ s, MemWf s = true → MemWf (f s) = true) :
    MemWf (s.overBuffer h' f) = true := by
  unfold State.overBuffer
  split
  · exact hf _ h
  · exact memWf_modHere (hf _ (memWf_withBuffer h _)) (wf_here_lm h)

@[simp] theorem memWf_bufferStore (v : VStore) : MemWf (s.bufferStore v) = true := by
  simp [State.bufferStore, h]

theorem memWf_coupledStore (c : CapIx) (off data : Word) : okAll MemWf (s.coupledStore c off data) = true := by
  unfold State.coupledStore
  dsimp only
  split
  · exact okAll_bind_any fun _ => okAll_bind_any fun _ => okAll_bind_state (memWf_sage h ..) fun _ ht => memWf_bufferStore ht _
  · refine okAll_bind_any fun _ => ?_
    split
    · exact okAll_bind_any fun _ => memWf_bufferStore h _
    · exact okAll_bind_any fun _ => memWf_bufferStore h _

theorem memWf_coupledStl (off data : Word) : okAll MemWf (s.coupledStl off data) = true := by
  unfold State.coupledStl
  exact okAll_bind_any fun _ => memWf_bufferStore h _

@[simp] theorem memWf_bufferBytes (l : Loc) (off : Nat) (bs : List Byte) (n : Nat) : MemWf (s.bufferBytes l off bs n) = true := by
  induction n generalizing s l off bs with
  | zero => exact h
  | succ n ih =>
    unfold State.bufferBytes
    dsimp only
    split
    · exact h
    · exact ih (memWf_bufferStore h _) ..

theorem memWf_coupledMmae (d a b : Reg) (tmask toSq sqIx : BitVec 1) (o r : BitVec 2) :
    okAll MemWf (s.coupledMmae d a b tmask toSq sqIx o r) = true := by
  unfold State.coupledMmae
  exact memWf_mmaeBy h (fun _ _ _ ht => memWf_bufferBytes ht ..) ..

theorem memWf_coupledLoad (h' : Half2) (c : CapIx) (off : Word) (d : Reg) : okAll MemWf (s.coupledLoad h' c off d) = true := by
  unfold State.coupledLoad
  refine okAll_bind_any fun _ => ?_
  dsimp only
  split
  · exact okAll_bind_state (memWf_sage h ..) fun _ ht => memWf_replyReg ht ..
  · exact memWf_load h ..

@[simp] theorem memWf_coupledTable (t : State) (g : PredIx) (b : Reg) (ht : MemWf t = true) : MemWf (s.coupledTable t g b) = true := by
  unfold State.coupledTable
  split
  · exact memWf_modCouple (memWf_absorb ht ..) ..
  · exact ht

theorem memWf_finished {r : Except Stop State} (hr : okAll MemWf r = true) : MemWf (s.finished r) = true := by
  unfold State.finished
  have hf := nextAll_finish h hr
  split
  · next hx => exact memWf_of_next hf hx
  · exact h

@[simp] theorem memWf_followLead (c : Couple) : MemWf (s.followLead c) = true := by
  unfold State.followLead
  dsimp only
  split
  · split
    · exact memWf_stop (memWf_modCouple h ..) _
    · exact memWf_stop (memWf_modCouple h ..) _
    · exact memWf_modCur _ (memWf_modCouple h ..)
  · split
    · exact memWf_toEnd (memWf_again h) ..
    · exact memWf_stop h _

theorem memWf_coupledStores (x0 : Instr) : (s.coupledStores x0).all MemWf = true := by
  unfold State.coupledStores
  split
  · exact memWf_finished h (memWf_coupledStore h ..)
  · exact memWf_finished h (memWf_coupledStore h ..)
  · exact memWf_finished h (memWf_coupledStl h ..)
  · exact memWf_finished h (memWf_coupledStl h ..)
  · rfl

@[simp] theorem memWf_leads (f : State → State) (hf : ∀ s, MemWf s = true → MemWf (f s) = true) : MemWf (s.leads f) = true := by
  unfold State.leads
  dsimp only
  split
  · exact memWf_settleLead (hf _ (memWf_modCouple (memWf_absorb h ..) ..)) ..
  · exact memWf_modCouple (hf _ (memWf_modCouple (memWf_absorb h ..) ..)) ..
  · exact memWf_settleLead (hf _ (memWf_modCouple (memWf_absorb h ..) ..)) ..
  · exact memWf_settleLead (hf _ (memWf_modCouple (memWf_absorb h ..) ..)) ..

@[simp] theorem memWf_runCoupled (ex : Instr → State → State) (op : Instr) (hex : ∀ i s, MemWf s = true → MemWf (ex i s) = true) :
    MemWf (s.runCoupled ex op) = true := by
  unfold State.runCoupled
  split
  · exact hex _ _ h
  · extract_lets hf run u
    have hrun (t : State) (ht : MemWf t = true) : MemWf (run t) = true := by
      unfold run
      split
      · exact memWf_finished ht (memWf_coupledLoad ht ..)
      · exact memWf_finished ht (memWf_coupledLoad ht ..)
      · exact memWf_getD (memWf_coupledStores ht _) (hex _ _ ht)
    have hu : MemWf u = true := memWf_settleLead h ..
    clear_value run u
    split
    · exact memWf_overBuffer h _ _ fun t ht => hex _ _ ht
    · exact memWf_overBuffer h _ _ fun t ht => hex _ _ ht
    · exact memWf_overBuffer h _ _ fun t ht => hex _ _ ht
    · exact memWf_coupledTable h _ _ _ (hex _ _ h)
    · split
      · exact memWf_overBuffer h _ _ fun t ht => memWf_finished ht (memWf_coupledMmae ht ..)
      · exact h
    · split
      · exact hrun _ h
      · split
        · exact memWf_leads h _ hrun
        · split
          · dsimp only
            split
            · exact hrun _ (memWf_followLead hu _)
            · exact memWf_followLead hu _
          · exact hu

@[simp] theorem memWf_countPair (core slot : Nat) : MemWf (s.countPair core slot) = true := by
  unfold State.countPair
  dsimp only
  split
  · split
    · exact memWf_toEnd (memWf_modCouple h ..) ..
    · exact memWf_modCouple h ..
  · exact memWf_modCouple h ..

@[simp] theorem memWf_releaseBuffer (core slot : Nat) (h' : Half2) : MemWf (s.releaseBuffer core slot h') = true := by
  unfold State.releaseBuffer
  refine memWf_foldl (fun _ _ ht => ?_) h _
  dsimp only
  split
  · split
    · exact memWf_homeWrite ht ..
    · exact memWf_modCore_at _ ht (wf_lm_eq (lm_enter ..) (wf_core_lm ht _))
  · exact memWf_modCore_at _ ht (wf_lm_eq (lm_enter ..) (wf_core_lm ht _))

@[simp] theorem memWf_endInterval (core slot : Nat) : MemWf (s.endInterval core slot) = true := by
  unfold State.endInterval
  dsimp only
  split
  · exact h
  · split
    · exact memWf_absorb (memWf_absorb (memWf_settleLead h ..) ..) ..
    · split
      · exact memWf_modCouple (memWf_modSlot _ _ _ (memWf_modSlot _ _ _ (memWf_releaseBuffer (memWf_absorb (memWf_absorb (memWf_settleLead
            h ..) ..) ..) ..))) ..
      · split
        · exact memWf_killSlot (memWf_killSlot (memWf_upd (memWf_modSlot _ _ _ (memWf_modSlot _ _ _ (memWf_absorb (memWf_absorb
              (memWf_settleLead h ..) ..) ..)))) ..) ..
        · exact memWf_upd (memWf_modCouple (memWf_modSlot _ _ _ (memWf_modSlot _ _ _ (memWf_absorb (memWf_absorb (memWf_settleLead h ..)
              ..) ..))) ..)

@[simp] theorem memWf_answerPeer (core slot : Nat) (ws : List Word) : MemWf (s.answerPeer core slot ws) = true := by
  simp [State.answerPeer, h]

@[simp] theorem memWf_peerWait (link core slot : Nat) (l : Loc) (dva : Nat) (kind : WaitKind) (waits : Bool) :
    MemWf (s.peerWait link core slot l dva kind waits) = true := by
  unfold State.peerWait
  split
  · exact memWf_nackTo h ..
  · split
    · exact memWf_nackTo h ..
    · split
      · exact memWf_tell (memWf_modCore_at _ h (wf_core_lm h _)) ..
      · exact h

@[simp] theorem memWf_serveAccess (link core slot cls dva : Nat) (op : Instr) (args : List Word) (waits : Bool) :
    MemWf (s.serveAccess link core slot cls dva op args waits) = true := by
  unfold State.serveAccess
  dsimp only
  split
  · split
    · exact h
    · exact memWf_nackTo h ..
  · split
    · dsimp only
      split
      · exact memWf_nackTo h ..
      · exact memWf_answerPeer h ..
    · dsimp only
      split
      · exact memWf_nackTo h ..
      · exact memWf_answerPeer h ..
    · dsimp only
      split
      · split
        · exact memWf_nackTo h ..
        · exact memWf_answerPeer h ..
      · exact memWf_peerWait h ..
    · dsimp only
      split
      · split
        · exact memWf_nackTo h ..
        · exact memWf_serve (memWf_answerPeer (memWf_countTaken (memWf_setFull _ _ h) _) ..) _
      · exact memWf_peerWait h ..
    · exact memWf_answerPeer (memWf_homeWrite h ..) ..
    · split
      · exact memWf_peerWait h ..
      · exact memWf_answerPeer (memWf_fill h ..) ..
    · exact memWf_answerPeer (memWf_fill h ..) ..
    · exact memWf_answerPeer (memWf_serve (memWf_setFull _ _ h) _) ..
    · dsimp only
      split
      · exact memWf_nackTo h ..
      · exact memWf_answerPeer (memWf_homeWrite h ..) ..
    · dsimp only
      split
      · split
        · exact memWf_nackTo h ..
        · refine memWf_answerPeer ?_ ..
          split
          · exact memWf_homeWrite h ..
          · exact h
      · split
        · exact memWf_nackTo h ..
        · refine memWf_answerPeer ?_ ..
          split
          · exact memWf_homeWrite h ..
          · exact h
    · exact h

@[simp] theorem memWf_servePeer (link core slot cls dva : Nat) (op : Instr) (args : List Word) (waits : Bool) :
    MemWf (s.servePeer link core slot cls dva op args waits) = true := by
  unfold State.servePeer
  dsimp only
  split
  · exact memWf_answerPeer (memWf_markWoken h ..) ..
  · exact memWf_serveAccess h ..

@[simp] theorem memWf_peerAnswered (core slot : Nat) (ws : List Word) : MemWf (s.peerAnswered core slot ws) = true := by
  unfold State.peerAnswered
  dsimp only
  split
  · exact h
  · split
    · exact memWf_selfInvalidate _ (memWf_modSlot _ _ _ (memWf_wake h ..))
    · exact memWf_modSlot _ _ _ (memWf_wake h ..)

@[simp] theorem memWf_peerNacked (core slot : Nat) (why : Nack) : MemWf (s.peerNacked core slot why) = true := by
  unfold State.peerNacked
  dsimp only
  split
  · split
    · split
      · split
        · exact memWf_modSlot _ _ _ h
        · exact memWf_takeTrap h ..
      · split
        · exact memWf_modSlot _ _ _ h
        · exact memWf_takeTrap h ..
    · split
      · exact memWf_modSlot _ _ _ h
      · exact memWf_takeTrap h ..
    · exact memWf_killSlot h ..
    · exact memWf_modSlot _ _ _ h
  · exact h

@[simp] theorem memWf_peerWaits (dev core slot : Nat) : MemWf (s.peerWaits dev core slot) = true := by
  simp [State.peerWaits, h]

@[simp] theorem memWf_withdrawn (core slot : Nat) : MemWf (s.withdrawn core slot) = true := by
  simp [State.withdrawn, h]

@[simp] theorem memWf_storeNacked (core : Nat) (why : Nack) : MemWf (s.storeNacked core why) = true := by
  unfold State.storeNacked
  dsimp only
  split
  · exact h
  · split
    · exact memWf_peerNacked (memWf_modCore_at _ h (wf_core_lm h _)) ..
    · exact memWf_modCore_at _ h (wf_core_lm h _)

@[simp] theorem memWf_takeAnswer (core slot : Nat) (ws : List Word) : MemWf (s.takeAnswer core slot ws) = true := by
  simp [State.takeAnswer, h]

@[simp] theorem memWf_takeNack (core slot : Nat) (why : Nack) : MemWf (s.takeNack core slot why) = true := by
  simp [State.takeNack, h]

@[simp] theorem memWf_takeStgAck (x : Stg) : MemWf (s.takeStgAck x) = true := by
  unfold State.takeStgAck
  split
  · exact memWf_ackStg h _
  · exact h

@[simp] theorem memWf_adopt (link core cls : Nat) (f : State → Nat → State) (hf : ∀ s n, MemWf s = true → MemWf (f s n) = true) :
    MemWf (s.adopt link core cls f) = true := by
  unfold State.adopt
  split
  · exact hf _ _ h
  · exact memWf_modLink h ..

@[simp] theorem memWf_loseMsg (link src launch : Nat) : MemWf (s.loseMsg link src launch) = true := by
  simp [State.loseMsg, h]

@[simp] theorem memWf_passOn (link : Nat) (m : LinkMsg) : MemWf (s.passOn link m) = true := by
  unfold State.passOn
  dsimp only
  split
  · exact memWf_sendLink (memWf_upd h) ..
  · split
    · exact memWf_loseMsg (memWf_upd h) ..
    · exact memWf_loseMsg (memWf_upd h) ..
    · split
      · exact memWf_sendTo (memWf_upd h) ..
      · exact memWf_upd h

@[simp] theorem memWf_fromPeer (link : Nat) (m : LinkMsg) : MemWf (s.fromPeer link m) = true := by
  unfold State.fromPeer
  dsimp only
  split
  · exact h
  · split
    · exact memWf_passOn h ..
    · split
      · exact memWf_adopt h _ _ _ _ fun t _ ht => memWf_upd ht
      · exact memWf_adopt h _ _ _ _ fun t _ ht => memWf_upd ht
      · exact memWf_upd h
      · refine memWf_tell ?_ ..
        split
        · exact memWf_homeWrite h ..
        · exact h
      · exact memWf_takeStgAck h _
      · exact memWf_servePeer h ..
      · exact memWf_peerZone h ..
      · exact memWf_takeAnswer h ..
      · exact memWf_takeNack h ..
      · exact memWf_peerWaits h ..
      · exact memWf_withdrawn h ..
      · exact memWf_recordAccepted h ..

@[simp] theorem memWf_sendFlit (link : Nat) : MemWf (s.sendFlit link) = true := by
  unfold State.sendFlit
  dsimp only
  split
  · exact h
  · split
    · exact h
    · split
      · exact h
      · exact memWf_modLink h ..

@[simp] theorem memWf_sendFlits : MemWf s.sendFlits = true := by
  unfold State.sendFlits
  exact memWf_foldl (fun _ _ ht => memWf_sendFlit ht _) h _

@[simp] theorem memWf_carried (link : Nat) : MemWf (s.carried link) = true := by
  simp [State.carried, h]

@[simp] theorem memWf_dropUnits (link : Nat) : MemWf (s.dropUnits link) = true := by
  unfold State.dropUnits
  dsimp only
  exact memWf_foldl (fun _ _ ht => memWf_dropUnit ht _) (memWf_upd h) _

@[simp] theorem memWf_failSlots (core link : Nat) : MemWf (s.failSlots core link) = true := by
  unfold State.failSlots
  refine memWf_foldl (fun _ _ ht => ?_) h _
  split
  · split
    · exact memWf_answerWaiters (memWf_modCore_at _ ht (wf_lm_eq (lm_setLz ..) (wf_core_lm ht _))) ..
    · exact ht
  · exact ht

@[simp] theorem memWf_failSlot (core k link : Nat) : MemWf (s.failSlot core k link) = true := by
  unfold State.failSlot
  dsimp only
  split
  · split
    · exact h
    · split
      · exact memWf_peerAnswered h ..
      · split
        · exact memWf_peerAnswered h ..
        · exact memWf_killSlot h ..
  · exact h

@[simp] theorem memWf_failCore (core link : Nat) : MemWf (s.failCore core link) = true := by
  unfold State.failCore
  dsimp only
  refine memWf_foldl (fun _ _ ht => memWf_failSlot ht ..) ?_ _
  split
  · exact memWf_loseHead (memWf_modCore_at _ (memWf_modRun h ..) (wf_core_lm (memWf_modRun h ..) _)) _
  · exact memWf_modCore_at _ (memWf_modRun h ..) (wf_core_lm (memWf_modRun h ..) _)

@[simp] theorem memWf_resend (link : Nat) (m : LinkMsg) : MemWf (s.resend link m) = true := by
  unfold State.resend
  split
  · split
    · exact memWf_sendTo h ..
    · exact memWf_loseMsg h ..
  · split
    · exact memWf_sendTo h ..
    · exact memWf_loseMsg h ..
  · exact h
  · exact h
  · exact h
  · exact h
  · exact memWf_sendTo h ..

@[simp] theorem memWf_loseForwards (link : Nat) : MemWf (s.loseForwards link) = true := by
  unfold State.loseForwards
  dsimp only
  exact memWf_foldl (fun _ _ ht => memWf_sendTo ht ..) (memWf_upd h) _

@[simp] theorem memWf_dropLink (link : Nat) : MemWf (s.dropLink link) = true := by
  unfold State.dropLink
  dsimp only
  split
  · exact h
  · exact memWf_notify _ _ (memWf_loseForwards (memWf_foldl (fun t _ ht => memWf_resend ht ..) (memWf_upd (memWf_modLink (memWf_foldl (fun
        t _ ht => memWf_ackStg ht _) (memWf_foldl (fun t _ ht => memWf_failCore (memWf_modCore_keep _ (memWf_failSlots ht ..) fun _ =>
        lm_forgetPeer ..) ..) (memWf_dropUnits (memWf_modLink h ..) _) _) _) ..)) _) _)

@[simp] theorem memWf_laneFails (link lane : Nat) : MemWf (s.laneFails link lane) = true := by
  simp [State.laneFails, h]

@[simp] theorem memWf_setQueue (q : Nat) (v : Queue) : MemWf (s.setQueue q v) = true := by
  simp [State.setQueue, h]

@[simp] theorem memWf_xlateUnit (asid dva : Nat) (read write : Bool) : MemWf (s.xlateUnit asid dva read write).1 = true := by
  unfold State.xlateUnit
  split
  · next hx => exact memWf_of_eq_fst (memWf_walk h ..) hx
  · next hx => exact memWf_of_eq_fst (memWf_walk h ..) hx

@[simp] theorem memWf_unitBytes (asid dva fuel n : Nat) : MemWf (s.unitBytes asid dva fuel n).1 = true := by
  induction fuel generalizing s dva n with
  | zero => exact h
  | succ fuel ih =>
    unfold State.unitBytes
    dsimp only
    split
    · exact h
    · split
      · next hx => exact memWf_of_eq_fst (memWf_xlateUnit h ..) hx
      · next hx =>
        split
        · next hx' => exact memWf_of_eq_fst (ih (memWf_touch _ _ _ _ _ _ (memWf_of_eq_fst (memWf_xlateUnit h ..) hx)) ..) hx'
        · next hx' => exact memWf_of_eq_fst (ih (memWf_touch _ _ _ _ _ _ (memWf_of_eq_fst (memWf_xlateUnit h ..) hx)) ..) hx'

@[simp] theorem memWf_unitPut (asid dva : Nat) (bs : List Byte) (poison : Bool) (n : Nat) :
    MemWf (s.unitPut asid dva bs poison n) = true := by
  induction n generalizing s asid dva bs poison with
  | zero => exact h
  | succ n ih =>
    unfold State.unitPut
    dsimp only
    split
    · exact h
    · split
      · next hx => exact ih (memWf_homeWrite (memWf_of_eq_fst (memWf_xlateUnit h ..) hx) ..) ..
      · next hx => exact ih (memWf_of_eq_fst (memWf_xlateUnit h ..) hx) ..

@[simp] theorem memWf_unitBlock (asid dva : Nat) : MemWf (s.unitBlock asid dva).1 = true := by
  unfold State.unitBlock
  split
  · next hx => exact memWf_of_eq_fst (memWf_unitBytes h ..) hx
  · next hx => exact memWf_of_eq_fst (memWf_unitBytes h ..) hx

@[simp] theorem memWf_takeCount (q : Nat) : MemWf (s.takeCount q) = true := by
  unfold State.takeCount
  dsimp only
  split
  · next hx => exact memWf_of_eq_fst (memWf_xlateUnit h ..) hx
  · next hx =>
    split
    · exact memWf_touch _ _ _ _ _ _ (memWf_of_eq_fst (memWf_xlateUnit h ..) hx)
    · split
      · exact memWf_notify _ _ (memWf_setQueue (memWf_serve (memWf_setFull _ _ (memWf_touch _ _ _ _ _ _ (memWf_of_eq_fst (memWf_xlateUnit
            h ..) hx))) _) ..)
      · exact memWf_setQueue (memWf_serve (memWf_setFull _ _ (memWf_touch _ _ _ _ _ _ (memWf_of_eq_fst (memWf_xlateUnit h ..) hx))) _) ..

@[simp] theorem memWf_readPacket (q : Nat) : MemWf (s.readPacket q) = true := by
  unfold State.readPacket
  dsimp only
  exact memWf_unitPut (memWf_setQueue (memWf_unitBlock h ..) ..) ..

@[simp] theorem memWf_takeTail (q : Nat) : MemWf (s.takeTail q) = true := by
  simp [State.takeTail, h]

@[simp] theorem memWf_readExt (asid : Nat) (p : Pkt) : MemWf (s.readExt asid p).1 = true := by
  unfold State.readExt
  split
  · exact h
  · exact memWf_unitBlock h ..

@[simp] theorem memWf_readFmt (asid dva : Nat) : MemWf (s.readFmt asid dva).1 = true := by
  unfold State.readFmt
  split
  · next hx => exact memWf_of_eq_fst (memWf_unitBytes h ..) hx
  · next hx => exact memWf_of_eq_fst (memWf_unitBytes h ..) hx

@[simp] theorem memWf_packetCause (q : Queue) (b : BitVec 512) : MemWf (s.packetCause q b).1 = true := by
  unfold State.packetCause
  dsimp only
  split
  · exact h
  · split
    · exact h
    · split
      · exact h
      · split
        · next hx => exact memWf_of_eq_fst (memWf_readExt h ..) hx
        · next hx =>
          split
          · exact memWf_of_eq_fst (memWf_readExt h ..) hx
          · split
            · exact memWf_of_eq_fst (memWf_readExt h ..) hx
            · split
              · exact memWf_of_eq_fst (memWf_readExt h ..) hx
              · split
                · exact memWf_of_eq_fst (memWf_readExt h ..) hx
                · split
                  · next hx' => exact memWf_of_eq_fst (memWf_readFmt (memWf_of_eq_fst (memWf_readExt h ..) hx) ..) hx'
                  · next hx' => exact memWf_of_eq_fst (memWf_readFmt (memWf_of_eq_fst (memWf_readExt h ..) hx) ..) hx'

@[simp] theorem memWf_completeLaunch (asid donew status cause : Nat) : MemWf (s.completeLaunch asid donew status cause) = true := by
  unfold State.completeLaunch
  split
  · next hx => exact memWf_fill (memWf_of_eq_fst (memWf_xlateUnit h ..) hx) ..
  · next hx => exact memWf_of_eq_fst (memWf_xlateUnit h ..) hx

end

end Sys2Proof.Machine
end

section
/-! Launches: placing, starting, closing and aborting them, the supervisor, and bring-up (R242, R251, R262). -/
namespace Sys2Proof.Machine

open Sys2Proof

section
variable {s : State} (h : MemWf s = true)
include h

@[simp] theorem memWf_prepare (l : Launch) (x : BitVec 512) (img : List Byte) (table : Option (Sparse Half)) (t : Seat) :
    MemWf (s.prepare l x img table t) = true := by
  refine memWf_modCore_at _ h ?_
  dsimp only
  refine wf_lm_eq (lm_foldl (fun _ _ => ?_) _ _) ?_
  · rfl
  · repeat' split
    all_goals exact wf_written (wf_clearPart (wf_core_lm h _) ..) ..

@[simp] theorem memWf_freeRegs (core slot : Nat) : MemWf (s.freeRegs core slot) = true := by
  simp [State.freeRegs, h]

@[simp] theorem memWf_launchStrand (l : Launch) (core slot : Nat) (pc : Word) : MemWf (s.launchStrand l core slot pc) = true := by
  unfold State.launchStrand
  split
  · next hx => exact memWf_killSlot (memWf_of_eq_fst (memWf_startStrand (memWf_freeRegs h ..) ..) hx) ..
  · next hx => exact memWf_of_eq_fst (memWf_startStrand (memWf_freeRegs h ..) ..) hx

@[simp] theorem memWf_snapStep (q : Nat) (r : BatchRun) : MemWf (s.snapStep q r) = true := by
  unfold State.snapStep
  dsimp only
  split
  · split
    · next hx =>
      split
      · exact memWf_setQueue (memWf_of_eq_fst (memWf_unitBytes h ..) hx) ..
      · exact memWf_setQueue (memWf_of_eq_fst (memWf_unitBytes h ..) hx) ..
    · next hx => exact memWf_setQueue (memWf_of_eq_fst (memWf_unitBytes h ..) hx) ..
  · split
    · next hx => exact memWf_setQueue (memWf_of_eq_fst (memWf_unitBytes h ..) hx) ..
    · next hx => exact memWf_setQueue (memWf_of_eq_fst (memWf_unitBytes h ..) hx) ..
  · split
    · next hx =>
      split
      · exact memWf_setQueue (memWf_unitPut (memWf_of_eq_fst (memWf_unitBytes h ..) hx) ..) ..
      · exact memWf_setQueue (memWf_of_eq_fst (memWf_unitBytes h ..) hx) ..
    · next hx => exact memWf_setQueue (memWf_of_eq_fst (memWf_unitBytes h ..) hx) ..

@[simp] theorem memWf_placeLaunch (q count : Nat) (p : Pkt) (x : BitVec 512) (seats : List Seat) :
    MemWf (s.placeLaunch q count p x seats) = true := by
  unfold State.placeLaunch
  dsimp only
  refine memWf_foldl (fun t _ ht => memWf_foldl (fun _ _ ht' => memWf_launchStrand ht' ..) ?_ _) (memWf_setQueue (memWf_upd (memWf_foldl
      (fun t _ ht => memWf_prepare ht ..) ?_ _)) ..) _
  · split
    · exact ht
    · exact memWf_launchStrand ht ..
  · split
    · exact h
    · exact memWf_readFmt h ..

@[simp] theorem memWf_headPlan (q : Nat) : MemWf (s.headPlan q).1 = true := by
  unfold State.headPlan
  dsimp only
  split
  · exact h
  · split
    · next hx => exact memWf_of_eq_fst (memWf_packetCause h ..) hx
    · next hx => exact memWf_of_eq_fst (memWf_packetCause h ..) hx

@[simp] theorem memWf_countServed (q : Nat) : MemWf (s.countServed q) = true := by
  simp [State.countServed, h]

@[simp] theorem memWf_takeHead (q : Nat) : MemWf (s.takeHead q) = true := by
  simp [State.takeHead, h]

@[simp] theorem memWf_dropImage (q count : Nat) : MemWf (s.dropImage q count) = true := by
  simp [State.dropImage, h]

@[simp] theorem memWf_launchHead (q : Nat) : MemWf (s.launchHead q) = true := by
  unfold State.launchHead
  dsimp only
  split
  · exact h
  · split
    · next hx => exact memWf_of_eq_fst (memWf_headPlan h _) hx
    · next hx =>
      split
      · exact memWf_completeLaunch (memWf_dropImage (memWf_takeHead (memWf_of_eq_fst (memWf_headPlan h _) hx) _) ..) ..
      · split
        · exact memWf_snapStep (memWf_of_eq_fst (memWf_headPlan h _) hx) ..
        · exact memWf_dropImage (memWf_placeLaunch (memWf_takeHead (memWf_of_eq_fst (memWf_headPlan h _) hx) _) ..) ..

@[simp] theorem memWf_classify (id : Nat) : MemWf (s.classify id) = true := by
  unfold State.classify
  dsimp only
  split
  · exact h
  · split
    · exact memWf_modLaunch _ _ h
    · split
      · split
        · exact memWf_setQueue (memWf_modLaunch _ _ (memWf_modLaunch _ _ h)) ..
        · exact memWf_modLaunch _ _ (memWf_modLaunch _ _ h)
      · split
        · split
          · exact memWf_setQueue (memWf_modLaunch _ _ (memWf_modLaunch _ _ h)) ..
          · exact memWf_modLaunch _ _ (memWf_modLaunch _ _ h)
        · split
          · exact memWf_setQueue (memWf_modLaunch _ _ (memWf_modLaunch _ _ h)) ..
          · exact memWf_modLaunch _ _ (memWf_modLaunch _ _ h)

@[simp] theorem memWf_leaveCores (l : Launch) : MemWf (s.leaveCores l) = true := by
  unfold State.leaveCores
  dsimp only
  refine memWf_upd (memWf_foldl (fun _ _ ht => ?_) h _)
  refine memWf_modCore_at _ (memWf_endZones ?_ ..) ?_
  · split
    · exact memWf_freeSlot ht ..
    · exact ht
  · dsimp only
    refine wf_clearPart (wf_core_lm (memWf_endZones ?_ ..) _) ..
    split
    · exact memWf_freeSlot ht ..
    · exact ht

@[simp] theorem memWf_closeLaunch (l : Launch) : MemWf (s.closeLaunch l) = true := by
  simp [State.closeLaunch, h]

@[simp] theorem memWf_sweepAll : MemWf s.sweepAll = true := by
  unfold State.sweepAll
  refine memWf_foldl (fun _ _ ht => ?_) h _
  dsimp only
  split
  · exact memWf_closeLaunch ht _
  · split
    · exact memWf_completeLaunch (memWf_leaveCores ht _) ..
    · exact memWf_modLaunch _ _ ht

@[simp] theorem memWf_killQuiet (core slot : Nat) : MemWf (s.killQuiet core slot) = true := by
  unfold State.killQuiet
  dsimp only
  exact memWf_modCore_keep _ (memWf_modSlot _ _ _ (memWf_upd (memWf_killSlot (memWf_modSlot _ _ _ h) ..))) fun _ => rfl

@[simp] theorem memWf_dropLent (core slot id : Nat) : MemWf (s.dropLent core slot id) = true := by
  unfold State.dropLent
  dsimp only
  split
  · refine memWf_moveStgs (memWf_modSlot _ _ _ ?_) ..
    split
    · exact memWf_freeOdd h ..
    · exact h
  · exact h

@[simp] theorem memWf_abort (id : Nat) : MemWf (s.abort id) = true := by
  unfold State.abort
  split
  · exact h
  · next l _ =>
    refine memWf_closeLaunch (memWf_modLaunch _ _ (memWf_foldl (fun t seat ht => memWf_modCore_keep _ ht fun _ => ?_) ?_ _)) _
    · rfl
    · refine memWf_foldl (fun t seat ht => memWf_foldl (fun _ _ hu => memWf_dropLent ?_ ..) ht _) (memWf_upd h) _
      split
      · exact memWf_killQuiet hu ..
      · exact hu

@[simp] theorem memWf_resetVf (vf : Nat) : MemWf (s.resetVf vf) = true := by
  unfold State.resetVf
  dsimp only
  split
  · exact h
  · exact memWf_foldl (fun _ _ ht => memWf_abort ht _) (memWf_upd h) _

@[simp] theorem memWf_apertureWrite (vf offset : Nat) (data : Word) : MemWf (s.apertureWrite vf offset data) = true := by
  unfold State.apertureWrite
  dsimp only
  split
  · exact h
  · exact h
  · split
    · exact memWf_upd h
    · split
      · next hx => exact memWf_fill (memWf_of_eq_fst (memWf_xlateUnit h ..) hx) ..
      · next hx => exact memWf_upd (memWf_of_eq_fst (memWf_xlateUnit h ..) hx)

@[simp] theorem memWf_writeDescriptor (q : Nat) (desc : BitVec 512) : MemWf (s.writeDescriptor q desc) = true := by
  simp [State.writeDescriptor, h]

@[simp] theorem memWf_setAreas (asid : Nat) (areas : TenantAreas) : MemWf (s.setAreas asid areas) = true := by
  simp [State.setAreas, h]

@[simp] theorem memWf_vendorPush (core : Nat) (l : Launch) (tag : BitVec 32) (n : Nat) : MemWf (s.vendorPush core l tag n) = true := by
  induction n generalizing s core l tag with
  | zero => exact h
  | succ n ih =>
    unfold State.vendorPush
    dsimp only
    split
    · next hx => exact memWf_modSlot _ _ _ (memWf_of_ok (memWf_pushCopy h _) hx)
    · split
      · next hx => exact ih (memWf_of_eq_fst (memWf_xlateNow h ..) hx) ..
      · next hx => exact memWf_of_eq_fst (memWf_xlateNow h ..) hx
    · exact h

@[simp] theorem memWf_vendorTurn (core : Nat) : MemWf (s.vendorTurn core) = true := by
  unfold State.vendorTurn
  dsimp only
  split
  · exact h
  · split
    · exact memWf_serve (memWf_countTake (memWf_setFull _ _ h) ..) _
    · split
      · exact memWf_serve (memWf_countTake (memWf_setFull _ _ h) ..) _
      · exact memWf_modSlot _ _ _ (memWf_upd (memWf_vendorPush (memWf_upd (memWf_modSlot _ _ _ (memWf_loadCaps (memWf_serve
            (memWf_countTake (memWf_setFull _ _ h) ..) _) ..))) ..))

@[simp] theorem memWf_modClass (cls : Nat) (f : ClassCfg → ClassCfg) : MemWf (s.modClass cls f) = true := by
  simp [State.modClass, h]

@[simp] theorem memWf_serveDrams : MemWf s.serveDrams = true := by
  simp [State.serveDrams, h]

@[simp] theorem memWf_modPort (n : Nat) (f : Port → Port) : MemWf (s.modPort n f) = true := by
  simp [State.modPort, h]

@[simp] theorem memWf_modVf (vf : Nat) (f : Vf → Vf) : MemWf (s.modVf vf f) = true := by
  simp [State.modVf, h]

@[simp] theorem memWf_hostAtomic (pa n : Nat) (op : HostAtomic) : MemWf (s.hostAtomic pa n op) = true := by
  unfold State.hostAtomic
  dsimp only
  split
  · exact h
  · split
    · exact memWf_homeWrite h ..
    · exact h

@[simp] theorem memWf_apertureAtomic (vf offset n : Nat) (op : HostAtomic) : MemWf (s.apertureAtomic vf offset n op) = true := by
  unfold State.apertureAtomic
  dsimp only
  refine memWf_upd ?_
  split
  · split
    · exact memWf_apertureWrite h ..
    · exact h
  · exact memWf_upd h

@[simp] theorem memWf_loaderWrite (pa : Nat) (a : Attr) (bs : List Byte) : MemWf (s.loaderWrite pa a bs) = true := by
  unfold State.loaderWrite
  refine memWf_foldl (fun _ _ ht => ?_) (memWf_homeWrite h ..) _
  dsimp only
  exact memWf_serve (memWf_setFull _ _ ht) _

@[simp] theorem memWf_alterLine (line : Nat) (d : DramLine) : MemWf (s.alterLine line d) = true := by
  simp [State.alterLine, h]

@[simp] theorem memWf_alterMeta (key : Nat) (m : MetaLine) : MemWf (s.alterMeta key m) = true := by
  simp [State.alterMeta, h]

@[simp] theorem memWf_setSensor (die n shift temp : Nat) : MemWf (s.setSensor die n shift temp) = true := by
  simp [State.setSensor, h]

@[simp] theorem memWf_readSensor (die n : Nat) : MemWf (s.readSensor die n) = true := by
  simp [State.readSensor, h]

@[simp] theorem memWf_coldReset (image signature : List Byte) (version : Nat) : MemWf (s.coldReset image signature version) = true := by
  unfold State.coldReset
  dsimp only
  split
  · exact memWf_upd h
  · exact memWf_upd h

@[simp] theorem memWf_scrub : MemWf s.scrub = true := by
  refine (memAt_iff _ _).2 ⟨Memory.wf_filter _ (wf_mem h), fun _ hkc => ?_⟩
  obtain ⟨old, -, rfl⟩ := List.mem_map.1 hkc
  rfl

@[simp] theorem memWf_clearAll : MemWf s.clearAll = true := (memAt_iff s.mem State.reset.cores).2 ⟨wf_mem h, fun _ hkc => nomatch hkc⟩

@[simp] theorem memWf_bringUp (n : Nat) : MemWf (s.bringUp n) = true := by
  simp [State.bringUp, h]

@[simp] theorem memWf_takeCommand (ex : Instr → State → State) (port : Nat) (hex : ∀ i s, MemWf s = true → MemWf (ex i s) = true) :
    MemWf (s.takeCommand ex port) = true := by
  unfold State.takeCommand
  dsimp only
  split
  · exact h
  · exact memWf_homeWrite (memWf_fresh (hex _ _ (memWf_upd h))) ..

@[simp] theorem memWf_poisonReg (core slot reg : Nat) : MemWf (s.poisonReg core slot reg) = true := by
  simp [State.poisonReg, h]

@[simp] theorem memWf_requestPreempt (core slot : Nat) : MemWf (s.requestPreempt core slot) = true := by
  simp [State.requestPreempt, h]

@[simp] theorem memWf_coupledReply (core slot : Nat) : MemWf (s.coupledReply core slot) = true := by
  simp [State.coupledReply, h]

@[simp] theorem memWf_writeReply (core slot : Nat) (answer : List Word) : MemWf (s.writeReply core slot answer) = true := by
  unfold State.writeReply
  dsimp only
  split
  · exact h
  · split
    · exact h
    · split
      · split
        · exact memWf_coupledReply (memWf_peerAnswered h ..) ..
        · exact h
      · split
        · exact h
        · split
          · split
            · refine memWf_coupledReply (memWf_wake ?_ ..) ..
              split
              · exact memWf_modCore_keep _ (memWf_modCore_keep _ h fun _ => lm_pushRows ..) fun _ => lm_setRing ..
              · exact memWf_modCore_keep _ h fun _ => lm_pushRows ..
            · exact memWf_modCore_keep _ h fun _ => lm_pushRows ..
          · exact memWf_coupledReply (memWf_wake h ..) ..

@[simp] theorem memWf_finishWalk (core slot : Nat) : MemWf (s.finishWalk core slot) = true := by
  unfold State.finishWalk
  dsimp only
  split
  · exact h
  · split
    · exact h
    · split
      · next hx => exact memWf_killSlot (memWf_of_eq_fst (memWf_walk h ..) hx) ..
      · next hx => exact memWf_modSlot _ _ _ (memWf_of_eq_fst (memWf_walk h ..) hx)
      · next hx =>
        split
        · exact memWf_modSlot _ _ _ (memWf_of_eq_fst (memWf_walk h ..) hx)
        · refine memWf_modSlot _ _ _ ?_
          split
          · exact memWf_install (memWf_of_eq_fst (memWf_walk h ..) hx) ..
          · exact memWf_of_eq_fst (memWf_walk h ..) hx

@[simp] theorem memWf_takePreempt (core slot : Nat) : MemWf (s.takePreempt core slot) = true := by
  simp [State.takePreempt, h]

end

end Sys2Proof.Machine
end

section
/-! What comes to its turn: boundaries, fetching, running a pair, inputs from the outside, and a step of bring-up (R48, R79, R262). -/
namespace Sys2Proof.Machine

open Sys2Proof

section
variable {s : State} (h : MemWf s = true)
include h

@[simp] theorem memWf_holdTrap (core slot : Nat) : MemWf (s.holdTrap core slot) = true := by
  simp [State.holdTrap, h]

@[simp] theorem memWf_holdTimeout (core slot : Nat) : MemWf (s.holdTimeout core slot) = true := by
  simp [State.holdTimeout, h]

@[simp] theorem memWf_timerExpires (core slot : Nat) : MemWf (s.timerExpires core slot) = true := by
  simp [State.timerExpires, h]

theorem memWf_regrantSaved (core slot : Nat) : (s.regrantSaved core slot).all MemWf = true := by
  unfold State.regrantSaved
  dsimp only
  split
  · rfl
  · split
    · exact memWf_modSlot _ _ _ h
    · split
      · rfl
      · exact memWf_modSlot _ _ _ (memWf_modSlot _ _ _ h)

@[simp] theorem memWf_loadVreg (core slot own odd r : Nat) : MemWf (s.loadVreg core slot own odd r) = true := by
  unfold State.loadVreg
  dsimp only
  split
  · next hx => exact memWf_of_eq_fst (memWf_getDva h ..) hx
  · next hx =>
    split
    · exact memWf_modSlot _ _ _ (memWf_modSlot _ _ _ (memWf_of_eq_fst (memWf_getDva h ..) hx))
    · exact memWf_modSlot _ _ _ (memWf_of_eq_fst (memWf_getDva h ..) hx)

@[simp] theorem memWf_loadRow (core slot place : Nat) (lanes : List Half) : MemWf (s.loadRow core slot place lanes).1 = true := by
  unfold State.loadRow
  split
  · next hx => exact memWf_orKilled (memWf_of_eq_fst (memWf_getDva h ..) hx) ..
  · next hx => exact memWf_of_eq_fst (memWf_getDva h ..) hx

@[simp] theorem memWf_loadLqRow (core slot n : Nat) : MemWf (s.loadLqRow core slot n) = true := by
  unfold State.loadLqRow
  dsimp only
  split
  · exact memWf_modSlot _ _ _ (memWf_loadRow h ..)
  · exact h

@[simp] theorem memWf_loadSqRow (core slot n : Nat) : MemWf (s.loadSqRow core slot n) = true := by
  unfold State.loadSqRow
  dsimp only
  split
  · exact memWf_modSlot _ _ _ (memWf_loadRow h ..)
  · exact h

@[simp] theorem memWf_loadVector (core slot own odd : Nat) : MemWf (s.loadVector core slot own odd) = true := by
  unfold State.loadVector
  dsimp only
  exact memWf_foldl (fun t _ ht => memWf_loadSqRow ht ..) (memWf_foldl (fun t _ ht => memWf_loadLqRow ht ..) (memWf_foldl (fun t _ ht =>
      memWf_loadVreg ht ..) h _) _) _

@[simp] theorem memWf_resumeSaved (core slot : Nat) : MemWf (s.resumeSaved core slot) = true := by
  unfold State.resumeSaved
  dsimp only
  split
  · exact h
  · split
    · exact memWf_modSlot _ _ _ h
    · next hx =>
      split
      · split
        · exact memWf_of_some (memWf_regrantSaved h ..) hx
        · split
          · exact memWf_killSlot (memWf_of_some (memWf_regrantSaved h ..) hx) ..
          · exact memWf_modCore_keep _ (memWf_modSlot _ _ _ (memWf_of_some (memWf_regrantSaved h ..) hx)) fun _ => lm_drainRows ..
      · split
        · split
          · exact memWf_loadVector (memWf_of_some (memWf_regrantSaved h ..) hx) ..
          · split
            · exact memWf_killSlot (memWf_loadVector (memWf_of_some (memWf_regrantSaved h ..) hx) ..) ..
            · exact memWf_modCore_keep _ (memWf_modSlot _ _ _ (memWf_loadVector (memWf_of_some (memWf_regrantSaved h ..) hx) ..)) fun _ =>
                  lm_drainRows ..
        · split
          · exact memWf_loadVector (memWf_of_some (memWf_regrantSaved h ..) hx) ..
          · split
            · exact memWf_killSlot (memWf_loadVector (memWf_of_some (memWf_regrantSaved h ..) hx) ..) ..
            · exact memWf_modCore_keep _ (memWf_modSlot _ _ _ (memWf_loadVector (memWf_of_some (memWf_regrantSaved h ..) hx) ..)) fun _ =>
                  lm_drainRows ..

@[simp] theorem memWf_boundary : MemWf s.boundary = true := by
  have htimers := memWf_foldl (f := fun s c => s.modCore c fun k => k.applyAlmanac.startGangs.countTimers)
    (fun t c ht => memWf_modCore_keep c ht fun k => by simp) h
  have hwoken := memWf_foldl (f := fun s c => (List.range 16).foldl (fun s k => s.restoreWoken c k) s)
    (fun t c ht => memWf_foldl (fun u k hu => memWf_restoreWoken hu c k) ht (List.range 16)) (htimers s.cores.keys)
  refine memWf_upd (memWf_foldl (fun t c ht => ?_) (hwoken s.cores.keys) _)
  split
  · exact memWf_foldl (fun u k hu => memWf_startCouple hu c k) ht _
  · exact ht

@[simp] theorem memWf_beginPair (core slot : Nat) : MemWf (s.beginPair core slot) = true := by
  simp [State.beginPair, h]

@[simp] theorem memWf_readCode (l : Loc) : MemWf (s.readCode l).1 = true := by
  unfold State.readCode
  dsimp only
  split
  · exact memWf_fresh h
  · exact memWf_modHere (memWf_l2Access (memWf_fresh h) ..) (wf_here_lm (memWf_l2Access (memWf_fresh h) ..))

@[simp] theorem memWf_fromBuffer (dva : Nat) : MemWf (s.fromBuffer dva).1 = true := by
  unfold State.fromBuffer
  dsimp only
  split
  · exact memWf_fresh h
  · exact h

@[simp] theorem memWf_fetch : MemWf s.fetch.1 = true := by
  unfold State.fetch
  dsimp only
  split
  · exact h
  · split
    · exact h
    · split
      · exact h
      · split
        · next hx => exact memWf_of_eq_fst (memWf_fromBuffer h _) hx
        · next hx =>
          split
          · exact memWf_of_eq_fst (memWf_fromBuffer h _) hx
          · split
            · exact memWf_readCode (memWf_of_eq_fst (memWf_fromBuffer h _) hx) _
            · exact memWf_modCur _ (memWf_readCode (memWf_of_eq_fst (memWf_fromBuffer h _) hx) _)
          · exact memWf_of_eq_fst (memWf_fromBuffer h _) hx

@[simp] theorem memWf_stopFetch (e : Stop) : MemWf (s.stopFetch e) = true := by
  unfold State.stopFetch
  split
  · exact memWf_awaitWalk (memWf_againWhole h) ..
  · split
    · exact memWf_awaitWalk (memWf_againWhole h) ..
    · exact memWf_faultSlot (memWf_againWhole h) ..
  · exact memWf_stop h _

@[simp] theorem memWf_trapDecode (cls info : Nat) (k : SlotK) : MemWf (s.trapDecode cls info k) = true := by
  simp [State.trapDecode, h]

@[simp] theorem memWf_runC (ex : Instr → State → State) (c : Instr) (hex : ∀ i s, MemWf s = true → MemWf (ex i s) = true) :
    MemWf (s.runC ex c) = true := by
  unfold State.runC
  split
  · exact memWf_runCoupled h _ _ fun _ _ ht => hex _ _ ht
  · exact hex _ _ h

@[simp] theorem memWf_runPair (ex : Instr → State → State) (c : Instr) (a : Option Instr) (hex : ∀ i s, MemWf s = true → MemWf
    (ex i s) = true) :
    MemWf (s.runPair ex c a) = true := by
  unfold State.runPair
  dsimp only
  split
  · exact memWf_killSlot h ..
  · split
    · exact memWf_runC h _ _ fun x t ht => hex _ _ ht
    · split
      · exact memWf_runC h _ _ fun x t ht => hex _ _ ht
      · exact memWf_runC h _ _ fun x t ht => hex _ _ ht
      · split
        · exact memWf_runC h _ _ fun x t ht => hex _ _ ht
        · split
          · exact memWf_runC (memWf_upd (hex _ _ (memWf_upd h))) _ _ fun x t ht => hex _ _ ht
          · exact hex _ _ (memWf_upd h)

@[simp] theorem memWf_runWords (ex : Instr → State → State) (g : BitVec 64) (brk : Option Nat) (hex : ∀ i s, MemWf s = true → MemWf
    (ex i s) = true) :
    MemWf (s.runWords ex g brk) = true := by
  unfold State.runWords
  dsimp only
  split
  · exact memWf_trapDecode (memWf_upd h) ..
  · split
    · refine memWf_trapDecode ?_ ..
      split
      · exact memWf_modCur _ (memWf_upd h)
      · exact memWf_upd h
    · split
      · exact memWf_trapDecode (memWf_upd h) ..
      · split
        · split
          · split
            · exact memWf_runC (memWf_modCur _ (memWf_upd h)) _ _ fun x t ht => hex _ _ ht
            · exact memWf_trapDecode (memWf_upd h) ..
          · exact memWf_trapDecode (memWf_upd h) ..
        · exact memWf_runPair (memWf_modCur _ (memWf_upd h)) _ _ _ fun x t ht => hex _ _ ht

@[simp] theorem memWf_runCoupledWords (ex : Instr → State → State) (g : BitVec 64) (brk : Option Nat)
    (hex : ∀ i s, MemWf s = true → MemWf (ex i s) = true) :
    MemWf (s.runCoupledWords ex g brk) = true := by
  unfold State.runCoupledWords
  dsimp only
  split
  · split
    · exact memWf_toEnd (memWf_coupledReply h ..) ..
    · split
      · exact memWf_toEnd (memWf_coupledReply h ..) ..
      · split
        · exact memWf_countPair (memWf_coupledReply (memWf_runWords (memWf_coupledReply h ..) _ _ _ fun x t ht => hex _ _ ht) ..) ..
        · exact memWf_coupledReply (memWf_runWords (memWf_coupledReply h ..) _ _ _ fun x t ht => hex _ _ ht) ..
  · split
    · exact memWf_toEnd (memWf_coupledReply h ..) ..
    · split
      · exact memWf_toEnd (memWf_coupledReply h ..) ..
      · split
        · exact memWf_countPair (memWf_coupledReply (memWf_runWords (memWf_coupledReply h ..) _ _ _ fun x t ht => hex _ _ ht) ..) ..
        · exact memWf_coupledReply (memWf_runWords (memWf_coupledReply h ..) _ _ _ fun x t ht => hex _ _ ht) ..

@[simp] theorem memWf_stopCoupledFetch (e : Stop) : MemWf (s.stopCoupledFetch e) = true := by
  unfold State.stopCoupledFetch
  dsimp only
  split
  · split
    · exact memWf_stopFetch h _
    · exact memWf_toEnd h ..
  · exact memWf_stopFetch h _

@[simp] theorem memWf_runGroup (ex : Instr → State → State) (hex : ∀ i s, MemWf s = true → MemWf (ex i s) = true) :
    MemWf (s.runGroup ex) = true := by
  unfold State.runGroup
  dsimp only
  split
  · next hx =>
    split
    · exact memWf_stopCoupledFetch (memWf_of_eq_fst (memWf_fetch (memWf_modCur _ (memWf_beginPair h ..))) hx) _
    · exact memWf_stopFetch (memWf_of_eq_fst (memWf_fetch (memWf_modCur _ (memWf_beginPair h ..))) hx) _
  · next hx =>
    split
    · exact memWf_runCoupledWords (memWf_of_eq_fst (memWf_fetch (memWf_modCur _ (memWf_beginPair h ..))) hx) _ _ _ fun x t ht => hex _ _ ht
    · exact memWf_runWords (memWf_of_eq_fst (memWf_fetch (memWf_modCur _ (memWf_beginPair h ..))) hx) _ _ _ fun x t ht => hex _ _ ht

@[simp] theorem memWf_settleOwner (core : Nat) : MemWf (s.settleOwner core) = true := by
  unfold State.settleOwner
  split
  · exact memWf_takePreempt (memWf_holdTimeout h ..) ..
  · exact h

@[simp] theorem memWf_issueTurn (core : Nat) : MemWf (s.issueTurn core) = true := by
  unfold State.issueTurn
  dsimp only
  split
  · exact memWf_vendorTurn (memWf_settleOwner h _) _
  · split
    · exact memWf_upd (memWf_settleOwner h _)
    · exact memWf_settleOwner h _

@[simp] theorem memWf_inner (ex : Instr → State → State) (x1 : Machine.Inner) (hex : ∀ i s, MemWf s = true → MemWf (ex i s) = true) :
    MemWf (s.inner ex x1) = true := by
  unfold State.inner
  dsimp only
  split
  · exact memWf_upd h
  · exact memWf_withHier h ..
  · exact memWf_takeCommand h _ _ fun _ _ ht => hex _ _ ht

@[simp] theorem memWf_barriersMet : MemWf s.barriersMet = true := by
  unfold State.barriersMet
  exact memWf_foldl (fun _ _ ht => memWf_foldl (fun _ _ ht' => memWf_barrierMet ht' ..) ht _) h _

@[simp] theorem memWf_advance : MemWf s.advance = true := by
  unfold State.advance
  dsimp only
  exact memWf_upd (memWf_sendFlits (memWf_barriersMet (memWf_serveDrams h)))

@[simp] theorem memWf_takeInput (ex : Instr → State → State) (i : Input) (hex : ∀ i s, MemWf s = true → MemWf (ex i s) = true) :
    MemWf (s.takeInput ex i) = true := by
  unfold State.takeInput
  split
  · split
    · exact h
    · exact hex _ _ h
  · split
    · exact memWf_upd h
    · exact h
  · split
    · exact memWf_homeWrite h ..
    · exact h
  · split
    · exact memWf_hostAtomic h ..
    · exact h
  · exact memWf_upd h
  · exact memWf_apertureAtomic h ..
  · split
    · exact memWf_loaderWrite h ..
    · exact h
  · exact memWf_upd h
  · exact memWf_fromPeer h ..
  · exact memWf_carried h _
  · split
    · exact memWf_freeFaults h ..
    · exact h
  · exact memWf_poisonReg h ..
  · exact memWf_alterLine h ..
  · exact memWf_alterMeta h ..
  · exact memWf_setSensor h ..
  · exact memWf_readSensor h ..
  · split
    · exact memWf_modVf h ..
    · exact h
  · exact memWf_modVf h ..
  · exact memWf_modPort h ..

@[simp] theorem memWf_input (ex : Instr → State → State) (hex : ∀ i s, MemWf s = true → MemWf (ex i s) = true) :
    MemWf (s.input ex) = true := by
  unfold State.input
  split
  · exact h
  · exact memWf_takeInput (memWf_upd h) _ _ fun _ _ ht => hex _ _ ht

@[simp] theorem memWf_happen (ex : Instr → State → State) (n : Nat) (hex : ∀ i s, MemWf s = true → MemWf (ex i s) = true) :
    MemWf (s.happen ex n) = true := by
  unfold State.happen
  dsimp only
  split
  · exact memWf_advance h
  · split
    · exact hex _ _ h
    · exact memWf_inner h _ _ fun x t ht => hex _ _ ht
    · exact memWf_input h _ fun x t ht => hex _ _ ht

theorem memWf_early (ex : Instr → State → State) (hex : ∀ i s, MemWf s = true → MemWf (ex i s) = true) : (s.early ex).all MemWf = true := by
  unfold State.early
  dsimp only
  split
  · rfl
  · split
    · exact hex _ _ (memWf_upd h)
    · exact memWf_takeInput (memWf_upd h) _ _ fun x t ht => hex _ _ ht
    · exact memWf_takeInput (memWf_upd h) _ _ fun x t ht => hex _ _ ht
    · exact memWf_upd h

@[simp] theorem memWf_bootStep (ex : Instr → State → State) (n : Nat) (hex : ∀ i s, MemWf s = true → MemWf (ex i s) = true) :
    MemWf (s.bootStep ex n) = true := by
  unfold State.bootStep
  dsimp only
  split
  · exact memWf_bringUp h _
  · split
    · exact memWf_bringUp (memWf_fresh h) _
    · exact memWf_getD (memWf_early (memWf_fresh h) _ fun _ _ ht => hex _ _ ht) (memWf_fresh h)

@[simp] theorem memWf_proceed (ex : Instr → State → State) (hex : ∀ i s, MemWf s = true → MemWf (ex i s) = true) :
    MemWf (s.proceed ex) = true := by
  unfold State.proceed
  dsimp only
  split
  · exact memWf_advance h
  · exact memWf_happen (memWf_fresh h) _ _ fun _ _ ht => hex _ _ ht

omit h in
theorem nextAll_fpIf (g : PredIx) (d : Reg) (r : Nat × RFlags) {s : State} (h : MemWf s = true) : nextAll (fpIf g d r s) = true := by
  unfold fpIf
  split
  · exact memWf_raise _ (memWf_setReg _ _ h)
  · exact h

end

end Sys2Proof.Machine
end

section
/-! Every instruction and every other thing that happens, and so every step. -/
namespace Sys2Proof.Machine

open Sys2Proof

section
variable {s : State} (h : MemWf s = true)
include h

theorem nextAll_execWaitListBusyReissue (core slot : Nat) : nextAll (execWaitListBusyReissue core slot s) = true := by
  unfold execWaitListBusyReissue
  split
  · exact memWf_modSlot _ _ _ h
  · exact h

theorem nextAll_execLoadQueueRowFill (core slot q : Nat) : nextAll (execLoadQueueRowFill core slot q s) = true := by
  unfold execLoadQueueRowFill
  split
  · exact memWf_rowArrives h ..
  · exact h

theorem nextAll_execStgAcknowledgement (n : Nat) : nextAll (execStgAcknowledgement n s) = true := by
  unfold execStgAcknowledgement
  split
  · split
    · exact h
    · exact memWf_performStg h _
  · exact h

theorem nextAll_execCacheWalk (cluster : Nat) : nextAll (execCacheWalk cluster s) = true := by
  unfold execCacheWalk
  split
  · exact h
  · next r rest _ =>
    dsimp only
    refine memWf_wakeWalker (memWf_fill ?_ ..) _
    have hwalk := memWf_modCluster cluster (fun c => { c with walker := rest }) h
    have hl1 := memWf_foldl
      (f := fun s i => s.modCore (8 * cluster + i) fun c => { c with l1 := c.l1.filter fun l => !r.lines.contains l.1 })
      (fun t i ht => memWf_modCore_keep _ ht fun _ => by rfl) hwalk (List.range 8)
    split
    · refine memWf_foldl (fun t _ ht => memWf_recallLine ht _) ?_ _
      exact memAt_map hl1 fun _ => rfl
    · exact memWf_foldl (fun t _ ht => memWf_cleanLine ht _) (memWf_foldl (fun t _ ht => memWf_recallLine ht _) hl1 _) _

theorem nextAll_execSpawn (a b : Reg) (c : CapIx) (g : PredIx) : nextAll (execSpawn a b c g s) = true := by
  unfold execSpawn
  split
  · exact nextAll_finish (memWf_decideInl h) (memWf_spawn (memWf_decideInl h) ..)
  · exact h

theorem nextAll_execFcmp (p : PredIx) (a b : Reg) (g : PredIx) (x : BitVec 2) : nextAll (execFcmp p a b g x s) = true := by
  unfold execFcmp
  dsimp only
  split
  · exact memWf_raise _ (memWf_setPred _ _ h)
  · exact h

theorem nextAll_execPacketDelivery (n : Nat) : nextAll (execPacketDelivery n s) = true := by
  unfold execPacketDelivery
  split
  · split
    · exact h
    · split
      · next hx => exact memWf_of_some (memWf_deliver (memWf_upd h) _) hx
      · exact h
  · exact h

theorem nextAll_execHandlerStart (core : Nat) : nextAll (execHandlerStart core s) = true := by
  unfold execHandlerStart
  dsimp only
  split
  · exact h
  · split
    · exact h
    · split
      · exact h
      · split
        · exact memWf_killSlot (memWf_modSlot _ _ _ (memWf_startStrand (memWf_modCore_keep _ h fun _ => by rfl) ..)) ..
        · exact memWf_modSlot _ _ _ (memWf_startStrand (memWf_modCore_keep _ h fun _ => by rfl) ..)

theorem nextAll_execArrivalRecordAccept (n : Nat) : nextAll (execArrivalRecordAccept n s) = true := by
  unfold execArrivalRecordAccept
  dsimp only
  split
  · exact h
  · split
    · exact h
    · split
      · next hx =>
        split
        · refine memWf_tell (memWf_of_some ?_ hx) ..
          split
          · exact memWf_upd h
          · exact memWf_acceptRecord (memWf_upd h) _
        · refine memWf_recordTaken (memWf_of_some ?_ hx) _
          split
          · exact memWf_upd h
          · exact memWf_acceptRecord (memWf_upd h) _
      · exact h

theorem nextAll_execSfuRequestServe (cluster : Nat) : nextAll (execSfuRequestServe cluster s) = true := by
  unfold execSfuRequestServe
  split
  · exact h
  · split
    · exact memWf_modCluster _ _ h
    · exact memWf_finishSfu h ..

theorem nextAll_execArrivalUnit (n : Nat) : nextAll (execArrivalUnit n s) = true := by
  unfold execArrivalUnit
  split
  · exact memWf_takeUnit (memWf_upd h) _
  · exact h

theorem nextAll_execFlitReplay (link : Nat) : nextAll (execFlitReplay link s) = true := by
  unfold execFlitReplay
  split
  · exact h
  · split
    · exact memWf_dropLink (memWf_modLink h ..) _
    · exact memWf_modLink h ..

theorem nextAll_execPowerSample (watts : Nat) : nextAll (execPowerSample watts s) = true := by
  unfold execPowerSample
  dsimp only
  split
  · exact memWf_upd h
  · split
    · exact memWf_notify _ _ (memWf_upd h)
    · exact memWf_upd h

theorem nextAll_execAgeingSensorUpdate (die eolh worst : Nat) : nextAll (execAgeingSensorUpdate die eolh worst s) = true := by
  unfold execAgeingSensorUpdate
  dsimp only
  split
  · exact h
  · split
    · exact memWf_notify _ _ (memWf_upd h)
    · exact memWf_upd h

theorem nextAll_execDramBatchMark (ctl : Nat) : nextAll (execDramBatchMark ctl s) = true := by
  unfold execDramBatchMark
  dsimp only
  split
  · exact h
  · exact memWf_upd h

theorem nextAll_execWriteKeySlot (k key : Nat) : nextAll (execWriteKeySlot k key s) = true := by
  unfold execWriteKeySlot
  split
  · exact h
  · exact memWf_upd h

theorem nextAll_execWriteRouteEntry (dev : Nat) (primary alternate : Option Nat) :
    nextAll (execWriteRouteEntry dev primary alternate s) = true := by
  unfold execWriteRouteEntry
  split
  · exact h
  · exact memWf_upd h

theorem nextAll_execSetAsidRoot (asid : Nat) (root : Option Nat) : nextAll (execSetAsidRoot asid root s) = true := by
  unfold execSetAsidRoot
  split
  · exact h
  · exact memWf_upd h

theorem nextAll_execSetPowerCap (watts : Nat) : nextAll (execSetPowerCap watts s) = true := by
  unfold execSetPowerCap
  split
  · exact memWf_upd h
  · exact h

theorem nextAll_execReleaseKilledSlot (core slot : Nat) : nextAll (execReleaseKilledSlot core slot s) = true := by
  unfold execReleaseKilledSlot
  split
  · exact memWf_modSlot _ _ _ h
  · exact h

theorem nextAll_execBindQueueToVf (q vf : Nat) : nextAll (execBindQueueToVf q vf s) = true := by
  unfold execBindQueueToVf
  dsimp only
  split
  · exact memWf_setQueue h ..
  · exact h

/-- Every instruction, and every other thing that happens, keeps the memories canonical. -/
theorem nextAll_exec (i : Instr) : nextAll (exec i s) = true := by
  cases i with
  | nopC => exact h
  | ld => exact nextAll_finish h (memWf_load h ..)
  | ldLone => exact nextAll_finish h (memWf_load h ..)
  | st => exact nextAll_finish h (memWf_store h ..)
  | stLone => exact nextAll_finish h (memWf_store h ..)
  | ldl => exact nextAll_finish h (memWf_loadLocal h ..)
  | ldlLone => exact nextAll_finish h (memWf_loadLocal h ..)
  | stl => exact nextAll_finish h (memWf_storeLocal h ..)
  | stlLone => exact nextAll_finish h (memWf_storeLocal h ..)
  | ldh => exact nextAll_finish h (memWf_ldh h ..)
  | ldf => exact nextAll_finish h (memWf_ldf h ..)
  | ldx => exact nextAll_finish h (memWf_ldx h ..)
  | stf => exact nextAll_finish h (memWf_stf h ..)
  | stfa => exact nextAll_finish h (memWf_stfa h ..)
  | feclr => exact nextAll_finish h (memWf_feclr h ..)
  | waitListBusyReissue => exact nextAll_execWaitListBusyReissue h ..
  | lq => exact nextAll_guarded h _ (memWf_lqRow h ..)
  | loadQueueRowFill => exact nextAll_execLoadQueueRowFill h ..
  | sq => exact nextAll_guarded h _ (memWf_sqRow h ..)
  | atom => exact nextAll_finish h (memWf_rmw h ..)
  | cas => exact nextAll_finish h (memWf_rmw h ..)
  | stg => exact nextAll_finish h (memWf_postedStore h ..)
  | stgLone => exact nextAll_finish h (memWf_postedStore h ..)
  | stgAcknowledgement => exact nextAll_execStgAcknowledgement h ..
  | fence => exact nextAll_guarded h _ (memWf_fence h _)
  | rflush => exact nextAll_guarded h _ (memWf_rangeOp h ..)
  | rinv => exact nextAll_guarded h _ (memWf_rangeOp h ..)
  | cacheWalk => exact nextAll_execCacheWalk h ..
  | cld => exact nextAll_guarded h _ (memWf_cld h ..)
  | cst => exact nextAll_guarded h _ (memWf_cst h ..)
  | cnar => exact nextAll_guarded h _ (memWf_cnar h ..)
  | cgive => exact nextAll_guarded h _ (memWf_cgive h ..)
  | br => exact memWf_setPc h _
  | brLone => exact memWf_setPc h _
  | bc => exact memWf_branchIf h ..
  | bcLone => exact memWf_branchIf h ..
  | jal => exact memWf_setPc (memWf_setReg _ _ h) _
  | jalLone => exact memWf_setPc (memWf_setReg _ _ h) _
  | jr => exact nextAll_guarded h _ (memWf_jumpReg h ..)
  | loop => exact memWf_setPc (memWf_setReg _ _ h) _
  | li => exact memWf_setReg _ _ h
  | lih => exact memWf_setReg _ _ h
  | spawn => exact nextAll_execSpawn h ..
  | spawnLone => exact nextAll_finish (memWf_decideInl h) (memWf_spawn (memWf_decideInl h) ..)
  | await => exact nextAll_guarded h _ (memWf_awaitJoin h ..)
  | done => exact nextAll_guarded h _ (memWf_done h)
  | migrate => exact nextAll_guarded h _ (memWf_migrate h _)
  | send => exact nextAll_guarded h _ (memWf_sendWord h ..)
  | sende => exact nextAll_guarded h _ (memWf_sendLast h ..)
  | waitm => exact nextAll_guarded h _ (memWf_waitMessage h)
  | popm => exact nextAll_guarded h _ (memWf_popMessage h _)
  | epushMat => exact nextAll_guarded h _ (memWf_pushMat h _)
  | epushCopy => exact nextAll_guarded h _ (memWf_pushCopy h _)
  | epop => exact nextAll_guarded h _ (memWf_popResult h ..)
  | mma => exact nextAll_guarded h _ (memWf_mma h ..)
  | mmae => exact nextAll_guarded h _ (memWf_mmae h ..)
  | ringset => exact nextAll_guarded h _ (memWf_ringset h ..)
  | claim => exact nextAll_guarded h _ (memWf_claim h ..)
  | shrink => exact nextAll_guarded h _ (memWf_shrink h _)
  | vallot => exact nextAll_guarded h _ (memWf_vallot h ..)
  | gang => exact nextAll_guarded h _ (memWf_gangUp h)
  | ungang => exact nextAll_guarded h _ (memWf_ungangUp h)
  | tdesc => exact nextAll_guarded h _ (memWf_descend h ..)
  | tback => exact nextAll_guarded h _ (memWf_backUp h ..)
  | tbackLevel => exact memWf_jobStep h ..
  | texp => exact nextAll_guarded h _ (memWf_expand h ..)
  | tfill => exact nextAll_guarded h _ (memWf_fillNode h ..)
  | tseal => exact nextAll_guarded h _ (memWf_seal h ..)
  | trec => exact nextAll_guarded h _ (memWf_recycle h ..)
  | tabort => exact nextAll_guarded h _ (memWf_abortWalk h ..)
  | tabortUnwind => exact memWf_jobStep h ..
  | tform => exact nextAll_guarded h _ (memWf_loadFormula h ..)
  | lzres => exact nextAll_guarded h _ (memWf_lzres h ..)
  | lzexp => exact nextAll_guarded h _ (memWf_lzexp h ..)
  | lzwait => exact nextAll_guarded h _ (memWf_lzwait h ..)
  | lzfree => exact nextAll_guarded h _ (memWf_lzfree h ..)
  | lzcfg => exact nextAll_guarded h _ (memWf_lzcfg h ..)
  | lzstat => exact nextAll_guarded h _ (memWf_lzstat h ..)
  | csrr => exact nextAll_finish h (memWf_csrRead h ..)
  | csrw => exact nextAll_finish h (memWf_csrWrite h ..)
  | openWalk => exact nextAll_finish h (memWf_writeTicket h _)
  | adoptWalk => exact nextAll_finish h (memWf_writeTicket h _)
  | ticketClear => exact nextAll_finish h (memWf_writeTicket h _)
  | trap => exact nextAll_guarded h _ rfl
  | eret => exact nextAll_guarded h _ (memWf_trapReturn h)
  | yield => exact nextAll_guarded h _ (memWf_yieldTurn h)
  | asfl => exact nextAll_guarded h _ (memWf_asFlush h _)
  | asbar => exact nextAll_guarded h _ (memWf_asBarrier h)
  | couple => exact nextAll_guarded h _ (memWf_coupleUp h)
  | uncouple => exact nextAll_guarded h _ (memWf_uncoupleUp h)
  | wake => exact nextAll_guarded h _ (memWf_wakeContext h _)
  | almr => exact nextAll_guarded h _ (memWf_almRead h ..)
  | almw => exact nextAll_guarded h _ (memWf_almWrite h ..)
  | dtrd => exact nextAll_guarded h _ (memWf_tableRead h ..)
  | dtwr => exact nextAll_guarded h _ (memWf_tableWrite h ..)
  | nopA => exact h
  | add => exact nextAll_writeIf _ _ _ h
  | sub => exact nextAll_writeIf _ _ _ h
  | addi => exact nextAll_writeIf _ _ _ h
  | mul => exact nextAll_writeIf _ _ _ h
  | mulh => exact nextAll_writeIf _ _ _ h
  | div => exact nextAll_writeIf _ _ _ h
  | divu => exact nextAll_writeIf _ _ _ h
  | rem => exact nextAll_writeIf _ _ _ h
  | remu => exact nextAll_writeIf _ _ _ h
  | and => exact nextAll_writeIf _ _ _ h
  | andn => exact nextAll_writeIf _ _ _ h
  | or => exact nextAll_writeIf _ _ _ h
  | xor => exact nextAll_writeIf _ _ _ h
  | shl => exact nextAll_writeIf _ _ _ h
  | shlImm => exact nextAll_writeIf _ _ _ h
  | shr => exact nextAll_writeIf _ _ _ h
  | shrImm => exact nextAll_writeIf _ _ _ h
  | sar => exact nextAll_writeIf _ _ _ h
  | sarImm => exact nextAll_writeIf _ _ _ h
  | min => exact nextAll_writeIf _ _ _ h
  | max => exact nextAll_writeIf _ _ _ h
  | minu => exact nextAll_writeIf _ _ _ h
  | maxu => exact nextAll_writeIf _ _ _ h
  | cmp => exact nextAll_predIf _ _ _ h
  | sel => exact nextAll_writeIf _ _ _ h
  | bits => exact nextAll_writeIf _ _ _ h
  | ext => exact nextAll_writeIf _ _ _ h
  | extS => exact nextAll_writeIf _ _ _ h
  | ins => exact nextAll_writeIf _ _ _ h
  | fadd => exact nextAll_fpIf _ _ _ h
  | fsub => exact nextAll_fpIf _ _ _ h
  | fmul => exact nextAll_fpIf _ _ _ h
  | fma => exact nextAll_fpIf _ _ _ h
  | fms => exact nextAll_fpIf _ _ _ h
  | fmin => exact nextAll_fpIf _ _ _ h
  | fmax => exact nextAll_fpIf _ _ _ h
  | fcmp => exact nextAll_execFcmp h ..
  | fcvt => exact nextAll_fpIf _ _ _ h
  | vadd => exact nextAll_handEntry _ _ _ _ h
  | vsub => exact nextAll_handEntry _ _ _ _ h
  | vmul => exact nextAll_handEntry _ _ _ _ h
  | vfma => exact nextAll_handEntry _ _ _ _ h
  | vmin => exact nextAll_handEntry _ _ _ _ h
  | vmax => exact nextAll_handEntry _ _ _ _ h
  | vcmp => exact nextAll_handEntry _ _ _ _ h
  | vsel => exact nextAll_handEntry _ _ _ _ h
  | vred => exact nextAll_handScalar _ _ _ _ h
  | vcvt => exact nextAll_handEntry _ _ _ _ h
  | vdec => exact nextAll_handEntry _ _ _ _ h
  | venc => exact nextAll_handEntry _ _ _ _ h
  | vscl => exact nextAll_handEntry _ _ _ _ h
  | vperm => exact nextAll_handEntry _ _ _ _ h
  | vbcast => exact nextAll_handEntry _ _ _ _ h
  | vextr => exact nextAll_handScalar _ _ _ _ h
  | vidx => exact nextAll_handEntry _ _ _ _ h
  | vloop => exact nextAll_guarded h _ (memWf_markRun h ..)
  | vsfu => exact nextAll_handEntry _ _ _ _ h
  | vsort => exact nextAll_handScalar _ _ _ _ h
  | vksel => exact nextAll_handScalar _ _ _ _ h
  | vrand => exact nextAll_handEntry _ _ _ _ h
  | vimask => exact nextAll_handEntry _ _ _ _ h
  | vsync => exact nextAll_handScalar _ _ _ _ h
  | issueTurn => exact memWf_issueTurn h _
  | rank1Step => exact memWf_matStep h ..
  | rotationBoundary => exact memWf_boundary h
  | preemptTimerExpiry => exact memWf_timerExpires h ..
  | preEmption => exact memWf_takePreempt h ..
  | pktHoldTimeout => exact memWf_holdTimeout h ..
  | resumption => exact memWf_resumeSaved h ..
  | translationWalk => exact memWf_finishWalk h ..
  | wokenContextRestore => exact memWf_restoreWoken h ..
  | steal => exact memWf_stealWork h ..
  | takeArrival => exact memWf_takeArrival h ..
  | replyWritten => exact memWf_writeReply h ..
  | storePerformed => exact memWf_performHead h _
  | packetDelivery => exact nextAll_execPacketDelivery h ..
  | handlerStart => exact nextAll_execHandlerStart h ..
  | arrivalRecordAccept => exact nextAll_execArrivalRecordAccept h ..
  | equinoxSweep => exact memWf_sweepAll h
  | queueTailTake => exact memWf_takeTail h _
  | launchPlacement => exact memWf_launchHead h _
  | classifierWindow => exact memWf_classify h _
  | sequencerEntryRun => exact memWf_getD (memWf_sequencerTurn h ..) h
  | sfuRequestServe => exact nextAll_execSfuRequestServe h ..
  | copyCommandStart => exact memWf_startCopy h _
  | commandCompletion => exact memWf_complete h _
  | multicastPieceDrain => exact memWf_drainPiece h _
  | arrivalUnit => exact nextAll_execArrivalUnit h ..
  | intervalEnd => exact memWf_endInterval h ..
  | flitReplay => exact nextAll_execFlitReplay h ..
  | laneMarginStepDown => exact memWf_modLink h ..
  | laneTrainingFailure => exact memWf_laneFails h ..
  | linkDown => exact memWf_dropLink h _
  | powerSample => exact nextAll_execPowerSample h ..
  | ageingSensorUpdate => exact nextAll_execAgeingSensorUpdate h ..
  | dramBatchMark => exact nextAll_execDramBatchMark h ..
  | dramCapWindow => exact memWf_upd h
  | llcEviction => exact memWf_evict h _
  | coldReset => exact memWf_coldReset h ..
  | functionLevelReset => exact memWf_resetVf h _
  | fillApertureWrite => exact memWf_apertureWrite h ..
  | spdmAttestation => exact memWf_upd h
  | setWayMasks => exact memWf_modClass h ..
  | setDramCap => exact memWf_modClass h ..
  | setVcWeights => exact memWf_modClass h ..
  | writeKeySlot => exact nextAll_execWriteKeySlot h ..
  | writeRouteEntry => exact nextAll_execWriteRouteEntry h ..
  | writeQueueDescriptor => exact memWf_writeDescriptor h ..
  | setTenantAreas => exact memWf_setAreas h ..
  | setAsidRoot => exact nextAll_execSetAsidRoot h ..
  | setPowerCap => exact nextAll_execSetPowerCap h ..
  | takeLinkDown => exact memWf_dropLink h _
  | retrainLink => exact memWf_modLink h ..
  | supervisorPreempt => exact memWf_requestPreempt h ..
  | releaseKilledSlot => exact nextAll_execReleaseKilledSlot h ..
  | abortLaunch => exact memWf_abort h _
  | injectPreempt => exact memWf_requestPreempt h ..
  | injectEcc => exact memWf_modSlot _ _ _ h
  | setBreakpoint => exact memWf_upd h
  | setAgeingThreshold => exact memWf_upd h
  | ageingWarnClear => exact memWf_upd h
  | atsInvalidation => exact memWf_upd h
  | bindQueueToVf => exact nextAll_execBindQueueToVf h ..

@[simp] theorem memWf_run (i : Instr) : MemWf (run i s) = true := by
  have he := nextAll_exec h i
  unfold run
  split
  · next ht => exact memWf_of_next he ht
  · exact h
  · exact h

theorem nextAll_step : nextAll (step s) = true := by
  have hrun : ∀ i s, MemWf s = true → MemWf (run i s) = true := fun i _ h => memWf_run h i
  unfold step
  split
  · have he := memWf_early h run hrun
    split
    · next ht => exact memWf_of_some he ht
    · rfl
  · exact memWf_bootStep h run _ hrun
  · split
    · exact memWf_runGroup (memWf_upd h) run hrun
    · split
      · exact nextAll_exec (memWf_upd h) _
      · exact memWf_proceed h run hrun

end

end Sys2Proof.Machine

namespace Sys2Proof.Proofs

open Sys2Proof Sys2Proof.Machine

/-- Settles O8: every function of the machine that gives a state gives one with canonical memories for one with canonical memories. -/
theorem everyStepKeepsMemoryCanonical : Obligations.EveryStepKeepsMemoryCanonical := by
  unfold Obligations.EveryStepKeepsMemoryCanonical
  intro s t h hstep
  exact memWf_of_next (nextAll_step h) hstep

end Sys2Proof.Proofs
end
